-- ==== Sys2Proof/Word.lean ====
section
/-! DEFINITION. The word types of the SW418: bytes of its links, item keys, and the indices of its replicated blocks. -/

namespace Sys2Proof

/-- One byte of the host link or of a field link (R164, R183). -/
abbrev Byte := BitVec 8

/-- The library's 48-bit item number (R46). -/
abbrev ItemKey := BitVec 48

/-- An aisle, and the crane, scheduler and drive link that take its number (manual overview, Table 3). -/
abbrev Aisle := Fin 8

/-- A station, and the fire zone that takes its number (manual overview, Table 2). -/
abbrev Station := Fin 4

/-- One of the ten fire-panel inputs: 0..3 are ALERT0..3, 4..7 are FIRE0..3, 8 is FIRE_ALL, 9 is PANEL_CLEAR
(section 8.1; the order is that of the signal summary). -/
abbrev FireInput := Fin 10

/-- The four actions of a transaction of the host link (R164 Table 1). -/
inductive Access where
  | writeCommand | readReply | readStatus | readAndClear
  deriving DecidableEq, Repr

/-- Which part of a read transaction a row is (R164). `capture`: its access code is complete, and what the part will send is
captured. `finish`: the release of HSEL_N, where its action is taken. `whole`: both, with nothing taken in between. -/
inductive ReadPart where
  | whole | capture | finish
  deriving DecidableEq, Repr

end Sys2Proof
end

