-- ==== Sys2Proof/Config.lean ====
section
/-! DEFINITION. The fixed sizes and limits of the SW418. The manual leaves no result of an operation open that the model
needs as a free value (NOTES.md, Assumptions), so this file holds plain constants only. -/

namespace Sys2Proof.Config

/-- Bin records are numbered 0..16,383 (R1). -/
def binCount : Nat := 16384

/-- Withdrawal Table buckets are numbered 0..4,095 (R46). -/
def bucketCount : Nat := 4096

/-- Visit numbers are 0..63 (R22). -/
def visitCount : Nat := 64

/-- A visit's task list holds at most 8 tasks (R34). -/
def taskLimit : Nat := 8

/-- The lane of a station has three places (R120). -/
def laneLength : Nat := 3

/-- Parameters are numbered 0..40 (R174). -/
def paramCount : Nat := 41

/-- Counts of the crane record and the scan pass count stay at this value (R96, R157). -/
def countLimit : Nat := 65535

/-- The result list of channel Q holds at most 16 entries (R157). -/
def resultLimit : Nat := 16

/-- A command message has at most 32 bytes (R164). -/
def messageLimit : Nat := 32

/-- Restart waits at most this many ms for its reply to be read (R173). -/
def restartWait : Nat := 1000

/-- Line Test drives the panel line after this many ms (R136). -/
def lineTestHalf : Nat := 125

/-- Line Test runs for this many ms (R136). -/
def lineTestLength : Nat := 250

/-- The due day window of Lend reaches this many days past today (R55). -/
def dueWindow : Nat := 1000

/-- The greatest day number (R53). -/
def dayLimit : Nat := 65535

/-- The ms time counter is 48 bits wide (R181). -/
def msModulus : Nat := 2 ^ 48

/-- The value a count of retries stays at: the range the record of R96 gives it. -/
def retryCountLimit : Nat := 20

end Sys2Proof.Config
end

