-- ==== Sys2Proof/Syntax.lean ====
section
/-! DEFINITION. The commands of the SW418: one constructor per row of spec/opcode_table.json. -/

namespace Sys2Proof

/-- A level change at a limit switch or beam is named by the row; a fire-panel input carries its pin level. Everything
the part takes is one term of this type. A host command carries `body`, the bytes of its command message after the command
code (the length byte first, R165, R182), so that a message of any length can be written. A read transaction is whole
unless `part` names its capture or its end (R164). Events of the timers carry only the block they belong to. Rows of the drive and panel links carry the content bytes of one whole message (R183). -/
inductive Instr where
  -- host link transactions (R164 to R172)
  | writeCommandDiscarded (message : List Byte)
  | unknownCommand (code : Byte) (body : List Byte)
  | readReply (clocked : Nat) (bkok : Bool) (part : ReadPart := .whole)
  | readStatusTransaction (part : ReadPart := .whole)
  | readAndClearAttention (part : ReadPart := .whole)
  -- reads
  | readStatus (body : List Byte)
  | readBin (body : List Byte)
  | readSlot (body : List Byte)
  | findItem (body : List Byte)
  | readWithdrawalBucket (body : List Byte)
  | readVisit (body : List Byte)
  | readCrane (body : List Byte)
  | readStation (body : List Byte)
  | readZone (body : List Byte)
  | readParameter (body : List Byte)
  -- records
  | admitBin (body : List Byte)
  | alterBin (body : List Byte)
  | retireBin (body : List Byte)
  | blockSlot (body : List Byte)
  | unblockSlot (body : List Byte)
  | setProtection (body : List Byte)
  -- work
  | lend (body : List Byte)
  | returnItem (body : List Byte)
  | refile (body : List Byte)
  | fetch (body : List Byte)
  | moveHome (body : List Byte)
  | cancelTask (body : List Byte)
  | cancelVisit (body : List Byte)
  | retireVisit (body : List Byte)
  | writeOffItem (body : List Byte)
  -- scans
  | startScan (body : List Byte)
  | readScanResults (body : List Byte)
  | stopScan (body : List Byte)
  -- machinery
  | suspendAisle (body : List Byte)
  | resumeAisle (body : List Byte)
  | clearCrane (body : List Byte)
  | restoreZone (body : List Byte)
  | drill (body : List Byte)
  | lineTest (body : List Byte)
  | reopenStation (body : List Byte)
  -- set-up
  | setParameter (body : List Byte)
  | setDay (body : List Byte)
  | finishCommissioning (body : List Byte)
  | enterCommissioning (body : List Byte)
  | restart (body : List Byte)
  -- resets and the timebase (R173, R179, R181)
  | restartTimeout (bkok : Bool)
  | powerOn (bkok : Bool)
  | resetAsserted (bkok : Bool)
  | resetReleased
  | timebaseTick
  -- drive reports (R99, R183)
  | mark (aisle : Aisle) (axis index : Byte)
  | arrived (aisle : Aisle)
  | forkDone (aisle : Aisle)
  | homed (aisle : Aisle)
  | currentLimit (aisle : Aisle)
  | noLoad (aisle : Aisle)
  | supply (aisle : Aisle) (condition : Byte)
  | driveReportDiscarded (aisle : Aisle)
  | driveByteTimeout (aisle : Aisle)
  -- crane timers
  | deadlineExpiry (aisle : Aisle)
  | retryDelayExpiry (aisle : Aisle)
  | restTimerExpiry (aisle : Aisle)
  -- panel messages (R133, R134)
  | itemScan (station : Station) (key : ItemKey)
  | panelDone (station : Station)
  | keep (station : Station)
  | problem (station : Station) (code : Byte)
  | panelMessageDiscarded (station : Station)
  | panelByteTimeout (station : Station)
  -- station sensors and timers (R122 to R132)
  | beamBlocked (station : Station)
  | beamClear (station : Station)
  | crossingMaxExpiry (station : Station)
  | faceTimerExpiry (station : Station)
  | openLimitAsserted (station : Station)
  | openLimitReleased (station : Station)
  | closedLimitAsserted (station : Station)
  | closedLimitReleased (station : Station)
  | shutterTravelExpiry (station : Station)
  | holdTimerExpiry (zone : Station)
  -- Line Test (R136)
  | lineTestDrive (station : Station) (lineLow : Bool)
  | lineTestEnd (station : Station) (readHigh : Bool)
  -- fire-panel inputs (R139)
  | inputLevelChange (input : FireInput) (high : Bool)
  | deglitchWindowExpiry (input : FireInput)
  -- scan engine steps (R71, R159)
  | placementSearchStep
  | scanStep
  -- a command write too short to carry a code and a length (R165)
  | commandWriteBadFraming (message : List Byte)
  deriving DecidableEq, Repr

end Sys2Proof
end

