-- ==== Sys2Proof/WellFormed.lean ====
section
/-! DEFINITION. Which terms of Instr are rows as the spec means them: a command message fits its row's framing, and the content of
a field message lies in its lists (R165, R183). -/

namespace Sys2Proof

/-- The bytes after a command code, in a message of 2 to 32 bytes (R164). -/
def bodyOk (body : List Byte) : Bool := decide (1 ≤ body.length) && decide (body.length < Config.messageLimit)

/-- The command codes of section 10.6 Table 3. -/
def knownCodes : List Nat :=
  [0x01, 0x10, 0x11, 0x12, 0x13, 0x14, 0x15, 0x16, 0x17, 0x18, 0x20, 0x21, 0x22, 0x23, 0x24, 0x25, 0x30, 0x31, 0x32, 0x33,
    0x34, 0x35, 0x36, 0x37, 0x38, 0x40, 0x41, 0x42, 0x50, 0x51, 0x52, 0x60, 0x61, 0x68, 0x69, 0x70, 0x71, 0x72, 0x73, 0x74]

/-- A term is a row as the spec means it. -/
def WellFormed (i : Instr) : Bool :=
  match i with
  | .unknownCommand code body => !knownCodes.contains code.toNat && bodyOk body
  | .commandWriteBadFraming message =>
    decide (message.length < 2) || decide (Config.messageLimit < message.length)
  | .mark _ axis _ => decide (axis.toNat < 2)
  | .supply _ condition => decide (condition.toNat < 3)
  | .problem _ code => decide (code.toNat < 3)
  | .readStatus body => bodyOk body
  | .readBin body => bodyOk body
  | .readSlot body => bodyOk body
  | .findItem body => bodyOk body
  | .readWithdrawalBucket body => bodyOk body
  | .readVisit body => bodyOk body
  | .readCrane body => bodyOk body
  | .readStation body => bodyOk body
  | .readZone body => bodyOk body
  | .readParameter body => bodyOk body
  | .admitBin body => bodyOk body
  | .alterBin body => bodyOk body
  | .retireBin body => bodyOk body
  | .blockSlot body => bodyOk body
  | .unblockSlot body => bodyOk body
  | .setProtection body => bodyOk body
  | .lend body => bodyOk body
  | .returnItem body => bodyOk body
  | .refile body => bodyOk body
  | .fetch body => bodyOk body
  | .moveHome body => bodyOk body
  | .cancelTask body => bodyOk body
  | .cancelVisit body => bodyOk body
  | .retireVisit body => bodyOk body
  | .writeOffItem body => bodyOk body
  | .startScan body => bodyOk body
  | .readScanResults body => bodyOk body
  | .stopScan body => bodyOk body
  | .suspendAisle body => bodyOk body
  | .resumeAisle body => bodyOk body
  | .clearCrane body => bodyOk body
  | .restoreZone body => bodyOk body
  | .drill body => bodyOk body
  | .lineTest body => bodyOk body
  | .reopenStation body => bodyOk body
  | .setParameter body => bodyOk body
  | .setDay body => bodyOk body
  | .finishCommissioning body => bodyOk body
  | .enterCommissioning body => bodyOk body
  | .restart body => bodyOk body
  | .writeCommandDiscarded _ => true
  | .readReply _ _ _ => true
  | .readStatusTransaction _ => true
  | .readAndClearAttention _ => true
  | .restartTimeout _ => true
  | .powerOn _ => true
  | .resetAsserted _ => true
  | .resetReleased => true
  | .timebaseTick => true
  | .arrived _ => true
  | .forkDone _ => true
  | .homed _ => true
  | .currentLimit _ => true
  | .noLoad _ => true
  | .driveReportDiscarded _ => true
  | .driveByteTimeout _ => true
  | .deadlineExpiry _ => true
  | .retryDelayExpiry _ => true
  | .restTimerExpiry _ => true
  | .itemScan _ _ => true
  | .panelDone _ => true
  | .keep _ => true
  | .panelMessageDiscarded _ => true
  | .panelByteTimeout _ => true
  | .beamBlocked _ => true
  | .beamClear _ => true
  | .crossingMaxExpiry _ => true
  | .faceTimerExpiry _ => true
  | .openLimitAsserted _ => true
  | .openLimitReleased _ => true
  | .closedLimitAsserted _ => true
  | .closedLimitReleased _ => true
  | .shutterTravelExpiry _ => true
  | .holdTimerExpiry _ => true
  | .lineTestDrive _ _ => true
  | .lineTestEnd _ _ => true
  | .inputLevelChange _ _ => true
  | .deglitchWindowExpiry _ => true
  | .placementSearchStep => true
  | .scanStep => true

end Sys2Proof
end

