-- ==== Sys2Proof/Decode.lean ====
section
/-! DEFINITION. The opcode table gives no row any bits, so no word spells a command. What the part reads from bytes is here: the
row a transaction is (R164, R182), the row a command message is (R165), the rows that whole and broken messages of the field links are (R133, R183), and the
bytes of each such row. -/

namespace Sys2Proof

/-- The command that a word spells by the table's bits: none, since no row has bits. -/
def decodeTableWord (_nbits _w : Nat) : Option Instr := none

/-! ### The host link (R164, R165, section 10.6 Table 3) -/

/-- The row of a command code, given the bytes after the code. -/
def commandRow (code : Byte) (body : List Byte) : Option Instr :=
  match code.toNat with
  | 0x01 => some (.readStatus body)
  | 0x10 => some (.readBin body)
  | 0x11 => some (.readSlot body)
  | 0x12 => some (.findItem body)
  | 0x13 => some (.readWithdrawalBucket body)
  | 0x14 => some (.readVisit body)
  | 0x15 => some (.readCrane body)
  | 0x16 => some (.readStation body)
  | 0x17 => some (.readZone body)
  | 0x18 => some (.readParameter body)
  | 0x20 => some (.admitBin body)
  | 0x21 => some (.alterBin body)
  | 0x22 => some (.retireBin body)
  | 0x23 => some (.blockSlot body)
  | 0x24 => some (.unblockSlot body)
  | 0x25 => some (.setProtection body)
  | 0x30 => some (.lend body)
  | 0x31 => some (.returnItem body)
  | 0x32 => some (.refile body)
  | 0x33 => some (.fetch body)
  | 0x34 => some (.moveHome body)
  | 0x35 => some (.cancelTask body)
  | 0x36 => some (.cancelVisit body)
  | 0x37 => some (.retireVisit body)
  | 0x38 => some (.writeOffItem body)
  | 0x40 => some (.startScan body)
  | 0x41 => some (.readScanResults body)
  | 0x42 => some (.stopScan body)
  | 0x50 => some (.suspendAisle body)
  | 0x51 => some (.resumeAisle body)
  | 0x52 => some (.clearCrane body)
  | 0x60 => some (.restoreZone body)
  | 0x61 => some (.drill body)
  | 0x68 => some (.lineTest body)
  | 0x69 => some (.reopenStation body)
  | 0x70 => some (.setParameter body)
  | 0x71 => some (.setDay body)
  | 0x72 => some (.finishCommissioning body)
  | 0x73 => some (.enterCommissioning body)
  | 0x74 => some (.restart body)
  | _ => none

/-- The row of a command message: its framing is examined first, then its code (R165). -/
def decodeMessage (message : List Byte) : Instr :=
  match message with
  | [] => .commandWriteBadFraming []
  | [code] => .commandWriteBadFraming [code]
  | code :: body =>
    if Config.messageLimit < message.length then .commandWriteBadFraming message
    else (commandRow code body).getD (.unknownCommand code body)

/-- The bytes of a command message, for the rows that are one. -/
def encodeMessage (i : Instr) : Option (List Byte) :=
  match i with
  | .readStatus body => some (0x01 :: body)
  | .readBin body => some (0x10 :: body)
  | .readSlot body => some (0x11 :: body)
  | .findItem body => some (0x12 :: body)
  | .readWithdrawalBucket body => some (0x13 :: body)
  | .readVisit body => some (0x14 :: body)
  | .readCrane body => some (0x15 :: body)
  | .readStation body => some (0x16 :: body)
  | .readZone body => some (0x17 :: body)
  | .readParameter body => some (0x18 :: body)
  | .admitBin body => some (0x20 :: body)
  | .alterBin body => some (0x21 :: body)
  | .retireBin body => some (0x22 :: body)
  | .blockSlot body => some (0x23 :: body)
  | .unblockSlot body => some (0x24 :: body)
  | .setProtection body => some (0x25 :: body)
  | .lend body => some (0x30 :: body)
  | .returnItem body => some (0x31 :: body)
  | .refile body => some (0x32 :: body)
  | .fetch body => some (0x33 :: body)
  | .moveHome body => some (0x34 :: body)
  | .cancelTask body => some (0x35 :: body)
  | .cancelVisit body => some (0x36 :: body)
  | .retireVisit body => some (0x37 :: body)
  | .writeOffItem body => some (0x38 :: body)
  | .startScan body => some (0x40 :: body)
  | .readScanResults body => some (0x41 :: body)
  | .stopScan body => some (0x42 :: body)
  | .suspendAisle body => some (0x50 :: body)
  | .resumeAisle body => some (0x51 :: body)
  | .clearCrane body => some (0x52 :: body)
  | .restoreZone body => some (0x60 :: body)
  | .drill body => some (0x61 :: body)
  | .lineTest body => some (0x68 :: body)
  | .reopenStation body => some (0x69 :: body)
  | .setParameter body => some (0x70 :: body)
  | .setDay body => some (0x71 :: body)
  | .finishCommissioning body => some (0x72 :: body)
  | .enterCommissioning body => some (0x73 :: body)
  | .restart body => some (0x74 :: body)
  | .unknownCommand code body => some (code :: body)
  | .commandWriteBadFraming message => some message
  | _ => none

/-! ### Transactions (R164, R182) -/

/-- The byte of an access code (R182). -/
def Access.code : Access → Byte
  | .writeCommand => 0x01
  | .readReply => 0x02
  | .readStatus => 0x03
  | .readAndClear => 0x04

/-- The action that the first byte of a transaction selects, if it is one of the four access codes (R164, R182). -/
def accessOf (b : Byte) : Option Access :=
  match b.toNat with
  | 0x01 => some .writeCommand
  | 0x02 => some .readReply
  | 0x03 => some .readStatus
  | 0x04 => some .readAndClear
  | _ => none

/-- The row of a whole transaction with the bytes the host sent, the access code first (R164). A transaction with another first
byte, or with none, is ignored and is no row. `bkok` is the level a reset that a read-reply transaction begins would find. -/
def decodeTransaction (bkok : Bool) (sent : List Byte) : Option Instr :=
  match sent with
  | [] => none
  | code :: rest => (accessOf code).map fun x =>
    match x with
    | .writeCommand => decodeMessage rest
    | .readReply => .readReply rest.length bkok
    | .readStatus => .readStatusTransaction
    | .readAndClear => .readAndClearAttention

/-! ### The field links (R133, R183) -/

/-- The even parity bit of a byte: the nine bits hold an even number of ones. -/
def evenParity (b : Byte) : Bool := (List.range 8).foldl (fun p i => p != b.getLsbD i) false

/-- Every byte arrives with its parity bit. -/
def parityOk (bytes : List (Byte × Bool)) : Bool := bytes.all fun e => evenParity e.1 == e.2

/-- The row of the bytes of a drive report: an unknown type, a length that does not match it or a code outside its list discards
the report (R183). -/
def driveRow (a : Aisle) : List Byte → Instr
  | type :: len :: content =>
    match type.toNat, len.toNat, content with
    | 0x41, 2, [axis, index] => if axis.toNat < 2 then .mark a axis index else .driveReportDiscarded a
    | 0x42, 0, [] => .arrived a
    | 0x43, 0, [] => .forkDone a
    | 0x44, 0, [] => .homed a
    | 0x45, 0, [] => .currentLimit a
    | 0x46, 0, [] => .noLoad a
    | 0x47, 1, [condition] => if condition.toNat < 3 then .supply a condition else .driveReportDiscarded a
    | _, _, _ => .driveReportDiscarded a
  | _ => .driveReportDiscarded a

/-- The row of a whole message from a drive; a parity error discards it (R183). -/
def decodeDrive (a : Aisle) (bytes : List (Byte × Bool)) : Instr :=
  if parityOk bytes then driveRow a (bytes.map (·.1)) else .driveReportDiscarded a

/-- The row of the bytes of a panel message (R133, R183). -/
def panelRow (z : Station) : List Byte → Instr
  | type :: len :: content =>
    match type.toNat, len.toNat, content with
    | 0x11, 6, [k5, k4, k3, k2, k1, k0] => .itemScan z (k5 ++ k4 ++ k3 ++ k2 ++ k1 ++ k0)
    | 0x12, 0, [] => .panelDone z
    | 0x13, 0, [] => .keep z
    | 0x14, 1, [code] => if code.toNat < 3 then .problem z code else .panelMessageDiscarded z
    | _, _, _ => .panelMessageDiscarded z
  | _ => .panelMessageDiscarded z

/-- The row of a whole message from a panel unit; a parity error discards it (R133). -/
def decodePanel (z : Station) (bytes : List (Byte × Bool)) : Instr :=
  if parityOk bytes then panelRow z (bytes.map (·.1)) else .panelMessageDiscarded z

/-- The bytes of a message received on a field link, for the rows that are one. -/
def encodeField (i : Instr) : Option (List Byte) :=
  match i with
  | .mark _ axis index => some [0x41, 2, axis, index]
  | .arrived _ => some [0x42, 0]
  | .forkDone _ => some [0x43, 0]
  | .homed _ => some [0x44, 0]
  | .currentLimit _ => some [0x45, 0]
  | .noLoad _ => some [0x46, 0]
  | .supply _ condition => some [0x47, 1, condition]
  | .itemScan _ key =>
    some [0x11, 6, key.extractLsb' 40 8, key.extractLsb' 32 8, key.extractLsb' 24 8, key.extractLsb' 16 8,
      key.extractLsb' 8 8, key.extractLsb' 0 8]
  | .panelDone _ => some [0x12, 0]
  | .keep _ => some [0x13, 0]
  | .problem _ code => some [0x14, 1, code]
  | _ => none

/-- The bytes of a message with the parity bit of each. -/
def withParity (bytes : List Byte) : List (Byte × Bool) := bytes.map fun b => (b, evenParity b)

end Sys2Proof
end

