-- ==== Sys2Proof/Machine/State.lean ====
section
/-! DEFINITION. The state of the SW418 as plain data: the Record Memory, the records of every block, the pins the part
reads, what it has sent, and the queue of commands waiting; and the state right after a power-on with retention lost. -/

namespace Sys2Proof.Machine

/-- Why the part would stop. No rule of the manual stops the SW418: a command that cannot be carried out is answered with
an outcome code and a mechanical fault is a state of a crane or a station. So no constructor is needed, and no step answers
a fault (safe: nothing is cut short). -/
inductive Fault where
  deriving DecidableEq, Repr

/-- Why the model would give no meaning to a command. -/
inductive Refusal where
  /-- Raised only by an arm of `exec` whose row has no meaning in the model yet (safe: the run stops there). No arm of this
  model raises it. -/
  | notModelled (mnemonic : String)
  deriving DecidableEq, Repr

/-- Records indexed by number and held sparsely: pairs of index and record, indices strictly rising, a number that is not
listed having no record (a free bin, an EMPTY slot, an empty bucket, a free visit entry). -/
abbrev Table (α : Type) := List (Nat × α)

/-! ### Named values (R182 Table 3 gives their codes) -/

/-- Rack side (R4). -/
inductive Side where
  | left | right
  deriving DecidableEq, Repr

/-- Where a fork works: a rack side or the mouth (R85, R98). -/
inductive ForkSide where
  | left | right | mouth
  deriving DecidableEq, Repr

/-- A slot of the racks (R4). -/
structure Slot where
  aisle  : Aisle
  column : Fin 96
  level  : Fin 12
  side   : Side
  deriving DecidableEq, Repr

/-- A Slot Map entry (R4 Table 3). -/
inductive SlotEntry where
  | empty
  | home (bin : Nat)
  | filled (bin : Nat)
  | target (bin : Nat)
  | blocked
  deriving DecidableEq, Repr

/-- Where a bin is (R3 Table 2). `opening` is LANE with the place detail OPENING. -/
inductive Location where
  | slot
  | crane (aisle : Aisle)
  | lane (station : Station) (place : Fin 3)
  | opening (station : Station)
  | face (station : Station)
  | outbound (station : Station)
  deriving DecidableEq, Repr

/-- An in-use bin record (R1 Table 1). -/
structure BinRec where
  sizeClass    : Nat
  capacity     : Nat
  fill         : Nat
  withdrawn    : Nat
  lendHolds    : Nat
  refileHolds  : Nat
  home         : Slot
  location     : Location
  openVisit    : Option Nat
  quarantined  : Bool
  stranded     : Bool
  obstructed   : Bool
  uncertain    : Bool
  lastVisitDay : Option Nat
  deriving DecidableEq, Repr

/-- Visit kinds (R24). -/
inductive VisitKind where
  | delivery | intake | relocation
  deriving DecidableEq, Repr

/-- Visit states (R25 Table 2). -/
inductive VisitState where
  | queued | outbound | inLane | presenting | atFace | withdrawing | atOutbound | inbound | moving | done | cancelled
  deriving DecidableEq, Repr

/-- How an ended visit ended (R28). -/
inductive VisitOutcome where
  | done | cancelled | removed
  deriving DecidableEq, Repr

/-- Task kinds (R34). -/
inductive TaskKind where
  | lend | return | refile | fetch
  deriving DecidableEq, Repr

/-- Task states (R35 Table 7). -/
inductive TaskState where
  | pending | confirmed | notFound | notPlaced | seen | cancelled
  deriving DecidableEq, Repr

/-- A task record (R34 Table 6). -/
structure TaskRec where
  kind         : TaskKind
  key          : Option ItemKey
  priority     : Nat
  urgent       : Bool
  dueDay       : Option Nat
  state        : TaskState
  fillMismatch : Bool
  deriving DecidableEq, Repr

/-- Reasons of a hold (R30 Table 4). -/
inductive HoldReason where
  | fire | reset | craneFault | aisleSuspended | stationOut
  deriving DecidableEq, Repr

/-- The hold of a visit: the set of its reasons; the hold is absent when none is in it (R30). -/
structure HoldSet where
  fire           : Bool
  reset          : Bool
  craneFault     : Bool
  aisleSuspended : Bool
  stationOut     : Bool
  deriving DecidableEq, Repr

/-- The hold with no reason. -/
def HoldSet.none : HoldSet := ⟨false, false, false, false, false⟩

/-- Problems the panel reported during a visit (R41). -/
structure ProblemSet where
  damaged  : Bool
  wrongBin : Bool
  empty    : Bool
  deriving DecidableEq, Repr

/-- A visit record (R23 Table 1), open or ended. -/
structure VisitRec where
  kind        : VisitKind
  bin         : Nat
  state       : VisitState
  created     : Nat
  priority    : Nat
  urgent      : Bool
  tasks       : List TaskRec
  hold        : HoldSet
  reservation : Bool
  target      : Option Slot
  problems    : ProblemSet
  outcome     : Option VisitOutcome
  deriving DecidableEq, Repr

/-- States of a withdrawal record (R46). -/
inductive WithdrawalState where
  | out | returning
  deriving DecidableEq, Repr

/-- A withdrawal record (R46 Table 1). -/
structure WithdrawalRec where
  key         : ItemKey
  homeBin     : Nat
  outDay      : Nat
  dueDay      : Nat
  state       : WithdrawalState
  returnVisit : Option Nat
  deriving DecidableEq, Repr

/-- One word of the Parameter Table with its parity bit (R174). -/
structure ParamWord where
  value  : BitVec 16
  parity : Bool
  deriving DecidableEq, Repr

/-- The two modes (R177, R178). -/
inductive Mode where
  | commissioning | service
  deriving DecidableEq, Repr

/-- The suspension mark of an aisle with the volatile difference of SUSPENDING and SUSPENDED (R79, R93). -/
inductive Suspension where
  | inService | suspending | suspended
  deriving DecidableEq, Repr

/-- Aisle service states (R79 Table 1). -/
inductive ServiceState where
  | absent | inService | suspending | suspended
  deriving DecidableEq, Repr

/-- An Aisle Scheduler's own record (R79). Its waiting mark is the station's waiting set (`StationRec.waiting0`, `waiting1`). -/
structure AisleRec where
  suspension : Suspension
  grant      : Bool
  deriving DecidableEq, Repr

/-- Crane states (R97 Table 2). -/
inductive CraneState where
  | offline | homing | ready | resting | waking | moving | retryWait | faulted | parking | parked
  deriving DecidableEq, Repr

/-- Segment kinds (R98). -/
inductive SegKind where
  | travel | forkPick | forkPlace | park | home
  deriving DecidableEq, Repr

/-- The segment in flight (R96, R100). A horizontal place is held as the drive link sends it: column + 1, so that the mouth
is 0 (R182). -/
structure SegmentRec where
  kind   : SegKind
  col    : Nat
  level  : Nat
  side   : ForkSide
  issued : Nat
  deriving DecidableEq, Repr

/-- Kinds of leg (R85 Table 5). -/
inductive LegKind where
  | outbound | inbound | relocation
  deriving DecidableEq, Repr

/-- The leg a crane holds (R96). `approach`: the segment in hand is a fork and a TRAVEL to its place is run before it
(R111). `cancelled`: a cancellation ended the visit, and no further segment of the leg is issued (R87). -/
structure LegRec where
  visit        : Nat
  bin          : Nat
  kind         : LegKind
  continuation : Bool
  seg          : Fin 4
  approach     : Bool
  cancelled    : Bool
  deriving DecidableEq, Repr

/-- Mark timing of one axis (R108). -/
structure MarkTiming where
  marks    : Nat
  last     : Nat
  interval : Nat
  deriving DecidableEq, Repr

/-- Fault classes (R104, R109). -/
inductive FaultClass where
  | overrun | slip | surge | speed | noDrive | supply
  deriving DecidableEq, Repr

/-- Fault action modes (R102 Table 6). -/
inductive FaultMode where
  | halt | retry | report | ignore
  deriving DecidableEq, Repr

/-- Supply conditions (R109). -/
inductive SupplyCond where
  | low | ok | high
  deriving DecidableEq, Repr

/-- A crane record (R96 Table 1), with its retry and rest timers (R88, R111), the leg a park order dropped (R114, R146) and
the marks that OVERRUN and SPEED have been taken in the segment (R105, R108). -/
structure CraneRec where
  state       : CraneState
  col         : Option Nat
  level       : Option Nat
  carried     : Option Nat
  leg         : Option LegRec
  dropped     : Option LegRec
  segment     : Option SegmentRec
  estimate    : Option Nat
  deadline    : Nat
  overran     : Bool
  retryCount  : Nat
  slipCount   : Nat
  surgeCount  : Nat
  timingH     : MarkTiming
  timingV     : MarkTiming
  speedTaken  : Bool
  parkOrder   : Bool
  latched     : Option FaultClass
  lastFault   : Option (FaultClass × Option SegKind)
  supply      : SupplyCond
  supplyFault : Bool
  homingClear : Bool
  totals      : Vector Nat 6
  unexpected  : Nat
  retryTimer  : Option Nat
  restTimer   : Option Nat
  deriving DecidableEq, Repr

/-- Crossing kinds (R122). -/
inductive CrossingKind where
  | present | withdraw
  deriving DecidableEq, Repr

/-- The crossing in flight with its timer (R119, R123, R126). -/
structure CrossingRec where
  kind     : CrossingKind
  bin      : Nat
  start    : Nat
  beamSeen : Bool
  timer    : Nat
  deriving DecidableEq, Repr

/-- Shutter states (R128 Table 5). -/
inductive Shutter where
  | open | closing | closed | opening
  deriving DecidableEq, Repr

/-- The last grant of a station's arbiter (R119). -/
inductive LastGrant where
  | none | first | second
  deriving DecidableEq, Repr

/-- The bin at a face and its visit (R119). -/
structure FaceRec where
  bin   : Nat
  visit : Nat
  deriving DecidableEq, Repr

/-- Codes of the PROBLEM message (R133). -/
inductive ProblemCode where
  | damaged | wrongBin | empty
  deriving DecidableEq, Repr

/-- A Line Test that is running (R136): the ms run, the shutter state at its start, what has been found so far, and the
panel messages to be answered at its end. -/
structure LineTestRec where
  elapsed      : Nat
  shutterStart : Shutter
  driven       : Bool
  lowBefore    : Bool
  beamWhole    : Bool
  bothLimits   : Bool
  noLimit      : Bool
  messages     : Nat
  deriving DecidableEq, Repr

/-- A station record (R119 Table 1), the levels of its three sensors, and the marks of what its shutter's travel answers
(R131, R132). The out causes are retained. -/
structure StationRec where
  lane           : List Nat
  resv0          : Nat
  resv1          : Nat
  waiting0       : Bool
  waiting1       : Bool
  lastGrant      : LastGrant
  face           : Option FaceRec
  outbound       : Option Nat
  crossing       : Option CrossingRec
  openingBin     : Option Nat
  shutter        : Shutter
  travelTimer    : Option Nat
  reopenOrdered  : Bool
  reopenCommand  : Bool
  holdOpen       : Bool
  closeOrder     : Bool
  jammed         : Bool
  reopenFault    : Bool
  faceLong       : Bool
  scanUnexpected : Bool
  panelLinkFlag  : Bool
  forced         : Bool
  shutterFault   : Bool
  problemFlag    : Bool
  lastKey        : Option ItemKey
  lastProblem    : Option (Nat × ProblemCode)
  faceTimer      : Option Nat
  discards       : Nat
  lineTest       : Option LineTestRec
  openLimit      : Bool
  closedLimit    : Bool
  beam           : Bool
  deriving DecidableEq, Repr

/-- Zone states (R141). -/
inductive ZoneState where
  | clear | alert | shutdown | sealed | awaitRestore | recovery
  deriving DecidableEq, Repr

/-- The station's answer to a reopen order of RECOVERY (R141). -/
inductive ReopenReport where
  | none | open | reopenFault
  deriving DecidableEq, Repr

/-- A zone record (R141 Table 3). The taken levels stand in the conditioners. -/
structure ZoneRec where
  state          : ZoneState
  injectAlert    : Bool
  injectFire     : Bool
  injectClear    : Bool
  drill          : Bool
  panelClearSeen : Bool
  causeFire      : Bool
  causeFireAll   : Bool
  causeDrill     : Bool
  holdTimer      : Option Nat
  released       : Bool
  reopenReport   : ReopenReport
  settled0       : Bool
  settled1       : Bool
  recovered0     : Bool
  recovered1     : Bool
  deriving DecidableEq, Repr

/-- The conditioner of one fire-panel input (R139): the pin level it reads, its taken level (retained), and its deglitch
window's remaining ms while it runs. The present level is the pin level read through the polarity bit. -/
structure Conditioner where
  pinHigh : Bool
  taken   : Bool
  window  : Option Nat
  deriving DecidableEq, Repr

/-- Tables a scan walks (R157). -/
inductive ScanTable where
  | bin | withdrawal
  deriving DecidableEq, Repr

/-- Filters of a query with their arguments (R159 Table 3). -/
inductive Filter where
  | stranded | obstructed | uncertain | quarantined
  | homeAisle (aisle : Nat)
  | fillAtMost (n : Nat)
  | openVisit
  | idleSince (day : Nat)
  | overdue
  | outBefore (day : Nat)
  | homeBinRange (low high : Nat)
  | returning
  deriving DecidableEq, Repr

/-- Scan modes (R157). -/
inductive ScanMode where
  | single | loop
  deriving DecidableEq, Repr

/-- Channel states (R157 Table 2). -/
inductive ScanState where
  | idle | running | paused | done
  deriving DecidableEq, Repr

/-- An entry of a result list (R159). -/
inductive ScanEntry where
  | bin (number : Nat)
  | bucket (number : Nat) (key : ItemKey)
  deriving DecidableEq, Repr

/-- A scan channel's record (R157 Table 1). -/
structure ChannelRec where
  table     : ScanTable
  first     : Nat
  last      : Nat
  cursor    : Nat
  filter    : Option Filter
  mode      : ScanMode
  state     : ScanState
  results   : List ScanEntry
  passCount : Nat
  disturbed : Bool
  deriving DecidableEq, Repr

/-- The winner of a placement search: the bin and the room it had when it was judged (R72). -/
structure Winner where
  bin  : Nat
  room : Nat
  deriving DecidableEq, Repr

/-- The Refile a placement search answers (R70), with the ms time counter at the moment it was taken (R24) and the search's
winner (R72). -/
structure SearchRec where
  key       : ItemKey
  sizeClass : Nat
  station   : Station
  priority  : Nat
  taken     : Nat
  winner    : Option Winner
  deriving DecidableEq, Repr

/-- Reset causes (R179 Table 2). -/
inductive ResetCause where
  | powerLost | powerKept | pin | restart
  deriving DecidableEq, Repr

/-- A read transaction between the completion of its access code and the release of HSEL_N (R164), with what it captured: the
reply message, or none with REPLY_READY clear (R168); LATE as it was sent (R169); the attention bits that were sent as set
(R171). LATE and the bits so captured stand here and no longer in their own fields, so that what is set again after the
capture is told from what the end of the transaction clears. -/
inductive Reading where
  | reply (message : Option (List Byte))
  | status (late : Bool)
  | attention (bits : BitVec 24)
  deriving DecidableEq, Repr

/-- The Link Interface (R164, R169, R171). `late` and `attention` hold what has been set since the capture of a transaction
in progress (`reading`); the flag and the summary are `LinkRec.lateFlag` and `LinkRec.summary`. COMMISSIONING and ATTN of
the status byte follow from the mode and from the summary and mask. `restartTimer`: the ms left of the wait of an accepted
Restart (R173). `hostOut`: the bytes sent in the last read transaction (the model's own field: what the host has seen on
HSDO). -/
structure LinkRec where
  command      : List Byte
  reply        : List Byte
  cmdBusy      : Bool
  replyReady   : Bool
  late         : Bool
  restarted    : Bool
  attention    : BitVec 24
  restartTimer : Option Nat
  reading      : Option Reading
  hostOut      : List Byte
  deriving DecidableEq, Repr

/-- The Timebase (R181): CLKIN cycles counted, the count that gives the next tick, and the ms time counter. -/
structure TimebaseRec where
  prescaler : Nat
  reload    : Nat
  ms        : Nat
  deriving DecidableEq, Repr

/-- The reset source and the RESET_N pin (R170, R179). `active` is the cause of a reset that lasts. -/
structure ResetRec where
  pinLow : Bool
  active : Option ResetCause
  cause  : ResetCause
  deriving DecidableEq, Repr

/-- Values of the TRANSFER message (R122). -/
inductive Transfer where
  | present | withdraw | halt
  deriving DecidableEq, Repr

/-- Messages from the part to a drive (R98 Table 3); a column is sent as column + 1 (R182). -/
inductive DriveMsg where
  | go (col level : Nat)
  | fork (place : Bool) (side : ForkSide)
  | park
  | home
  | stop
  | brakeRest
  | wake
  deriving DecidableEq, Repr

/-- Messages from the part to a panel unit (R133, R134). -/
inductive PanelMsg where
  | show (kind : TaskKind) (key : ItemKey) (index : Nat)
  | clear
  | locked
  | repeat
  | transfer (value : Transfer)
  deriving DecidableEq, Repr

/-- A message the part has sent on a field link (R183). -/
inductive FieldMsg where
  | drive (aisle : Aisle) (msg : DriveMsg)
  | panel (station : Station) (msg : PanelMsg)
  deriving DecidableEq, Repr

/-- The whole state. `sent` is the model's own field: the messages the part has sent on its field links, oldest first.
`pending` is the model's own field: the commands waiting to be taken, first in first out. -/
structure State where
  bins          : Table BinRec
  slots         : Table SlotEntry
  visits        : Table VisitRec
  withdrawals   : Table WithdrawalRec
  recordCount   : Nat
  pendingLends  : Nat
  protection    : BitVec 16
  day           : Nat
  mode          : Mode
  params        : Vector ParamWord 41
  forkMarks     : Vector (Option Nat) 8
  crossingMarks : Vector (Option Nat) 4
  aisles        : Vector AisleRec 8
  cranes        : Vector CraneRec 8
  stations      : Vector StationRec 4
  zones         : Vector ZoneRec 4
  inputs        : Vector Conditioner 10
  chanQ         : ChannelRec
  chanP         : ChannelRec
  search        : SearchRec
  link          : LinkRec
  time          : TimebaseRec
  resets        : ResetRec
  sent          : List FieldMsg
  pending       : List Instr
  deriving DecidableEq, Repr

/-! ### Values after reset -/

/-- Default values of the parameters 0..40 (R174 Table 1). -/
def defaultValues : List Nat :=
  [0, 0, 500, 400, 0, 0, 16000] ++ [3000, 1500, 1000, 1000, 300, 3500, 1200, 24, 2000, 120, 120, 60] ++
  [1, 0, 1, 2, 0, 1, 1000, 3, 3, 4, 4] ++ [10, 600, 8, 0, 200, 50, 100, 20, 3600, 65535, 15]

/-- True when a 16-bit word holds an odd number of ones: the parity bit that makes the 17 bits even (R174). -/
def oddOnes (v : BitVec 16) : Bool := (List.range 16).foldl (fun p i => p != v.getLsbD i) false

/-- A word stored with the parity of its value (R174). -/
def paramWord (n : Nat) : ParamWord := ⟨BitVec.ofNat 16 n, oddOnes (BitVec.ofNat 16 n)⟩

/-- The Parameter Table with every word at its default (R174). -/
def defaultParams : Vector ParamWord 41 := ⟨⟨defaultValues.map paramWord⟩, by rfl⟩

/-- Mark timing after reset and at each issue (R100, R118). -/
def MarkTiming.zero : MarkTiming := ⟨0, 0, 0⟩

/-- The crane record after every reset, for a crane that carries nothing in a zone that is not closed (R118 Table 10). -/
def CraneRec.reset : CraneRec where
  state := .offline
  col := none
  level := none
  carried := none
  leg := none
  dropped := none
  segment := none
  estimate := none
  deadline := 0
  overran := false
  retryCount := 0
  slipCount := 0
  surgeCount := 0
  timingH := .zero
  timingV := .zero
  speedTaken := false
  parkOrder := false
  latched := none
  lastFault := none
  supply := .ok
  supplyFault := false
  homingClear := false
  totals := Vector.replicate 6 0
  unexpected := 0
  retryTimer := none
  restTimer := none

/-- The record of a station that is not present, after a reset with retention lost: its hold-open output is released (R119).
The shutter state of an absent station and the levels of its sensors are not in the manual (log entry 2). -/
def StationRec.reset : StationRec where
  lane := []
  resv0 := 0
  resv1 := 0
  waiting0 := false
  waiting1 := false
  lastGrant := .none
  face := none
  outbound := none
  crossing := none
  openingBin := none
  shutter := .closed
  travelTimer := none
  reopenOrdered := false
  reopenCommand := false
  holdOpen := false
  closeOrder := false
  jammed := false
  reopenFault := false
  faceLong := false
  scanUnexpected := false
  panelLinkFlag := false
  forced := false
  shutterFault := false
  problemFlag := false
  lastKey := none
  lastProblem := none
  faceTimer := none
  discards := 0
  lineTest := none
  openLimit := false
  closedLimit := false
  beam := false

/-- The zone record after power-on with retention lost (R154, R155). -/
def ZoneRec.reset : ZoneRec where
  state := .clear
  injectAlert := false
  injectFire := false
  injectClear := false
  drill := false
  panelClearSeen := false
  causeFire := false
  causeFireAll := false
  causeDrill := false
  holdTimer := none
  released := false
  reopenReport := .none
  settled0 := false
  settled1 := false
  recovered0 := false
  recovered1 := false

/-- A scan channel after every reset (R157). DESIGN CHOICE (log entry 2) for channel Q: the range is the whole Bin Directory and the
mode SINGLE. -/
def ChannelRec.reset : ChannelRec where
  table := .bin
  first := 0
  last := 16383
  cursor := 0
  filter := none
  mode := .single
  state := .idle
  results := []
  passCount := 0
  disturbed := false

/-- The search record with no search in hand (log entry 2). -/
def SearchRec.reset : SearchRec := ⟨0, 0, 0, 0, 0, none⟩

/-- The Link Interface after a reset at which no parameter word was repaired: the summary holds RESTARTED, bit 19 (R173). -/
def LinkRec.reset : LinkRec := ⟨[], [], false, false, false, true, 0x080000#24, none, none, []⟩

/-- The part right after a power-on with retention lost (R21, R45, R63, R78, R118, R138, R154, R157, R173, R174, R179, R181):
the records are empty, every parameter has its default, no aisle or station is present, and the mode is COMMISSIONING. -/
def State.reset : State where
  bins := []
  slots := []
  visits := []
  withdrawals := []
  recordCount := 0
  pendingLends := 0
  protection := 0
  day := 0
  mode := .commissioning
  params := defaultParams
  forkMarks := Vector.replicate 8 none
  crossingMarks := Vector.replicate 4 none
  aisles := Vector.replicate 8 ⟨.inService, false⟩
  cranes := Vector.replicate 8 CraneRec.reset
  stations := Vector.replicate 4 StationRec.reset
  zones := Vector.replicate 4 ZoneRec.reset
  inputs := Vector.replicate 10 ⟨false, false, none⟩
  chanQ := ChannelRec.reset
  chanP := ChannelRec.reset
  search := SearchRec.reset
  link := LinkRec.reset
  time := ⟨0, 16000, 0⟩
  resets := ⟨false, none, .powerLost⟩
  sent := []
  pending := []

end Sys2Proof.Machine
end

