-- ==== Sys2Proof/Machine/Ops.lean ====
section
/-! DEFINITION. The named operations over the Record Memory and the records of the blocks, which every meaning uses. -/

namespace Sys2Proof.Machine

/-! ### Tables -/

/-- The record of a number, if it has one. -/
def tableGet {α : Type} : Table α → Nat → Option α
  | [], _ => none
  | (k, v) :: t, n => if k = n then some v else tableGet t n

/-- Gives a number a record, keeping indices strictly rising. -/
def tablePut {α : Type} : Table α → Nat → α → Table α
  | [], n, x => [(n, x)]
  | (k, v) :: t, n, x =>
    if n < k then (n, x) :: (k, v) :: t
    else if n = k then (n, x) :: t
    else (k, v) :: tablePut t n x

/-- Takes a number's record away. -/
def tableErase {α : Type} : Table α → Nat → Table α
  | [], _ => []
  | (k, v) :: t, n => if k = n then tableErase t n else (k, v) :: tableErase t n

/-- Changes every record, each from its number and itself. -/
def tableMap {α : Type} (f : Nat → α → α) (t : Table α) : Table α := t.map fun e => (e.1, f e.1 e.2)

/-- The canonical form of a table whose numbers lie below `bound`: numbers strictly rising, so that equal tables are equal
lists and a number has at most one record. -/
def tableWf {α : Type} (bound : Nat) : Table α → Bool
  | [] => true
  | [(k, _)] => decide (k < bound)
  | (k, _) :: (k', v') :: t => decide (k < k') && tableWf bound ((k', v') :: t)

/-- The lowest number below `bound` from `n` on that has no record, tried `fuel` times. -/
def tableFree {α : Type} (t : Table α) : Nat → Nat → Option Nat
  | 0, _ => none
  | fuel + 1, n => if (tableGet t n).isNone then some n else tableFree t fuel (n + 1)

/-- Changes every element of a vector. -/
def vectorMap {α : Type} {n : Nat} (f : α → α) (v : Vector α n) : Vector α n :=
  ⟨⟨v.toArray.toList.map f⟩, by simp⟩

/-! ### Geometry -/

/-- The zone, and the station, of an aisle (overview, Table 2). -/
def zoneOf (a : Aisle) : Station := ⟨a.val / 2, by have := a.isLt; omega⟩

/-- The lower aisle of a zone. -/
def aisle0 (z : Station) : Aisle := ⟨2 * z.val, by have := z.isLt; omega⟩

/-- The upper aisle of a zone. -/
def aisle1 (z : Station) : Aisle := ⟨2 * z.val + 1, by have := z.isLt; omega⟩

/-- The aisles of the wing in number order. -/
def aisleList : List Aisle := [0, 1, 2, 3, 4, 5, 6, 7]

/-- The stations of the wing in number order. -/
def stationList : List Station := [0, 1, 2, 3]

/-- The fire-panel inputs in number order. -/
def inputList : List FireInput := [0, 1, 2, 3, 4, 5, 6, 7, 8, 9]

/-- The number of a slot among the 18,432 of the wing. -/
def slotIndex (sl : Slot) : Nat :=
  ((sl.aisle.val * 96 + sl.column.val) * 12 + sl.level.val) * 2 + (match sl.side with | .left => 0 | .right => 1)

/-- The column of a slot as the drive link and the crane record hold it: column + 1, the mouth being 0 (R182). -/
def slotCol (sl : Slot) : Nat := sl.column.val + 1

/-- The fork side of a rack side. -/
def forkSide : Side → ForkSide
  | .left => .left
  | .right => .right

/-! ### Parameters -/

/-- The value of a parameter as a number (R174 Table 1). -/
def param (s : State) (n : Fin 41) : Nat := (s.params.get n).value.toNat

/-- The aisle is marked in the aisle-present mask. -/
def aislePresent (s : State) (a : Aisle) : Bool := (s.params.get 0).value.getLsbD a.val

/-- The station is marked in the station-present mask. -/
def stationPresent (s : State) (z : Station) : Bool := (s.params.get 1).value.getLsbD z.val

/-- The mouth level of every aisle. -/
def mouthLevel (s : State) : Nat := param s 4

/-- The park column, as the crane record holds a column. -/
def parkCol (s : State) : Nat := param s 5 + 1

/-! ### Records of the blocks -/

def crane (s : State) (a : Aisle) : CraneRec := s.cranes.get a

def setCrane (a : Aisle) (c : CraneRec) (s : State) : State := { s with cranes := s.cranes.set a.val c a.isLt }

def station (s : State) (z : Station) : StationRec := s.stations.get z

def setStation (z : Station) (r : StationRec) (s : State) : State :=
  { s with stations := s.stations.set z.val r z.isLt }

def zone (s : State) (z : Station) : ZoneRec := s.zones.get z

def setZone (z : Station) (r : ZoneRec) (s : State) : State := { s with zones := s.zones.set z.val r z.isLt }

def aisleRec (s : State) (a : Aisle) : AisleRec := s.aisles.get a

def setAisle (a : Aisle) (r : AisleRec) (s : State) : State := { s with aisles := s.aisles.set a.val r a.isLt }

def conditioner (s : State) (i : FireInput) : Conditioner := s.inputs.get i

def setConditioner (i : FireInput) (c : Conditioner) (s : State) : State :=
  { s with inputs := s.inputs.set i.val c i.isLt }

def forkMark (s : State) (a : Aisle) : Option Nat := s.forkMarks.get a

def setForkMark (a : Aisle) (b : Option Nat) (s : State) : State :=
  { s with forkMarks := s.forkMarks.set a.val b a.isLt }

def crossingMark (s : State) (z : Station) : Option Nat := s.crossingMarks.get z

def setCrossingMark (z : Station) (b : Option Nat) (s : State) : State :=
  { s with crossingMarks := s.crossingMarks.set z.val b z.isLt }

/-! ### Bins, slots and visits -/

def bin (s : State) (b : Nat) : Option BinRec := tableGet s.bins b

def setBin (b : Nat) (r : BinRec) (s : State) : State := { s with bins := tablePut s.bins b r }

/-- Changes the record of a bin that is in use. -/
def modBin (b : Nat) (f : BinRec → BinRec) (s : State) : State :=
  match bin s b with
  | some r => setBin b (f r) s
  | none => s

/-- The bin's record becomes free (R10). -/
def freeBin (b : Nat) (s : State) : State := { s with bins := tableErase s.bins b }

/-- The entry of a slot; a slot with no entry listed is EMPTY (R4). -/
def slotEntry (s : State) (sl : Slot) : SlotEntry := (tableGet s.slots (slotIndex sl)).getD .empty

/-- Sets the entry of a slot. EMPTY entries are not listed. -/
def setSlot (sl : Slot) (e : SlotEntry) (s : State) : State :=
  { s with slots := if e = .empty then tableErase s.slots (slotIndex sl) else tablePut s.slots (slotIndex sl) e }

def visit (s : State) (n : Nat) : Option VisitRec := tableGet s.visits n

def setVisit (n : Nat) (v : VisitRec) (s : State) : State := { s with visits := tablePut s.visits n v }

/-- Changes the record of a visit that has an entry. -/
def modVisit (n : Nat) (f : VisitRec → VisitRec) (s : State) : State :=
  match visit s n with
  | some v => setVisit n (f v) s
  | none => s

/-- A visit is open until it has an outcome (R22, R23). -/
def isOpen (v : VisitRec) : Bool := v.outcome.isNone

/-- The home aisle of a bin in use. -/
def binAisle (s : State) (b : Nat) : Option Aisle := (bin s b).map (·.home.aisle)

/-- The location of a bin in use. -/
def binLocation (s : State) (b : Nat) : Option Location := (bin s b).map (·.location)

/-- The lowest-numbered free visit entry (R22). -/
def freeVisit (s : State) : Option Nat := tableFree s.visits Config.visitCount 0

/-- The room of a bin: capacity − fill − withdrawn count − refile holds (R2). -/
def room (r : BinRec) : Nat := r.capacity - r.fill - r.withdrawn - r.refileHolds

/-- A bin is protected while the bit of its sector, bin number div 1,024, is set (R6). DEDUCED (log entry 26):
sector n has bit n of the mask. -/
def isProtected (s : State) (b : Nat) : Bool := s.protection.getLsbD (b / 1024)

/-! ### Service state and zone state -/

/-- The aisle's service state (R79 Table 1). -/
def service (s : State) (a : Aisle) : ServiceState :=
  if aislePresent s a then
    match (aisleRec s a).suspension with
    | .inService => .inService
    | .suspending => .suspending
    | .suspended => .suspended
  else .absent

/-- The aisle is suspended: SUSPENDING or SUSPENDED (R79). -/
def aisleSuspended (s : State) (a : Aisle) : Bool :=
  service s a == .suspending || service s a == .suspended

/-- SHUTDOWN, SEALED and AWAIT_RESTORE: the states in which a zone's work is stopped (R144). -/
def ZoneState.isClosed : ZoneState → Bool
  | .shutdown | .sealed | .awaitRestore => true
  | .clear | .alert | .recovery => false

def zoneClosed (s : State) (z : Station) : Bool := (zone s z).state.isClosed

/-- The out causes are not empty (R119). -/
def StationRec.isOut (r : StationRec) : Bool := r.jammed || r.reopenFault

/-- The station is OPEN: present, shutter OPEN and not OUT (R119). -/
def stationOpen (s : State) (z : Station) : Bool :=
  stationPresent s z && (station s z).shutter == .open && !(station s z).isOut

/-! ### Messages to the field links -/

/-- A message is sent to the drive of an aisle (R98). -/
def sendDrive (a : Aisle) (m : DriveMsg) (s : State) : State := { s with sent := s.sent ++ [.drive a m] }

/-- A message reaches the panel link: the station is present (R119), and while the link is inhibited SHOW and CLEAR are not
sent (R135). -/
def panelSends (s : State) (z : Station) (m : PanelMsg) : Bool :=
  stationPresent s z && !(match m with
    | .show _ _ _ | .clear => zoneClosed s z
    | .locked | .repeat | .transfer _ => false)

/-- A message is sent to a station's panel unit, if it reaches the link. -/
def sendPanel (z : Station) (m : PanelMsg) (s : State) : State :=
  { s with sent := s.sent ++ (if panelSends s z m then [.panel z m] else []) }

/-- The SHOW of one task with its index (R134); the key of a FETCH is sent as 0 (R183). -/
def showTask (z : Station) (i : Nat) (t : TaskRec) (s : State) : State :=
  sendPanel z (.show t.kind (t.key.getD 0) i) s

/-- A SHOW for each PENDING task of a list, in list order, indices counted from `i` (R27, R39). -/
def showPending (z : Station) : Nat → List TaskRec → State → State
  | _, [], s => s
  | i, t :: ts, s => showPending z (i + 1) ts (if t.state = .pending then showTask z i t s else s)

/-- CLEAR followed by a SHOW for each PENDING task of the AT_FACE visit at the face, if there is one (R39, R135). -/
def resendTasks (z : Station) (s : State) : State :=
  let s1 := sendPanel z .clear s
  match (station s z).face with
  | none => s1
  | some f =>
    match visit s f.visit with
    | none => s1
    | some v => if v.state = .atFace then showPending z 0 v.tasks s1 else s1

/-! ### Attention summary (R171, R182 Table 1) -/

/-- The one-bit word of an attention bit. -/
def attentionWord (n : Nat) : BitVec 24 := 1#24 <<< n

def setAttention (n : Nat) (s : State) : State :=
  { s with link := { s.link with attention := s.link.attention ||| attentionWord n } }

def visitEndedBit : Nat := 0
def craneBit (a : Aisle) : Nat := 1 + a.val
def stationBit (z : Station) : Nat := 9 + z.val
def zoneBit (z : Station) : Nat := 13 + z.val
def scanBit : Nat := 17
def repairedBit : Nat := 18
def restartedBit : Nat := 19

/-- A zone enters a state, which sets its ZONE attention bit (R152). -/
def enterZoneState (z : Station) (st : ZoneState) (s : State) : State :=
  setAttention (zoneBit z) (setZone z { zone s z with state := st } s)

/-! ### Holds (R30) -/

def HoldSet.has (h : HoldSet) : HoldReason → Bool
  | .fire => h.fire
  | .reset => h.reset
  | .craneFault => h.craneFault
  | .aisleSuspended => h.aisleSuspended
  | .stationOut => h.stationOut

def HoldSet.put (h : HoldSet) (r : HoldReason) (x : Bool) : HoldSet :=
  match r with
  | .fire => { h with fire := x }
  | .reset => { h with reset := x }
  | .craneFault => { h with craneFault := x }
  | .aisleSuspended => { h with aisleSuspended := x }
  | .stationOut => { h with stationOut := x }

/-- The hold is present while at least one reason stands (R30). -/
def HoldSet.any (h : HoldSet) : Bool := h.fire || h.reset || h.craneFault || h.aisleSuspended || h.stationOut

/-- The hold stops crossings: FIRE, STATION_OUT or RESET stands (R30 Table 4, R123). -/
def HoldSet.stopsCrossings (h : HoldSet) : Bool := h.fire || h.stationOut || h.reset

/-- The state of a visit whose last reason is lifted, matched to its bin's location (R33 Table 5). -/
def matchState (st : VisitState) (loc : Option Location) : VisitState :=
  match st, loc with
  | .outbound, some .slot => .queued
  | .inbound, some (.outbound _) => .atOutbound
  | .moving, some .slot => .queued
  | st, _ => st

/-- A reason is added to the holds of the open visits that a test selects. -/
def addHoldWhere (r : HoldReason) (p : Nat → VisitRec → Bool) (s : State) : State :=
  { s with visits := tableMap (fun n v => if isOpen v && p n v then { v with hold := v.hold.put r true } else v) s.visits }

/-- A reason is added to the hold of one open visit. -/
def addHold (r : HoldReason) (n : Nat) (s : State) : State := addHoldWhere r (fun m _ => m == n) s

/-- One visit after a reason is lifted from it. -/
def liftedVisit (bins : Table BinRec) (r : HoldReason) (v : VisitRec) : VisitRec :=
  if v.hold.has r then
    let h := v.hold.put r false
    if h.any then { v with hold := h }
    else { v with hold := h, state := matchState v.state ((tableGet bins v.bin).map (·.location)) }
  else v

/-- A reason is lifted from the open visits that a test selects; a hold that this empties matches the visit's state to its
bin (R33). -/
def liftHoldWhere (r : HoldReason) (p : Nat → VisitRec → Bool) (s : State) : State :=
  { s with visits := tableMap (fun n v => if isOpen v && p n v then liftedVisit s.bins r v else v) s.visits }

/-- The visit's bin has its home in the aisle. -/
def ofAisle (s : State) (a : Aisle) (v : VisitRec) : Bool := binAisle s v.bin == some a

/-- The visit's bin has its home in an aisle of the zone. -/
def ofZone (s : State) (z : Station) (v : VisitRec) : Bool := (binAisle s v.bin).map zoneOf == some z

/-- States of a visit in a crane leg (R45). -/
def VisitState.inLeg : VisitState → Bool
  | .outbound | .inbound | .moving => true
  | _ => false

/-- States in which a station going OUT holds a visit (R32). -/
def VisitState.atStation : VisitState → Bool
  | .inLane | .presenting | .atFace | .withdrawing => true
  | _ => false

/-! ### Lane places (R120, R121) -/

/-- Places reserved by an aisle at its station, grants included. -/
def reservations (s : State) (a : Aisle) : Nat :=
  if a.val % 2 = 0 then (station s (zoneOf a)).resv0 else (station s (zoneOf a)).resv1

def setReservations (a : Aisle) (n : Nat) (s : State) : State :=
  let r := station s (zoneOf a)
  setStation (zoneOf a) (if a.val % 2 = 0 then { r with resv0 := n } else { r with resv1 := n }) s

/-- The aisle is in its station's waiting set; this is also its scheduler's waiting mark. -/
def waiting (s : State) (a : Aisle) : Bool :=
  if a.val % 2 = 0 then (station s (zoneOf a)).waiting0 else (station s (zoneOf a)).waiting1

def setWaiting (a : Aisle) (w : Bool) (s : State) : State :=
  let r := station s (zoneOf a)
  setStation (zoneOf a) (if a.val % 2 = 0 then { r with waiting0 := w } else { r with waiting1 := w }) s

/-- Free places: 3 minus the bins in the queue minus the reservations of both aisles (R120). -/
def freePlaces (r : StationRec) : Nat := Config.laneLength - r.lane.length - r.resv0 - r.resv1

/-- The aisle returns a grant it holds (R84, R121). The freed place is granted by `schedule`. -/
def returnGrant (a : Aisle) (s : State) : State :=
  if (aisleRec s a).grant then
    setReservations a (reservations s a - 1) (setAisle a { aisleRec s a with grant := false } s)
  else s

/-- The aisle withdraws its wait (R84). -/
def withdrawWait (a : Aisle) (s : State) : State := if waiting s a then setWaiting a false s else s

/-- The crane enters FAULTED, PARKING or OFFLINE: its aisle returns any grant and withdraws any wait (R84). -/
def dropClaims (a : Aisle) (s : State) : State := withdrawWait a (returnGrant a s)

/-! ### Ends of visits (R28) -/

/-- A visit's reservation is released to its station's arbiter (R29). -/
def releaseReservation (n : Nat) (s : State) : State :=
  match visit s n with
  | none => s
  | some v =>
    if v.reservation then
      let s1 := setVisit n { v with reservation := false } s
      match binAisle s v.bin with
      | none => s1
      | some a => setReservations a (reservations s1 a - 1) s1
    else s

/-- What the end of a visit with outcome DONE does to its bin: the last visit day is today, and DAMAGED quarantines it
(R28, R77). -/
def doneBin (today : Nat) (damaged : Bool) (r : BinRec) : BinRec :=
  { r with lastVisitDay := some today, quarantined := r.quarantined || damaged }

/-- A visit ends (R28): state and outcome are set, its hold becomes absent, its reservation is released, the bin's open
visit becomes absent, and VISIT_ENDED is set. -/
def endVisit (n : Nat) (st : VisitState) (o : VisitOutcome) (s : State) : State :=
  match visit s n with
  | none => s
  | some v =>
    let s1 := releaseReservation n s
    let s2 := setVisit n { v with state := st, outcome := some o, hold := .none, reservation := false } s1
    let s3 := modBin v.bin (fun r => { r with openVisit := none }) s2
    let s4 := if o = .done then modBin v.bin (doneBin s.day v.problems.damaged) s3 else s3
    setAttention visitEndedBit s4

/-! ### Motion marks and flags of bins (R12, R18, R20, R21) -/

def markUncertain (b : Nat) (s : State) : State := modBin b (fun r => { r with uncertain := true }) s

def markStranded (b : Nat) (s : State) : State := modBin b (fun r => { r with stranded := true }) s

def markObstructed (b : Nat) (s : State) : State := modBin b (fun r => { r with obstructed := true }) s

/-- The fork of an aisle is cut off, if one is in flight or awaits its retry: its mark is cleared and its bin is UNCERTAIN
at the source (R12, R110). -/
def cutFork (a : Aisle) (s : State) : State :=
  match forkMark s a with
  | none => s
  | some b => markUncertain b (setForkMark a none s)

/-- The part is in a reset that lasts, and takes no command and no report (R179). -/
def inReset (s : State) : Bool := s.resets.active.isSome

/-- A report or expiry taken outside a reset acts; during one it is not taken (R179). -/
def outsideReset (f : State → State) (s : State) : State := if inReset s then s else f s

/-- A timer's remaining ms has run out. -/
def timerDue (t : Option Nat) : Bool := t == some 0

/-- A timer after one tick: a running timer's remaining ms falls by 1 until it is 0 (R181). -/
def tickTimer (t : Option Nat) : Option Nat := t.map (· - 1)

/-- A count that stays at 65,535 (R96, R157). -/
def countUp (n : Nat) : Nat := if n < Config.countLimit then n + 1 else n

end Sys2Proof.Machine
end

