-- ==== Sys2Proof/Machine/Estimates.lean ====
section
/-! DEFINITION. Travel estimates and deadlines (R89 to R92). -/

namespace Sys2Proof.Machine

/-- Division rounded up. -/
def ceilDiv (x y : Nat) : Nat := (x + (y - 1)) / y

/-- Starting from a `t` with t² × a < n, the greatest such number below t + 2^bits (R89: found by the bits of the result,
without an intermediate rounding). -/
def greatestBelow (a n : Nat) : Nat → Nat → Nat
  | 0, t => t
  | bits + 1, t =>
    if (t + 2 ^ bits) * (t + 2 ^ bits) * a < n then greatestBelow a n bits (t + 2 ^ bits) else greatestBelow a n bits t

/-- The short profile: the smallest t with t² × a ≥ 4,000,000 × D (R89). -/
def shortProfile (a d : Nat) : Nat :=
  if d = 0 then 0 else greatestBelow a (4000000 * d) 20 0 + 1

/-- The full profile: each of its two terms is rounded up on its own (R89). -/
def fullProfile (v a d : Nat) : Nat := ceilDiv (1000 * d) v + ceilDiv (1000 * v) a

/-- The time of one axis for a move of n pitches (R89). -/
def axisTime (n pitch v a : Nat) : Nat :=
  let d := n * pitch
  if d = 0 then 0 else if d * a ≥ v * v then fullProfile v a d else shortProfile a d

/-- The difference of two positions on an axis, without sign. -/
def distance (x y : Nat) : Nat := (x - y) + (y - x)

/-- The greater of the two axis times plus settle, for a move between two places (R90). -/
def travelTime (s : State) (col level col' level' : Nat) : Nat :=
  max (axisTime (distance col col') (param s 2) (param s 7) (param s 8))
    (axisTime (distance level level') (param s 3) (param s 9) (param s 10)) + param s 11

/-- The wake time that the estimate of the first segment after rest includes (R88, R90). -/
def wakeTime (s : State) (c : CraneRec) : Nat := if c.state = .resting then param s 13 else 0

/-- The estimate of a segment at its issue (R90 Table 7). A HOME has none. DESIGN CHOICE (log entry 38): neither has a
PARK issued with the position unknown, for which R105 gives the deadline homing_max and no rule gives an estimate. -/
def segmentEstimate (s : State) (c : CraneRec) (kind : SegKind) (col level : Nat) : Option Nat :=
  match kind with
  | .home => none
  | .forkPick | .forkPlace => some (param s 12 + wakeTime s c)
  | .travel | .park =>
    match c.col, c.level with
    | some x, some y => some (wakeTime s c + travelTime s x y col level)
    | _, _ => none

/-- The deadline of a segment: ceil(E × M / 16) + G, or homing_max where there is no estimate (R91, R105). -/
def segmentDeadline (s : State) (estimate : Option Nat) : Nat :=
  match estimate with
  | some e => ceilDiv (e * param s 14) 16 + param s 15
  | none => 1000 * param s 16

/-- The approach estimate of a leg that begins at a slot: the TRAVEL estimate from the crane's position, or from the mouth
with the position unknown on either axis (R90). -/
def approachEstimate (s : State) (c : CraneRec) (sl : Slot) : Nat :=
  match c.col, c.level with
  | some x, some y => wakeTime s c + travelTime s x y (slotCol sl) sl.level.val
  | _, _ => wakeTime s c + travelTime s 0 (mouthLevel s) (slotCol sl) sl.level.val

end Sys2Proof.Machine
end

