-- ==== Sys2Proof/Machine/Cranes.lean ====
section
/-! DEFINITION. What a Crane Supervisor does: issue and completion of segments, faults, halts and retries, homing, park
orders, and a crane taken offline (R85 to R118). The scheduler's choice that follows an entry to READY is made by `settle`. -/

namespace Sys2Proof.Machine

def setCraneState (a : Aisle) (st : CraneState) (s : State) : State := setCrane a { crane s a with state := st } s

def setLeg (a : Aisle) (l : Option LegRec) (s : State) : State := setCrane a { crane s a with leg := l } s

/-- The record with no segment in flight. -/
def CraneRec.idle (c : CraneRec) : CraneRec := { c with segment := none, estimate := none, deadline := 0 }

def SegKind.isFork : SegKind → Bool
  | .forkPick | .forkPlace => true
  | .travel | .park | .home => false

/-- A fork segment is in flight. -/
def forkInFlight (c : CraneRec) : Bool :=
  match c.segment with
  | some g => g.kind.isFork
  | none => false

/-! ### Segments -/

/-- A segment at a slot, or at the mouth where the records name no slot. -/
def segmentAt (s : State) (kind : SegKind) : Option Slot → SegmentRec
  | some sl => ⟨kind, slotCol sl, sl.level.val, forkSide sl.side, 0⟩
  | none => ⟨kind, 0, mouthLevel s, .mouth, 0⟩

/-- Where a leg picks: the home slot, or the mouth for an inbound leg (R85 Table 5). -/
def legSource (s : State) (l : LegRec) : Option Slot :=
  match l.kind with
  | .outbound | .relocation => (bin s l.bin).map (·.home)
  | .inbound => none

/-- Where a leg places: the mouth, the home slot or the relocation target (R85 Table 5). -/
def legTarget (s : State) (l : LegRec) : Option Slot :=
  match l.kind with
  | .outbound => none
  | .inbound => (bin s l.bin).map (·.home)
  | .relocation => (visit s l.visit).bind (·.target)

/-- The segment in hand of a leg (R85 Table 5). -/
def legSegment (s : State) (l : LegRec) : SegmentRec :=
  match l.seg with
  | 0 => segmentAt s .travel (legSource s l)
  | 1 => segmentAt s .forkPick (legSource s l)
  | 2 => segmentAt s .travel (legTarget s l)
  | 3 => segmentAt s .forkPlace (legTarget s l)

/-- A HOME; its target is the mouth (R101). -/
def homeSegment (s : State) : SegmentRec := ⟨.home, 0, mouthLevel s, .mouth, 0⟩

/-- A PARK; its target is the park column at level 0 (R114). -/
def parkSegment (s : State) : SegmentRec := ⟨.park, parkCol s, 0, .mouth, 0⟩

/-- The drive message of a segment (R98 Table 3). -/
def segmentMessage (g : SegmentRec) : DriveMsg :=
  match g.kind with
  | .travel => .go g.col g.level
  | .forkPick => .fork false g.side
  | .forkPlace => .fork true g.side
  | .park => .park
  | .home => .home

/-- A WAKE precedes the first segment issued to a RESTING crane and the HOME issued to an OFFLINE one (R88, R98). -/
def wakeFirst (c : CraneRec) (g : SegmentRec) : Bool :=
  c.state == .resting || (g.kind == .home && c.state == .offline)

/-- The crane record after a segment's issue (R100): a HOME makes the position unknown (R101). `keep` is a re-issue, which
keeps the retry count. -/
def issuedRec (s : State) (c : CraneRec) (g : SegmentRec) (keep : Bool) : CraneRec :=
  let e := segmentEstimate s c g.kind g.col g.level
  { c with
    segment := some { g with issued := s.time.ms }
    estimate := e
    deadline := segmentDeadline s e
    overran := false
    retryCount := if keep then c.retryCount else 0
    slipCount := 0
    surgeCount := 0
    timingH := .zero
    timingV := .zero
    speedTaken := false
    retryTimer := none
    restTimer := none
    col := if g.kind = .home then none else c.col
    level := if g.kind = .home then none else c.level }

/-- A segment is issued (R100): the record, the fork mark of a fork (R21) and the message, after WAKE where one is due. The
crane's new state is set by the caller, since WAKE depends on the state at the issue. -/
def issue (a : Aisle) (g : SegmentRec) (keep : Bool) (s : State) : State :=
  let c := crane s a
  let s1 := setCrane a (issuedRec s c g keep) s
  let s2 := if g.kind.isFork then setForkMark a (c.leg.map (·.bin)) s1 else s1
  let s3 := if wakeFirst c g then sendDrive a .wake s2 else s2
  sendDrive a (segmentMessage g) s3

/-- The segment in hand of the crane's leg is issued when it is due (R85), and after the HOME of a retry (R111). A TRAVEL to the crane's own position is not issued and the
next segment is issued in its place; with the position unknown a HOME is issued instead. -/
def proceed (a : Aisle) (keep : Bool) (s : State) : State :=
  let c := crane s a
  match c.leg with
  | none => s
  | some l =>
    let g := legSegment s l
    if g.kind = .travel ∨ l.approach = true then
      match c.col, c.level with
      | some x, some y =>
        if x = g.col ∧ y = g.level then
          if l.approach then issue a g keep (setLeg a (some { l with approach := false }) s)
          else
            let l' := { l with seg := l.seg + 1 }
            issue a (legSegment s l') false (setLeg a (some l') s)
        else issue a { g with kind := .travel } keep s
      | _, _ => issue a (homeSegment s) keep s
    else issue a g keep s

/-- The leg passes to its next segment, which is issued at once; the crane is MOVING (R100). -/
def nextSegment (a : Aisle) (l : LegRec) (s : State) : State :=
  setCraneState a .moving (proceed a false (setLeg a (some { l with seg := l.seg + 1 }) s))

/-! ### Offline, suspension and READY -/

/-- A crane is taken OFFLINE (R116): a segment in flight is stopped, a latched fault and a supply fault are discarded, a
standing park order is kept, and its aisle's grant and wait are given up (R84). -/
def takeOffline (a : Aisle) (s : State) : State :=
  let c := crane s a
  let s1 := if c.segment.isSome then sendDrive a .stop s else s
  let c' := { c.idle with
    state := .offline, leg := none, latched := none, supplyFault := false, homingClear := false,
    retryTimer := none, restTimer := none }
  dropClaims a (setCrane a c' s1)

/-- A suspension takes effect (R93): the aisle is SUSPENDED, its crane OFFLINE, and every open visit of the aisle takes
AISLE_SUSPENDED (R32). -/
def takeSuspension (a : Aisle) (s : State) : State :=
  let s1 := takeOffline a (setAisle a { aisleRec s a with suspension := .suspended } s)
  addHoldWhere .aisleSuspended (fun _ v => ofAisle s a v) s1

/-- What an entry to READY lifts: CRANE_FAULT and AISLE_SUSPENDED, and RESET of a crane leg (R30, R112). -/
def liftAtReady (a : Aisle) (s : State) : State :=
  let s1 := liftHoldWhere .craneFault (fun _ v => ofAisle s a v) s
  let s2 := liftHoldWhere .aisleSuspended (fun _ v => ofAisle s a v) s1
  liftHoldWhere .reset (fun _ v => ofAisle s a v && v.state.inLeg) s2

/-- The crane holds no leg and no segment any more, and enters READY with its rest timer started (R88, R100). In a
SUSPENDING aisle the suspension takes effect instead (R93). -/
def enterReady (a : Aisle) (s : State) : State :=
  let c := crane s a
  let s1 := setCrane a { c.idle with leg := none } s
  if (aisleRec s a).suspension = .suspending then takeSuspension a s1
  else
    liftAtReady a
      (setCrane a { (crane s1 a) with state := .ready, restTimer := some (1000 * param s 18) } s1)

/-- A PARK is issued and the crane is PARKING (R114); a suspension that waits for this moment takes effect instead (R93). DESIGN
CHOICE (log entry 36): so it does where a RETRY fault cuts off the fork that a crane with a park order finishes (R115), for
which R93 names only FORK_DONE and a halt. -/
def issuePark (a : Aisle) (s : State) : State :=
  if (aisleRec s a).suspension = .suspending then takeSuspension a s
  else dropClaims a (setCraneState a .parking (issue a (parkSegment s) false s))

/-! ### Faults (R102 to R115) -/

/-- A fault class as the fault totals and the mode parameters number it (R182 Table 3). -/
def FaultClass.code : FaultClass → Fin 6
  | .overrun => 0
  | .slip => 1
  | .surge => 2
  | .speed => 3
  | .noDrive => 4
  | .supply => 5

/-- The action mode of a class other than SUPPLY, as it stands when the fault is taken (R102). -/
def faultMode (s : State) (cls : FaultClass) : FaultMode :=
  match param s (19 + ⟨cls.code.val, by have := cls.code.isLt; omega⟩) with
  | 0 => .halt
  | 1 => .retry
  | 2 => .report
  | _ => .ignore

/-- The fault total of a class rises by 1 and stays at 65,535 (R96, R102). -/
def raiseTotal (a : Aisle) (cls : FaultClass) (s : State) : State :=
  let c := crane s a
  setCrane a { c with totals := c.totals.set cls.code.val (countUp (c.totals.get cls.code)) cls.code.isLt } s

/-- The last fault is set and the crane's CRANE attention bit with it (R102). DESIGN CHOICE (log entry 30): a fault of a leg's HOME
is recorded with the kind HOME, and a SUPPLY fault with no segment in flight with no kind. -/
def noteFault (a : Aisle) (cls : FaultClass) (s : State) : State :=
  let c := crane s a
  setAttention (craneBit a) (setCrane a { c with lastFault := some (cls, c.segment.map (·.kind)) } s)

/-- A reason is added to the open visit of a bin. -/
def holdBinVisit (r : HoldReason) (b : Nat) (s : State) : State :=
  match (bin s b).bind (·.openVisit) with
  | some n => addHold r n s
  | none => s

/-- CRANE_FAULT for the visits a halt holds (R31, R110): that of the leg in hand or of the leg a park order dropped, and
that of a carried bin with no leg in hand. A leg whose visit a cancellation ended holds none. -/
def holdHalted (c : CraneRec) (s : State) : State :=
  let s1 := match c.leg with
    | some l => if l.cancelled then s else addHold .craneFault l.visit s
    | none =>
      match c.dropped with
      | some l => addHold .craneFault l.visit s
      | none => s
  match c.leg, c.carried with
  | none, some b => holdBinVisit .craneFault b s1
  | _, _ => s1

/-- A halt (R110). DESIGN CHOICE (log entry 31): the counts and mark timing of the segment keep their values until the next
issue, here and after a fault in RETRY mode. `follow` is a SUPPLY fault in FOLLOW mode, which sets no latched fault and
makes the supply fault present (R109). A suspension that waits for the leg takes effect at the halt (R93). -/
def halt (a : Aisle) (cls : FaultClass) (follow : Bool) (s : State) : State :=
  let c := crane s a
  let s1 := cutFork a (if c.segment.isSome then sendDrive a .stop s else s)
  let s2 := match c.carried with
    | some b => markStranded b s1
    | none => s1
  let s3 := holdHalted c s2
  let c' := { c.idle with
    state := .faulted, latched := if follow then c.latched else some cls, supplyFault := c.supplyFault || follow,
    homingClear := false, retryTimer := none, restTimer := none }
  let s4 := dropClaims a (setCrane a c' s3)
  if (aisleRec s a).suspension = .suspending then takeSuspension a s4 else s4

/-- The retry limit allows another retry of the segment (R111). -/
def mayRetry (s : State) (c : CraneRec) : Bool := param s 26 == 0 || decide (c.retryCount < param s 26)

/-- A fault in RETRY mode (R111, R115). The finishing fork of a crane with a park order is cut off and PARK is issued at
once; DESIGN CHOICE (log entry 36): in a SUSPENDING aisle the suspension takes effect at the cut-off in place of the PARK.
Otherwise STOP is sent and the segment waits for its re-issue: a leg's in RETRY_WAIT, a HOME or PARK in the state it
had; or the crane halts, the limit being reached. -/
def retryFault (a : Aisle) (cls : FaultClass) (s : State) : State :=
  let c := crane s a
  if c.parkOrder && forkInFlight c then
    let s1 := cutFork a (sendDrive a .stop s)
    issuePark a (setCrane a (crane s1 a).idle s1)
  else if mayRetry s c then
    let st := match c.state with
      | .homing => .homing
      | .parking => .parking
      | _ => CraneState.retryWait
    sendDrive a .stop (setCrane a { c.idle with
      state := st, retryCount := min (c.retryCount + 1) Config.retryCountLimit, retryTimer := some (param s 25) } s)
  else halt a cls false s

/-- A fault of a class other than SUPPLY is taken (R102). -/
def takeFault (a : Aisle) (cls : FaultClass) (s : State) : State :=
  let s1 := raiseTotal a cls s
  match faultMode s cls with
  | .ignore => s1
  | .report => noteFault a cls s1
  | .halt => halt a cls false (noteFault a cls s1)
  | .retry => retryFault a cls (noteFault a cls s1)

/-- A SUPPLY fault is taken (R109): LATCH halts with SUPPLY latched; FOLLOW halts with the supply fault present, and a crane
already FAULTED is not halted again. -/
def takeSupplyFault (a : Aisle) (s : State) : State :=
  let s1 := noteFault a .supply (raiseTotal a .supply s)
  if param s 24 = 0 then halt a .supply false s1
  else if (crane s a).state = .faulted then setCrane a { crane s1 a with supplyFault := true } s1
  else halt a .supply true s1

/-! ### Homing (R112) -/

/-- HOME is issued and the crane is HOMING; it leaves a park order and a kept leg behind (R112, R113, R114). -/
def startHome (a : Aisle) (clear : Bool) (s : State) : State :=
  let s1 := issue a (homeSegment s) false s
  setCrane a { crane s1 a with
    state := .homing, homingClear := clear, parkOrder := false, leg := none, dropped := none, latched := none } s1

/-- A HOME order (R112). A FAULTED or HOMING crane, or one with a segment or leg in hand, goes on as it was; an OFFLINE crane
whose supply condition is LOW or HIGH takes the SUPPLY fault in place of the homing (R109). -/
def homeOrder (a : Aisle) (s : State) : State :=
  let c := crane s a
  match c.state with
  | .offline => if c.supply = .ok then startHome a false s else takeSupplyFault a s
  | .parked | .ready | .resting => startHome a false s
  | .homing | .waking | .moving | .retryWait | .faulted | .parking => s

/-! ### Park orders (R114) -/

/-- The leg a park order drops, whose visit takes FIRE when the crane settles (R31, R146). A leg whose visit a cancellation
ended leaves no visit. -/
def droppedLeg (c : CraneRec) : Option LegRec :=
  match c.leg with
  | some l => if l.cancelled then none else some l
  | none => none

/-- A park order is carried out by the crane's state (R114 Table 9). A fork that waits for its retry is cut off. -/
def parkCrane (a : Aisle) (s : State) : State :=
  let c := crane s a
  let c1 := { c with parkOrder := true }
  match c.state with
  | .moving | .waking =>
    if forkInFlight c then
      dropClaims a (setCrane a { c1 with state := .parking, dropped := droppedLeg c, leg := none } s)
    else
      let s1 := if c.segment.isSome then sendDrive a .stop s else s
      issuePark a (cutFork a (setCrane a { c1.idle with dropped := droppedLeg c, leg := none } s1))
  | .retryWait =>
    issuePark a (cutFork a (setCrane a { c1 with dropped := droppedLeg c, leg := none, retryTimer := none } s))
  | .homing =>
    let s1 := if c.segment.isSome then sendDrive a .stop s else s
    issuePark a (setCrane a { c1.idle with homingClear := false, retryTimer := none } s1)
  | .ready | .resting => issuePark a (setCrane a c1 s)
  | .parking | .parked | .faulted | .offline => setCrane a c1 s

/-! ### Completions (R12, R13, R15, R26, R100, R101) -/

/-- A FORK_PICK completes (R12): the bin is on the forks; its slot becomes HOME, or the outbound place becomes empty. -/
def pickDone (a : Aisle) (l : LegRec) (s : State) : State :=
  let s1 := setCrane a { (crane s a).idle with carried := some l.bin } (setForkMark a none s)
  let s2 := match l.kind, legSource s l with
    | .inbound, _ => setStation (zoneOf a) { station s1 (zoneOf a) with outbound := none } s1
    | _, some sl => setSlot sl (.home l.bin) s1
    | _, none => s1
  modBin l.bin (fun r => { r with location := .crane a }) s2

/-- A bin joins the tail of the lane (R13, R120): its visit's reservation is consumed and the visit is IN_LANE, held if the
station is OUT (R32). -/
def joinLane (a : Aisle) (l : LegRec) (s : State) : State :=
  let z := zoneOf a
  let r := station s z
  let s1 := setStation z { r with lane := r.lane ++ [l.bin] } s
  let s2 := modBin l.bin (fun b => { b with location := .lane z (Fin.ofNat 3 r.lane.length) }) s1
  let s3 := releaseReservation l.visit s2
  let s4 := modVisit l.visit (fun v => { v with state := .inLane }) s3
  if r.isOut then addHold .stationOut l.visit s4 else s4

/-- The bin is home and its visit ends DONE (R13, R26, R28). -/
def putHome (l : LegRec) (s : State) : State :=
  let s1 := match (bin s l.bin).map (·.home) with
    | some sl => setSlot sl (.filled l.bin) s
    | none => s
  endVisit l.visit .done .done (modBin l.bin (fun b => { b with location := .slot }) s1)

/-- A relocation's place completes (R15): the old slot is EMPTY, the target FILLED and the new home, and the visit ends
DONE. -/
def putTarget (l : LegRec) (s : State) : State :=
  match (bin s l.bin).map (·.home), legTarget s l with
  | some old, some new =>
    let s1 := setSlot new (.filled l.bin) (setSlot old .empty s)
    endVisit l.visit .done .done (modBin l.bin (fun b => { b with location := .slot, home := new }) s1)
  | _, _ => s

/-- A FORK_PLACE completes (R13, R15): the bin leaves the forks and its STRANDED flag is cleared, whatever the target. -/
def placeDone (a : Aisle) (l : LegRec) (s : State) : State :=
  let s1 := setCrane a { (crane s a).idle with carried := none } (setForkMark a none s)
  let s2 := modBin l.bin (fun b => { b with stranded := false }) s1
  match l.kind with
  | .outbound => joinLane a l s2
  | .inbound => putHome l s2
  | .relocation => putTarget l s2

/-- A report unexpected in the crane's state is discarded and counted (R99). -/
def unexpectedReport (a : Aisle) (s : State) : State :=
  let c := crane s a
  setCrane a { c with unexpected := countUp c.unexpected } s

/-- ARRIVED (R100, R101, R114). A PARK ends PARKED, and a carried bin is STRANDED; a TRAVEL passes to the fork it was run
for, to the next segment, or ends a leg that a cancellation dropped (R87). -/
def takeArrived (a : Aisle) (s : State) : State :=
  let c := crane s a
  match c.segment with
  | none => unexpectedReport a s
  | some g =>
    let there := { c.idle with col := some g.col, level := some g.level }
    match g.kind with
    | .park =>
      let s1 := setCrane a { there with state := .parked } s
      match c.carried with
      | some b => markStranded b s1
      | none => s1
    | .travel =>
      let s1 := setCrane a there s
      match c.leg with
      | none => enterReady a s1
      | some l =>
        if l.cancelled then enterReady a s1
        else if l.approach then
          setCraneState a .moving (proceed a true (setLeg a (some { l with approach := false }) s1))
        else nextSegment a l s1
    | .forkPick | .forkPlace | .home => unexpectedReport a s

/-- FORK_DONE (R100, R114). The fork a PARKING crane was finishing belongs to the leg its park order dropped; a PARK follows
it, and a leg whose last segment it was is not dropped any more (R146). -/
def takeForkDone (a : Aisle) (s : State) : State :=
  let c := crane s a
  if forkInFlight c then
    match c.leg, c.dropped with
    | some l, _ =>
      if l.seg = 3 then enterReady a (placeDone a l s) else nextSegment a l (pickDone a l s)
    | none, some l =>
      if l.seg = 3 then
        let s1 := placeDone a l s
        issuePark a (setCrane a { crane s1 a with dropped := none } s1)
      else issuePark a (pickDone a l s)
    | none, none => unexpectedReport a s
  else unexpectedReport a s

/-- HOMED (R112). A HOMING crane enters READY, with its CRANE bit set after Clear Crane; the HOME of a leg passes to the
TRAVEL it stood for (R85, R111). -/
def takeHomed (a : Aisle) (s : State) : State :=
  let c := crane s a
  match c.segment with
  | some ⟨.home, _, _, _, _⟩ =>
    let s1 := setCrane a { c.idle with col := some 0, level := some (mouthLevel s), homingClear := false } s
    match c.leg with
    | none => enterReady a (if c.homingClear then setAttention (craneBit a) s1 else s1)
    | some l => if l.cancelled then enterReady a s1 else setCraneState a .moving (proceed a true s1)
  | _ => unexpectedReport a s

/-! ### Marks (R101, R106, R108) -/

/-- A mark on an axis after one more (R108). -/
def MarkTiming.next (t : MarkTiming) (now : Nat) : MarkTiming :=
  ⟨t.marks + 1, now, if t.marks = 0 then 0 else now - t.last⟩

/-- From the third mark on, the new interval breaks the ratio r: I > r × P or I × r < P (R108). -/
def MarkTiming.breaks (t : MarkTiming) (now r : Nat) : Bool :=
  decide (2 ≤ t.marks) && (decide (now - t.last > r * t.interval) || decide ((now - t.last) * r < t.interval))

/-- The mark is the expected next mark of its axis, from the recorded index towards the target (R101). -/
def expectedMark (recorded target index : Nat) : Bool :=
  (decide (recorded < target) && index == recorded + 1) || (decide (target < recorded) && index + 1 == recorded)

/-- A SLIP fault (R106): the position on both axes becomes unknown and the slip count 0, whatever the mode. -/
def takeSlip (a : Aisle) (s : State) : State :=
  takeFault a .slip (setCrane a { crane s a with slipCount := 0, col := none, level := none } s)

/-- The slip count rises by 1, and a SLIP fault is taken when it reaches slip_limit (R106). -/
def countSlip (a : Aisle) (s : State) : State :=
  let c := crane s a
  let s1 := setCrane a { c with slipCount := c.slipCount + 1 } s
  if c.slipCount + 1 ≥ param s 27 then takeSlip a s1 else s1

/-- A SPEED fault, at most once in a segment (R108). -/
def takeSpeed (a : Aisle) (s : State) : State :=
  takeFault a .speed (setCrane a { crane s a with speedTaken := true } s)

/-- The record with the index of a MARK recorded, when the index lies in its axis's range (R101). -/
def CraneRec.moved (c : CraneRec) (horizontal : Bool) (index : Nat) : CraneRec :=
  if horizontal then (if index ≤ 96 then { c with col := some index } else c)
  else (if index ≤ 11 then { c with level := some index } else c)

/-- The record with a MARK timed on its axis (R108). -/
def CraneRec.timed (c : CraneRec) (horizontal : Bool) (now : Nat) : CraneRec :=
  if horizontal then { c with timingH := c.timingH.next now } else { c with timingV := c.timingV.next now }

/-- A MARK of a known axis, recorded and checked by the segment in flight (R101, R106, R108). A SLIP is judged before a
SPEED, which needs the segment still in flight. -/
def checkMark (a : Aisle) (horizontal : Bool) (recorded index : Nat) (s : State) : State :=
  let c := crane s a
  let moved := c.moved horizontal index
  match c.segment with
  | none => setCrane a moved s
  | some g =>
    match g.kind with
    | .home => setCrane a moved s
    | .forkPick | .forkPlace => countSlip a (setCrane a moved s)
    | .travel | .park =>
      let breaks := (if horizontal then c.timingH else c.timingV).breaks s.time.ms (param s 29)
      let s1 := setCrane a (moved.timed horizontal s.time.ms) s
      let s2 := if expectedMark recorded (if horizontal then g.col else g.level) index then s1 else countSlip a s1
      if breaks && !c.speedTaken && (crane s2 a).segment.isSome then takeSpeed a s2 else s2

/-- MARK (R99, R101): unexpected while HOMING or RESTING, or with the position on its axis unknown. -/
def takeMark (a : Aisle) (horizontal : Bool) (index : Nat) (s : State) : State :=
  let c := crane s a
  if c.state = .homing ∨ c.state = .resting then unexpectedReport a s
  else
    match if horizontal then c.col else c.level with
    | none => unexpectedReport a s
    | some x => checkMark a horizontal x index s

/-! ### The other reports and the timers -/

/-- CURRENT_LIMIT (R107). -/
def takeCurrentLimit (a : Aisle) (s : State) : State :=
  let c := crane s a
  if c.segment.isSome then
    if c.surgeCount + 1 ≥ param s 28 then takeFault a .surge (setCrane a { c with surgeCount := 0 } s)
    else setCrane a { c with surgeCount := c.surgeCount + 1 } s
  else unexpectedReport a s

/-- NO_LOAD (R107). -/
def takeNoLoad (a : Aisle) (s : State) : State :=
  match (crane s a).segment with
  | some g => if g.kind.isFork then unexpectedReport a s else takeFault a .noDrive s
  | none => unexpectedReport a s

/-- A FOLLOW supply fault ends (R109 Table 8): a FAULTED crane with no latched fault is homed, or goes OFFLINE in a closed
zone. -/
def endSupplyFault (a : Aisle) (s : State) : State :=
  let c := crane s a
  let s1 := setCrane a { c with supplyFault := false } s
  if c.state = .faulted ∧ c.latched = none then
    if zoneClosed s (zoneOf a) then takeOffline a s1
    else if service s a = .inService ∧ s.mode = .service then startHome a false s1
    else s1
  else s1

/-- SUPPLY (R109): the condition is recorded; a change to LOW or HIGH takes the fault, except while OFFLINE. -/
def takeSupply (a : Aisle) (cond : SupplyCond) (s : State) : State :=
  let c := crane s a
  let s1 := setCrane a { c with supply := cond } s
  if cond = .ok then (if c.supplyFault then endSupplyFault a s1 else s1)
  else if cond ≠ c.supply ∧ c.state ≠ .offline then takeSupplyFault a s1
  else s1

/-- The deadline of the segment in flight has passed, for the first time in the segment (R105). -/
def deadlineDue (s : State) (c : CraneRec) : Bool :=
  match c.segment with
  | some g => !c.overran && decide (g.issued + c.deadline ≤ s.time.ms)
  | none => false

/-- OVERRUN (R105). -/
def takeOverrun (a : Aisle) (s : State) : State :=
  takeFault a .overrun (setCrane a { crane s a with overran := true } s)

/-- The segment of a leg is re-issued after retry_delay (R85, R111): the segment that faulted, wherever the crane stands by
then, with the retry count kept; and with the position unknown a HOME in its place, which for a fork is followed by a TRAVEL to
the fork's place. The skip of a TRAVEL to the crane's own position is for the TRAVEL after that HOME (`proceed`, at HOMED).
DEDUCED (log entry 13): a fault of the TRAVEL run for a fork is retried by that TRAVEL. -/
def reissueLeg (a : Aisle) (l : LegRec) (s : State) : State :=
  let c := crane s a
  let g := legSegment s l
  if c.col.isNone || c.level.isNone then
    issue a (homeSegment s) true (if g.kind.isFork then setLeg a (some { l with approach := true }) s else s)
  else issue a (if l.approach then { g with kind := .travel } else g) true s

/-- retry_delay has passed (R111): a HOME or PARK is issued again; a leg's segment is re-issued with the crane MOVING; and a
crane whose leg a cancellation dropped enters READY. -/
def takeRetry (a : Aisle) (s : State) : State :=
  let c := crane s a
  let s1 := setCrane a { c with retryTimer := none } s
  match c.state with
  | .homing => issue a (homeSegment s) true s1
  | .parking => issue a (parkSegment s) true s1
  | _ =>
    match c.leg with
    | none => enterReady a s1
    | some l => if l.cancelled then enterReady a s1 else setCraneState a .moving (reissueLeg a l s1)

/-- The rest timer expires (R88). -/
def takeRest (a : Aisle) (s : State) : State :=
  sendDrive a .brakeRest (setCrane a { crane s a with state := .resting, restTimer := none } s)

/-! ### Cancellations (R87, R111) -/

/-- A FORK_PICK of the bin is in flight on its aisle's crane (R43). -/
def pickInFlight (s : State) (a : Aisle) (b : Nat) : Bool :=
  match (crane s a).segment with
  | some g => g.kind == .forkPick && forkMark s a == some b
  | none => false

/-- The bin is in its home slot as a cancellation judges it: located SLOT with no FORK_PICK of it in flight (R43). -/
def inHomeSlot (s : State) (b : Nat) : Bool :=
  match bin s b with
  | some r => r.location == .slot && !pickInFlight s r.home.aisle b
  | none => false

/-- The crane's leg for a visit that a cancellation ends: in RETRY_WAIT it is dropped; otherwise no further segment of it is
issued (R87, R111). Its fork mark, if a fork of it awaits a retry, is cleared. -/
def cancelLeg (a : Aisle) (n : Nat) (s : State) : State :=
  let c := crane s a
  let s1 := match c.leg with
    | some l =>
      if l.visit = n then
        setForkMark a none
          (setLeg a (if c.state = .retryWait then none else some { l with cancelled := true }) s)
      else s
    | none => s
  match c.dropped with
  | some l => if l.visit = n then setCrane a { crane s1 a with dropped := none } s1 else s1
  | none => s1

end Sys2Proof.Machine
end

