-- ==== Sys2Proof/Machine/Operands.lean ====
section
/-! DEFINITION. The wire forms: fields of commands, data of replies, and the frames of the field links (R182, R183). -/

namespace Sys2Proof.Machine

/-! ### Fields of a command (R182) -/

/-- The byte at an offset of the parameters, as a number. -/
def byteAt (p : List Byte) (i : Nat) : Nat := (p.getD i 0).toNat

/-- A two-byte number, most significant byte first. -/
def wordAt (p : List Byte) (i : Nat) : Nat := byteAt p i * 256 + byteAt p (i + 1)

/-- A six-byte item key, most significant byte first. -/
def keyAt (p : List Byte) (i : Nat) : ItemKey :=
  p.getD i 0 ++ p.getD (i + 1) 0 ++ p.getD (i + 2) 0 ++ p.getD (i + 3) 0 ++ p.getD (i + 4) 0 ++ p.getD (i + 5) 0

/-- A bit of the byte at an offset. -/
def bitAt (p : List Byte) (i bit : Nat) : Bool := (p.getD i 0).getLsbD bit

/-- A code of a rack side (R182 Table 3); a slot has no mouth side (R4). -/
def sideOfCode (n : Nat) : Option Side := if n = 0 then some .left else if n = 1 then some .right else none

/-- A four-byte slot, if its coordinates are in range (R4, R182). -/
def slotAt (p : List Byte) (i : Nat) : Option Slot :=
  if ha : byteAt p i < 8 then
    if hc : byteAt p (i + 1) < 96 then
      if hl : byteAt p (i + 2) < 12 then
        (sideOfCode (byteAt p (i + 3))).map fun sd => ⟨⟨byteAt p i, ha⟩, ⟨byteAt p (i + 1), hc⟩, ⟨byteAt p (i + 2), hl⟩, sd⟩
      else none
    else none
  else none

/-- An aisle number, if it is one. -/
def aisleOf (n : Nat) : Option Aisle := if h : n < 8 then some ⟨n, h⟩ else none

/-- A station or zone number, if it is one. -/
def stationOf (n : Nat) : Option Station := if h : n < 4 then some ⟨n, h⟩ else none

/-- Fields of 0 in every place that no field uses. -/
def zeroes (p : List Byte) (i n : Nat) : Bool := ((p.drop i).take n).all (· == 0)

/-! ### Codes of named values (R182 Table 3) -/

def Side.code : Side → Nat | .left => 0 | .right => 1
def ForkSide.code : ForkSide → Nat | .left => 0 | .right => 1 | .mouth => 2
def SlotEntry.code : SlotEntry → Nat | .empty => 0 | .home _ => 1 | .filled _ => 2 | .target _ => 3 | .blocked => 4
def VisitKind.code : VisitKind → Nat | .delivery => 0 | .intake => 1 | .relocation => 2
def VisitOutcome.code : VisitOutcome → Nat | .done => 0 | .cancelled => 1 | .removed => 2
def VisitState.code : VisitState → Nat
  | .queued => 0 | .outbound => 1 | .inLane => 2 | .presenting => 3 | .atFace => 4 | .withdrawing => 5
  | .atOutbound => 6 | .inbound => 7 | .moving => 8 | .done => 9 | .cancelled => 10
def TaskKind.code : TaskKind → Nat | .lend => 0 | .return => 1 | .refile => 2 | .fetch => 3
def TaskState.code : TaskState → Nat
  | .pending => 0 | .confirmed => 1 | .notFound => 2 | .notPlaced => 3 | .seen => 4 | .cancelled => 5
def ProblemCode.code : ProblemCode → Nat | .damaged => 0 | .wrongBin => 1 | .empty => 2
def CraneState.code : CraneState → Nat
  | .offline => 0 | .homing => 1 | .ready => 2 | .resting => 3 | .waking => 4 | .moving => 5 | .retryWait => 6
  | .faulted => 7 | .parking => 8 | .parked => 9
def SegKind.code : SegKind → Nat | .travel => 0 | .forkPick => 1 | .forkPlace => 2 | .park => 3 | .home => 4
def LegKind.code : LegKind → Nat | .outbound => 0 | .inbound => 1 | .relocation => 2
def ServiceState.code : ServiceState → Nat | .absent => 0 | .inService => 1 | .suspending => 2 | .suspended => 3
def Shutter.code : Shutter → Nat | .open => 0 | .closing => 1 | .closed => 2 | .opening => 3
def CrossingKind.code : CrossingKind → Nat | .present => 1 | .withdraw => 2
def ReopenReport.code : ReopenReport → Nat | .none => 0 | .open => 1 | .reopenFault => 2
def LastGrant.code : LastGrant → Nat | .none => 0 | .first => 1 | .second => 2
def SupplyCond.code : SupplyCond → Nat | .low => 0 | .ok => 1 | .high => 2
def ZoneState.code : ZoneState → Nat
  | .clear => 0 | .alert => 1 | .shutdown => 2 | .sealed => 3 | .awaitRestore => 4 | .recovery => 5
def ScanTable.code : ScanTable → Nat | .bin => 0 | .withdrawal => 1
def ScanState.code : ScanState → Nat | .idle => 0 | .running => 1 | .paused => 2 | .done => 3
/-- DEDUCED (log entry 34): R182 Table 3 does not list these states, and the order is that of R46 Table 1. -/
def WithdrawalState.code : WithdrawalState → Nat | .out => 0 | .returning => 1
def Mode.code : Mode → Nat | .commissioning => 0 | .service => 1
def ResetCause.code : ResetCause → Nat | .powerLost => 0 | .powerKept => 1 | .pin => 2 | .restart => 3

/-- The supply condition of a code (R182 Table 3). -/
def supplyOfByte (b : Byte) : Option SupplyCond :=
  if b = 0 then some .low else if b = 1 then some .ok else if b = 2 then some .high else none

/-! ### Data of replies (R182) -/

/-- One byte. -/
def byte (n : Nat) : List Byte := [BitVec.ofNat 8 n]

/-- A number of `n` bytes, most significant byte first. -/
def bytes : Nat → Nat → List Byte
  | 0, _ => []
  | n + 1, x => bytes n (x / 256) ++ byte x

/-- A set as one byte, bit 0 first. -/
def setByte (l : List Bool) : List Byte := byte (l.foldr (fun b n => 2 * n + b.toNat) 0)

/-- An absent visit, place, code or position is 0xFF. -/
def optByte (o : Option Nat) : List Byte := byte (o.getD 0xFF)

/-- An absent bin is 0xFFFF. -/
def optBin (o : Option Nat) : List Byte := bytes 2 (o.getD 0xFFFF)

/-- A timer that is stopped or absent is 0xFFFF or 0xFFFFFFFF. -/
def optTimer (n : Nat) (o : Option Nat) : List Byte := bytes n (o.getD (256 ^ n - 1))

/-- An item key; an absent key is 0. -/
def keyBytes (o : Option ItemKey) : List Byte := bytes 6 (o.getD 0).toNat

def slotBytes (sl : Slot) : List Byte := byte sl.aisle.val ++ byte sl.column.val ++ byte sl.level.val ++ byte sl.side.code

/-- An absent slot is four bytes of 0xFF. -/
def optSlot (o : Option Slot) : List Byte := (o.map slotBytes).getD (List.replicate 4 0xFF)

/-- Location kind, aisle or station, and place (R182 Tables 3 and 4). -/
def locationBytes : Location → List Byte
  | .slot => byte 0 ++ byte 0xFF ++ byte 0xFF
  | .crane a => byte 1 ++ byte a.val ++ byte 0xFF
  | .lane z p => byte 2 ++ byte z.val ++ byte p.val
  | .opening z => byte 2 ++ byte z.val ++ byte 3
  | .face z => byte 3 ++ byte z.val ++ byte 0xFF
  | .outbound z => byte 4 ++ byte z.val ++ byte 0xFF

/-- Read Bin and Alter Bin. -/
def binBytes (b : Nat) (r : BinRec) : List Byte :=
  bytes 2 b ++ byte r.sizeClass ++ byte r.capacity ++ byte r.fill ++ byte r.withdrawn ++ byte r.lendHolds ++
    byte r.refileHolds ++ slotBytes r.home ++ locationBytes r.location ++ optByte r.openVisit ++
    setByte [r.quarantined, r.stranded, r.obstructed, r.uncertain] ++ setByte [r.lastVisitDay.isSome] ++
    bytes 2 (r.lastVisitDay.getD 0)

/-- The bin a slot entry names. -/
def SlotEntry.bin : SlotEntry → Option Nat
  | .home b | .filled b | .target b => some b
  | .empty | .blocked => none

/-- Read Slot. -/
def slotEntryBytes (e : SlotEntry) : List Byte := byte e.code ++ optBin e.bin

/-- Read Withdrawal Bucket: the 19 bytes of a bucket and the record in it, with the home bucket of its key. -/
def bucketBytes (i home : Nat) : Option WithdrawalRec → List Byte
  | none =>
    bytes 2 i ++ byte 0 ++ keyBytes none ++ optBin none ++ bytes 2 0 ++ bytes 2 0 ++ optByte none ++ optByte none ++ bytes 2 0
  | some r =>
    bytes 2 i ++ byte 1 ++ keyBytes (some r.key) ++ bytes 2 r.homeBin ++ bytes 2 r.outDay ++ bytes 2 r.dueDay ++
      byte r.state.code ++ optByte r.returnVisit ++ bytes 2 home

def holdBytes (h : HoldSet) : List Byte := setByte [h.fire, h.reset, h.craneFault, h.aisleSuspended, h.stationOut]

/-- Read Visit, header. -/
def visitBytes (n : Nat) (v : VisitRec) : List Byte :=
  byte n ++ byte v.kind.code ++ bytes 2 v.bin ++ byte v.state.code ++ bytes 6 v.created ++ byte v.priority ++
    setByte [v.urgent, v.reservation] ++ holdBytes v.hold ++ optSlot v.target ++
    setByte [v.problems.damaged, v.problems.wrongBin, v.problems.empty] ++ optByte (v.outcome.map (·.code)) ++
    byte v.tasks.length

def taskBytes (t : TaskRec) : List Byte :=
  byte t.kind.code ++ keyBytes t.key ++ byte t.priority ++ setByte [t.urgent, t.fillMismatch] ++ bytes 2 (t.dueDay.getD 0) ++
    byte t.state.code

/-- Read Visit, a portion of the tasks: part 1 has tasks 0..3 and part 2 tasks 4..7. -/
def taskPartBytes (n part : Nat) (v : VisitRec) : List Byte :=
  let ts := (v.tasks.drop (4 * (part - 1))).take 4
  byte n ++ byte part ++ byte ts.length ++ ts.flatMap taskBytes

/-- The ms until a deadline passes: 0 once it has passed with the segment still in flight (R117). -/
def deadlineLeft (s : State) (c : CraneRec) : Option Nat := c.segment.map fun g => g.issued + c.deadline - s.time.ms

/-- Read Crane. -/
def craneBytes (s : State) (a : Aisle) : List Byte :=
  let c := crane s a
  byte a.val ++ byte (service s a).code ++ byte c.state.code ++ optByte c.col ++ optByte c.level ++ optBin c.carried ++
    optByte (c.leg.map (·.visit)) ++ optByte (c.leg.map fun l => l.kind.code + if l.continuation then 3 else 0) ++
    optByte (c.leg.map (·.seg.val)) ++ optByte (c.segment.map (·.kind.code)) ++ optByte (c.segment.map (·.col)) ++
    optByte (c.segment.map (·.level)) ++ optTimer 4 c.estimate ++ optTimer 4 (deadlineLeft s c) ++ byte c.retryCount ++
    byte c.slipCount ++ byte c.surgeCount ++ byte (min c.timingH.marks 255) ++ byte (min c.timingV.marks 255) ++
    bytes 2 (min c.timingH.interval 65535) ++ bytes 2 (min c.timingV.interval 65535) ++
    setByte [c.parkOrder, c.supplyFault, c.homingClear, (aisleRec s a).grant, waiting s a] ++
    optByte (c.latched.map (·.code.val)) ++ optByte (c.lastFault.map (·.1.code.val)) ++
    optByte (c.lastFault.bind (fun f => f.2.map (·.code))) ++ byte c.supply.code ++ c.totals.toList.flatMap (bytes 2) ++
    bytes 2 c.unexpected

/-- A lane place: its bin and that bin's visit. -/
def laneBytes (s : State) (b : Option Nat) : List Byte := optBin b ++ optByte (b.bind fun n => (bin s n).bind (·.openVisit))

/-- Read Station. -/
def stationBytes (s : State) (z : Station) : List Byte :=
  let r := station s z
  byte z.val ++ byte r.lane.length ++ laneBytes s r.lane[0]? ++ laneBytes s r.lane[1]? ++ laneBytes s r.lane[2]? ++
    byte r.resv0 ++ byte r.resv1 ++ byte (r.waiting0.toNat + 2 * r.waiting1.toNat + 4 * r.lastGrant.code) ++
    optBin (r.face.map (·.bin)) ++ optByte (r.face.map (·.visit)) ++ optBin r.outbound ++
    byte ((r.crossing.map (·.kind.code)).getD 0) ++ optBin (r.crossing.map (·.bin)) ++
    optTimer 2 (r.crossing.map fun x => min (s.time.ms - x.start) 65535) ++ optBin r.openingBin ++ byte r.shutter.code ++
    setByte [r.holdOpen, r.closeOrder, (r.crossing.map (·.beamSeen)).getD false, zoneClosed s z, r.lineTest.isSome] ++
    setByte [r.jammed, r.reopenFault] ++
    setByte [r.faceLong, r.scanUnexpected, r.panelLinkFlag, r.forced, r.shutterFault, r.problemFlag] ++
    keyBytes r.lastKey ++ optByte (r.lastProblem.map (·.1)) ++ optByte (r.lastProblem.map (·.2.code)) ++
    optTimer 4 r.faceTimer ++ byte r.discards

/-- Read Parameter and Set Parameter. -/
def paramBytes (w : ParamWord) : List Byte := bytes 2 w.value.toNat ++ byte w.parity.toNat

def scanEntryBytes : ScanEntry → List Byte
  | .bin n => bytes 2 n
  | .bucket n key => bytes 2 n ++ keyBytes (some key)

/-- Read Scan Results: the entries carried and the channel after their removal. -/
def scanBytes (carried : List ScanEntry) (q : ChannelRec) : List Byte :=
  byte carried.length ++ byte q.results.length ++
    byte (q.table.code + 2 * q.state.code + 8 * q.disturbed.toNat) ++ bytes 2 q.cursor ++ bytes 2 q.passCount ++
    carried.flatMap scanEntryBytes

/-! ### Frames of the field links (R183 Table 5) -/

def Transfer.code : Transfer → Nat | .present => 0 | .withdraw => 1 | .halt => 2

/-- A message: type byte, length byte and content. -/
def frame (type : Byte) (content : List Byte) : List Byte := type :: BitVec.ofNat 8 content.length :: content

def DriveMsg.frame : DriveMsg → List Byte
  | .go col level => Machine.frame 0x31 (byte col ++ byte level)
  | .fork place side => Machine.frame 0x32 (byte place.toNat ++ byte side.code)
  | .park => Machine.frame 0x33 []
  | .home => Machine.frame 0x34 []
  | .stop => Machine.frame 0x35 []
  | .brakeRest => Machine.frame 0x36 []
  | .wake => Machine.frame 0x37 []

def PanelMsg.frame : PanelMsg → List Byte
  | .show kind key index => Machine.frame 0x21 (byte kind.code ++ bytes 6 key.toNat ++ byte index)
  | .clear => Machine.frame 0x22 []
  | .locked => Machine.frame 0x23 []
  | .repeat => Machine.frame 0x24 []
  | .transfer t => Machine.frame 0x25 (byte t.code)

def FieldMsg.frame : FieldMsg → List Byte
  | .drive _ m => m.frame
  | .panel _ m => m.frame

end Sys2Proof.Machine
end

