-- ==== Sys2Proof/Machine/Scheduling.lean ====
section
/-! DEFINITION. The Aisle Scheduler and the lane arbiter: eligibility, the choice, lane places and grants (R80 to R87, R120,
R121). -/

namespace Sys2Proof.Machine

/-! ### Eligibility (R80) -/

/-- The crane of the aisle has reached READY since its zone entered RECOVERY (R80, R150). -/
def recoveredMark (s : State) (a : Aisle) : Bool :=
  if a.val % 2 = 0 then (zone s (zoneOf a)).recovered0 else (zone s (zoneOf a)).recovered1

/-- The zone admits new outbound and relocation legs of the aisle (R80 Table 2). -/
def admitsNew (s : State) (a : Aisle) : Bool :=
  match (zone s (zoneOf a)).state with
  | .clear => true
  | .recovery => recoveredMark s a
  | .alert | .shutdown | .sealed | .awaitRestore => false

/-- The zone admits inbound and continuation legs of the aisle (R80 Table 2). -/
def admitsOld (s : State) (a : Aisle) : Bool :=
  match (zone s (zoneOf a)).state with
  | .clear | .alert => true
  | .recovery => recoveredMark s a
  | .shutdown | .sealed | .awaitRestore => false

/-- The leg a visit's state asks of its crane; the second part marks a continuation (R80, R86). -/
def legOfState (v : VisitRec) : Option (LegKind × Bool) :=
  match v.state, v.kind with
  | .queued, .relocation => some (.relocation, false)
  | .queued, _ => some (.outbound, false)
  | .atOutbound, _ => some (.inbound, false)
  | .outbound, _ => some (.outbound, true)
  | .inbound, _ => some (.inbound, true)
  | .moving, _ => some (.relocation, true)
  | _, _ => none

/-- The conditions of one leg of Table 2 (R80). -/
def legAllowed (s : State) (a : Aisle) (v : VisitRec) : LegKind × Bool → Bool
  | (_, true) => binLocation s v.bin == some (.crane a) && admitsOld s a
  | (.inbound, false) => admitsOld s a
  | (.relocation, false) => admitsNew s a
  | (.outbound, false) => admitsNew s a && stationOpen s (zoneOf a)

/-- The leg a visit of the aisle is eligible for (R80). -/
def eligible (s : State) (a : Aisle) (v : VisitRec) : Option (LegKind × Bool) :=
  if isOpen v && !v.hold.any && service s a == .inService && ofAisle s a v then
    (legOfState v).filter (legAllowed s a v)
  else none

/-- A leg a choice may take. -/
structure Candidate where
  number       : Nat
  entry        : VisitRec
  kind         : LegKind
  continuation : Bool
  deriving DecidableEq, Repr

/-- The eligible legs of an aisle in visit number order. -/
def candidates (s : State) (a : Aisle) : List Candidate :=
  s.visits.filterMap fun e => (eligible s a e.2).map fun k => ⟨e.1, e.2, k.1, k.2⟩

/-- An outbound leg whose visit holds no reservation, and so needs a lane place (R83). -/
def Candidate.needsPlace (c : Candidate) : Bool := c.kind == .outbound && !c.entry.reservation

/-! ### The choice (R81 to R86) -/

/-- The crane is READY or RESTING and holds no leg (R81). -/
def isFree (s : State) (a : Aisle) : Bool :=
  let c := crane s a
  (c.state == .ready || c.state == .resting) && c.leg.isNone

/-- A visit is aged when it has waited at least the age limit (R82). -/
def isAged (s : State) (v : VisitRec) : Bool := decide (1000 * param s 17 ≤ s.time.ms - v.created)

/-- The keys that rank outbound and relocation legs, the smaller first: urgent, aged, creation among aged, priority,
approach estimate, visit number (R82). -/
def rankKeys (s : State) (a : Aisle) (c : Candidate) : List Nat :=
  let approach := match (bin s c.entry.bin).map (·.home) with
    | some sl => approachEstimate s (crane s a) sl
    | none => 0
  [if c.entry.urgent then 0 else 1, if isAged s c.entry then 0 else 1, if isAged s c.entry then c.entry.created else 0,
    3 - c.entry.priority, approach, c.number]

/-- The first key that differs decides. -/
def keysBefore : List Nat → List Nat → Bool
  | x :: xs, y :: ys => if x < y then true else if y < x then false else keysBefore xs ys
  | _, _ => false

/-- The leg ranked first (R82). -/
def firstRanked (s : State) (a : Aisle) : List Candidate → Option Candidate
  | [] => none
  | c :: cs =>
    match firstRanked s a cs with
    | none => some c
    | some d => if keysBefore (rankKeys s a d) (rankKeys s a c) then some d else some c

/-- The visit that a chosen leg enters (R26). -/
def legState : LegKind → VisitState
  | .outbound => .outbound
  | .inbound => .inbound
  | .relocation => .moving

/-- A leg passes to the Crane Supervisor (R81, R85, R86): the visit's state changes, the first segment is issued, and the
crane is MOVING, or WAKING if it was RESTING. -/
def handLeg (a : Aisle) (c : Candidate) (s : State) : State :=
  let s1 := modVisit c.number (fun v => { v with state := legState c.kind }) s
  let l : LegRec := ⟨c.number, c.entry.bin, c.kind, c.continuation, if c.continuation then 2 else 0, false, false⟩
  let st := if (crane s a).state = .resting then CraneState.waking else .moving
  setCraneState a st (proceed a false (setLeg a (some l) s1))

/-- Sets the reservation of a visit. -/
def reserve (n : Nat) (s : State) : State := modVisit n (fun v => { v with reservation := true }) s

/-- The last grant that names an aisle. -/
def lastGrantOf (a : Aisle) : LastGrant := if a.val % 2 = 0 then .first else .second

/-- The aisle takes a lane place: its reservations rise by 1, it leaves the waiting set and it is the last grant (R121). -/
def takePlace (a : Aisle) (s : State) : State :=
  let s1 := setWaiting a false (setReservations a (reservations s a + 1) s)
  setStation (zoneOf a) { station s1 (zoneOf a) with lastGrant := lastGrantOf a } s1

/-- A place for an outbound leg (R83): the grant the aisle holds, or a free place unless the aisle is already waiting. -/
def obtainPlace (a : Aisle) (n : Nat) (s : State) : Option State :=
  if (aisleRec s a).grant then some (reserve n (setAisle a { aisleRec s a with grant := false } s))
  else if waiting s a then none
  else if 0 < freePlaces (station s (zoneOf a)) then some (reserve n (takePlace a s))
  else none

/-- The choice among outbound and relocation legs (R82, R83). -/
def chooseNew (a : Aisle) (cs : List Candidate) (s : State) : State :=
  match firstRanked s a cs with
  | none => s
  | some c =>
    if c.needsPlace then
      match obtainPlace a c.number s with
      | some s1 => handLeg a c s1
      | none =>
        let s1 := setWaiting a true s
        match firstRanked s a (cs.filter (fun d => !d.needsPlace)) with
        | some d => handLeg a d s1
        | none => s1
    else handLeg a c s

/-- The choice with a bin on the forks: its continuation leg or none (R82, R86). -/
def chooseCarried (a : Aisle) (b : Nat) (cs : List Candidate) (s : State) : State :=
  match cs.find? (fun c => c.continuation && c.entry.bin == b) with
  | none => s
  | some c =>
    if c.needsPlace then
      match obtainPlace a c.number s with
      | some s1 => handLeg a c s1
      | none => setWaiting a true s
    else handLeg a c s

/-- The choice by the three groups of R82. -/
def chooseLeg (a : Aisle) (cs : List Candidate) (s : State) : State :=
  match (crane s a).carried with
  | some b => chooseCarried a b cs s
  | none =>
    match cs.find? (fun c => c.kind == .inbound && !c.continuation) with
    | some c => handLeg a c s
    | none => chooseNew a (cs.filter (fun c => !c.continuation)) s

/-- The scheduler makes a choice (R81). A grant it still holds is returned when no outbound leg without a reservation was
eligible (R84). -/
def choose (a : Aisle) (s : State) : State :=
  if isFree s a && service s a == .inService then
    let cs := candidates s a
    let s1 := chooseLeg a cs s
    if (aisleRec s1 a).grant && !cs.any (·.needsPlace) then returnGrant a s1 else s1
  else s

/-! ### The arbiter (R121) -/

/-- The aisle a free place goes to, if one waits (R121 Table 2). -/
def nextGrant (s : State) (z : Station) : Option Aisle :=
  let r := station s z
  if 0 < freePlaces r then
    match r.waiting0, r.waiting1 with
    | false, false => none
    | true, false => some (aisle0 z)
    | false, true => some (aisle1 z)
    | true, true => if r.lastGrant = .first then some (aisle1 z) else some (aisle0 z)
  else none

/-- A grant arrives at an aisle (R84 Table 3): it is held, or returned at once by a crane that cannot use it. -/
def grantArrives (a : Aisle) (s : State) : State :=
  let s1 := takePlace a s
  let s2 := setAisle a { aisleRec s1 a with grant := true } s1
  match (crane s a).state with
  | .faulted | .parking | .parked | .offline => returnGrant a s2
  | .homing | .ready | .resting | .waking | .moving | .retryWait => s2

/-- Freed places are granted, and the choices that are due are made, until neither is left. A grant makes a choice due at a
free crane (R84). Each grant takes an aisle from the waiting set and each choice one from the list, so the rounds end long
before `fuel`. -/
def schedule (z : Station) : Nat → List Aisle → State → State
  | 0, _, s => s
  | fuel + 1, due, s =>
    match nextGrant s z with
    | some a => schedule z fuel (if isFree s a then due ++ [a] else due) (grantArrives a s)
    | none =>
      match due with
      | [] => s
      | a :: rest => schedule z fuel rest (choose a s)

/-- A visit of the aisle is eligible that was not before the event (R81). -/
def newlyEligible (before s : State) (a : Aisle) : Bool :=
  (candidates s a).any fun c =>
    match visit before c.number with
    | none => true
    | some v => (eligible before a v).isNone

/-- The zone has entered CLEAR from ALERT, or CLEAR or ALERT from RECOVERY (R142, R150). -/
def zoneOpened (before s : State) (z : Station) : Bool :=
  match (zone before z).state, (zone s z).state with
  | .alert, .clear | .recovery, .clear | .recovery, .alert => true
  | _, _ => false

/-- A choice is due at an aisle after an event: its crane has entered READY, a visit has become eligible while the crane is
free, or its zone has opened (R81, R142, R150). -/
def choiceDue (before s : State) (a : Aisle) : Bool :=
  isFree s a &&
    (((crane s a).state == .ready && (crane before a).state != .ready) || newlyEligible before s a ||
      zoneOpened before s (zoneOf a))

/-- The choices an event makes due in a zone, the lower aisle first, with the grants of freed places. -/
def scheduleZone (before : State) (z : Station) (s : State) : State :=
  schedule z 12 ([aisle0 z, aisle1 z].filter (choiceDue before s)) s

end Sys2Proof.Machine
end

