-- ==== Sys2Proof/Machine/Stations.lean ====
section
/-! DEFINITION. What a Station Controller does: crossings, the face timer, the shutter and the zone's orders to it (R122 to
R132). -/

namespace Sys2Proof.Machine

/-- Changes a station's record. -/
def modStation (z : Station) (f : StationRec → StationRec) (s : State) : State := setStation z (f (station s z)) s

/-- A station's STATION attention bit is set (R137). -/
def stationAttention (z : Station) (s : State) : State := setAttention (stationBit z) s

/-! ### Crossings (R123 to R126) -/

/-- The conditions that a present and a withdraw crossing share (R123, R124): no crossing and no Line Test, the shutter OPEN
with the open limit asserted, the station OPEN with no close order, the zone CLEAR or ALERT, and the beam clear. -/
def mayCross (s : State) (z : Station) : Bool :=
  let r := station s z
  r.crossing.isNone && r.lineTest.isNone && stationOpen s z && r.openLimit && !r.closeOrder && !r.beam &&
    ((zone s z).state == .clear || (zone s z).state == .alert)

/-- A bin may take part in a crossing: it is not OBSTRUCTED and its visit carries no hold reason that stops crossings. -/
def binMayCross (s : State) (b : Nat) : Bool :=
  match bin s b with
  | none => false
  | some r =>
    !r.obstructed &&
      match r.openVisit.bind (visit s) with
      | some v => !v.hold.stopsCrossings
      | none => false

/-- The bin located LANE OPENING at the station, which is its opening bin (R119, R123). -/
def binInOpening (s : State) (z : Station) : Option Nat :=
  (station s z).openingBin.filter (fun b => binLocation s b == some (.opening z))

/-- The bin to present: the one located LANE OPENING if there is one, otherwise the lane head (R123). -/
def binToPresent (s : State) (z : Station) : Option Nat :=
  match binInOpening s z with
  | some b => some b
  | none => (station s z).lane.head?

/-- The locations of the bins of a lane queue by their places (R3, R14). -/
def placeLane (z : Station) : Nat → List Nat → State → State
  | _, [], s => s
  | i, b :: bs, s => placeLane z (i + 1) bs (modBin b (fun r => { r with location := .lane z (Fin.ofNat 3 i) }) s)

/-- The lane head leaves the queue for the opening and the other bins move up (R14). -/
def leaveLane (z : Station) (b : Nat) (s : State) : State :=
  let rest := (station s z).lane.tail
  let s1 := modStation z (fun r => { r with lane := rest }) s
  placeLane z 0 rest (modBin b (fun r => { r with location := .opening z }) s1)

/-- A crossing of a bin starts (R123, R124): the record, the opening bin, the crossing mark, the timer and the TRANSFER. -/
def beginCrossing (z : Station) (kind : CrossingKind) (b : Nat) (s : State) : State :=
  let x : CrossingRec := ⟨kind, b, s.time.ms, false, 1000 * param s 30⟩
  let s1 := modStation z (fun r => { r with crossing := some x, openingBin := some b }) s
  sendPanel z (.transfer (match kind with | .present => .present | .withdraw => .withdraw)) (setCrossingMark z (some b) s1)

/-- The state of a bin's open visit is set. -/
def setVisitState (b : Nat) (st : VisitState) (s : State) : State :=
  match (bin s b).bind (·.openVisit) with
  | some n => modVisit n (fun v => { v with state := st }) s
  | none => s

/-- A present crossing starts if its conditions hold (R123). -/
def tryPresent (z : Station) (s : State) : State :=
  if mayCross s z && (station s z).face.isNone then
    match binToPresent s z with
    | none => s
    | some b =>
      if binMayCross s b then
        let s1 := if (binInOpening s z).isSome then s else leaveLane z b s
        beginCrossing z .present b (setVisitState b .presenting s1)
      else s
  else s

/-- A withdraw crossing starts if its conditions hold (R124). -/
def tryWithdraw (z : Station) (s : State) : State :=
  let r := station s z
  match r.face with
  | none => s
  | some f =>
    let leaving := match visit s f.visit with
      | some v => v.state == .withdrawing
      | none => false
    if leaving && mayCross s z && r.outbound.isNone && binMayCross s f.bin then beginCrossing z .withdraw f.bin s else s

/-- The crossings whose conditions an event has made hold start (R123, R124). -/
def startCrossings (z : Station) (s : State) : State := tryPresent z (tryWithdraw z s)

/-- The face timer starts with face_limit (R127). -/
def startFaceTimer (z : Station) (s : State) : State :=
  modStation z (fun r => { r with faceTimer := some (1000 * param s 31) }) s

/-- The crossing record and the crossing mark are cleared. -/
def endCrossing (z : Station) (s : State) : State :=
  setCrossingMark z none (modStation z (fun r => { r with crossing := none }) s)

/-- A bin with its open visit arrives at the face: the tasks are shown and the face timer starts (R8, R27, R125). -/
def arriveAtFace (z : Station) (b n : Nat) (s : State) : State :=
  let s1 := modStation z (fun r => { r with face := some ⟨b, n⟩ }) s
  let s2 := modVisit n (fun v => { v with state := .atFace }) s1
  let s3 := match visit s2 n with
    | some v => showPending z 0 v.tasks s2
    | none => s2
  startFaceTimer z s3

/-- A crossing's arrival (R125). -/
def crossingArrives (z : Station) (x : CrossingRec) (s : State) : State :=
  let s1 := modStation z (fun r => { r with openingBin := none }) (endCrossing z s)
  match x.kind with
  | .present =>
    let s2 := modBin x.bin (fun b => { b with location := .face z }) s1
    match (bin s x.bin).bind (·.openVisit) with
    | some n => arriveAtFace z x.bin n s2
    | none => s2
  | .withdraw =>
    let s2 := modBin x.bin (fun b => { b with location := .outbound z }) s1
    let s3 := modStation z (fun r => { r with face := none, outbound := some x.bin }) s2
    setVisitState x.bin .atOutbound s3

/-- The visits that a station going OUT holds (R32). -/
def holdOut (z : Station) (s : State) : State :=
  addHoldWhere .stationOut (fun _ v => ofZone s z v && v.state.atStation) s

/-- A crossing that has not arrived within crossing_max is jammed (R126). -/
def jamCrossing (z : Station) (x : CrossingRec) (s : State) : State :=
  let s1 := endCrossing z (sendPanel z (.transfer .halt) s)
  let s2 := modStation z (fun r => { r with jammed := true }) (markObstructed x.bin s1)
  stationAttention z (holdOut z s2)

/-! ### The shutter (R128 to R132) -/

/-- The hold-open output is released and the shutter enters CLOSING with its travel timer (R128). A travel towards OPEN, and
what it was to answer, ends. DESIGN CHOICE (log entry 32): a closed limit that is asserted already does not end the travel. -/
def releaseShutter (z : Station) (s : State) : State :=
  modStation z (fun r => { r with
    holdOpen := false, shutter := .closing, travelTimer := some (1000 * param s 32), reopenOrdered := false,
    reopenCommand := false }) s

/-- The output is energised and the shutter enters OPENING with its travel timer (R128). DESIGN CHOICE (log entry 32): an open
limit that is asserted already does not end the travel. -/
def energiseShutter (z : Station) (s : State) : State :=
  modStation z (fun r => { r with holdOpen := true, shutter := .opening, travelTimer := some (1000 * param s 32) }) s

/-- The station reports released to its zone, which stops the hold timer (R129, R145). -/
def reportReleased (z : Station) (s : State) : State :=
  setZone z { zone s z with released := true, holdTimer := none } s

/-- The station's answer to the reopen order of RECOVERY (R131, R141). A report given in another zone state answers no such
order and is not kept. -/
def reportReopen (z : Station) (rep : ReopenReport) (s : State) : State :=
  if (zone s z).state = .recovery then setZone z { zone s z with reopenReport := rep } s else s

/-- A standing close order is carried out at the first event at which it can be (R129). -/
def carryClose (z : Station) (s : State) : State :=
  let r := station s z
  if stationPresent s z && r.closeOrder then
    match r.shutter with
    | .open => if r.crossing.isNone && !r.beam then reportReleased z (releaseShutter z s) else s
    | .opening => reportReleased z (releaseShutter z s)
    | .closing | .closed => if (zone s z).released then s else reportReleased z s
  else s

/-- OBSTRUCTED and UNCERTAIN are set on a bin caught in the opening (R14, R130). -/
def markCaught (b : Nat) (s : State) : State := markObstructed b (markUncertain b s)

/-- The forced close order (R130); with the output already released it has no effect. -/
def forceClose (z : Station) (s : State) : State :=
  let r := station s z
  if r.holdOpen then
    let s1 := match r.crossing with
      | none => s
      | some x => holdBinVisit .fire x.bin (markCaught x.bin (endCrossing z (sendPanel z (.transfer .halt) s)))
    let s2 := match r.beam, r.openingBin with
      | true, some b => markCaught b s1
      | _, _ => s1
    let s3 := reportReleased z (releaseShutter z s2)
    stationAttention z (modStation z (fun r => { r with forced := true }) s3)
  else s

/-- The reopen order (R131 Table 6). -/
def reopenOrder (z : Station) (s : State) : State :=
  let s1 := modStation z (fun r => { r with closeOrder := false }) s
  let r := station s z
  match r.shutter with
  | .open => reportReopen z .open s1
  | .opening => modStation z (fun r => { r with reopenOrdered := true }) s1
  | .closing | .closed =>
    if r.reopenFault then reportReopen z .reopenFault s1
    else modStation z (fun r => { r with reopenOrdered := true }) (energiseShutter z s1)

/-- The station leaves OUT: its out causes become empty and the STATION_OUT reasons of its visits are lifted (R132). -/
def leaveOut (z : Station) (s : State) : State :=
  let s1 := modStation z (fun r => { r with jammed := false, reopenFault := false }) s
  liftHoldWhere .stationOut (fun _ v => ofZone s z v) s1

/-- SHUTTER_FAULT and the STATION attention bit (R128). -/
def shutterFault (z : Station) (s : State) : State :=
  stationAttention z (modStation z (fun r => { r with shutterFault := true }) s)

/-- The shutter reaches OPEN: the travel answers the reopen order and Reopen Station (R128, R131, R132). -/
def shutterOpens (z : Station) (s : State) : State :=
  let r := station s z
  let s1 := modStation z (fun r => { r with
    shutter := .open, travelTimer := none, reopenOrdered := false, reopenCommand := false }) s
  let s2 := if r.reopenOrdered then reportReopen z .open s1 else s1
  if r.reopenCommand then stationAttention z (leaveOut z s2) else s2

/-- The open limit is asserted (R128). DESIGN CHOICE (log entry 32): one that is taken after the travel time ran out in OPENING
finds the shutter CLOSED and sets SHUTTER_FAULT like any other there; what R128 has it ignored for is the end of the travel. -/
def takeOpenAsserted (z : Station) (s : State) : State :=
  match (station s z).shutter with
  | .opening => shutterOpens z s
  | .open => s
  | .closing | .closed => shutterFault z s

/-- The open limit is released (R128). -/
def takeOpenReleased (z : Station) (s : State) : State :=
  if (station s z).shutter = .open then shutterFault z s else s

/-- The closed limit is asserted (R128). -/
def takeClosedAsserted (z : Station) (s : State) : State :=
  match (station s z).shutter with
  | .closing => modStation z (fun r => { r with shutter := .closed, travelTimer := none }) s
  | .closed => s
  | .open | .opening => shutterFault z s

/-- The travel towards OPEN has failed (R131, R132): the output is released and the shutter CLOSED; after Reopen Station the
out causes become REOPEN_FAULT alone, otherwise it is added to them and the station's visits are held. -/
def reopenFails (z : Station) (s : State) : State :=
  let r := station s z
  let s1 := modStation z (fun r => { r with
    holdOpen := false, shutter := .closed, travelTimer := none, reopenOrdered := false, reopenCommand := false,
    reopenFault := true, jammed := r.jammed && !r.reopenCommand }) s
  let s2 := stationAttention z (holdOut z s1)
  if r.reopenOrdered then reportReopen z .reopenFault s2 else s2

/-- The travel timer expires (R128). -/
def takeTravelExpiry (z : Station) (s : State) : State :=
  match (station s z).shutter with
  | .closing => shutterFault z (modStation z (fun r => { r with shutter := .closed, travelTimer := none }) s)
  | .opening => reopenFails z s
  | .open | .closed => s

/-- RESET of a crossing is lifted at the first moment the shutter is OPEN and the station not OUT (R45, R138). -/
def liftCrossingResets (z : Station) (s : State) : State :=
  if stationOpen s z then
    liftHoldWhere .reset (fun _ v => ofZone s z v && (v.state == .presenting || v.state == .withdrawing)) s
  else s

/-! ### Line Test (R136) -/

/-- What the test sees of the beam and the limits at a moment of its window. The limits count while the shutter is still in
the state it had at the start. -/
def LineTestRec.seen (t : LineTestRec) (r : StationRec) : LineTestRec :=
  let still := r.shutter == t.shutterStart
  { t with
    beamWhole := t.beamWhole && r.beam
    bothLimits := t.bothLimits || (still && r.openLimit && r.closedLimit)
    noLimit := t.noLimit || (still && !r.openLimit && !r.closedLimit) }

/-- A running Line Test watches the sensors of its station. -/
def watchSensors (z : Station) (s : State) : State :=
  modStation z (fun r => { r with lineTest := r.lineTest.map (·.seen r) }) s

end Sys2Proof.Machine
end

