-- ==== Sys2Proof/Machine/Zones.lean ====
section
/-! DEFINITION. What a Zone Controller does: the conditioned inputs, the zone levels, shutdown, sealing and recovery (R139 to
R156); and `settleZone`, which carries out what an event makes possible in a zone. -/

namespace Sys2Proof.Machine

/-! ### Inputs and levels (R139, R140) -/

/-- ALERT_z. -/
def alertInput (z : Station) : FireInput := ⟨z.val, by have := z.isLt; omega⟩

/-- FIRE_z. -/
def fireInput (z : Station) : FireInput := ⟨4 + z.val, by have := z.isLt; omega⟩

/-- FIRE_ALL. -/
def fireAllInput : FireInput := 8

/-- PANEL_CLEAR. -/
def panelClearInput : FireInput := 9

/-- The present level of an input: the pin level read through its polarity bit, a bit set making the low level the asserted
one (R139). -/
def presentLevel (s : State) (i : FireInput) : Bool :=
  (conditioner s i).pinHigh != (s.params.get 33).value.getLsbD i.val

/-- The deglitch time of an input (section 8.1 Table 1). -/
def deglitchTime (s : State) (i : FireInput) : Nat :=
  if i.val < 4 then param s 34 else if i.val < 9 then param s 35 else param s 36

/-- The conditioner after its present level may have changed (R139): a level that differs from the taken one starts a stopped
window, and one that equals it stops a running window. -/
def reconcile (i : FireInput) (s : State) : State :=
  let c := conditioner s i
  if presentLevel s i = c.taken then setConditioner i { c with window := none } s
  else if c.window.isNone then setConditioner i { c with window := some (deglitchTime s i) } s
  else s

/-- Every conditioner after the polarity mask has changed, or on leaving a reset (R139, R154, R155). -/
def reconcileAll (s : State) : State := inputList.foldl (fun t i => reconcile i t) s

/-- The taken level of an input. -/
def takenLevel (s : State) (i : FireInput) : Bool := (conditioner s i).taken

/-- The zone's fire level (R140 Table 2). -/
def fireLevel (s : State) (z : Station) : Bool :=
  takenLevel s (fireInput z) || takenLevel s fireAllInput || (zone s z).injectFire

/-- The zone's alert level (R140 Table 2). -/
def alertLevel (s : State) (z : Station) : Bool := takenLevel s (alertInput z) || (zone s z).injectAlert

/-- The zone's panel clear level (R140 Table 2). -/
def clearLevel (s : State) (z : Station) : Bool := takenLevel s panelClearInput || (zone s z).injectClear

/-! ### Cranes of a zone (R146, R150) -/

/-- The aisles of a zone, the lower first. -/
def zoneAisles (z : Station) : List Aisle := [aisle0 z, aisle1 z]

/-- States in which a crane is settled for its zone (R146). -/
def CraneState.isSettled : CraneState → Bool
  | .parked | .faulted | .offline => true
  | .homing | .ready | .resting | .waking | .moving | .retryWait | .parking => false

/-- The crane's settled mark. -/
def settledMark (s : State) (a : Aisle) : Bool :=
  if a.val % 2 = 0 then (zone s (zoneOf a)).settled0 else (zone s (zoneOf a)).settled1

def setSettledMark (a : Aisle) (x : Bool) (s : State) : State :=
  let r := zone s (zoneOf a)
  setZone (zoneOf a) (if a.val % 2 = 0 then { r with settled0 := x } else { r with settled1 := x }) s

def setRecoveredMark (a : Aisle) (s : State) : State :=
  let r := zone s (zoneOf a)
  setZone (zoneOf a) (if a.val % 2 = 0 then { r with recovered0 := true } else { r with recovered1 := true }) s

/-- FIRE for the visits of a crane that becomes settled under a park order (R31, R146): that of the leg the order dropped,
that of the leg a halt kept, and that of the carried bin. -/
def holdSettled (c : CraneRec) (s : State) : State :=
  let s1 := match c.dropped with
    | some l => addHold .fire l.visit s
    | none => s
  let s2 := match c.leg with
    | some l => if l.cancelled then s1 else addHold .fire l.visit s1
    | none => s1
  match c.carried with
  | some b => holdBinVisit .fire b s2
  | none => s2

/-- The settled mark of a present crane follows its state while the zone is SHUTDOWN (R146). DESIGN CHOICE (log entry 40): a crane
whose aisle a Set Parameter marks present while the zone is SHUTDOWN is OFFLINE already, and is settled at that event, with FIRE
for the visit of a bin it carries, though no park order stands. -/
def settleCrane (a : Aisle) (s : State) : State :=
  let c := crane s a
  if !aislePresent s a then s
  else if !c.state.isSettled then setSettledMark a false s
  else if settledMark s a then s
  else
    let s1 := holdSettled c (setSettledMark a true s)
    setCrane a { crane s1 a with dropped := none } s1

/-- The recovered mark of a present crane that has reached READY in RECOVERY (R150). -/
def recoverCrane (a : Aisle) (s : State) : State :=
  if aislePresent s a && (crane s a).state == .ready then setRecoveredMark a s else s

/-- A crane of an absent aisle counts as settled (R146). -/
def countsSettled (s : State) (a : Aisle) : Bool := !aislePresent s a || settledMark s a

/-- A crane that is FAULTED or OFFLINE, or whose aisle is absent, counts as recovered (R150). -/
def countsRecovered (s : State) (a : Aisle) : Bool :=
  !aislePresent s a || recoveredMark s a || (crane s a).state == .faulted || (crane s a).state == .offline

/-! ### Transitions (R142 to R150) -/

/-- A SEALED zone with panel-clear seen set enters AWAIT_RESTORE (R148). -/
def tryAwait (z : Station) (s : State) : State :=
  if (zone s z).state = .sealed ∧ (zone s z).panelClearSeen = true then enterZoneState z .awaitRestore s else s

/-- The entry to SEALED (R147); a station that is not present counts as released (R143). -/
def trySeal (z : Station) (s : State) : State :=
  if ((zone s z).released || !stationPresent s z) && (zoneAisles z).all (countsSettled s) then
    tryAwait z (enterZoneState z .sealed s)
  else s

/-- The zone leaves RECOVERY when the station has reported and every crane is recovered (R150): it enters CLEAR or ALERT and
its visits lose their FIRE reasons. A station that is not present counts as having reported OPEN; DESIGN CHOICE (log entry 37):
that is counted here by the station mask and not written into the reopen report. -/
def tryReopenZone (z : Station) (s : State) : State :=
  if ((zone s z).reopenReport != .none || !stationPresent s z) && (zoneAisles z).all (countsRecovered s) then
    liftHoldWhere .fire (fun _ v => ofZone s z v)
      (enterZoneState z (if alertLevel s z then .alert else .clear) s)
  else s

/-- What the states of a zone's cranes and station let the zone do (R146 to R150). -/
def zoneProgress (z : Station) (s : State) : State :=
  match (zone s z).state with
  | .shutdown => trySeal z ((zoneAisles z).foldl (fun t a => settleCrane a t) s)
  | .recovery => tryReopenZone z ((zoneAisles z).foldl (fun t a => recoverCrane a t) s)
  | .sealed => tryAwait z s
  | .clear | .alert | .awaitRestore => s

/-- The zone record at an entry to SHUTDOWN (R143): the cause, the marks and the hold timer. A station that is not present
counts as released at once; DEDUCED (log entry 37): station released is yes for it from the entry on, and no hold timer runs. -/
def shutdownRec (s : State) (z : Station) : ZoneRec :=
  { zone s z with
    panelClearSeen := false
    causeFire := takenLevel s (fireInput z)
    causeFireAll := takenLevel s fireAllInput
    causeDrill := (zone s z).injectFire
    holdTimer := if stationPresent s z then some (1000 * param s 37) else none
    released := !stationPresent s z
    settled0 := false
    settled1 := false
    recovered0 := false
    recovered1 := false }

/-- Park orders to the present cranes of a zone (R143). -/
def parkCranes (z : Station) (s : State) : State :=
  (zoneAisles z).foldl (fun t a => if aislePresent t a then parkCrane a t else t) s

/-- The entry to SHUTDOWN (R143). What the orders then make possible is carried out by `settleZone`. -/
def enterShutdown (z : Station) (s : State) : State :=
  let s1 := enterZoneState z .shutdown (setZone z (shutdownRec s z) s)
  let s2 := if stationPresent s z then modStation z (fun r => { r with closeOrder := true }) s1 else s1
  parkCranes z (sendPanel z .locked s2)

/-- HOME orders to the present cranes of IN_SERVICE aisles of a zone, given only in SERVICE (R112, R150, R153). -/
def homeCranes (z : Station) (s : State) : State :=
  (zoneAisles z).foldl
    (fun t a => if service t a = .inService ∧ t.mode = .service then homeOrder a t else t) s

/-- The park order of a PARKED or OFFLINE crane of the zone ceases to stand (R150). -/
def liftParkOrders (z : Station) (s : State) : State :=
  (zoneAisles z).foldl
    (fun t a => if (crane t a).state = .parked ∨ (crane t a).state = .offline then
      setCrane a { crane t a with parkOrder := false } t else t) s

/-- The station's and the cranes' part of an entry to RECOVERY, and of its restart after a reset (R150, R155). -/
def orderRecovery (z : Station) (s : State) : State :=
  let s1 := if stationPresent s z then resendTasks z (reopenOrder z s) else s
  homeCranes z (liftParkOrders z s1)

/-- The entry to RECOVERY (R150). DESIGN CHOICE (log entry 37): the station reopen report becomes none and stays so for a
station that is not present, which gives no answer and only counts as having reported OPEN (`tryReopenZone`). -/
def enterRecovery (z : Station) (s : State) : State :=
  let s1 := setZone z { zone s z with
    panelClearSeen := false, reopenReport := .none, recovered0 := false, recovered1 := false } s
  orderRecovery z (enterZoneState z .recovery s1)

/-- The panel-clear seen mark is cleared (R148). -/
def clearSeen (z : Station) (s : State) : State := setZone z { zone s z with panelClearSeen := false } s

/-- FIRE taken (R143, R148). -/
def fireTaken (z : Station) (s : State) : State :=
  match (zone s z).state with
  | .clear | .alert | .recovery => enterShutdown z s
  | .shutdown | .sealed => clearSeen z s
  | .awaitRestore => enterZoneState z .sealed (clearSeen z s)

/-- Panel clear taken with the fire level released, in SHUTDOWN or SEALED (R148). -/
def clearTaken (z : Station) (s : State) : State :=
  match (zone s z).state with
  | .shutdown | .sealed => if fireLevel s z then s else setZone z { zone s z with panelClearSeen := true } s
  | .clear | .alert | .awaitRestore | .recovery => s

/-- The alert level has changed (R142). -/
def alertChanged (z : Station) (s : State) : State :=
  match (zone s z).state, alertLevel s z with
  | .clear, true => enterZoneState z .alert s
  | .alert, false => enterZoneState z .clear s
  | _, _ => s

/-- A zone acts on the changes of its levels that an event made (R140). -/
def actOnLevels (before : State) (z : Station) (s : State) : State :=
  let s1 := if fireLevel s z && !fireLevel before z then fireTaken z s else s
  let s2 := if clearLevel s z && !clearLevel before z then clearTaken z s1 else s1
  if alertLevel s z != alertLevel before z then alertChanged z s2 else s2

/-! ### What an event makes possible -/

/-- Everything an event makes possible in a zone, in this order: a close order that waited is carried out (R129), the zone
passes on (R146 to R150), RESET of crossings is lifted (R138), a crossing starts (R123, R124), freed lane places are granted
(R121) and the choices now due are made (R81). `before` is the state the event found. -/
def settleZone (before : State) (z : Station) (s : State) : State :=
  scheduleZone before z (startCrossings z (liftCrossingResets z (zoneProgress z (carryClose z s))))

/-- The same for the four zones in turn. -/
def settleAll (before : State) (s : State) : State := stationList.foldl (fun t z => settleZone before z t) s

/-- An event of one zone: its own effect and what that makes possible. -/
def eventOf (z : Station) (f : State → State) (s : State) : State := settleZone s z (f s)

/-- An event that reaches every zone. -/
def eventOfAll (f : State → State) (s : State) : State := settleAll s (f s)

end Sys2Proof.Machine
end

