-- ==== Sys2Proof/Machine/Flags.lean ====
section
/-! DEFINITION. The flags the host reads: the status byte, the attention mask and ATTN (R169, R171, R172), and the level bytes
of Read Zone (R152). -/

namespace Sys2Proof.Machine

/-- The attention mask: parameter 39 selects summary bits 0..15, and bits 0..3 of parameter 40 bits 16..19 (R172, R182
Table 1). -/
def attentionMask (s : State) : BitVec 24 :=
  0#4 ++ (s.params.get 40).value.extractLsb' 0 4 ++ (s.params.get 39).value

/-- The attention summary (R171): the bits set, and those that a read-and-clear transaction in progress has captured, which stay
set until its end. -/
def LinkRec.summary (l : LinkRec) : BitVec 24 :=
  match l.reading with
  | some (.attention bits) => l.attention ||| bits
  | some (.reply _) | some (.status _) | none => l.attention

/-- The LATE flag (R169): set, or captured by a read-status transaction in progress, which clears it at its end. -/
def LinkRec.lateFlag (l : LinkRec) : Bool :=
  match l.reading with
  | some (.status late) => l.late || late
  | some (.reply _) | some (.attention _) | none => l.late

/-- ATTN is asserted while a bit is set in the summary and selected in the mask (R172). -/
def attn (s : State) : Bool := s.link.summary &&& attentionMask s != 0

/-- The status byte (R169, R182 Table 1). -/
def statusByte (s : State) : Byte :=
  BitVec.ofBoolListLE
    [s.link.cmdBusy, s.link.replyReady, attn s, s.link.lateFlag, s.mode == .commissioning, s.link.restarted, false, false]

/-- The three bytes of the attention summary, most significant first (R171). -/
def attentionBytes (s : State) : List Byte := bytes 3 s.link.summary.toNat

/-- One byte with a bit for each of ALERT_z, FIRE_z, FIRE_ALL and PANEL_CLEAR (R182 Table 4). -/
def levelByte (z : Station) (f : FireInput → Bool) : List Byte :=
  setByte [f (alertInput z), f (fireInput z), f fireAllInput, f panelClearInput]

/-- The injections of a zone as a set. -/
def injectionByte (r : ZoneRec) : List Byte := setByte [r.injectAlert, r.injectFire, r.injectClear]

/-- The state of a zone's crane; that of an absent aisle is sent as 0xFF. -/
def craneStateByte (s : State) (a : Aisle) : List Byte :=
  optByte (if aislePresent s a then some (crane s a).state.code else none)

/-- Read Zone (R152). -/
def zoneBytes (s : State) (z : Station) : List Byte :=
  let r := zone s z
  byte z.val ++ byte r.state.code ++ levelByte z (takenLevel s) ++ levelByte z (presentLevel s) ++
    levelByte z (fun i => (conditioner s i).window.isSome) ++ injectionByte r ++
    setByte [r.drill, r.panelClearSeen, r.released] ++ setByte [r.causeFire, r.causeFireAll, r.causeDrill] ++
    optTimer 2 r.holdTimer ++ byte r.reopenReport.code ++
    setByte [r.settled0, r.settled1, r.recovered0, r.recovered1] ++ craneStateByte s (aisle0 z) ++
    craneStateByte s (aisle1 z) ++ byte (station s z).isOut.toNat

end Sys2Proof.Machine
end

