-- ==== Sys2Proof/Machine/Link.lean ====
section
/-! DEFINITION. The Link Interface: how a command is taken, examined and answered, and its transactions (R164 to R172). -/

namespace Sys2Proof.Machine

/-- Outcome codes (R166 Table 2). -/
inductive OutcomeCode where
  | done | doneClamped
  | unknownCommand | badLength | badValue | notInService | notInCommissioning | state
  | noSuchBin | binBusy | protected_ | quarantined | slotTaken | noRoom | binEmpty
  | tableFull | alreadyOut | notOut | alreadyReturning | tasksFull | noSuchVisit | noSuchTask
  | zoneClosed | aisleOut | stationOut
  | parity | dayBackward
  deriving DecidableEq, Repr

/-- The byte of an outcome code (R166 Table 2). -/
def OutcomeCode.byte : OutcomeCode → Byte
  | .done => 0x00 | .doneClamped => 0x01
  | .unknownCommand => 0x10 | .badLength => 0x11 | .badValue => 0x12 | .notInService => 0x13
  | .notInCommissioning => 0x14 | .state => 0x15
  | .noSuchBin => 0x20 | .binBusy => 0x21 | .protected_ => 0x22 | .quarantined => 0x23 | .slotTaken => 0x24
  | .noRoom => 0x25 | .binEmpty => 0x26
  | .tableFull => 0x30 | .alreadyOut => 0x31 | .notOut => 0x32 | .alreadyReturning => 0x33 | .tasksFull => 0x34
  | .noSuchVisit => 0x35 | .noSuchTask => 0x36
  | .zoneClosed => 0x40 | .aisleOut => 0x41 | .stationOut => 0x42
  | .parity => 0x50 | .dayBackward => 0x51

/-- What the examination of a command comes to: a refusal, an effect with its reply, or the start of one of the two commands
that take time (R165, R167). -/
inductive Result where
  | refuse (code : OutcomeCode) (data : List Byte)
  | reply (code : OutcomeCode) (data : List Byte) (s : State)
  | wait (s : State)

/-- A check that refuses with an outcome code where it fails (R165 step 5). -/
def refuseIf (bad : Bool) (code : OutcomeCode) (rest : Result) : Result := if bad then .refuse code [] else rest

/-- The command goes on with the record a number names, or is refused. -/
def withSome {α : Type} (o : Option α) (code : OutcomeCode) (rest : α → Result) : Result :=
  match o with
  | none => .refuse code []
  | some x => rest x

/-- The reply DONE with its data. -/
def done (data : List Byte) (s : State) : Result := .reply .done data s

/-- Modes in which a command is accepted (section 10.6 Table 3). -/
inductive Modes where
  | both | service | commissioning
  deriving DecidableEq, Repr

/-- The mode check (R165 step 4). -/
def modeCheck (m : Modes) (s : State) (rest : Result) : Result :=
  match m, s.mode with
  | .service, .commissioning => .refuse .notInService []
  | .commissioning, .service => .refuse .notInCommissioning []
  | _, _ => rest

/-- The command buffer takes the bytes received, of which the 33rd and later are not kept, and CMD_BUSY is set (R165). -/
def loadCommand (message : List Byte) (s : State) : State :=
  { s with link := { s.link with command := message.take Config.messageLimit, cmdBusy := true } }

/-- The reply is written, REPLY_READY is set, CMD_BUSY is cleared and the command buffer is empty (R165). -/
def writeReply (code : OutcomeCode) (data : List Byte) (s : State) : State :=
  { s with link := { s.link with
      command := [], reply := code.byte :: BitVec.ofNat 8 data.length :: data, cmdBusy := false, replyReady := true } }

/-- A command write that is discarded (R165). -/
def setLate (s : State) : State := { s with link := { s.link with late := true } }

/-- A command write is taken only with CMD_BUSY and REPLY_READY clear (R165). -/
def linkBusy (s : State) : Bool := s.link.cmdBusy || s.link.replyReady

/-- The answer to a command is made. -/
def answer (before : State) : Result → State
  | .refuse code data => writeReply code data before
  | .reply code data s => writeReply code data s
  | .wait s => s

/-- The framing of a command message is wrong: fewer than 2 bytes or more than 32 (R165 step 1). -/
def badFraming (message : List Byte) : Bool :=
  decide (message.length < 2) || decide (Config.messageLimit < message.length)

/-- The length byte does not equal the parameter length, or the bytes received are not the length + 2 (R165 step 3). `body`
is the message after its command code. -/
def badLength (len : Nat) (body : List Byte) : Bool := byteAt body 0 != len || body.length != len + 1

/-- A command write (R165). `code` is the command code, `len` its parameter length, `body` the bytes after the code and
`run` the command's own checks and effect on its parameters. -/
def takeCommand (code : Byte) (len : Nat) (modes : Modes) (run : List Byte → State → Result) (body : List Byte)
    (s : State) : State :=
  if inReset s then s
  else if linkBusy s then setLate s
  else
    let s1 := loadCommand (code :: body) s
    answer s1 (refuseIf (badFraming (code :: body) || badLength len body) .badLength
      (modeCheck modes s1 (run body.tail s1)))

/-! ### Transactions (R164, R168, R169, R171) -/

/-- The bytes sent in a read-reply transaction of `n` bytes after the access code (R168). -/
def replySent (l : LinkRec) (n : Nat) : List Byte :=
  if l.replyReady then (l.reply ++ List.replicate n 0x00).take n else List.replicate n 0xFF

/-- A read-reply transaction ends (R168). -/
def readReplyEnd (n : Nat) (s : State) : State :=
  let l := s.link
  if l.replyReady then { s with link := { l with reply := [], replyReady := false, hostOut := replySent l n } }
  else { s with link := { l with hostOut := replySent l n } }

/-- A whole read-status transaction (R169): the byte is sent and LATE is cleared. -/
def readStatusEnd (s : State) : State :=
  { s with link := { s.link with hostOut := [statusByte s], late := false } }

/-- A whole read-and-clear transaction (R171): the summary is sent and exactly the bits sent are cleared. -/
def readAttentionEnd (s : State) : State :=
  { s with link := { s.link with
      hostOut := attentionBytes s, attention := s.link.attention &&& ~~~ s.link.attention } }

/-- The transaction in progress is set. -/
def setReading (x : Option Reading) (s : State) : State := { s with link := { s.link with reading := x } }

/-- The access code of a read transaction is complete (R164). One host runs one transaction at a time (R169), so none is in
progress; with one in progress the row is no event and changes nothing (log entry 7). -/
def capture (f : State → State) (s : State) : State := if s.link.reading.isSome then s else f s

/-- A read-reply transaction captures the message, if REPLY_READY is set (R164, R168). -/
def captureReply (s : State) : State :=
  setReading (some (.reply (if s.link.replyReady then some s.link.reply else none))) s

/-- A read-status transaction captures the status byte (R169). -/
def captureStatus (s : State) : State :=
  { s with link := { s.link with hostOut := [statusByte s], late := false, reading := some (.status s.link.late) } }

/-- A read-and-clear transaction captures the summary (R171). -/
def captureAttention (s : State) : State :=
  { s with link := { s.link with
      hostOut := attentionBytes s, attention := 0, reading := some (.attention s.link.attention) } }

/-- The transaction in progress sends a reply message. -/
def sendsReply (l : LinkRec) : Bool :=
  match l.reading with
  | some (.reply (some _)) => true
  | some (.reply none) | some (.status _) | some (.attention _) | none => false

/-- The end of a read-reply transaction of `n` bytes (R168): the message captured was sent, and the reply buffer is emptied; with
none captured nothing changes. -/
def finishReply (n : Nat) (s : State) : State :=
  match s.link.reading with
  | some (.reply (some m)) =>
    { s with link := { s.link with
        reply := [], replyReady := false, reading := none, hostOut := (m ++ List.replicate n 0x00).take n } }
  | some (.reply none) => { s with link := { s.link with reading := none, hostOut := List.replicate n 0xFF } }
  | some (.status _) | some (.attention _) | none => s

/-- The end of a read-status transaction (R169): LATE as it was captured is cleared; a write discarded since leaves it set. -/
def finishStatus (s : State) : State :=
  match s.link.reading with
  | some (.status _) => setReading none s
  | some (.reply _) | some (.attention _) | none => s

/-- The end of a read-and-clear transaction (R171): exactly the bits that were sent as set are cleared; a bit set since, or set
again, stays set. -/
def finishAttention (s : State) : State :=
  match s.link.reading with
  | some (.attention _) => setReading none s
  | some (.reply _) | some (.status _) | none => s

/-- A transaction of `n` bytes whose first byte is none of the four access codes, or that is released before it is complete
(R164): 0x00 is sent for every byte, and no state changes but the model's own `hostOut`. -/
def ignoredTransaction (n : Nat) (s : State) : State :=
  { s with link := { s.link with hostOut := List.replicate n 0x00 } }

end Sys2Proof.Machine
end

