-- ==== Sys2Proof/Machine/Withdrawals.lean ====
section
/-! DEFINITION. The Withdrawal Table (R46 to R52): home bucket, lookup, insertion, and deletion by backward shift. -/

namespace Sys2Proof.Machine

/-- The home bucket of a key (R48): x is the upper 24 bits XOR the lower 24 bits, and the bucket is x mod 4,096 XOR
x div 4,096. -/
def homeBucket (key : ItemKey) : Nat :=
  let x : BitVec 24 := key.extractLsb' 24 24 ^^^ key.extractLsb' 0 24
  (x.extractLsb' 0 12 ^^^ x.extractLsb' 12 12).toNat

/-- The bucket after a bucket, wrapping from 4,095 to 0 (R49). -/
def nextBucket (i : Nat) : Nat := if i + 1 < Config.bucketCount then i + 1 else 0

/-- The end of a lookup (R49): the bucket where it stops, whether that holds the key's record, and the probe count. -/
structure Lookup where
  bucket : Nat
  found  : Bool
  probes : Nat
  deriving DecidableEq, Repr

/-- The probe path from a bucket on (R49); `probes` counts the buckets examined before it. -/
def probe (t : Table WithdrawalRec) (key : ItemKey) : Nat → Nat → Nat → Lookup
  | 0, i, probes => ⟨i, false, probes⟩
  | fuel + 1, i, probes =>
    match tableGet t i with
    | none => ⟨i, false, probes + 1⟩
    | some r => if r.key = key then ⟨i, true, probes + 1⟩ else probe t key fuel (nextBucket i) (probes + 1)

/-- The lookup of a key (R49). -/
def lookup (t : Table WithdrawalRec) (key : ItemKey) : Lookup := probe t key Config.bucketCount (homeBucket key) 0

/-- The record of a key, if it has one. -/
def withdrawal (s : State) (key : ItemKey) : Option WithdrawalRec :=
  let l := lookup s.withdrawals key
  if l.found then tableGet s.withdrawals l.bucket else none

/-- `h` lies cyclically in (i, j] (R51). -/
def cyclicIn (i h j : Nat) : Bool :=
  if i < j then decide (i < h) && decide (h ≤ j) else decide (i < h) || decide (h ≤ j)

/-- The walk of a deletion (R51): bucket `i` is empty and the records from bucket `j` on are judged. -/
def closeGap : Nat → Nat → Nat → Table WithdrawalRec → Table WithdrawalRec
  | 0, _, _, t => t
  | fuel + 1, i, j, t =>
    match tableGet t j with
    | none => t
    | some r =>
      if cyclicIn i (homeBucket r.key) j then closeGap fuel i (nextBucket j) t
      else closeGap fuel j (nextBucket j) (tableErase (tablePut t i r) j)

/-- The table without the record of a bucket, its gap closed (R51). -/
def removeBucket (t : Table WithdrawalRec) (i : Nat) : Table WithdrawalRec :=
  closeGap Config.bucketCount i (nextBucket i) (tableErase t i)

/-- A deletion is reported to the Scan Engine: DISTURBED is set while channel Q is RUNNING or PAUSED on the WITHDRAWAL table
(R163). -/
def informScan (s : State) : State :=
  let q := s.chanQ
  if q.table = .withdrawal ∧ (q.state = .running ∨ q.state = .paused) then
    { s with chanQ := { q with disturbed := true } }
  else s

/-- The record of a key is deleted, the count of records falls by 1 and the Scan Engine is informed (R51, R52). -/
def deleteRecord (key : ItemKey) (s : State) : State :=
  let l := lookup s.withdrawals key
  if l.found then
    informScan { s with withdrawals := removeBucket s.withdrawals l.bucket, recordCount := s.recordCount - 1 }
  else s

/-- A new record is written into the first empty bucket of its key's probe path, and the count of records rises by 1 (R50,
R52). A key that has a record, which no confirmation meets (R50), leaves the table as it is. -/
def insertRecord (r : WithdrawalRec) (s : State) : State :=
  let l := lookup s.withdrawals r.key
  if l.found then s
  else { s with withdrawals := tablePut s.withdrawals l.bucket r, recordCount := s.recordCount + 1 }

/-- The record of a key takes a state and a return visit (R47). -/
def setRecordState (key : ItemKey) (st : WithdrawalState) (v : Option Nat) (s : State) : State :=
  let l := lookup s.withdrawals key
  if l.found then
    match tableGet s.withdrawals l.bucket with
    | some r => { s with withdrawals := tablePut s.withdrawals l.bucket { r with state := st, returnVisit := v } }
    | none => s
  else s

/-- The occupancy: withdrawal records plus pending LEND tasks (R52). -/
def occupancy (s : State) : Nat := s.recordCount + s.pendingLends

/-- A pending task of an open visit with its place. -/
structure PendingTask where
  visit : Nat
  index : Nat
  kind  : TaskKind
  deriving DecidableEq, Repr

/-- The first PENDING task of a list that carries a key, with its index counted from `i`. -/
def findPending (key : ItemKey) : Nat → List TaskRec → Option (Nat × TaskRec)
  | _, [] => none
  | i, t :: ts => if t.state = .pending ∧ t.key = some key then some (i, t) else findPending key (i + 1) ts

/-- The pending task of any open visit that carries a key (R54, R60). -/
def findPendingTask (key : ItemKey) : Table VisitRec → Option PendingTask
  | [] => none
  | (n, v) :: rest =>
    match (if isOpen v then findPending key 0 v.tasks else none) with
    | some (i, t) => some ⟨n, i, t.kind⟩
    | none => findPendingTask key rest

/-- The key is in the table or in a pending task (R54, R68, R70). -/
def keyTaken (s : State) (key : ItemKey) : Bool :=
  (lookup s.withdrawals key).found || (findPendingTask key s.visits).isSome

end Sys2Proof.Machine
end

