-- ==== Sys2Proof/Machine/Tasks.lean ====
section
/-! DEFINITION. Visits and their tasks: creation, joining, confirmation, settlement and cancellation (R24, R34 to R43, R56 to
R59, R65 to R69, R75). -/

namespace Sys2Proof.Machine

/-! ### Priority (R36) -/

/-- The highest priority among the PENDING tasks, or 0. -/
def pendingPriority (ts : List TaskRec) : Nat :=
  ts.foldl (fun p t => if t.state = .pending then max p t.priority else p) 0

/-- A PENDING FETCH task carries the urgent flag. -/
def pendingUrgent (ts : List TaskRec) : Bool :=
  ts.any fun t => t.state == .pending && t.kind == .fetch && t.urgent

/-- The visit with a new task list, its priority and urgent mark brought up to date (R36). -/
def VisitRec.withTasks (v : VisitRec) (ts : List TaskRec) : VisitRec :=
  { v with tasks := ts, priority := pendingPriority ts, urgent := pendingUrgent ts }

/-- At least one task is PENDING. -/
def hasPending (v : VisitRec) : Bool := v.tasks.any (·.state == .pending)

/-! ### Creation and joining (R24, R37) -/

/-- A visit as its creation leaves it (R24). -/
def newVisit (s : State) (kind : VisitKind) (b : Nat) (st : VisitState) (target : Option Slot) : VisitRec where
  kind := kind
  bin := b
  state := st
  created := s.time.ms
  priority := 0
  urgent := false
  tasks := []
  hold := .none
  reservation := false
  target := target
  problems := ⟨false, false, false⟩
  outcome := none

/-- A visit is entered under a free number and the bin's open visit names it (R1, R22). -/
def openVisit (n : Nat) (v : VisitRec) (s : State) : State :=
  modBin v.bin (fun r => { r with openVisit := some n }) (setVisit n v s)

/-- Why the visit rules of R37 turn a task for a bin away. -/
inductive VisitRefusal where
  | tableFull | binBusy | tasksFull
  deriving DecidableEq, Repr

/-- The visit rules of R37, steps 1 to 4. -/
def visitRule (s : State) (r : BinRec) : Option VisitRefusal :=
  match r.openVisit.bind (visit s) with
  | none => if (freeVisit s).isNone then some .tableFull else none
  | some v =>
    if v.kind = .relocation then some .binBusy
    else if v.state = .withdrawing ∨ v.state = .atOutbound ∨ v.state = .inbound then some .binBusy
    else if v.tasks.length ≥ Config.taskLimit then some .tasksFull
    else none

/-- Where a task has been placed. -/
structure Placed where
  state : State
  visit : Nat
  index : Nat

/-- A task of a command that was taken at `taken` ms is placed on a bin that passes the visit rules (R37 steps 1 and 5): it
creates a DELIVERY visit with that creation time (R24), or joins the open visit at the end of its list and is shown at once if
that visit is AT_FACE. -/
def placeTaskAt (taken : Nat) (b : Nat) (r : BinRec) (t : TaskRec) (s : State) : Placed :=
  match r.openVisit with
  | some n =>
    match visit s n with
    | some v =>
      let s1 := setVisit n (v.withTasks (v.tasks ++ [t])) s
      ⟨if v.state = .atFace then showTask (zoneOf r.home.aisle) v.tasks.length t s1 else s1, n, v.tasks.length⟩
    | none => ⟨s, n, 0⟩
  | none =>
    let n := (freeVisit s).getD 0
    ⟨openVisit n ({ newVisit s .delivery b .queued none with created := taken }.withTasks [t]) s, n, 0⟩

/-- A task of the command that is taken now is placed (R24, R37). -/
def placeTask (b : Nat) (r : BinRec) (t : TaskRec) (s : State) : Placed := placeTaskAt s.time.ms b r t s

/-- A task as its command creates it (R34). -/
def newTask (kind : TaskKind) (key : Option ItemKey) (priority : Nat) (urgent : Bool) (due : Option Nat) : TaskRec :=
  ⟨kind, key, priority, urgent, due, .pending, false⟩

/-! ### Confirmation at the face (R57, R66, R75) -/

/-- LEND confirmed (R57): the record is inserted OUT and the item passes from fill and lend holds to the withdrawn count. -/
def confirmLend (b : Nat) (t : TaskRec) (key : ItemKey) (s : State) : State :=
  let s1 := insertRecord ⟨key, b, s.day, t.dueDay.getD s.day, .out, none⟩ s
  let s2 := { s1 with pendingLends := s1.pendingLends - 1 }
  modBin b (fun r => { r with fill := r.fill - 1, withdrawn := r.withdrawn + 1, lendHolds := r.lendHolds - 1 }) s2

/-- RETURN confirmed (R66): the item passes back from the withdrawn count to fill and its record is deleted. -/
def confirmReturn (b : Nat) (key : ItemKey) (s : State) : State :=
  deleteRecord key (modBin b (fun r => { r with fill := r.fill + 1, withdrawn := r.withdrawn - 1 }) s)

/-- REFILE confirmed (R75). -/
def confirmRefile (b : Nat) (s : State) : State :=
  modBin b (fun r => { r with fill := r.fill + 1, refileHolds := r.refileHolds - 1 }) s

/-- The effects of a confirmed task by its kind (R39). -/
def confirmEffects (b : Nat) (t : TaskRec) (key : ItemKey) (s : State) : State :=
  match t.kind with
  | .lend => confirmLend b t key s
  | .return => confirmReturn b key s
  | .refile => confirmRefile b s
  | .fetch => s

/-! ### Tasks that end unsettled or cancelled (R35, R40, R58, R59, R67, R75) -/

/-- What a task's end without confirmation gives back: the lend hold, the refile hold, or the record's OUT state (R35). -/
def releaseTask (b : Nat) (t : TaskRec) (s : State) : State :=
  match t.kind with
  | .lend =>
    modBin b (fun r => { r with lendHolds := r.lendHolds - 1 }) { s with pendingLends := s.pendingLends - 1 }
  | .return =>
    match t.key with
    | some k => setRecordState k .out none s
    | none => s
  | .refile => modBin b (fun r => { r with refileHolds := r.refileHolds - 1 }) s
  | .fetch => s

/-- A PENDING task after the panel's DONE (R40 Table 8); a LEND takes the FILL_MISMATCH note (R58). -/
def settledTask (t : TaskRec) : TaskRec :=
  if t.state = .pending then
    match t.kind with
    | .lend => { t with state := .notFound, fillMismatch := true }
    | .return | .refile => { t with state := .notPlaced }
    | .fetch => { t with state := .seen }
  else t

/-- A PENDING task after a cancellation (R35). -/
def cancelledTask (t : TaskRec) : TaskRec := if t.state = .pending then { t with state := .cancelled } else t

/-- The releases of the PENDING tasks of a list, in list order. -/
def releasePending (b : Nat) : List TaskRec → State → State
  | [], s => s
  | t :: ts, s => releasePending b ts (if t.state = .pending then releaseTask b t s else s)

/-- The panel's DONE settles every PENDING task, and the visit enters WITHDRAWING (R40). -/
def settleTasks (n : Nat) (v : VisitRec) (s : State) : State :=
  let s1 := releasePending v.bin v.tasks s
  setVisit n { v.withTasks (v.tasks.map settledTask) with state := .withdrawing } s1

/-- Every PENDING task of a visit becomes CANCELLED (R43). -/
def cancelTasks (n : Nat) (v : VisitRec) (s : State) : State :=
  setVisit n (v.withTasks (v.tasks.map cancelledTask)) (releasePending v.bin v.tasks s)

/-- A visit whose bin is in its home slot ends CANCELLED (R43, R87): a relocation's target becomes EMPTY (R16) and no further
segment of its leg is issued. -/
def endCancelled (n : Nat) (v : VisitRec) (s : State) : State :=
  let s1 := endVisit n .cancelled .cancelled s
  let s2 := match v.kind, v.target with
    | .relocation, some sl => setSlot sl .empty s1
    | _, _ => s1
  match binAisle s v.bin with
  | some a => cancelLeg a n s2
  | none => s2

end Sys2Proof.Machine
end

