-- ==== Sys2Proof/Machine/Panel.lean ====
section
/-! DEFINITION. The panel link of a station: messages taken, discarded and answered (R39 to R41, R76, R133 to R135), and the
end of a Line Test (R136). -/

namespace Sys2Proof.Machine

/-- A message reaches the panel link of a station (R119, R135, R136). A station that is not present takes nothing; an inhibited
link answers LOCKED; a message received during a Line Test is answered at its end; otherwise `act` is made. -/
def onPanel (z : Station) (act : State → State) (s : State) : State :=
  if !stationPresent s z then s
  else if zoneClosed s z then sendPanel z .locked s
  else
    match (station s z).lineTest with
    | some t => modStation z (fun r => { r with lineTest := some { t with messages := t.messages + 1 } }) s
    | none => act s

/-- A message is discarded and answered with REPEAT (R133). The third in a row sets PANEL_LINK. -/
def discardMessage (z : Station) (s : State) : State :=
  let s1 := sendPanel z .repeat s
  if (station s z).discards + 1 ≥ 3 then
    stationAttention z (modStation z (fun r => { r with discards := 0, panelLinkFlag := true }) s1)
  else modStation z (fun r => { r with discards := r.discards + 1 }) s1

/-- A message taken whole returns the discard count to 0 (R133) and acts. -/
def takeMessage (z : Station) (act : State → State) (s : State) : State :=
  act (modStation z (fun r => { r with discards := 0 }) s)

/-- The AT_FACE visit at a station's face with its number, if there is one (R134). -/
def faceVisit (s : State) (z : Station) : Option (Nat × VisitRec) :=
  match (station s z).face with
  | none => none
  | some f => ((visit s f.visit).filter (fun v => v.state == .atFace)).map (fun v => (f.visit, v))

/-- An unexpected scan (R76). -/
def unexpectedScan (z : Station) (key : ItemKey) (s : State) : State :=
  stationAttention z (modStation z (fun r => { r with scanUnexpected := true, lastKey := some key }) s)

/-- A task of a list becomes CONFIRMED (R39). -/
def confirmAt (ts : List TaskRec) (i : Nat) (t : TaskRec) : List TaskRec := ts.set i { t with state := .confirmed }

/-- The PENDING task that a scan matches is confirmed, and the panel is sent the tasks that remain (R39). -/
def confirmTask (z : Station) (n : Nat) (v : VisitRec) (i : Nat) (t : TaskRec) (key : ItemKey) (s : State) : State :=
  resendTasks z (confirmEffects v.bin t key (setVisit n (v.withTasks (confirmAt v.tasks i t)) s))

/-- ITEM_SCAN taken (R39, R76, R134). -/
def takeScan (z : Station) (key : ItemKey) (s : State) : State :=
  match faceVisit s z with
  | none => sendPanel z .clear (unexpectedScan z key s)
  | some (n, v) =>
    match findPending key 0 v.tasks with
    | some (i, t) => confirmTask z n v i t key s
    | none => unexpectedScan z key s

/-- DONE taken (R40, R134): the tasks are settled and the face timer stops. -/
def takePanelDone (z : Station) (s : State) : State :=
  match faceVisit s z with
  | none => sendPanel z .clear s
  | some (n, v) =>
    sendPanel z .clear (modStation z (fun r => { r with faceTimer := none }) (settleTasks n v s))

/-- KEEP taken (R127, R134). -/
def takeKeep (z : Station) (s : State) : State :=
  match faceVisit s z with
  | none => sendPanel z .clear s
  | some _ => startFaceTimer z s

/-- A set of problems with one more (R41). -/
def ProblemSet.add (p : ProblemSet) : ProblemCode → ProblemSet
  | .damaged => { p with damaged := true }
  | .wrongBin => { p with wrongBin := true }
  | .empty => { p with empty := true }

/-- PROBLEM taken (R41, R134): WRONG_BIN and EMPTY are also recorded at the station. -/
def takeProblem (z : Station) (code : ProblemCode) (s : State) : State :=
  match faceVisit s z with
  | none => sendPanel z .clear s
  | some (n, v) =>
    let s1 := setVisit n { v with problems := v.problems.add code } s
    match code with
    | .damaged => s1
    | .wrongBin | .empty =>
      stationAttention z (modStation z (fun r => { r with problemFlag := true, lastProblem := some (n, code) }) s1)

/-- The code of a PROBLEM message (R182 Table 3). -/
def problemOfByte (b : Byte) : Option ProblemCode :=
  if b = 0 then some .damaged else if b = 1 then some .wrongBin else if b = 2 then some .empty else none

/-! ### Line Test (R136) -/

/-- A number of REPEATs, one for each message received during the test (R136). -/
def sendRepeats (z : Station) : Nat → State → State
  | 0, s => s
  | n + 1, s => sendRepeats z n (sendPanel z .repeat s)

/-- The first code of Table 8 whose condition was found, or 0 (R136). -/
def lineTestCode (t : LineTestRec) (readHigh : Bool) : Nat :=
  if t.lowBefore then 1
  else if readHigh then 2
  else if t.beamWhole then 3
  else if t.bothLimits then 4
  else if t.noLimit then 5
  else 0

/-- The test has ended: if the link is live, the messages received are answered and CLEAR is sent (R136). -/
def endLineTest (z : Station) (t : LineTestRec) (s : State) : State :=
  let s1 := modStation z (fun r => { r with lineTest := none }) s
  if zoneClosed s z then s1 else sendPanel z .clear (sendRepeats z t.messages s1)

end Sys2Proof.Machine
end

