-- ==== Sys2Proof/Machine/Bins.lean ====
section
/-! DEFINITION. The commands of the Bin Directory and the Slot Map: reads, admission, alteration, retirement, blocking,
protection and Move Home (R5 to R11, R15). -/

namespace Sys2Proof.Machine

/-- A bin number is above 16,383 (R1). -/
def badBin (b : Nat) : Bool := decide (Config.binCount ≤ b)

/-! ### Reads (R5) -/

/-- Read Bin. -/
def runReadBin (p : List Byte) (s : State) : Result :=
  let b := wordAt p 0
  refuseIf (badBin b) .badValue <|
  withSome (bin s b) .noSuchBin fun r => done (binBytes b r) s

/-- Read Slot. -/
def runReadSlot (p : List Byte) (s : State) : Result :=
  withSome (slotAt p 0) .badValue fun sl => done (slotEntryBytes (slotEntry s sl)) s

/-! ### Admission (R7, R8) -/

/-- The fields of Admit Bin (R182 Table 2). -/
structure Admission where
  number    : Nat
  sizeClass : Nat
  capacity  : Nat
  fill      : Nat
  home      : Slot
  station   : Nat

/-- The fields, where every one is in range as R7 step 1 asks. -/
def admissionOf (p : List Byte) : Option Admission :=
  let b := wordAt p 0
  let cls := byteAt p 2
  let cap := byteAt p 3
  let fill := byteAt p 4
  if badBin b || decide (3 < cls) || cap == 0 || decide (250 < cap) || decide (cap < fill) then none
  else (slotAt p 5).map fun sl => ⟨b, cls, cap, fill, sl, byteAt p 9⟩

/-- The record of an admitted bin (R7, R8). -/
def Admission.rec_ (d : Admission) (loc : Location) (visit : Option Nat) : BinRec where
  sizeClass := d.sizeClass
  capacity := d.capacity
  fill := d.fill
  withdrawn := 0
  lendHolds := 0
  refileHolds := 0
  home := d.home
  location := loc
  openVisit := visit
  quarantined := false
  stranded := false
  obstructed := false
  uncertain := false
  lastVisitDay := none

/-- A slot is not EMPTY. -/
def slotTaken (s : State) (sl : Slot) : Bool := slotEntry s sl != .empty

/-- Admit Bin in COMMISSIONING (R7). -/
def runLoadBin (d : Admission) (s : State) : Result :=
  refuseIf (bin s d.number).isSome .state <|
  refuseIf (!aislePresent s d.home.aisle) .aisleOut <|
  refuseIf (slotTaken s d.home) .slotTaken <|
  done (optByte none) (setBin d.number (d.rec_ .slot none) (setSlot d.home (.filled d.number) s))

/-- The face is occupied, or a bin stands LANE OPENING at the station (R8 step 6). -/
def faceBusy (s : State) (z : Station) : Bool :=
  let r := station s z
  r.face.isSome || (match r.crossing with
    | some x => x.kind == .present
    | none => false) || (binInOpening s z).isSome

/-- An intake enters the bin at the face with its INTAKE visit (R8). -/
def intake (d : Admission) (z : Station) (n : Nat) (s : State) : State :=
  let s1 := setBin d.number (d.rec_ (.face z) (some n)) (setSlot d.home (.home d.number) s)
  let s2 := setVisit n (newVisit s .intake d.number .atFace none) s1
  arriveAtFace z d.number n s2

/-- Admit Bin in SERVICE (R8). -/
def runIntake (d : Admission) (s : State) : Result :=
  withSome ((stationOf d.station).filter (fun z => stationPresent s z && zoneOf d.home.aisle == z)) .badValue fun z =>
  refuseIf (bin s d.number).isSome .state <|
  refuseIf ((zone s z).state != .clear) .zoneClosed <|
  refuseIf (service s d.home.aisle == .absent || aisleSuspended s d.home.aisle) .aisleOut <|
  refuseIf (station s z).isOut .stationOut <|
  refuseIf (faceBusy s z) .state <|
  refuseIf (slotTaken s d.home) .slotTaken <|
  withSome (freeVisit s) .tableFull fun n => done (byte n) (intake d z n s)

/-- Admit Bin (R7, R8). -/
def runAdmitBin (p : List Byte) (s : State) : Result :=
  withSome (admissionOf p) .badValue fun d =>
  match s.mode with
  | .commissioning => runLoadBin d s
  | .service => runIntake d s

/-! ### Alteration (R9) -/

/-- The changes of Alter Bin (R182 Table 2): each field where its bit is given, and the flags set and cleared. -/
structure Alteration where
  sizeClass        : Option Nat
  capacity         : Option Nat
  fill             : Option Nat
  setQuarantined   : Bool
  clearQuarantined : Bool
  clearStranded    : Bool
  clearObstructed  : Bool
  clearUncertain   : Bool
  deriving DecidableEq, Repr

/-- A field that is carried where a bit of the changes byte says so. -/
def givenField (p : List Byte) (bit i : Nat) : Option Nat := if bitAt p 2 bit then some (byteAt p i) else none

def alterationOf (p : List Byte) : Alteration where
  sizeClass := givenField p 0 3
  capacity := givenField p 1 4
  fill := givenField p 2 5
  setQuarantined := bitAt p 2 3
  clearQuarantined := bitAt p 6 0
  clearStranded := bitAt p 6 1
  clearObstructed := bitAt p 6 2
  clearUncertain := bitAt p 6 3

/-- The alteration breaks R9 step 1, or a bit or field it does not use is not 0 (R182). -/
def badAlteration (p : List Byte) : Bool :=
  let c := alterationOf p
  badBin (wordAt p 0) || decide (16 ≤ byteAt p 2) || decide (16 ≤ byteAt p 6) ||
    (c.sizeClass.isNone && byteAt p 3 != 0) || (c.capacity.isNone && byteAt p 4 != 0) ||
    (c.fill.isNone && byteAt p 5 != 0) || decide (3 < c.sizeClass.getD 0) || c.capacity == some 0 ||
    decide (250 < c.capacity.getD 1) || decide (250 < c.fill.getD 0) || (c.setQuarantined && c.clearQuarantined)

/-- The alteration changes anything other than clearing flags (R9 step 3). -/
def Alteration.changesMore (c : Alteration) : Bool :=
  c.sizeClass.isSome || c.capacity.isSome || c.fill.isSome || c.setQuarantined

/-- The record after the alteration. -/
def Alteration.apply (c : Alteration) (r : BinRec) : BinRec :=
  { r with
    sizeClass := c.sizeClass.getD r.sizeClass
    capacity := c.capacity.getD r.capacity
    fill := c.fill.getD r.fill
    quarantined := (r.quarantined || c.setQuarantined) && !c.clearQuarantined
    stranded := r.stranded && !c.clearStranded
    obstructed := r.obstructed && !c.clearObstructed
    uncertain := r.uncertain && !c.clearUncertain }

/-- The law of counts of R2: lend holds ≤ fill, and fill + withdrawn count + refile holds ≤ capacity. -/
def BinRec.countsOk (r : BinRec) : Bool :=
  decide (r.lendHolds ≤ r.fill) && decide (r.fill + r.withdrawn + r.refileHolds ≤ r.capacity)

/-- Alter Bin (R9); a crossing that waited for OBSTRUCTED to be cleared may start (R123). -/
def runAlterBin (p : List Byte) (s : State) : Result :=
  let b := wordAt p 0
  let c := alterationOf p
  refuseIf (badAlteration p) .badValue <|
  withSome (bin s b) .noSuchBin fun r =>
  refuseIf (isProtected s b && c.changesMore) .protected_ <|
  refuseIf (!(c.apply r).countsOk) .state <|
  done (binBytes b (c.apply r)) (eventOf (zoneOf r.home.aisle) (setBin b (c.apply r)) s)

/-! ### Retirement (R10) -/

/-- The visit with which a bin can be retired: its open visit, AT_FACE and with no pending task (R10 step 6). -/
def retiringVisit (s : State) (r : BinRec) : Option Nat :=
  match r.openVisit with
  | none => none
  | some n =>
    match visit s n with
    | some v => if v.state = .atFace ∧ hasPending v = false then some n else none
    | none => none

/-- The bin leaves the wing (R10): its visit ends REMOVED, its slot and record become free and the face becomes empty. -/
def retire (b : Nat) (r : BinRec) (z : Station) (n : Nat) (s : State) : State :=
  let s1 := endVisit n .done .removed s
  let s2 := freeBin b (setSlot r.home .empty s1)
  sendPanel z .clear (modStation z (fun t => { t with face := none, faceTimer := none }) s2)

/-- Retire Bin (R10). A withdraw crossing of the bin cannot be in flight, since its visit would be WITHDRAWING. -/
def runRetireBin (p : List Byte) (s : State) : Result :=
  let b := wordAt p 0
  refuseIf (badBin b) .badValue <|
  withSome (bin s b) .noSuchBin fun r =>
  let z := zoneOf r.home.aisle
  refuseIf (isProtected s b) .protected_ <|
  refuseIf (zoneClosed s z) .zoneClosed <|
  refuseIf (r.location != .face z || r.withdrawn != 0) .state <|
  withSome (retiringVisit s r) .state fun n => done [] (eventOf z (retire b r z n) s)

/-! ### Slots and protection (R6, R11) -/

/-- Block Slot (R11). DESIGN CHOICE (log entry 20): a slot of an absent aisle is blocked as any other, since R11 names no check of
the aisle. -/
def runBlockSlot (p : List Byte) (s : State) : Result :=
  withSome (slotAt p 0) .badValue fun sl =>
  match slotEntry s sl with
  | .empty | .blocked => done [] (setSlot sl .blocked s)
  | .home _ | .filled _ | .target _ => .refuse .slotTaken []

/-- Unblock Slot (R11). -/
def runUnblockSlot (p : List Byte) (s : State) : Result :=
  withSome (slotAt p 0) .badValue fun sl =>
  match slotEntry s sl with
  | .empty | .blocked => done [] (setSlot sl .empty s)
  | .home _ | .filled _ | .target _ => .refuse .state []

/-- Set Protection (R6). -/
def runSetProtection (p : List Byte) (s : State) : Result :=
  let m : BitVec 16 := p.getD 0 0 ++ p.getD 1 0
  done (bytes 2 s.protection.toNat ++ bytes 2 m.toNat) { s with protection := m }

/-! ### Move Home (R15) -/

/-- The relocation visit is created and its target slot reserved (R15). -/
def relocate (b : Nat) (sl : Slot) (n : Nat) (s : State) : State :=
  openVisit n (newVisit s .relocation b .queued (some sl)) (setSlot sl (.target b) s)

/-- The new slot breaks R15 step 2 for a bin in use: another aisle, or the present home slot. -/
def badNewSlot (s : State) (b : Nat) (sl : Slot) : Bool :=
  match bin s b with
  | some r => sl.aisle != r.home.aisle || sl == r.home
  | none => false

/-- Move Home (R15). -/
def runMoveHome (p : List Byte) (s : State) : Result :=
  let b := wordAt p 0
  refuseIf (badBin b) .badValue <|
  withSome (slotAt p 2) .badValue fun sl =>
  refuseIf (badNewSlot s b sl) .badValue <|
  withSome (bin s b) .noSuchBin fun r =>
  refuseIf r.quarantined .quarantined <|
  refuseIf (isProtected s b) .protected_ <|
  refuseIf (zoneClosed s (zoneOf r.home.aisle)) .zoneClosed <|
  refuseIf (service s r.home.aisle == .absent || aisleSuspended s r.home.aisle) .aisleOut <|
  refuseIf r.openVisit.isSome .binBusy <|
  refuseIf (r.location != .slot) .state <|
  refuseIf (slotTaken s sl) .slotTaken <|
  withSome (freeVisit s) .tableFull fun n =>
  done (byte n) (eventOf (zoneOf r.home.aisle) (relocate b sl n) s)

end Sys2Proof.Machine
end

