-- ==== Sys2Proof/Machine/Work.lean ====
section
/-! DEFINITION. The commands of work and of the Withdrawal and Visit Tables: Lend, Return, Refile, Fetch, the cancellations, the
reads and Write Off Item (R38, R42 to R44, R54 to R56, R60 to R62, R64, R65, R68 to R70). -/

namespace Sys2Proof.Machine

/-- An item key of 0 (R46). -/
def badKey (key : ItemKey) : Bool := key == 0

/-- A priority above 3. -/
def badPriority (n : Nat) : Bool := decide (3 < n)

/-- The home aisle is suspended or not present (R54, R64, R68). -/
def aisleOut (s : State) (a : Aisle) : Bool := service s a != .inService

/-- The zone and aisle checks that the work commands share (R54 steps 5 and 6). -/
def zoneAndAisle (s : State) (a : Aisle) (rest : Result) : Result :=
  refuseIf (zoneClosed s (zoneOf a)) .zoneClosed <| refuseIf (aisleOut s a) .aisleOut rest

/-- The visit rules of R37 as the last check of a work command. -/
def visitRules (s : State) (r : BinRec) (rest : Result) : Result :=
  match visitRule s r with
  | some .tableFull => .refuse .tableFull []
  | some .binBusy => .refuse .binBusy []
  | some .tasksFull => .refuse .tasksFull []
  | none => rest

/-- The visit number and the task index of a placed task. -/
def Placed.bytes (q : Placed) : List Byte := byte q.visit ++ byte q.index

/-! ### Lend (R54 to R56) -/

/-- The due day clamped into the window from today to today + 1,000, and to 65,535 (R55). -/
def clampDue (today due : Nat) : Nat := max today (min due (min (today + Config.dueWindow) Config.dayLimit))

/-- The lend hold and the count of pending LEND tasks (R56). -/
def holdLend (b : Nat) (s : State) : State :=
  modBin b (fun r => { r with lendHolds := r.lendHolds + 1 }) { s with pendingLends := s.pendingLends + 1 }

/-- Lend (R54 to R56). -/
def runLend (p : List Byte) (s : State) : Result :=
  let key := keyAt p 0
  let b := wordAt p 6
  let due := wordAt p 9
  refuseIf (badKey key || badBin b || badPriority (byteAt p 8)) .badValue <|
  withSome (bin s b) .noSuchBin fun r =>
  refuseIf r.quarantined .quarantined <|
  zoneAndAisle s r.home.aisle <|
  refuseIf (keyTaken s key) .alreadyOut <|
  refuseIf (decide (param s 38 ≤ occupancy s)) .tableFull <|
  refuseIf (decide (r.fill - r.lendHolds < 1)) .binEmpty <|
  visitRules s r <|
  let day := clampDue s.day due
  let q := placeTask b r (newTask .lend (some key) (byteAt p 8) false (some day)) s
  .reply (if day = due then .done else .doneClamped) (q.bytes ++ bytes 2 day)
    (eventOf (zoneOf r.home.aisle) (fun _ => holdLend b q.state) s)

/-! ### Return (R64, R65) -/

/-- Return (R64, R65). -/
def runReturn (p : List Byte) (s : State) : Result :=
  let key := keyAt p 0
  refuseIf (badKey key || badPriority (byteAt p 6)) .badValue <|
  withSome (withdrawal s key) .notOut fun w =>
  refuseIf (w.state == .returning) .alreadyReturning <|
  withSome (bin s w.homeBin) .noSuchBin fun r =>
  zoneAndAisle s r.home.aisle <|
  visitRules s r <|
  let q := placeTask w.homeBin r (newTask .return (some key) (byteAt p 6) false none) s
  done (bytes 2 w.homeBin ++ q.bytes)
    (eventOf (zoneOf r.home.aisle) (fun _ => setRecordState key .returning (some q.visit) q.state) s)

/-! ### Refile (R68 to R70) -/

/-- A REFILE task, of a command that was taken at `taken` ms, is placed on a bin and its room is held (R24, R69). -/
def placeRefile (taken : Nat) (b : Nat) (r : BinRec) (key : ItemKey) (priority : Nat) (s : State) : Placed :=
  let q := placeTaskAt taken b r (newTask .refile (some key) priority false none) s
  { q with state := modBin b (fun r => { r with refileHolds := r.refileHolds + 1 }) q.state }

/-- Refile to a named bin (R68, R69). -/
def runRefileNamed (key : ItemKey) (b priority : Nat) (s : State) : Result :=
  refuseIf (badKey key || badBin b || badPriority priority) .badValue <|
  withSome (bin s b) .noSuchBin fun r =>
  refuseIf r.quarantined .quarantined <|
  zoneAndAisle s r.home.aisle <|
  refuseIf (keyTaken s key) .alreadyOut <|
  refuseIf (decide (room r < 1)) .noRoom <|
  visitRules s r <|
  let q := placeRefile s.time.ms b r key priority s
  done (bytes 2 b ++ q.bytes) (eventOf (zoneOf r.home.aisle) (fun _ => q.state) s)

/-- Channel P at the start of a search or of its second pass (R70, R73): the whole directory, RUNNING, its cursor at bin 0. -/
def searchChannel (pass : Nat) : ChannelRec :=
  ⟨.bin, 0, 16383, 0, none, .single, .running, [], pass, false⟩

/-- Refile with ANY (R70): the placement search starts, and the reply is written at its end (R167). -/
def runRefileAny (key : ItemKey) (cls st priority : Nat) (s : State) : Result :=
  withSome ((stationOf st).filter (fun z => stationPresent s z && !badKey key && !decide (3 < cls) && !badPriority priority))
    .badValue fun z =>
  refuseIf (zoneClosed s z) .zoneClosed <|
  refuseIf (aisleOut s (aisle0 z) && aisleOut s (aisle1 z)) .aisleOut <|
  refuseIf (keyTaken s key) .alreadyOut <|
  .wait { s with chanP := searchChannel 0, search := ⟨key, cls, z, priority, s.time.ms, none⟩ }

/-- Refile (R68, R70): the bin field 0xFFFF is ANY (R182). -/
def runRefile (p : List Byte) (s : State) : Result :=
  if wordAt p 6 = 0xFFFF then runRefileAny (keyAt p 0) (byteAt p 8) (byteAt p 9) (byteAt p 10) s
  else runRefileNamed (keyAt p 0) (wordAt p 6) (byteAt p 10) s

/-! ### Fetch (R38) -/

/-- Fetch (R38): an urgent task has priority 3. -/
def runFetch (p : List Byte) (s : State) : Result :=
  let b := wordAt p 0
  let urgent := byteAt p 3 == 1
  refuseIf (badBin b || badPriority (byteAt p 2) || decide (1 < byteAt p 3)) .badValue <|
  withSome (bin s b) .noSuchBin fun r =>
  zoneAndAisle s r.home.aisle <|
  visitRules s r <|
  let q := placeTask b r (newTask .fetch none (if urgent then 3 else byteAt p 2) urgent none) s
  done q.bytes (eventOf (zoneOf r.home.aisle) (fun _ => q.state) s)

/-! ### Cancel Task, Cancel Visit, Retire Visit, Read Visit (R42 to R44) -/

/-- A visit number is above 63 (R22). -/
def badVisit (n : Nat) : Bool := decide (Config.visitCount ≤ n)

/-- The panel of an AT_FACE visit's station is sent the tasks that are still PENDING (R42, R43). -/
def reshow (v : VisitRec) (s : State) : State :=
  match v.state, binAisle s v.bin with
  | .atFace, some a => resendTasks (zoneOf a) s
  | _, _ => s

/-- A DELIVERY visit left with no PENDING task and its bin in its home slot ends CANCELLED (R42). -/
def endIfIdle (n : Nat) (s : State) : State :=
  match visit s n with
  | none => s
  | some v =>
    if v.kind = .delivery ∧ hasPending v = false ∧ inHomeSlot s v.bin = true then endCancelled n v s else s

/-- One PENDING task is cancelled (R42). -/
def cancelTask (n : Nat) (v : VisitRec) (i : Nat) (t : TaskRec) (s : State) : State :=
  let v' := v.withTasks (v.tasks.set i (cancelledTask t))
  endIfIdle n (reshow v' (setVisit n v' (releaseTask v.bin t s)))

/-- The zone whose work a change of a visit concerns: that of its bin's home aisle. -/
def visitEvent (v : VisitRec) (f : State → State) (s : State) : State :=
  match binAisle s v.bin with
  | some a => eventOf (zoneOf a) f s
  | none => f s

/-- Cancel Task (R42). -/
def runCancelTask (p : List Byte) (s : State) : Result :=
  let n := byteAt p 0
  let i := byteAt p 1
  refuseIf (badVisit n || decide (Config.taskLimit ≤ i)) .badValue <|
  withSome (visit s n) .noSuchVisit fun v =>
  refuseIf (!isOpen v) .state <|
  withSome v.tasks[i]? .noSuchTask fun t =>
  refuseIf (t.state != .pending) .state <|
  done [] (visitEvent v (cancelTask n v i t) s)

/-- Every PENDING task of a visit is cancelled; the panel of an AT_FACE visit is sent CLEAR; and the visit ends if its bin is
in its home slot (R43). -/
def cancelVisit (n : Nat) (v : VisitRec) (s : State) : State :=
  let s1 := cancelTasks n v s
  let s2 := match v.state, binAisle s v.bin with
    | .atFace, some a => sendPanel (zoneOf a) .clear s1
    | _, _ => s1
  if inHomeSlot s v.bin then
    match visit s2 n with
    | some w => endCancelled n w s2
    | none => s2
  else s2

/-- Cancel Visit (R43): case 0 where the visit ended at once, case 1 where it runs on. -/
def runCancelVisit (p : List Byte) (s : State) : Result :=
  let n := byteAt p 0
  refuseIf (badVisit n) .badValue <|
  withSome (visit s n) .noSuchVisit fun v =>
  refuseIf (!isOpen v) .state <|
  done (byte (if inHomeSlot s v.bin then 0 else 1)) (visitEvent v (cancelVisit n v) s)

/-- Retire Visit (R44). -/
def runRetireVisit (p : List Byte) (s : State) : Result :=
  let n := byteAt p 0
  refuseIf (badVisit n) .badValue <|
  withSome (visit s n) .noSuchVisit fun v =>
  refuseIf (isOpen v) .state <|
  done [] { s with visits := tableErase s.visits n }

/-- Read Visit (R44). -/
def runReadVisit (p : List Byte) (s : State) : Result :=
  let n := byteAt p 0
  let part := byteAt p 1
  refuseIf (badVisit n || decide (2 < part)) .badValue <|
  withSome (visit s n) .noSuchVisit fun v =>
  done (if part = 0 then visitBytes n v else taskPartBytes n part v) s

/-! ### The Withdrawal Table (R60 to R62) -/

/-- Read Withdrawal Bucket (R61). -/
def runReadBucket (p : List Byte) (s : State) : Result :=
  let i := wordAt p 0
  refuseIf (decide (Config.bucketCount ≤ i)) .badValue <|
  let w := tableGet s.withdrawals i
  done (bucketBytes i ((w.map fun r => homeBucket r.key).getD 0) w) s

/-- The visit, index and kind of a pending task, or their absence (R182 Table 4). -/
def pendingBytes : Option PendingTask → List Byte
  | some t => byte t.visit ++ byte t.index ++ byte t.kind.code
  | none => optByte none ++ optByte none ++ optByte none

/-- Find Item (R60). -/
def runFindItem (p : List Byte) (s : State) : Result :=
  let key := keyAt p 0
  let l := lookup s.withdrawals key
  let t := findPendingTask key s.visits
  let home := homeBucket key
  refuseIf (badKey key) .badValue <|
  if l.found then
    done (byte 0 ++ bucketBytes l.bucket home (tableGet s.withdrawals l.bucket) ++ pendingBytes t ++ bytes 2 l.probes) s
  else if t.isSome then done (byte 1 ++ bucketBytes 0 0 none ++ pendingBytes t ++ bytes 2 0) s
  else .refuse .notOut (bytes 2 home)

/-- The home bin's withdrawn count after a write-off (R62). -/
def writeOffBin (r : BinRec) : BinRec := { r with withdrawn := r.withdrawn - 1 }

/-- Write Off Item (R62). -/
def runWriteOff (p : List Byte) (s : State) : Result :=
  let key := keyAt p 0
  refuseIf (badKey key) .badValue <|
  withSome (withdrawal s key) .notOut fun w =>
  refuseIf (w.state == .returning) .alreadyReturning <|
  let s1 := modBin w.homeBin writeOffBin (deleteRecord key s)
  done (bytes 2 w.homeBin ++ byte (((bin s1 w.homeBin).map (·.withdrawn)).getD 0)) s1

end Sys2Proof.Machine
end

