-- ==== Sys2Proof/Machine/Scans.lean ====
section
/-! DEFINITION. The Scan Engine: queries on channel Q and the placement search on channel P (R70 to R73, R157 to R163). -/

namespace Sys2Proof.Machine

/-! ### Queries (R158 to R162) -/

/-- The scan table of a code (R182 Table 3). -/
def scanTableOf (n : Nat) : Option ScanTable := if n = 0 then some .bin else if n = 1 then some .withdrawal else none

/-- The scan mode of a code (R182 Table 3). -/
def scanModeOf (n : Nat) : Option ScanMode := if n = 0 then some .single else if n = 1 then some .loop else none

/-- The greatest index of a table (R157). -/
def lastIndex : ScanTable → Nat
  | .bin => Config.binCount - 1
  | .withdrawal => Config.bucketCount - 1

/-- The four argument bytes with only the last `n` in use. -/
def smallArgument (p : List Byte) (i n : Nat) : Bool := zeroes p i (4 - n)

/-- The filter of a code with its argument, where both are in range (R158 steps 3 and 4, R182). The argument stands at offset
`i`. -/
def filterOf (p : List Byte) (i : Nat) : ScanTable → Nat → Option Filter
  | .bin, 0 => if smallArgument p i 0 then some .stranded else none
  | .bin, 1 => if smallArgument p i 0 then some .obstructed else none
  | .bin, 2 => if smallArgument p i 0 then some .uncertain else none
  | .bin, 3 => if smallArgument p i 0 then some .quarantined else none
  | .bin, 4 => if smallArgument p i 1 && decide (byteAt p (i + 3) < 8) then some (.homeAisle (byteAt p (i + 3))) else none
  | .bin, 5 => if smallArgument p i 1 && decide (byteAt p (i + 3) ≤ 250) then some (.fillAtMost (byteAt p (i + 3))) else none
  | .bin, 6 => if smallArgument p i 0 then some .openVisit else none
  | .bin, 7 => if smallArgument p i 2 then some (.idleSince (wordAt p (i + 2))) else none
  | .withdrawal, 0 => if smallArgument p i 0 then some .overdue else none
  | .withdrawal, 1 => if smallArgument p i 2 then some (.outBefore (wordAt p (i + 2))) else none
  | .withdrawal, 2 =>
    if wordAt p i ≤ wordAt p (i + 2) ∧ wordAt p (i + 2) < Config.binCount then
      some (.homeBinRange (wordAt p i) (wordAt p (i + 2)))
    else none
  | .withdrawal, 3 => if smallArgument p i 0 then some .returning else none
  | _, _ => none

/-- The channel record of a query that passes the checks of R158. -/
def queryOf (p : List Byte) : Option ChannelRec :=
  match scanTableOf (byteAt p 0), scanModeOf (byteAt p 10) with
  | some t, some m =>
    let first := wordAt p 1
    let last := wordAt p 3
    if first ≤ last ∧ last ≤ lastIndex t then
      (filterOf p 6 t (byteAt p 5)).map fun f => ⟨t, first, last, first, some f, m, .running, [], 0, false⟩
    else none
  | _, _ => none

/-- Start Scan (R158). -/
def runStartScan (p : List Byte) (s : State) : Result :=
  withSome (queryOf p) .badValue fun q => done [] { s with chanQ := q }

/-- How many entries a reply carries (R161, R182). -/
def carriedLimit : ScanTable → Nat
  | .bin => 8
  | .withdrawal => 6

/-- The channel after its oldest entries are removed (R161): a PAUSED channel whose list falls below 16 runs on. -/
def ChannelRec.removed (q : ChannelRec) (n : Nat) : ChannelRec :=
  let rest := q.results.drop n
  { q with
    results := rest
    state := if q.state = .paused ∧ rest.length < Config.resultLimit then .running else q.state }

/-- Read Scan Results (R161). -/
def runReadScan (_ : List Byte) (s : State) : Result :=
  let q := s.chanQ
  let carried := q.results.take (carriedLimit q.table)
  let q' := q.removed (carriedLimit q.table)
  done (scanBytes carried q') { s with chanQ := q' }

/-- Stop Scan (R162). -/
def runStopScan (_ : List Byte) (s : State) : Result :=
  done (byte s.chanQ.state.code) { s with chanQ := { s.chanQ with state := .idle } }

/-- A bin record passes a filter (R159 Table 3). -/
def binPasses (r : BinRec) : Filter → Bool
  | .stranded => r.stranded
  | .obstructed => r.obstructed
  | .uncertain => r.uncertain
  | .quarantined => r.quarantined
  | .homeAisle a => r.home.aisle.val == a
  | .fillAtMost n => decide (r.fill ≤ n)
  | .openVisit => r.openVisit.isSome
  | .idleSince day => match r.lastVisitDay with
    | none => true
    | some d => decide (d < day)
  | .overdue | .outBefore _ | .homeBinRange _ _ | .returning => false

/-- A withdrawal record passes a filter, with today as the day number stands (R159 Table 3). -/
def recordPasses (today : Nat) (w : WithdrawalRec) : Filter → Bool
  | .overdue => decide (w.dueDay < today)
  | .outBefore day => decide (w.outDay < day)
  | .homeBinRange low high => decide (low ≤ w.homeBin) && decide (w.homeBin ≤ high)
  | .returning => w.state == .returning
  | .stranded | .obstructed | .uncertain | .quarantined | .homeAisle _ | .fillAtMost _ | .openVisit | .idleSince _ => false

/-- The entry of the record at an index, if it passes the channel's filter (R159). -/
def judgeQuery (s : State) (q : ChannelRec) : Option ScanEntry :=
  match q.filter with
  | none => none
  | some f =>
    match q.table with
    | .bin =>
      match bin s q.cursor with
      | some r => if binPasses r f then some (.bin q.cursor) else none
      | none => none
    | .withdrawal =>
      match tableGet s.withdrawals q.cursor with
      | some w => if recordPasses s.day w f then some (.bucket q.cursor w.key) else none
      | none => none

/-- The channel after the record at its cursor has been judged (R159, R160): the pass may end, and the list may be full. -/
def ChannelRec.stepped (q : ChannelRec) (e : Option ScanEntry) : ChannelRec :=
  let rs := q.results ++ e.toList
  let q1 :=
    if q.cursor < q.last then { q with results := rs, cursor := q.cursor + 1 }
    else match q.mode with
      | .single => { q with results := rs, passCount := 1, state := .done }
      | .loop => { q with results := rs, passCount := countUp q.passCount, cursor := q.first }
  if q1.state = .running ∧ Config.resultLimit ≤ rs.length then { q1 with state := .paused } else q1

/-- A step of channel Q (R159, R160): SCAN_Q is set at a pass end and at a pause. -/
def stepQuery (s : State) : State :=
  let q := s.chanQ
  if q.state = .running then
    let q' := q.stepped (judgeQuery s q)
    let s1 := { s with chanQ := q' }
    if q'.state ≠ .running ∨ q.last ≤ q.cursor then setAttention scanBit s1 else s1
  else s

/-! ### The placement search (R71 to R73) -/

/-- The bin can take the search's item now: the conditions of R71. -/
def isCandidate (s : State) (b : Nat) (r : BinRec) : Bool :=
  zoneOf r.home.aisle == s.search.station && !aisleOut s r.home.aisle && r.sizeClass == s.search.sizeClass &&
    !isProtected s b && !r.quarantined && (visitRule s r).isNone && decide (1 ≤ room r)

/-- The winner after a bin has been judged (R72). -/
def judgeBin (s : State) (b : Nat) : Option Winner :=
  match bin s b with
  | none => s.search.winner
  | some r =>
    if isCandidate s b r then
      match s.search.winner with
      | none => some ⟨b, room r⟩
      | some w => if w.room < room r then some ⟨b, room r⟩ else some w
    else s.search.winner

/-- The search ends with a reply (R73): channel P is IDLE. DESIGN CHOICE (log entry 39): its pass count stays as R70 and R73 set it, 0
when the first pass ends the search and 1 when the second does, and its cursor stays at the last bin. -/
def endSearch (code : OutcomeCode) (data : List Byte) (s : State) : State :=
  writeReply code data { s with chanP := { s.chanP with state := .idle } }

/-- The winner takes the REFILE task, and the search ends (R73 step 3). The creation time of a visit created here is that of the
command (R24). -/
def placeWinner (b : Nat) (r : BinRec) (s : State) : State :=
  let q := placeRefile s.search.taken b r s.search.key s.search.priority s
  endSearch .done (bytes 2 b ++ q.bytes) (eventOf (zoneOf r.home.aisle) (fun _ => q.state) s)

/-- The end of a pass (R73). -/
def endPass (s : State) : State :=
  if zoneClosed s s.search.station then endSearch .zoneClosed [] s
  else
    match s.search.winner with
    | none => endSearch .noRoom [] s
    | some w =>
      match (bin s w.bin).filter (isCandidate s w.bin) with
      | some r => placeWinner w.bin r s
      | none =>
        if s.chanP.passCount = 0 then { s with chanP := searchChannel 1, search := { s.search with winner := none } }
        else endSearch .noRoom [] s

/-- A step of channel P (R71 to R73). -/
def stepSearch (s : State) : State :=
  if s.chanP.state = .running then
    let s1 := { s with search := { s.search with winner := judgeBin s s.chanP.cursor } }
    if s.chanP.cursor < s.chanP.last then { s1 with chanP := { s.chanP with cursor := s.chanP.cursor + 1 } }
    else endPass s1
  else s

end Sys2Proof.Machine
end

