-- ==== Sys2Proof/Machine/Machinery.lean ====
section
/-! DEFINITION. The commands of cranes, stations and zones (R93, R94, R113, R117, R132, R136, R137, R149, R151, R152), and the
steps of a Line Test. -/

namespace Sys2Proof.Machine

/-- The aisle a command names, if it is present (R93, R94, R113, R117). -/
def withAisle (p : List Byte) (s : State) (rest : Aisle → Result) : Result :=
  withSome (aisleOf (byteAt p 0)) .badValue fun a => refuseIf (!aislePresent s a) .aisleOut (rest a)

/-- The station a command names, if it is present (R119). -/
def withStation (p : List Byte) (s : State) (rest : Station → Result) : Result :=
  withSome ((stationOf (byteAt p 0)).filter (stationPresent s)) .badValue rest

/-! ### Cranes and aisles -/

/-- Read Crane (R117). -/
def runReadCrane (p : List Byte) (s : State) : Result := withAisle p s fun a => done (craneBytes s a) s

/-- A suspension takes effect at the command: the crane has no leg in hand and no fork to finish (R93). DESIGN CHOICE (log entry
28): a crane in RETRY_WAIT whose leg a cancellation dropped takes it when retry_delay has passed. -/
def suspendsAtOnce (c : CraneRec) : Bool :=
  match c.state with
  | .ready | .resting | .homing | .faulted | .parked | .offline => true
  | .parking => !forkInFlight c
  | .waking | .moving | .retryWait => false

/-- An IN_SERVICE aisle is suspended (R93). -/
def suspend (a : Aisle) (s : State) : State :=
  if suspendsAtOnce (crane s a) then takeSuspension a s
  else setAisle a { aisleRec s a with suspension := .suspending } s

/-- Suspend Aisle (R93). -/
def runSuspendAisle (p : List Byte) (s : State) : Result :=
  withAisle p s fun a =>
  let s1 := if aisleSuspended s a then s else eventOf (zoneOf a) (suspend a) s
  done (byte (service s1 a).code) s1

/-- A suspended aisle returns to work (R94). -/
def resume (a : Aisle) (s : State) : State :=
  let s1 := setAisle a { aisleRec s a with suspension := .inService } s
  if (aisleRec s a).suspension = .suspended ∧ zoneClosed s (zoneOf a) = false then homeOrder a s1 else s1

/-- Resume Aisle (R94). -/
def runResumeAisle (p : List Byte) (s : State) : Result :=
  withAisle p s fun a =>
  refuseIf (service s a == .inService) .state <|
  let s1 := eventOf (zoneOf a) (resume a) s
  done (byte (service s1 a).code) s1

/-- A FAULTED crane is released (R113). -/
def clearCrane (a : Aisle) (s : State) : State :=
  if zoneClosed s (zoneOf a) then takeOffline a s else startHome a true s

/-- Clear Crane (R113). -/
def runClearCrane (p : List Byte) (s : State) : Result :=
  withAisle p s fun a =>
  refuseIf ((crane s a).state != .faulted || (crane s a).supplyFault) .state <|
  let s1 := eventOf (zoneOf a) (clearCrane a) s
  done (byte (crane s1 a).state.code) s1

/-! ### Zones -/

/-- Read Zone (R152). -/
def runReadZone (p : List Byte) (s : State) : Result :=
  withSome (stationOf (byteAt p 0)) .badValue fun z => done (zoneBytes s z) s

/-- Restore Zone (R149). -/
def runRestoreZone (p : List Byte) (s : State) : Result :=
  withSome (stationOf (byteAt p 0)) .badValue fun z =>
  refuseIf ((zone s z).state != .awaitRestore) .state <|
  let s1 := eventOf z (enterRecovery z) s
  done (byte (zone s1 z).state.code) s1

/-- Drill codes (R151, R182 Table 3). -/
inductive DrillCode where
  | alert | fire | panelClear | end_
  deriving DecidableEq, Repr

def drillOf (n : Nat) : Option DrillCode :=
  if n = 0 then some .alert else if n = 1 then some .fire else if n = 2 then some .panelClear
  else if n = 3 then some .end_ else none

/-- The zone record with an injection, or with none (R151). -/
def inject (c : DrillCode) (r : ZoneRec) : ZoneRec :=
  match c with
  | .alert => { r with injectAlert := true, drill := true }
  | .fire => { r with injectFire := true, drill := true }
  | .panelClear => { r with injectClear := true, drill := true }
  | .end_ => { r with injectAlert := false, injectFire := false, injectClear := false, drill := false }

/-- The injections change and the zone acts on the levels that this takes or releases (R151). -/
def drillZone (z : Station) (c : DrillCode) (s : State) : State :=
  actOnLevels s z (setZone z (inject c (zone s z)) s)

/-- Drill (R151). -/
def runDrill (p : List Byte) (s : State) : Result :=
  withSome (stationOf (byteAt p 0)) .badValue fun z =>
  withSome (drillOf (byteAt p 1)) .badValue fun c =>
  let s1 := eventOf z (drillZone z c) s
  done (byte (zone s1 z).state.code ++ injectionByte (zone s1 z)) s1

/-! ### Stations -/

/-- The flags that Read Station clears (R137). -/
def StationRec.clearFlags (r : StationRec) : StationRec :=
  { r with
    faceLong := false, scanUnexpected := false, panelLinkFlag := false, forced := false, shutterFault := false,
    problemFlag := false }

/-- Read Station (R137). -/
def runReadStation (p : List Byte) (s : State) : Result :=
  withStation p s fun z => done (stationBytes s z) (modStation z (·.clearFlags) s)

/-- An OUT station is reopened (R132): at once if its shutter is OPEN, otherwise at the end of its travel. -/
def reopen (z : Station) (s : State) : State :=
  match (station s z).shutter with
  | .open => leaveOut z s
  | .opening => modStation z (fun r => { r with reopenCommand := true }) s
  | .closing | .closed => modStation z (fun r => { r with reopenCommand := true }) (energiseShutter z s)

/-- Reopen Station (R132). -/
def runReopenStation (p : List Byte) (s : State) : Result :=
  withStation p s fun z =>
  refuseIf (zoneClosed s z) .zoneClosed <|
  refuseIf (!(station s z).isOut) .state <|
  refuseIf (station s z).beam .state <|
  let s1 := eventOf z (reopen z) s
  done (byte (station s1 z).shutter.code) s1

/-- A Line Test can run at the station (R136). -/
def mayTest (s : State) (z : Station) : Bool :=
  let r := station s z
  r.lane.isEmpty && r.face.isNone && (binInOpening s z).isNone && r.crossing.isNone && r.resv0 == 0 && r.resv1 == 0 &&
    (r.shutter == .open || r.shutter == .closed)

/-- The test as it starts (R136): what its sensors show at that moment. -/
def LineTestRec.start (r : StationRec) : LineTestRec :=
  ⟨0, r.shutter, false, false, r.beam, r.openLimit && r.closedLimit, !r.openLimit && !r.closedLimit, 0⟩

/-- Line Test (R136): the reply is written at the end of the test (R167). -/
def runLineTest (p : List Byte) (s : State) : Result :=
  withStation p s fun z =>
  refuseIf (!mayTest s z) .state <|
  .wait (modStation z (fun r => { r with lineTest := some (.start r) }) s)

/-- The line is driven low after the first 125 ms, with what the part has watched on it until then (R136). -/
def driveLine (z : Station) (lineLow : Bool) (s : State) : State :=
  match (station s z).lineTest with
  | some t =>
    if t.driven = false ∧ Config.lineTestHalf ≤ t.elapsed then
      modStation z (fun r => { r with lineTest := some { t with driven := true, lowBefore := lineLow } }) s
    else s
  | none => s

/-- The test ends after 250 ms with its reply (R136), and a crossing that waited for its end may start. -/
def finishLineTest (z : Station) (readHigh : Bool) (s : State) : State :=
  match (station s z).lineTest with
  | some t =>
    if t.driven = true ∧ Config.lineTestLength ≤ t.elapsed then
      writeReply .done (byte (lineTestCode t readHigh)) (eventOf z (endLineTest z t) s)
    else s
  | none => s

end Sys2Proof.Machine
end

