-- ==== Sys2Proof/Machine/Resets.lean ====
section
/-! DEFINITION. Resets, what they keep and what they set afresh (R21, R45, R63, R74, R78, R79, R118, R138, R154, R155, R157, R173,
R179, R180). -/

namespace Sys2Proof.Machine

/-! ### The Parameter Table at a reset (R180) -/

/-- The 17 bits of a word hold an even number of ones (R174). -/
def wordOk (w : ParamWord) : Bool := oddOnes w.value == w.parity

/-- A word with bad parity is reloaded with its default (R180). -/
def repairWord (default : Nat) (w : ParamWord) : ParamWord := if wordOk w then w else paramWord default

/-- The table after the check. -/
def repairParams (v : Vector ParamWord 41) : Vector ParamWord 41 :=
  ⟨⟨List.zipWith repairWord defaultValues v.toArray.toList⟩, by simp [defaultValues]⟩

/-- At least one word has bad parity. -/
def needsRepair (v : Vector ParamWord 41) : Bool := v.toArray.toList.any (fun w => !wordOk w)

/-! ### The records (R21, R45, R95) -/

/-- A mark of a list names the bin. -/
def named (marks : List (Option Nat)) (b : Nat) : Bool := marks.contains (some b)

/-- A bin after a reset that keeps the records (R21). -/
def resetBin (forks crossings : List (Option Nat)) (b : Nat) (r : BinRec) : BinRec :=
  let onCrane := match r.location with
    | .crane _ => true
    | _ => false
  { r with
    uncertain := r.uncertain || onCrane || named forks b || named crossings b
    obstructed := r.obstructed || named crossings b }

/-- A visit was moving when the reset came: in a crane leg, or in a crossing (R45). -/
def wasMoving (crossings : List (Option Nat)) (v : VisitRec) : Bool :=
  v.state.inLeg || v.state == .presenting || (v.state == .withdrawing && named crossings v.bin)

/-- An open visit after a reset that keeps the records (R45, R95). -/
def resetVisit (crossings : List (Option Nat)) (suspended : Bool) (v : VisitRec) : VisitRec :=
  if isOpen v then
    { v with
      reservation := false
      created := 0
      hold := { v.hold with
        reset := v.hold.reset || wasMoving crossings v
        aisleSuspended := v.hold.aisleSuspended || suspended } }
  else v

/-- The visit's aisle carries a suspension mark. -/
def visitSuspended (s : State) (v : VisitRec) : Bool :=
  match binAisle s v.bin with
  | some a => (aisleRec s a).suspension != .inService
  | none => false

/-- The bins and visits after a reset that keeps them, with the motion marks cleared (R21, R45). -/
def resetRecords (s : State) : State :=
  let forks := s.forkMarks.toArray.toList
  let crossings := s.crossingMarks.toArray.toList
  { s with
    bins := tableMap (resetBin forks crossings) s.bins
    visits := tableMap (fun _ v => resetVisit crossings (visitSuspended s v) v) s.visits
    forkMarks := Vector.replicate 8 none
    crossingMarks := Vector.replicate 4 none }

/-! ### The blocks (R79, R118, R138, R154, R155) -/

/-- An aisle's record after a reset: an aisle that was SUSPENDING comes up SUSPENDED, and the grant is lost (R79, R95). -/
def resetAisle (r : AisleRec) : AisleRec :=
  ⟨match r.suspension with
    | .inService => .inService
    | .suspending | .suspended => .suspended, false⟩

/-- The bin that the directory locates at a place (R118, R138). -/
def binAt (s : State) (loc : Location) : Option Nat := (s.bins.find? fun e => e.2.location == loc).map (·.1)

/-- A crane's record after a reset (R118). -/
def craneAfterReset (s : State) (a : Aisle) : CraneRec :=
  { CraneRec.reset with carried := binAt s (.crane a), parkOrder := zoneClosed s (zoneOf a) }

/-- A zone's record after a reset that keeps it (R155). -/
def resetZone (r : ZoneRec) : ZoneRec :=
  { r with
    holdTimer := none
    released := false
    reopenReport := .none
    settled0 := false
    settled1 := false
    recovered0 := false
    recovered1 := false }

/-- The bin at a face with its open visit (R138). -/
def faceAfterReset (s : State) (z : Station) : Option FaceRec :=
  (binAt s (.face z)).bind fun b => ((bin s b).bind (·.openVisit)).map fun n => ⟨b, n⟩

/-- The state of the visit at a face. -/
def faceState (s : State) (f : FaceRec) : Option VisitState := (visit s f.visit).map (·.state)

/-- The opening bin after a reset (R138): the bin LANE OPENING, or an OBSTRUCTED bin at the face whose visit is
WITHDRAWING. -/
def openingAfterReset (s : State) (z : Station) : Option Nat :=
  match binAt s (.opening z) with
  | some b => some b
  | none =>
    match faceAfterReset s z with
    | none => none
    | some f =>
      let caught := ((bin s f.bin).map (·.obstructed)).getD false
      if caught && faceState s f == some .withdrawing then some f.bin else none

/-- The face timer after a reset (R138). -/
def faceTimerAfterReset (s : State) (z : Station) : Option Nat :=
  match faceAfterReset s z with
  | none => none
  | some f => if faceState s f = some .atFace then some (1000 * param s 31) else none

/-- A station that is not present, after a reset: lane, face and outbound place agree with the directory, as they always do, its
output is released, and its out causes and pins are as they are (R119). Bins can be located at it where a parity repair of the
station mask left it absent (R174). DESIGN CHOICE (log entry 12), R138 giving the records of present stations only: its opening
bin is found as theirs is, its shutter is CLOSED and no timer of it runs. -/
def absentStation (s : State) (z : Station) : StationRec :=
  let r := station s z
  { StationRec.reset with
    lane := [(0 : Fin 3), 1, 2].filterMap fun p => binAt s (.lane z p)
    face := faceAfterReset s z
    outbound := binAt s (.outbound z)
    openingBin := openingAfterReset s z
    jammed := r.jammed
    reopenFault := r.reopenFault
    openLimit := r.openLimit
    closedLimit := r.closedLimit
    beam := r.beam }

/-- A present station's record on leaving a reset (R138): its shutter falls, and its face timer runs for an AT_FACE visit. DESIGN
CHOICE (log entry 32): a closed limit that is asserted already does not end CLOSING. -/
def stationAfterReset (s : State) (z : Station) : StationRec :=
  { absentStation s z with
    shutter := .closing
    travelTimer := some (1000 * param s 32)
    closeOrder := zoneClosed s z
    faceTimer := faceTimerAfterReset s z }

/-- A station's record after a reset. -/
def resetStation (z : Station) (s : State) : State :=
  setStation z (if stationPresent s z then stationAfterReset s z else absentStation s z) s

/-- The zone orders of a present station that leaves a reset (R138): in a closed zone released is reported and LOCKED sent;
otherwise CLEAR and the SHOWs are sent and a reopen order is taken. -/
def startStation (z : Station) (s : State) : State :=
  if zoneClosed s z then sendPanel z .locked (reportReleased z s) else reopenOrder z (resendTasks z s)

/-- Every present station leaves the reset. -/
def startStations (s : State) : State :=
  stationList.foldl (fun t z => if stationPresent t z then startStation z t else t) s

/-- STOP to every present crane (R118). -/
def stopCranes (s : State) : State :=
  aisleList.foldl (fun t a => if aislePresent t a then sendDrive a .stop t else t) s

/-- FIRE for the open visits of the bins that cranes of closed zones carry (R155). -/
def holdCarried (s : State) : State :=
  aisleList.foldl (fun t a =>
    match (crane t a).carried with
    | some b => if zoneClosed t (zoneOf a) then holdBinVisit .fire b t else t
    | none => t) s

/-- HOME orders to the cranes that qualify (R112, R155). -/
def homeAll (s : State) : State := stationList.foldl (fun t z => if zoneClosed t z then t else homeCranes z t) s

/-! ### The whole reset (R173, R179, R180) -/

/-- The Link Interface after a reset (R173). A transaction in progress is lost (R164). What the host read last is past. -/
def resetLink (repaired : Bool) (l : LinkRec) : LinkRec :=
  { LinkRec.reset with
    attention := LinkRec.reset.attention ||| (if repaired then attentionWord repairedBit else 0)
    hostOut := l.hostOut }

/-- The volatile records of the blocks after a reset that keeps the retained state. -/
def resetBlocks (s : State) : State :=
  let s1 := { s with
    aisles := vectorMap resetAisle s.aisles
    zones := vectorMap resetZone s.zones
    inputs := vectorMap (fun c => { c with window := none }) s.inputs
    chanQ := ChannelRec.reset
    chanP := ChannelRec.reset
    search := SearchRec.reset
    time := ⟨0, param s 6, 0⟩ }
  let s2 := aisleList.foldl (fun t a => setCrane a (craneAfterReset t a) t) s1
  stationList.foldl (fun t z => resetStation z t) s2

/-- The Parameter Table, the mode and the Link Interface at a reset that keeps the retained state (R173, R180). -/
def resetSettings (s : State) : State :=
  { s with
    params := repairParams s.params
    mode := if needsRepair s.params then .commissioning else s.mode
    link := resetLink (needsRepair s.params) s.link }

/-- A reset that keeps the retained state is left (R179, R180). -/
def leaveKept (s : State) : State :=
  let s1 := reconcileAll (resetBlocks (resetRecords (resetSettings s)))
  let s2 := homeAll (stopCranes (holdCarried (startStations s1)))
  settleAll s2 s2

/-- The levels at the pins of a station whose record is set up afresh. -/
def keepPins (r : StationRec) : StationRec :=
  { StationRec.reset with openLimit := r.openLimit, closedLimit := r.closedLimit, beam := r.beam }

/-- With retention lost the state is set up afresh (R63, R179), but for the levels at the pins, RESET_N's among them, and the
model's own fields. -/
def setUpAfresh (s : State) : State :=
  { State.reset with
    stations := vectorMap keepPins s.stations
    inputs := vectorMap (fun c => ⟨c.pinHigh, false, none⟩) s.inputs
    link := resetLink false s.link
    resets := s.resets
    sent := s.sent
    pending := s.pending }

/-- A reset with retention lost is left (R154, R179). -/
def leaveLost (s : State) : State := reconcileAll (setUpAfresh s)

/-- A reset is left: its cause stays readable until the next (R170, R179). -/
def leaveReset (cause : ResetCause) (s : State) : State :=
  let s1 := if cause = .powerLost then leaveLost s else leaveKept s
  { s1 with resets := ⟨s.resets.pinLow, none, cause⟩ }

/-- The cause of a reset by the level of BKOK at its start (R179 Table 2). -/
def causeOf (kept : ResetCause) (bkok : Bool) : ResetCause := if bkok then kept else .powerLost

/-- The hold-open outputs are released while a reset lasts (R138, R179). -/
def releaseOutputs (s : State) : State := { s with stations := vectorMap (fun r => { r with holdOpen := false }) s.stations }

/-- A reset begins that lasts until RESET_N is released (R179). DESIGN CHOICE (log entry 35): with retention lost the state is set
up afresh at this moment, so that a power-on within the reset which finds BKOK high keeps the empty records. -/
def beginReset (cause : ResetCause) (s : State) : State :=
  let s1 := if cause = .powerLost then setUpAfresh s else s
  { releaseOutputs s1 with resets := { s.resets with active := some cause } }

/-- A reset of no length: it begins and is left at the same moment. -/
def resetAtOnce (cause : ResetCause) (s : State) : State := leaveReset cause (beginReset cause s)

/-- Power-on (R179). RESET_N held low across it keeps the part in reset, with the power-on cause; so does a power-on within a
reset that lasts, whose cause is the newer one's (log entry 35). -/
def powerOn (bkok : Bool) (s : State) : State :=
  let cause := causeOf .powerKept bkok
  if s.resets.pinLow then beginReset cause s else resetAtOnce cause s

/-- RESET_N goes low (R179). -/
def assertReset (bkok : Bool) (s : State) : State :=
  if s.resets.pinLow then s
  else
    let s1 := { s with resets := { s.resets with pinLow := true } }
    if inReset s then s1 else beginReset (causeOf .pin bkok) s1

/-- RESET_N is released, which ends the reset (R179). -/
def releaseReset (s : State) : State :=
  let s1 := { s with resets := { s.resets with pinLow := false } }
  match s.resets.active with
  | some cause => if s.resets.pinLow then leaveReset cause s1 else s1
  | none => s1

/-- The reset of an accepted Restart begins (R173, R179). -/
def restartReset (bkok : Bool) (s : State) : State := resetAtOnce (causeOf .restart bkok) s

/-- A read-reply transaction ends (R168); that of a Restart's reply begins its reset (R173). -/
def takeReadReply (n : Nat) (bkok : Bool) (s : State) : State :=
  let s1 := readReplyEnd n s
  if s.link.replyReady && s.link.restartTimer.isSome then restartReset bkok s1 else s1

/-- The end of a read-reply transaction whose capture is past (R168); that of a Restart's reply begins its reset (R173). -/
def takeReplyFinish (n : Nat) (bkok : Bool) (s : State) : State :=
  let s1 := finishReply n s
  if sendsReply s.link && s.link.restartTimer.isSome then restartReset bkok s1 else s1

/-- The wait of an accepted Restart has run out (R173). DESIGN CHOICE (log entry 27): a read-reply transaction of the reply that
is still in progress then does not hold the reset back, and is lost to it (R164). -/
def takeRestartTimeout (bkok : Bool) (s : State) : State :=
  if timerDue s.link.restartTimer then restartReset bkok s else s

end Sys2Proof.Machine
end

