-- ==== Sys2Proof/Machine/Setup.lean ====
section
/-! DEFINITION. Parameters, the day number, the modes and the Timebase (R53, R170, R173 to R178, R181). -/

namespace Sys2Proof.Machine

/-! ### Parameters (R174 to R176) -/

/-- The range of a parameter (R174). -/
inductive ParamRange where
  | numeric (low high : Nat)
  | ratio
  | mask (bits : BitVec 16)
  | codes (count : Nat)
  deriving DecidableEq, Repr

/-- The ranges of the parameters 0..6 (R174 Table 1). -/
def siteRanges : List ParamRange :=
  [.mask 0xFF, .mask 0xF, .numeric 200 2000, .numeric 200 1000, .numeric 0 11, .numeric 0 95, .numeric 8000 40000]

/-- The ranges of the parameters 7..18. -/
def motionRanges : List ParamRange :=
  [.numeric 200 6000, .numeric 200 4000, .numeric 100 3000, .numeric 100 3000, .numeric 0 2000, .numeric 500 10000,
    .numeric 0 5000, .numeric 16 64, .numeric 0 10000, .numeric 10 600, .numeric 5 900, .numeric 1 600]

/-- The ranges of the parameters 19..29. -/
def faultRanges : List ParamRange :=
  [.codes 4, .codes 4, .codes 4, .codes 4, .codes 4, .codes 2, .numeric 100 10000, .numeric 0 20, .numeric 2 9,
    .numeric 1 15, .ratio]

/-- The ranges of the parameters 30..40. -/
def doorRanges : List ParamRange :=
  [.numeric 2 30, .numeric 30 3600, .numeric 1 30, .mask 0x3FF, .numeric 1 1000, .numeric 1 1000, .numeric 1 1000,
    .numeric 5 60, .numeric 1024 4000, .mask 0xFFFF, .mask 0xF]

/-- The ranges of the parameters 0..40 (R174 Table 1). -/
def paramRanges : List ParamRange := siteRanges ++ motionRanges ++ faultRanges ++ doorRanges

/-- The range of a parameter number. -/
def paramRange (n : Nat) : ParamRange := paramRanges.getD n (.numeric 0 65535)

/-- A value brought into its range (R175). -/
def ParamRange.clamp (r : ParamRange) (v : BitVec 16) : BitVec 16 :=
  match r with
  | .numeric low high => BitVec.ofNat 16 (max low (min high v.toNat))
  | .ratio => if v.toNat < 4 then 2 else if v.toNat < 6 then 4 else if v.toNat < 8 then 6 else 8
  | .mask bits => v &&& bits
  | .codes _ => v

/-- The value is none of the codes of a mode parameter (R175 step 1). -/
def ParamRange.badCode (r : ParamRange) (v : BitVec 16) : Bool :=
  match r with
  | .codes n => decide (n ≤ v.toNat)
  | .numeric _ _ | .ratio | .mask _ => false

/-- The parameter number, if it is one. -/
def paramOf (n : Nat) : Option (Fin 41) := if h : n < 41 then some ⟨n, h⟩ else none

/-- A word is stored (R174). -/
def storeParam (n : Fin 41) (v : BitVec 16) (s : State) : State :=
  { s with params := s.params.set n.val ⟨v, oddOnes v⟩ n.isLt }

/-- The location is a place of the station (R175 step 4). -/
def Location.atStation (z : Station) : Location → Bool
  | .lane y _ | .opening y | .face y | .outbound y => y == z
  | .slot | .crane _ => false

/-- An aisle that the new mask removes while a bin lives in it, or a station while a bin stands at it (R175 step 4). -/
def removesUsed (n : Fin 41) (v : BitVec 16) (s : State) : Bool :=
  if n = 0 then
    aisleList.any fun a => aislePresent s a && !v.getLsbD a.val && s.bins.any fun e => e.2.home.aisle == a
  else if n = 1 then
    stationList.any fun z => stationPresent s z && !v.getLsbD z.val && s.bins.any fun e => e.2.location.atStation z
  else false

/-- An aisle removed by the mask loses its suspension mark, and one added is IN_SERVICE (R95, R176). -/
def maskAisles (before s : State) : State :=
  aisleList.foldl (fun t a =>
    if aislePresent before a = aislePresent t a then t else setAisle a { aisleRec t a with suspension := .inService } t) s

/-- A station removed by the mask releases its output; where a close order stood, its zone has no more to wait for (R129,
R176). -/
def removeStation (z : Station) (s : State) : State :=
  let s1 := if (station s z).holdOpen then releaseShutter z s else s
  if (station s z).closeOrder then reportReleased z s1 else s1

/-- The stations after a change of their mask (R176): one added is set up as a station leaving a reset. -/
def maskStations (before s : State) : State :=
  stationList.foldl (fun t z =>
    match stationPresent before z, stationPresent t z with
    | true, false => removeStation z t
    | false, true => startStation z (resetStation z t)
    | _, _ => t) s

/-- What a change of a parameter does at once (R139, R176). -/
def paramEffect (n : Fin 41) (before s : State) : State :=
  if n = 0 then maskAisles before s
  else if n = 1 then maskStations before s
  else if n = 33 then reconcileAll s
  else s

/-- Set Parameter (R175, R176). -/
def runSetParameter (p : List Byte) (s : State) : Result :=
  let v : BitVec 16 := p.getD 1 0 ++ p.getD 2 0
  withSome (paramOf (byteAt p 0)) .badValue fun n =>
  let r := paramRange n.val
  refuseIf (r.badCode v || decide (1 < byteAt p 3)) .badValue <|
  refuseIf (oddOnes v != (byteAt p 3 == 1)) .parity <|
  refuseIf (decide (n.val ≤ 5) && s.mode == .service) .notInCommissioning <|
  let v' := r.clamp v
  refuseIf (removesUsed n v' s) .state <|
  .reply (if v' = v then .done else .doneClamped) (paramBytes ⟨v', oddOnes v'⟩)
    (eventOfAll (fun t => paramEffect n t (storeParam n v' t)) s)

/-- Read Parameter (R175). -/
def runReadParameter (p : List Byte) (s : State) : Result :=
  withSome (paramOf (byteAt p 0)) .badValue fun n => done (paramBytes (s.params.get n)) s

/-! ### The day number, Read Status and Restart (R53, R170, R173) -/

/-- Set Day (R53). -/
def runSetDay (p : List Byte) (s : State) : Result :=
  let d := wordAt p 0
  refuseIf (decide (d < s.day)) .dayBackward <| done (bytes 2 d) { s with day := d }

/-- Read Status (R170). -/
def runReadStatus (_ : List Byte) (s : State) : Result :=
  done (byte s.mode.code ++ byte s.resets.cause.code ++ bytes 2 s.day ++ byte (param s 0) ++ byte (param s 1))
    { s with link := { s.link with restarted := false } }

/-- Restart (R173): the reset waits for the reply to be read. -/
def runRestart (_ : List Byte) (s : State) : Result :=
  done [] { s with link := { s.link with restartTimer := some Config.restartWait } }

/-! ### The modes (R177, R178) -/

/-- Finish Commissioning (R177). -/
def runFinish (_ : List Byte) (s : State) : Result :=
  refuseIf (!aisleList.any (aislePresent s)) .state <|
  refuseIf (s.bins.any fun e => !aislePresent s e.2.home.aisle) .state <|
  done [] (eventOfAll (fun t => homeAll { t with mode := .service }) s)

/-- Every crane is taken OFFLINE and every zone's injections are removed (R178). DESIGN CHOICE (log entry 29): an aisle that is
SUSPENDING stays so, its leg dropped. DESIGN CHOICE (log entry 33): a zone acts on the release of an injected level, as for
Drill END (R151), so ALERT may pass to CLEAR. -/
def enterCommissioningMode (s : State) : State :=
  let s1 := aisleList.foldl (fun t a => takeOffline a t) { s with mode := .commissioning }
  stationList.foldl (fun t z => drillZone z .end_ t) s1

/-- Enter Commissioning (R178). -/
def runEnter (_ : List Byte) (s : State) : Result :=
  refuseIf (s.visits.any (fun e => isOpen e.2) || aisleList.any (fun a => (crane s a).carried.isSome)) .state <|
  done [] (eventOfAll enterCommissioningMode s)

/-! ### The Timebase (R181) -/

/-- A crane's timers after a tick. -/
def CraneRec.tick (c : CraneRec) : CraneRec :=
  { c with retryTimer := tickTimer c.retryTimer, restTimer := tickTimer c.restTimer }

/-- A station's timers after a tick. -/
def StationRec.tick (r : StationRec) : StationRec :=
  { r with
    crossing := r.crossing.map fun x => { x with timer := x.timer - 1 }
    travelTimer := tickTimer r.travelTimer
    faceTimer := tickTimer r.faceTimer
    lineTest := r.lineTest.map fun t => { t with elapsed := t.elapsed + 1 } }

/-- A tick (R181): the ms time counter rises by 1, every timer advances by 1 ms, and the prescaler starts again from 0 with
the clock kHz parameter as it now stands. -/
def tick (s : State) : State :=
  { s with
    time := ⟨0, param s 6, (s.time.ms + 1) % Config.msModulus⟩
    cranes := vectorMap CraneRec.tick s.cranes
    stations := vectorMap StationRec.tick s.stations
    zones := vectorMap (fun r => { r with holdTimer := tickTimer r.holdTimer }) s.zones
    inputs := vectorMap (fun c => { c with window := tickTimer c.window }) s.inputs
    link := { s.link with restartTimer := tickTimer s.link.restartTimer } }

/-- One CLKIN cycle (R181): the prescaler counts it, and gives a tick when it reaches its reload count. -/
def clockCycle (s : State) : State :=
  if s.time.prescaler + 1 < s.time.reload then { s with time := { s.time with prescaler := s.time.prescaler + 1 } }
  else tick s

end Sys2Proof.Machine
end

