-- ==== Sys2Proof/Machine/Events.lean ====
section
/-! DEFINITION. Events of the sensors, the timers and the fire-panel inputs as the blocks take them (R122, R126 to R129, R139,
R145). -/

namespace Sys2Proof.Machine

/-! ### Station sensors (R122, R128) -/

/-- A level at a station's pin changes. During a reset, and at a station that is not present, only the level is known;
otherwise the station acts on it, and a Line Test sees it (R119, R136, R179). -/
def onSensor (z : Station) (level : StationRec → StationRec) (act : State → State) (s : State) : State :=
  let s1 := modStation z level s
  if inReset s || !stationPresent s z then s1
  else settleZone s z (watchSensors z (act s1))

/-- A beam-blocked input marks the crossing in flight (R122). -/
def takeBeamBlocked (z : Station) (s : State) : State :=
  modStation z (fun r => { r with crossing := r.crossing.map fun x => { x with beamSeen := true } }) s

/-- A beam-clear input after the mark is the crossing's arrival (R122, R125). -/
def takeBeamClear (z : Station) (s : State) : State :=
  match (station s z).crossing with
  | some x => if x.beamSeen then crossingArrives z x s else s
  | none => s

/-- The closed limit is released, which Table 5 of R128 does not name. -/
def takeClosedReleased (s : State) : State := s

/-! ### Station timers (R126, R127, R128, R145) -/

/-- The crossing in flight whose crossing_max has passed. -/
def crossingDue (s : State) (z : Station) : Option CrossingRec := (station s z).crossing.filter (fun x => x.timer == 0)

/-- crossing_max expires (R126). -/
def takeCrossingMax (z : Station) (s : State) : State :=
  match crossingDue s z with
  | some x => jamCrossing z x s
  | none => s

/-- The face timer expires (R127). -/
def takeFaceTimer (z : Station) (s : State) : State :=
  if timerDue (station s z).faceTimer then
    stationAttention z (modStation z (fun r => { r with faceLong := true, faceTimer := none }) s)
  else s

/-- shutter_travel_max expires (R128). DESIGN CHOICE (log entry 12): at a station that is not present, one removed from the mask while
its shutter falls, the expiry changes nothing: the shutter stays CLOSING, with no SHUTTER_FAULT and no STATION bit. -/
def takeShutterTravel (z : Station) (s : State) : State :=
  if stationPresent s z && timerDue (station s z).travelTimer then takeTravelExpiry z s else s

/-- The hold timer expires, and the zone gives the forced close order (R145). -/
def takeHoldTimer (z : Station) (s : State) : State :=
  if timerDue (zone s z).holdTimer then
    let s1 := setZone z { zone s z with holdTimer := none } s
    if stationPresent s z then forceClose z s1 else s1
  else s

/-! ### Crane timers (R88, R105, R111) -/

/-- The deadline of the segment in flight passes (R105). -/
def takeDeadline (a : Aisle) (s : State) : State := if deadlineDue s (crane s a) then takeOverrun a s else s

/-- retry_delay has passed (R111). -/
def takeRetryDelay (a : Aisle) (s : State) : State := if timerDue (crane s a).retryTimer then takeRetry a s else s

/-- rest_after has passed in READY (R88). -/
def takeRestTimer (a : Aisle) (s : State) : State :=
  if (crane s a).state = .ready ∧ timerDue (crane s a).restTimer = true then takeRest a s else s

/-! ### Fire-panel inputs (R139, R140) -/

/-- The pin level of an input changes (R139). -/
def takeInputLevel (i : FireInput) (high : Bool) (s : State) : State :=
  let s1 := setConditioner i { conditioner s i with pinHigh := high } s
  if inReset s then s1 else reconcile i s1

/-- The deglitch window of an input expires: its present level is taken, and every zone acts on it (R139, R140). -/
def takeLevel (i : FireInput) (s : State) : State :=
  let s1 := setConditioner i { conditioner s i with taken := presentLevel s i, window := none } s
  stationList.foldl (fun t z => actOnLevels s z t) s1

def takeDeglitch (i : FireInput) (s : State) : State :=
  if timerDue (conditioner s i).window then takeLevel i s else s

end Sys2Proof.Machine
end

