-- ==== Sys2Proof/Machine/HostRows.lean ====
section
/-! DEFINITION. The meanings of the host link's rows: one for each command and each transaction (R164 to R173). A command is given
by its code, its parameter length, the modes that accept it (section 10.6 Table 3, R182 Table 2) and its own rule. -/

namespace Sys2Proof.Machine

/-- The outcome of a row that the part has taken. -/
abbrev Taken := Host.Outcome State Fault Refusal

/-- WRITE_COMMAND_DISCARDED (R165): a write at a busy link sets LATE. -/
def execWriteCommandDiscarded (_message : List Byte) (s : State) : Taken :=
  .next (outsideReset (fun t => if linkBusy t then setLate t else t) s)

/-- The answer to a write that framing or code alone refuses (R165 steps 1 and 2). -/
def refuseWrite (message : List Byte) (code : OutcomeCode) (s : State) : State :=
  if linkBusy s then setLate s else writeReply code [] (loadCommand message s)

/-- UNKNOWN_COMMAND (R165): the code of the message is not in Table 3. A message whose framing is wrong is BAD_LENGTH first. -/
def execUnknownCommand (code : Byte) (body : List Byte) (s : State) : Taken :=
  .next (outsideReset (fun t =>
    if knownCodes.contains code.toNat then t
    else refuseWrite (code :: body) (if badFraming (code :: body) then .badLength else .unknownCommand) t) s)

/-- COMMAND_WRITE_BAD_FRAMING (R165 step 1). -/
def execCommandWriteBadFraming (message : List Byte) (s : State) : Taken :=
  .next (outsideReset (fun t => if badFraming message then refuseWrite message .badLength t else t) s)

/-- READ_REPLY (R164, R168, R173). -/
def execReadReply (clocked : Nat) (bkok : Bool) (s : State) (part : ReadPart := .whole) : Taken :=
  .next (outsideReset (match part with
    | .whole => takeReadReply clocked bkok
    | .capture => capture captureReply
    | .finish => takeReplyFinish clocked bkok) s)

/-- READ_STATUS_TRANSACTION (R164, R169). -/
def execReadStatusTransaction (s : State) (part : ReadPart := .whole) : Taken :=
  .next (outsideReset (match part with
    | .whole => readStatusEnd
    | .capture => capture captureStatus
    | .finish => finishStatus) s)

/-- READ_AND_CLEAR_ATTENTION (R164, R171). -/
def execReadAndClearAttention (s : State) (part : ReadPart := .whole) : Taken :=
  .next (outsideReset (match part with
    | .whole => readAttentionEnd
    | .capture => capture captureAttention
    | .finish => finishAttention) s)

/-- READ_STATUS (R170). -/
def execReadStatus (body : List Byte) (s : State) : Taken :=
  .next (takeCommand 0x01 0 .both runReadStatus body s)

/-- READ_BIN (R5). -/
def execReadBin (body : List Byte) (s : State) : Taken :=
  .next (takeCommand 0x10 2 .both runReadBin body s)

/-- READ_SLOT (R5). -/
def execReadSlot (body : List Byte) (s : State) : Taken :=
  .next (takeCommand 0x11 4 .both runReadSlot body s)

/-- FIND_ITEM (R60). -/
def execFindItem (body : List Byte) (s : State) : Taken :=
  .next (takeCommand 0x12 6 .both runFindItem body s)

/-- READ_WITHDRAWAL_BUCKET (R61). -/
def execReadWithdrawalBucket (body : List Byte) (s : State) : Taken :=
  .next (takeCommand 0x13 2 .both runReadBucket body s)

/-- READ_VISIT (R44). -/
def execReadVisit (body : List Byte) (s : State) : Taken :=
  .next (takeCommand 0x14 2 .both runReadVisit body s)

/-- READ_CRANE (R117). -/
def execReadCrane (body : List Byte) (s : State) : Taken :=
  .next (takeCommand 0x15 1 .both runReadCrane body s)

/-- READ_STATION (R137). -/
def execReadStation (body : List Byte) (s : State) : Taken :=
  .next (takeCommand 0x16 1 .both runReadStation body s)

/-- READ_ZONE (R152). -/
def execReadZone (body : List Byte) (s : State) : Taken :=
  .next (takeCommand 0x17 1 .both runReadZone body s)

/-- READ_PARAMETER (R175). -/
def execReadParameter (body : List Byte) (s : State) : Taken :=
  .next (takeCommand 0x18 1 .both runReadParameter body s)

/-- ADMIT_BIN (R7, R8). -/
def execAdmitBin (body : List Byte) (s : State) : Taken :=
  .next (takeCommand 0x20 10 .both runAdmitBin body s)

/-- ALTER_BIN (R9). -/
def execAlterBin (body : List Byte) (s : State) : Taken :=
  .next (takeCommand 0x21 7 .both runAlterBin body s)

/-- RETIRE_BIN (R10). -/
def execRetireBin (body : List Byte) (s : State) : Taken :=
  .next (takeCommand 0x22 2 .service runRetireBin body s)

/-- BLOCK_SLOT (R11). -/
def execBlockSlot (body : List Byte) (s : State) : Taken :=
  .next (takeCommand 0x23 4 .both runBlockSlot body s)

/-- UNBLOCK_SLOT (R11). -/
def execUnblockSlot (body : List Byte) (s : State) : Taken :=
  .next (takeCommand 0x24 4 .both runUnblockSlot body s)

/-- SET_PROTECTION (R6). -/
def execSetProtection (body : List Byte) (s : State) : Taken :=
  .next (takeCommand 0x25 2 .both runSetProtection body s)

/-- LEND (R54 to R56). -/
def execLend (body : List Byte) (s : State) : Taken :=
  .next (takeCommand 0x30 11 .service runLend body s)

/-- RETURN (R64, R65). -/
def execReturn (body : List Byte) (s : State) : Taken :=
  .next (takeCommand 0x31 7 .service runReturn body s)

/-- REFILE (R68 to R70). -/
def execRefile (body : List Byte) (s : State) : Taken :=
  .next (takeCommand 0x32 11 .service runRefile body s)

/-- FETCH (R38). -/
def execFetch (body : List Byte) (s : State) : Taken :=
  .next (takeCommand 0x33 4 .service runFetch body s)

/-- MOVE_HOME (R15). -/
def execMoveHome (body : List Byte) (s : State) : Taken :=
  .next (takeCommand 0x34 6 .service runMoveHome body s)

/-- CANCEL_TASK (R42). -/
def execCancelTask (body : List Byte) (s : State) : Taken :=
  .next (takeCommand 0x35 2 .service runCancelTask body s)

/-- CANCEL_VISIT (R43). -/
def execCancelVisit (body : List Byte) (s : State) : Taken :=
  .next (takeCommand 0x36 1 .service runCancelVisit body s)

/-- RETIRE_VISIT (R44). -/
def execRetireVisit (body : List Byte) (s : State) : Taken :=
  .next (takeCommand 0x37 1 .service runRetireVisit body s)

/-- WRITE_OFF_ITEM (R62). -/
def execWriteOffItem (body : List Byte) (s : State) : Taken :=
  .next (takeCommand 0x38 6 .service runWriteOff body s)

/-- START_SCAN (R158). -/
def execStartScan (body : List Byte) (s : State) : Taken :=
  .next (takeCommand 0x40 11 .both runStartScan body s)

/-- READ_SCAN_RESULTS (R161). -/
def execReadScanResults (body : List Byte) (s : State) : Taken :=
  .next (takeCommand 0x41 0 .both runReadScan body s)

/-- STOP_SCAN (R162). -/
def execStopScan (body : List Byte) (s : State) : Taken :=
  .next (takeCommand 0x42 0 .both runStopScan body s)

/-- SUSPEND_AISLE (R93). -/
def execSuspendAisle (body : List Byte) (s : State) : Taken :=
  .next (takeCommand 0x50 1 .service runSuspendAisle body s)

/-- RESUME_AISLE (R94). -/
def execResumeAisle (body : List Byte) (s : State) : Taken :=
  .next (takeCommand 0x51 1 .service runResumeAisle body s)

/-- CLEAR_CRANE (R113). -/
def execClearCrane (body : List Byte) (s : State) : Taken :=
  .next (takeCommand 0x52 1 .service runClearCrane body s)

/-- RESTORE_ZONE (R149, R150). -/
def execRestoreZone (body : List Byte) (s : State) : Taken :=
  .next (takeCommand 0x60 1 .service runRestoreZone body s)

/-- DRILL (R151). -/
def execDrill (body : List Byte) (s : State) : Taken :=
  .next (takeCommand 0x61 2 .service runDrill body s)

/-- LINE_TEST (R136). -/
def execLineTest (body : List Byte) (s : State) : Taken :=
  .next (takeCommand 0x68 1 .both runLineTest body s)

/-- REOPEN_STATION (R132). -/
def execReopenStation (body : List Byte) (s : State) : Taken :=
  .next (takeCommand 0x69 1 .service runReopenStation body s)

/-- SET_PARAMETER (R175, R176). -/
def execSetParameter (body : List Byte) (s : State) : Taken :=
  .next (takeCommand 0x70 4 .both runSetParameter body s)

/-- SET_DAY (R53). -/
def execSetDay (body : List Byte) (s : State) : Taken :=
  .next (takeCommand 0x71 2 .both runSetDay body s)

/-- FINISH_COMMISSIONING (R177). -/
def execFinishCommissioning (body : List Byte) (s : State) : Taken :=
  .next (takeCommand 0x72 0 .commissioning runFinish body s)

/-- ENTER_COMMISSIONING (R178). -/
def execEnterCommissioning (body : List Byte) (s : State) : Taken :=
  .next (takeCommand 0x73 0 .service runEnter body s)

/-- RESTART (R173). -/
def execRestart (body : List Byte) (s : State) : Taken :=
  .next (takeCommand 0x74 0 .both runRestart body s)

end Sys2Proof.Machine
end

