-- ==== Sys2Proof/Machine/FieldRows.lean ====
section
/-! DEFINITION. The meanings of the rows that come from outside the host link: resets and the tick, drive reports, panel
messages, sensors, timers, fire-panel inputs and scan steps. A report or expiry is taken only outside a reset (R179), and an
expiry acts only when its timer has run out. -/

namespace Sys2Proof.Machine

/-! ### Resets and the Timebase (R173, R179, R181) -/

/-- RESTART_TIMEOUT (R173). -/
def execRestartTimeout (bkok : Bool) (s : State) : Taken := .next (outsideReset (takeRestartTimeout bkok) s)

/-- POWER_ON (R179). -/
def execPowerOn (bkok : Bool) (s : State) : Taken := .next (powerOn bkok s)

/-- RESET_N_ASSERTED (R179). -/
def execResetAsserted (bkok : Bool) (s : State) : Taken := .next (assertReset bkok s)

/-- RESET_N_RELEASED (R179). -/
def execResetReleased (s : State) : Taken := .next (releaseReset s)

/-- TIMEBASE_TICK (R181). -/
def execTimebaseTick (s : State) : Taken := .next (outsideReset tick s)

/-! ### Drive reports (R99, R183) -/

/-- A report of a crane with what it makes possible in its zone. -/
def craneEvent (a : Aisle) (f : State → State) (s : State) : State := outsideReset (eventOf (zoneOf a) f) s

/-- MARK (R101). An axis outside its list discards the report (R183). -/
def execMark (a : Aisle) (axis index : Byte) (s : State) : Taken :=
  .next (craneEvent a
    (if axis = 0 ∨ axis = 1 then takeMark a (axis == 0) index.toNat else unexpectedReport a) s)

/-- ARRIVED (R100, R114). -/
def execArrived (a : Aisle) (s : State) : Taken := .next (craneEvent a (takeArrived a) s)

/-- FORK_DONE (R100, R12, R13, R15). -/
def execForkDone (a : Aisle) (s : State) : Taken := .next (craneEvent a (takeForkDone a) s)

/-- HOMED (R112). -/
def execHomed (a : Aisle) (s : State) : Taken := .next (craneEvent a (takeHomed a) s)

/-- CURRENT_LIMIT (R107). -/
def execCurrentLimit (a : Aisle) (s : State) : Taken := .next (craneEvent a (takeCurrentLimit a) s)

/-- NO_LOAD (R107). -/
def execNoLoad (a : Aisle) (s : State) : Taken := .next (craneEvent a (takeNoLoad a) s)

/-- SUPPLY (R109). A condition outside its list discards the report (R183). -/
def execSupply (a : Aisle) (condition : Byte) (s : State) : Taken :=
  .next (craneEvent a (match supplyOfByte condition with
    | some c => takeSupply a c
    | none => unexpectedReport a) s)

/-- DRIVE_REPORT_DISCARDED (R183). -/
def execDriveReportDiscarded (a : Aisle) (s : State) : Taken := .next (outsideReset (unexpectedReport a) s)

/-- DRIVE_BYTE_TIMEOUT (R183). -/
def execDriveByteTimeout (a : Aisle) (s : State) : Taken := .next (outsideReset (unexpectedReport a) s)

/-! ### Crane timers -/

/-- DEADLINE_EXPIRY (R105). -/
def execDeadlineExpiry (a : Aisle) (s : State) : Taken := .next (craneEvent a (takeDeadline a) s)

/-- RETRY_DELAY_EXPIRY (R111). -/
def execRetryDelayExpiry (a : Aisle) (s : State) : Taken := .next (craneEvent a (takeRetryDelay a) s)

/-- REST_TIMER_EXPIRY (R88). -/
def execRestTimerExpiry (a : Aisle) (s : State) : Taken := .next (outsideReset (takeRestTimer a) s)

/-! ### Panel messages (R133, R134) -/

/-- A message that reaches a station's panel link outside a reset. -/
def panelEvent (z : Station) (act : State → State) (s : State) : State := outsideReset (onPanel z act) s

/-- ITEM_SCAN (R39, R76). -/
def execItemScan (z : Station) (key : ItemKey) (s : State) : Taken := .next (panelEvent z (takeMessage z (takeScan z key)) s)

/-- DONE (R40); the withdraw crossing may start at once (R124). -/
def execPanelDone (z : Station) (s : State) : Taken :=
  .next (panelEvent z (eventOf z (takeMessage z (takePanelDone z))) s)

/-- KEEP (R127). -/
def execKeep (z : Station) (s : State) : Taken := .next (panelEvent z (takeMessage z (takeKeep z)) s)

/-- PROBLEM (R41). A code outside its list discards the message (R183). -/
def execProblem (z : Station) (code : Byte) (s : State) : Taken :=
  .next (panelEvent z (match problemOfByte code with
    | some c => takeMessage z (takeProblem z c)
    | none => discardMessage z) s)

/-- PANEL_MESSAGE_DISCARDED (R133). -/
def execPanelMessageDiscarded (z : Station) (s : State) : Taken := .next (panelEvent z (discardMessage z) s)

/-- PANEL_BYTE_TIMEOUT (R133). -/
def execPanelByteTimeout (z : Station) (s : State) : Taken := .next (panelEvent z (discardMessage z) s)

/-! ### Station sensors and timers (R122 to R130) -/

/-- BEAM_BLOCKED (R122). -/
def execBeamBlocked (z : Station) (s : State) : Taken :=
  .next (onSensor z (fun r => { r with beam := true }) (takeBeamBlocked z) s)

/-- BEAM_CLEAR (R122, R125). -/
def execBeamClear (z : Station) (s : State) : Taken :=
  .next (onSensor z (fun r => { r with beam := false }) (takeBeamClear z) s)

/-- OPEN_LIMIT_ASSERTED (R128). -/
def execOpenLimitAsserted (z : Station) (s : State) : Taken :=
  .next (onSensor z (fun r => { r with openLimit := true }) (takeOpenAsserted z) s)

/-- OPEN_LIMIT_RELEASED (R128). -/
def execOpenLimitReleased (z : Station) (s : State) : Taken :=
  .next (onSensor z (fun r => { r with openLimit := false }) (takeOpenReleased z) s)

/-- CLOSED_LIMIT_ASSERTED (R128). -/
def execClosedLimitAsserted (z : Station) (s : State) : Taken :=
  .next (onSensor z (fun r => { r with closedLimit := true }) (takeClosedAsserted z) s)

/-- CLOSED_LIMIT_RELEASED (R128). -/
def execClosedLimitReleased (z : Station) (s : State) : Taken :=
  .next (onSensor z (fun r => { r with closedLimit := false }) takeClosedReleased s)

/-- CROSSING_MAX_EXPIRY (R126). -/
def execCrossingMaxExpiry (z : Station) (s : State) : Taken := .next (outsideReset (eventOf z (takeCrossingMax z)) s)

/-- FACE_TIMER_EXPIRY (R127). -/
def execFaceTimerExpiry (z : Station) (s : State) : Taken := .next (outsideReset (takeFaceTimer z) s)

/-- SHUTTER_TRAVEL_EXPIRY (R128). -/
def execShutterTravelExpiry (z : Station) (s : State) : Taken := .next (outsideReset (eventOf z (takeShutterTravel z)) s)

/-- HOLD_TIMER_EXPIRY (R145). -/
def execHoldTimerExpiry (z : Station) (s : State) : Taken := .next (outsideReset (eventOf z (takeHoldTimer z)) s)

/-- LINE_TEST_DRIVE (R136). -/
def execLineTestDrive (z : Station) (lineLow : Bool) (s : State) : Taken := .next (outsideReset (driveLine z lineLow) s)

/-- LINE_TEST_END (R136). -/
def execLineTestEnd (z : Station) (readHigh : Bool) (s : State) : Taken :=
  .next (outsideReset (finishLineTest z readHigh) s)

/-! ### Fire-panel inputs (R139) -/

/-- INPUT_LEVEL_CHANGE (R139). -/
def execInputLevelChange (i : FireInput) (high : Bool) (s : State) : Taken := .next (takeInputLevel i high s)

/-- DEGLITCH_WINDOW_EXPIRY (R139). -/
def execDeglitchWindowExpiry (i : FireInput) (s : State) : Taken := .next (outsideReset (eventOfAll (takeDeglitch i)) s)

/-! ### Scan steps (R71, R159) -/

/-- PLACEMENT_SEARCH_STEP (R71 to R73). -/
def execPlacementSearchStep (s : State) : Taken := .next (outsideReset stepSearch s)

/-- SCAN_STEP (R159, R160). -/
def execScanStep (s : State) : Taken := .next (outsideReset stepQuery s)

end Sys2Proof.Machine
end

