-- ==== Sys2Proof/Machine/Dispatch.lean ====
section
/-! DEFINITION. The meaning of every row: one arm for each constructor of Instr. -/

namespace Sys2Proof.Machine

def exec (i : Instr) (s : State) : Host.Outcome State Fault Refusal :=
  match i with
  | .writeCommandDiscarded message => Sys2Proof.Machine.execWriteCommandDiscarded message s
  | .unknownCommand code body => Sys2Proof.Machine.execUnknownCommand code body s
  | .readReply clocked bkok part => Sys2Proof.Machine.execReadReply clocked bkok s part
  | .readStatusTransaction part => Sys2Proof.Machine.execReadStatusTransaction s part
  | .readAndClearAttention part => Sys2Proof.Machine.execReadAndClearAttention s part
  | .readStatus body => Sys2Proof.Machine.execReadStatus body s
  | .readBin body => Sys2Proof.Machine.execReadBin body s
  | .readSlot body => Sys2Proof.Machine.execReadSlot body s
  | .findItem body => Sys2Proof.Machine.execFindItem body s
  | .readWithdrawalBucket body => Sys2Proof.Machine.execReadWithdrawalBucket body s
  | .readVisit body => Sys2Proof.Machine.execReadVisit body s
  | .readCrane body => Sys2Proof.Machine.execReadCrane body s
  | .readStation body => Sys2Proof.Machine.execReadStation body s
  | .readZone body => Sys2Proof.Machine.execReadZone body s
  | .readParameter body => Sys2Proof.Machine.execReadParameter body s
  | .admitBin body => Sys2Proof.Machine.execAdmitBin body s
  | .alterBin body => Sys2Proof.Machine.execAlterBin body s
  | .retireBin body => Sys2Proof.Machine.execRetireBin body s
  | .blockSlot body => Sys2Proof.Machine.execBlockSlot body s
  | .unblockSlot body => Sys2Proof.Machine.execUnblockSlot body s
  | .setProtection body => Sys2Proof.Machine.execSetProtection body s
  | .lend body => Sys2Proof.Machine.execLend body s
  | .returnItem body => Sys2Proof.Machine.execReturn body s
  | .refile body => Sys2Proof.Machine.execRefile body s
  | .fetch body => Sys2Proof.Machine.execFetch body s
  | .moveHome body => Sys2Proof.Machine.execMoveHome body s
  | .cancelTask body => Sys2Proof.Machine.execCancelTask body s
  | .cancelVisit body => Sys2Proof.Machine.execCancelVisit body s
  | .retireVisit body => Sys2Proof.Machine.execRetireVisit body s
  | .writeOffItem body => Sys2Proof.Machine.execWriteOffItem body s
  | .startScan body => Sys2Proof.Machine.execStartScan body s
  | .readScanResults body => Sys2Proof.Machine.execReadScanResults body s
  | .stopScan body => Sys2Proof.Machine.execStopScan body s
  | .suspendAisle body => Sys2Proof.Machine.execSuspendAisle body s
  | .resumeAisle body => Sys2Proof.Machine.execResumeAisle body s
  | .clearCrane body => Sys2Proof.Machine.execClearCrane body s
  | .restoreZone body => Sys2Proof.Machine.execRestoreZone body s
  | .drill body => Sys2Proof.Machine.execDrill body s
  | .lineTest body => Sys2Proof.Machine.execLineTest body s
  | .reopenStation body => Sys2Proof.Machine.execReopenStation body s
  | .setParameter body => Sys2Proof.Machine.execSetParameter body s
  | .setDay body => Sys2Proof.Machine.execSetDay body s
  | .finishCommissioning body => Sys2Proof.Machine.execFinishCommissioning body s
  | .enterCommissioning body => Sys2Proof.Machine.execEnterCommissioning body s
  | .restart body => Sys2Proof.Machine.execRestart body s
  | .restartTimeout bkok => Sys2Proof.Machine.execRestartTimeout bkok s
  | .powerOn bkok => Sys2Proof.Machine.execPowerOn bkok s
  | .resetAsserted bkok => Sys2Proof.Machine.execResetAsserted bkok s
  | .resetReleased => Sys2Proof.Machine.execResetReleased s
  | .timebaseTick => Sys2Proof.Machine.execTimebaseTick s
  | .mark aisle axis index => Sys2Proof.Machine.execMark aisle axis index s
  | .arrived aisle => Sys2Proof.Machine.execArrived aisle s
  | .forkDone aisle => Sys2Proof.Machine.execForkDone aisle s
  | .homed aisle => Sys2Proof.Machine.execHomed aisle s
  | .currentLimit aisle => Sys2Proof.Machine.execCurrentLimit aisle s
  | .noLoad aisle => Sys2Proof.Machine.execNoLoad aisle s
  | .supply aisle condition => Sys2Proof.Machine.execSupply aisle condition s
  | .driveReportDiscarded aisle => Sys2Proof.Machine.execDriveReportDiscarded aisle s
  | .driveByteTimeout aisle => Sys2Proof.Machine.execDriveByteTimeout aisle s
  | .deadlineExpiry aisle => Sys2Proof.Machine.execDeadlineExpiry aisle s
  | .retryDelayExpiry aisle => Sys2Proof.Machine.execRetryDelayExpiry aisle s
  | .restTimerExpiry aisle => Sys2Proof.Machine.execRestTimerExpiry aisle s
  | .itemScan station key => Sys2Proof.Machine.execItemScan station key s
  | .panelDone station => Sys2Proof.Machine.execPanelDone station s
  | .keep station => Sys2Proof.Machine.execKeep station s
  | .problem station code => Sys2Proof.Machine.execProblem station code s
  | .panelMessageDiscarded station => Sys2Proof.Machine.execPanelMessageDiscarded station s
  | .panelByteTimeout station => Sys2Proof.Machine.execPanelByteTimeout station s
  | .beamBlocked station => Sys2Proof.Machine.execBeamBlocked station s
  | .beamClear station => Sys2Proof.Machine.execBeamClear station s
  | .crossingMaxExpiry station => Sys2Proof.Machine.execCrossingMaxExpiry station s
  | .faceTimerExpiry station => Sys2Proof.Machine.execFaceTimerExpiry station s
  | .openLimitAsserted station => Sys2Proof.Machine.execOpenLimitAsserted station s
  | .openLimitReleased station => Sys2Proof.Machine.execOpenLimitReleased station s
  | .closedLimitAsserted station => Sys2Proof.Machine.execClosedLimitAsserted station s
  | .closedLimitReleased station => Sys2Proof.Machine.execClosedLimitReleased station s
  | .shutterTravelExpiry station => Sys2Proof.Machine.execShutterTravelExpiry station s
  | .holdTimerExpiry zone => Sys2Proof.Machine.execHoldTimerExpiry zone s
  | .lineTestDrive station lineLow => Sys2Proof.Machine.execLineTestDrive station lineLow s
  | .lineTestEnd station readHigh => Sys2Proof.Machine.execLineTestEnd station readHigh s
  | .inputLevelChange input high => Sys2Proof.Machine.execInputLevelChange input high s
  | .deglitchWindowExpiry input => Sys2Proof.Machine.execDeglitchWindowExpiry input s
  | .placementSearchStep => Sys2Proof.Machine.execPlacementSearchStep s
  | .scanStep => Sys2Proof.Machine.execScanStep s
  | .commandWriteBadFraming message => Sys2Proof.Machine.execCommandWriteBadFraming message s

end Sys2Proof.Machine
end

