-- ==== Sys2Proof/Machine/Step.lean ====
section
/-! DEFINITION. One step: the command at the front of the queue is taken; on an empty queue one CLKIN cycle passes (R181). -/

namespace Sys2Proof.Machine

/-- With no command waiting, the part counts one CLKIN cycle, or stands still in a reset that lasts. DESIGN CHOICE (log entry
3). -/
def idleStep (s : State) : State := outsideReset clockCycle s

/-- One step. -/
def step (s : State) : Host.Outcome State Fault Refusal :=
  match s.pending with
  | [] => .next (idleStep s)
  | c :: rest => exec c { s with pending := rest }

/-- The command that a word spells is put at the front of the queue. No row of the table has bits, so no word spells one. -/
def State.withFetchWord (s : State) (nbits w : Nat) : State :=
  match decodeTableWord nbits w with
  | some c => { s with pending := c :: s.pending }
  | none => s

end Sys2Proof.Machine
end

