-- ==== Sys2Proof/Machine/Transactions.lean ====
section
/-! DEFINITION. A whole transaction of the host link, from the bytes the host sends (R164). -/

namespace Sys2Proof.Machine

/-- A whole transaction: the access code selects the row that is taken at the release of HSEL_N; any other transaction is
ignored, and outside a reset the part sends 0x00 for every byte clocked, the first among them (R164). -/
def takeTransaction (bkok : Bool) (sent : List Byte) (s : State) : Host.Outcome State Fault Refusal :=
  match decodeTransaction bkok sent with
  | some i => exec i s
  | none => .next (outsideReset (ignoredTransaction sent.length) s)

end Sys2Proof.Machine
end

