-- ==== Sys2Proof/Safety.lean ====
section
/-! DEFINITION. What a safe run is on this block, in the terms its statements use: the part never stops, and the laws of the manual
that its records obey. -/

namespace Sys2Proof.Machine

/-- A step goes on. -/
def goesOn (s : State) : Prop := ∃ t, step s = .next t

/-- The tables of the Record Memory are in canonical form: one record for a number, numbers rising and within range (R1, R4,
R22, R46), and no EMPTY slot is listed. -/
def State.wf (s : State) : Bool :=
  tableWf Config.binCount s.bins && tableWf 18432 s.slots && tableWf Config.visitCount s.visits &&
    tableWf Config.bucketCount s.withdrawals && s.slots.all fun e => e.2 != .empty

/-- The law of R147: while a zone is SEALED or AWAIT_RESTORE, its station's hold-open output is released. -/
def sealedLaw (s : State) : Prop :=
  ∀ z : Station, (zone s z).state = .sealed ∨ (zone s z).state = .awaitRestore → (station s z).holdOpen = false

/-- The law of R147 with what makes every step keep it: the output is released too while the zone is SHUTDOWN with its
station's release reported (R145), while the shutter is CLOSING or CLOSED (R128), and at a station that is not present
(R119). -/
def shutterLaw (s : State) : Prop :=
  ∀ z : Station,
    ((zone s z).state = .sealed ∨ (zone s z).state = .awaitRestore ∨
      ((zone s z).state = .shutdown ∧ (zone s z).released = true) ∨ (station s z).shutter = .closing ∨
      (station s z).shutter = .closed ∨ stationPresent s z = false) → (station s z).holdOpen = false

/-- The laws of the Link Interface (R164 to R166, R168, R171, R173): never both CMD_BUSY and REPLY_READY; the command buffer
holds at most 32 bytes, and none without CMD_BUSY; the reply buffer holds a message of an outcome code, its length and its
data exactly while REPLY_READY is set; a wait for a Restart's reply ends with the reply; and the positions of the attention
summary without an event read 0. -/
structure LinkLaw (l : LinkRec) : Prop where
  serial    : l.cmdBusy = true → l.replyReady = false
  command   : l.command.length ≤ 32
  noCommand : l.cmdBusy = false → l.command = []
  noReply   : l.replyReady = false → l.reply = []
  reply     : l.replyReady = true → ∃ (code : OutcomeCode) (data : List Byte),
    l.reply = code.byte :: BitVec.ofNat 8 data.length :: data
  restart   : l.restartTimer.isSome = true → l.replyReady = true
  summary   : ∀ i : Nat, 20 ≤ i → l.summary.getLsbD i = false

/-- The attention bit `i` is selected in the mask: bits 0..15 by parameter 39 and bits 16..19 by bits 0..3 of parameter 40
(R172, R182 Table 1). -/
def maskSelects (s : State) (i : Nat) : Bool :=
  if i < 16 then (s.params.get 39).value.getLsbD i else decide (i < 20) && (s.params.get 40).value.getLsbD (i - 16)

/-- A row that a part in a reset still sees: the resets and the levels at the pins. -/
def changesPin : Instr → Bool
  | .powerOn _ | .resetAsserted _ | .resetReleased | .beamBlocked _ | .beamClear _ | .openLimitAsserted _
  | .openLimitReleased _ | .closedLimitAsserted _ | .closedLimitReleased _ | .inputLevelChange _ _ => true
  | _ => false

/-- The law of the Withdrawal Table (R46, R49, R50): buckets 0..4,095, at least one of them empty, no key twice, and no empty
bucket on the probe path from a record's home bucket to its bucket. -/
structure ProbeLaw (t : Table WithdrawalRec) : Prop where
  form  : tableWf 4096 t = true
  space : ∃ i : Nat, i < 4096 ∧ tableGet t i = none
  once  : ∀ (i j : Nat) (r w : WithdrawalRec), tableGet t i = some r → tableGet t j = some w → r.key = w.key → i = j
  path  : ∀ (j : Nat) (r : WithdrawalRec), tableGet t j = some r → ∀ d : Nat,
    d ≤ (j + 4096 - homeBucket r.key) % 4096 → (tableGet t ((homeBucket r.key + d) % 4096)).isSome = true

/-- The order of R82 among outbound and relocation legs: `d` is ranked before `c`. `approach` gives the approach estimate. -/
def RanksBefore (s : State) (approach : Candidate → Nat) (d c : Candidate) : Prop :=
  (d.entry.urgent = true ∧ c.entry.urgent = false) ∨
  (d.entry.urgent = c.entry.urgent ∧
    ((isAged s d.entry = true ∧ isAged s c.entry = false) ∨
    (isAged s d.entry = true ∧ isAged s c.entry = true ∧ d.entry.created < c.entry.created) ∨
    (isAged s d.entry = isAged s c.entry ∧ (isAged s c.entry = true → d.entry.created = c.entry.created) ∧
      (c.entry.priority < d.entry.priority ∨
        (d.entry.priority = c.entry.priority ∧
          (approach d < approach c ∨ (approach d = approach c ∧ d.number < c.number)))))))

/-! ### The host link -/

/-- The link can take a command: the part is not in a reset that lasts, and CMD_BUSY and REPLY_READY are clear (R165). -/
abbrev linkIdle (s : State) : Prop := inReset s = false ∧ linkBusy s = false

/-- The bytes after the command code of a message that carries the parameters `p`: the length byte and the parameters (R165). -/
def commandBody (p : List Byte) : List Byte := BitVec.ofNat 8 p.length :: p

/-- How a command message must look: its parameter length (R182 Table 2) and the modes that accept it (section 10.6
Table 3), with the bytes after its code. -/
structure CommandShape where
  length : Nat
  modes  : Modes
  body   : List Byte
  deriving DecidableEq, Repr

/-- The shape of each command; the other rows are no command of the table. -/
def commandShape (i : Instr) : Option CommandShape :=
  match i with
  | .readStatus body => some ⟨0, .both, body⟩
  | .readBin body => some ⟨2, .both, body⟩
  | .readSlot body => some ⟨4, .both, body⟩
  | .findItem body => some ⟨6, .both, body⟩
  | .readWithdrawalBucket body => some ⟨2, .both, body⟩
  | .readVisit body => some ⟨2, .both, body⟩
  | .readCrane body => some ⟨1, .both, body⟩
  | .readStation body => some ⟨1, .both, body⟩
  | .readZone body => some ⟨1, .both, body⟩
  | .readParameter body => some ⟨1, .both, body⟩
  | .admitBin body => some ⟨10, .both, body⟩
  | .alterBin body => some ⟨7, .both, body⟩
  | .retireBin body => some ⟨2, .service, body⟩
  | .blockSlot body => some ⟨4, .both, body⟩
  | .unblockSlot body => some ⟨4, .both, body⟩
  | .setProtection body => some ⟨2, .both, body⟩
  | .lend body => some ⟨11, .service, body⟩
  | .returnItem body => some ⟨7, .service, body⟩
  | .refile body => some ⟨11, .service, body⟩
  | .fetch body => some ⟨4, .service, body⟩
  | .moveHome body => some ⟨6, .service, body⟩
  | .cancelTask body => some ⟨2, .service, body⟩
  | .cancelVisit body => some ⟨1, .service, body⟩
  | .retireVisit body => some ⟨1, .service, body⟩
  | .writeOffItem body => some ⟨6, .service, body⟩
  | .startScan body => some ⟨11, .both, body⟩
  | .readScanResults body => some ⟨0, .both, body⟩
  | .stopScan body => some ⟨0, .both, body⟩
  | .suspendAisle body => some ⟨1, .service, body⟩
  | .resumeAisle body => some ⟨1, .service, body⟩
  | .clearCrane body => some ⟨1, .service, body⟩
  | .restoreZone body => some ⟨1, .service, body⟩
  | .drill body => some ⟨2, .service, body⟩
  | .lineTest body => some ⟨1, .both, body⟩
  | .reopenStation body => some ⟨1, .service, body⟩
  | .setParameter body => some ⟨4, .both, body⟩
  | .setDay body => some ⟨2, .both, body⟩
  | .finishCommissioning body => some ⟨0, .commissioning, body⟩
  | .enterCommissioning body => some ⟨0, .service, body⟩
  | .restart body => some ⟨0, .both, body⟩
  | _ => none

/-- The length byte and the count of bytes received fit a shape (R165 step 3). -/
def CommandShape.fits (c : CommandShape) : Bool := byteAt c.body 0 == c.length && c.body.length == c.length + 1

/-- A command that is refused by the first failing check of a list answers `code`: each check is given by the condition under
which it fails and the code it answers, and every check before the one that answers `code` passes. -/
def FirstFailing : List (Prop × OutcomeCode) → OutcomeCode → Prop
  | [], _ => False
  | (fails, answer) :: rest, code => (fails ∧ code = answer) ∨ (¬fails ∧ FirstFailing rest code)

/-- The checks of the zone and the aisle that the work commands share (R54 steps 5 and 6). -/
def placeChecks (s : State) (a : Aisle) : List (Prop × OutcomeCode) :=
  [(zoneClosed s (zoneOf a) = true, .zoneClosed), (service s a ≠ .inService, .aisleOut)]

/-- The visit rules as the last checks of a work command (R37). -/
def visitChecks (s : State) (r : BinRec) : List (Prop × OutcomeCode) :=
  [(visitRule s r = some .tableFull, .tableFull), (visitRule s r = some .binBusy, .binBusy),
    (visitRule s r = some .tasksFull, .tasksFull)]

/-! ### What an event of one zone leaves alone -/

/-- The part of the state that no event of a crane, a station or a zone changes: the Withdrawal Table and its counts, the
settings, the fire-panel inputs, the scan channels, the time, the reset source and the queue. -/
structure Ledger where
  withdrawals  : Table WithdrawalRec
  recordCount  : Nat
  pendingLends : Nat
  protection   : BitVec 16
  day          : Nat
  mode         : Mode
  params       : Vector ParamWord 41
  inputs       : Vector Conditioner 10
  chanQ        : ChannelRec
  chanP        : ChannelRec
  search       : SearchRec
  time         : TimebaseRec
  resets       : ResetRec
  pending      : List Instr

/-- The ledger of a state. -/
def State.ledger (s : State) : Ledger :=
  ⟨s.withdrawals, s.recordCount, s.pendingLends, s.protection, s.day, s.mode, s.params, s.inputs, s.chanQ, s.chanP, s.search,
    s.time, s.resets, s.pending⟩

/-- A bin record apart from the bin's place. -/
def BinRec.books (r : BinRec) : BinRec := { r with location := .slot }

/-- A visit record apart from what the moves of its bin change: state, hold and reservation. -/
def VisitRec.books (v : VisitRec) : VisitRec := { v with state := .queued, hold := .none, reservation := false }

/-- What an event of zone `z` that leads from `s` to `t` leaves alone: the ledger, the link but for attention bits that it sets,
the blocks of every other zone, and the messages already sent. With `strict` it also leaves the slots, and of the bins and
visits all but places, states, holds and reservations. -/
structure Frame (strict : Bool) (z : Station) (s t : State) : Prop where
  ledger    : t.ledger = s.ledger
  link      : t.link = { s.link with attention := t.link.attention }
  attention : ∀ i : Nat, s.link.attention.getLsbD i = true → t.link.attention.getLsbD i = true
  sent      : s.sent <+: t.sent
  cranes    : ∀ a : Aisle, zoneOf a ≠ z → crane t a = crane s a
  aisles    : ∀ a : Aisle, zoneOf a ≠ z → aisleRec t a = aisleRec s a
  forkMarks : ∀ a : Aisle, zoneOf a ≠ z → forkMark t a = forkMark s a
  stations  : ∀ y : Station, y ≠ z → station t y = station s y
  zones     : ∀ y : Station, y ≠ z → zone t y = zone s y
  crossings : ∀ y : Station, y ≠ z → crossingMark t y = crossingMark s y
  slots     : strict = true → t.slots = s.slots
  bins      : strict = true → ∀ n : Nat, (bin t n).map BinRec.books = (bin s n).map BinRec.books
  visits    : strict = true → ∀ n : Nat, (visit t n).map VisitRec.books = (visit s n).map VisitRec.books

/-- A crane record apart from the leg that a park order dropped. -/
def CraneRec.kept (c : CraneRec) : CraneRec := { c with dropped := none }

/-- A crane record apart from what the hand-over of a leg writes: its state, its legs, and all that the issue of a segment sets
anew (R81, R100). -/
def CraneRec.body (c : CraneRec) : CraneRec :=
  { c with
    state := .ready, leg := none, dropped := none, segment := none, estimate := none, deadline := 0, overran := false
    retryCount := 0, slipCount := 0, surgeCount := 0, timingH := .zero, timingV := .zero, speedTaken := false
    retryTimer := none, restTimer := none, col := none, level := none }

/-- A visit record apart from its state, its reservation and the hold reasons FIRE and RESET. -/
def VisitRec.lasting (v : VisitRec) : VisitRec :=
  { v with state := .queued, reservation := false, hold := { v.hold with fire := false, reset := false } }

/-- A station record apart from its lane, the crossing in flight and the travel of its shutter. -/
def StationRec.desk (r : StationRec) : StationRec :=
  { r with
    lane := [], resv0 := 0, resv1 := 0, waiting0 := false, waiting1 := false, lastGrant := .none, crossing := none
    openingBin := none, shutter := .open, travelTimer := none, reopenOrdered := false, reopenCommand := false
    holdOpen := false }

/-- A zone record apart from its state, its hold timer, the station's release and the marks of its cranes. -/
def ZoneRec.orders (r : ZoneRec) : ZoneRec :=
  { r with
    state := .clear, holdTimer := none, released := false, settled0 := false, settled1 := false, recovered0 := false
    recovered1 := false }

/-- What an event makes possible in zone `z` once its own effect stands, from `s` to `t`: the frame of the zone; a crane that
is not free goes on as it was, and one that is free takes a leg at most; no aisle changes its service state, and the desk side
of every station and the orders of every zone stay; a bin that is not in the lane of `z` stays where it is, and a visit keeps
all but its state, its reservation, FIRE and RESET. -/
structure Settled (z : Station) (s t : State) : Prop extends Frame true z s t where
  busy    : ∀ a : Aisle, isFree s a = false → (crane t a).kept = (crane s a).kept
  body    : ∀ a : Aisle, (crane t a).body = (crane s a).body
  service : ∀ a : Aisle, (aisleRec t a).suspension = (aisleRec s a).suspension
  desk    : ∀ y : Station, (station t y).desk = (station s y).desk
  orders  : ∀ y : Station, (zone t y).orders = (zone s y).orders
  places  : ∀ b : Nat, b ∉ (station s z).lane → bin t b = bin s b
  lasting : ∀ n : Nat, (visit t n).map VisitRec.lasting = (visit s n).map VisitRec.lasting

/-- The same for the four zones in turn. -/
def SettledAll (s t : State) : Prop :=
  ∃ x y w : State, Settled 0 s x ∧ Settled 1 x y ∧ Settled 2 y w ∧ Settled 3 w t

/-- An event of zone `z` that found the state `before` answers `t` once its own effect, the state `u`, stands: `t` is what
`settleZone` makes of `u`, which `EventsSetOffWhatTheyAllow` spells out, and so all that `Settled` says holds of it. -/
def Settles (before : State) (z : Station) (u t : State) : Prop := t = settleZone before z u ∧ Settled z u t

/-- The same for an event of every zone, one after the other. -/
def SettlesAll (before u t : State) : Prop := t = settleAll before u ∧ SettledAll u t

end Sys2Proof.Machine
end

