-- ==== Sys2Proof/Certificates/Slice0/Obligations.lean ====
section
/-! DEFINITION. The statements for the provers. A command of the host link is written with its parameters `p`; `commandBody p` adds
the length byte. `writeReply code data t` is `t` with the reply written, REPLY_READY set, CMD_BUSY clear and the command
buffer empty (R165), so an equation with it says that nothing else of `t` changes. `Settles s z u t` says that an event of
zone `z`, taken in `s`, answers `t` once its own effect, the state `u`, stands: `t` is `settleZone s z u`. -/

open Sys2Proof Sys2Proof.Machine

/-! ### The queue, the link and the transactions -/

/-- A step takes the command at the front of the queue and runs it with the rest of the queue (the step of a block; the queue
is the model's own, log entry 1). -/
def Obligations.StepTakesTheFrontCommand : Prop :=
  ∀ (c : Instr) (rest : List Instr) (s : State), s.pending = c :: rest → step s = exec c { s with pending := rest }

/-- No step stops, and no row touches the commands that wait behind it. The manual names nothing that stops the part. The queue
is the model's own (log entry 1), and so is what a step does with an empty one (log entry 3). -/
def Obligations.EveryRowGoesOn : Prop :=
  (∀ s : State, goesOn s) ∧ ∀ (c : Instr) (s : State), ∃ t, exec c s = .next t ∧ t.pending = s.pending

/-- R165, first paragraph: a command write at a busy link is discarded, LATE is set and nothing else changes, whatever the
command is.

R167: while a Line Test or a placement search holds CMD_BUSY, a command write is discarded with LATE and the read actions are
served: each goes on, and leaves CMD_BUSY set, the command buffer as it is, and all but the link as it was. What they send is
said in `ReadReplySends` and `StatusAndAttentionAreSent`. -/
def Obligations.BusyLinkDiscardsAndServes : Prop :=
  (∀ s : State, inReset s = false → linkBusy s = true →
     (∀ (c : Instr) (m : List Byte), encodeMessage c = some m → WellFormed c = true →
       exec c s = .next { s with link := { s.link with late := true } }) ∧
     ∀ m : List Byte, exec (.writeCommandDiscarded m) s = .next { s with link := { s.link with late := true } }) ∧
  (∀ (n : Nat) (bkok : Bool) (s : State) (c : Instr), inReset s = false → s.link.cmdBusy = true →
     s.link.restartTimer = none → c = .readReply n bkok ∨ c = .readStatusTransaction ∨ c = .readAndClearAttention →
     ∃ t, exec c s = .next t ∧ t.link.cmdBusy = true ∧ t.link.command = s.link.command ∧ { t with link := s.link } = s)

/-- R165 steps 1 and 2: a message with wrong framing is answered BAD_LENGTH, and one with a code outside Table 3
UNKNOWN_COMMAND; nothing else changes.

R165 steps 3 and 4: a command whose length does not fit is answered BAD_LENGTH, and one that fits but is not accepted in the
part's mode NOT_IN_SERVICE or NOT_IN_COMMISSIONING; nothing else changes. -/
def Obligations.CommandsAreExamined : Prop :=
  (∀ s : State, linkIdle s →
     (∀ m : List Byte, m.length < 2 ∨ 32 < m.length →
       exec (.commandWriteBadFraming m) s = .next (writeReply .badLength [] s)) ∧
     ∀ (code : Byte) (body : List Byte), code.toNat ∉ knownCodes → 1 ≤ body.length → body.length ≤ 31 →
       exec (.unknownCommand code body) s = .next (writeReply .unknownCommand [] s)) ∧
  (∀ (c : Instr) (f : CommandShape) (s : State), commandShape c = some f → linkIdle s →
     (f.fits = false → exec c s = .next (writeReply .badLength [] s)) ∧
     (f.fits = true → f.modes = .service → s.mode = .commissioning →
       exec c s = .next (writeReply .notInService [] s)) ∧
     (f.fits = true → f.modes = .commissioning → s.mode = .service →
       exec c s = .next (writeReply .notInCommissioning [] s)))

/-- R168: a read-reply transaction of `n` bytes sends the reply, then 0x00 for every byte beyond it; at its end the reply buffer
is empty and REPLY_READY clear, however many bytes were clocked, and nothing else changes, but that the reset of a pending
Restart begins then (R173). With REPLY_READY clear it sends 0xFF for every byte and changes nothing. The bytes sent are the
model's own field `hostOut`.

R164: the message sent is the one captured when the access code is complete, and the buffer is emptied at the end of a
transaction that captured one. That a transaction is one row, or two, its capture and its end, is the model's choice (log
entry 7). -/
def Obligations.ReadReplySends : Prop :=
  (∀ (n : Nat) (bkok : Bool) (s : State), inReset s = false →
    (s.link.replyReady = true → ∃ t, exec (.readReply n bkok) s = .next t ∧
      t.link.hostOut = s.link.reply.take n ++ List.replicate (n - s.link.reply.length) 0x00 ∧ t.link.reply = [] ∧
      t.link.replyReady = false ∧
      (s.link.restartTimer = none → t = { s with link := { s.link with
        reply := [], replyReady := false, hostOut := t.link.hostOut } })) ∧
    (s.link.replyReady = false →
      exec (.readReply n bkok) s = .next { s with link := { s.link with hostOut := List.replicate n 0xFF } })) ∧
  ∀ (n : Nat) (bkok : Bool) (s : State), inReset s = false →
    (s.link.reading = none → exec (.readReply n bkok .capture) s = .next { s with link := { s.link with
      reading := some (.reply (if s.link.replyReady then some s.link.reply else none)) } }) ∧
    (∀ m u, s.link.reading = some (.reply (some m)) →
      u = { s with link := { s.link with
        reply := [], replyReady := false, reading := none
        hostOut := m.take n ++ List.replicate (n - m.length) 0x00 } } →
      (s.link.restartTimer = none → exec (.readReply n bkok .finish) s = .next u) ∧
      (s.link.restartTimer.isSome = true → exec (.readReply n bkok .finish) s =
        .next (resetAtOnce (if bkok then .restart else .powerLost) u))) ∧
    (s.link.reading = some (.reply none) → exec (.readReply n bkok .finish) s = .next { s with link := { s.link with
      reading := none, hostOut := List.replicate n 0xFF } })

/-- R169, R172: a read-status transaction sends the status byte as it stands and clears LATE. ATTN is set exactly while a bit is
set in the summary and selected in the mask.

R171: a read-and-clear transaction sends the 24 bits of the summary, bit 23 first, and clears exactly the bits it sent: the
bytes hold every set bit, and with nothing in between none is left.

R169, R171: with its capture and its end apart, LATE and the bits captured stay set until the end and are cleared then; what
is set after the capture, be it one of them again, stays set. The bytes sent are the model's own field `hostOut`, and that a
transaction is one row, or two, is its choice (log entry 7). -/
def Obligations.StatusAndAttentionAreSent : Prop :=
  (∀ s : State, inReset s = false → ∃ b : Byte,
     exec .readStatusTransaction s = .next { s with link := { s.link with hostOut := [b], late := false } } ∧
     (s.link.reading = none → exec (.readStatusTransaction .capture) s = .next { s with link := { s.link with
       hostOut := [b], late := false, reading := some (.status s.link.late) } }) ∧
     b.getLsbD 0 = s.link.cmdBusy ∧ b.getLsbD 1 = s.link.replyReady ∧
     (b.getLsbD 2 = true ↔ ∃ i : Nat, s.link.summary.getLsbD i = true ∧ maskSelects s i = true) ∧
     b.getLsbD 3 = s.link.lateFlag ∧ (b.getLsbD 4 = true ↔ s.mode = .commissioning) ∧ b.getLsbD 5 = s.link.restarted ∧
     b.getLsbD 6 = false ∧ b.getLsbD 7 = false) ∧
  (∀ s : State, inReset s = false → ∃ b2 b1 b0 : Byte,
     exec .readAndClearAttention s = .next { s with link := { s.link with hostOut := [b2, b1, b0], attention := 0 } } ∧
     (s.link.reading = none → exec (.readAndClearAttention .capture) s = .next { s with link := { s.link with
       hostOut := [b2, b1, b0], attention := 0, reading := some (.attention s.link.attention) } }) ∧
     ∀ i : Nat, i < 8 → b0.getLsbD i = s.link.summary.getLsbD i ∧ b1.getLsbD i = s.link.summary.getLsbD (8 + i) ∧
       b2.getLsbD i = s.link.summary.getLsbD (16 + i)) ∧
  (∀ s : State, s.link.reading = none → s.link.summary = s.link.attention ∧ s.link.lateFlag = s.link.late) ∧
  (∀ (late : Bool) (s t : State), inReset s = false → s.link.reading = some (.status late) →
     t = { s with link := { s.link with reading := none } } →
     exec (.readStatusTransaction .finish) s = .next t ∧ s.link.lateFlag = (s.link.late || late) ∧
     t.link.lateFlag = s.link.late ∧ t.link.summary = s.link.summary) ∧
  ∀ (bits : BitVec 24) (s t : State), inReset s = false → s.link.reading = some (.attention bits) →
    t = { s with link := { s.link with reading := none } } →
    exec (.readAndClearAttention .finish) s = .next t ∧ t.link.lateFlag = s.link.lateFlag ∧
    (∀ i : Nat, s.link.summary.getLsbD i = (s.link.attention.getLsbD i || bits.getLsbD i)) ∧
    t.link.summary = s.link.attention ∧
    ∀ i : Nat, i < 24 → (setAttention i s).link.reading = some (.attention bits) ∧
      (setAttention i s).link.attention.getLsbD i = true

/-! ### Resets and the Timebase -/

/-- R181, and log entry 3 for the empty queue: a cycle counts in the prescaler until it reaches the reload count, where it is a
tick; a tick raises the ms time counter and advances every running timer by 1 ms, and the clock kHz parameter is read for
the next reload. Nothing else changes. That the row TIMEBASE_TICK is this tick whatever the prescaler stands at, where R181
gives one only when the count is reached, is the model's choice (log entry 5). -/
def Obligations.TimebaseCounts : Prop :=
  ∀ s : State, inReset s = false →
    (s.pending = [] → s.time.prescaler + 1 < s.time.reload →
      step s = .next { s with time := { s.time with prescaler := s.time.prescaler + 1 } }) ∧
    (s.pending = [] → s.time.reload ≤ s.time.prescaler + 1 → step s = exec .timebaseTick s) ∧
    ∃ t, exec .timebaseTick s = .next t ∧
      t.time = ⟨0, (s.params.get 6).value.toNat, (s.time.ms + 1) % 2 ^ 48⟩ ∧
      (∀ a, crane t a = { crane s a with
        retryTimer := (crane s a).retryTimer.map (· - 1), restTimer := (crane s a).restTimer.map (· - 1) }) ∧
      (∀ z, station t z = { station s z with
        crossing := (station s z).crossing.map fun x => { x with timer := x.timer - 1 }
        travelTimer := (station s z).travelTimer.map (· - 1)
        faceTimer := (station s z).faceTimer.map (· - 1)
        lineTest := (station s z).lineTest.map fun x => { x with elapsed := x.elapsed + 1 } }) ∧
      (∀ z, zone t z = { zone s z with holdTimer := (zone s z).holdTimer.map (· - 1) }) ∧
      (∀ i, conditioner t i = { conditioner s i with window := (conditioner s i).window.map (· - 1) }) ∧
      t.link = { s.link with restartTimer := s.link.restartTimer.map (· - 1) } ∧
      { t with time := s.time, cranes := s.cranes, stations := s.stations, zones := s.zones, inputs := s.inputs
               link := s.link } = s

/-- R179: in a reset that lasts, no command, report, expiry or step is taken, and no transaction. That the levels at the pins
are tracked then, and those alone, is DEDUCED (log entry 6), and so is the same of the sensors of a station that is not present
(log entry 12). -/
def Obligations.NothingIsTakenInAReset : Prop :=
  ∀ s : State,
    (inReset s = true →
      (∀ c : Instr, changesPin c = false → exec c s = .next s) ∧
      ∀ (i : FireInput) (high : Bool),
        exec (.inputLevelChange i high) s = .next (setConditioner i { conditioner s i with pinHigh := high } s)) ∧
    ∀ z : Station, inReset s = true ∨ stationPresent s z = false →
      exec (.beamBlocked z) s = .next (setStation z { station s z with beam := true } s) ∧
      exec (.beamClear z) s = .next (setStation z { station s z with beam := false } s) ∧
      exec (.openLimitAsserted z) s = .next (setStation z { station s z with openLimit := true } s) ∧
      exec (.openLimitReleased z) s = .next (setStation z { station s z with openLimit := false } s) ∧
      exec (.closedLimitAsserted z) s = .next (setStation z { station s z with closedLimit := true } s) ∧
      exec (.closedLimitReleased z) s = .next (setStation z { station s z with closedLimit := false } s)

/-- R179: RESET_N low begins a reset that lasts, with the cause that BKOK gives, and releases every hold-open output; its
release leaves the reset. A level that is there already changes nothing (the model's choice, log entry 4), and nothing else
changes until the reset is left (DEDUCED, log entry 6).

With BKOK low it begins by setting the state up afresh, but for the levels at the pins; that it does so at the start is the
model's choice (log entry 35).

R173, R179, each with BKOK's cause: Restart is answered and waits 1,000 ms for its reply to be read; the end of that
read-reply transaction, or of the wait, is the reset; with the reply captured and not yet read, that is the model's choice
(log entry 27). A power-on with RESET_N high is a reset at once, and one with RESET_N low lasts until its release (DEDUCED,
log entry 6).

A reset that keeps the retained state, in the records (R21, R45, R63, R78, R95, R173, R179 to R181): the table, the counts,
the protection mask, the day, the slots and the bins stay, each bin at its location; a bin on a crane, or named by a motion
mark, is UNCERTAIN, and one named by a crossing mark OBSTRUCTED too; the motion marks are cleared. Every open visit loses its
reservation and its creation time is 0; it takes RESET if it was in a crane leg or a crossing, and AISLE_SUSPENDED in an aisle
that was suspended, and that of a bin on a crane of a closed zone FIRE (R155). It keeps its state, but that a zone which
leaves RECOVERY with the reset lifts FIRE and matches the state (R150, R33), said of a visit whose bin no crane of another
aisle carries, as in every run (R80). A parameter word of bad parity has its default, and with one the part comes up in
COMMISSIONING; the link, the Timebase and the scan channels start again (channel Q's range and mode: log entry 2). The
attention summary holds RESTARTED, PARAMETER_REPAIRED exactly with a repair, the ZONE bit of each zone that changes state with
the reset (DEDUCED, log entry 21), and no other bit. -/
def Obligations.ResetsBeginAndEnd : Prop :=
  (∀ (bkok : Bool) (s : State),
     let begins := fun (c : Instr) (cause : ResetCause) => ∃ t, exec c s = .next t ∧
       t.resets = ⟨true, some cause, s.resets.cause⟩ ∧
       (cause ≠ .powerLost → (∀ z, station t z = { station s z with holdOpen := false }) ∧
         { t with resets := s.resets, stations := s.stations } = s) ∧
       (cause = .powerLost →
         (∀ z, station t z = { StationRec.reset with
           openLimit := (station s z).openLimit, closedLimit := (station s z).closedLimit, beam := (station s z).beam }) ∧
         (∀ i : FireInput, conditioner t i = ⟨(conditioner s i).pinHigh, false, none⟩) ∧
         { t with resets := State.reset.resets, stations := State.reset.stations, inputs := State.reset.inputs } =
           { State.reset with
             link := { LinkRec.reset with hostOut := s.link.hostOut }, sent := s.sent, pending := s.pending })
     (s.resets.pinLow = true → exec (.resetAsserted bkok) s = .next s) ∧
     (s.resets.pinLow = false → inReset s = false →
       begins (.resetAsserted bkok) (if bkok then .pin else .powerLost)) ∧
     (s.resets.pinLow = true → begins (.powerOn bkok) (if bkok then .powerKept else .powerLost)) ∧
     (s.resets.pinLow = false → s.resets.active = none → exec .resetReleased s = .next s) ∧
     ∀ cause : ResetCause, s.resets.pinLow = true → s.resets.active = some cause →
       exec .resetReleased s = .next (leaveReset cause { s with resets := { s.resets with pinLow := false } })) ∧
  (∀ (n : Nat) (bkok : Bool) (s : State),
     (linkIdle s → exec (.restart (commandBody [])) s =
       .next (writeReply .done [] { s with link := { s.link with restartTimer := some 1000 } })) ∧
     (inReset s = false → s.link.replyReady = true → s.link.restartTimer.isSome = true →
       exec (.readReply n bkok) s =
         .next (resetAtOnce (if bkok then .restart else .powerLost) (readReplyEnd n s))) ∧
     (inReset s = false → s.link.restartTimer = some 0 →
       exec (.restartTimeout bkok) s = .next (resetAtOnce (if bkok then .restart else .powerLost) s)) ∧
     (inReset s = false → s.link.restartTimer ≠ some 0 → exec (.restartTimeout bkok) s = .next s) ∧
     (s.resets.pinLow = false →
       exec (.powerOn bkok) s = .next (resetAtOnce (if bkok then .powerKept else .powerLost) s))) ∧
  (∀ (cause : ResetCause) (s t : State), cause ≠ .powerLost → t = resetAtOnce cause s ∨ t = leaveReset cause s →
     let located := fun loc : Location => (s.bins.find? fun e => decide (e.2.location = loc)).map (·.1)
     t.resets = ⟨s.resets.pinLow, none, cause⟩ ∧ t.withdrawals = s.withdrawals ∧ t.recordCount = s.recordCount ∧
     t.pendingLends = s.pendingLends ∧ t.protection = s.protection ∧ t.day = s.day ∧ t.slots = s.slots ∧
     t.pending = s.pending ∧
     (∀ b : Nat, bin t b = (bin s b).map fun r => { r with
       uncertain := r.uncertain || (match r.location with
         | .crane _ => true
         | _ => false) || decide (∃ a, forkMark s a = some b) || decide (∃ z, crossingMark s z = some b)
       obstructed := r.obstructed || decide (∃ z, crossingMark s z = some b) }) ∧
     (∀ a, forkMark t a = none) ∧ (∀ z, crossingMark t z = none) ∧
     (∀ n : Nat, visit s n = none → visit t n = none) ∧
     (∀ (n : Nat) (v : VisitRec), visit s n = some v → v.outcome ≠ none → visit t n = some v) ∧
     (∀ (n : Nat) (v : VisitRec), visit s n = some v → v.outcome = none → ∃ w, visit t n = some w ∧
       w = { v with created := 0, reservation := false, state := w.state, hold := w.hold } ∧
       (w.hold.reset = true ↔ v.hold.reset = true ∨ v.state = .outbound ∨ v.state = .inbound ∨ v.state = .moving ∨
         v.state = .presenting ∨ (v.state = .withdrawing ∧ ∃ z, crossingMark s z = some v.bin)) ∧
       (w.hold.aisleSuspended = true ↔ v.hold.aisleSuspended = true ∨
         ∃ a, binAisle s v.bin = some a ∧ (aisleRec s a).suspension ≠ .inService) ∧
       w.hold.craneFault = v.hold.craneFault ∧ w.hold.stationOut = v.hold.stationOut ∧
       (w.hold.reset = true ∨ (∀ z, (zone s z).state ≠ .recovery) → w.state = v.state) ∧
       let carried := ∃ a b r, zoneClosed s (zoneOf a) = true ∧ located (.crane a) = some b ∧ bin s b = some r ∧
         r.openVisit = some n
       let reopened := ∃ a, binAisle s v.bin = some a ∧ (zone s (zoneOf a)).state = .recovery ∧
         (zone t (zoneOf a)).state ≠ .recovery
       (¬reopened → (w.hold.fire = true ↔ v.hold.fire = true ∨ carried) ∧ w.state = v.state) ∧
       let ownCrane := ∀ a b r, located (.crane a) = some b → bin s b = some r → r.openVisit = some n →
         binAisle s v.bin = some a
       (reopened → ownCrane → w.hold.fire = false ∧
         ((v.hold.fire = false ∨ w.hold ≠ HoldSet.none) → w.state = v.state) ∧
         (v.hold.fire = true → w.hold = HoldSet.none → w.state = matchState v.state (binLocation s v.bin)))) ∧
     (∀ i : Fin 41, t.params.get i = if oddOnes (s.params.get i).value = (s.params.get i).parity then s.params.get i else
       paramWord (defaultValues.getD i.val 0)) ∧
     t.mode = (if ∀ i : Fin 41, oddOnes (s.params.get i).value = (s.params.get i).parity then s.mode
       else .commissioning) ∧
     t.link = { LinkRec.reset with hostOut := s.link.hostOut, attention := t.link.attention } ∧
     (∀ i : Nat, t.link.attention.getLsbD i = true ↔ i = 19 ∨
       (i = 18 ∧ ∃ j : Fin 41, oddOnes (s.params.get j).value ≠ (s.params.get j).parity) ∨
       ∃ z : Station, i = 13 + z.val ∧ (zone t z).state ≠ (zone s z).state) ∧
     t.time = ⟨0, (t.params.get 6).value.toNat, 0⟩ ∧ t.chanQ = ChannelRec.reset ∧ t.chanP = ChannelRec.reset)

/-- R179 with R21, R45, R63, R78, R118, R138, R154, R157, R173, R174, R181: a reset with retention lost leaves the part as
`State.reset` has it, with the levels at the pins as they are; an input whose pin is high starts its deglitch window (R154),
the polarity mask being 0. What the host has read, the messages sent and the queue are the model's own fields.

R79, R118, R138, R139, R155: the records of the blocks after a reset that keeps the retained state, be it of no length or the
release of RESET_N. A suspended aisle is SUSPENDED. A crane record is set afresh with the bin the directory locates on it, and
STOP is sent; it has a park order in a closed zone, and is HOMING in an IN_SERVICE aisle of another zone in SERVICE. A present
station keeps its out causes and sensors and has its bins from the directory; a face bin that is OBSTRUCTED with its visit
WITHDRAWING is the opening bin; in a closed zone the close order stands, the shutter is CLOSING and LOCKED is sent; elsewhere
the reopen order energises the output, but not with REOPEN_FAULT. A station that is not present agrees with the directory too
(R119) and keeps its out causes and pins; that its opening bin is found in the same way, its shutter CLOSED and no timer
running, is the model's choice (log entry 12). A zone in SHUTDOWN is sealed at once and passes on with panel clear seen;
RECOVERY waits for the station, if present, and for the cranes that are HOMING; that an absent one's report stays none is the
model's choice (log entry 37). That a limit asserted already does not end a travel is the model's choice (log entry 32); that
the ZONE bit of a zone sealed so is found set after the reset is DEDUCED (log entry 21). -/
def Obligations.ResetsSetUpTheBlocks : Prop :=
  (∀ s t : State, t = resetAtOnce .powerLost s ∨ t = leaveReset .powerLost s →
    (∀ z, station t z = { StationRec.reset with
      openLimit := (station s z).openLimit, closedLimit := (station s z).closedLimit, beam := (station s z).beam }) ∧
    (∀ i : FireInput, conditioner t i = ⟨(conditioner s i).pinHigh, false, if (conditioner s i).pinHigh then
      some (if i.val < 4 then 200 else if i.val < 9 then 50 else 100) else none⟩) ∧
    { t with stations := State.reset.stations, inputs := State.reset.inputs } =
      { State.reset with
        link := { LinkRec.reset with hostOut := s.link.hostOut }, resets := ⟨s.resets.pinLow, none, .powerLost⟩
        sent := s.sent, pending := s.pending }) ∧
  ∀ (cause : ResetCause) (s t : State), cause ≠ .powerLost → t = resetAtOnce cause s ∨ t = leaveReset cause s →
    let located := fun loc : Location => (s.bins.find? fun e => decide (e.2.location = loc)).map (·.1)
    let homed := fun a : Aisle => aislePresent t a && decide ((aisleRec s a).suspension = .inService) &&
      decide (t.mode = .service) && !zoneClosed s (zoneOf a)
    (∀ a : Aisle,
      aisleRec t a = ⟨if (aisleRec s a).suspension = .inService then .inService else .suspended, false⟩ ∧
      (homed a = true → crane t a = { CraneRec.reset with
        state := .homing, carried := located (.crane a), segment := some ⟨.home, 0, param t 4, .mouth, 0⟩
        deadline := 1000 * param t 16 }) ∧
      (homed a = false → crane t a = { CraneRec.reset with
        carried := located (.crane a), parkOrder := zoneClosed s (zoneOf a) })) ∧
    (∀ (z : Station) (r kept : StationRec) (face : Option FaceRec) (at_ : Option VisitState) (opens : Bool), r = station s z →
      face = (located (.face z)).bind (fun b => ((bin s b).bind (·.openVisit)).map fun n => ⟨b, n⟩) →
      at_ = face.bind (fun f => (visit s f.visit).map (·.state)) →
      opens = (!zoneClosed s z && !r.reopenFault) →
      kept = { StationRec.reset with
        lane := ([0, 1, 2] : List (Fin 3)).filterMap fun p => located (.lane z p)
        face := face
        outbound := located (.outbound z)
        openingBin := match located (.opening z) with
          | some b => some b
          | none => if at_ = some .withdrawing ∧ face.any (fun f => (bin t f.bin).any (·.obstructed)) = true then
              face.map (·.bin) else none
        jammed := r.jammed, reopenFault := r.reopenFault, openLimit := r.openLimit, closedLimit := r.closedLimit
        beam := r.beam } →
      (stationPresent t z = false → station t z = kept) ∧
      (stationPresent t z = true → station t z = { kept with
        shutter := if opens then .opening else .closing
        travelTimer := some (1000 * param t 32)
        holdOpen := opens
        reopenOrdered := opens
        closeOrder := zoneClosed s z
        faceTimer := if at_ = some .atFace then some (1000 * param t 31) else none })) ∧
    (∀ (z : Station) (y kept : ZoneRec) (present leaves : Bool), y = zone s z → present = stationPresent t z →
      kept = { y with
        holdTimer := none, released := false, reopenReport := .none, settled0 := false, settled1 := false
        recovered0 := false, recovered1 := false } →
      leaves = ((!present || (station s z).reopenFault) && !homed (aisle0 z) && !homed (aisle1 z)) →
      (y.state = .clear ∨ y.state = .alert → zone t z = kept) ∧
      (y.state = .awaitRestore → zone t z = { kept with released := present }) ∧
      (y.state = .sealed → zone t z = { kept with
        released := present, state := if y.panelClearSeen then .awaitRestore else .sealed }) ∧
      (y.state = .shutdown → t.link.attention.getLsbD (13 + z.val) = true ∧ zone t z = { kept with
        released := present, state := if y.panelClearSeen then .awaitRestore else .sealed
        settled0 := aislePresent t (aisle0 z), settled1 := aislePresent t (aisle1 z) }) ∧
      (y.state = .recovery → zone t z = { kept with
        reopenReport := if present && (station s z).reopenFault then .reopenFault else .none
        state := if leaves then (if alertLevel s z then .alert else .clear) else .recovery })) ∧
    (∀ i : FireInput, conditioner t i = { conditioner s i with
      window := if ((conditioner s i).pinHigh != (t.params.get 33).value.getLsbD i.val) = (conditioner s i).taken then none
        else some (param t (if i.val < 4 then 34 else if i.val < 9 then 35 else 36)) }) ∧
    ∃ m : List FieldMsg, t.sent = s.sent ++ m ∧ (∀ a, aislePresent t a = true → .drive a .stop ∈ m) ∧
      (∀ a, homed a = true → .drive a .home ∈ m) ∧
      ∀ z, stationPresent t z = true → (if zoneClosed s z then .panel z .locked else .panel z .clear) ∈ m

/-! ### What an event makes possible -/

/-- What an event of a zone sets off once its own effect stands, and what it leaves alone (`Settled`). Order, and the lower
aisle first, are the model's choice (log entry 10): a waiting close order, the zone, RESET of crossings (R138), crossings,
grants, choices.

R129: a close order releases an OPENING shutter at once, and an OPEN one with no crossing and a clear beam.

R146 to R148, R150: a zone in SHUTDOWN is SEALED when its station is released and its present cranes are settled, and passes
on to AWAIT_RESTORE with panel clear seen; a crane newly settled gives FIRE to the visit of its dropped or kept leg and of its
carried bin; that it is settled too at the event that marks its aisle present while the zone is SHUTDOWN, no park order
standing, is the model's choice (log entry 40). RECOVERY ends in CLEAR or ALERT when the station has reported and the present
cranes are recovered; FIRE is lifted, and the state of a visit with no reason left is matched to its bin (R33 Table 5).

R123, R124: the conditions of a crossing, and what its start sets. The lane head leaves the queue and the others move up.

R81, R142, R150: when a choice is due. R80: which leg is eligible. R84, R121: a grant is held, or returned by a crane that
cannot use it.

R81 to R84, R86: the choice of a free crane. The continuation of a carried bin, or nothing; else the inbound leg; else the leg
ranked first, with the grant held, a free place, or a wait that passes on to the legs that need none. A grant is returned when
no leg needs it. The leg chosen changes the visit's state and its first segment is issued. -/
def Obligations.EventsSetOffWhatTheyAllow : Prop :=
  (∀ (z : Station) (before s : State), Settled z s (settleZone before z s) ∧ settleAll before s =
     settleZone before 3 (settleZone before 2 (settleZone before 1 (settleZone before 0 s)))) ∧
  (∀ (z : Station) (before s : State), settleZone before z s = schedule z 12
     ([aisle0 z, aisle1 z].filter (choiceDue before (tryPresent z (tryWithdraw z (liftCrossingResets z
       (zoneProgress z (carryClose z s)))))))
     (tryPresent z (tryWithdraw z (liftCrossingResets z (zoneProgress z (carryClose z s)))))) ∧
  (∀ (a : Aisle) (s : State), inReset s = false →
     exec (.arrived a) s = .next (settleZone s (zoneOf a) (takeArrived a s)) ∧
     exec (.forkDone a) s = .next (settleZone s (zoneOf a) (takeForkDone a s)) ∧
     exec (.homed a) s = .next (settleZone s (zoneOf a) (takeHomed a s))) ∧
  (∀ (z : Station) (s w : State) (r : StationRec), r = station s z →
     w = setZone z { zone s z with released := true, holdTimer := none } (setStation z { r with
       holdOpen := false, shutter := .closing, travelTimer := some (1000 * param s 32), reopenOrdered := false
       reopenCommand := false } s) →
     (stationPresent s z = false ∨ r.closeOrder = false → carryClose z s = s) ∧
     (stationPresent s z = true → r.closeOrder = true →
       (r.shutter = .open → r.crossing = none → r.beam = false → carryClose z s = w) ∧
       (r.shutter = .open → r.crossing ≠ none ∨ r.beam = true → carryClose z s = s) ∧
       (r.shutter = .opening → carryClose z s = w) ∧
       (r.shutter = .closing ∨ r.shutter = .closed → carryClose z s =
         if (zone s z).released then s else setZone z { zone s z with released := true, holdTimer := none } s))) ∧
  (∀ (z : Station) (s t : State), t = zoneProgress z s →
     ((zone s z).state = .clear ∨ (zone s z).state = .alert ∨ (zone s z).state = .awaitRestore → t = s) ∧
     ((zone s z).state = .sealed → t = if (zone s z).panelClearSeen
       then setAttention (13 + z.val) (setZone z { zone s z with state := .awaitRestore } s) else s) ∧
     ((zone s z).state = .shutdown →
       let settled := fun a : Aisle =>
         (crane s a).state = .parked ∨ (crane s a).state = .faulted ∨ (crane s a).state = .offline
       let sealed := ((zone s z).released = true ∨ stationPresent s z = false) ∧
         ∀ a : Aisle, zoneOf a = z → aislePresent s a = true → settled a
       (sealed → (zone t z).state = (if (zone s z).panelClearSeen then .awaitRestore else .sealed) ∧
         t.link.attention.getLsbD (13 + z.val) = true) ∧
       (¬sealed → (zone t z).state = .shutdown ∧ t.link = s.link) ∧
       ∀ n v, visit s n = some v → v.outcome = none →
         let taken := ∃ a : Aisle, zoneOf a = z ∧ aislePresent s a = true ∧ settled a ∧ settledMark s a = false ∧
           ((∃ l, (crane s a).dropped = some l ∧ l.visit = n) ∨
            (∃ l, (crane s a).leg = some l ∧ l.cancelled = false ∧ l.visit = n) ∨
            ∃ b r, (crane s a).carried = some b ∧ bin s b = some r ∧ r.openVisit = some n)
         (taken → visit t n = some { v with hold := { v.hold with fire := true } }) ∧
         (¬taken → visit t n = some v)) ∧
     ((zone s z).state = .recovery →
       let leaves := ((zone s z).reopenReport ≠ .none ∨ stationPresent s z = false) ∧
         ∀ a : Aisle, zoneOf a = z → aislePresent s a = true → recoveredMark s a = true ∨
           (crane s a).state = .ready ∨ (crane s a).state = .faulted ∨ (crane s a).state = .offline
       (leaves → (zone t z).state = (if alertLevel s z then .alert else .clear) ∧
         t.link.attention.getLsbD (13 + z.val) = true ∧
         ∀ n v, visit s n = some v → v.outcome = none → (binAisle s v.bin).map zoneOf = some z → ∃ w,
           visit t n = some w ∧ w = { v with state := w.state, hold := { v.hold with fire := false } } ∧
           (v.hold.fire = false ∨ w.hold ≠ HoldSet.none → w.state = v.state) ∧
           (v.hold.fire = true → w.hold = HoldSet.none → w.state = matchState v.state (binLocation s v.bin))) ∧
       (¬leaves → (zone t z).state = .recovery ∧ t.link = s.link ∧ t.visits = s.visits))) ∧
  (∀ (st : VisitState) (loc : Option Location), matchState st loc =
     if (st = .outbound ∨ st = .moving) ∧ loc = some .slot then .queued
     else if st = .inbound ∧ ∃ z, loc = some (.outbound z) then .atOutbound else st) ∧
  (∀ (z : Station) (s : State),
     stationPresent s z = (s.params.get 1).value.getLsbD z.val ∧
     (stationOpen s z = true ↔ stationPresent s z = true ∧ (station s z).shutter = .open ∧ (station s z).jammed = false ∧
       (station s z).reopenFault = false) ∧
     (zoneClosed s z = true ↔ (zone s z).state = .shutdown ∨ (zone s z).state = .sealed ∨
       (zone s z).state = .awaitRestore) ∧
     (stationOpen s z = false → liftCrossingResets z s = s) ∧
     (stationOpen s z = true → { liftCrossingResets z s with visits := s.visits } = s ∧
       ∀ n, visit (liftCrossingResets z s) n = (visit s n).map fun v =>
         if v.outcome = none ∧ (binAisle s v.bin).map zoneOf = some z ∧ (v.state = .presenting ∨ v.state = .withdrawing)
         then { v with hold := { v.hold with reset := false } } else v)) ∧
  (∀ (z : Station) (s : State) (r : StationRec) (b n : Nat) (y : BinRec) (v : VisitRec), r = station s z →
     bin s b = some y → y.openVisit = some n → visit s n = some v →
     let can := r.crossing = none ∧ r.lineTest = none ∧ stationPresent s z = true ∧ r.shutter = .open ∧
       r.openLimit = true ∧ r.jammed = false ∧ r.reopenFault = false ∧ r.closeOrder = false ∧ r.beam = false ∧
       ((zone s z).state = .clear ∨ (zone s z).state = .alert) ∧ y.obstructed = false ∧ v.hold.fire = false ∧
       v.hold.stationOut = false ∧ v.hold.reset = false
     let started := fun (kind : CrossingKind) (order : Transfer) (u : State) =>
       { setCrossingMark z (some b) (setStation z { station u z with
           crossing := some ⟨kind, b, s.time.ms, false, 1000 * param s 30⟩, openingBin := some b } u) with
         sent := s.sent ++ [.panel z (.transfer order)] }
     (r.face = some ⟨b, n⟩ →
       (can → v.state = .withdrawing → r.outbound = none → tryWithdraw z s = started .withdraw .withdraw s) ∧
       (¬can ∨ v.state ≠ .withdrawing ∨ r.outbound ≠ none → tryWithdraw z s = s)) ∧
     (r.openingBin = some b → y.location = .opening z →
       (can → r.face = none →
         tryPresent z s = started .present .present (setVisit n { v with state := .presenting } s)) ∧
       (¬can ∨ r.face ≠ none → tryPresent z s = s)) ∧
     ∀ rest, r.lane = b :: rest → r.lane.Nodup →
       (∀ o x, r.openingBin = some o → bin s o = some x → x.location ≠ .opening z) →
       (¬can ∨ r.face ≠ none → tryPresent z s = s) ∧
       (can → r.face = none → ∃ u, tryPresent z s = started .present .present u ∧
         station u z = { r with lane := rest } ∧ (∀ x : Station, x ≠ z → station u x = station s x) ∧
         bin u b = some { y with location := .opening z } ∧
         (∀ (i x : Nat), rest[i]? = some x →
           bin u x = (bin s x).map fun q => { q with location := .lane z (Fin.ofNat 3 i) }) ∧
         (∀ x : Nat, x ∉ r.lane → bin u x = bin s x) ∧
         visit u n = some { v with state := .presenting } ∧ (∀ m : Nat, m ≠ n → visit u m = visit s m) ∧
         { u with bins := s.bins, visits := s.visits, stations := s.stations } = s)) ∧
  (∀ (z : Station) (s : State),
     ((station s z).face = none → tryWithdraw z s = s) ∧
     ((station s z).lane = [] →
       (∀ o x, (station s z).openingBin = some o → bin s o = some x → x.location ≠ .opening z) → tryPresent z s = s)) ∧
  (∀ (a : Aisle) (before s : State),
     (isFree s a = true ↔ ((crane s a).state = .ready ∨ (crane s a).state = .resting) ∧ (crane s a).leg = none) ∧
     (choiceDue before s a = true ↔ isFree s a = true ∧
       (((crane s a).state = .ready ∧ (crane before a).state ≠ .ready) ∨
        (∃ e ∈ s.visits, eligible s a e.2 ≠ none ∧ ∀ v, visit before e.1 = some v → eligible before a v = none) ∨
        ((zone before (zoneOf a)).state = .alert ∧ (zone s (zoneOf a)).state = .clear) ∨
        ((zone before (zoneOf a)).state = .recovery ∧
          ((zone s (zoneOf a)).state = .clear ∨ (zone s (zoneOf a)).state = .alert))))) ∧
  (∀ (z : Station) (n : Nat) (due : List Aisle) (s : State),
     (nextGrant s z = none → schedule z (n + 1) [] s = s) ∧
     (∀ a, nextGrant s z = none → schedule z (n + 1) (a :: due) s = schedule z n due (choose a s)) ∧
     ∀ a, nextGrant s z = some a →
       schedule z (n + 1) due s = schedule z n (if isFree s a then due ++ [a] else due) (grantArrives a s)) ∧
  (∀ (a : Aisle) (s t : State), t = grantArrives a s →
     let returned := (crane s a).state = .faulted ∨ (crane s a).state = .parking ∨ (crane s a).state = .parked ∨
       (crane s a).state = .offline
     waiting t a = false ∧ (station t (zoneOf a)).lastGrant = (if a.val % 2 = 0 then .first else .second) ∧
     (returned → (aisleRec t a).grant = false ∧ reservations t a = reservations s a) ∧
     (¬returned → (aisleRec t a).grant = true ∧ reservations t a = reservations s a + 1) ∧
     (∀ b : Aisle, b ≠ a → aisleRec t b = aisleRec s b ∧ reservations t b = reservations s b ∧ waiting t b = waiting s b) ∧
     { t with stations := s.stations, aisles := s.aisles } = s) ∧
  (∀ (a : Aisle) (s : State) (v : VisitRec) (k : LegKind) (continued : Bool),
     let old := (zone s (zoneOf a)).state = .clear ∨ (zone s (zoneOf a)).state = .alert ∨
       ((zone s (zoneOf a)).state = .recovery ∧ recoveredMark s a = true)
     let new := (zone s (zoneOf a)).state = .clear ∨
       ((zone s (zoneOf a)).state = .recovery ∧ recoveredMark s a = true)
     (eligible s a v = some (k, continued) ↔ v.outcome = none ∧ v.hold = HoldSet.none ∧ service s a = .inService ∧
       binAisle s v.bin = some a ∧
       ((continued = false ∧ k = .outbound ∧ v.state = .queued ∧ v.kind ≠ .relocation ∧ new ∧
           stationOpen s (zoneOf a) = true) ∨
        (continued = false ∧ k = .relocation ∧ v.state = .queued ∧ v.kind = .relocation ∧ new) ∨
        (continued = false ∧ k = .inbound ∧ v.state = .atOutbound ∧ old) ∨
        (continued = true ∧ binLocation s v.bin = some (.crane a) ∧ old ∧
          ((k = .outbound ∧ v.state = .outbound) ∨ (k = .inbound ∧ v.state = .inbound) ∨
            (k = .relocation ∧ v.state = .moving)))))) ∧
  (∀ (a : Aisle) (s : State) (c : Candidate), c ∈ candidates s a ↔
     (c.number, c.entry) ∈ s.visits ∧ eligible s a c.entry = some (c.kind, c.continuation)) ∧
  (∀ (a : Aisle) (s : State) (cs : List Candidate), cs = candidates s a →
     let kept := fun u : State =>
       if (aisleRec u a).grant = true ∧ ∀ c ∈ cs, c.needsPlace = false then returnGrant a u else u
     let chosen := fun (c : Candidate) (otherwise : State) =>
       (c.needsPlace = false → choose a s = kept (handLeg a c s)) ∧
       (c.needsPlace = true →
         ((aisleRec s a).grant = true → choose a s =
           handLeg a c (reserve c.number (setAisle a { aisleRec s a with grant := false } s))) ∧
         ((aisleRec s a).grant = false → waiting s a = false → 0 < freePlaces (station s (zoneOf a)) →
           choose a s = handLeg a c (reserve c.number (takePlace a s))) ∧
         ((aisleRec s a).grant = false → waiting s a = true ∨ freePlaces (station s (zoneOf a)) = 0 →
           choose a s = otherwise))
     (isFree s a = false ∨ service s a ≠ .inService → choose a s = s) ∧
     (isFree s a = true → service s a = .inService →
       (∀ b, (crane s a).carried = some b →
         ((∀ c ∈ cs, c.continuation = true → c.entry.bin ≠ b) → choose a s = kept s) ∧
         ∀ c ∈ cs, c.continuation = true → c.entry.bin = b →
           (∀ d ∈ cs, d.continuation = true → d.entry.bin = b → d = c) → chosen c (setWaiting a true s)) ∧
       ((crane s a).carried = none →
         (∀ c ∈ cs, c.kind = .inbound → c.continuation = false →
           (∀ d ∈ cs, d.kind = .inbound → d.continuation = false → d = c) → choose a s = kept (handLeg a c s)) ∧
         ((∀ c ∈ cs, c.kind = .inbound → c.continuation = true) →
           let ranked := cs.filter fun c => !c.continuation
           (firstRanked s a ranked = none → choose a s = kept s) ∧
           ∀ c, firstRanked s a ranked = some c →
             chosen c (match firstRanked s a (ranked.filter fun d => !d.needsPlace) with
               | some d => handLeg a d (setWaiting a true s)
               | none => setWaiting a true s))))) ∧
  (∀ (c : Candidate), c.needsPlace = true ↔ c.kind = .outbound ∧ c.entry.reservation = false) ∧
  ∀ (a : Aisle) (c : Candidate) (s u : State), visit s c.number = some c.entry →
    u = proceed a false (setCrane a { crane s a with
      leg := some ⟨c.number, c.entry.bin, c.kind, c.continuation, if c.continuation then 2 else 0, false, false⟩ }
      (setVisit c.number { c.entry with state := match c.kind with
        | .outbound => .outbound
        | .inbound => .inbound
        | .relocation => .moving } s)) →
    handLeg a c s = setCrane a { crane u a with state := if (crane s a).state = .resting then .waking else .moving } u
/-! ### Reads -/

/-- R5: Read Bin and Read Slot reply the record; nothing else changes. A number above 16,383 or a coordinate out of range is
BAD_VALUE, and a free record NO_SUCH_BIN.

R44, R61: Read Withdrawal Bucket and Read Visit reply the record, or the part of it asked for; nothing else changes.

R60: Find Item looks the key up and searches the pending tasks: a key in the table is case 0 with its bucket and probe
count, one in a pending task alone case 1, and one in neither NOT_OUT with its home bucket; nothing else changes. That an
empty bucket is sent with home bucket and days 0, and case 1 with bucket 0, empty, is the model's choice (log entry 18), and
the code of a record's state is DEDUCED (log entry 34).

R182 Tables 3 and 4: the bytes of these replies, field after field: a number most significant byte first, a set with its first
member in bit 0, a named value by its place in its list, and what is absent as 0xFF in every byte of it, but a key, a due day
and a last visit day as 0 (a day's 0 is the model's choice, log entry 18). -/
def Obligations.RecordReadsReply : Prop :=
  let num := fun (k x : Nat) => (List.range k).reverse.map fun i => (BitVec.ofNat 8 (x / 256 ^ i) : Byte)
  let opt := fun (k : Nat) (o : Option Nat) => num k (o.getD (256 ^ k - 1))
  let set := fun (l : List Bool) => num 1 (l.zipIdx.map fun b => if b.1 then 2 ^ b.2 else 0).sum
  let slot := fun (sl : Slot) => num 1 sl.aisle.val ++ num 1 sl.column.val ++ num 1 sl.level.val ++ num 1 sl.side.code
  let task := fun (k : TaskRec) => num 1 k.kind.code ++ num 6 (k.key.getD 0).toNat ++ num 1 k.priority ++
    set [k.urgent, k.fillMismatch] ++ num 2 (k.dueDay.getD 0) ++ num 1 k.state.code
  (∀ (b : Nat) (r : BinRec), (binBytes b r).length = 20 ∧ binBytes b r =
     num 2 b ++ num 1 r.sizeClass ++ num 1 r.capacity ++ num 1 r.fill ++ num 1 r.withdrawn ++ num 1 r.lendHolds ++
     num 1 r.refileHolds ++ slot r.home ++ (match r.location with
       | .slot => num 1 0 ++ opt 1 none ++ opt 1 none
       | .crane a => num 1 1 ++ num 1 a.val ++ opt 1 none
       | .lane z q => num 1 2 ++ num 1 z.val ++ num 1 q.val
       | .opening z => num 1 2 ++ num 1 z.val ++ num 1 3
       | .face z => num 1 3 ++ num 1 z.val ++ opt 1 none
       | .outbound z => num 1 4 ++ num 1 z.val ++ opt 1 none) ++
     opt 1 r.openVisit ++ set [r.quarantined, r.stranded, r.obstructed, r.uncertain] ++ set [r.lastVisitDay.isSome] ++
     num 2 (r.lastVisitDay.getD 0)) ∧
  (∀ e : SlotEntry, slotEntryBytes e = match e with
     | .empty => num 1 0 ++ opt 2 none
     | .home b => num 1 1 ++ num 2 b
     | .filled b => num 1 2 ++ num 2 b
     | .target b => num 1 3 ++ num 2 b
     | .blocked => num 1 4 ++ opt 2 none) ∧
  (∀ (i home : Nat) (w : WithdrawalRec), (bucketBytes i home (some w)).length = 19 ∧ bucketBytes i home (some w) =
     num 2 i ++ num 1 1 ++ num 6 w.key.toNat ++ num 2 w.homeBin ++ num 2 w.outDay ++ num 2 w.dueDay ++
     num 1 (if w.state = .out then 0 else 1) ++ opt 1 w.returnVisit ++ num 2 home ∧
     bucketBytes i home none = num 2 i ++ num 1 0 ++ num 6 0 ++ opt 2 none ++ num 2 0 ++ num 2 0 ++ opt 1 none ++
     opt 1 none ++ num 2 0) ∧
  (∀ (n : Nat) (v : VisitRec), (visitBytes n v).length = 21 ∧ visitBytes n v =
     num 1 n ++ num 1 v.kind.code ++ num 2 v.bin ++ num 1 v.state.code ++ num 6 v.created ++ num 1 v.priority ++
     set [v.urgent, v.reservation] ++
     set [v.hold.fire, v.hold.reset, v.hold.craneFault, v.hold.aisleSuspended, v.hold.stationOut] ++
     (match v.target with
       | some sl => slot sl
       | none => opt 4 none) ++
     set [v.problems.damaged, v.problems.wrongBin, v.problems.empty] ++ opt 1 (v.outcome.map (·.code)) ++
     num 1 v.tasks.length ∧
     taskPartBytes n 1 v = num 1 n ++ num 1 1 ++ num 1 (v.tasks.take 4).length ++ (v.tasks.take 4).flatMap task ∧
     taskPartBytes n 2 v =
       num 1 n ++ num 1 2 ++ num 1 ((v.tasks.drop 4).take 4).length ++ ((v.tasks.drop 4).take 4).flatMap task) ∧
  (pendingBytes none = opt 1 none ++ opt 1 none ++ opt 1 none ∧
     ∀ k, pendingBytes (some k) = num 1 k.visit ++ num 1 k.index ++ num 1 k.kind.code) ∧
  (([.left, .right] : List Side).map (·.code) = List.range 2 ∧
     ([.delivery, .intake, .relocation] : List VisitKind).map (·.code) = List.range 3 ∧
     ([.done, .cancelled, .removed] : List VisitOutcome).map (·.code) = List.range 3 ∧
     ([.queued, .outbound, .inLane, .presenting, .atFace, .withdrawing, .atOutbound, .inbound, .moving, .done,
       .cancelled] : List VisitState).map (·.code) = List.range 11 ∧
     ([.lend, .return, .refile, .fetch] : List TaskKind).map (·.code) = List.range 4 ∧
     ([.pending, .confirmed, .notFound, .notPlaced, .seen, .cancelled] : List TaskState).map (·.code) = List.range 6) ∧
  (∀ (p : List Byte) (s : State), linkIdle s →
     (p.length = 2 →
       (16384 ≤ wordAt p 0 → exec (.readBin (commandBody p)) s = .next (writeReply .badValue [] s)) ∧
       (wordAt p 0 < 16384 → bin s (wordAt p 0) = none →
         exec (.readBin (commandBody p)) s = .next (writeReply .noSuchBin [] s)) ∧
       ∀ r, wordAt p 0 < 16384 → bin s (wordAt p 0) = some r →
         exec (.readBin (commandBody p)) s = .next (writeReply .done (binBytes (wordAt p 0) r) s)) ∧
     (p.length = 4 →
       (slotAt p 0 = none → exec (.readSlot (commandBody p)) s = .next (writeReply .badValue [] s)) ∧
       ∀ sl, slotAt p 0 = some sl →
         exec (.readSlot (commandBody p)) s = .next (writeReply .done (slotEntryBytes (slotEntry s sl)) s))) ∧
  (∀ (p : List Byte) (s : State), linkIdle s → p.length = 2 →
     (4096 ≤ wordAt p 0 → exec (.readWithdrawalBucket (commandBody p)) s = .next (writeReply .badValue [] s)) ∧
     (wordAt p 0 < 4096 → tableGet s.withdrawals (wordAt p 0) = none →
       exec (.readWithdrawalBucket (commandBody p)) s =
         .next (writeReply .done (bucketBytes (wordAt p 0) 0 none) s)) ∧
     (∀ w, wordAt p 0 < 4096 → tableGet s.withdrawals (wordAt p 0) = some w →
       exec (.readWithdrawalBucket (commandBody p)) s =
         .next (writeReply .done (bucketBytes (wordAt p 0) (homeBucket w.key) (some w)) s)) ∧
     (64 ≤ byteAt p 0 ∨ 2 < byteAt p 1 → exec (.readVisit (commandBody p)) s = .next (writeReply .badValue [] s)) ∧
     (byteAt p 0 < 64 → byteAt p 1 ≤ 2 → visit s (byteAt p 0) = none →
       exec (.readVisit (commandBody p)) s = .next (writeReply .noSuchVisit [] s)) ∧
     ∀ v, byteAt p 0 < 64 → byteAt p 1 ≤ 2 → visit s (byteAt p 0) = some v →
       exec (.readVisit (commandBody p)) s = .next (writeReply .done
         (if byteAt p 1 = 0 then visitBytes (byteAt p 0) v else taskPartBytes (byteAt p 0) (byteAt p 1) v) s)) ∧
  (∀ (p : List Byte) (s : State), linkIdle s → p.length = 6 →
     (keyAt p 0 = 0 → exec (.findItem (commandBody p)) s = .next (writeReply .badValue [] s)) ∧
     (∀ w, keyAt p 0 ≠ 0 → withdrawal s (keyAt p 0) = some w →
       exec (.findItem (commandBody p)) s = .next (writeReply .done
         (0x00 :: bucketBytes (lookup s.withdrawals (keyAt p 0)).bucket (homeBucket (keyAt p 0)) (some w) ++
           pendingBytes (findPendingTask (keyAt p 0) s.visits) ++
           bytes 2 (lookup s.withdrawals (keyAt p 0)).probes) s)) ∧
     (∀ t, keyAt p 0 ≠ 0 → (lookup s.withdrawals (keyAt p 0)).found = false →
       findPendingTask (keyAt p 0) s.visits = some t →
       exec (.findItem (commandBody p)) s = .next (writeReply .done
         (0x01 :: bucketBytes 0 0 none ++
           [BitVec.ofNat 8 t.visit, BitVec.ofNat 8 t.index, BitVec.ofNat 8 t.kind.code, 0x00, 0x00]) s)) ∧
     (keyAt p 0 ≠ 0 → (lookup s.withdrawals (keyAt p 0)).found = false → findPendingTask (keyAt p 0) s.visits = none →
       exec (.findItem (commandBody p)) s = .next (writeReply .notOut
         [BitVec.ofNat 8 (homeBucket (keyAt p 0) / 256), BitVec.ofNat 8 (homeBucket (keyAt p 0))] s)))

/-- R117, R137, R152, R175: the reads of a crane, a station, a zone and a parameter reply the record. Read Station clears the
station's flags after its reply is formed; nothing else changes. A crane, station, zone or parameter number that is none, and a
station that is not present, are BAD_VALUE, and a crane of an aisle that is not present AISLE_OUT; nothing changes then.

R170: Read Status replies the mode, the reset cause, today and the two masks, and clears RESTARTED; nothing else changes. The
bytes of absent values without a rule, of numbers past their width, and of the crane of an absent aisle are the model's choice
(log entries 18, 19 and 12).

R182 Tables 3 and 4: the bytes of these replies, field after field: a number most significant byte first, a set with its first
member in bit 0, a named value by its place in its list, what is absent as 0xFF in every byte of it, but a key as 0; the
deadline that has passed reads 0, a longer interval 65,535. -/
def Obligations.BlockAndStatusReadsReply : Prop :=
  let num := fun (k x : Nat) => (List.range k).reverse.map fun i => (BitVec.ofNat 8 (x / 256 ^ i) : Byte)
  let opt := fun (k : Nat) (o : Option Nat) => num k (o.getD (256 ^ k - 1))
  let set := fun (l : List Bool) => num 1 (l.zipIdx.map fun b => if b.1 then 2 ^ b.2 else 0).sum
  (∀ (s : State) (a : Aisle) (c : CraneRec), c = crane s a → (craneBytes s a).length = 49 ∧ craneBytes s a =
     num 1 a.val ++ num 1 (service s a).code ++ num 1 c.state.code ++ opt 1 c.col ++ opt 1 c.level ++ opt 2 c.carried ++
     opt 1 (c.leg.map (·.visit)) ++ opt 1 (c.leg.map fun l => l.kind.code + if l.continuation then 3 else 0) ++
     opt 1 (c.leg.map (·.seg.val)) ++ opt 1 (c.segment.map (·.kind.code)) ++ opt 1 (c.segment.map (·.col)) ++
     opt 1 (c.segment.map (·.level)) ++ opt 4 c.estimate ++
     opt 4 (c.segment.map fun g => g.issued + c.deadline - s.time.ms) ++ num 1 c.retryCount ++ num 1 c.slipCount ++
     num 1 c.surgeCount ++ num 1 (min c.timingH.marks 255) ++ num 1 (min c.timingV.marks 255) ++
     num 2 (min c.timingH.interval 65535) ++ num 2 (min c.timingV.interval 65535) ++
     set [c.parkOrder, c.supplyFault, c.homingClear, (aisleRec s a).grant, waiting s a] ++
     opt 1 (c.latched.map (·.code.val)) ++ opt 1 (c.lastFault.map (·.1.code.val)) ++
     opt 1 (c.lastFault.bind fun f => f.2.map (·.code)) ++ num 1 c.supply.code ++ c.totals.toList.flatMap (num 2) ++
     num 2 c.unexpected) ∧
  (∀ (s : State) (z : Station) (r : StationRec), r = station s z → (stationBytes s z).length = 43 ∧ stationBytes s z =
     num 1 z.val ++ num 1 r.lane.length ++ (([0, 1, 2] : List Nat).flatMap fun i =>
       opt 2 r.lane[i]? ++ opt 1 (r.lane[i]?.bind fun b => (bin s b).bind (·.openVisit))) ++
     num 1 r.resv0 ++ num 1 r.resv1 ++ num 1 (r.waiting0.toNat + 2 * r.waiting1.toNat + 4 * r.lastGrant.code) ++
     opt 2 (r.face.map (·.bin)) ++ opt 1 (r.face.map (·.visit)) ++ opt 2 r.outbound ++
     num 1 (match r.crossing with
       | some x => x.kind.code
       | none => 0) ++
     opt 2 (r.crossing.map (·.bin)) ++ opt 2 (r.crossing.map fun x => min (s.time.ms - x.start) 65535) ++
     opt 2 r.openingBin ++ num 1 r.shutter.code ++
     set [r.holdOpen, r.closeOrder, r.crossing.any (·.beamSeen), zoneClosed s z, r.lineTest.isSome] ++
     set [r.jammed, r.reopenFault] ++
     set [r.faceLong, r.scanUnexpected, r.panelLinkFlag, r.forced, r.shutterFault, r.problemFlag] ++
     num 6 (r.lastKey.getD 0).toNat ++ opt 1 (r.lastProblem.map (·.1)) ++ opt 1 (r.lastProblem.map (·.2.code)) ++
     opt 4 r.faceTimer ++ num 1 r.discards) ∧
  (∀ (s : State) (z : Station) (r : ZoneRec), r = zone s z →
     let levels := fun f : FireInput → Bool => set [f (alertInput z), f (fireInput z), f 8, f 9]
     let state := fun a : Aisle => opt 1 (if aislePresent s a then some (crane s a).state.code else none)
     (zoneBytes s z).length = 15 ∧ zoneBytes s z =
     num 1 z.val ++ num 1 r.state.code ++ levels (fun i => (conditioner s i).taken) ++
     levels (fun i => (conditioner s i).pinHigh != (s.params.get 33).value.getLsbD i.val) ++
     levels (fun i => (conditioner s i).window.isSome) ++ set [r.injectAlert, r.injectFire, r.injectClear] ++
     set [r.drill, r.panelClearSeen, r.released] ++ set [r.causeFire, r.causeFireAll, r.causeDrill] ++ opt 2 r.holdTimer ++
     num 1 r.reopenReport.code ++ set [r.settled0, r.settled1, r.recovered0, r.recovered1] ++ state (aisle0 z) ++
     state (aisle1 z) ++ num 1 (if (station s z).jammed || (station s z).reopenFault then 1 else 0)) ∧
  (([.absent, .inService, .suspending, .suspended] : List ServiceState).map (·.code) = List.range 4 ∧
     ([.offline, .homing, .ready, .resting, .waking, .moving, .retryWait, .faulted, .parking,
       .parked] : List CraneState).map (·.code) = List.range 10 ∧
     ([.travel, .forkPick, .forkPlace, .park, .home] : List SegKind).map (·.code) = List.range 5 ∧
     ([.outbound, .inbound, .relocation] : List LegKind).map (·.code) = List.range 3 ∧
     ([.overrun, .slip, .surge, .speed, .noDrive, .supply] : List FaultClass).map (·.code.val) = List.range 6 ∧
     ([.low, .ok, .high] : List SupplyCond).map (·.code) = List.range 3 ∧
     ([.open, .closing, .closed, .opening] : List Shutter).map (·.code) = List.range 4 ∧
     ([.present, .withdraw] : List CrossingKind).map (·.code) = [1, 2] ∧
     ([.none, .first, .second] : List LastGrant).map (·.code) = List.range 3 ∧
     ([.damaged, .wrongBin, .empty] : List ProblemCode).map (·.code) = List.range 3 ∧
     ([.none, .open, .reopenFault] : List ReopenReport).map (·.code) = List.range 3 ∧
     ([.clear, .alert, .shutdown, .sealed, .awaitRestore, .recovery] : List ZoneState).map (·.code) = List.range 6 ∧
     ([.commissioning, .service] : List Mode).map (·.code) = List.range 2 ∧
     ([.powerLost, .powerKept, .pin, .restart] : List ResetCause).map (·.code) = List.range 4) ∧
  (∀ (p : List Byte) (s : State), linkIdle s → p.length = 1 →
     (∀ a, aisleOf (byteAt p 0) = some a → aislePresent s a = true →
       exec (.readCrane (commandBody p)) s = .next (writeReply .done (craneBytes s a) s)) ∧
     (∀ a, aisleOf (byteAt p 0) = some a → aislePresent s a = false →
       exec (.readCrane (commandBody p)) s = .next (writeReply .aisleOut [] s)) ∧
     (aisleOf (byteAt p 0) = none → exec (.readCrane (commandBody p)) s = .next (writeReply .badValue [] s)) ∧
     (∀ z, stationOf (byteAt p 0) = some z → stationPresent s z = true →
       exec (.readStation (commandBody p)) s = .next (writeReply .done (stationBytes s z)
         (setStation z { station s z with
           faceLong := false, scanUnexpected := false, panelLinkFlag := false, forced := false, shutterFault := false
           problemFlag := false } s))) ∧
     (∀ z, stationOf (byteAt p 0) = some z → stationPresent s z = false →
       exec (.readStation (commandBody p)) s = .next (writeReply .badValue [] s)) ∧
     (∀ z, stationOf (byteAt p 0) = some z →
       exec (.readZone (commandBody p)) s = .next (writeReply .done (zoneBytes s z) s)) ∧
     (stationOf (byteAt p 0) = none →
       exec (.readStation (commandBody p)) s = .next (writeReply .badValue [] s) ∧
       exec (.readZone (commandBody p)) s = .next (writeReply .badValue [] s)) ∧
     (∀ n, paramOf (byteAt p 0) = some n →
       exec (.readParameter (commandBody p)) s = .next (writeReply .done
         [BitVec.ofNat 8 ((s.params.get n).value.toNat / 256), BitVec.ofNat 8 (s.params.get n).value.toNat,
           BitVec.ofNat 8 (s.params.get n).parity.toNat] s)) ∧
     (paramOf (byteAt p 0) = none → exec (.readParameter (commandBody p)) s = .next (writeReply .badValue [] s))) ∧
  (∀ s : State, linkIdle s →
     exec (.readStatus (commandBody [])) s = .next (writeReply .done
       [BitVec.ofNat 8 s.mode.code, BitVec.ofNat 8 s.resets.cause.code, BitVec.ofNat 8 (s.day / 256), BitVec.ofNat 8 s.day,
         (s.params.get 0).value.setWidth 8, (s.params.get 1).value.setWidth 8]
       { s with link := { s.link with restarted := false } }))

/-! ### The Bin Directory and the Slot Map -/

/-- R7: Admit Bin in COMMISSIONING enters the record with its bin in its home slot, and the slot FILLED; nothing else changes. A
field out of range, a bin in use, an absent aisle and a slot that is not EMPTY are refused in this order.

R8: Admit Bin in SERVICE enters the bin at the face of its home aisle's station with an INTAKE visit, AT_FACE, under the
lowest free number; its slot is HOME and the face timer starts; nothing else changes. Its checks are refused in the order of R8,
each changing nothing. -/
def Obligations.AdmitBinEntersTheRecord : Prop :=
  ∀ (p : List Byte) (s : State), linkIdle s → p.length = 10 →
    let refused := fun code => exec (.admitBin (commandBody p)) s = .next (writeReply code [] s)
    let bad := 16384 ≤ wordAt p 0 ∨ 3 < byteAt p 2 ∨ byteAt p 3 = 0 ∨ 250 < byteAt p 3 ∨ byteAt p 3 < byteAt p 4 ∨
      slotAt p 5 = none
    (bad → refused .badValue) ∧
    (∀ sl, s.mode = .commissioning → ¬bad → slotAt p 5 = some sl →
      (∀ code, FirstFailing [((bin s (wordAt p 0)).isSome = true, .state), (aislePresent s sl.aisle = false, .aisleOut),
        (slotEntry s sl ≠ .empty, .slotTaken)] code → refused code) ∧
      (bin s (wordAt p 0) = none → aislePresent s sl.aisle = true → slotEntry s sl = .empty →
        exec (.admitBin (commandBody p)) s = .next (writeReply .done [0xFF]
          (setBin (wordAt p 0)
            ⟨byteAt p 2, byteAt p 3, byteAt p 4, 0, 0, 0, sl, .slot, none, false, false, false, false, none⟩
            (setSlot sl (.filled (wordAt p 0)) s))))) ∧
    ∀ sl, s.mode = .service → ¬bad → slotAt p 5 = some sl →
      ((∀ z, stationOf (byteAt p 9) = some z → stationPresent s z = false ∨ zoneOf sl.aisle ≠ z) → refused .badValue) ∧
      ∀ z r, stationOf (byteAt p 9) = some z → stationPresent s z = true → zoneOf sl.aisle = z → r = station s z →
        (∀ code, FirstFailing [((bin s (wordAt p 0)).isSome = true, .state), ((zone s z).state ≠ .clear, .zoneClosed),
          (service s sl.aisle ≠ .inService, .aisleOut), (r.jammed = true ∨ r.reopenFault = true, .stationOut),
          (r.face ≠ none ∨ (∃ x, r.crossing = some x ∧ x.kind = .present) ∨
            (∃ b, r.openingBin = some b ∧ binLocation s b = some (.opening z)), .state),
          (slotEntry s sl ≠ .empty, .slotTaken), (freeVisit s = none, .tableFull)] code → refused code) ∧
        ∀ n, bin s (wordAt p 0) = none → (zone s z).state = .clear → service s sl.aisle = .inService → r.jammed = false →
          r.reopenFault = false → r.face = none → (∀ x, r.crossing = some x → x.kind = .withdraw) →
          (∀ b, r.openingBin = some b → binLocation s b ≠ some (.opening z)) → slotEntry s sl = .empty →
          freeVisit s = some n →
          exec (.admitBin (commandBody p)) s = .next (writeReply .done [BitVec.ofNat 8 n]
            (setStation z { r with face := some ⟨wordAt p 0, n⟩, faceTimer := some (1000 * param s 31) }
              (setVisit n ⟨.intake, wordAt p 0, .atFace, s.time.ms, 0, false, [], HoldSet.none, false, none,
                  ⟨false, false, false⟩, none⟩
                (setBin (wordAt p 0)
                  ⟨byteAt p 2, byteAt p 3, byteAt p 4, 0, 0, 0, sl, .face z, some n, false, false, false, false, none⟩
                  (setSlot sl (.home (wordAt p 0)) s)))))

/-- R9, R182 Table 2: Alter Bin stores the fields that its changes byte gives and sets and clears the flags. A bin number that
is none, a given field out of range, a field or a bit that is not used and not 0, and QUARANTINED set and cleared at once are
BAD_VALUE, and a free record NO_SUCH_BIN; on a protected bin only flags may be cleared, and counts that break the law of R2 are
refused; nothing changes then. The reply is the record as altered; that it shows the record before a crossing which the
alteration starts is the model's choice (log entry 11). -/
def Obligations.AlterBinChanges : Prop :=
  ∀ (p : List Byte) (s : State), linkIdle s → p.length = 7 →
    let refused := fun code => exec (.alterBin (commandBody p)) s = .next (writeReply code [] s)
    let given := fun bit => bitAt p 2 bit = true
    let bad := 16384 ≤ wordAt p 0 ∨ 16 ≤ byteAt p 2 ∨ 16 ≤ byteAt p 6 ∨ (given 0 ∧ 3 < byteAt p 3) ∨
      (¬given 0 ∧ byteAt p 3 ≠ 0) ∨ (given 1 ∧ (byteAt p 4 = 0 ∨ 250 < byteAt p 4)) ∨ (¬given 1 ∧ byteAt p 4 ≠ 0) ∨
      (given 2 ∧ 250 < byteAt p 5) ∨ (¬given 2 ∧ byteAt p 5 ≠ 0) ∨ (given 3 ∧ bitAt p 6 0 = true)
    (bad → refused .badValue) ∧
    (¬bad → bin s (wordAt p 0) = none → refused .noSuchBin) ∧
    ∀ r r' : BinRec, ¬bad → bin s (wordAt p 0) = some r →
      r' = { r with
        sizeClass := if bitAt p 2 0 then byteAt p 3 else r.sizeClass
        capacity := if bitAt p 2 1 then byteAt p 4 else r.capacity
        fill := if bitAt p 2 2 then byteAt p 5 else r.fill
        quarantined := (r.quarantined || bitAt p 2 3) && !bitAt p 6 0
        stranded := r.stranded && !bitAt p 6 1
        obstructed := r.obstructed && !bitAt p 6 2
        uncertain := r.uncertain && !bitAt p 6 3 } →
      (isProtected s (wordAt p 0) = true → byteAt p 2 ≠ 0 → refused .protected_) ∧
      (isProtected s (wordAt p 0) = false ∨ byteAt p 2 = 0 →
        (r'.fill < r'.lendHolds ∨ r'.capacity < r'.fill + r'.withdrawn + r'.refileHolds → refused .state) ∧
        (r'.lendHolds ≤ r'.fill → r'.fill + r'.withdrawn + r'.refileHolds ≤ r'.capacity →
          ∃ t, Settles s (zoneOf r.home.aisle) (setBin (wordAt p 0) r' s) t ∧
            exec (.alterBin (commandBody p)) s = .next (writeReply .done (binBytes (wordAt p 0) r') t)))

/-- R10: Retire Bin of a bin at the face with its open visit AT_FACE, nothing PENDING and nothing out: the visit ends REMOVED,
the record becomes free, its home slot EMPTY, and the face empty with its timer stopped; the panel is sent CLEAR. A number that
is none, a free record, a protected bin, a closed zone, and a bin elsewhere, with items out, or with its visit in another state
or a task PENDING, are refused in this order, and change nothing. -/
def Obligations.RetireBinRemoves : Prop :=
  ∀ (p : List Byte) (s : State), linkIdle s → s.mode = .service → p.length = 2 →
    let refused := fun code => exec (.retireBin (commandBody p)) s = .next (writeReply code [] s)
    (16384 ≤ wordAt p 0 → refused .badValue) ∧
    (wordAt p 0 < 16384 → bin s (wordAt p 0) = none → refused .noSuchBin) ∧
    ∀ (r : BinRec) (z : Station), wordAt p 0 < 16384 → bin s (wordAt p 0) = some r → z = zoneOf r.home.aisle →
      (isProtected s (wordAt p 0) = true → refused .protected_) ∧
      (isProtected s (wordAt p 0) = false → zoneClosed s z = true → refused .zoneClosed) ∧
      (isProtected s (wordAt p 0) = false → zoneClosed s z = false →
        (r.location ≠ .face z ∨ r.withdrawn ≠ 0 → refused .state) ∧
        ((∀ n v, r.openVisit = some n → visit s n = some v → v.state ≠ .atFace ∨ ∃ t ∈ v.tasks, t.state = .pending) →
          refused .state) ∧
        ∀ (n : Nat) (v : VisitRec), r.location = .face z → r.withdrawn = 0 → r.openVisit = some n → visit s n = some v →
          v.state = .atFace → (∀ t ∈ v.tasks, t.state ≠ .pending) → ∃ t,
          Settles s z
            (sendPanel z .clear (modStation z (fun y => { y with face := none, faceTimer := none })
              (freeBin (wordAt p 0) (setSlot r.home .empty (endVisit n .done .removed s))))) t ∧
          exec (.retireBin (commandBody p)) s = .next (writeReply .done [] t))

/-- R11: Block Slot and Unblock Slot turn an EMPTY or BLOCKED slot into BLOCKED and EMPTY; on the three other entries they are
SLOT_TAKEN and STATE; nothing else changes.

R4, R11: the entry of a slot reads as it was last set, whatever stood there, and every other slot reads as before: the
numbers of two slots of the wing differ.

R182: how a command's fields are read: a number and a key most significant byte first, a slot as aisle, column, level and side,
and anything out of range as no slot, aisle or station.

R6: Set Protection stores the mask and replies the old and the new one; a bin is protected while the bit of its sector, bin
number div 1,024, is set. Nothing else changes. That sector n has bit n is DEDUCED (log entry 26), and that a slot of an absent
aisle is blocked like any other is the model's choice (log entry 20). -/
def Obligations.SlotsAndProtectionAreSet : Prop :=
  (∀ (p : List Byte) (i : Nat), (∀ x : Byte, p[i]? = some x → byteAt p i = x.toNat) ∧
     wordAt p i = 256 * byteAt p i + byteAt p (i + 1) ∧
     (keyAt p i).toNat = 256 ^ 4 * wordAt p i + 256 ^ 2 * wordAt p (i + 2) + wordAt p (i + 4) ∧
     (∀ sl : Slot, slotAt p i = some sl ↔ byteAt p i = sl.aisle.val ∧ byteAt p (i + 1) = sl.column.val ∧
       byteAt p (i + 2) = sl.level.val ∧ byteAt p (i + 3) = if sl.side = .left then 0 else 1) ∧
     (∀ n (a : Aisle), aisleOf n = some a ↔ n = a.val) ∧ ∀ n (z : Station), stationOf n = some z ↔ n = z.val) ∧
  (∀ (p : List Byte) (s : State), linkIdle s → p.length = 4 →
     (slotAt p 0 = none →
       exec (.blockSlot (commandBody p)) s = .next (writeReply .badValue [] s) ∧
       exec (.unblockSlot (commandBody p)) s = .next (writeReply .badValue [] s)) ∧
     ∀ sl, slotAt p 0 = some sl →
       (slotEntry s sl = .empty ∨ slotEntry s sl = .blocked →
         exec (.blockSlot (commandBody p)) s = .next (writeReply .done [] (setSlot sl .blocked s)) ∧
         exec (.unblockSlot (commandBody p)) s = .next (writeReply .done [] (setSlot sl .empty s))) ∧
       (slotEntry s sl ≠ .empty → slotEntry s sl ≠ .blocked →
         exec (.blockSlot (commandBody p)) s = .next (writeReply .slotTaken [] s) ∧
         exec (.unblockSlot (commandBody p)) s = .next (writeReply .state [] s))) ∧
  (∀ (sl other : Slot) (e : SlotEntry) (s : State),
     slotEntry (setSlot sl e s) sl = e ∧ (other ≠ sl → slotEntry (setSlot sl e s) other = slotEntry s other) ∧
       slotIndex sl < 18432) ∧
  (∀ (p : List Byte) (s : State), linkIdle s → p.length = 2 → ∃ t,
     exec (.setProtection (commandBody p)) s = .next (writeReply .done
       [BitVec.ofNat 8 (s.protection.toNat / 256), BitVec.ofNat 8 s.protection.toNat,
         BitVec.ofNat 8 (t.protection.toNat / 256), BitVec.ofNat 8 t.protection.toNat] t) ∧
     t.protection.toNat = wordAt p 0 ∧ { t with protection := s.protection } = s ∧
     ∀ b : Nat, isProtected t b = (wordAt p 0).testBit (b / 1024))

/-! ### Work -/

/-- R37: the visit rules for a task on a bin. With no open visit a free number is needed; the open visit must be no relocation,
not on its way back, and hold fewer than 8 tasks.

R24, R34, R37: a task placed on a bin with no open visit creates a QUEUED DELIVERY visit with the task alone, which the bin
names; on a bin with one it joins at the end of its list, and is shown at once if the visit is AT_FACE. Nothing else
changes. -/
def Obligations.TasksArePlaced : Prop :=
  (∀ (s : State) (r : BinRec),
     (∀ n : Nat, freeVisit s = some n ↔ n < 64 ∧ visit s n = none ∧ ∀ m : Nat, m < n → (visit s m).isSome = true) ∧
     (r.openVisit = none →
       ((∃ n, freeVisit s = some n) → visitRule s r = none) ∧
       (freeVisit s = none → visitRule s r = some .tableFull)) ∧
     ∀ (n : Nat) (v : VisitRec), r.openVisit = some n → visit s n = some v →
       (v.kind = .relocation ∨ v.state = .withdrawing ∨ v.state = .atOutbound ∨ v.state = .inbound →
         visitRule s r = some .binBusy) ∧
       (v.kind ≠ .relocation → v.state ≠ .withdrawing → v.state ≠ .atOutbound → v.state ≠ .inbound →
         (8 ≤ v.tasks.length → visitRule s r = some .tasksFull) ∧ (v.tasks.length < 8 → visitRule s r = none))) ∧
  (∀ (s : State) (b : Nat) (r : BinRec) (k : TaskRec), bin s b = some r → k.state = .pending →
     (∀ n : Nat, r.openVisit = none → freeVisit s = some n →
       (placeTask b r k s).visit = n ∧ (placeTask b r k s).index = 0 ∧
       (placeTask b r k s).state = setBin b { r with openVisit := some n }
         (setVisit n ⟨.delivery, b, .queued, s.time.ms, k.priority, decide (k.kind = .fetch) && k.urgent, [k], HoldSet.none,
           false, none, ⟨false, false, false⟩, none⟩ s)) ∧
     ∀ (n : Nat) (v : VisitRec), r.openVisit = some n → visit s n = some v →
       (placeTask b r k s).visit = n ∧ (placeTask b r k s).index = v.tasks.length ∧
       (placeTask b r k s).state =
         if v.state = .atFace then
           showTask (zoneOf r.home.aisle) v.tasks.length k (setVisit n (v.withTasks (v.tasks ++ [k])) s)
         else setVisit n (v.withTasks (v.tasks ++ [k])) s)

/-- R36: the priority of a visit brought up to date is the highest among its PENDING tasks, or 0 with none; it is urgent exactly
while a PENDING FETCH task carries the flag. Its other fields but the list stay. -/
def Obligations.PriorityIsTheHighestPending : Prop :=
  ∀ (v : VisitRec) (ts : List TaskRec),
    (∀ k ∈ ts, k.state = .pending → k.priority ≤ (v.withTasks ts).priority) ∧
    ((v.withTasks ts).priority = 0 ∨ ∃ k ∈ ts, k.state = .pending ∧ k.priority = (v.withTasks ts).priority) ∧
    ((v.withTasks ts).urgent = true ↔ ∃ k ∈ ts, k.state = .pending ∧ k.kind = .fetch ∧ k.urgent = true) ∧
    (v.withTasks ts).tasks = ts ∧
    { v.withTasks ts with priority := v.priority, urgent := v.urgent, tasks := v.tasks } = v

/-- R54 to R56: a Lend that passes every check places a LEND task with the clamped due day, adds a lend hold and counts a
pending LEND; the reply is DONE_CLAMPED where the day was clamped. -/
def Obligations.LendIsPlaced : Prop :=
  ∀ (p : List Byte) (s : State) (r : BinRec) (day : Nat) (q : Placed), linkIdle s → s.mode = .service → p.length = 11 →
    keyAt p 0 ≠ 0 → wordAt p 6 < 16384 → byteAt p 8 ≤ 3 → bin s (wordAt p 6) = some r → r.quarantined = false →
    zoneClosed s (zoneOf r.home.aisle) = false → service s r.home.aisle = .inService →
    keyTaken s (keyAt p 0) = false → s.recordCount + s.pendingLends < param s 38 → r.lendHolds < r.fill →
    visitRule s r = none → day = clampDue s.day (wordAt p 9) →
    q = placeTask (wordAt p 6) r ⟨.lend, some (keyAt p 0), byteAt p 8, false, some day, .pending, false⟩ s →
    ∃ t, Settles s (zoneOf r.home.aisle)
        (modBin (wordAt p 6) (fun y => { y with lendHolds := y.lendHolds + 1 })
          { q.state with pendingLends := q.state.pendingLends + 1 }) t ∧
      exec (.lend (commandBody p)) s = .next (writeReply (if day = wordAt p 9 then .done else .doneClamped)
        [BitVec.ofNat 8 q.visit, BitVec.ofNat 8 q.index, BitVec.ofNat 8 (day / 256), BitVec.ofNat 8 day] t)

/-- R54: the checks of Lend in their order, each refusing with its code and changing nothing. A key is out already that has a
record, or that a PENDING task of an open visit carries. -/
def Obligations.LendIsRefusedInOrder : Prop :=
  (∀ (s : State) (key : ItemKey), keyTaken s key = true ↔ (lookup s.withdrawals key).found = true ∨
     ∃ e ∈ s.visits, e.2.outcome = none ∧ ∃ k ∈ e.2.tasks, k.state = .pending ∧ k.key = some key) ∧
  ∀ (p : List Byte) (s : State), linkIdle s → s.mode = .service → p.length = 11 →
    let refused := fun code => exec (.lend (commandBody p)) s = .next (writeReply code [] s)
    (keyAt p 0 = 0 ∨ 16384 ≤ wordAt p 6 ∨ 3 < byteAt p 8 → refused .badValue) ∧
    (keyAt p 0 ≠ 0 → wordAt p 6 < 16384 → byteAt p 8 ≤ 3 →
      (bin s (wordAt p 6) = none → refused .noSuchBin) ∧
      ∀ r, bin s (wordAt p 6) = some r →
        (r.quarantined = true → refused .quarantined) ∧
        (r.quarantined = false →
          (zoneClosed s (zoneOf r.home.aisle) = true → refused .zoneClosed) ∧
          (zoneClosed s (zoneOf r.home.aisle) = false →
            (service s r.home.aisle ≠ .inService → refused .aisleOut) ∧
            (service s r.home.aisle = .inService →
              (keyTaken s (keyAt p 0) = true → refused .alreadyOut) ∧
              (keyTaken s (keyAt p 0) = false →
                (param s 38 ≤ s.recordCount + s.pendingLends → refused .tableFull) ∧
                (s.recordCount + s.pendingLends < param s 38 →
                  (r.fill ≤ r.lendHolds → refused .binEmpty) ∧
                  (r.lendHolds < r.fill →
                    (visitRule s r = some .tableFull → refused .tableFull) ∧
                    (visitRule s r = some .binBusy → refused .binBusy) ∧
                    (visitRule s r = some .tasksFull → refused .tasksFull))))))))

/-- R64, R65: a Return of an item that is OUT places a RETURN task on its home bin and turns its record RETURNING with the
visit's number. A key of 0 or a priority above 3 is BAD_VALUE, a key with no record NOT_OUT and one that is RETURNING already
ALREADY_RETURNING; then the zone, the aisle and the visit rules are checked in this order; a refusal changes nothing. -/
def Obligations.ReturnIsPlaced : Prop :=
  ∀ (p : List Byte) (s : State), linkIdle s → s.mode = .service → p.length = 7 →
    let refused := fun code => exec (.returnItem (commandBody p)) s = .next (writeReply code [] s)
    (keyAt p 0 = 0 ∨ 3 < byteAt p 6 → refused .badValue) ∧
    (keyAt p 0 ≠ 0 → byteAt p 6 ≤ 3 → withdrawal s (keyAt p 0) = none → refused .notOut) ∧
    ∀ w, keyAt p 0 ≠ 0 → byteAt p 6 ≤ 3 → withdrawal s (keyAt p 0) = some w →
      (w.state = .returning → refused .alreadyReturning) ∧
      ∀ r, w.state = .out → bin s w.homeBin = some r →
        (∀ code, FirstFailing (placeChecks s r.home.aisle ++ visitChecks s r) code → refused code) ∧
        ∀ q : Placed, zoneClosed s (zoneOf r.home.aisle) = false → service s r.home.aisle = .inService →
          visitRule s r = none →
          q = placeTask w.homeBin r ⟨.return, some (keyAt p 0), byteAt p 6, false, none, .pending, false⟩ s →
          ∃ t, Settles s (zoneOf r.home.aisle)
              { q.state with
                withdrawals := tablePut q.state.withdrawals (lookup s.withdrawals (keyAt p 0)).bucket
                  { w with state := .returning, returnVisit := some q.visit } } t ∧
            exec (.returnItem (commandBody p)) s = .next (writeReply .done
              [BitVec.ofNat 8 (w.homeBin / 256), BitVec.ofNat 8 w.homeBin, BitVec.ofNat 8 q.visit, BitVec.ofNat 8 q.index] t)

/-- R68, R69: a Refile that names its bin places a REFILE task on it and holds room for the item. BAD_VALUE, NO_SUCH_BIN,
QUARANTINED, ZONE_CLOSED, AISLE_OUT, ALREADY_OUT, NO_ROOM and the visit rules are refused in this order, changing nothing; the
size class and the station are not examined. -/
def Obligations.RefileToANamedBin : Prop :=
  ∀ (p : List Byte) (s : State), linkIdle s → s.mode = .service → p.length = 11 → wordAt p 6 ≠ 0xFFFF →
    let refused := fun code => exec (.refile (commandBody p)) s = .next (writeReply code [] s)
    (keyAt p 0 = 0 ∨ 16384 ≤ wordAt p 6 ∨ 3 < byteAt p 10 → refused .badValue) ∧
    (keyAt p 0 ≠ 0 → wordAt p 6 < 16384 → byteAt p 10 ≤ 3 → bin s (wordAt p 6) = none → refused .noSuchBin) ∧
    ∀ r, keyAt p 0 ≠ 0 → wordAt p 6 < 16384 → byteAt p 10 ≤ 3 → bin s (wordAt p 6) = some r →
      (∀ code, FirstFailing ((r.quarantined = true, .quarantined) :: placeChecks s r.home.aisle ++
        [(keyTaken s (keyAt p 0) = true, .alreadyOut), (r.capacity ≤ r.fill + r.withdrawn + r.refileHolds, .noRoom)] ++
        visitChecks s r) code → refused code) ∧
      ∀ q : Placed, r.quarantined = false → zoneClosed s (zoneOf r.home.aisle) = false →
        service s r.home.aisle = .inService → keyTaken s (keyAt p 0) = false →
        r.fill + r.withdrawn + r.refileHolds < r.capacity → visitRule s r = none →
        q = placeTask (wordAt p 6) r ⟨.refile, some (keyAt p 0), byteAt p 10, false, none, .pending, false⟩ s →
        ∃ t, Settles s (zoneOf r.home.aisle)
            (modBin (wordAt p 6) (fun y => { y with refileHolds := y.refileHolds + 1 }) q.state) t ∧
          exec (.refile (commandBody p)) s = .next (writeReply .done
            [BitVec.ofNat 8 (wordAt p 6 / 256), BitVec.ofNat 8 (wordAt p 6), BitVec.ofNat 8 q.visit,
              BitVec.ofNat 8 q.index] t)

/-- R70, R167: Refile with ANY that passes its checks keeps CMD_BUSY with the message in the command buffer, and starts the
placement search at bin 0 with no winner; the search holds the ms time counter at this moment, which is the creation time of
the visit it may create (R24). Nothing else changes and no reply is written. BAD_VALUE, ZONE_CLOSED, AISLE_OUT, with no aisle of
the station in service, and ALREADY_OUT are refused in this order, changing nothing. -/
def Obligations.RefileAnyStartsTheSearch : Prop :=
  ∀ (p : List Byte) (s : State), linkIdle s → s.mode = .service → p.length = 11 → wordAt p 6 = 0xFFFF →
    let refused := fun code => exec (.refile (commandBody p)) s = .next (writeReply code [] s)
    (keyAt p 0 = 0 ∨ 3 < byteAt p 8 ∨ (∀ z, stationOf (byteAt p 9) = some z → stationPresent s z = false) ∨
      3 < byteAt p 10 → refused .badValue) ∧
    ∀ z, keyAt p 0 ≠ 0 → byteAt p 8 ≤ 3 → stationOf (byteAt p 9) = some z → stationPresent s z = true →
      byteAt p 10 ≤ 3 →
      (∀ code, FirstFailing [(zoneClosed s z = true, .zoneClosed),
        (service s (aisle0 z) ≠ .inService ∧ service s (aisle1 z) ≠ .inService, .aisleOut),
        (keyTaken s (keyAt p 0) = true, .alreadyOut)] code → refused code) ∧
      (zoneClosed s z = false → service s (aisle0 z) = .inService ∨ service s (aisle1 z) = .inService →
        keyTaken s (keyAt p 0) = false →
        exec (.refile (commandBody p)) s = .next { s with
          chanP := ⟨.bin, 0, 16383, 0, none, .single, .running, [], 0, false⟩
          search := ⟨keyAt p 0, byteAt p 8, z, byteAt p 10, s.time.ms, none⟩
          link := { s.link with command := 0x32 :: commandBody p, cmdBusy := true } })

/-- R71, R72: a step of the placement search judges the bin at the cursor: one that fits takes the place of the winner when it
has strictly more room; before the last bin the cursor passes on, and nothing else changes.

R73: the end of a pass, once the last bin is judged, be it in use or free. A closed zone ends the search with ZONE_CLOSED and no
winner with NO_ROOM; a winner that still fits takes the REFILE task and is replied; one that does not starts a second pass,
and after that NO_ROOM. That the pass count of a search that has ended stays 0, or 1 after a second pass, is the model's choice
(log entry 39).

R24, R69: a bin with no open visit takes the task in a new DELIVERY visit, QUEUED under the lowest free number with the task
alone, index 0; its creation time is the moment the Refile was taken, not that of the pass's end. It is else the visit that a
command taken now would create (`TasksArePlaced`). -/
def Obligations.PlacementSearchRuns : Prop :=
  (∀ (s x : State) (w : Option Winner), inReset s = false → s.chanP.state = .running →
     ((∀ r, bin s s.chanP.cursor = some r → isCandidate s s.chanP.cursor r = false) → w = s.search.winner) →
     (∀ r, bin s s.chanP.cursor = some r → isCandidate s s.chanP.cursor r = true →
       ((∃ y, s.search.winner = some y ∧ room r ≤ y.room) → w = s.search.winner) ∧
       ((∀ y, s.search.winner = some y → y.room < room r) → w = some ⟨s.chanP.cursor, room r⟩)) →
     x = { s with search := { s.search with winner := w } } →
     (s.chanP.cursor < s.chanP.last → exec .placementSearchStep s =
       .next { x with chanP := { s.chanP with cursor := s.chanP.cursor + 1 } }) ∧
     (s.chanP.last ≤ s.chanP.cursor →
       let ended := fun code => exec .placementSearchStep s =
         .next (writeReply code [] { x with chanP := { s.chanP with state := .idle } })
       (zoneClosed s s.search.station = true → ended .zoneClosed) ∧
       (zoneClosed s s.search.station = false →
         (w = none → ended .noRoom) ∧
         ∀ y, w = some y →
           ((∀ r, bin s y.bin = some r → isCandidate s y.bin r = false) →
             (s.chanP.passCount = 0 → exec .placementSearchStep s = .next { x with
               chanP := ⟨.bin, 0, 16383, 0, none, .single, .running, [], 1, false⟩
               search := { s.search with winner := none } }) ∧
             (s.chanP.passCount ≠ 0 → ended .noRoom)) ∧
           ∀ (r : BinRec) (q : Placed), bin s y.bin = some r → isCandidate s y.bin r = true →
             q = placeTaskAt s.search.taken y.bin r
               ⟨.refile, some s.search.key, s.search.priority, false, none, .pending, false⟩ x →
             ∃ t, Settles x (zoneOf r.home.aisle)
                 (modBin y.bin (fun g => { g with refileHolds := g.refileHolds + 1 }) q.state) t ∧
               exec .placementSearchStep s = .next (writeReply .done
                 [BitVec.ofNat 8 (y.bin / 256), BitVec.ofNat 8 y.bin, BitVec.ofNat 8 q.visit, BitVec.ofNat 8 q.index]
                 { t with chanP := { s.chanP with state := .idle } })))) ∧
  (∀ s : State, inReset s = false → s.chanP.state ≠ .running → exec .placementSearchStep s = .next s) ∧
  (∀ (s : State) (b : Nat) (r : BinRec), isCandidate s b r = true ↔
     zoneOf r.home.aisle = s.search.station ∧ service s r.home.aisle = .inService ∧
     r.sizeClass = s.search.sizeClass ∧ isProtected s b = false ∧ r.quarantined = false ∧ visitRule s r = none ∧
     r.fill + r.withdrawn + r.refileHolds < r.capacity) ∧
  ∀ (taken b : Nat) (r : BinRec) (k : TaskRec) (s : State),
    (∀ n : Nat, bin s b = some r → r.openVisit = none → freeVisit s = some n → ∃ v w,
      visit (placeTask b r k s).state n = some w ∧ v = { w with created := taken } ∧
      (k.state = .pending → v = ⟨.delivery, b, .queued, taken, k.priority, decide (k.kind = .fetch) && k.urgent, [k],
        HoldSet.none, false, none, ⟨false, false, false⟩, none⟩) ∧
      visit (placeTaskAt taken b r k s).state n = some v ∧
      bin (placeTaskAt taken b r k s).state b = some { r with openVisit := some n } ∧
      (placeTaskAt taken b r k s).visit = n ∧ (placeTaskAt taken b r k s).index = 0 ∧
      (placeTask b r k s).visit = n ∧ (placeTask b r k s).index = 0 ∧
      (placeTaskAt taken b r k s).state = setVisit n v (placeTask b r k s).state) ∧
    ∀ n : Nat, r.openVisit = some n → placeTaskAt taken b r k s = placeTask b r k s

/-- R38: Fetch places a FETCH task with no key; an urgent one has priority 3. BAD_VALUE (an urgent flag above 1 too, R182),
NO_SUCH_BIN, ZONE_CLOSED, AISLE_OUT and the visit rules are refused in this order, changing nothing.

R15: Move Home of a bin in its home slot to an EMPTY slot of its aisle reserves the slot as TARGET and creates a RELOCATION
visit under the lowest free number, which the bin names. BAD_VALUE, which takes in another aisle and the present home slot,
NO_SUCH_BIN, QUARANTINED, PROTECTED, ZONE_CLOSED, AISLE_OUT, BIN_BUSY, STATE, SLOT_TAKEN and TABLE_FULL are refused in this
order, changing nothing. That an absent aisle is AISLE_OUT is the model's choice (log entry 12). -/
def Obligations.FetchAndMoveHomeArePlaced : Prop :=
  (∀ (p : List Byte) (s : State), linkIdle s → s.mode = .service → p.length = 4 →
     let refused := fun code => exec (.fetch (commandBody p)) s = .next (writeReply code [] s)
     let bad := 16384 ≤ wordAt p 0 ∨ 3 < byteAt p 2 ∨ 1 < byteAt p 3
     (bad → refused .badValue) ∧ (¬bad → bin s (wordAt p 0) = none → refused .noSuchBin) ∧
     ∀ r, ¬bad → bin s (wordAt p 0) = some r →
       (∀ code, FirstFailing (placeChecks s r.home.aisle ++ visitChecks s r) code → refused code) ∧
       ∀ q : Placed, zoneClosed s (zoneOf r.home.aisle) = false → service s r.home.aisle = .inService →
         visitRule s r = none →
         q = placeTask (wordAt p 0) r
           ⟨.fetch, none, if byteAt p 3 = 1 then 3 else byteAt p 2, decide (byteAt p 3 = 1), none, .pending, false⟩ s →
         ∃ t, Settles s (zoneOf r.home.aisle) q.state t ∧
           exec (.fetch (commandBody p)) s =
             .next (writeReply .done [BitVec.ofNat 8 q.visit, BitVec.ofNat 8 q.index] t)) ∧
  ∀ (p : List Byte) (s : State), linkIdle s → s.mode = .service → p.length = 6 →
    let refused := fun code => exec (.moveHome (commandBody p)) s = .next (writeReply code [] s)
    (16384 ≤ wordAt p 0 ∨ slotAt p 2 = none → refused .badValue) ∧
    (∀ sl, wordAt p 0 < 16384 → slotAt p 2 = some sl → bin s (wordAt p 0) = none → refused .noSuchBin) ∧
    ∀ sl r, wordAt p 0 < 16384 → slotAt p 2 = some sl → bin s (wordAt p 0) = some r →
      (∀ code, FirstFailing [(sl.aisle ≠ r.home.aisle ∨ sl = r.home, .badValue), (r.quarantined = true, .quarantined),
        (isProtected s (wordAt p 0) = true, .protected_), (zoneClosed s (zoneOf r.home.aisle) = true, .zoneClosed),
        (service s r.home.aisle ≠ .inService, .aisleOut), (r.openVisit ≠ none, .binBusy), (r.location ≠ .slot, .state),
        (slotEntry s sl ≠ .empty, .slotTaken), (freeVisit s = none, .tableFull)] code → refused code) ∧
      ∀ n, sl.aisle = r.home.aisle → sl ≠ r.home → r.quarantined = false → isProtected s (wordAt p 0) = false →
        zoneClosed s (zoneOf r.home.aisle) = false → service s r.home.aisle = .inService → r.openVisit = none →
        r.location = .slot → slotEntry s sl = .empty → freeVisit s = some n →
        ∃ t, Settles s (zoneOf r.home.aisle)
            (setBin (wordAt p 0) { r with openVisit := some n }
              (setVisit n ⟨.relocation, wordAt p 0, .queued, s.time.ms, 0, false, [], HoldSet.none, false, some sl,
                  ⟨false, false, false⟩, none⟩
                (setSlot sl (.target (wordAt p 0)) s))) t ∧
          exec (.moveHome (commandBody p)) s = .next (writeReply .done [BitVec.ofNat 8 n] t)

/-- R42, R43: Cancel Task cancels one PENDING task, gives back what it held and shows an AT_FACE panel the rest; a DELIVERY
visit with none left and its bin in its home slot ends. Cancel Visit cancels every PENDING task and sends an AT_FACE panel
CLEAR; with the bin in its home slot the visit ends, case 0, and otherwise it runs on, case 1.

R43: a bin is in its home slot while it is located SLOT with no FORK_PICK of it in flight on its aisle's crane.

R35, R58, R59, R67, R75: what a task that ends unsettled gives back. A LEND gives up its lend hold and is no pending LEND any
more; the record of a RETURN's item is OUT again, with no return visit; a REFILE gives up its refile hold; a FETCH held nothing.
The PENDING tasks of a list give back in list order. Their refusals, in the order
of R42 and R43, change nothing.

R16, R43, R87, R111: a visit that a cancellation ends is CANCELLED with that outcome, a relocation's target slot becomes EMPTY,
and no further segment of its leg is issued: in RETRY_WAIT the leg is dropped. That the fork mark of a fork of it is cleared is
DEDUCED (log entry 13). -/
def Obligations.WorkIsCancelled : Prop :=
  (∀ (b : Nat) (k : TaskRec) (r : BinRec) (s : State), bin s b = some r →
     (k.kind = .lend → releaseTask b k s =
       setBin b { r with lendHolds := r.lendHolds - 1 } { s with pendingLends := s.pendingLends - 1 }) ∧
     (∀ key w, k.kind = .return → k.key = some key → withdrawal s key = some w → releaseTask b k s = { s with
       withdrawals := tablePut s.withdrawals (lookup s.withdrawals key).bucket { w with
         state := .out, returnVisit := none } }) ∧
     (k.kind = .refile → releaseTask b k s = setBin b { r with refileHolds := r.refileHolds - 1 } s) ∧
     (k.kind = .fetch → releaseTask b k s = s) ∧ releasePending b [] s = s ∧
     ∀ ks, releasePending b (k :: ks) s = releasePending b ks (if k.state = .pending then releaseTask b k s else s)) ∧
  (∀ (n : Nat) (v : VisitRec) (r : BinRec) (a : Aisle) (s t : State), visit s n = some v → bin s v.bin = some r →
     a = r.home.aisle → t = endCancelled n v s →
     crane t a = { crane s a with
       leg := (crane s a).leg.bind fun l => if l.visit ≠ n then some l
         else if (crane s a).state = .retryWait then none else some { l with cancelled := true }
       dropped := (crane s a).dropped.bind fun l => if l.visit = n then none else some l } ∧
     forkMark t a = (if (crane s a).leg.any (·.visit == n) then none else forkMark s a) ∧
     (∀ b : Aisle, b ≠ a → crane t b = crane s b ∧ forkMark t b = forkMark s b) ∧
     { t with cranes := s.cranes, forkMarks := s.forkMarks } = (match v.kind, v.target with
       | .relocation, some sl => setSlot sl .empty (endVisit n .cancelled .cancelled s)
       | _, _ => endVisit n .cancelled .cancelled s)) ∧
  (∀ (s : State) (b : Nat) (r : BinRec), bin s b = some r → (inHomeSlot s b = true ↔ r.location = .slot ∧
     ¬∃ g, (crane s r.home.aisle).segment = some g ∧ g.kind = .forkPick ∧ forkMark s r.home.aisle = some b)) ∧
  (∀ (p : List Byte) (s : State), linkIdle s → s.mode = .service →
     let task := fun code => exec (.cancelTask (commandBody p)) s = .next (writeReply code [] s)
     let whole := fun code => exec (.cancelVisit (commandBody p)) s = .next (writeReply code [] s)
     (p.length = 2 →
       (64 ≤ byteAt p 0 ∨ 8 ≤ byteAt p 1 → task .badValue) ∧
       (byteAt p 0 < 64 → byteAt p 1 < 8 → visit s (byteAt p 0) = none → task .noSuchVisit) ∧
       ∀ v, byteAt p 0 < 64 → byteAt p 1 < 8 → visit s (byteAt p 0) = some v →
         ∀ code, FirstFailing [(v.outcome ≠ none, .state), (v.tasks.length ≤ byteAt p 1, .noSuchTask),
           (∃ k, v.tasks[byteAt p 1]? = some k ∧ k.state ≠ .pending, .state)] code → task code) ∧
     (p.length = 1 →
       (64 ≤ byteAt p 0 → whole .badValue) ∧ (byteAt p 0 < 64 → visit s (byteAt p 0) = none → whole .noSuchVisit) ∧
       ∀ v, byteAt p 0 < 64 → visit s (byteAt p 0) = some v → v.outcome ≠ none → whole .state)) ∧
  ∀ (p : List Byte) (s : State) (v : VisitRec) (r : BinRec), linkIdle s → s.mode = .service → byteAt p 0 < 64 →
    visit s (byteAt p 0) = some v → v.outcome = none → bin s v.bin = some r →
    (∀ (k : TaskRec) (w : VisitRec) (u : State), p.length = 2 → byteAt p 1 < 8 → v.tasks[byteAt p 1]? = some k →
      k.state = .pending → w = v.withTasks (v.tasks.set (byteAt p 1) { k with state := .cancelled }) →
      u = (if v.state = .atFace then resendTasks (zoneOf r.home.aisle) else id)
        (setVisit (byteAt p 0) w (releaseTask v.bin k s)) →
      ∃ t, Settles s (zoneOf r.home.aisle)
          (if v.kind = .delivery ∧ hasPending w = false ∧ inHomeSlot s v.bin = true then endCancelled (byteAt p 0) w u
            else u) t ∧
        exec (.cancelTask (commandBody p)) s = .next (writeReply .done [] t)) ∧
    ∀ (w : VisitRec) (u : State), p.length = 1 →
      w = v.withTasks (v.tasks.map fun k => if k.state = .pending then { k with state := .cancelled } else k) →
      u = (if v.state = .atFace then sendPanel (zoneOf r.home.aisle) .clear else id)
        (setVisit (byteAt p 0) w (releasePending v.bin v.tasks s)) →
      ∃ t, Settles s (zoneOf r.home.aisle) (if inHomeSlot s v.bin then endCancelled (byteAt p 0) w u else u) t ∧
        exec (.cancelVisit (commandBody p)) s = .next (writeReply .done [if inHomeSlot s v.bin then 0 else 1] t)

/-- R28, R29, R77: a visit that ends takes its state and outcome, loses its hold and its reservation, which its station gets
back, and is no longer its bin's open visit; after DONE the last visit day is today and DAMAGED quarantines the bin.
VISIT_ENDED is set. Every other bin and visit stays. -/
def Obligations.VisitsEnd : Prop :=
  ∀ (n : Nat) (st : VisitState) (o : VisitOutcome) (s t : State) (v : VisitRec) (r : BinRec), visit s n = some v →
    bin s v.bin = some r → t = endVisit n st o s →
    visit t n = some { v with state := st, outcome := some o, hold := HoldSet.none, reservation := false } ∧
    bin t v.bin = some { r with
      openVisit := none
      lastVisitDay := if o = .done then some s.day else r.lastVisitDay
      quarantined := r.quarantined || (decide (o = .done) && v.problems.damaged) } ∧
    reservations t r.home.aisle = reservations s r.home.aisle - (if v.reservation then 1 else 0) ∧
    (∀ a : Aisle, a ≠ r.home.aisle → reservations t a = reservations s a) ∧
    (∀ z : Station, { station t z with resv0 := (station s z).resv0, resv1 := (station s z).resv1 } = station s z) ∧
    (∀ m : Nat, m ≠ n → visit t m = visit s m) ∧ (∀ b : Nat, b ≠ v.bin → bin t b = bin s b) ∧
    t.link = { s.link with attention := s.link.attention ||| 1#24 } ∧
    { t with visits := s.visits, bins := s.bins, link := s.link, stations := s.stations } = s

/-- R44, R62: Retire Visit frees the entry of an ended visit; a number above 63 is BAD_VALUE, a free entry NO_SUCH_VISIT and an
open visit STATE. Write Off Item deletes the record of an item that is OUT, and its home bin's withdrawn count falls by 1; a key
of 0 is BAD_VALUE, one with no record NOT_OUT and one that is RETURNING ALREADY_RETURNING. -/
def Obligations.RecordsAreCleared : Prop :=
  ∀ (p : List Byte) (s : State), linkIdle s → s.mode = .service →
    (p.length = 1 → 64 ≤ byteAt p 0 → exec (.retireVisit (commandBody p)) s = .next (writeReply .badValue [] s)) ∧
    (p.length = 1 → byteAt p 0 < 64 → visit s (byteAt p 0) = none →
      exec (.retireVisit (commandBody p)) s = .next (writeReply .noSuchVisit [] s)) ∧
    (p.length = 6 → keyAt p 0 = 0 → exec (.writeOffItem (commandBody p)) s = .next (writeReply .badValue [] s)) ∧
    (∀ v, p.length = 1 → byteAt p 0 < 64 → visit s (byteAt p 0) = some v →
      (v.outcome = none → exec (.retireVisit (commandBody p)) s = .next (writeReply .state [] s)) ∧
      (v.outcome ≠ none → exec (.retireVisit (commandBody p)) s =
        .next (writeReply .done [] { s with visits := tableErase s.visits (byteAt p 0) }))) ∧
    (p.length = 6 → keyAt p 0 ≠ 0 →
      (withdrawal s (keyAt p 0) = none → exec (.writeOffItem (commandBody p)) s = .next (writeReply .notOut [] s)) ∧
      ∀ w, withdrawal s (keyAt p 0) = some w →
        (w.state = .returning → exec (.writeOffItem (commandBody p)) s = .next (writeReply .alreadyReturning [] s)) ∧
        ∀ r, w.state = .out → bin s w.homeBin = some r →
          exec (.writeOffItem (commandBody p)) s = .next (writeReply .done
            [BitVec.ofNat 8 (w.homeBin / 256), BitVec.ofNat 8 w.homeBin, BitVec.ofNat 8 (r.withdrawn - 1)]
            (setBin w.homeBin { r with withdrawn := r.withdrawn - 1 } (deleteRecord (keyAt p 0) s))))

/-! ### Scans -/

/-- R158: Start Scan with a table, a range within it, a filter and argument of the table and a mode starts channel Q afresh at
the range's start, whatever it did before; anything else is BAD_VALUE. The codes of R182 Table 3: BIN 0 and WITHDRAWAL 1, SINGLE
0 and LOOP 1, and the filters of each table from 0; the argument is four bytes, an aisle up to 7 or a count up to 250 in the
last, a day in the last two, or a low bound and a high bound up to 16,383 and not below it, and bytes not used are 0.

R161: Read Scan Results carries and removes up to 8 entries of a BIN query, or 6 of a WITHDRAWAL query, and a PAUSED channel
with fewer than 16 left runs on. R182 Table 4: the counts carried and left, the table, state and DISTURBED, the cursor, the pass
count, and the entries. -/
def Obligations.QueriesStartAndAreRead : Prop :=
  (∀ n, (∀ t, scanTableOf n = some t ↔ (n = 0 ∧ t = .bin) ∨ (n = 1 ∧ t = .withdrawal)) ∧
     ∀ m, scanModeOf n = some m ↔ (n = 0 ∧ m = .single) ∨ (n = 1 ∧ m = .loop)) ∧
  (∀ (p : List Byte) (code : Nat) (f : Filter),
     let zero := fun k : Nat => ∀ j : Nat, j < k → byteAt p (6 + j) = 0
     (filterOf p 6 .bin code = some f ↔
       (zero 4 ∧ ((code = 0 ∧ f = .stranded) ∨ (code = 1 ∧ f = .obstructed) ∨ (code = 2 ∧ f = .uncertain) ∨
         (code = 3 ∧ f = .quarantined) ∨ (code = 6 ∧ f = .openVisit))) ∨
       (code = 4 ∧ zero 3 ∧ byteAt p 9 ≤ 7 ∧ f = .homeAisle (byteAt p 9)) ∨
       (code = 5 ∧ zero 3 ∧ byteAt p 9 ≤ 250 ∧ f = .fillAtMost (byteAt p 9)) ∨
       (code = 7 ∧ zero 2 ∧ f = .idleSince (wordAt p 8))) ∧
     (filterOf p 6 .withdrawal code = some f ↔
       (zero 4 ∧ ((code = 0 ∧ f = .overdue) ∨ (code = 3 ∧ f = .returning))) ∨
       (code = 1 ∧ zero 2 ∧ f = .outBefore (wordAt p 8)) ∨
       (code = 2 ∧ wordAt p 6 ≤ wordAt p 8 ∧ wordAt p 8 ≤ 16383 ∧ f = .homeBinRange (wordAt p 6) (wordAt p 8)))) ∧
  (∀ (es : List ScanEntry) (q : ChannelRec),
     let num := fun (k x : Nat) => (List.range k).reverse.map fun i => (BitVec.ofNat 8 (x / 256 ^ i) : Byte)
     scanBytes es q = num 1 es.length ++ num 1 q.results.length ++
       num 1 ((if q.table = .bin then 0 else 1) + 2 * (match q.state with
         | .idle => 0
         | .running => 1
         | .paused => 2
         | .done => 3) + if q.disturbed then 8 else 0) ++
       num 2 q.cursor ++ num 2 q.passCount ++ es.flatMap fun e => match e with
         | .bin n => num 2 n
         | .bucket n key => num 2 n ++ num 6 key.toNat) ∧
  ∀ (p : List Byte) (s : State) (k : Nat) (q : ChannelRec), linkIdle s →
    (p.length = 11 →
      (∀ t m f, scanTableOf (byteAt p 0) = some t → scanModeOf (byteAt p 10) = some m → wordAt p 1 ≤ wordAt p 3 →
        wordAt p 3 < (if t = .bin then 16384 else 4096) → filterOf p 6 t (byteAt p 5) = some f →
        exec (.startScan (commandBody p)) s = .next (writeReply .done []
          { s with chanQ := ⟨t, wordAt p 1, wordAt p 3, wordAt p 1, some f, m, .running, [], 0, false⟩ })) ∧
      (scanTableOf (byteAt p 0) = none ∨ scanModeOf (byteAt p 10) = none ∨ wordAt p 3 < wordAt p 1 ∨
        (∃ t, scanTableOf (byteAt p 0) = some t ∧
          ((if t = .bin then 16384 else 4096) ≤ wordAt p 3 ∨ filterOf p 6 t (byteAt p 5) = none)) →
        exec (.startScan (commandBody p)) s = .next (writeReply .badValue [] s))) ∧
    (p = [] → k = (if s.chanQ.table = .bin then 8 else 6) →
      q = { s.chanQ with
        results := s.chanQ.results.drop k
        state := if s.chanQ.state = .paused ∧ (s.chanQ.results.drop k).length < 16 then .running else s.chanQ.state } →
      exec (.readScanResults (commandBody p)) s =
        .next (writeReply .done (scanBytes (s.chanQ.results.take k) q) { s with chanQ := q }))

/-- R162: Stop Scan turns channel Q IDLE, keeps all else of it, and replies the state it had; nothing else changes, and no
attention bit is set. A scan step after it changes nothing. -/
def Obligations.StopScanEndsTheQuery : Prop :=
  ∀ s : State, linkIdle s →
    exec (.stopScan (commandBody [])) s = .next (writeReply .done
      [match s.chanQ.state with
        | .idle => 0
        | .running => 1
        | .paused => 2
        | .done => 3] { s with chanQ := { s.chanQ with state := .idle } }) ∧
    (s.chanQ.state = .idle → exec (.stopScan (commandBody [])) s = .next (writeReply .done [0] s)) ∧
    (∀ t, exec (.stopScan (commandBody [])) s = .next t → exec .scanStep t = .next t)

/-- R159, R160: a step of a RUNNING channel Q judges the record at the cursor by the filter (Table 3) and lists it if it passes;
a free bin record or an empty bucket passes none. The cursor passes on; at the range's end a SINGLE scan is DONE and a LOOP
begins again; a list of 16 entries pauses. A pass end and a pause set SCAN_Q. Nothing else changes. -/
def Obligations.ScanStepJudgesOneRecord : Prop :=
  ∀ s : State, inReset s = false →
    (s.chanQ.state ≠ .running → exec .scanStep s = .next s) ∧
    (∀ rs : List ScanEntry, s.chanQ.state = .running → rs = s.chanQ.results ++ (judgeQuery s s.chanQ).toList →
      (s.chanQ.cursor < s.chanQ.last → rs.length < 16 →
        exec .scanStep s = .next { s with chanQ := { s.chanQ with results := rs, cursor := s.chanQ.cursor + 1 } }) ∧
      (s.chanQ.cursor < s.chanQ.last → 16 ≤ rs.length →
        exec .scanStep s = .next (setAttention 17
          { s with chanQ := { s.chanQ with results := rs, cursor := s.chanQ.cursor + 1, state := .paused } })) ∧
      (s.chanQ.last ≤ s.chanQ.cursor → s.chanQ.mode = .single →
        exec .scanStep s = .next (setAttention 17
          { s with chanQ := { s.chanQ with results := rs, passCount := 1, state := .done } })) ∧
      (s.chanQ.last ≤ s.chanQ.cursor → s.chanQ.mode = .loop →
        exec .scanStep s = .next (setAttention 17
          { s with chanQ := { s.chanQ with
            results := rs, cursor := s.chanQ.first
            passCount := if s.chanQ.passCount < 65535 then s.chanQ.passCount + 1 else s.chanQ.passCount
            state := if 16 ≤ rs.length then .paused else .running } }))) ∧
    (∀ (f : Filter) (r : BinRec) (pass : Prop), s.chanQ.table = .bin → s.chanQ.filter = some f →
      bin s s.chanQ.cursor = some r →
      (pass ↔ match f with
        | .stranded => r.stranded = true
        | .obstructed => r.obstructed = true
        | .uncertain => r.uncertain = true
        | .quarantined => r.quarantined = true
        | .homeAisle a => r.home.aisle.val = a
        | .fillAtMost n => r.fill ≤ n
        | .openVisit => r.openVisit ≠ none
        | .idleSince day => ∀ d, r.lastVisitDay = some d → d < day
        | .overdue | .outBefore _ | .homeBinRange _ _ | .returning => False) →
      (pass → judgeQuery s s.chanQ = some (.bin s.chanQ.cursor)) ∧ (¬pass → judgeQuery s s.chanQ = none)) ∧
    (s.chanQ.table = .bin → bin s s.chanQ.cursor = none → judgeQuery s s.chanQ = none) ∧
    (s.chanQ.table = .withdrawal → tableGet s.withdrawals s.chanQ.cursor = none → judgeQuery s s.chanQ = none) ∧
    ∀ (f : Filter) (w : WithdrawalRec) (pass : Prop), s.chanQ.table = .withdrawal → s.chanQ.filter = some f →
      tableGet s.withdrawals s.chanQ.cursor = some w →
      (pass ↔ match f with
        | .overdue => w.dueDay < s.day
        | .outBefore day => w.outDay < day
        | .homeBinRange low high => low ≤ w.homeBin ∧ w.homeBin ≤ high
        | .returning => w.state = .returning
        | .stranded | .obstructed | .uncertain | .quarantined | .homeAisle _ | .fillAtMost _ | .openVisit
        | .idleSince _ => False) →
      (pass → judgeQuery s s.chanQ = some (.bucket s.chanQ.cursor w.key)) ∧ (¬pass → judgeQuery s s.chanQ = none)

/-! ### Machinery commands and set-up -/

/-- R93: Suspend Aisle with no leg in hand takes effect at once, reply SUSPENDED: the aisle is SUSPENDED, its crane OFFLINE with
neither leg nor segment, and every open visit of the aisle takes AISLE_SUSPENDED. With a leg or a parking fork to finish the
aisle is SUSPENDING, and so, by the model's choice, in RETRY_WAIT with the leg dropped (log entry 28); replies after the event
are its choice too (log entry 11). An aisle that is suspended already stays so.

R94, R113: Resume Aisle returns a suspended aisle to IN_SERVICE, with a HOME order to its crane where it was SUSPENDED and the
zone is not closed. Clear Crane homes a FAULTED crane with no supply fault, or takes it OFFLINE in a closed zone. R109, R112: a
HOME order homes a crane that is PARKED, READY, RESTING or, with supply OK, OFFLINE, after WAKE if it rests or is OFFLINE; an
OFFLINE one without supply takes the SUPPLY fault; any other goes on as it was. That a kept leg and what a park order dropped
end with the homing is DEDUCED (log entry 14).

A number that is no aisle is BAD_VALUE, and an absent one AISLE_OUT, to the three commands.

R116, R84: what taking a crane OFFLINE and a suspension (R79 Table 1) do to the crane, the claims of its aisle and the open
visits. -/
def Obligations.AislesSuspendAndCranesAreReleased : Prop :=
  (∀ (c : Instr) (p : List Byte) (s : State), linkIdle s → s.mode = .service → p.length = 1 →
     c = .suspendAisle (commandBody p) ∨ c = .resumeAisle (commandBody p) ∨ c = .clearCrane (commandBody p) →
     (aisleOf (byteAt p 0) = none → exec c s = .next (writeReply .badValue [] s)) ∧
     ∀ a, aisleOf (byteAt p 0) = some a → aislePresent s a = false → exec c s = .next (writeReply .aisleOut [] s)) ∧
  (∀ (p : List Byte) (s : State) (a : Aisle), linkIdle s → s.mode = .service → p.length = 1 →
     aisleOf (byteAt p 0) = some a → aislePresent s a = true →
     ((aisleRec s a).suspension = .suspending →
       exec (.suspendAisle (commandBody p)) s = .next (writeReply .done [2] s)) ∧
     ((aisleRec s a).suspension = .suspended →
       exec (.suspendAisle (commandBody p)) s = .next (writeReply .done [3] s)) ∧
     ((aisleRec s a).suspension = .inService → suspendsAtOnce (crane s a) = true → ∃ u t,
       (aisleRec u a).suspension = .suspended ∧ (crane u a).state = .offline ∧ (crane u a).leg = none ∧
       (crane u a).segment = none ∧ (crane u a).carried = (crane s a).carried ∧
       (∀ n v, visit u n = some v → v.outcome = none → binAisle u v.bin = some a → v.hold.aisleSuspended = true) ∧
       u = takeSuspension a s ∧ Settles s (zoneOf a) u t ∧
       exec (.suspendAisle (commandBody p)) s = .next (writeReply .done [3] t)) ∧
     ((aisleRec s a).suspension = .inService → suspendsAtOnce (crane s a) = false → ∃ t,
       Settles s (zoneOf a) (setAisle a { aisleRec s a with suspension := .suspending } s) t ∧
       exec (.suspendAisle (commandBody p)) s = .next (writeReply .done [2] t)) ∧
     (suspendsAtOnce (crane s a) = true ↔
       (crane s a).state = .ready ∨ (crane s a).state = .resting ∨ (crane s a).state = .homing ∨
       (crane s a).state = .faulted ∨ (crane s a).state = .parked ∨ (crane s a).state = .offline ∨
       ((crane s a).state = .parking ∧ forkInFlight (crane s a) = false))) ∧
  (∀ (p : List Byte) (s : State) (a : Aisle), linkIdle s → s.mode = .service → p.length = 1 →
     aisleOf (byteAt p 0) = some a → aislePresent s a = true →
     ((aisleRec s a).suspension = .inService →
       exec (.resumeAisle (commandBody p)) s = .next (writeReply .state [] s)) ∧
     (∀ u, (aisleRec s a).suspension ≠ .inService → u = setAisle a { aisleRec s a with suspension := .inService } s → ∃ t,
       Settles s (zoneOf a)
         (if (aisleRec s a).suspension = .suspended ∧ zoneClosed s (zoneOf a) = false then homeOrder a u else u) t ∧
       exec (.resumeAisle (commandBody p)) s = .next (writeReply .done [1] t)) ∧
     ((crane s a).state ≠ .faulted ∨ (crane s a).supplyFault = true →
       exec (.clearCrane (commandBody p)) s = .next (writeReply .state [] s)) ∧
     ((crane s a).state = .faulted → (crane s a).supplyFault = false → zoneClosed s (zoneOf a) = false → ∃ t,
       Settles s (zoneOf a) (startHome a true s) t ∧ (crane t a).state = .homing ∧ (crane t a).latched = none ∧
       (crane t a).homingClear = true ∧ exec (.clearCrane (commandBody p)) s = .next (writeReply .done [1] t)) ∧
     ((crane s a).state = .faulted → (crane s a).supplyFault = false → zoneClosed s (zoneOf a) = true → ∃ t,
       Settles s (zoneOf a) (takeOffline a s) t ∧ (crane t a).state = .offline ∧ (crane t a).latched = none ∧
       exec (.clearCrane (commandBody p)) s = .next (writeReply .done [0] t))) ∧
  (∀ (a : Aisle) (s t u : State) (c : CraneRec), c = crane s a →
     (t = takeOffline a s →
       crane t a = { c with
         state := .offline, segment := none, estimate := none, deadline := 0, leg := none, latched := none
         supplyFault := false, homingClear := false, retryTimer := none, restTimer := none } ∧
       (∀ b : Aisle, b ≠ a → crane t b = crane s b) ∧
       t.sent = s.sent ++ (if c.segment = none then [] else [.drive a .stop]) ∧
       aisleRec t a = { aisleRec s a with grant := false } ∧ waiting t a = false ∧
       reservations t a = reservations s a - (if (aisleRec s a).grant then 1 else 0) ∧
       { t with cranes := s.cranes, aisles := s.aisles, stations := s.stations, sent := s.sent } = s) ∧
     (t = takeSuspension a s → u = takeOffline a (setAisle a { aisleRec s a with suspension := .suspended } s) →
       { t with visits := s.visits } = u ∧
       ∀ n, visit t n = (visit s n).map fun v => if v.outcome = none ∧ binAisle s v.bin = some a then
         { v with hold := { v.hold with aisleSuspended := true } } else v)) ∧
  (∀ (a : Aisle) (clear : Bool) (s t u : State), t = startHome a clear s →
     u = issue a ⟨.home, 0, param s 4, .mouth, 0⟩ false s →
     t = setCrane a { crane u a with
       state := .homing, homingClear := clear, parkOrder := false, leg := none, dropped := none, latched := none } u ∧
     t.sent = s.sent ++ (if (crane s a).state = .resting ∨ (crane s a).state = .offline then [.drive a .wake] else []) ++
       [.drive a .home]) ∧
  (∀ (a : Aisle) (s : State), aislePresent s a = (s.params.get 0).value.getLsbD a.val ∧
     service s a = if aislePresent s a then (match (aisleRec s a).suspension with
       | .inService => .inService
       | .suspending => .suspending
       | .suspended => .suspended) else .absent) ∧
  ∀ (a : Aisle) (s : State) (c : CraneRec), c = crane s a →
    (c.state = .parked ∨ c.state = .ready ∨ c.state = .resting → homeOrder a s = startHome a false s) ∧
    (c.state = .offline → c.supply = .ok → homeOrder a s = startHome a false s) ∧
    (c.state = .offline → c.supply = .low ∨ c.supply = .high → homeOrder a s = takeSupplyFault a s) ∧
    (c.state = .faulted ∨ c.state = .homing ∨ c.state = .waking ∨ c.state = .moving ∨ c.state = .retryWait ∨
      c.state = .parking → homeOrder a s = s)

/-- R149, R150, R151: Restore Zone in AWAIT_RESTORE is the entry to RECOVERY: marks and report cleared, the reopen order and the
tasks to the station, and HOME orders to the cranes. Drill sets its injection, or removes all three, and the zone acts on the
levels. R131 Table 6: the reopen order by the state of the shutter; that its report is kept only in RECOVERY, and that the park
order of a PARKED or OFFLINE crane ends then, is DEDUCED (log entries 15 and 14), and the lower aisle first the model's choice
(log entry 10). A station that is not present counts as having reported OPEN, with the report field left none (the model's
choice, log entry 37). The replies give the zone after the event (the model's choice, log entry 11).

A zone or station that is none, and for Reopen Station one that is not present, is BAD_VALUE.

R132: Reopen Station of an OUT station with its beam clear in a zone that is not closed: with the shutter OPEN it leaves OUT at
once and its visits lose STATION_OUT; otherwise the end of the travel towards OPEN, begun if need be, is to answer it. -/
def Obligations.ZoneAndStationCommandsAct : Prop :=
  (∀ (p : List Byte) (s : State), linkIdle s → s.mode = .service →
     (stationOf (byteAt p 0) = none →
       (p.length = 1 → exec (.restoreZone (commandBody p)) s = .next (writeReply .badValue [] s)) ∧
       (p.length = 2 → exec (.drill (commandBody p)) s = .next (writeReply .badValue [] s))) ∧
     (p.length = 1 → (∀ z, stationOf (byteAt p 0) = some z → stationPresent s z = false) →
       exec (.reopenStation (commandBody p)) s = .next (writeReply .badValue [] s))) ∧
  (∀ (p : List Byte) (s : State) (z : Station), linkIdle s → s.mode = .service → stationOf (byteAt p 0) = some z →
     (p.length = 1 → (zone s z).state ≠ .awaitRestore →
       exec (.restoreZone (commandBody p)) s = .next (writeReply .state [] s)) ∧
     (∀ u, p.length = 1 → (zone s z).state = .awaitRestore →
       u = enterZoneState z .recovery (setZone z { zone s z with
         panelClearSeen := false, reopenReport := .none, recovered0 := false, recovered1 := false } s) → ∃ t,
       Settles s z (homeCranes z (liftParkOrders z
         (if stationPresent s z then resendTasks z (reopenOrder z u) else u))) t ∧
       exec (.restoreZone (commandBody p)) s = .next (writeReply .done [BitVec.ofNat 8 (zone t z).state.code] t)) ∧
     (p.length = 2 → 4 ≤ byteAt p 1 → exec (.drill (commandBody p)) s = .next (writeReply .badValue [] s)) ∧
     ∀ w, p.length = 2 → byteAt p 1 < 4 →
       w = (if byteAt p 1 = 0 then { zone s z with injectAlert := true, drill := true }
         else if byteAt p 1 = 1 then { zone s z with injectFire := true, drill := true }
         else if byteAt p 1 = 2 then { zone s z with injectClear := true, drill := true }
         else { zone s z with injectAlert := false, injectFire := false, injectClear := false, drill := false }) → ∃ t,
       Settles s z (actOnLevels s z (setZone z w s)) t ∧
       exec (.drill (commandBody p)) s =
         .next (writeReply .done (BitVec.ofNat 8 (zone t z).state.code :: injectionByte w) t)) ∧
  (∀ (p : List Byte) (s : State) (z : Station), linkIdle s → s.mode = .service → p.length = 1 →
     stationOf (byteAt p 0) = some z → stationPresent s z = true →
     (zoneClosed s z = true → exec (.reopenStation (commandBody p)) s = .next (writeReply .zoneClosed [] s)) ∧
     (zoneClosed s z = false →
       (((station s z).jammed = false ∧ (station s z).reopenFault = false) ∨ (station s z).beam = true →
         exec (.reopenStation (commandBody p)) s = .next (writeReply .state [] s)) ∧
       ∀ u, ((station s z).jammed = true ∨ (station s z).reopenFault = true) → (station s z).beam = false →
         u = (match (station s z).shutter with
           | .open => liftHoldWhere .stationOut (fun _ v => ofZone s z v)
               (setStation z { station s z with jammed := false, reopenFault := false } s)
           | .opening => setStation z { station s z with reopenCommand := true } s
           | .closing | .closed => setStation z { station s z with
               reopenCommand := true, holdOpen := true, shutter := .opening
               travelTimer := some (1000 * param s 32) } s) → ∃ t,
         Settles s z u t ∧ exec (.reopenStation (commandBody p)) s =
           .next (writeReply .done [BitVec.ofNat 8 (station t z).shutter.code] t))) ∧
  (∀ (z : Station) (s : State) (r : StationRec), r = station s z →
     let reports := fun (rep : ReopenReport) (u : State) =>
       if (zone s z).state = .recovery then setZone z { zone s z with reopenReport := rep } u else u
     (r.shutter = .open → reopenOrder z s = reports .open (setStation z { r with closeOrder := false } s)) ∧
     (r.shutter = .opening → reopenOrder z s = setStation z { r with closeOrder := false, reopenOrdered := true } s) ∧
     (r.shutter = .closing ∨ r.shutter = .closed →
       (r.reopenFault = true →
         reopenOrder z s = reports .reopenFault (setStation z { r with closeOrder := false } s)) ∧
       (r.reopenFault = false → reopenOrder z s = setStation z { r with
         closeOrder := false, holdOpen := true, shutter := .opening, travelTimer := some (1000 * param s 32)
         reopenOrdered := true } s))) ∧
  ∀ (z : Station) (s t : State),
    (t = liftParkOrders z s → { t with cranes := s.cranes } = s ∧ ∀ a, crane t a =
      if zoneOf a = z ∧ ((crane s a).state = .parked ∨ (crane s a).state = .offline) then
        { crane s a with parkOrder := false } else crane s a) ∧
    homeCranes z s = [aisle0 z, aisle1 z].foldl
      (fun u a => if service u a = .inService ∧ u.mode = .service then homeOrder a u else u) s

/-- R136, R167: Line Test at a station whose lane, face and opening are empty, with no crossing and no reservation and the
shutter OPEN or CLOSED, holds CMD_BUSY. Until its end every change of a sensor of the station is watched: the beam is blocked
for the whole window unless it was seen clear, and both limits asserted, or neither, counts once seen, while the shutter is in
the state it had at the start (DEDUCED, log entry 16). After 125 ms the panel line is driven low, with what was seen on it;
after 250 ms the first finding of Table 8 is replied, each message received is answered by REPEAT, and CLEAR is sent, unless the
link is inhibited. That the drive is taken from 125 ms on, and the end from 250 ms on and after the drive, is DEDUCED (log entry
16); that a half which is not due changes nothing is the model's choice (log entry 4). -/
def Obligations.LineTestRuns : Prop :=
  ∀ (p : List Byte) (s : State) (z : Station),
    (linkIdle s → p.length = 1 → (∀ y, stationOf (byteAt p 0) = some y → stationPresent s y = false) →
      exec (.lineTest (commandBody p)) s = .next (writeReply .badValue [] s)) ∧
    (linkIdle s → p.length = 1 → stationOf (byteAt p 0) = some z → stationPresent s z = true →
      (mayTest s z = true → exec (.lineTest (commandBody p)) s = .next { setStation z { station s z with
        lineTest := some ⟨0, (station s z).shutter, false, false, (station s z).beam,
          (station s z).openLimit && (station s z).closedLimit, !(station s z).openLimit && !(station s z).closedLimit,
          0⟩ } s with
        link := { s.link with command := 0x68 :: commandBody p, cmdBusy := true } }) ∧
      (mayTest s z = false → exec (.lineTest (commandBody p)) s = .next (writeReply .state [] s))) ∧
    (mayTest s z = true ↔ (station s z).lane = [] ∧ (station s z).face = none ∧ (station s z).crossing = none ∧
      (station s z).resv0 = 0 ∧ (station s z).resv1 = 0 ∧
      (∀ b, (station s z).openingBin = some b → binLocation s b ≠ some (.opening z)) ∧
      ((station s z).shutter = .open ∨ (station s z).shutter = .closed)) ∧
    (∀ x low, inReset s = false → (station s z).lineTest = some x →
      exec (.lineTestDrive z low) s = .next (if x.driven = false ∧ 125 ≤ x.elapsed then
        setStation z { station s z with lineTest := some { x with driven := true, lowBefore := low } } s else s)) ∧
    (∀ (x : LineTestRec) (r : StationRec) (c : Instr), inReset s = false → stationPresent s z = true →
      (station s z).lineTest = some x →
      (c = .beamBlocked z ∧ r = { station s z with beam := true }) ∨
      (c = .beamClear z ∧ r = { station s z with beam := false }) ∨
      (c = .openLimitAsserted z ∧ r = { station s z with
        openLimit := true
        shutter := if (station s z).shutter = .opening then .open else (station s z).shutter }) ∨
      (c = .openLimitReleased z ∧ r = { station s z with openLimit := false }) ∨
      (c = .closedLimitAsserted z ∧ r = { station s z with
        closedLimit := true
        shutter := if (station s z).shutter = .closing then .closed else (station s z).shutter }) ∨
      (c = .closedLimitReleased z ∧ r = { station s z with closedLimit := false }) →
      ∃ t, exec c s = .next t ∧ (station t z).beam = r.beam ∧ (station t z).openLimit = r.openLimit ∧
        (station t z).closedLimit = r.closedLimit ∧ (station t z).lineTest = some { x with
          beamWhole := x.beamWhole && r.beam
          bothLimits := x.bothLimits || (decide (r.shutter = x.shutterStart) && r.openLimit && r.closedLimit)
          noLimit := x.noLimit || (decide (r.shutter = x.shutterStart) && !r.openLimit && !r.closedLimit) }) ∧
    ∀ x high u, inReset s = false → (station s z).lineTest = some x →
      u = { setStation z { station s z with lineTest := none } s with
        sent := s.sent ++ if stationPresent s z = true ∧ zoneClosed s z = false then
          List.replicate x.messages (.panel z .repeat) ++ [.panel z .clear] else [] } →
      (x.driven = false ∨ x.elapsed < 250 → exec (.lineTestEnd z high) s = .next s) ∧
      (x.driven = true → 250 ≤ x.elapsed → ∃ t,
        Settles s z u t ∧
        exec (.lineTestEnd z high) s = .next (writeReply .done
          [if x.lowBefore then 1 else if high then 2 else if x.beamWhole then 3 else if x.bothLimits then 4
            else if x.noLimit then 5 else 0] t))

/-- R175: Set Parameter checks the number and code, the parity, the mode for the numbers 0..5 and a mask that would remove
what is in use, in this order; it stores the value brought into its range (R174 Table 1), with its parity, and replies what is
stored, DONE_CLAMPED if that differs. A numeric value goes to the nearer end of its range, the ratio to the greatest of 2, 4,
6 and 8 that does not exceed it, and the unused bits of a mask to 0; the code of a mode is kept or refused.

R139, R176: what the change does at once. An aisle that the mask removes or adds has no suspension mark. A station removed
releases its output, and where a close order stood its zone has no more to wait for; one added has the record of a station that
leaves a reset (R138). The polarity mask changes the present levels, and so the deglitch windows. Nothing else changes. What a
removed station reports, and that an added one has its sensors as they were tracked, is DEDUCED (log entry 12). -/
def Obligations.SetParameterStores : Prop :=
  (∀ v : BitVec 16,
     (∀ e ∈ ([(2, 200, 2000), (3, 200, 1000), (4, 0, 11), (5, 0, 95), (6, 8000, 40000), (7, 200, 6000), (8, 200, 4000),
         (9, 100, 3000), (10, 100, 3000), (11, 0, 2000), (12, 500, 10000), (13, 0, 5000), (14, 16, 64), (15, 0, 10000),
         (16, 10, 600), (17, 5, 900), (18, 1, 600), (25, 100, 10000), (26, 0, 20), (27, 2, 9), (28, 1, 15), (30, 2, 30),
         (31, 30, 3600), (32, 1, 30), (34, 1, 1000), (35, 1, 1000), (36, 1, 1000), (37, 5, 60), (38, 1024, 4000)] :
         List (Nat × Nat × Nat)),
       (paramRange e.1).badCode v = false ∧
       ((paramRange e.1).clamp v).toNat =
         if v.toNat < e.2.1 then e.2.1 else if e.2.2 < v.toNat then e.2.2 else v.toNat) ∧
     (∀ e ∈ ([(0, 0xFF), (1, 0xF), (33, 0x3FF), (39, 0xFFFF), (40, 0xF)] : List (Nat × BitVec 16)),
       (paramRange e.1).badCode v = false ∧ (paramRange e.1).clamp v = v &&& e.2) ∧
     (∀ e ∈ ([(19, 4), (20, 4), (21, 4), (22, 4), (23, 4), (24, 2)] : List (Nat × Nat)),
       ((paramRange e.1).badCode v = true ↔ e.2 ≤ v.toNat) ∧ (paramRange e.1).clamp v = v) ∧
     (paramRange 29).badCode v = false ∧
     ∀ x : Nat, x = ((paramRange 29).clamp v).toNat → (x = 2 ∨ x = 4 ∨ x = 6 ∨ x = 8) ∧ (v.toNat < 2 → x = 2) ∧
       (2 ≤ v.toNat → x ≤ v.toNat ∧ (x = 8 ∨ v.toNat < x + 2))) ∧
  (∀ (n : Fin 41) (v : BitVec 16) (s : State), removesUsed n v s = true ↔
     (n = 0 ∧ ∃ a, aislePresent s a = true ∧ v.getLsbD a.val = false ∧ ∃ e ∈ s.bins, e.2.home.aisle = a) ∨
     (n = 1 ∧ ∃ z, stationPresent s z = true ∧ v.getLsbD z.val = false ∧ ∃ e ∈ s.bins,
       (∃ q, e.2.location = .lane z q) ∨ e.2.location = .opening z ∨ e.2.location = .face z ∨
       e.2.location = .outbound z)) ∧
  (∀ (n : Fin 41) (before s t : State), t = paramEffect n before s →
     (n ≠ 0 → n ≠ 1 → n ≠ 33 → t = s) ∧
     (n = 0 → { t with aisles := s.aisles } = s ∧ ∀ a, aisleRec t a =
       if aislePresent before a = aislePresent s a then aisleRec s a else { aisleRec s a with suspension := .inService }) ∧
     (n = 33 → { t with inputs := s.inputs } = s ∧ ∀ i : FireInput, conditioner t i = { conditioner s i with
       window := if ((conditioner s i).pinHigh != (s.params.get 33).value.getLsbD i.val) = (conditioner s i).taken then none
         else if (conditioner s i).window = none then
           some (param s (if i.val < 4 then 34 else if i.val < 9 then 35 else 36))
         else (conditioner s i).window }) ∧
     (n = 1 → { t with stations := s.stations, zones := s.zones, sent := s.sent } = s ∧ s.sent <+: t.sent ∧
       ∀ (z : Station) (r : StationRec), r = station s z →
         (stationPresent before z = stationPresent s z → station t z = r ∧ zone t z = zone s z) ∧
         (stationPresent before z = true → stationPresent s z = false →
           station t z = (if r.holdOpen then { r with
             holdOpen := false, shutter := .closing, travelTimer := some (1000 * param s 32), reopenOrdered := false
             reopenCommand := false } else r) ∧
           zone t z = if r.closeOrder then { zone s z with released := true, holdTimer := none } else zone s z) ∧
         ∀ (face : Option FaceRec) (at_ : Option VisitState) (opens : Bool),
           let located := fun loc : Location => (s.bins.find? fun e => decide (e.2.location = loc)).map (·.1)
           stationPresent before z = false → stationPresent s z = true →
           face = (located (.face z)).bind (fun b => ((bin s b).bind (·.openVisit)).map fun n => ⟨b, n⟩) →
           at_ = face.bind (fun f => (visit s f.visit).map (·.state)) →
           opens = (!zoneClosed s z && !r.reopenFault) →
           (if zoneClosed s z then .panel z .locked else .panel z .clear) ∈ t.sent ∧
           zone t z = { zone s z with
             released := (zone s z).released || zoneClosed s z
             holdTimer := if zoneClosed s z then none else (zone s z).holdTimer
             reopenReport := if (zone s z).state = .recovery ∧ r.reopenFault = true then .reopenFault
               else (zone s z).reopenReport } ∧
           station t z = { StationRec.reset with
             lane := ([0, 1, 2] : List (Fin 3)).filterMap fun p => located (.lane z p)
             face := face
             outbound := located (.outbound z)
             openingBin := match located (.opening z) with
               | some b => some b
               | none => if at_ = some .withdrawing ∧ face.any (fun f => (bin s f.bin).any (·.obstructed)) = true then
                   face.map (·.bin) else none
             shutter := if opens then .opening else .closing
             travelTimer := some (1000 * param s 32)
             holdOpen := opens
             reopenOrdered := opens
             closeOrder := zoneClosed s z
             jammed := r.jammed
             reopenFault := r.reopenFault
             faceTimer := if at_ = some .atFace then some (1000 * param s 31) else none
             openLimit := r.openLimit
             closedLimit := r.closedLimit
             beam := r.beam })) ∧
  ∀ (p : List Byte) (s : State) (v : BitVec 16), linkIdle s → p.length = 4 → v.toNat = wordAt p 1 →
    let refused := fun code => exec (.setParameter (commandBody p)) s = .next (writeReply code [] s)
    (41 ≤ byteAt p 0 → refused .badValue) ∧
    ∀ n : Fin 41, n.val = byteAt p 0 →
      ((paramRange n.val).badCode v = true ∨ 1 < byteAt p 3 → refused .badValue) ∧
      ((paramRange n.val).badCode v = false → byteAt p 3 ≤ 1 →
        ((oddOnes v).toNat ≠ byteAt p 3 → refused .parity) ∧
        ((oddOnes v).toNat = byteAt p 3 →
          (n.val ≤ 5 → s.mode = .service → refused .notInCommissioning) ∧
          (5 < n.val ∨ s.mode = .commissioning → ∀ v', v' = (paramRange n.val).clamp v →
            (removesUsed n v' s = true → refused .state) ∧
            (removesUsed n v' s = false → ∃ t,
              SettlesAll s (paramEffect n s { s with params := s.params.set n.val ⟨v', oddOnes v'⟩ n.isLt }) t ∧
              exec (.setParameter (commandBody p)) s = .next (writeReply (if v' = v then .done else .doneClamped)
                [BitVec.ofNat 8 (v'.toNat / 256), BitVec.ofNat 8 v'.toNat, BitVec.ofNat 8 (oddOnes v').toNat] t)))))

/-- R53, R177, R178: Set Day moves the day forward only. Finish Commissioning, with an aisle present and every bin's home aisle
present, turns the mode SERVICE and gives the HOME orders. Enter Commissioning, with no open visit and nothing on a crane, turns
the mode COMMISSIONING, takes every crane OFFLINE as R116 gives and ends every drill. That a SUSPENDING aisle stays so, and that
a zone acts on the release of an injected level, are the model's choices (log entries 29 and 33), and so is the order of cranes
and zones (log entry 10). -/
def Obligations.SetUpCommandsAct : Prop :=
  ∀ (p : List Byte) (s : State), linkIdle s →
    (p.length = 2 →
      (wordAt p 0 < s.day → exec (.setDay (commandBody p)) s = .next (writeReply .dayBackward [] s)) ∧
      (s.day ≤ wordAt p 0 → exec (.setDay (commandBody p)) s = .next (writeReply .done
        [BitVec.ofNat 8 (wordAt p 0 / 256), BitVec.ofNat 8 (wordAt p 0)] { s with day := wordAt p 0 }))) ∧
    (homeAll s = ([0, 1, 2, 3] : List Station).foldl (fun t z => if zoneClosed t z then t else homeCranes z t) s) ∧
    (s.mode = .commissioning →
      ((∀ a, aislePresent s a = false) ∨ (∃ e ∈ s.bins, aislePresent s e.2.home.aisle = false) →
        exec (.finishCommissioning (commandBody [])) s = .next (writeReply .state [] s)) ∧
      ((∃ a, aislePresent s a = true) → (∀ e ∈ s.bins, aislePresent s e.2.home.aisle = true) → ∃ t,
        SettlesAll s (homeAll { s with mode := .service }) t ∧ t.mode = .service ∧
        exec (.finishCommissioning (commandBody [])) s = .next (writeReply .done [] t))) ∧
    (s.mode = .service →
      ((∃ e ∈ s.visits, e.2.outcome = none) ∨ (∃ a, (crane s a).carried ≠ none) →
        exec (.enterCommissioning (commandBody [])) s = .next (writeReply .state [] s)) ∧
      ((∀ e ∈ s.visits, e.2.outcome ≠ none) → (∀ a, (crane s a).carried = none) → ∃ u t,
        u = enterCommissioningMode s ∧ u.mode = .commissioning ∧ (∀ z, (zone u z).drill = false ∧
          (zone u z).injectAlert = false ∧ (zone u z).injectFire = false ∧ (zone u z).injectClear = false) ∧
        (∀ a, (crane u a).state = .offline ∧ crane u a = crane (takeOffline a s) a) ∧
        u = ([0, 1, 2, 3] : List Station).foldl (fun v z => actOnLevels v z (setZone z { zone v z with
            injectAlert := false, injectFire := false, injectClear := false, drill := false } v))
          (([0, 1, 2, 3, 4, 5, 6, 7] : List Aisle).foldl (fun v a => takeOffline a v) { s with mode := .commissioning }) ∧
        SettlesAll s u t ∧
        exec (.enterCommissioning (commandBody [])) s = .next (writeReply .done [] t)))

/-! ### Cranes -/

/-- R98, R100, R101, R21, R88, R90, R91: the issue of a segment. The record holds it with its time, estimate and deadline,
every count of the last segment is gone, but that a re-issue (`keep`) keeps the retry count (R111), a fork marks its bin, a
HOME makes the position unknown; WAKE is sent first to a RESTING crane, and to an OFFLINE one before HOME, then the segment's
message. Nothing else changes.

R85, R111: the segments of a leg in their order (Table 5): a TRAVEL and a FORK_PICK at the source, a TRAVEL and a FORK_PLACE
at the target. The segment in hand is issued when it is due, and after the HOME of a retry; a TRAVEL to the crane's own
position is not, and the next segment, or the fork it was run for, is issued in its place; with the position unknown a HOME is
issued instead of a TRAVEL. A leg that passes on issues its next segment, and the crane is MOVING.

R90 Table 7: the estimate of a TRAVEL or PARK is the greater of the two axis times (R89) plus settle, from the crane's
position to the target; that of a fork the fork time; each with wake for a RESTING crane. A HOME has none, and, by the model's
choice (log entry 38), neither has a PARK with the position unknown on an axis. -/
def Obligations.SegmentsAreIssued : Prop :=
  (∀ (s : State) (c : CraneRec) (col level wake : Nat), wake = (if c.state = .resting then param s 13 else 0) →
     segmentEstimate s c .home col level = none ∧
     (∀ kind, kind = .forkPick ∨ kind = .forkPlace → segmentEstimate s c kind col level = some (param s 12 + wake)) ∧
     ∀ kind, kind = .travel ∨ kind = .park →
       (c.col = none ∨ c.level = none → segmentEstimate s c kind col level = none) ∧
       ∀ x y h v, c.col = some x → c.level = some y →
         h = axisTime (if x ≤ col then col - x else x - col) (param s 2) (param s 7) (param s 8) →
         v = axisTime (if y ≤ level then level - y else y - level) (param s 3) (param s 9) (param s 10) →
         segmentEstimate s c kind col level = some ((if h ≤ v then v else h) + param s 11 + wake)) ∧
  (∀ (a : Aisle) (g : SegmentRec) (keep : Bool) (s : State) (c : CraneRec) (e : Option Nat), c = crane s a →
     e = segmentEstimate s c g.kind g.col g.level →
     let home := g.kind = .home
     let fork := g.kind = .forkPick ∨ g.kind = .forkPlace
     let wake := c.state = .resting ∨ (home ∧ c.state = .offline)
     crane (issue a g keep s) a = { c with
       segment := some { g with issued := s.time.ms }, estimate := e
       deadline := match e with
         | some x => ceilDiv (x * param s 14) 16 + param s 15
         | none => 1000 * param s 16
       overran := false, retryCount := if keep then c.retryCount else 0, slipCount := 0, surgeCount := 0
       timingH := ⟨0, 0, 0⟩, timingV := ⟨0, 0, 0⟩, speedTaken := false, retryTimer := none, restTimer := none
       col := if home then none else c.col, level := if home then none else c.level } ∧
     (∀ b : Aisle, b ≠ a → crane (issue a g keep s) b = crane s b) ∧
     forkMark (issue a g keep s) a = (if fork then c.leg.map (·.bin) else forkMark s a) ∧
     (∀ b : Aisle, b ≠ a → forkMark (issue a g keep s) b = forkMark s b) ∧
     (issue a g keep s).sent = s.sent ++ (if wake then [.drive a .wake] else []) ++ [.drive a (match g.kind with
       | .travel => .go g.col g.level
       | .forkPick => .fork false g.side
       | .forkPlace => .fork true g.side
       | .park => .park
       | .home => .home)] ∧
     { issue a g keep s with cranes := s.cranes, forkMarks := s.forkMarks, sent := s.sent } = s) ∧
  (∀ (s : State) (l : LegRec) (r : BinRec), bin s l.bin = some r →
     let rack : SegKind → Slot → SegmentRec := fun kind sl => ⟨kind, sl.column.val + 1, sl.level.val, match sl.side with
       | .left => .left
       | .right => .right, 0⟩
     let mouth : SegKind → SegmentRec := fun kind => ⟨kind, 0, param s 4, .mouth, 0⟩
     let segments := ([0, 1, 2, 3] : List (Fin 4)).map fun i => legSegment s { l with seg := i }
     (l.kind = .outbound →
       segments = [rack .travel r.home, rack .forkPick r.home, mouth .travel, mouth .forkPlace]) ∧
     (l.kind = .inbound →
       segments = [mouth .travel, mouth .forkPick, rack .travel r.home, rack .forkPlace r.home]) ∧
     ∀ v sl, l.kind = .relocation → visit s l.visit = some v → v.target = some sl →
       segments = [rack .travel r.home, rack .forkPick r.home, rack .travel sl, rack .forkPlace sl]) ∧
  (∀ (a : Aisle) (keep : Bool) (s : State) (c : CraneRec) (l : LegRec) (g : SegmentRec), c = crane s a → c.leg = some l →
     g = legSegment s l →
     (g.kind ≠ .travel → l.approach = false → proceed a keep s = issue a g keep s) ∧
     (g.kind = .travel ∨ l.approach = true → c.col = none ∨ c.level = none →
       proceed a keep s = issue a ⟨.home, 0, param s 4, .mouth, 0⟩ keep s) ∧
     ∀ x y, g.kind = .travel ∨ l.approach = true → c.col = some x → c.level = some y →
       (x ≠ g.col ∨ y ≠ g.level → proceed a keep s = issue a { g with kind := .travel } keep s) ∧
       (x = g.col → y = g.level →
         (l.approach = true → proceed a keep s =
           issue a g keep (setCrane a { c with leg := some { l with approach := false } } s)) ∧
         (l.approach = false → proceed a keep s = issue a (legSegment s { l with seg := l.seg + 1 }) false
           (setCrane a { c with leg := some { l with seg := l.seg + 1 } } s)))) ∧
  ∀ (a : Aisle) (l : LegRec) (s u : State),
    u = proceed a false (setCrane a { crane s a with leg := some { l with seg := l.seg + 1 } } s) →
    nextSegment a l s = setCrane a { crane u a with state := .moving } u

/-- R99, R101, R106, R108: a MARK is unexpected while HOMING or RESTING, or with its axis's position unknown; otherwise its
index is recorded, if it lies in the range of its axis (0 to 96 as the model holds a column, 0 to 11). In a TRAVEL or PARK the
axis is timed: a mark that is not the next one towards the target counts a slip, which is a SLIP fault at the limit, and an
interval that breaks the ratio is a SPEED fault once. A mark that is both counts the slip first (this order is the model's
choice, log entry 10), and is a SPEED fault if the segment is still in flight then. In a fork every mark counts a slip. -/
def Obligations.MarksAreChecked : Prop :=
  (∀ (c : CraneRec) (i now : Nat),
     let timed := fun y : MarkTiming => (⟨y.marks + 1, now, if y.marks = 0 then 0 else now - y.last⟩ : MarkTiming)
     c.moved true i = (if i ≤ 96 then { c with col := some i } else c) ∧
     c.moved false i = (if i ≤ 11 then { c with level := some i } else c) ∧
     c.timed true now = { c with timingH := timed c.timingH } ∧ c.timed false now = { c with timingV := timed c.timingV }) ∧
  ∀ (a : Aisle) (h : Bool) (index : Byte) (s : State) (c m : CraneRec) (u : State), inReset s = false → c = crane s a →
    m = c.moved h index.toNat →
    let answered := ∃ t, Settles s (zoneOf a) u t ∧ exec (.mark a (if h then 0 else 1) index) s = .next t
    (c.state = .homing ∨ c.state = .resting ∨ (if h then c.col else c.level) = none →
      u = setCrane a { c with unexpected := if c.unexpected < 65535 then c.unexpected + 1 else c.unexpected } s → answered) ∧
    ∀ x, c.state ≠ .homing → c.state ≠ .resting → (if h then c.col else c.level) = some x →
      ((∀ g, c.segment = some g → g.kind = .home) → u = setCrane a m s → answered) ∧
      (∀ g, c.segment = some g → g.kind.isFork = true →
        (c.slipCount + 1 < param s 27 → u = setCrane a { m with slipCount := c.slipCount + 1 } s → answered) ∧
        (param s 27 ≤ c.slipCount + 1 →
          u = takeFault a .slip (setCrane a { m with slipCount := 0, col := none, level := none } s) → answered)) ∧
      ∀ (g : SegmentRec) (w : CraneRec) (y : MarkTiming), c.segment = some g → g.kind = .travel ∨ g.kind = .park →
        y = (if h then c.timingH else c.timingV) → w = m.timed h s.time.ms →
        let next := (x < (if h then g.col else g.level) ∧ index.toNat = x + 1) ∨
          ((if h then g.col else g.level) < x ∧ index.toNat + 1 = x)
        let breaks := 2 ≤ y.marks ∧ (param s 29 * y.interval < s.time.ms - y.last ∨
          (s.time.ms - y.last) * param s 29 < y.interval)
        (next → ¬breaks ∨ c.speedTaken = true → u = setCrane a w s → answered) ∧
        (next → breaks → c.speedTaken = false →
          u = takeFault a .speed (setCrane a { w with speedTaken := true } s) → answered) ∧
        (¬next → ¬breaks ∨ c.speedTaken = true →
          (c.slipCount + 1 < param s 27 → u = setCrane a { w with slipCount := c.slipCount + 1 } s → answered) ∧
          (param s 27 ≤ c.slipCount + 1 →
            u = takeFault a .slip (setCrane a { w with slipCount := 0, col := none, level := none } s) → answered)) ∧
        ∀ z : State, ¬next → breaks → c.speedTaken = false →
          z = (if c.slipCount + 1 < param s 27 then setCrane a { w with slipCount := c.slipCount + 1 } s
            else takeFault a .slip (setCrane a { w with slipCount := 0, col := none, level := none } s)) →
          ((crane z a).segment = none → u = z → answered) ∧
          ((crane z a).segment ≠ none →
            u = takeFault a .speed (setCrane a { crane z a with speedTaken := true } z) → answered)

/-- R87, R100, R101, R114, R118: ARRIVED ends a PARK, which leaves the crane PARKED at the target and a carried bin STRANDED, or
a TRAVEL, after which the leg goes on with its next segment, or with the fork the TRAVEL was run for; with no leg to go on
with, the crane enters READY. With no such segment the report is counted as unexpected.

R12, R13, R15, R26, R100: FORK_DONE of a leg. A pick puts the bin on the crane and empties its source, and the next segment
is issued; a place puts it at the leg's target, STRANDED cleared, and the crane enters READY: an inbound bin in its home slot
and a relocated one in its new slot end their visits DONE, and an outbound one joins the tail of the lane.

R114, R146: FORK_DONE of a crane that a park order found in a fork, of the leg it dropped. The fork completes as any other and
PARK is issued, the crane PARKING and its aisle without a grant or a wait; a leg whose last segment this was is not dropped any
more. In a SUSPENDING aisle the suspension takes effect in place of the PARK (R93). -/
def Obligations.LegSegmentsComplete : Prop :=
  (∀ (a : Aisle) (s : State) (c : CraneRec) (u : State), inReset s = false → c = crane s a →
     let answered := ∃ t, Settles s (zoneOf a) u t ∧ exec (.arrived a) s = .next t
     ((∀ g, c.segment = some g → g.kind ≠ .travel ∧ g.kind ≠ .park) →
       u = setCrane a { c with unexpected := if c.unexpected < 65535 then c.unexpected + 1 else c.unexpected } s → answered) ∧
     ∀ (g : SegmentRec) (w : CraneRec), c.segment = some g →
       w = { c with segment := none, estimate := none, deadline := 0, col := some g.col, level := some g.level } →
       (g.kind = .park →
         (c.carried = none → u = setCrane a { w with state := .parked } s → answered) ∧
         (∀ b r, c.carried = some b → bin s b = some r →
           u = setBin b { r with stranded := true } (setCrane a { w with state := .parked } s) → answered)) ∧
       (g.kind = .travel →
         (c.leg = none → u = enterReady a (setCrane a w s) → answered) ∧
         ∀ l, c.leg = some l →
           (l.cancelled = true → u = enterReady a (setCrane a w s) → answered) ∧
           (l.cancelled = false → l.approach = false → u = nextSegment a l (setCrane a w s) → answered) ∧
           (l.cancelled = false → l.approach = true →
             u = setCraneState a .moving (proceed a true (setCrane a { w with leg := some { l with approach := false } } s)) →
             answered))) ∧
  (∀ (a : Aisle) (s : State) (c : CraneRec) (l : LegRec) (r : BinRec), c = crane s a → bin s l.bin = some r →
     (∀ y,
       y = setCrane a { c with segment := none, estimate := none, deadline := 0, carried := some l.bin } (setForkMark a none s) →
       (l.kind ≠ .inbound →
         pickDone a l s = setBin l.bin { r with location := .crane a } (setSlot r.home (.home l.bin) y)) ∧
       (l.kind = .inbound → pickDone a l s = setBin l.bin { r with location := .crane a }
         (setStation (zoneOf a) { station s (zoneOf a) with outbound := none } y))) ∧
     ∀ x y, x = placeDone a l s →
       y = setCrane a { c with segment := none, estimate := none, deadline := 0, carried := none } (setForkMark a none s) →
       (l.kind = .inbound → x = endVisit l.visit .done .done
         (setBin l.bin { r with stranded := false, location := .slot } (setSlot r.home (.filled l.bin) y))) ∧
       (∀ v sl, l.kind = .relocation → visit s l.visit = some v → v.target = some sl →
         x = endVisit l.visit .done .done
           (setBin l.bin { r with stranded := false, location := .slot, home := sl }
             (setSlot sl (.filled l.bin) (setSlot r.home .empty y)))) ∧
       (∀ v, l.kind = .outbound → visit s l.visit = some v → v.bin = l.bin → r.home.aisle = a →
         (station s (zoneOf a)).lane.length < 3 →
         (station x (zoneOf a)).lane = (station s (zoneOf a)).lane ++ [l.bin] ∧
         (∃ q, bin x l.bin = some { r with stranded := false, location := .lane (zoneOf a) q } ∧
           q.val = (station s (zoneOf a)).lane.length) ∧
         visit x l.visit = some { v with
           state := .inLane, reservation := false
           hold := if (station s (zoneOf a)).isOut ∧ v.outcome = none then { v.hold with stationOut := true }
             else v.hold } ∧
         reservations x a = reservations s a - (if v.reservation then 1 else 0) ∧
         crane x a = crane y a ∧ forkMark x a = none ∧
         (∀ b : Nat, b ≠ l.bin → bin x b = bin s b) ∧ (∀ m : Nat, m ≠ l.visit → visit x m = visit s m) ∧
         (∀ z : Station, { station x z with
           lane := (station s z).lane, resv0 := (station s z).resv0, resv1 := (station s z).resv1 } = station s z) ∧
         { x with
           cranes := y.cranes, forkMarks := y.forkMarks, bins := s.bins, visits := s.visits
           stations := s.stations } = y)) ∧
  (∀ (a : Aisle) (s : State), let t := issuePark a s
     ((aisleRec s a).suspension = .suspending → t = takeSuspension a s) ∧
     ((aisleRec s a).suspension ≠ .suspending →
       crane t a = { crane (issue a ⟨.park, param s 5 + 1, 0, .mouth, 0⟩ false s) a with state := .parking } ∧
       (aisleRec t a).grant = false ∧ waiting t a = false ∧ FieldMsg.drive a .park ∈ t.sent)) ∧
  ∀ (a : Aisle) (s : State) (c : CraneRec) (l : LegRec) (u : State), inReset s = false → c = crane s a →
    forkInFlight c = true →
    let answered := ∃ t, Settles s (zoneOf a) u t ∧ exec (.forkDone a) s = .next t
    (c.leg = some l →
      (l.seg ≠ 3 → u = nextSegment a l (pickDone a l s) → answered) ∧
      (l.seg = 3 → u = enterReady a (placeDone a l s) → answered)) ∧
    (c.leg = none → c.dropped = some l →
      (l.seg ≠ 3 → u = issuePark a (pickDone a l s) → answered) ∧
      (l.seg = 3 →
        u = issuePark a (setCrane a { crane (placeDone a l s) a with dropped := none } (placeDone a l s)) → answered)) ∧
    (c.leg = none → c.dropped = none →
      u = setCrane a { c with unexpected := if c.unexpected < 65535 then c.unexpected + 1 else c.unexpected } s → answered)

/-- R99, R112, R88, R30: HOMED of a HOMING crane puts it at the mouth and, in an aisle that is not SUSPENDING, READY with its
rest timer running and no leg; every open visit of the aisle loses CRANE_FAULT and AISLE_SUSPENDED, and RESET of a crane leg,
and one with no reason left has its state matched to its bin (R33); in a SUSPENDING aisle the suspension takes effect in its
place (R93): the aisle is SUSPENDED, its crane OFFLINE at the mouth with no leg, and the aisle's open visits carry AISLE_SUSPENDED;
after Clear Crane the crane's attention bit is set. The HOME of a leg goes on with the leg, or, where
a cancellation has ended it (R87), the crane enters READY. Reports of a crane
without their segment, and reports discarded on the drive link, are counted. -/
def Obligations.HomingsComplete : Prop :=
  (∀ (a : Aisle) (s : State) (c : CraneRec), inReset s = false → c = crane s a →
    (∀ g u, c.segment = some g → g.kind = .home → c.leg = none → (aisleRec s a).suspension ≠ .suspending →
      u = enterReady a ((if c.homingClear then setAttention (1 + a.val) else id) (setCrane a { c with
        segment := none, estimate := none, deadline := 0, col := some 0, level := some (mouthLevel s)
        homingClear := false } s)) →
      (crane u a).state = .ready ∧ (crane u a).leg = none ∧ (crane u a).segment = none ∧ (crane u a).col = some 0 ∧
      (crane u a).level = some (mouthLevel s) ∧ (crane u a).restTimer = some (1000 * param s 18) ∧
      (c.homingClear = true → u.link.attention.getLsbD (1 + a.val) = true) ∧
      (∀ n v, visit u n = some v → v.outcome = none → binAisle u v.bin = some a →
        v.hold.craneFault = false ∧ v.hold.aisleSuspended = false) ∧
      ∃ t, Settles s (zoneOf a) u t ∧ exec (.homed a) s = .next t) ∧
    (∀ g u, c.segment = some g → g.kind = .home → c.leg = none → (aisleRec s a).suspension = .suspending →
      u = takeSuspension a ((if c.homingClear then setAttention (1 + a.val) else id) (setCrane a { c with
        segment := none, estimate := none, deadline := 0, col := some 0, level := some (mouthLevel s)
        homingClear := false } s)) →
      (aisleRec u a).suspension = .suspended ∧ (crane u a).state = .offline ∧ (crane u a).leg = none ∧
      (crane u a).segment = none ∧ (crane u a).col = some 0 ∧ (crane u a).level = some (mouthLevel s) ∧
      (c.homingClear = true → u.link.attention.getLsbD (1 + a.val) = true) ∧
      (∀ n v, visit u n = some v → v.outcome = none → binAisle u v.bin = some a → v.hold.aisleSuspended = true) ∧
      ∃ t, Settles s (zoneOf a) u t ∧ exec (.homed a) s = .next t) ∧
    (∀ g l, c.segment = some g → g.kind = .home → c.leg = some l → l.cancelled = false → ∃ t,
      Settles s (zoneOf a) (setCraneState a .moving (proceed a true (setCrane a { c with
        segment := none, estimate := none, deadline := 0, col := some 0, level := some (mouthLevel s)
        homingClear := false } s))) t ∧ exec (.homed a) s = .next t) ∧
    (∀ g l u, c.segment = some g → g.kind = .home → c.leg = some l → l.cancelled = true →
      u = enterReady a (setCrane a { c with
        segment := none, estimate := none, deadline := 0, col := some 0, level := some (mouthLevel s)
        homingClear := false } s) →
      ((aisleRec s a).suspension ≠ .suspending → (crane u a).state = .ready ∧ (crane u a).leg = none ∧
        (crane u a).segment = none ∧ (crane u a).col = some 0 ∧ (crane u a).level = some (mouthLevel s) ∧
        (crane u a).restTimer = some (1000 * param s 18)) ∧
      ∃ t, Settles s (zoneOf a) u t ∧ exec (.homed a) s = .next t) ∧
    (∀ u, u = setCrane a { c with unexpected := if c.unexpected < 65535 then c.unexpected + 1 else c.unexpected } s →
      ((∀ g, c.segment = some g → g.kind ≠ .home) → ∃ t, Settles s (zoneOf a) u t ∧ exec (.homed a) s = .next t) ∧
      (forkInFlight c = false → ∃ t, Settles s (zoneOf a) u t ∧ exec (.forkDone a) s = .next t) ∧
      exec (.driveReportDiscarded a) s = .next u ∧ exec (.driveByteTimeout a) s = .next u)) ∧
  ∀ (a : Aisle) (s t u : State) (c : CraneRec), c = crane s a → t = enterReady a s →
    u = setCrane a { c with segment := none, estimate := none, deadline := 0, leg := none } s →
    ((aisleRec s a).suspension = .suspending → t = takeSuspension a u) ∧
    ((aisleRec s a).suspension ≠ .suspending →
      crane t a = { crane u a with state := .ready, restTimer := some (1000 * param s 18) } ∧
      (∀ b : Aisle, b ≠ a → crane t b = crane s b) ∧ { t with cranes := s.cranes, visits := s.visits } = s ∧
      ∀ n v, visit s n = some v →
        (v.outcome ≠ none ∨ binAisle s v.bin ≠ some a → visit t n = some v) ∧
        (v.outcome = none → binAisle s v.bin = some a → ∃ w, visit t n = some w ∧
          w = { v with
            state := w.state
            hold := { v.hold with
              craneFault := false, aisleSuspended := false
              reset := v.hold.reset && !decide (v.state = .outbound ∨ v.state = .inbound ∨ v.state = .moving) } } ∧
          (w.hold = v.hold ∨ w.hold ≠ HoldSet.none → w.state = v.state) ∧
          (w.hold ≠ v.hold → w.hold = HoldSet.none → w.state = matchState v.state (binLocation s v.bin))))

/-- R102, R107, R110, R111: NO_LOAD outside a fork is a NO_DRIVE fault, taken by its mode. IGNORE counts it; REPORT sets the
last fault and the crane's attention bit too; HALT stops the crane FAULTED with the class latched; RETRY stops the segment for
retry_delay, a leg's in RETRY_WAIT and a HOME or PARK in the state it had, and halts at the retry limit. So do OVERRUN, SLIP,
SURGE and SPEED by their own modes (parameters 19 to 22) and fault totals; SUPPLY halts, with the class latched in LATCH mode
and the supply fault present in FOLLOW mode, where a crane already FAULTED is not halted again. R115: a RETRY fault of the
fork that a crane with a park order finishes cuts it off and issues PARK, or, in a SUSPENDING aisle, takes the suspension
(`issuePark`; the model's choice, log entry 36).

R110: a halt sends STOP to a segment in flight, cuts a fork off (UNCERTAIN), strands the carried bin, gives CRANE_FAULT to
the visit of the leg or of the carried bin and drops the aisle's grant and wait. That a fork mark behind a HOME or a TRAVEL of
a retry counts, and that the retry count stays at 20, is DEDUCED (log entry 13), and so is a SUPPLY fault in LATCH mode of a
crane FAULTED already (log entry 14); the kind recorded for a leg's HOME and for a SUPPLY fault with no segment, and the
counts after the segment's end, are the model's choices (log entries 30 and 31).

R105, R107, R109: CURRENT_LIMIT in a segment counts a surge and is a SURGE fault at the limit; a deadline that passes is an
OVERRUN fault once; SUPPLY records the condition, and LOW or HIGH is a SUPPLY fault when it is new and the
crane not OFFLINE. SUPPLY OK ends a supply fault that stands in FOLLOW mode (R109 Table 8): a FAULTED crane with no latched
fault is homed, or taken OFFLINE in a closed zone; any other goes on as it was. CURRENT_LIMIT and NO_LOAD with no segment, and
NO_LOAD in a fork, are unexpected. That a deadline which is not due changes nothing of its own is the model's choice (log
entry 4). -/
def Obligations.FaultsAreDetectedAndAct : Prop :=
  (∀ (a : Aisle) (s : State) (c : CraneRec) (g : SegmentRec) (u u' : State), inReset s = false → c = crane s a →
     c.segment = some g → g.kind.isFork = false →
     u = setCrane a { c with totals := c.totals.set 4 (if c.totals.get 4 < 65535 then c.totals.get 4 + 1 else c.totals.get 4) } s →
     u' = setAttention (1 + a.val) (setCrane a { crane u a with lastFault := some (.noDrive, some g.kind) } u) →
     (3 ≤ param s 23 → ∃ t, Settles s (zoneOf a) u t ∧ exec (.noLoad a) s = .next t) ∧
     (param s 23 = 2 → ∃ t, Settles s (zoneOf a) u' t ∧ exec (.noLoad a) s = .next t) ∧
     (param s 23 = 0 ∨ (param s 23 = 1 ∧ param s 26 ≠ 0 ∧ param s 26 ≤ c.retryCount) →
       (aisleRec s a).suspension ≠ .suspending → ∃ x t, x = halt a .noDrive false u' ∧
       (crane x a).state = .faulted ∧ (crane x a).latched = some .noDrive ∧ (crane x a).segment = none ∧
       (crane x a).leg = c.leg ∧ (crane x a).carried = c.carried ∧ FieldMsg.drive a .stop ∈ x.sent ∧
       (∀ b r, c.carried = some b → bin x b = some r → r.stranded = true) ∧
       Settles s (zoneOf a) x t ∧ exec (.noLoad a) s = .next t) ∧
     (param s 23 = 1 → (param s 26 = 0 ∨ c.retryCount < param s 26) → ∃ t,
       Settles s (zoneOf a) (sendDrive a .stop (setCrane a { crane u' a with
         segment := none, estimate := none, deadline := 0
         state := if c.state = .homing ∨ c.state = .parking then c.state else .retryWait
         retryCount := min (c.retryCount + 1) 20, retryTimer := some (param s 25) } u')) t ∧
       exec (.noLoad a) s = .next t)) ∧
  (∀ (a : Aisle) (s : State) (c : CraneRec), inReset s = false → c = crane s a →
     (∀ u, u = setCrane a { c with unexpected := if c.unexpected < 65535 then c.unexpected + 1 else c.unexpected } s →
       ((∀ g, c.segment = some g → g.kind = .forkPick ∨ g.kind = .forkPlace) → ∃ t,
         Settles s (zoneOf a) u t ∧ exec (.noLoad a) s = .next t) ∧
       (c.segment = none → ∃ t, Settles s (zoneOf a) u t ∧ exec (.currentLimit a) s = .next t)) ∧
     (c.segment ≠ none → c.surgeCount + 1 < param s 28 → ∃ t,
       Settles s (zoneOf a) (setCrane a { c with surgeCount := c.surgeCount + 1 } s) t ∧
       exec (.currentLimit a) s = .next t) ∧
     (c.segment ≠ none → param s 28 ≤ c.surgeCount + 1 → ∃ t,
       Settles s (zoneOf a) (takeFault a .surge (setCrane a { c with surgeCount := 0 } s)) t ∧
       exec (.currentLimit a) s = .next t) ∧
     (∀ g, c.segment = some g → c.overran = false → g.issued + c.deadline ≤ s.time.ms → ∃ t,
       Settles s (zoneOf a) (takeFault a .overrun (setCrane a { c with overran := true } s)) t ∧
       exec (.deadlineExpiry a) s = .next t) ∧
     ((∀ g, c.segment = some g → c.overran = true ∨ s.time.ms < g.issued + c.deadline) → ∃ t,
       Settles s (zoneOf a) s t ∧ exec (.deadlineExpiry a) s = .next t) ∧
     (c.supplyFault = false → ∃ t,
       Settles s (zoneOf a) (setCrane a { c with supply := .ok } s) t ∧ exec (.supply a 1) s = .next t) ∧
     (∀ u w : State, c.supplyFault = true → u = setCrane a { c with supply := .ok, supplyFault := false } s →
       let answered := ∃ t, Settles s (zoneOf a) w t ∧ exec (.supply a 1) s = .next t
       (c.state ≠ .faulted ∨ c.latched ≠ none → w = u → answered) ∧
       (c.state = .faulted → c.latched = none →
         (zoneClosed s (zoneOf a) = true → w = takeOffline a u → (crane w a).state = .offline ∧ answered) ∧
         (zoneClosed s (zoneOf a) = false → service s a = .inService → s.mode = .service → w = startHome a false u →
           (crane w a).state = .homing ∧ FieldMsg.drive a .home ∈ w.sent ∧ answered) ∧
         (zoneClosed s (zoneOf a) = false → service s a ≠ .inService ∨ s.mode ≠ .service → w = u → answered))) ∧
     ∀ (code : Byte) (x : SupplyCond), (code = 0 ∧ x = .low) ∨ (code = 2 ∧ x = .high) →
       (c.supply = x ∨ c.state = .offline → ∃ t,
         Settles s (zoneOf a) (setCrane a { c with supply := x } s) t ∧ exec (.supply a code) s = .next t) ∧
       (c.supply ≠ x → c.state ≠ .offline → ∃ t,
         Settles s (zoneOf a) (takeSupplyFault a (setCrane a { c with supply := x } s)) t ∧
         exec (.supply a code) s = .next t)) ∧
  (∀ (a : Aisle) (cls : FaultClass) (i : Fin 6) (mode total : Nat) (s u u' : State) (c : CraneRec), c = crane s a →
     (cls, i, mode) ∈ ([(.overrun, 0, param s 19), (.slip, 1, param s 20), (.surge, 2, param s 21), (.speed, 3, param s 22),
       (.noDrive, 4, param s 23), (.supply, 5, param s 24)] : List (FaultClass × Fin 6 × Nat)) →
     total = (if c.totals.get i < 65535 then c.totals.get i + 1 else c.totals.get i) →
     u = setCrane a { c with totals := c.totals.set i.val total i.isLt } s →
     u' = setAttention (1 + a.val) (setCrane a { crane u a with lastFault := some (cls, c.segment.map (·.kind)) } u) →
     (cls ≠ .supply →
       (3 ≤ mode → takeFault a cls s = u) ∧ (mode = 2 → takeFault a cls s = u') ∧
       (mode = 1 → takeFault a cls s = retryFault a cls u') ∧ (mode = 0 → takeFault a cls s = halt a cls false u')) ∧
     (cls = .supply →
       (mode = 0 → takeSupplyFault a s = halt a .supply false u') ∧
       (mode ≠ 0 → c.state ≠ .faulted → takeSupplyFault a s = halt a .supply true u') ∧
       (mode ≠ 0 → c.state = .faulted → takeSupplyFault a s = setCrane a { crane u' a with supplyFault := true } u'))) ∧
  (∀ (a : Aisle) (cls : FaultClass) (s u : State) (c : CraneRec), c = crane s a →
     let fork := ∃ g, c.segment = some g ∧ (g.kind = .forkPick ∨ g.kind = .forkPlace)
     let allowed := param s 26 = 0 ∨ c.retryCount < param s 26
     (c.parkOrder = true → fork →
       u = (match forkMark s a with
         | some b => modBin b (fun r => { r with uncertain := true }) (setForkMark a none s)
         | none => s) →
       retryFault a cls s = issuePark a { setCrane a { c with segment := none, estimate := none, deadline := 0 } u with
         sent := s.sent ++ [.drive a .stop] }) ∧
     (c.parkOrder = false ∨ ¬fork → allowed →
       retryFault a cls s = { setCrane a { c with
           segment := none, estimate := none, deadline := 0
           state := if c.state = .homing ∨ c.state = .parking then c.state else .retryWait
           retryCount := min (c.retryCount + 1) 20, retryTimer := some (param s 25) } s with
         sent := s.sent ++ [.drive a .stop] }) ∧
     (c.parkOrder = false ∨ ¬fork → ¬allowed → retryFault a cls s = halt a cls false s)) ∧
  ∀ (a : Aisle) (cls : FaultClass) (follow : Bool) (s t y : State) (c : CraneRec), c = crane s a →
    t = halt a cls follow s → y = setAisle a { aisleRec s a with suspension := .inService } s →
    ((aisleRec s a).suspension = .suspending → t = takeSuspension a (halt a cls follow y)) ∧
    ((aisleRec s a).suspension ≠ .suspending →
      crane t a = { c with
        segment := none, estimate := none, deadline := 0, state := .faulted
        latched := if follow then c.latched else some cls, supplyFault := c.supplyFault || follow
        homingClear := false, retryTimer := none, restTimer := none } ∧
      t.sent = s.sent ++ (if c.segment = none then [] else [.drive a .stop]) ∧ forkMark t a = none ∧
      aisleRec t a = { aisleRec s a with grant := false } ∧ waiting t a = false ∧
      reservations t a = reservations s a - (if (aisleRec s a).grant then 1 else 0) ∧
      (∀ b : Aisle, b ≠ a → crane t b = crane s b ∧ forkMark t b = forkMark s b ∧ aisleRec t b = aisleRec s b ∧
        waiting t b = waiting s b ∧ reservations t b = reservations s b) ∧
      (∀ b, bin t b = (bin s b).map fun r => { r with
        uncertain := r.uncertain || decide (forkMark s a = some b)
        stranded := r.stranded || decide (c.carried = some b) }) ∧
      (∀ n, visit s n = none → visit t n = none) ∧
      (∀ n v, visit s n = some v →
        let held := v.outcome = none ∧
          ((∃ l, c.leg = some l ∧ l.cancelled = false ∧ l.visit = n) ∨
           (c.leg = none ∧ ∃ l, c.dropped = some l ∧ l.visit = n) ∨
           (c.leg = none ∧ ∃ b r, c.carried = some b ∧ bin s b = some r ∧ r.openVisit = some n))
        (held → visit t n = some { v with hold := { v.hold with craneFault := true } }) ∧
        (¬held → visit t n = some v)) ∧
      { t with
        cranes := s.cranes, forkMarks := s.forkMarks, aisles := s.aisles, stations := s.stations, bins := s.bins
        visits := s.visits, sent := s.sent } = s)

/-- R88, R111: after retry_delay a HOME or PARK is issued again, with the retry count kept, and a leg's segment with the crane
MOVING, wherever the crane stands by then: the segment itself, or, with the position unknown, a HOME, after which a fork is
preceded by a TRAVEL to its place (that a fault of this TRAVEL is retried by it is DEDUCED, log entry 13); a crane whose leg a
cancellation ended enters READY; after rest_after a READY crane is sent BRAKE_REST and is RESTING. That a timer which has not
run out changes nothing of its own is the model's choice (log entry 4). -/
def Obligations.CraneTimersAct : Prop :=
  ∀ (a : Aisle) (s : State) (c : CraneRec), inReset s = false → c = crane s a →
    (c.retryTimer ≠ some 0 → ∃ t, Settles s (zoneOf a) s t ∧ exec (.retryDelayExpiry a) s = .next t) ∧
    (∀ u v : State, c.retryTimer = some 0 → u = setCrane a { c with retryTimer := none } s →
      let answered := ∃ t, Settles s (zoneOf a) v t ∧ exec (.retryDelayExpiry a) s = .next t
      (c.state = .homing → v = issue a ⟨.home, 0, param s 4, .mouth, 0⟩ true u → answered) ∧
      (c.state = .parking → v = issue a ⟨.park, param s 5 + 1, 0, .mouth, 0⟩ true u → answered) ∧
      (c.state = .retryWait → (∀ l, c.leg = some l → l.cancelled = true) → v = enterReady a u → answered) ∧
      ∀ (l : LegRec) (g : SegmentRec) (w : State), c.state = .retryWait → c.leg = some l → l.cancelled = false →
        g = legSegment s l → v = setCrane a { crane w a with state := .moving } w →
        (c.col ≠ none → c.level ≠ none →
          (l.approach = false → w = issue a g true u → answered) ∧
          (l.approach = true → w = issue a { g with kind := .travel } true u → answered)) ∧
        (c.col = none ∨ c.level = none →
          (g.kind = .travel → w = issue a ⟨.home, 0, param s 4, .mouth, 0⟩ true u → answered) ∧
          (g.kind ≠ .travel → w = issue a ⟨.home, 0, param s 4, .mouth, 0⟩ true
            (setCrane a { c with retryTimer := none, leg := some { l with approach := true } } s) → answered))) ∧
    (c.state = .ready → c.restTimer = some 0 → exec (.restTimerExpiry a) s =
      .next (sendDrive a .brakeRest (setCrane a { c with state := .resting, restTimer := none } s))) ∧
    (c.state ≠ .ready ∨ c.restTimer ≠ some 0 → exec (.restTimerExpiry a) s = .next s)

/-! ### Stations and zones -/

/-- R39, R57, R66, R75, R76, R134: ITEM_SCAN at a live panel confirms the first PENDING task of the AT_FACE visit that carries
the key, with the effects of its kind, and shows the tasks that remain; with no such task the scan is unexpected and recorded;
the discard count is 0. What the panel is sent, CLEAR and a SHOW for each PENDING task with its index, is sent while the link is
live (R135). -/
def Obligations.ItemScansConfirm : Prop :=
  (∀ (z : Station) (s : State),
     let live := stationPresent s z = true ∧ zoneClosed s z = false
     let resent := fun shows : List FieldMsg => { s with sent := s.sent ++ if live then .panel z .clear :: shows else [] }
     ((∀ f v, (station s z).face = some f → visit s f.visit = some v → v.state ≠ .atFace) →
       resendTasks z s = resent []) ∧
     ∀ f v, (station s z).face = some f → visit s f.visit = some v → v.state = .atFace →
       resendTasks z s = resent (v.tasks.zipIdx.filterMap fun k =>
         if k.1.state = .pending then some (.panel z (.show k.1.kind (k.1.key.getD 0) k.2)) else none)) ∧
  ∀ (z : Station) (key : ItemKey) (s : State) (f : FaceRec) (v : VisitRec) (y : State), inReset s = false →
    stationPresent s z = true → zoneClosed s z = false → (station s z).lineTest = none → (station s z).face = some f →
    visit s f.visit = some v → v.state = .atFace → y = setStation z { station s z with discards := 0 } s →
    ((∀ k ∈ v.tasks, k.state = .pending → k.key ≠ some key) →
      exec (.itemScan z key) s = .next (setAttention (9 + z.val) (setStation z { station s z with
        discards := 0, scanUnexpected := true, lastKey := some key } s))) ∧
    ∀ (before after : List TaskRec) (k : TaskRec) (r : BinRec) (x : State), v.tasks = before ++ k :: after →
      (∀ j ∈ before, j.state = .pending → j.key ≠ some key) → k.state = .pending → k.key = some key →
      bin s v.bin = some r →
      x = setVisit f.visit (v.withTasks (before ++ { k with state := .confirmed } :: after)) y →
      (k.kind = .lend → (lookup s.withdrawals key).found = false →
        exec (.itemScan z key) s = .next (resendTasks z (setBin v.bin
          { r with fill := r.fill - 1, withdrawn := r.withdrawn + 1, lendHolds := r.lendHolds - 1 }
          { x with
            withdrawals := tablePut s.withdrawals (lookup s.withdrawals key).bucket
              ⟨key, v.bin, s.day, k.dueDay.getD s.day, .out, none⟩
            recordCount := s.recordCount + 1, pendingLends := s.pendingLends - 1 }))) ∧
      (k.kind = .return → exec (.itemScan z key) s = .next (resendTasks z (deleteRecord key (setBin v.bin
        { r with fill := r.fill + 1, withdrawn := r.withdrawn - 1 } x)))) ∧
      (k.kind = .refile → exec (.itemScan z key) s = .next (resendTasks z (setBin v.bin
        { r with fill := r.fill + 1, refileHolds := r.refileHolds - 1 } x)))

/-- R40 Table 8, R58, R41, R127, R133, R134: DONE settles every PENDING task, turns the visit WITHDRAWING, stops the face timer
and clears the panel: a LEND is NOT_FOUND with FILL_MISMATCH, a RETURN or REFILE NOT_PLACED and a FETCH SEEN, and each gives
back what it held (R58, R67, R75: `releasePending`, spelled out in `WorkIsCancelled`); KEEP starts the face timer again;
PROBLEM is added to the visit's problems, and WRONG_BIN or EMPTY recorded at the station too; a discarded message is answered
by REPEAT, the third in a row setting PANEL_LINK.

R119, R135, R136, R134: a panel message at a station that is not present changes nothing; one on an inhibited link is answered
LOCKED; one during a Line Test is only counted, to be answered at its end. R76, R134 Table 7: an ITEM_SCAN, DONE, KEEP or
PROBLEM that finds no AT_FACE visit, be the face empty or its visit on its way back, is answered CLEAR; the discard count is 0,
and the scan is recorded as unexpected. A PROBLEM with a code outside its list is discarded (R183). -/
def Obligations.PanelMessagesAct : Prop :=
  (∀ (z : Station) (s : State) (y : State), inReset s = false → stationPresent s z = true → zoneClosed s z = false →
     (station s z).lineTest = none → y = setStation z { station s z with discards := 0 } s →
     (∀ f v, (station s z).face = some f → visit s f.visit = some v → v.state = .atFace →
       (∃ t, Settles s z (sendPanel z .clear (modStation z (fun x => { x with faceTimer := none })
           (setVisit f.visit { v.withTasks (v.tasks.map fun k => if k.state = .pending then (match k.kind with
                 | .lend => { k with state := .notFound, fillMismatch := true }
                 | .return | .refile => { k with state := .notPlaced }
                 | .fetch => { k with state := .seen }) else k) with state := .withdrawing }
             (releasePending v.bin v.tasks y)))) t ∧ exec (.panelDone z) s = .next t) ∧
       exec (.keep z) s = .next (setStation z { station s z with
         discards := 0, faceTimer := some (1000 * param s 31) } s) ∧
       exec (.problem z 0) s = .next (setVisit f.visit { v with problems := { v.problems with damaged := true } } y) ∧
       exec (.problem z 1) s = .next (setAttention (9 + z.val) (setStation z { station s z with
         discards := 0, problemFlag := true, lastProblem := some (f.visit, .wrongBin) }
         (setVisit f.visit { v with problems := { v.problems with wrongBin := true } } s))) ∧
       exec (.problem z 2) s = .next (setAttention (9 + z.val) (setStation z { station s z with
         discards := 0, problemFlag := true, lastProblem := some (f.visit, .empty) }
         (setVisit f.visit { v with problems := { v.problems with empty := true } } s)))) ∧
     (∀ u, u = (if 3 ≤ (station s z).discards + 1 then setAttention (9 + z.val) (setStation z { station s z with
           discards := 0, panelLinkFlag := true } (sendPanel z .repeat s))
         else setStation z { station s z with discards := (station s z).discards + 1 } (sendPanel z .repeat s)) →
       exec (.panelMessageDiscarded z) s = .next u ∧ exec (.panelByteTimeout z) s = .next u ∧
       ∀ code : Byte, 3 ≤ code.toNat → exec (.problem z code) s = .next u)) ∧
  (∀ (z : Station) (m : Instr) (s : State), inReset s = false →
     ((∃ key, m = .itemScan z key) ∨ m = .panelDone z ∨ m = .keep z ∨ (∃ code, m = .problem z code) ∨
       m = .panelMessageDiscarded z ∨ m = .panelByteTimeout z) →
     (stationPresent s z = false → exec m s = .next s) ∧
     (stationPresent s z = true → zoneClosed s z = true →
       exec m s = .next { s with sent := s.sent ++ [.panel z .locked] }) ∧
     (∀ x, stationPresent s z = true → zoneClosed s z = false → (station s z).lineTest = some x →
       exec m s = .next (setStation z { station s z with lineTest := some { x with messages := x.messages + 1 } } s)) ∧
     (stationPresent s z = true → zoneClosed s z = false → (station s z).lineTest = none → (station s z).face = none →
       m = .keep z →
       exec m s = .next { setStation z { station s z with discards := 0 } s with sent := s.sent ++ [.panel z .clear] })) ∧
  ∀ (z : Station) (s u : State), inReset s = false → stationPresent s z = true → zoneClosed s z = false →
    (station s z).lineTest = none → (∀ f v, (station s z).face = some f → visit s f.visit = some v → v.state ≠ .atFace) →
    u = { setStation z { station s z with discards := 0 } s with sent := s.sent ++ [.panel z .clear] } →
    (∀ key, exec (.itemScan z key) s = .next { setAttention (9 + z.val) (setStation z { station s z with
      discards := 0, scanUnexpected := true, lastKey := some key } s) with sent := s.sent ++ [.panel z .clear] }) ∧
    (∃ t, Settles s z u t ∧ exec (.panelDone z) s = .next t) ∧ exec (.keep z) s = .next u ∧
    ∀ code : Byte, code.toNat < 3 → exec (.problem z code) s = .next u

/-- R122, R125, R128, R131: the sensors of a present station; a Line Test watches them too (R136). The beam marks the crossing,
and its clearing after the mark is the arrival; without one only the level changes. The open limit ends OPENING and is a fault
in CLOSING or CLOSED, and its release one in OPEN; the closed limit ends CLOSING and is a fault in OPEN or OPENING.

R14, R27, R125: a present crossing's arrival puts the bin at the face with its visit AT_FACE and starts the face timer; a
withdraw crossing's puts it at the outbound place with its visit AT_OUTBOUND. The crossing, its mark and the opening are
cleared, and every other bin and visit stays; a SHOW for each PENDING task is sent at the face while the link is live.

R131, R132: the open limit that ends OPENING reports OPEN to a reopen order (kept in RECOVERY alone: DEDUCED, log entry 15), and
after Reopen Station empties the out causes and lifts STATION_OUT from the station's visits. That a limit ends a travel only
when it is asserted then is the model's choice (log entry 32). -/
def Obligations.SensorsActAndCrossingsArrive : Prop :=
  (∀ (z : Station) (s : State) (r : StationRec), inReset s = false → stationPresent s z = true → r = station s z →
     let watched := fun q : StationRec => { q with lineTest := q.lineTest.map fun x => { x with
       beamWhole := x.beamWhole && q.beam
       bothLimits := x.bothLimits || (decide (q.shutter = x.shutterStart) && q.openLimit && q.closedLimit)
       noLimit := x.noLimit || (decide (q.shutter = x.shutterStart) && !q.openLimit && !q.closedLimit) } }
     let answered := fun (c : Instr) (u : State) =>
       ∃ t, Settles s z (setStation z (watched (station u z)) u) t ∧ exec c s = .next t
     answered (.beamBlocked z) (setStation z { r with
       beam := true, crossing := r.crossing.map fun x => { x with beamSeen := true } } s) ∧
     ((∀ x, r.crossing = some x → x.beamSeen = false) →
       answered (.beamClear z) (setStation z { r with beam := false } s)) ∧
     (∀ x, r.crossing = some x → x.beamSeen = true →
       answered (.beamClear z) (crossingArrives z x (setStation z { r with beam := false } s))) ∧
     answered (.openLimitAsserted z) (match r.shutter with
       | .opening => shutterOpens z (setStation z { r with openLimit := true } s)
       | .open => setStation z { r with openLimit := true } s
       | .closing | .closed => setAttention (9 + z.val) (setStation z { r with openLimit := true, shutterFault := true } s)) ∧
     answered (.openLimitReleased z) (if r.shutter = .open
       then setAttention (9 + z.val) (setStation z { r with openLimit := false, shutterFault := true } s)
       else setStation z { r with openLimit := false } s) ∧
     answered (.closedLimitAsserted z) (match r.shutter with
       | .closing => setStation z { r with closedLimit := true, shutter := .closed, travelTimer := none } s
       | .closed => setStation z { r with closedLimit := true } s
       | .open | .opening =>
         setAttention (9 + z.val) (setStation z { r with closedLimit := true, shutterFault := true } s)) ∧
     answered (.closedLimitReleased z) (setStation z { r with closedLimit := false } s)) ∧
  (∀ (z : Station) (s t : State) (r : StationRec), r = station s z → t = shutterOpens z s →
     station t z = { r with
       shutter := .open, travelTimer := none, reopenOrdered := false, reopenCommand := false
       jammed := r.jammed && !r.reopenCommand, reopenFault := r.reopenFault && !r.reopenCommand } ∧
     (∀ y : Station, y ≠ z → station t y = station s y ∧ zone t y = zone s y) ∧
     zone t z = (if r.reopenOrdered = true ∧ (zone s z).state = .recovery then { zone s z with reopenReport := .open }
       else zone s z) ∧
     (r.reopenCommand = false → t.link = s.link ∧ t.visits = s.visits) ∧
     (r.reopenCommand = true → t.link = (setAttention (9 + z.val) s).link ∧
       (∀ n, visit s n = none → visit t n = none) ∧ ∀ n v, visit s n = some v →
       let held := v.outcome = none ∧ (binAisle s v.bin).map zoneOf = some z ∧ v.hold.stationOut = true
       (¬held → visit t n = some v) ∧
       (held → ∃ w, visit t n = some w ∧ w = { v with state := w.state, hold := { v.hold with stationOut := false } } ∧
         w.state = if w.hold = HoldSet.none then matchState v.state (binLocation s v.bin) else v.state)) ∧
     { t with stations := s.stations, zones := s.zones, link := s.link, visits := s.visits } = s) ∧
  (∀ (z : Station) (x : CrossingRec) (s t : State) (r : BinRec) (n : Nat) (v : VisitRec), bin s x.bin = some r →
     r.openVisit = some n → visit s n = some v → t = crossingArrives z x s →
     (station t z).crossing = none ∧ crossingMark t z = none ∧ (station t z).openingBin = none ∧
     (x.kind = .present → bin t x.bin = some { r with location := .face z } ∧ visit t n = some { v with state := .atFace } ∧
       (station t z).face = some ⟨x.bin, n⟩ ∧ (station t z).faceTimer = some (1000 * param s 31) ∧
       t.sent = s.sent ++ if stationPresent s z = true ∧ zoneClosed s z = false then
         v.tasks.zipIdx.filterMap (fun k => if k.1.state = .pending then
           some (.panel z (.show k.1.kind (k.1.key.getD 0) k.2)) else none) else []) ∧
     (x.kind = .withdraw → bin t x.bin = some { r with location := .outbound z } ∧
       visit t n = some { v with state := .atOutbound } ∧ (station t z).face = none ∧
       (station t z).outbound = some x.bin ∧ t.sent = s.sent) ∧
     (∀ b, b ≠ x.bin → bin t b = bin s b) ∧ (∀ m, m ≠ n → visit t m = visit s m) ∧ s.sent <+: t.sent)

/-- R126 to R128, R130 to R132, R145: the timers of a station. A crossing that runs out is halted by TRANSFER(HALT), its bin
OBSTRUCTED and still the opening bin, the station OUT and the visits there held (R32); the face timer sets FACE_LONG; the travel
timer ends CLOSING with a fault, and OPENING with REOPEN_FAULT and the output released; holding the visits and reporting to a
zone in RECOVERY (log entry 15); the hold timer gives the forced close order, which halts a crossing, its bin and one that
blocks the beam in the opening OBSTRUCTED and UNCERTAIN, and its visit with FIRE, and which does nothing with the output
released. That a timer which has not run out changes nothing of its own is the model's choice (log entry 4). -/
def Obligations.StationTimersAct : Prop :=
  ∀ (z : Station) (s : State), inReset s = false →
    (∀ x r u, (station s z).crossing = some x → x.timer = 0 → bin s x.bin = some r → u = jamCrossing z x s →
      (station u z).crossing = none ∧ (station u z).jammed = true ∧ crossingMark u z = none ∧
      bin u x.bin = some { r with obstructed := true } ∧ u.link.attention.getLsbD (9 + z.val) = true ∧
      station u z = { station s z with crossing := none, jammed := true } ∧
      u.sent = s.sent ++ (if stationPresent s z then [.panel z (.transfer .halt)] else []) ∧
      (∀ n, visit u n = (visit s n).map fun v => if v.outcome = none ∧ (binAisle s v.bin).map zoneOf = some z ∧
          (v.state = .inLane ∨ v.state = .presenting ∨ v.state = .atFace ∨ v.state = .withdrawing) then
        { v with hold := { v.hold with stationOut := true } } else v) ∧
      (∀ b, b ≠ x.bin → bin u b = bin s b) ∧ (∀ y : Station, y ≠ z → station u y = station s y) ∧
      { u with
        stations := s.stations, crossingMarks := s.crossingMarks, bins := s.bins, visits := s.visits, link := s.link
        sent := s.sent } = s ∧
      ∃ t, Settles s z u t ∧ exec (.crossingMaxExpiry z) s = .next t) ∧
    ((∀ x, (station s z).crossing = some x → x.timer ≠ 0) → ∃ t,
      Settles s z s t ∧ exec (.crossingMaxExpiry z) s = .next t) ∧
    ((station s z).faceTimer = some 0 → exec (.faceTimerExpiry z) s =
      .next (setAttention (9 + z.val) (setStation z { station s z with faceLong := true, faceTimer := none } s))) ∧
    ((station s z).faceTimer ≠ some 0 → exec (.faceTimerExpiry z) s = .next s) ∧
    (stationPresent s z = true → (station s z).travelTimer = some 0 →
      ((station s z).shutter = .closing → ∃ t,
        Settles s z (setAttention (9 + z.val) (setStation z { station s z with
          shutter := .closed, travelTimer := none, shutterFault := true } s)) t ∧
        exec (.shutterTravelExpiry z) s = .next t) ∧
      ((station s z).shutter = .opening → ∃ u t, u = reopenFails z s ∧
        station u z = { station s z with
          holdOpen := false, shutter := .closed, travelTimer := none, reopenOrdered := false, reopenCommand := false
          reopenFault := true, jammed := (station s z).jammed && !(station s z).reopenCommand } ∧
        zone u z = (if (station s z).reopenOrdered = true ∧ (zone s z).state = .recovery then
          { zone s z with reopenReport := .reopenFault } else zone s z) ∧
        (∀ n, visit u n = (visit s n).map fun v => if v.outcome = none ∧ (binAisle s v.bin).map zoneOf = some z ∧
            (v.state = .inLane ∨ v.state = .presenting ∨ v.state = .atFace ∨ v.state = .withdrawing) then
          { v with hold := { v.hold with stationOut := true } } else v) ∧
        { u with stations := s.stations, zones := s.zones, visits := s.visits, link := s.link } = s ∧
        u.link.attention.getLsbD (9 + z.val) = true ∧ Settles s z u t ∧ exec (.shutterTravelExpiry z) s = .next t)) ∧
    ((station s z).travelTimer ≠ some 0 → ∃ t, Settles s z s t ∧ exec (.shutterTravelExpiry z) s = .next t) ∧
    ((zone s z).holdTimer = some 0 → stationPresent s z = true → ∃ u t,
      u = forceClose z (setZone z { zone s z with holdTimer := none } s) ∧ (station u z).holdOpen = false ∧
      ((station s z).holdOpen = true → (station u z).shutter = .closing ∧ (station u z).crossing = none ∧
        (station u z).forced = true ∧ (zone u z).released = true) ∧
      ((station s z).holdOpen = false → u = setZone z { zone s z with holdTimer := none } s) ∧
      ((station s z).holdOpen = true →
        let crossed := fun b : Nat => ∃ x, (station s z).crossing = some x ∧ x.bin = b
        station u z = { station s z with
          crossing := none, holdOpen := false, shutter := .closing, travelTimer := some (1000 * param s 32)
          reopenOrdered := false, reopenCommand := false, forced := true } ∧
        zone u z = { zone s z with holdTimer := none, released := true } ∧
        u.link = (setAttention (9 + z.val) s).link ∧
        crossingMark u z = (if (station s z).crossing = none then crossingMark s z else none) ∧
        u.sent = s.sent ++ (if (station s z).crossing = none then [] else [.panel z (.transfer .halt)]) ∧
        (∀ b r, bin s b = some r →
          let caught := crossed b ∨ ((station s z).beam = true ∧ (station s z).openingBin = some b)
          (caught → bin u b = some { r with obstructed := true, uncertain := true }) ∧
          (¬caught → bin u b = some r)) ∧
        (∀ n v, visit s n = some v →
          let held := v.outcome = none ∧ ∃ b r, crossed b ∧ bin s b = some r ∧ r.openVisit = some n
          (held → visit u n = some { v with hold := { v.hold with fire := true } }) ∧ (¬held → visit u n = some v)) ∧
        (∀ y : Station, y ≠ z → station u y = station s y ∧ zone u y = zone s y ∧ crossingMark u y = crossingMark s y) ∧
        { u with
          stations := s.stations, zones := s.zones, crossingMarks := s.crossingMarks, bins := s.bins, visits := s.visits
          link := s.link, sent := s.sent } = s) ∧
      Settles s z u t ∧ exec (.holdTimerExpiry z) s = .next t) ∧
    ((zone s z).holdTimer ≠ some 0 → ∃ t, Settles s z s t ∧ exec (.holdTimerExpiry z) s = .next t)

/-- R139: a level change at a fire-panel input is read through its polarity bit. A present level that differs from the taken one
starts a stopped window with the input's deglitch time, and leaves a running one alone; one that equals it stops the window.
When the window has run out the present level is taken, and the zones act on it one after the other (R140). The numbers of the
inputs and of their polarity bits are DEDUCED (log entry 17); that the zones act in the order of their numbers, and that a
window which is not due changes nothing of its own, are the model's choices (log entries 10 and 4). -/
def Obligations.InputsAreDeglitched : Prop :=
  ∀ (i : FireInput) (high level : Bool) (s : State), inReset s = false →
    level = (high != (s.params.get 33).value.getLsbD i.val) →
    exec (.inputLevelChange i high) s = .next (setConditioner i ⟨high, takenLevel s i,
      if level = takenLevel s i then none
      else if (conditioner s i).window = none then
        some (param s (if i.val < 4 then 34 else if i.val < 9 then 35 else 36))
      else (conditioner s i).window⟩ s) ∧
    ((conditioner s i).window = some 0 → ∀ u,
      u = setConditioner i { conditioner s i with taken := presentLevel s i, window := none } s → ∃ t,
        SettlesAll s (actOnLevels s 3 (actOnLevels s 2 (actOnLevels s 1 (actOnLevels s 0 u)))) t ∧
        exec (.deglitchWindowExpiry i) s = .next t) ∧
    ((conditioner s i).window ≠ some 0 → ∃ t, SettlesAll s s t ∧ exec (.deglitchWindowExpiry i) s = .next t)

/-- R140, R142, R143, R148, R151: how a zone acts on the changes of its levels from `before` to `s`, be it one level or
several. FIRE rising enters SHUTDOWN from CLEAR, ALERT and RECOVERY, and otherwise clears panel-clear seen, with AWAIT_RESTORE
going back to SEALED, whatever the other levels do. Without it, panel clear rising with fire released is seen in SHUTDOWN and
SEALED; with fire asserted it is not, and neither its fall nor that of fire changes anything. The alert level moves a zone
between CLEAR and ALERT.

R143, R145, R152: the entry to SHUTDOWN records its causes, clears panel-clear seen and the marks of its
cranes, sets the zone's attention bit and starts the hold timer; a station that is present takes the close order, and one that
is not counts as released, its field yes and no timer running (DEDUCED, log entry 37); every present crane of the zone has its
park order, and no block of another zone is touched.

R114 Table 9: a park order by the crane's state. A TRAVEL or HOME of a leg is stopped and the leg dropped, a fork in flight
finishes first, one that waits for its retry is cut off with UNCERTAIN, and a RESTING crane is woken; PARK is issued, or, in a
SUSPENDING aisle, the suspension takes effect in its place (R93, `issuePark` of `LegSegmentsComplete`). That STOP to a HOMING
crane needs a segment, and that a fork mark behind a HOME or a TRAVEL of a retry counts, is DEDUCED (log entries 14, 13). -/
def Obligations.ZonesActOnLevelsAndShutDown : Prop :=
  (∀ (z : Station) (before s : State) (r : ZoneRec), r = zone s z →
     let fire := fireLevel s z = true ∧ fireLevel before z = false
     let clear := clearLevel s z = true ∧ clearLevel before z = false
     let seen := clear ∧ fireLevel s z = false ∧ (r.state = .shutdown ∨ r.state = .sealed)
     (fire → actOnLevels before z s = (match r.state with
       | .clear | .alert | .recovery => enterShutdown z s
       | .shutdown | .sealed => setZone z { r with panelClearSeen := false } s
       | .awaitRestore => setAttention (13 + z.val) (setZone z { r with panelClearSeen := false, state := .sealed } s))) ∧
     (¬fire → seen → actOnLevels before z s = setZone z { r with panelClearSeen := true } s) ∧
     (¬fire → ¬seen →
       (alertLevel s z = alertLevel before z → actOnLevels before z s = s) ∧
       (alertLevel s z ≠ alertLevel before z → actOnLevels before z s =
         if r.state = .clear ∧ alertLevel s z = true then
           setAttention (13 + z.val) (setZone z { r with state := .alert } s)
         else if r.state = .alert ∧ alertLevel s z = false then
           setAttention (13 + z.val) (setZone z { r with state := .clear } s)
         else s)) ∧
     (clear → fireLevel s z = true → ¬fire → alertLevel s z = alertLevel before z → actOnLevels before z s = s) ∧
     (clearLevel s z = false → ¬fire → alertLevel s z = alertLevel before z → actOnLevels before z s = s)) ∧
  (∀ (z : Station) (s t : State), t = enterShutdown z s →
     (zone t z).state = .shutdown ∧ (zone t z).panelClearSeen = false ∧
     (zone t z).causeFire = takenLevel s (fireInput z) ∧ (zone t z).causeFireAll = takenLevel s 8 ∧
     (zone t z).causeDrill = (zone s z).injectFire ∧
     (zone t z).holdTimer = (if stationPresent s z then some (1000 * param s 37) else none) ∧
     (zone t z).released = !stationPresent s z ∧
     (zone t z).settled0 = false ∧ (zone t z).settled1 = false ∧
     (zone t z).recovered0 = false ∧ (zone t z).recovered1 = false ∧
     (stationPresent s z = true → (station t z).closeOrder = true ∧ FieldMsg.panel z .locked ∈ t.sent) ∧
     t.link.attention.getLsbD (13 + z.val) = true ∧
     (∀ a : Aisle, zoneOf a = z → aislePresent s a = true → (crane t a).parkOrder = true) ∧
     (∀ a : Aisle, zoneOf a ≠ z → crane t a = crane s a) ∧
     (∀ y : Station, y ≠ z → station t y = station s y ∧ zone t y = zone s y) ∧
     (∀ a : Aisle, zoneOf a = z → aislePresent s a = true → crane t a = crane (parkCrane a s) a)) ∧
  (∀ (z : Station) (s : State),
     fireLevel s z = (takenLevel s (fireInput z) || takenLevel s 8 || (zone s z).injectFire) ∧ (fireInput z).val = 4 + z.val ∧
     alertLevel s z = (takenLevel s (alertInput z) || (zone s z).injectAlert) ∧ (alertInput z).val = z.val ∧
     clearLevel s z = (takenLevel s 9 || (zone s z).injectClear) ∧ ∀ i, takenLevel s i = (conditioner s i).taken) ∧
  ∀ (a : Aisle) (s u : State) (c d : CraneRec) (moving fork : Prop), c = crane s a →
    d = { c with
      parkOrder := true
      leg := none
      dropped := c.leg.bind fun l => if l.cancelled then none else some l } →
    moving = (c.state = .moving ∨ c.state = .waking) →
    fork = (∃ g, c.segment = some g ∧ (g.kind = .forkPick ∨ g.kind = .forkPlace)) →
    let stopped := { s with sent := s.sent ++ if c.segment = none then [] else [.drive a .stop] }
    let cut := fun v : State => match forkMark v a with
      | some b => modBin b (fun r => { r with uncertain := true }) (setForkMark a none v)
      | none => v
    (c.state = .parking ∨ c.state = .parked ∨ c.state = .faulted ∨ c.state = .offline →
      parkCrane a s = setCrane a { c with parkOrder := true } s) ∧
    (moving → fork → u = parkCrane a s →
      crane u a = { d with state := .parking } ∧ aisleRec u a = { aisleRec s a with grant := false } ∧
      waiting u a = false ∧ reservations u a = reservations s a - (if (aisleRec s a).grant then 1 else 0) ∧
      (∀ b : Aisle, b ≠ a → crane u b = crane s b ∧ aisleRec u b = aisleRec s b ∧ waiting u b = waiting s b ∧
        reservations u b = reservations s b) ∧
      { u with cranes := s.cranes, aisles := s.aisles, stations := s.stations } = s) ∧
    (moving → ¬fork → u = cut (setCrane a { d with segment := none, estimate := none, deadline := 0 } stopped) →
      parkCrane a s = issuePark a u) ∧
    (c.state = .retryWait → u = cut (setCrane a { d with retryTimer := none } s) → parkCrane a s = issuePark a u) ∧
    (c.state = .homing → u = setCrane a { c with
        parkOrder := true, segment := none, estimate := none, deadline := 0, homingClear := false, retryTimer := none } stopped →
      parkCrane a s = issuePark a u) ∧
    (c.state = .ready ∨ c.state = .resting → parkCrane a s = issuePark a (setCrane a { c with parkOrder := true } s)) ∧
    ((aisleRec s a).suspension ≠ .suspending →
      (moving ∧ ¬fork) ∨ c.state = .homing ∨ c.state = .retryWait ∨ c.state = .ready ∨ c.state = .resting →
      (crane (parkCrane a s) a).state = .parking ∧ (parkCrane a s).sent = s.sent ++
        (if (c.state = .moving ∨ c.state = .waking ∨ c.state = .homing) ∧ c.segment ≠ none then [.drive a .stop] else []) ++
        (if c.state = .resting then [.drive a .wake] else []) ++ [.drive a .park])

/-- R121: a free lane place is granted to the aisle that waits; with both waiting, to the one that does not have the last grant,
and to the lower-numbered one before any grant. The grant counts as a reservation of its aisle, which leaves the waiting set and
has the last grant. R83, R84: a leg that is handed over reserves the place for its visit, and a grant given back is no
reservation any more. -/
def Obligations.LanePlacesAreGranted : Prop :=
  ∀ (s : State) (z : Station) (r : StationRec), r = station s z →
    (3 ≤ r.lane.length + r.resv0 + r.resv1 → nextGrant s z = none) ∧
    (r.lane.length + r.resv0 + r.resv1 < 3 →
      (r.waiting0 = false → r.waiting1 = false → nextGrant s z = none) ∧
      (r.waiting0 = true → r.waiting1 = false → nextGrant s z = some (aisle0 z)) ∧
      (r.waiting0 = false → r.waiting1 = true → nextGrant s z = some (aisle1 z)) ∧
      (r.waiting0 = true → r.waiting1 = true →
        nextGrant s z = some (if r.lastGrant = .first then aisle1 z else aisle0 z))) ∧
    station (takePlace (aisle0 z) s) z = { r with resv0 := r.resv0 + 1, waiting0 := false, lastGrant := .first } ∧
    station (takePlace (aisle1 z) s) z = { r with resv1 := r.resv1 + 1, waiting1 := false, lastGrant := .second } ∧
    zoneOf (aisle0 z) = z ∧ zoneOf (aisle1 z) = z ∧
    station (returnGrant (aisle0 z) s) z = { r with resv0 := r.resv0 - if (aisleRec s (aisle0 z)).grant then 1 else 0 } ∧
    station (returnGrant (aisle1 z) s) z = { r with resv1 := r.resv1 - if (aisleRec s (aisle1 z)).grant then 1 else 0 } ∧
    (∀ a, aisleRec (returnGrant a s) a = { aisleRec s a with grant := false }) ∧
    ∀ (n : Nat) (v : VisitRec), visit s n = some v →
      reserve n s = { s with visits := tablePut s.visits n { v with reservation := true } }

/-- R82: the leg ranked first among outbound and relocation legs is one of them, and none is ranked before it: urgent, aged, the
older of aged ones, priority, approach estimate and visit number decide in this order. A visit is aged once it has waited
age_limit, and the approach estimate is that of a TRAVEL from the crane's position, or from the mouth with the position unknown
(R90). -/
def Obligations.FirstRankedIsBest : Prop :=
  (∀ (s : State) (v : VisitRec), isAged s v = true ↔ 1000 * param s 17 ≤ s.time.ms - v.created) ∧
  (∀ (s : State) (c : CraneRec) (sl : Slot) (x y h v : Nat),
     (c.col = some x ∧ c.level = some y) ∨ ((c.col = none ∨ c.level = none) ∧ x = 0 ∧ y = param s 4) →
     h = axisTime (distance x (sl.column.val + 1)) (param s 2) (param s 7) (param s 8) →
     v = axisTime (distance y sl.level.val) (param s 3) (param s 9) (param s 10) →
     approachEstimate s c sl = (if h ≤ v then v else h) + param s 11 + if c.state = .resting then param s 13 else 0) ∧
  ∀ (s : State) (a : Aisle) (cs : List Candidate) (approach : Candidate → Nat),
    (∀ c ∈ cs, c.entry.priority ≤ 3) →
    (∀ c ∈ cs, ∃ r, bin s c.entry.bin = some r ∧ approach c = approachEstimate s (crane s a) r.home) →
    (cs = [] → firstRanked s a cs = none) ∧
    (cs ≠ [] → ∃ c ∈ cs, firstRanked s a cs = some c ∧ ∀ d ∈ cs, ¬RanksBefore s approach d c)

/-- R89: a move of distance D on an axis takes, in the short profile (D × a < v²), the smallest whole t ms with
t² × a ≥ 4,000,000 × D, and in the full profile the sum of 1000 × D / v and 1000 × v / a, each rounded up on its own; no
move takes no time. At the boundary D × a = v² the full form gives at most 1 ms more than the short one. The count of
pitches is the difference of two columns or two levels without sign, with the mouth at column −1 (the model holds a column
raised by 1, so the mouth as 0); it is 0 to 96 and 0 to 11, and the distances of the wing reach 192,000 mm. -/
def Obligations.AxisTimeIsExact : Prop :=
  (∀ x y : Nat, distance x y = if x ≤ y then y - x else x - y) ∧
  (∀ f g : Slot, distance (slotCol f) (slotCol g) = ((f.column.val : Int) - g.column.val).natAbs ∧
    distance (slotCol f) 0 = ((f.column.val : Int) - (-1)).natAbs ∧ distance (slotCol f) (slotCol g) ≤ 96 ∧
    distance (slotCol f) 0 ≤ 96 ∧ distance f.level.val g.level.val ≤ 11) ∧
  ∀ n pitch v a : Nat, n * pitch ≤ 192000 → 0 < v → 0 < a →
    (n * pitch = 0 → axisTime n pitch v a = 0) ∧
    (0 < n * pitch → n * pitch * a < v * v → ∀ t : Nat,
      axisTime n pitch v a ≤ t ↔ 4000000 * (n * pitch) ≤ t * t * a) ∧
    (0 < n * pitch → v * v ≤ n * pitch * a → ∃ x y : Nat, axisTime n pitch v a = x + y ∧
      (∀ t : Nat, x ≤ t ↔ 1000 * (n * pitch) ≤ t * v) ∧ ∀ t : Nat, y ≤ t ↔ 1000 * v ≤ t * a) ∧
    (0 < n * pitch → n * pitch * a = v * v → ∀ t : Nat, (∀ k : Nat, t ≤ k ↔ 4000000 * (n * pitch) ≤ k * k * a) →
      axisTime n pitch v a = t ∨ axisTime n pitch v a = t + 1) ∧
    4000000 * (n * pitch) ≤ 768000000000 ∧ 768000000000 < 2 ^ 40

/-! ### The Withdrawal Table -/

/-- R48: the home bucket of a key is a fold of its halves. -/
def Obligations.HomeBucketFoldsTheKey : Prop :=
  ∀ key : ItemKey, ∃ x : Nat, x = (key.toNat / 2 ^ 24) ^^^ (key.toNat % 2 ^ 24) ∧ x < 16777216 ∧
    homeBucket key = (x % 4096) ^^^ (x / 4096) ∧ homeBucket key < 4096

/-- R55: the due day is clamped into the window from today to today + 1,000, whose upper end is at most 65,535; a due day within
the window is kept. -/
def Obligations.DueDayIsClamped : Prop :=
  ∀ today due : Nat, today ≤ 65535 → due ≤ 65535 →
    (due < today → clampDue today due = today) ∧
    (today + 1000 < due → clampDue today due = today + 1000) ∧
    (today ≤ due → due ≤ today + 1000 → clampDue today due = due) ∧
    today ≤ clampDue today due ∧ clampDue today due ≤ today + 1000 ∧ clampDue today due ≤ 65535

/-- R49, R50: in a table that keeps the law, with a second empty bucket, an inserted record is found under its key, every other
key's record is found as before, and the law is kept.

R51, R52, R163: a deletion takes the record of its key away and closes the gap: every other key's record is found as before,
no record is lost behind an empty bucket, and the count of records falls by 1; a query of the table that is RUNNING or PAUSED is
DISTURBED, and the channel is otherwise as it was, IDLE and DONE queries and those of the BIN table among them. -/
def Obligations.WithdrawalTableFindsItsRecords : Prop :=
  (∀ (w : WithdrawalRec) (s t : State), ProbeLaw s.withdrawals → withdrawal s w.key = none →
     (∃ i j : Nat, i < j ∧ j < 4096 ∧ tableGet s.withdrawals i = none ∧ tableGet s.withdrawals j = none) →
     t = insertRecord w s →
     ProbeLaw t.withdrawals ∧ withdrawal t w.key = some w ∧ t.recordCount = s.recordCount + 1 ∧
     (∀ key : ItemKey, key ≠ w.key → withdrawal t key = withdrawal s key) ∧
     { t with withdrawals := s.withdrawals, recordCount := s.recordCount } = s) ∧
  (∀ (key : ItemKey) (w : WithdrawalRec) (s t : State), ProbeLaw s.withdrawals → withdrawal s key = some w →
     t = deleteRecord key s →
     ProbeLaw t.withdrawals ∧ withdrawal t key = none ∧ t.recordCount = s.recordCount - 1 ∧
     (∀ other : ItemKey, other ≠ key → withdrawal t other = withdrawal s other) ∧
     t.chanQ = (if s.chanQ.table = .withdrawal ∧ (s.chanQ.state = .running ∨ s.chanQ.state = .paused) then
       { s.chanQ with disturbed := true } else s.chanQ) ∧
     { t with withdrawals := s.withdrawals, recordCount := s.recordCount, chanQ := s.chanQ } = s)

/-! ### The wire forms and the whole machine -/

/-- R164, R165, R133, R183: the bytes of a command message, and of a message of a field link with the parity of each byte, are
read as the row they were written for, with every field.

R164: the access codes 0x01 to 0x04 select the row of a whole transaction, which is then taken; a transaction with any other
first byte is answered by 0x00 for every byte clocked, that byte among them, and changes nothing; one with no byte neither
sends nor changes anything. That whole transactions are
rows, and the bytes sent a field, is the model's choice (log entry 7). -/
def Obligations.MessagesReadAsWritten : Prop :=
  (∀ (i : Instr) (m : List Byte), WellFormed i = true → encodeMessage i = some m → decodeMessage m = i) ∧
  ∀ (a : Aisle) (z : Station) (i : Instr) (m : List Byte), WellFormed i = true → encodeField i = some m →
    ((∀ x y, i = .mark a x y ∨ i = .arrived a ∨ i = .forkDone a ∨ i = .homed a ∨ i = .currentLimit a ∨ i = .noLoad a ∨
        i = .supply a x → decodeDrive a (withParity m) = i) ∧
    (∀ key x, i = .itemScan z key ∨ i = .panelDone z ∨ i = .keep z ∨ i = .problem z x →
        decodePanel z (withParity m) = i)) ∧
  ∀ (bkok : Bool) (s : State),
    (∀ (i : Instr) (m : List Byte), WellFormed i = true → encodeMessage i = some m →
      takeTransaction bkok (0x01 :: m) s = exec i s) ∧
    (∀ m : List Byte, takeTransaction bkok (0x02 :: m) s = exec (.readReply m.length bkok) s ∧
      takeTransaction bkok (0x03 :: m) s = exec .readStatusTransaction s ∧
      takeTransaction bkok (0x04 :: m) s = exec .readAndClearAttention s) ∧
    (∀ (code : Byte) (m : List Byte), code.toNat = 0 ∨ 4 < code.toNat → inReset s = false →
      takeTransaction bkok (code :: m) s =
        .next { s with link := { s.link with hostOut := List.replicate (m.length + 1) 0x00 } }) ∧
    (inReset s = false → takeTransaction bkok [] s = .next { s with link := { s.link with hostOut := [] } })

/-- The part after a power-on with retention lost meets the laws of the model: the well-formed record tables, the law of the
link and that of the shutters, which every step keeps (the three statements below), and the law of the Withdrawal Table, which
an insertion keeps while a second bucket is empty, as R52 has it, and a deletion always (`WithdrawalTableFindsItsRecords`). -/
def Obligations.ResetMeetsTheLaws : Prop :=
  State.reset.wf = true ∧ LinkLaw State.reset.link ∧ shutterLaw State.reset ∧ ProbeLaw State.reset.withdrawals

/-- R1, R4, R22, R46: every step keeps the tables of the Record Memory in canonical form: numbers rising and within their range,
one record for a number, and no EMPTY slot listed. -/
def Obligations.RecordTablesStayWellFormed : Prop :=
  ∀ s t : State, s.wf = true → step s = .next t → t.wf = true

/-- R164 to R168, R171, R173: every step keeps the laws of the Link Interface: one command at a time, answered by one reply. -/
def Obligations.LinkLawIsKept : Prop :=
  ∀ s t : State, LinkLaw s.link → step s = .next t → LinkLaw t.link

/-- R147, with R119, R128, R129 and R145: while a zone is SEALED or AWAIT_RESTORE its station's hold-open output is released,
whatever row is taken: every step keeps the law, and the law says so. -/
def Obligations.SealedShutterStaysReleased : Prop :=
  (∀ s t : State, shutterLaw s → step s = .next t → shutterLaw t) ∧ ∀ s : State, shutterLaw s → sealedLaw s
end

