-- ==== Sys2Proof/Laws/Tables.lean ====
section
/-! SUPPORT. The sparse tables of the Record Memory: read after write, and the canonical form that every operation keeps. -/

namespace Sys2Proof.Machine

variable {α : Type}

@[simp] theorem tableGet_nil (n : Nat) : tableGet ([] : Table α) n = none := rfl

theorem tableGet_put_same (t : Table α) (n : Nat) (x : α) : tableGet (tablePut t n x) n = some x := by
  induction t with
  | nil => simp [tablePut, tableGet]
  | cons e t ih =>
    obtain ⟨k, v⟩ := e
    simp only [tablePut]
    split
    · simp [tableGet]
    · split
      · simp [tableGet]
      · rename_i h1 h2
        have : k ≠ n := fun h => h2 h.symm
        simp [tableGet, this, ih]

theorem tableGet_put_ne (t : Table α) {n m : Nat} (h : m ≠ n) (x : α) : tableGet (tablePut t n x) m = tableGet t m := by
  have h' : n ≠ m := h.symm
  induction t with
  | nil => simp [tablePut, tableGet, h']
  | cons e t ih =>
    obtain ⟨k, v⟩ := e
    simp only [tablePut]
    split
    · simp [tableGet, h']
    · split
      · rename_i h1 h2
        subst h2
        simp [tableGet, h']
      · simp only [tableGet, ih]

/-- A read after a write gives the record written, and every other number reads as before. -/
theorem tableGet_put (t : Table α) (n m : Nat) (x : α) :
    tableGet (tablePut t n x) m = if m = n then some x else tableGet t m := by
  split
  · rename_i h
    rw [h, tableGet_put_same]
  · rename_i h
    rw [tableGet_put_ne t h]

/-- The later of two writes of one number counts. -/
theorem tablePut_put (t : Table α) (n : Nat) (x y : α) : tablePut (tablePut t n x) n y = tablePut t n y := by
  induction t with
  | nil => simp [tablePut]
  | cons e t ih => simp only [tablePut]; (repeat' split) <;> simp_all [tablePut]

theorem tableGet_erase_same (t : Table α) (n : Nat) : tableGet (tableErase t n) n = none := by
  induction t with
  | nil => rfl
  | cons e t ih =>
    obtain ⟨k, v⟩ := e
    simp only [tableErase]
    split
    · exact ih
    · rename_i h
      simp [tableGet, h, ih]

theorem tableGet_erase_ne (t : Table α) {n m : Nat} (h : m ≠ n) : tableGet (tableErase t n) m = tableGet t m := by
  induction t with
  | nil => rfl
  | cons e t ih =>
    obtain ⟨k, v⟩ := e
    simp only [tableErase]
    split
    · rename_i hk
      subst hk
      have : k ≠ m := h.symm
      simp [tableGet, this, ih]
    · simp only [tableGet, ih]

/-- After an erasure the number has no record, and every other number reads as before. -/
theorem tableGet_erase (t : Table α) (n m : Nat) :
    tableGet (tableErase t n) m = if m = n then none else tableGet t m := by
  split
  · rename_i h
    rw [h, tableGet_erase_same]
  · rename_i h
    rw [tableGet_erase_ne t h]

/-- A change of every record is read through it. -/
theorem tableGet_map (f : Nat → α → α) (t : Table α) (n : Nat) : tableGet (tableMap f t) n = (tableGet t n).map (f n) := by
  induction t with
  | nil => rfl
  | cons e t ih =>
    obtain ⟨k, v⟩ := e
    simp only [tableMap, List.map_cons, tableGet]
    split
    · rename_i h
      simp [h]
    · exact ih

/-! ### The canonical form -/

/-- The head of a table in canonical form lies below the bound, and the rest is in the form with greater numbers. -/
theorem tableWf_cons {bound k : Nat} {v : α} {t : Table α} :
    tableWf bound ((k, v) :: t) = true ↔ k < bound ∧ tableWf bound t = true ∧ ∀ e ∈ t, k < e.1 := by
  induction t generalizing k v with
  | nil => simp [tableWf]
  | cons e t ih =>
    obtain ⟨k', v'⟩ := e
    have ih' := ih (k := k') (v := v')
    simp only [tableWf, Bool.and_eq_true, decide_eq_true_eq]
    constructor
    · rintro ⟨h1, h2⟩
      have h3 := ih'.mp h2
      refine ⟨by omega, h2, ?_⟩
      intro e he
      rcases List.mem_cons.mp he with rfl | he
      · exact h1
      · have := h3.2.2 e he
        omega
    · rintro ⟨_, h2, h3⟩
      exact ⟨h3 (k', v') (by simp), h2⟩

theorem tablePut_keys {t : Table α} {n : Nat} {x : α} {e : Nat × α} (h : e ∈ tablePut t n x) : e.1 = n ∨ e ∈ t := by
  induction t with
  | nil => simp [tablePut] at h; simp [h]
  | cons d t ih =>
    obtain ⟨k, v⟩ := d
    simp only [tablePut] at h
    split at h
    · rcases List.mem_cons.mp h with rfl | h
      · simp
      · exact .inr h
    · split at h
      · rcases List.mem_cons.mp h with rfl | h
        · simp
        · exact .inr (List.mem_cons_of_mem _ h)
      · rcases List.mem_cons.mp h with rfl | h
        · simp
        · rcases ih h with h | h
          · exact .inl h
          · exact .inr (List.mem_cons_of_mem _ h)

/-- A write of a number in range keeps the canonical form. -/
theorem tableWf_put {bound : Nat} {t : Table α} {n : Nat} {x : α} (h : tableWf bound t = true) (hn : n < bound) :
    tableWf bound (tablePut t n x) = true := by
  induction t with
  | nil => simpa [tablePut, tableWf] using hn
  | cons e t ih =>
    obtain ⟨k, v⟩ := e
    have hc := tableWf_cons.mp h
    simp only [tablePut]
    split
    · rename_i hlt
      refine tableWf_cons.mpr ⟨hn, h, ?_⟩
      intro e he
      rcases List.mem_cons.mp he with rfl | he
      · exact hlt
      · have := hc.2.2 e he
        omega
    · split
      · rename_i heq
        subst heq
        exact tableWf_cons.mpr ⟨hn, hc.2.1, hc.2.2⟩
      · rename_i h1 h2
        refine tableWf_cons.mpr ⟨hc.1, ih hc.2.1, ?_⟩
        intro e he
        rcases tablePut_keys he with he | he
        · omega
        · exact hc.2.2 e he

theorem tableErase_mem {t : Table α} {n : Nat} {e : Nat × α} (h : e ∈ tableErase t n) : e ∈ t := by
  induction t with
  | nil => simp [tableErase] at h
  | cons d t ih =>
    obtain ⟨k, v⟩ := d
    simp only [tableErase] at h
    split at h
    · exact List.mem_cons_of_mem _ (ih h)
    · rcases List.mem_cons.mp h with rfl | h
      · simp
      · exact List.mem_cons_of_mem _ (ih h)

/-- An erasure keeps the canonical form. -/
theorem tableWf_erase {bound : Nat} {t : Table α} {n : Nat} (h : tableWf bound t = true) :
    tableWf bound (tableErase t n) = true := by
  induction t with
  | nil => rfl
  | cons e t ih =>
    obtain ⟨k, v⟩ := e
    have hc := tableWf_cons.mp h
    simp only [tableErase]
    split
    · exact ih hc.2.1
    · exact tableWf_cons.mpr ⟨hc.1, ih hc.2.1, fun e he => hc.2.2 e (tableErase_mem he)⟩

/-- A change of every record keeps the canonical form. -/
theorem tableWf_map {bound : Nat} {t : Table α} (f : Nat → α → α) (h : tableWf bound t = true) :
    tableWf bound (tableMap f t) = true := by
  induction t with
  | nil => rfl
  | cons e t ih =>
    obtain ⟨k, v⟩ := e
    have hc := tableWf_cons.mp h
    refine tableWf_cons.mpr ⟨hc.1, ih hc.2.1, ?_⟩
    intro e he
    obtain ⟨d, hd, rfl⟩ := List.mem_map.mp he
    exact hc.2.2 d hd

/-- A number that has a record in canonical form lies in range. -/
theorem tableWf_lt {bound : Nat} {t : Table α} {n : Nat} {x : α} (h : tableWf bound t = true) (hg : tableGet t n = some x) :
    n < bound := by
  induction t with
  | nil => simp at hg
  | cons e t ih =>
    obtain ⟨k, v⟩ := e
    have hc := tableWf_cons.mp h
    simp only [tableGet] at hg
    split at hg
    · rename_i hk
      omega
    · exact ih hc.2.1 hg

/-- The free number that is found has no record and lies in the range searched (R22). -/
theorem tableFree_some {t : Table α} {fuel n m : Nat} (h : tableFree t fuel n = some m) :
    tableGet t m = none ∧ n ≤ m ∧ m < n + fuel := by
  induction fuel generalizing n with
  | zero => simp [tableFree] at h
  | succ fuel ih =>
    simp only [tableFree] at h
    split at h
    · rename_i hg
      simp only [Option.some.injEq] at h
      subst h
      exact ⟨by simpa using hg, by omega, by omega⟩
    · have := ih h
      exact ⟨this.1, by omega, by omega⟩

end Sys2Proof.Machine
end

