-- ==== Sys2Proof/Laws/State.lean ====
section
/-! SUPPORT. One lemma for each field that a basic update of State leaves as it is, and for what it sets. -/

namespace Sys2Proof.Machine

/-! setCrane -/

@[simp] theorem setCrane_bins (a : Aisle) (c : CraneRec) (s : State) : (setCrane a c s).bins = s.bins := rfl
@[simp] theorem setCrane_slots (a : Aisle) (c : CraneRec) (s : State) : (setCrane a c s).slots = s.slots := rfl
@[simp] theorem setCrane_visits (a : Aisle) (c : CraneRec) (s : State) : (setCrane a c s).visits = s.visits := rfl
@[simp] theorem setCrane_withdrawals (a : Aisle) (c : CraneRec) (s : State) : (setCrane a c s).withdrawals = s.withdrawals := rfl
@[simp] theorem setCrane_recordCount (a : Aisle) (c : CraneRec) (s : State) : (setCrane a c s).recordCount = s.recordCount := rfl
@[simp] theorem setCrane_pendingLends (a : Aisle) (c : CraneRec) (s : State) : (setCrane a c s).pendingLends = s.pendingLends := rfl
@[simp] theorem setCrane_protection (a : Aisle) (c : CraneRec) (s : State) : (setCrane a c s).protection = s.protection := rfl
@[simp] theorem setCrane_day (a : Aisle) (c : CraneRec) (s : State) : (setCrane a c s).day = s.day := rfl
@[simp] theorem setCrane_mode (a : Aisle) (c : CraneRec) (s : State) : (setCrane a c s).mode = s.mode := rfl
@[simp] theorem setCrane_params (a : Aisle) (c : CraneRec) (s : State) : (setCrane a c s).params = s.params := rfl
@[simp] theorem setCrane_forkMarks (a : Aisle) (c : CraneRec) (s : State) : (setCrane a c s).forkMarks = s.forkMarks := rfl
@[simp] theorem setCrane_crossingMarks (a : Aisle) (c : CraneRec) (s : State) : (setCrane a c s).crossingMarks = s.crossingMarks := rfl
@[simp] theorem setCrane_aisles (a : Aisle) (c : CraneRec) (s : State) : (setCrane a c s).aisles = s.aisles := rfl
@[simp] theorem setCrane_stations (a : Aisle) (c : CraneRec) (s : State) : (setCrane a c s).stations = s.stations := rfl
@[simp] theorem setCrane_zones (a : Aisle) (c : CraneRec) (s : State) : (setCrane a c s).zones = s.zones := rfl
@[simp] theorem setCrane_inputs (a : Aisle) (c : CraneRec) (s : State) : (setCrane a c s).inputs = s.inputs := rfl
@[simp] theorem setCrane_chanQ (a : Aisle) (c : CraneRec) (s : State) : (setCrane a c s).chanQ = s.chanQ := rfl
@[simp] theorem setCrane_chanP (a : Aisle) (c : CraneRec) (s : State) : (setCrane a c s).chanP = s.chanP := rfl
@[simp] theorem setCrane_search (a : Aisle) (c : CraneRec) (s : State) : (setCrane a c s).search = s.search := rfl
@[simp] theorem setCrane_link (a : Aisle) (c : CraneRec) (s : State) : (setCrane a c s).link = s.link := rfl
@[simp] theorem setCrane_time (a : Aisle) (c : CraneRec) (s : State) : (setCrane a c s).time = s.time := rfl
@[simp] theorem setCrane_resets (a : Aisle) (c : CraneRec) (s : State) : (setCrane a c s).resets = s.resets := rfl
@[simp] theorem setCrane_sent (a : Aisle) (c : CraneRec) (s : State) : (setCrane a c s).sent = s.sent := rfl
@[simp] theorem setCrane_pending (a : Aisle) (c : CraneRec) (s : State) : (setCrane a c s).pending = s.pending := rfl

/-! setStation -/

@[simp] theorem setStation_bins (z : Station) (r : StationRec) (s : State) : (setStation z r s).bins = s.bins := rfl
@[simp] theorem setStation_slots (z : Station) (r : StationRec) (s : State) : (setStation z r s).slots = s.slots := rfl
@[simp] theorem setStation_visits (z : Station) (r : StationRec) (s : State) : (setStation z r s).visits = s.visits := rfl
@[simp] theorem setStation_withdrawals (z : Station) (r : StationRec) (s : State) : (setStation z r s).withdrawals = s.withdrawals := rfl
@[simp] theorem setStation_recordCount (z : Station) (r : StationRec) (s : State) : (setStation z r s).recordCount = s.recordCount := rfl
@[simp] theorem setStation_pendingLends (z : Station) (r : StationRec) (s : State) : (setStation z r s).pendingLends = s.pendingLends := rfl
@[simp] theorem setStation_protection (z : Station) (r : StationRec) (s : State) : (setStation z r s).protection = s.protection := rfl
@[simp] theorem setStation_day (z : Station) (r : StationRec) (s : State) : (setStation z r s).day = s.day := rfl
@[simp] theorem setStation_mode (z : Station) (r : StationRec) (s : State) : (setStation z r s).mode = s.mode := rfl
@[simp] theorem setStation_params (z : Station) (r : StationRec) (s : State) : (setStation z r s).params = s.params := rfl
@[simp] theorem setStation_forkMarks (z : Station) (r : StationRec) (s : State) : (setStation z r s).forkMarks = s.forkMarks := rfl
@[simp] theorem setStation_crossingMarks (z : Station) (r : StationRec) (s : State) : (setStation z r s).crossingMarks = s.crossingMarks := rfl
@[simp] theorem setStation_aisles (z : Station) (r : StationRec) (s : State) : (setStation z r s).aisles = s.aisles := rfl
@[simp] theorem setStation_cranes (z : Station) (r : StationRec) (s : State) : (setStation z r s).cranes = s.cranes := rfl
@[simp] theorem setStation_zones (z : Station) (r : StationRec) (s : State) : (setStation z r s).zones = s.zones := rfl
@[simp] theorem setStation_inputs (z : Station) (r : StationRec) (s : State) : (setStation z r s).inputs = s.inputs := rfl
@[simp] theorem setStation_chanQ (z : Station) (r : StationRec) (s : State) : (setStation z r s).chanQ = s.chanQ := rfl
@[simp] theorem setStation_chanP (z : Station) (r : StationRec) (s : State) : (setStation z r s).chanP = s.chanP := rfl
@[simp] theorem setStation_search (z : Station) (r : StationRec) (s : State) : (setStation z r s).search = s.search := rfl
@[simp] theorem setStation_link (z : Station) (r : StationRec) (s : State) : (setStation z r s).link = s.link := rfl
@[simp] theorem setStation_time (z : Station) (r : StationRec) (s : State) : (setStation z r s).time = s.time := rfl
@[simp] theorem setStation_resets (z : Station) (r : StationRec) (s : State) : (setStation z r s).resets = s.resets := rfl
@[simp] theorem setStation_sent (z : Station) (r : StationRec) (s : State) : (setStation z r s).sent = s.sent := rfl
@[simp] theorem setStation_pending (z : Station) (r : StationRec) (s : State) : (setStation z r s).pending = s.pending := rfl

/-! setZone -/

@[simp] theorem setZone_bins (z : Station) (r : ZoneRec) (s : State) : (setZone z r s).bins = s.bins := rfl
@[simp] theorem setZone_slots (z : Station) (r : ZoneRec) (s : State) : (setZone z r s).slots = s.slots := rfl
@[simp] theorem setZone_visits (z : Station) (r : ZoneRec) (s : State) : (setZone z r s).visits = s.visits := rfl
@[simp] theorem setZone_withdrawals (z : Station) (r : ZoneRec) (s : State) : (setZone z r s).withdrawals = s.withdrawals := rfl
@[simp] theorem setZone_recordCount (z : Station) (r : ZoneRec) (s : State) : (setZone z r s).recordCount = s.recordCount := rfl
@[simp] theorem setZone_pendingLends (z : Station) (r : ZoneRec) (s : State) : (setZone z r s).pendingLends = s.pendingLends := rfl
@[simp] theorem setZone_protection (z : Station) (r : ZoneRec) (s : State) : (setZone z r s).protection = s.protection := rfl
@[simp] theorem setZone_day (z : Station) (r : ZoneRec) (s : State) : (setZone z r s).day = s.day := rfl
@[simp] theorem setZone_mode (z : Station) (r : ZoneRec) (s : State) : (setZone z r s).mode = s.mode := rfl
@[simp] theorem setZone_params (z : Station) (r : ZoneRec) (s : State) : (setZone z r s).params = s.params := rfl
@[simp] theorem setZone_forkMarks (z : Station) (r : ZoneRec) (s : State) : (setZone z r s).forkMarks = s.forkMarks := rfl
@[simp] theorem setZone_crossingMarks (z : Station) (r : ZoneRec) (s : State) : (setZone z r s).crossingMarks = s.crossingMarks := rfl
@[simp] theorem setZone_aisles (z : Station) (r : ZoneRec) (s : State) : (setZone z r s).aisles = s.aisles := rfl
@[simp] theorem setZone_cranes (z : Station) (r : ZoneRec) (s : State) : (setZone z r s).cranes = s.cranes := rfl
@[simp] theorem setZone_stations (z : Station) (r : ZoneRec) (s : State) : (setZone z r s).stations = s.stations := rfl
@[simp] theorem setZone_inputs (z : Station) (r : ZoneRec) (s : State) : (setZone z r s).inputs = s.inputs := rfl
@[simp] theorem setZone_chanQ (z : Station) (r : ZoneRec) (s : State) : (setZone z r s).chanQ = s.chanQ := rfl
@[simp] theorem setZone_chanP (z : Station) (r : ZoneRec) (s : State) : (setZone z r s).chanP = s.chanP := rfl
@[simp] theorem setZone_search (z : Station) (r : ZoneRec) (s : State) : (setZone z r s).search = s.search := rfl
@[simp] theorem setZone_link (z : Station) (r : ZoneRec) (s : State) : (setZone z r s).link = s.link := rfl
@[simp] theorem setZone_time (z : Station) (r : ZoneRec) (s : State) : (setZone z r s).time = s.time := rfl
@[simp] theorem setZone_resets (z : Station) (r : ZoneRec) (s : State) : (setZone z r s).resets = s.resets := rfl
@[simp] theorem setZone_sent (z : Station) (r : ZoneRec) (s : State) : (setZone z r s).sent = s.sent := rfl
@[simp] theorem setZone_pending (z : Station) (r : ZoneRec) (s : State) : (setZone z r s).pending = s.pending := rfl

/-! setAisle -/

@[simp] theorem setAisle_bins (a : Aisle) (r : AisleRec) (s : State) : (setAisle a r s).bins = s.bins := rfl
@[simp] theorem setAisle_slots (a : Aisle) (r : AisleRec) (s : State) : (setAisle a r s).slots = s.slots := rfl
@[simp] theorem setAisle_visits (a : Aisle) (r : AisleRec) (s : State) : (setAisle a r s).visits = s.visits := rfl
@[simp] theorem setAisle_withdrawals (a : Aisle) (r : AisleRec) (s : State) : (setAisle a r s).withdrawals = s.withdrawals := rfl
@[simp] theorem setAisle_recordCount (a : Aisle) (r : AisleRec) (s : State) : (setAisle a r s).recordCount = s.recordCount := rfl
@[simp] theorem setAisle_pendingLends (a : Aisle) (r : AisleRec) (s : State) : (setAisle a r s).pendingLends = s.pendingLends := rfl
@[simp] theorem setAisle_protection (a : Aisle) (r : AisleRec) (s : State) : (setAisle a r s).protection = s.protection := rfl
@[simp] theorem setAisle_day (a : Aisle) (r : AisleRec) (s : State) : (setAisle a r s).day = s.day := rfl
@[simp] theorem setAisle_mode (a : Aisle) (r : AisleRec) (s : State) : (setAisle a r s).mode = s.mode := rfl
@[simp] theorem setAisle_params (a : Aisle) (r : AisleRec) (s : State) : (setAisle a r s).params = s.params := rfl
@[simp] theorem setAisle_forkMarks (a : Aisle) (r : AisleRec) (s : State) : (setAisle a r s).forkMarks = s.forkMarks := rfl
@[simp] theorem setAisle_crossingMarks (a : Aisle) (r : AisleRec) (s : State) : (setAisle a r s).crossingMarks = s.crossingMarks := rfl
@[simp] theorem setAisle_cranes (a : Aisle) (r : AisleRec) (s : State) : (setAisle a r s).cranes = s.cranes := rfl
@[simp] theorem setAisle_stations (a : Aisle) (r : AisleRec) (s : State) : (setAisle a r s).stations = s.stations := rfl
@[simp] theorem setAisle_zones (a : Aisle) (r : AisleRec) (s : State) : (setAisle a r s).zones = s.zones := rfl
@[simp] theorem setAisle_inputs (a : Aisle) (r : AisleRec) (s : State) : (setAisle a r s).inputs = s.inputs := rfl
@[simp] theorem setAisle_chanQ (a : Aisle) (r : AisleRec) (s : State) : (setAisle a r s).chanQ = s.chanQ := rfl
@[simp] theorem setAisle_chanP (a : Aisle) (r : AisleRec) (s : State) : (setAisle a r s).chanP = s.chanP := rfl
@[simp] theorem setAisle_search (a : Aisle) (r : AisleRec) (s : State) : (setAisle a r s).search = s.search := rfl
@[simp] theorem setAisle_link (a : Aisle) (r : AisleRec) (s : State) : (setAisle a r s).link = s.link := rfl
@[simp] theorem setAisle_time (a : Aisle) (r : AisleRec) (s : State) : (setAisle a r s).time = s.time := rfl
@[simp] theorem setAisle_resets (a : Aisle) (r : AisleRec) (s : State) : (setAisle a r s).resets = s.resets := rfl
@[simp] theorem setAisle_sent (a : Aisle) (r : AisleRec) (s : State) : (setAisle a r s).sent = s.sent := rfl
@[simp] theorem setAisle_pending (a : Aisle) (r : AisleRec) (s : State) : (setAisle a r s).pending = s.pending := rfl

/-! setConditioner -/

@[simp] theorem setConditioner_bins (i : FireInput) (c : Conditioner) (s : State) : (setConditioner i c s).bins = s.bins := rfl
@[simp] theorem setConditioner_slots (i : FireInput) (c : Conditioner) (s : State) : (setConditioner i c s).slots = s.slots := rfl
@[simp] theorem setConditioner_visits (i : FireInput) (c : Conditioner) (s : State) : (setConditioner i c s).visits = s.visits := rfl
@[simp] theorem setConditioner_withdrawals (i : FireInput) (c : Conditioner) (s : State) : (setConditioner i c s).withdrawals = s.withdrawals := rfl
@[simp] theorem setConditioner_recordCount (i : FireInput) (c : Conditioner) (s : State) : (setConditioner i c s).recordCount = s.recordCount := rfl
@[simp] theorem setConditioner_pendingLends (i : FireInput) (c : Conditioner) (s : State) : (setConditioner i c s).pendingLends = s.pendingLends := rfl
@[simp] theorem setConditioner_protection (i : FireInput) (c : Conditioner) (s : State) : (setConditioner i c s).protection = s.protection := rfl
@[simp] theorem setConditioner_day (i : FireInput) (c : Conditioner) (s : State) : (setConditioner i c s).day = s.day := rfl
@[simp] theorem setConditioner_mode (i : FireInput) (c : Conditioner) (s : State) : (setConditioner i c s).mode = s.mode := rfl
@[simp] theorem setConditioner_params (i : FireInput) (c : Conditioner) (s : State) : (setConditioner i c s).params = s.params := rfl
@[simp] theorem setConditioner_forkMarks (i : FireInput) (c : Conditioner) (s : State) : (setConditioner i c s).forkMarks = s.forkMarks := rfl
@[simp] theorem setConditioner_crossingMarks (i : FireInput) (c : Conditioner) (s : State) : (setConditioner i c s).crossingMarks = s.crossingMarks := rfl
@[simp] theorem setConditioner_aisles (i : FireInput) (c : Conditioner) (s : State) : (setConditioner i c s).aisles = s.aisles := rfl
@[simp] theorem setConditioner_cranes (i : FireInput) (c : Conditioner) (s : State) : (setConditioner i c s).cranes = s.cranes := rfl
@[simp] theorem setConditioner_stations (i : FireInput) (c : Conditioner) (s : State) : (setConditioner i c s).stations = s.stations := rfl
@[simp] theorem setConditioner_zones (i : FireInput) (c : Conditioner) (s : State) : (setConditioner i c s).zones = s.zones := rfl
@[simp] theorem setConditioner_chanQ (i : FireInput) (c : Conditioner) (s : State) : (setConditioner i c s).chanQ = s.chanQ := rfl
@[simp] theorem setConditioner_chanP (i : FireInput) (c : Conditioner) (s : State) : (setConditioner i c s).chanP = s.chanP := rfl
@[simp] theorem setConditioner_search (i : FireInput) (c : Conditioner) (s : State) : (setConditioner i c s).search = s.search := rfl
@[simp] theorem setConditioner_link (i : FireInput) (c : Conditioner) (s : State) : (setConditioner i c s).link = s.link := rfl
@[simp] theorem setConditioner_time (i : FireInput) (c : Conditioner) (s : State) : (setConditioner i c s).time = s.time := rfl
@[simp] theorem setConditioner_resets (i : FireInput) (c : Conditioner) (s : State) : (setConditioner i c s).resets = s.resets := rfl
@[simp] theorem setConditioner_sent (i : FireInput) (c : Conditioner) (s : State) : (setConditioner i c s).sent = s.sent := rfl
@[simp] theorem setConditioner_pending (i : FireInput) (c : Conditioner) (s : State) : (setConditioner i c s).pending = s.pending := rfl

/-! setForkMark -/

@[simp] theorem setForkMark_bins (a : Aisle) (m : Option Nat) (s : State) : (setForkMark a m s).bins = s.bins := rfl
@[simp] theorem setForkMark_slots (a : Aisle) (m : Option Nat) (s : State) : (setForkMark a m s).slots = s.slots := rfl
@[simp] theorem setForkMark_visits (a : Aisle) (m : Option Nat) (s : State) : (setForkMark a m s).visits = s.visits := rfl
@[simp] theorem setForkMark_withdrawals (a : Aisle) (m : Option Nat) (s : State) : (setForkMark a m s).withdrawals = s.withdrawals := rfl
@[simp] theorem setForkMark_recordCount (a : Aisle) (m : Option Nat) (s : State) : (setForkMark a m s).recordCount = s.recordCount := rfl
@[simp] theorem setForkMark_pendingLends (a : Aisle) (m : Option Nat) (s : State) : (setForkMark a m s).pendingLends = s.pendingLends := rfl
@[simp] theorem setForkMark_protection (a : Aisle) (m : Option Nat) (s : State) : (setForkMark a m s).protection = s.protection := rfl
@[simp] theorem setForkMark_day (a : Aisle) (m : Option Nat) (s : State) : (setForkMark a m s).day = s.day := rfl
@[simp] theorem setForkMark_mode (a : Aisle) (m : Option Nat) (s : State) : (setForkMark a m s).mode = s.mode := rfl
@[simp] theorem setForkMark_params (a : Aisle) (m : Option Nat) (s : State) : (setForkMark a m s).params = s.params := rfl
@[simp] theorem setForkMark_crossingMarks (a : Aisle) (m : Option Nat) (s : State) : (setForkMark a m s).crossingMarks = s.crossingMarks := rfl
@[simp] theorem setForkMark_aisles (a : Aisle) (m : Option Nat) (s : State) : (setForkMark a m s).aisles = s.aisles := rfl
@[simp] theorem setForkMark_cranes (a : Aisle) (m : Option Nat) (s : State) : (setForkMark a m s).cranes = s.cranes := rfl
@[simp] theorem setForkMark_stations (a : Aisle) (m : Option Nat) (s : State) : (setForkMark a m s).stations = s.stations := rfl
@[simp] theorem setForkMark_zones (a : Aisle) (m : Option Nat) (s : State) : (setForkMark a m s).zones = s.zones := rfl
@[simp] theorem setForkMark_inputs (a : Aisle) (m : Option Nat) (s : State) : (setForkMark a m s).inputs = s.inputs := rfl
@[simp] theorem setForkMark_chanQ (a : Aisle) (m : Option Nat) (s : State) : (setForkMark a m s).chanQ = s.chanQ := rfl
@[simp] theorem setForkMark_chanP (a : Aisle) (m : Option Nat) (s : State) : (setForkMark a m s).chanP = s.chanP := rfl
@[simp] theorem setForkMark_search (a : Aisle) (m : Option Nat) (s : State) : (setForkMark a m s).search = s.search := rfl
@[simp] theorem setForkMark_link (a : Aisle) (m : Option Nat) (s : State) : (setForkMark a m s).link = s.link := rfl
@[simp] theorem setForkMark_time (a : Aisle) (m : Option Nat) (s : State) : (setForkMark a m s).time = s.time := rfl
@[simp] theorem setForkMark_resets (a : Aisle) (m : Option Nat) (s : State) : (setForkMark a m s).resets = s.resets := rfl
@[simp] theorem setForkMark_sent (a : Aisle) (m : Option Nat) (s : State) : (setForkMark a m s).sent = s.sent := rfl
@[simp] theorem setForkMark_pending (a : Aisle) (m : Option Nat) (s : State) : (setForkMark a m s).pending = s.pending := rfl

/-! setCrossingMark -/

@[simp] theorem setCrossingMark_bins (z : Station) (m : Option Nat) (s : State) : (setCrossingMark z m s).bins = s.bins := rfl
@[simp] theorem setCrossingMark_slots (z : Station) (m : Option Nat) (s : State) : (setCrossingMark z m s).slots = s.slots := rfl
@[simp] theorem setCrossingMark_visits (z : Station) (m : Option Nat) (s : State) : (setCrossingMark z m s).visits = s.visits := rfl
@[simp] theorem setCrossingMark_withdrawals (z : Station) (m : Option Nat) (s : State) : (setCrossingMark z m s).withdrawals = s.withdrawals := rfl
@[simp] theorem setCrossingMark_recordCount (z : Station) (m : Option Nat) (s : State) : (setCrossingMark z m s).recordCount = s.recordCount := rfl
@[simp] theorem setCrossingMark_pendingLends (z : Station) (m : Option Nat) (s : State) : (setCrossingMark z m s).pendingLends = s.pendingLends := rfl
@[simp] theorem setCrossingMark_protection (z : Station) (m : Option Nat) (s : State) : (setCrossingMark z m s).protection = s.protection := rfl
@[simp] theorem setCrossingMark_day (z : Station) (m : Option Nat) (s : State) : (setCrossingMark z m s).day = s.day := rfl
@[simp] theorem setCrossingMark_mode (z : Station) (m : Option Nat) (s : State) : (setCrossingMark z m s).mode = s.mode := rfl
@[simp] theorem setCrossingMark_params (z : Station) (m : Option Nat) (s : State) : (setCrossingMark z m s).params = s.params := rfl
@[simp] theorem setCrossingMark_forkMarks (z : Station) (m : Option Nat) (s : State) : (setCrossingMark z m s).forkMarks = s.forkMarks := rfl
@[simp] theorem setCrossingMark_aisles (z : Station) (m : Option Nat) (s : State) : (setCrossingMark z m s).aisles = s.aisles := rfl
@[simp] theorem setCrossingMark_cranes (z : Station) (m : Option Nat) (s : State) : (setCrossingMark z m s).cranes = s.cranes := rfl
@[simp] theorem setCrossingMark_stations (z : Station) (m : Option Nat) (s : State) : (setCrossingMark z m s).stations = s.stations := rfl
@[simp] theorem setCrossingMark_zones (z : Station) (m : Option Nat) (s : State) : (setCrossingMark z m s).zones = s.zones := rfl
@[simp] theorem setCrossingMark_inputs (z : Station) (m : Option Nat) (s : State) : (setCrossingMark z m s).inputs = s.inputs := rfl
@[simp] theorem setCrossingMark_chanQ (z : Station) (m : Option Nat) (s : State) : (setCrossingMark z m s).chanQ = s.chanQ := rfl
@[simp] theorem setCrossingMark_chanP (z : Station) (m : Option Nat) (s : State) : (setCrossingMark z m s).chanP = s.chanP := rfl
@[simp] theorem setCrossingMark_search (z : Station) (m : Option Nat) (s : State) : (setCrossingMark z m s).search = s.search := rfl
@[simp] theorem setCrossingMark_link (z : Station) (m : Option Nat) (s : State) : (setCrossingMark z m s).link = s.link := rfl
@[simp] theorem setCrossingMark_time (z : Station) (m : Option Nat) (s : State) : (setCrossingMark z m s).time = s.time := rfl
@[simp] theorem setCrossingMark_resets (z : Station) (m : Option Nat) (s : State) : (setCrossingMark z m s).resets = s.resets := rfl
@[simp] theorem setCrossingMark_sent (z : Station) (m : Option Nat) (s : State) : (setCrossingMark z m s).sent = s.sent := rfl
@[simp] theorem setCrossingMark_pending (z : Station) (m : Option Nat) (s : State) : (setCrossingMark z m s).pending = s.pending := rfl

/-! setBin -/

@[simp] theorem setBin_slots (b : Nat) (r : BinRec) (s : State) : (setBin b r s).slots = s.slots := rfl
@[simp] theorem setBin_visits (b : Nat) (r : BinRec) (s : State) : (setBin b r s).visits = s.visits := rfl
@[simp] theorem setBin_withdrawals (b : Nat) (r : BinRec) (s : State) : (setBin b r s).withdrawals = s.withdrawals := rfl
@[simp] theorem setBin_recordCount (b : Nat) (r : BinRec) (s : State) : (setBin b r s).recordCount = s.recordCount := rfl
@[simp] theorem setBin_pendingLends (b : Nat) (r : BinRec) (s : State) : (setBin b r s).pendingLends = s.pendingLends := rfl
@[simp] theorem setBin_protection (b : Nat) (r : BinRec) (s : State) : (setBin b r s).protection = s.protection := rfl
@[simp] theorem setBin_day (b : Nat) (r : BinRec) (s : State) : (setBin b r s).day = s.day := rfl
@[simp] theorem setBin_mode (b : Nat) (r : BinRec) (s : State) : (setBin b r s).mode = s.mode := rfl
@[simp] theorem setBin_params (b : Nat) (r : BinRec) (s : State) : (setBin b r s).params = s.params := rfl
@[simp] theorem setBin_forkMarks (b : Nat) (r : BinRec) (s : State) : (setBin b r s).forkMarks = s.forkMarks := rfl
@[simp] theorem setBin_crossingMarks (b : Nat) (r : BinRec) (s : State) : (setBin b r s).crossingMarks = s.crossingMarks := rfl
@[simp] theorem setBin_aisles (b : Nat) (r : BinRec) (s : State) : (setBin b r s).aisles = s.aisles := rfl
@[simp] theorem setBin_cranes (b : Nat) (r : BinRec) (s : State) : (setBin b r s).cranes = s.cranes := rfl
@[simp] theorem setBin_stations (b : Nat) (r : BinRec) (s : State) : (setBin b r s).stations = s.stations := rfl
@[simp] theorem setBin_zones (b : Nat) (r : BinRec) (s : State) : (setBin b r s).zones = s.zones := rfl
@[simp] theorem setBin_inputs (b : Nat) (r : BinRec) (s : State) : (setBin b r s).inputs = s.inputs := rfl
@[simp] theorem setBin_chanQ (b : Nat) (r : BinRec) (s : State) : (setBin b r s).chanQ = s.chanQ := rfl
@[simp] theorem setBin_chanP (b : Nat) (r : BinRec) (s : State) : (setBin b r s).chanP = s.chanP := rfl
@[simp] theorem setBin_search (b : Nat) (r : BinRec) (s : State) : (setBin b r s).search = s.search := rfl
@[simp] theorem setBin_link (b : Nat) (r : BinRec) (s : State) : (setBin b r s).link = s.link := rfl
@[simp] theorem setBin_time (b : Nat) (r : BinRec) (s : State) : (setBin b r s).time = s.time := rfl
@[simp] theorem setBin_resets (b : Nat) (r : BinRec) (s : State) : (setBin b r s).resets = s.resets := rfl
@[simp] theorem setBin_sent (b : Nat) (r : BinRec) (s : State) : (setBin b r s).sent = s.sent := rfl
@[simp] theorem setBin_pending (b : Nat) (r : BinRec) (s : State) : (setBin b r s).pending = s.pending := rfl

/-! freeBin -/

@[simp] theorem freeBin_slots (b : Nat) (s : State) : (freeBin b s).slots = s.slots := rfl
@[simp] theorem freeBin_visits (b : Nat) (s : State) : (freeBin b s).visits = s.visits := rfl
@[simp] theorem freeBin_withdrawals (b : Nat) (s : State) : (freeBin b s).withdrawals = s.withdrawals := rfl
@[simp] theorem freeBin_recordCount (b : Nat) (s : State) : (freeBin b s).recordCount = s.recordCount := rfl
@[simp] theorem freeBin_pendingLends (b : Nat) (s : State) : (freeBin b s).pendingLends = s.pendingLends := rfl
@[simp] theorem freeBin_protection (b : Nat) (s : State) : (freeBin b s).protection = s.protection := rfl
@[simp] theorem freeBin_day (b : Nat) (s : State) : (freeBin b s).day = s.day := rfl
@[simp] theorem freeBin_mode (b : Nat) (s : State) : (freeBin b s).mode = s.mode := rfl
@[simp] theorem freeBin_params (b : Nat) (s : State) : (freeBin b s).params = s.params := rfl
@[simp] theorem freeBin_forkMarks (b : Nat) (s : State) : (freeBin b s).forkMarks = s.forkMarks := rfl
@[simp] theorem freeBin_crossingMarks (b : Nat) (s : State) : (freeBin b s).crossingMarks = s.crossingMarks := rfl
@[simp] theorem freeBin_aisles (b : Nat) (s : State) : (freeBin b s).aisles = s.aisles := rfl
@[simp] theorem freeBin_cranes (b : Nat) (s : State) : (freeBin b s).cranes = s.cranes := rfl
@[simp] theorem freeBin_stations (b : Nat) (s : State) : (freeBin b s).stations = s.stations := rfl
@[simp] theorem freeBin_zones (b : Nat) (s : State) : (freeBin b s).zones = s.zones := rfl
@[simp] theorem freeBin_inputs (b : Nat) (s : State) : (freeBin b s).inputs = s.inputs := rfl
@[simp] theorem freeBin_chanQ (b : Nat) (s : State) : (freeBin b s).chanQ = s.chanQ := rfl
@[simp] theorem freeBin_chanP (b : Nat) (s : State) : (freeBin b s).chanP = s.chanP := rfl
@[simp] theorem freeBin_search (b : Nat) (s : State) : (freeBin b s).search = s.search := rfl
@[simp] theorem freeBin_link (b : Nat) (s : State) : (freeBin b s).link = s.link := rfl
@[simp] theorem freeBin_time (b : Nat) (s : State) : (freeBin b s).time = s.time := rfl
@[simp] theorem freeBin_resets (b : Nat) (s : State) : (freeBin b s).resets = s.resets := rfl
@[simp] theorem freeBin_sent (b : Nat) (s : State) : (freeBin b s).sent = s.sent := rfl
@[simp] theorem freeBin_pending (b : Nat) (s : State) : (freeBin b s).pending = s.pending := rfl

/-! setSlot -/

@[simp] theorem setSlot_bins (sl : Slot) (e : SlotEntry) (s : State) : (setSlot sl e s).bins = s.bins := rfl
@[simp] theorem setSlot_visits (sl : Slot) (e : SlotEntry) (s : State) : (setSlot sl e s).visits = s.visits := rfl
@[simp] theorem setSlot_withdrawals (sl : Slot) (e : SlotEntry) (s : State) : (setSlot sl e s).withdrawals = s.withdrawals := rfl
@[simp] theorem setSlot_recordCount (sl : Slot) (e : SlotEntry) (s : State) : (setSlot sl e s).recordCount = s.recordCount := rfl
@[simp] theorem setSlot_pendingLends (sl : Slot) (e : SlotEntry) (s : State) : (setSlot sl e s).pendingLends = s.pendingLends := rfl
@[simp] theorem setSlot_protection (sl : Slot) (e : SlotEntry) (s : State) : (setSlot sl e s).protection = s.protection := rfl
@[simp] theorem setSlot_day (sl : Slot) (e : SlotEntry) (s : State) : (setSlot sl e s).day = s.day := rfl
@[simp] theorem setSlot_mode (sl : Slot) (e : SlotEntry) (s : State) : (setSlot sl e s).mode = s.mode := rfl
@[simp] theorem setSlot_params (sl : Slot) (e : SlotEntry) (s : State) : (setSlot sl e s).params = s.params := rfl
@[simp] theorem setSlot_forkMarks (sl : Slot) (e : SlotEntry) (s : State) : (setSlot sl e s).forkMarks = s.forkMarks := rfl
@[simp] theorem setSlot_crossingMarks (sl : Slot) (e : SlotEntry) (s : State) : (setSlot sl e s).crossingMarks = s.crossingMarks := rfl
@[simp] theorem setSlot_aisles (sl : Slot) (e : SlotEntry) (s : State) : (setSlot sl e s).aisles = s.aisles := rfl
@[simp] theorem setSlot_cranes (sl : Slot) (e : SlotEntry) (s : State) : (setSlot sl e s).cranes = s.cranes := rfl
@[simp] theorem setSlot_stations (sl : Slot) (e : SlotEntry) (s : State) : (setSlot sl e s).stations = s.stations := rfl
@[simp] theorem setSlot_zones (sl : Slot) (e : SlotEntry) (s : State) : (setSlot sl e s).zones = s.zones := rfl
@[simp] theorem setSlot_inputs (sl : Slot) (e : SlotEntry) (s : State) : (setSlot sl e s).inputs = s.inputs := rfl
@[simp] theorem setSlot_chanQ (sl : Slot) (e : SlotEntry) (s : State) : (setSlot sl e s).chanQ = s.chanQ := rfl
@[simp] theorem setSlot_chanP (sl : Slot) (e : SlotEntry) (s : State) : (setSlot sl e s).chanP = s.chanP := rfl
@[simp] theorem setSlot_search (sl : Slot) (e : SlotEntry) (s : State) : (setSlot sl e s).search = s.search := rfl
@[simp] theorem setSlot_link (sl : Slot) (e : SlotEntry) (s : State) : (setSlot sl e s).link = s.link := rfl
@[simp] theorem setSlot_time (sl : Slot) (e : SlotEntry) (s : State) : (setSlot sl e s).time = s.time := rfl
@[simp] theorem setSlot_resets (sl : Slot) (e : SlotEntry) (s : State) : (setSlot sl e s).resets = s.resets := rfl
@[simp] theorem setSlot_sent (sl : Slot) (e : SlotEntry) (s : State) : (setSlot sl e s).sent = s.sent := rfl
@[simp] theorem setSlot_pending (sl : Slot) (e : SlotEntry) (s : State) : (setSlot sl e s).pending = s.pending := rfl

/-! setVisit -/

@[simp] theorem setVisit_bins (n : Nat) (v : VisitRec) (s : State) : (setVisit n v s).bins = s.bins := rfl
@[simp] theorem setVisit_slots (n : Nat) (v : VisitRec) (s : State) : (setVisit n v s).slots = s.slots := rfl
@[simp] theorem setVisit_withdrawals (n : Nat) (v : VisitRec) (s : State) : (setVisit n v s).withdrawals = s.withdrawals := rfl
@[simp] theorem setVisit_recordCount (n : Nat) (v : VisitRec) (s : State) : (setVisit n v s).recordCount = s.recordCount := rfl
@[simp] theorem setVisit_pendingLends (n : Nat) (v : VisitRec) (s : State) : (setVisit n v s).pendingLends = s.pendingLends := rfl
@[simp] theorem setVisit_protection (n : Nat) (v : VisitRec) (s : State) : (setVisit n v s).protection = s.protection := rfl
@[simp] theorem setVisit_day (n : Nat) (v : VisitRec) (s : State) : (setVisit n v s).day = s.day := rfl
@[simp] theorem setVisit_mode (n : Nat) (v : VisitRec) (s : State) : (setVisit n v s).mode = s.mode := rfl
@[simp] theorem setVisit_params (n : Nat) (v : VisitRec) (s : State) : (setVisit n v s).params = s.params := rfl
@[simp] theorem setVisit_forkMarks (n : Nat) (v : VisitRec) (s : State) : (setVisit n v s).forkMarks = s.forkMarks := rfl
@[simp] theorem setVisit_crossingMarks (n : Nat) (v : VisitRec) (s : State) : (setVisit n v s).crossingMarks = s.crossingMarks := rfl
@[simp] theorem setVisit_aisles (n : Nat) (v : VisitRec) (s : State) : (setVisit n v s).aisles = s.aisles := rfl
@[simp] theorem setVisit_cranes (n : Nat) (v : VisitRec) (s : State) : (setVisit n v s).cranes = s.cranes := rfl
@[simp] theorem setVisit_stations (n : Nat) (v : VisitRec) (s : State) : (setVisit n v s).stations = s.stations := rfl
@[simp] theorem setVisit_zones (n : Nat) (v : VisitRec) (s : State) : (setVisit n v s).zones = s.zones := rfl
@[simp] theorem setVisit_inputs (n : Nat) (v : VisitRec) (s : State) : (setVisit n v s).inputs = s.inputs := rfl
@[simp] theorem setVisit_chanQ (n : Nat) (v : VisitRec) (s : State) : (setVisit n v s).chanQ = s.chanQ := rfl
@[simp] theorem setVisit_chanP (n : Nat) (v : VisitRec) (s : State) : (setVisit n v s).chanP = s.chanP := rfl
@[simp] theorem setVisit_search (n : Nat) (v : VisitRec) (s : State) : (setVisit n v s).search = s.search := rfl
@[simp] theorem setVisit_link (n : Nat) (v : VisitRec) (s : State) : (setVisit n v s).link = s.link := rfl
@[simp] theorem setVisit_time (n : Nat) (v : VisitRec) (s : State) : (setVisit n v s).time = s.time := rfl
@[simp] theorem setVisit_resets (n : Nat) (v : VisitRec) (s : State) : (setVisit n v s).resets = s.resets := rfl
@[simp] theorem setVisit_sent (n : Nat) (v : VisitRec) (s : State) : (setVisit n v s).sent = s.sent := rfl
@[simp] theorem setVisit_pending (n : Nat) (v : VisitRec) (s : State) : (setVisit n v s).pending = s.pending := rfl

/-! setAttention -/

@[simp] theorem setAttention_bins (n : Nat) (s : State) : (setAttention n s).bins = s.bins := rfl
@[simp] theorem setAttention_slots (n : Nat) (s : State) : (setAttention n s).slots = s.slots := rfl
@[simp] theorem setAttention_visits (n : Nat) (s : State) : (setAttention n s).visits = s.visits := rfl
@[simp] theorem setAttention_withdrawals (n : Nat) (s : State) : (setAttention n s).withdrawals = s.withdrawals := rfl
@[simp] theorem setAttention_recordCount (n : Nat) (s : State) : (setAttention n s).recordCount = s.recordCount := rfl
@[simp] theorem setAttention_pendingLends (n : Nat) (s : State) : (setAttention n s).pendingLends = s.pendingLends := rfl
@[simp] theorem setAttention_protection (n : Nat) (s : State) : (setAttention n s).protection = s.protection := rfl
@[simp] theorem setAttention_day (n : Nat) (s : State) : (setAttention n s).day = s.day := rfl
@[simp] theorem setAttention_mode (n : Nat) (s : State) : (setAttention n s).mode = s.mode := rfl
@[simp] theorem setAttention_params (n : Nat) (s : State) : (setAttention n s).params = s.params := rfl
@[simp] theorem setAttention_forkMarks (n : Nat) (s : State) : (setAttention n s).forkMarks = s.forkMarks := rfl
@[simp] theorem setAttention_crossingMarks (n : Nat) (s : State) : (setAttention n s).crossingMarks = s.crossingMarks := rfl
@[simp] theorem setAttention_aisles (n : Nat) (s : State) : (setAttention n s).aisles = s.aisles := rfl
@[simp] theorem setAttention_cranes (n : Nat) (s : State) : (setAttention n s).cranes = s.cranes := rfl
@[simp] theorem setAttention_stations (n : Nat) (s : State) : (setAttention n s).stations = s.stations := rfl
@[simp] theorem setAttention_zones (n : Nat) (s : State) : (setAttention n s).zones = s.zones := rfl
@[simp] theorem setAttention_inputs (n : Nat) (s : State) : (setAttention n s).inputs = s.inputs := rfl
@[simp] theorem setAttention_chanQ (n : Nat) (s : State) : (setAttention n s).chanQ = s.chanQ := rfl
@[simp] theorem setAttention_chanP (n : Nat) (s : State) : (setAttention n s).chanP = s.chanP := rfl
@[simp] theorem setAttention_search (n : Nat) (s : State) : (setAttention n s).search = s.search := rfl
@[simp] theorem setAttention_time (n : Nat) (s : State) : (setAttention n s).time = s.time := rfl
@[simp] theorem setAttention_resets (n : Nat) (s : State) : (setAttention n s).resets = s.resets := rfl
@[simp] theorem setAttention_sent (n : Nat) (s : State) : (setAttention n s).sent = s.sent := rfl
@[simp] theorem setAttention_pending (n : Nat) (s : State) : (setAttention n s).pending = s.pending := rfl

/-! sendDrive -/

@[simp] theorem sendDrive_bins (a : Aisle) (m : DriveMsg) (s : State) : (sendDrive a m s).bins = s.bins := rfl
@[simp] theorem sendDrive_slots (a : Aisle) (m : DriveMsg) (s : State) : (sendDrive a m s).slots = s.slots := rfl
@[simp] theorem sendDrive_visits (a : Aisle) (m : DriveMsg) (s : State) : (sendDrive a m s).visits = s.visits := rfl
@[simp] theorem sendDrive_withdrawals (a : Aisle) (m : DriveMsg) (s : State) : (sendDrive a m s).withdrawals = s.withdrawals := rfl
@[simp] theorem sendDrive_recordCount (a : Aisle) (m : DriveMsg) (s : State) : (sendDrive a m s).recordCount = s.recordCount := rfl
@[simp] theorem sendDrive_pendingLends (a : Aisle) (m : DriveMsg) (s : State) : (sendDrive a m s).pendingLends = s.pendingLends := rfl
@[simp] theorem sendDrive_protection (a : Aisle) (m : DriveMsg) (s : State) : (sendDrive a m s).protection = s.protection := rfl
@[simp] theorem sendDrive_day (a : Aisle) (m : DriveMsg) (s : State) : (sendDrive a m s).day = s.day := rfl
@[simp] theorem sendDrive_mode (a : Aisle) (m : DriveMsg) (s : State) : (sendDrive a m s).mode = s.mode := rfl
@[simp] theorem sendDrive_params (a : Aisle) (m : DriveMsg) (s : State) : (sendDrive a m s).params = s.params := rfl
@[simp] theorem sendDrive_forkMarks (a : Aisle) (m : DriveMsg) (s : State) : (sendDrive a m s).forkMarks = s.forkMarks := rfl
@[simp] theorem sendDrive_crossingMarks (a : Aisle) (m : DriveMsg) (s : State) : (sendDrive a m s).crossingMarks = s.crossingMarks := rfl
@[simp] theorem sendDrive_aisles (a : Aisle) (m : DriveMsg) (s : State) : (sendDrive a m s).aisles = s.aisles := rfl
@[simp] theorem sendDrive_cranes (a : Aisle) (m : DriveMsg) (s : State) : (sendDrive a m s).cranes = s.cranes := rfl
@[simp] theorem sendDrive_stations (a : Aisle) (m : DriveMsg) (s : State) : (sendDrive a m s).stations = s.stations := rfl
@[simp] theorem sendDrive_zones (a : Aisle) (m : DriveMsg) (s : State) : (sendDrive a m s).zones = s.zones := rfl
@[simp] theorem sendDrive_inputs (a : Aisle) (m : DriveMsg) (s : State) : (sendDrive a m s).inputs = s.inputs := rfl
@[simp] theorem sendDrive_chanQ (a : Aisle) (m : DriveMsg) (s : State) : (sendDrive a m s).chanQ = s.chanQ := rfl
@[simp] theorem sendDrive_chanP (a : Aisle) (m : DriveMsg) (s : State) : (sendDrive a m s).chanP = s.chanP := rfl
@[simp] theorem sendDrive_search (a : Aisle) (m : DriveMsg) (s : State) : (sendDrive a m s).search = s.search := rfl
@[simp] theorem sendDrive_link (a : Aisle) (m : DriveMsg) (s : State) : (sendDrive a m s).link = s.link := rfl
@[simp] theorem sendDrive_time (a : Aisle) (m : DriveMsg) (s : State) : (sendDrive a m s).time = s.time := rfl
@[simp] theorem sendDrive_resets (a : Aisle) (m : DriveMsg) (s : State) : (sendDrive a m s).resets = s.resets := rfl
@[simp] theorem sendDrive_pending (a : Aisle) (m : DriveMsg) (s : State) : (sendDrive a m s).pending = s.pending := rfl

/-! addHoldWhere -/

@[simp] theorem addHoldWhere_bins (r : HoldReason) (p : Nat → VisitRec → Bool) (s : State) : (addHoldWhere r p s).bins = s.bins := rfl
@[simp] theorem addHoldWhere_slots (r : HoldReason) (p : Nat → VisitRec → Bool) (s : State) : (addHoldWhere r p s).slots = s.slots := rfl
@[simp] theorem addHoldWhere_withdrawals (r : HoldReason) (p : Nat → VisitRec → Bool) (s : State) : (addHoldWhere r p s).withdrawals = s.withdrawals := rfl
@[simp] theorem addHoldWhere_recordCount (r : HoldReason) (p : Nat → VisitRec → Bool) (s : State) : (addHoldWhere r p s).recordCount = s.recordCount := rfl
@[simp] theorem addHoldWhere_pendingLends (r : HoldReason) (p : Nat → VisitRec → Bool) (s : State) : (addHoldWhere r p s).pendingLends = s.pendingLends := rfl
@[simp] theorem addHoldWhere_protection (r : HoldReason) (p : Nat → VisitRec → Bool) (s : State) : (addHoldWhere r p s).protection = s.protection := rfl
@[simp] theorem addHoldWhere_day (r : HoldReason) (p : Nat → VisitRec → Bool) (s : State) : (addHoldWhere r p s).day = s.day := rfl
@[simp] theorem addHoldWhere_mode (r : HoldReason) (p : Nat → VisitRec → Bool) (s : State) : (addHoldWhere r p s).mode = s.mode := rfl
@[simp] theorem addHoldWhere_params (r : HoldReason) (p : Nat → VisitRec → Bool) (s : State) : (addHoldWhere r p s).params = s.params := rfl
@[simp] theorem addHoldWhere_forkMarks (r : HoldReason) (p : Nat → VisitRec → Bool) (s : State) : (addHoldWhere r p s).forkMarks = s.forkMarks := rfl
@[simp] theorem addHoldWhere_crossingMarks (r : HoldReason) (p : Nat → VisitRec → Bool) (s : State) : (addHoldWhere r p s).crossingMarks = s.crossingMarks := rfl
@[simp] theorem addHoldWhere_aisles (r : HoldReason) (p : Nat → VisitRec → Bool) (s : State) : (addHoldWhere r p s).aisles = s.aisles := rfl
@[simp] theorem addHoldWhere_cranes (r : HoldReason) (p : Nat → VisitRec → Bool) (s : State) : (addHoldWhere r p s).cranes = s.cranes := rfl
@[simp] theorem addHoldWhere_stations (r : HoldReason) (p : Nat → VisitRec → Bool) (s : State) : (addHoldWhere r p s).stations = s.stations := rfl
@[simp] theorem addHoldWhere_zones (r : HoldReason) (p : Nat → VisitRec → Bool) (s : State) : (addHoldWhere r p s).zones = s.zones := rfl
@[simp] theorem addHoldWhere_inputs (r : HoldReason) (p : Nat → VisitRec → Bool) (s : State) : (addHoldWhere r p s).inputs = s.inputs := rfl
@[simp] theorem addHoldWhere_chanQ (r : HoldReason) (p : Nat → VisitRec → Bool) (s : State) : (addHoldWhere r p s).chanQ = s.chanQ := rfl
@[simp] theorem addHoldWhere_chanP (r : HoldReason) (p : Nat → VisitRec → Bool) (s : State) : (addHoldWhere r p s).chanP = s.chanP := rfl
@[simp] theorem addHoldWhere_search (r : HoldReason) (p : Nat → VisitRec → Bool) (s : State) : (addHoldWhere r p s).search = s.search := rfl
@[simp] theorem addHoldWhere_link (r : HoldReason) (p : Nat → VisitRec → Bool) (s : State) : (addHoldWhere r p s).link = s.link := rfl
@[simp] theorem addHoldWhere_time (r : HoldReason) (p : Nat → VisitRec → Bool) (s : State) : (addHoldWhere r p s).time = s.time := rfl
@[simp] theorem addHoldWhere_resets (r : HoldReason) (p : Nat → VisitRec → Bool) (s : State) : (addHoldWhere r p s).resets = s.resets := rfl
@[simp] theorem addHoldWhere_sent (r : HoldReason) (p : Nat → VisitRec → Bool) (s : State) : (addHoldWhere r p s).sent = s.sent := rfl
@[simp] theorem addHoldWhere_pending (r : HoldReason) (p : Nat → VisitRec → Bool) (s : State) : (addHoldWhere r p s).pending = s.pending := rfl

/-! addHold -/

@[simp] theorem addHold_bins (r : HoldReason) (n : Nat) (s : State) : (addHold r n s).bins = s.bins := rfl
@[simp] theorem addHold_slots (r : HoldReason) (n : Nat) (s : State) : (addHold r n s).slots = s.slots := rfl
@[simp] theorem addHold_withdrawals (r : HoldReason) (n : Nat) (s : State) : (addHold r n s).withdrawals = s.withdrawals := rfl
@[simp] theorem addHold_recordCount (r : HoldReason) (n : Nat) (s : State) : (addHold r n s).recordCount = s.recordCount := rfl
@[simp] theorem addHold_pendingLends (r : HoldReason) (n : Nat) (s : State) : (addHold r n s).pendingLends = s.pendingLends := rfl
@[simp] theorem addHold_protection (r : HoldReason) (n : Nat) (s : State) : (addHold r n s).protection = s.protection := rfl
@[simp] theorem addHold_day (r : HoldReason) (n : Nat) (s : State) : (addHold r n s).day = s.day := rfl
@[simp] theorem addHold_mode (r : HoldReason) (n : Nat) (s : State) : (addHold r n s).mode = s.mode := rfl
@[simp] theorem addHold_params (r : HoldReason) (n : Nat) (s : State) : (addHold r n s).params = s.params := rfl
@[simp] theorem addHold_forkMarks (r : HoldReason) (n : Nat) (s : State) : (addHold r n s).forkMarks = s.forkMarks := rfl
@[simp] theorem addHold_crossingMarks (r : HoldReason) (n : Nat) (s : State) : (addHold r n s).crossingMarks = s.crossingMarks := rfl
@[simp] theorem addHold_aisles (r : HoldReason) (n : Nat) (s : State) : (addHold r n s).aisles = s.aisles := rfl
@[simp] theorem addHold_cranes (r : HoldReason) (n : Nat) (s : State) : (addHold r n s).cranes = s.cranes := rfl
@[simp] theorem addHold_stations (r : HoldReason) (n : Nat) (s : State) : (addHold r n s).stations = s.stations := rfl
@[simp] theorem addHold_zones (r : HoldReason) (n : Nat) (s : State) : (addHold r n s).zones = s.zones := rfl
@[simp] theorem addHold_inputs (r : HoldReason) (n : Nat) (s : State) : (addHold r n s).inputs = s.inputs := rfl
@[simp] theorem addHold_chanQ (r : HoldReason) (n : Nat) (s : State) : (addHold r n s).chanQ = s.chanQ := rfl
@[simp] theorem addHold_chanP (r : HoldReason) (n : Nat) (s : State) : (addHold r n s).chanP = s.chanP := rfl
@[simp] theorem addHold_search (r : HoldReason) (n : Nat) (s : State) : (addHold r n s).search = s.search := rfl
@[simp] theorem addHold_link (r : HoldReason) (n : Nat) (s : State) : (addHold r n s).link = s.link := rfl
@[simp] theorem addHold_time (r : HoldReason) (n : Nat) (s : State) : (addHold r n s).time = s.time := rfl
@[simp] theorem addHold_resets (r : HoldReason) (n : Nat) (s : State) : (addHold r n s).resets = s.resets := rfl
@[simp] theorem addHold_sent (r : HoldReason) (n : Nat) (s : State) : (addHold r n s).sent = s.sent := rfl
@[simp] theorem addHold_pending (r : HoldReason) (n : Nat) (s : State) : (addHold r n s).pending = s.pending := rfl

/-! liftHoldWhere -/

@[simp] theorem liftHoldWhere_bins (r : HoldReason) (p : Nat → VisitRec → Bool) (s : State) : (liftHoldWhere r p s).bins = s.bins := rfl
@[simp] theorem liftHoldWhere_slots (r : HoldReason) (p : Nat → VisitRec → Bool) (s : State) : (liftHoldWhere r p s).slots = s.slots := rfl
@[simp] theorem liftHoldWhere_withdrawals (r : HoldReason) (p : Nat → VisitRec → Bool) (s : State) : (liftHoldWhere r p s).withdrawals = s.withdrawals := rfl
@[simp] theorem liftHoldWhere_recordCount (r : HoldReason) (p : Nat → VisitRec → Bool) (s : State) : (liftHoldWhere r p s).recordCount = s.recordCount := rfl
@[simp] theorem liftHoldWhere_pendingLends (r : HoldReason) (p : Nat → VisitRec → Bool) (s : State) : (liftHoldWhere r p s).pendingLends = s.pendingLends := rfl
@[simp] theorem liftHoldWhere_protection (r : HoldReason) (p : Nat → VisitRec → Bool) (s : State) : (liftHoldWhere r p s).protection = s.protection := rfl
@[simp] theorem liftHoldWhere_day (r : HoldReason) (p : Nat → VisitRec → Bool) (s : State) : (liftHoldWhere r p s).day = s.day := rfl
@[simp] theorem liftHoldWhere_mode (r : HoldReason) (p : Nat → VisitRec → Bool) (s : State) : (liftHoldWhere r p s).mode = s.mode := rfl
@[simp] theorem liftHoldWhere_params (r : HoldReason) (p : Nat → VisitRec → Bool) (s : State) : (liftHoldWhere r p s).params = s.params := rfl
@[simp] theorem liftHoldWhere_forkMarks (r : HoldReason) (p : Nat → VisitRec → Bool) (s : State) : (liftHoldWhere r p s).forkMarks = s.forkMarks := rfl
@[simp] theorem liftHoldWhere_crossingMarks (r : HoldReason) (p : Nat → VisitRec → Bool) (s : State) : (liftHoldWhere r p s).crossingMarks = s.crossingMarks := rfl
@[simp] theorem liftHoldWhere_aisles (r : HoldReason) (p : Nat → VisitRec → Bool) (s : State) : (liftHoldWhere r p s).aisles = s.aisles := rfl
@[simp] theorem liftHoldWhere_cranes (r : HoldReason) (p : Nat → VisitRec → Bool) (s : State) : (liftHoldWhere r p s).cranes = s.cranes := rfl
@[simp] theorem liftHoldWhere_stations (r : HoldReason) (p : Nat → VisitRec → Bool) (s : State) : (liftHoldWhere r p s).stations = s.stations := rfl
@[simp] theorem liftHoldWhere_zones (r : HoldReason) (p : Nat → VisitRec → Bool) (s : State) : (liftHoldWhere r p s).zones = s.zones := rfl
@[simp] theorem liftHoldWhere_inputs (r : HoldReason) (p : Nat → VisitRec → Bool) (s : State) : (liftHoldWhere r p s).inputs = s.inputs := rfl
@[simp] theorem liftHoldWhere_chanQ (r : HoldReason) (p : Nat → VisitRec → Bool) (s : State) : (liftHoldWhere r p s).chanQ = s.chanQ := rfl
@[simp] theorem liftHoldWhere_chanP (r : HoldReason) (p : Nat → VisitRec → Bool) (s : State) : (liftHoldWhere r p s).chanP = s.chanP := rfl
@[simp] theorem liftHoldWhere_search (r : HoldReason) (p : Nat → VisitRec → Bool) (s : State) : (liftHoldWhere r p s).search = s.search := rfl
@[simp] theorem liftHoldWhere_link (r : HoldReason) (p : Nat → VisitRec → Bool) (s : State) : (liftHoldWhere r p s).link = s.link := rfl
@[simp] theorem liftHoldWhere_time (r : HoldReason) (p : Nat → VisitRec → Bool) (s : State) : (liftHoldWhere r p s).time = s.time := rfl
@[simp] theorem liftHoldWhere_resets (r : HoldReason) (p : Nat → VisitRec → Bool) (s : State) : (liftHoldWhere r p s).resets = s.resets := rfl
@[simp] theorem liftHoldWhere_sent (r : HoldReason) (p : Nat → VisitRec → Bool) (s : State) : (liftHoldWhere r p s).sent = s.sent := rfl
@[simp] theorem liftHoldWhere_pending (r : HoldReason) (p : Nat → VisitRec → Bool) (s : State) : (liftHoldWhere r p s).pending = s.pending := rfl

/-! loadCommand -/

@[simp] theorem loadCommand_bins (m : List Byte) (s : State) : (loadCommand m s).bins = s.bins := rfl
@[simp] theorem loadCommand_slots (m : List Byte) (s : State) : (loadCommand m s).slots = s.slots := rfl
@[simp] theorem loadCommand_visits (m : List Byte) (s : State) : (loadCommand m s).visits = s.visits := rfl
@[simp] theorem loadCommand_withdrawals (m : List Byte) (s : State) : (loadCommand m s).withdrawals = s.withdrawals := rfl
@[simp] theorem loadCommand_recordCount (m : List Byte) (s : State) : (loadCommand m s).recordCount = s.recordCount := rfl
@[simp] theorem loadCommand_pendingLends (m : List Byte) (s : State) : (loadCommand m s).pendingLends = s.pendingLends := rfl
@[simp] theorem loadCommand_protection (m : List Byte) (s : State) : (loadCommand m s).protection = s.protection := rfl
@[simp] theorem loadCommand_day (m : List Byte) (s : State) : (loadCommand m s).day = s.day := rfl
@[simp] theorem loadCommand_mode (m : List Byte) (s : State) : (loadCommand m s).mode = s.mode := rfl
@[simp] theorem loadCommand_params (m : List Byte) (s : State) : (loadCommand m s).params = s.params := rfl
@[simp] theorem loadCommand_forkMarks (m : List Byte) (s : State) : (loadCommand m s).forkMarks = s.forkMarks := rfl
@[simp] theorem loadCommand_crossingMarks (m : List Byte) (s : State) : (loadCommand m s).crossingMarks = s.crossingMarks := rfl
@[simp] theorem loadCommand_aisles (m : List Byte) (s : State) : (loadCommand m s).aisles = s.aisles := rfl
@[simp] theorem loadCommand_cranes (m : List Byte) (s : State) : (loadCommand m s).cranes = s.cranes := rfl
@[simp] theorem loadCommand_stations (m : List Byte) (s : State) : (loadCommand m s).stations = s.stations := rfl
@[simp] theorem loadCommand_zones (m : List Byte) (s : State) : (loadCommand m s).zones = s.zones := rfl
@[simp] theorem loadCommand_inputs (m : List Byte) (s : State) : (loadCommand m s).inputs = s.inputs := rfl
@[simp] theorem loadCommand_chanQ (m : List Byte) (s : State) : (loadCommand m s).chanQ = s.chanQ := rfl
@[simp] theorem loadCommand_chanP (m : List Byte) (s : State) : (loadCommand m s).chanP = s.chanP := rfl
@[simp] theorem loadCommand_search (m : List Byte) (s : State) : (loadCommand m s).search = s.search := rfl
@[simp] theorem loadCommand_time (m : List Byte) (s : State) : (loadCommand m s).time = s.time := rfl
@[simp] theorem loadCommand_resets (m : List Byte) (s : State) : (loadCommand m s).resets = s.resets := rfl
@[simp] theorem loadCommand_sent (m : List Byte) (s : State) : (loadCommand m s).sent = s.sent := rfl
@[simp] theorem loadCommand_pending (m : List Byte) (s : State) : (loadCommand m s).pending = s.pending := rfl

/-! writeReply -/

@[simp] theorem writeReply_bins (code : OutcomeCode) (data : List Byte) (s : State) : (writeReply code data s).bins = s.bins := rfl
@[simp] theorem writeReply_slots (code : OutcomeCode) (data : List Byte) (s : State) : (writeReply code data s).slots = s.slots := rfl
@[simp] theorem writeReply_visits (code : OutcomeCode) (data : List Byte) (s : State) : (writeReply code data s).visits = s.visits := rfl
@[simp] theorem writeReply_withdrawals (code : OutcomeCode) (data : List Byte) (s : State) : (writeReply code data s).withdrawals = s.withdrawals := rfl
@[simp] theorem writeReply_recordCount (code : OutcomeCode) (data : List Byte) (s : State) : (writeReply code data s).recordCount = s.recordCount := rfl
@[simp] theorem writeReply_pendingLends (code : OutcomeCode) (data : List Byte) (s : State) : (writeReply code data s).pendingLends = s.pendingLends := rfl
@[simp] theorem writeReply_protection (code : OutcomeCode) (data : List Byte) (s : State) : (writeReply code data s).protection = s.protection := rfl
@[simp] theorem writeReply_day (code : OutcomeCode) (data : List Byte) (s : State) : (writeReply code data s).day = s.day := rfl
@[simp] theorem writeReply_mode (code : OutcomeCode) (data : List Byte) (s : State) : (writeReply code data s).mode = s.mode := rfl
@[simp] theorem writeReply_params (code : OutcomeCode) (data : List Byte) (s : State) : (writeReply code data s).params = s.params := rfl
@[simp] theorem writeReply_forkMarks (code : OutcomeCode) (data : List Byte) (s : State) : (writeReply code data s).forkMarks = s.forkMarks := rfl
@[simp] theorem writeReply_crossingMarks (code : OutcomeCode) (data : List Byte) (s : State) : (writeReply code data s).crossingMarks = s.crossingMarks := rfl
@[simp] theorem writeReply_aisles (code : OutcomeCode) (data : List Byte) (s : State) : (writeReply code data s).aisles = s.aisles := rfl
@[simp] theorem writeReply_cranes (code : OutcomeCode) (data : List Byte) (s : State) : (writeReply code data s).cranes = s.cranes := rfl
@[simp] theorem writeReply_stations (code : OutcomeCode) (data : List Byte) (s : State) : (writeReply code data s).stations = s.stations := rfl
@[simp] theorem writeReply_zones (code : OutcomeCode) (data : List Byte) (s : State) : (writeReply code data s).zones = s.zones := rfl
@[simp] theorem writeReply_inputs (code : OutcomeCode) (data : List Byte) (s : State) : (writeReply code data s).inputs = s.inputs := rfl
@[simp] theorem writeReply_chanQ (code : OutcomeCode) (data : List Byte) (s : State) : (writeReply code data s).chanQ = s.chanQ := rfl
@[simp] theorem writeReply_chanP (code : OutcomeCode) (data : List Byte) (s : State) : (writeReply code data s).chanP = s.chanP := rfl
@[simp] theorem writeReply_search (code : OutcomeCode) (data : List Byte) (s : State) : (writeReply code data s).search = s.search := rfl
@[simp] theorem writeReply_time (code : OutcomeCode) (data : List Byte) (s : State) : (writeReply code data s).time = s.time := rfl
@[simp] theorem writeReply_resets (code : OutcomeCode) (data : List Byte) (s : State) : (writeReply code data s).resets = s.resets := rfl
@[simp] theorem writeReply_sent (code : OutcomeCode) (data : List Byte) (s : State) : (writeReply code data s).sent = s.sent := rfl
@[simp] theorem writeReply_pending (code : OutcomeCode) (data : List Byte) (s : State) : (writeReply code data s).pending = s.pending := rfl

/-! setLate -/

@[simp] theorem setLate_bins (s : State) : (setLate s).bins = s.bins := rfl
@[simp] theorem setLate_slots (s : State) : (setLate s).slots = s.slots := rfl
@[simp] theorem setLate_visits (s : State) : (setLate s).visits = s.visits := rfl
@[simp] theorem setLate_withdrawals (s : State) : (setLate s).withdrawals = s.withdrawals := rfl
@[simp] theorem setLate_recordCount (s : State) : (setLate s).recordCount = s.recordCount := rfl
@[simp] theorem setLate_pendingLends (s : State) : (setLate s).pendingLends = s.pendingLends := rfl
@[simp] theorem setLate_protection (s : State) : (setLate s).protection = s.protection := rfl
@[simp] theorem setLate_day (s : State) : (setLate s).day = s.day := rfl
@[simp] theorem setLate_mode (s : State) : (setLate s).mode = s.mode := rfl
@[simp] theorem setLate_params (s : State) : (setLate s).params = s.params := rfl
@[simp] theorem setLate_forkMarks (s : State) : (setLate s).forkMarks = s.forkMarks := rfl
@[simp] theorem setLate_crossingMarks (s : State) : (setLate s).crossingMarks = s.crossingMarks := rfl
@[simp] theorem setLate_aisles (s : State) : (setLate s).aisles = s.aisles := rfl
@[simp] theorem setLate_cranes (s : State) : (setLate s).cranes = s.cranes := rfl
@[simp] theorem setLate_stations (s : State) : (setLate s).stations = s.stations := rfl
@[simp] theorem setLate_zones (s : State) : (setLate s).zones = s.zones := rfl
@[simp] theorem setLate_inputs (s : State) : (setLate s).inputs = s.inputs := rfl
@[simp] theorem setLate_chanQ (s : State) : (setLate s).chanQ = s.chanQ := rfl
@[simp] theorem setLate_chanP (s : State) : (setLate s).chanP = s.chanP := rfl
@[simp] theorem setLate_search (s : State) : (setLate s).search = s.search := rfl
@[simp] theorem setLate_time (s : State) : (setLate s).time = s.time := rfl
@[simp] theorem setLate_resets (s : State) : (setLate s).resets = s.resets := rfl
@[simp] theorem setLate_sent (s : State) : (setLate s).sent = s.sent := rfl
@[simp] theorem setLate_pending (s : State) : (setLate s).pending = s.pending := rfl

@[simp] theorem crane_setCrane (a : Aisle) (x : CraneRec) (s : State) : crane (setCrane a x s) a = x := by
  simp [crane, setCrane, Vector.get_eq_getElem]

theorem crane_setCrane_ne {a y : Aisle} (h : y ≠ a) (x : CraneRec) (s : State) :
    crane (setCrane a x s) y = crane s y := by
  have h' : a.val ≠ y.val := fun e => h (Fin.ext e.symm)
  simp [crane, setCrane, Vector.get_eq_getElem, h']

@[simp] theorem station_setStation (z : Station) (x : StationRec) (s : State) : station (setStation z x s) z = x := by
  simp [station, setStation, Vector.get_eq_getElem]

theorem station_setStation_ne {z y : Station} (h : y ≠ z) (x : StationRec) (s : State) :
    station (setStation z x s) y = station s y := by
  have h' : z.val ≠ y.val := fun e => h (Fin.ext e.symm)
  simp [station, setStation, Vector.get_eq_getElem, h']

@[simp] theorem zone_setZone (z : Station) (x : ZoneRec) (s : State) : zone (setZone z x s) z = x := by
  simp [zone, setZone, Vector.get_eq_getElem]

theorem zone_setZone_ne {z y : Station} (h : y ≠ z) (x : ZoneRec) (s : State) :
    zone (setZone z x s) y = zone s y := by
  have h' : z.val ≠ y.val := fun e => h (Fin.ext e.symm)
  simp [zone, setZone, Vector.get_eq_getElem, h']

@[simp] theorem aisleRec_setAisle (a : Aisle) (x : AisleRec) (s : State) : aisleRec (setAisle a x s) a = x := by
  simp [aisleRec, setAisle, Vector.get_eq_getElem]

theorem aisleRec_setAisle_ne {a y : Aisle} (h : y ≠ a) (x : AisleRec) (s : State) :
    aisleRec (setAisle a x s) y = aisleRec s y := by
  have h' : a.val ≠ y.val := fun e => h (Fin.ext e.symm)
  simp [aisleRec, setAisle, Vector.get_eq_getElem, h']

@[simp] theorem conditioner_setConditioner (i : FireInput) (x : Conditioner) (s : State) : conditioner (setConditioner i x s) i = x := by
  simp [conditioner, setConditioner, Vector.get_eq_getElem]

theorem conditioner_setConditioner_ne {i y : FireInput} (h : y ≠ i) (x : Conditioner) (s : State) :
    conditioner (setConditioner i x s) y = conditioner s y := by
  have h' : i.val ≠ y.val := fun e => h (Fin.ext e.symm)
  simp [conditioner, setConditioner, Vector.get_eq_getElem, h']

@[simp] theorem forkMark_setForkMark (a : Aisle) (x : Option Nat) (s : State) : forkMark (setForkMark a x s) a = x := by
  simp [forkMark, setForkMark, Vector.get_eq_getElem]

theorem forkMark_setForkMark_ne {a y : Aisle} (h : y ≠ a) (x : Option Nat) (s : State) :
    forkMark (setForkMark a x s) y = forkMark s y := by
  have h' : a.val ≠ y.val := fun e => h (Fin.ext e.symm)
  simp [forkMark, setForkMark, Vector.get_eq_getElem, h']

@[simp] theorem crossingMark_setCrossingMark (z : Station) (x : Option Nat) (s : State) : crossingMark (setCrossingMark z x s) z = x := by
  simp [crossingMark, setCrossingMark, Vector.get_eq_getElem]

theorem crossingMark_setCrossingMark_ne {z y : Station} (h : y ≠ z) (x : Option Nat) (s : State) :
    crossingMark (setCrossingMark z x s) y = crossingMark s y := by
  have h' : z.val ≠ y.val := fun e => h (Fin.ext e.symm)
  simp [crossingMark, setCrossingMark, Vector.get_eq_getElem, h']

theorem bin_setBin (b m : Nat) (r : BinRec) (s : State) : bin (setBin b r s) m = if m = b then some r else bin s m :=
  tableGet_put _ _ _ _

theorem bin_freeBin (b m : Nat) (s : State) : bin (freeBin b s) m = if m = b then none else bin s m := tableGet_erase _ _ _

theorem visit_setVisit (n m : Nat) (v : VisitRec) (s : State) :
    visit (setVisit n v s) m = if m = n then some v else visit s m :=
  tableGet_put _ _ _ _

theorem bin_modBin (b m : Nat) (f : BinRec → BinRec) (s : State) :
    bin (modBin b f s) m = if m = b then (bin s b).map f else bin s m := by
  unfold modBin
  split
  · rename_i r h
    rw [bin_setBin]
    simp [h]
  · rename_i h
    split
    · rename_i e
      simp [e, h]
    · rfl

theorem visit_modVisit (n m : Nat) (f : VisitRec → VisitRec) (s : State) :
    visit (modVisit n f s) m = if m = n then (visit s n).map f else visit s m := by
  unfold modVisit
  split
  · rename_i v h
    rw [visit_setVisit]
    simp [h]
  · rename_i h
    split
    · rename_i e
      simp [e, h]
    · rfl

/-! modBin -/

@[simp] theorem modBin_slots (b : Nat) (f : BinRec → BinRec) (s : State) : (modBin b f s).slots = s.slots := by
  simp only [modBin]; split <;> rfl
@[simp] theorem modBin_visits (b : Nat) (f : BinRec → BinRec) (s : State) : (modBin b f s).visits = s.visits := by
  simp only [modBin]; split <;> rfl
@[simp] theorem modBin_withdrawals (b : Nat) (f : BinRec → BinRec) (s : State) : (modBin b f s).withdrawals = s.withdrawals := by
  simp only [modBin]; split <;> rfl
@[simp] theorem modBin_recordCount (b : Nat) (f : BinRec → BinRec) (s : State) : (modBin b f s).recordCount = s.recordCount := by
  simp only [modBin]; split <;> rfl
@[simp] theorem modBin_pendingLends (b : Nat) (f : BinRec → BinRec) (s : State) : (modBin b f s).pendingLends = s.pendingLends := by
  simp only [modBin]; split <;> rfl
@[simp] theorem modBin_protection (b : Nat) (f : BinRec → BinRec) (s : State) : (modBin b f s).protection = s.protection := by
  simp only [modBin]; split <;> rfl
@[simp] theorem modBin_day (b : Nat) (f : BinRec → BinRec) (s : State) : (modBin b f s).day = s.day := by
  simp only [modBin]; split <;> rfl
@[simp] theorem modBin_mode (b : Nat) (f : BinRec → BinRec) (s : State) : (modBin b f s).mode = s.mode := by
  simp only [modBin]; split <;> rfl
@[simp] theorem modBin_params (b : Nat) (f : BinRec → BinRec) (s : State) : (modBin b f s).params = s.params := by
  simp only [modBin]; split <;> rfl
@[simp] theorem modBin_forkMarks (b : Nat) (f : BinRec → BinRec) (s : State) : (modBin b f s).forkMarks = s.forkMarks := by
  simp only [modBin]; split <;> rfl
@[simp] theorem modBin_crossingMarks (b : Nat) (f : BinRec → BinRec) (s : State) : (modBin b f s).crossingMarks = s.crossingMarks := by
  simp only [modBin]; split <;> rfl
@[simp] theorem modBin_aisles (b : Nat) (f : BinRec → BinRec) (s : State) : (modBin b f s).aisles = s.aisles := by
  simp only [modBin]; split <;> rfl
@[simp] theorem modBin_cranes (b : Nat) (f : BinRec → BinRec) (s : State) : (modBin b f s).cranes = s.cranes := by
  simp only [modBin]; split <;> rfl
@[simp] theorem modBin_stations (b : Nat) (f : BinRec → BinRec) (s : State) : (modBin b f s).stations = s.stations := by
  simp only [modBin]; split <;> rfl
@[simp] theorem modBin_zones (b : Nat) (f : BinRec → BinRec) (s : State) : (modBin b f s).zones = s.zones := by
  simp only [modBin]; split <;> rfl
@[simp] theorem modBin_inputs (b : Nat) (f : BinRec → BinRec) (s : State) : (modBin b f s).inputs = s.inputs := by
  simp only [modBin]; split <;> rfl
@[simp] theorem modBin_chanQ (b : Nat) (f : BinRec → BinRec) (s : State) : (modBin b f s).chanQ = s.chanQ := by
  simp only [modBin]; split <;> rfl
@[simp] theorem modBin_chanP (b : Nat) (f : BinRec → BinRec) (s : State) : (modBin b f s).chanP = s.chanP := by
  simp only [modBin]; split <;> rfl
@[simp] theorem modBin_search (b : Nat) (f : BinRec → BinRec) (s : State) : (modBin b f s).search = s.search := by
  simp only [modBin]; split <;> rfl
@[simp] theorem modBin_link (b : Nat) (f : BinRec → BinRec) (s : State) : (modBin b f s).link = s.link := by
  simp only [modBin]; split <;> rfl
@[simp] theorem modBin_time (b : Nat) (f : BinRec → BinRec) (s : State) : (modBin b f s).time = s.time := by
  simp only [modBin]; split <;> rfl
@[simp] theorem modBin_resets (b : Nat) (f : BinRec → BinRec) (s : State) : (modBin b f s).resets = s.resets := by
  simp only [modBin]; split <;> rfl
@[simp] theorem modBin_sent (b : Nat) (f : BinRec → BinRec) (s : State) : (modBin b f s).sent = s.sent := by
  simp only [modBin]; split <;> rfl
@[simp] theorem modBin_pending (b : Nat) (f : BinRec → BinRec) (s : State) : (modBin b f s).pending = s.pending := by
  simp only [modBin]; split <;> rfl

/-! modVisit -/

@[simp] theorem modVisit_bins (n : Nat) (f : VisitRec → VisitRec) (s : State) : (modVisit n f s).bins = s.bins := by
  simp only [modVisit]; split <;> rfl
@[simp] theorem modVisit_slots (n : Nat) (f : VisitRec → VisitRec) (s : State) : (modVisit n f s).slots = s.slots := by
  simp only [modVisit]; split <;> rfl
@[simp] theorem modVisit_withdrawals (n : Nat) (f : VisitRec → VisitRec) (s : State) : (modVisit n f s).withdrawals = s.withdrawals := by
  simp only [modVisit]; split <;> rfl
@[simp] theorem modVisit_recordCount (n : Nat) (f : VisitRec → VisitRec) (s : State) : (modVisit n f s).recordCount = s.recordCount := by
  simp only [modVisit]; split <;> rfl
@[simp] theorem modVisit_pendingLends (n : Nat) (f : VisitRec → VisitRec) (s : State) : (modVisit n f s).pendingLends = s.pendingLends := by
  simp only [modVisit]; split <;> rfl
@[simp] theorem modVisit_protection (n : Nat) (f : VisitRec → VisitRec) (s : State) : (modVisit n f s).protection = s.protection := by
  simp only [modVisit]; split <;> rfl
@[simp] theorem modVisit_day (n : Nat) (f : VisitRec → VisitRec) (s : State) : (modVisit n f s).day = s.day := by
  simp only [modVisit]; split <;> rfl
@[simp] theorem modVisit_mode (n : Nat) (f : VisitRec → VisitRec) (s : State) : (modVisit n f s).mode = s.mode := by
  simp only [modVisit]; split <;> rfl
@[simp] theorem modVisit_params (n : Nat) (f : VisitRec → VisitRec) (s : State) : (modVisit n f s).params = s.params := by
  simp only [modVisit]; split <;> rfl
@[simp] theorem modVisit_forkMarks (n : Nat) (f : VisitRec → VisitRec) (s : State) : (modVisit n f s).forkMarks = s.forkMarks := by
  simp only [modVisit]; split <;> rfl
@[simp] theorem modVisit_crossingMarks (n : Nat) (f : VisitRec → VisitRec) (s : State) : (modVisit n f s).crossingMarks = s.crossingMarks := by
  simp only [modVisit]; split <;> rfl
@[simp] theorem modVisit_aisles (n : Nat) (f : VisitRec → VisitRec) (s : State) : (modVisit n f s).aisles = s.aisles := by
  simp only [modVisit]; split <;> rfl
@[simp] theorem modVisit_cranes (n : Nat) (f : VisitRec → VisitRec) (s : State) : (modVisit n f s).cranes = s.cranes := by
  simp only [modVisit]; split <;> rfl
@[simp] theorem modVisit_stations (n : Nat) (f : VisitRec → VisitRec) (s : State) : (modVisit n f s).stations = s.stations := by
  simp only [modVisit]; split <;> rfl
@[simp] theorem modVisit_zones (n : Nat) (f : VisitRec → VisitRec) (s : State) : (modVisit n f s).zones = s.zones := by
  simp only [modVisit]; split <;> rfl
@[simp] theorem modVisit_inputs (n : Nat) (f : VisitRec → VisitRec) (s : State) : (modVisit n f s).inputs = s.inputs := by
  simp only [modVisit]; split <;> rfl
@[simp] theorem modVisit_chanQ (n : Nat) (f : VisitRec → VisitRec) (s : State) : (modVisit n f s).chanQ = s.chanQ := by
  simp only [modVisit]; split <;> rfl
@[simp] theorem modVisit_chanP (n : Nat) (f : VisitRec → VisitRec) (s : State) : (modVisit n f s).chanP = s.chanP := by
  simp only [modVisit]; split <;> rfl
@[simp] theorem modVisit_search (n : Nat) (f : VisitRec → VisitRec) (s : State) : (modVisit n f s).search = s.search := by
  simp only [modVisit]; split <;> rfl
@[simp] theorem modVisit_link (n : Nat) (f : VisitRec → VisitRec) (s : State) : (modVisit n f s).link = s.link := by
  simp only [modVisit]; split <;> rfl
@[simp] theorem modVisit_time (n : Nat) (f : VisitRec → VisitRec) (s : State) : (modVisit n f s).time = s.time := by
  simp only [modVisit]; split <;> rfl
@[simp] theorem modVisit_resets (n : Nat) (f : VisitRec → VisitRec) (s : State) : (modVisit n f s).resets = s.resets := by
  simp only [modVisit]; split <;> rfl
@[simp] theorem modVisit_sent (n : Nat) (f : VisitRec → VisitRec) (s : State) : (modVisit n f s).sent = s.sent := by
  simp only [modVisit]; split <;> rfl
@[simp] theorem modVisit_pending (n : Nat) (f : VisitRec → VisitRec) (s : State) : (modVisit n f s).pending = s.pending := by
  simp only [modVisit]; split <;> rfl

/-! sendPanel -/

@[simp] theorem sendPanel_bins (z : Station) (m : PanelMsg) (s : State) : (sendPanel z m s).bins = s.bins := rfl
@[simp] theorem sendPanel_slots (z : Station) (m : PanelMsg) (s : State) : (sendPanel z m s).slots = s.slots := rfl
@[simp] theorem sendPanel_visits (z : Station) (m : PanelMsg) (s : State) : (sendPanel z m s).visits = s.visits := rfl
@[simp] theorem sendPanel_withdrawals (z : Station) (m : PanelMsg) (s : State) : (sendPanel z m s).withdrawals = s.withdrawals := rfl
@[simp] theorem sendPanel_recordCount (z : Station) (m : PanelMsg) (s : State) : (sendPanel z m s).recordCount = s.recordCount := rfl
@[simp] theorem sendPanel_pendingLends (z : Station) (m : PanelMsg) (s : State) : (sendPanel z m s).pendingLends = s.pendingLends := rfl
@[simp] theorem sendPanel_protection (z : Station) (m : PanelMsg) (s : State) : (sendPanel z m s).protection = s.protection := rfl
@[simp] theorem sendPanel_day (z : Station) (m : PanelMsg) (s : State) : (sendPanel z m s).day = s.day := rfl
@[simp] theorem sendPanel_mode (z : Station) (m : PanelMsg) (s : State) : (sendPanel z m s).mode = s.mode := rfl
@[simp] theorem sendPanel_params (z : Station) (m : PanelMsg) (s : State) : (sendPanel z m s).params = s.params := rfl
@[simp] theorem sendPanel_forkMarks (z : Station) (m : PanelMsg) (s : State) : (sendPanel z m s).forkMarks = s.forkMarks := rfl
@[simp] theorem sendPanel_crossingMarks (z : Station) (m : PanelMsg) (s : State) : (sendPanel z m s).crossingMarks = s.crossingMarks := rfl
@[simp] theorem sendPanel_aisles (z : Station) (m : PanelMsg) (s : State) : (sendPanel z m s).aisles = s.aisles := rfl
@[simp] theorem sendPanel_cranes (z : Station) (m : PanelMsg) (s : State) : (sendPanel z m s).cranes = s.cranes := rfl
@[simp] theorem sendPanel_stations (z : Station) (m : PanelMsg) (s : State) : (sendPanel z m s).stations = s.stations := rfl
@[simp] theorem sendPanel_zones (z : Station) (m : PanelMsg) (s : State) : (sendPanel z m s).zones = s.zones := rfl
@[simp] theorem sendPanel_inputs (z : Station) (m : PanelMsg) (s : State) : (sendPanel z m s).inputs = s.inputs := rfl
@[simp] theorem sendPanel_chanQ (z : Station) (m : PanelMsg) (s : State) : (sendPanel z m s).chanQ = s.chanQ := rfl
@[simp] theorem sendPanel_chanP (z : Station) (m : PanelMsg) (s : State) : (sendPanel z m s).chanP = s.chanP := rfl
@[simp] theorem sendPanel_search (z : Station) (m : PanelMsg) (s : State) : (sendPanel z m s).search = s.search := rfl
@[simp] theorem sendPanel_link (z : Station) (m : PanelMsg) (s : State) : (sendPanel z m s).link = s.link := rfl
@[simp] theorem sendPanel_time (z : Station) (m : PanelMsg) (s : State) : (sendPanel z m s).time = s.time := rfl
@[simp] theorem sendPanel_resets (z : Station) (m : PanelMsg) (s : State) : (sendPanel z m s).resets = s.resets := rfl
@[simp] theorem sendPanel_pending (z : Station) (m : PanelMsg) (s : State) : (sendPanel z m s).pending = s.pending := rfl

/-! Reads depend on their own field only. -/

theorem crane_congr {s t : State} (h : t.cranes = s.cranes) (x : Aisle) : crane t x = crane s x := by simp [crane, h]

theorem station_congr {s t : State} (h : t.stations = s.stations) (x : Station) : station t x = station s x := by simp [station, h]

theorem zone_congr {s t : State} (h : t.zones = s.zones) (x : Station) : zone t x = zone s x := by simp [zone, h]

theorem aisleRec_congr {s t : State} (h : t.aisles = s.aisles) (x : Aisle) : aisleRec t x = aisleRec s x := by simp [aisleRec, h]

theorem conditioner_congr {s t : State} (h : t.inputs = s.inputs) (x : FireInput) : conditioner t x = conditioner s x := by simp [conditioner, h]

theorem forkMark_congr {s t : State} (h : t.forkMarks = s.forkMarks) (x : Aisle) : forkMark t x = forkMark s x := by simp [forkMark, h]

theorem crossingMark_congr {s t : State} (h : t.crossingMarks = s.crossingMarks) (x : Station) : crossingMark t x = crossingMark s x := by simp [crossingMark, h]

theorem bin_congr {s t : State} (h : t.bins = s.bins) (n : Nat) : bin t n = bin s n := by simp [bin, h]

theorem visit_congr {s t : State} (h : t.visits = s.visits) (n : Nat) : visit t n = visit s n := by simp [visit, h]

theorem param_congr {s t : State} (h : t.params = s.params) (n : Fin 41) : param t n = param s n := by simp [param, h]

end Sys2Proof.Machine
end

