-- ==== Sys2Proof/Laws/Closed.lean ====
section
/-! SUPPORT. The one induction over the shared operations of cranes, stations and zones: a property that the basic updates
keep is kept by every operation built from them. Frames, canonical forms and fields that no event touches are its uses. -/

namespace Sys2Proof.Machine

/-- The property `P` is kept by the basic updates that events of the zones in `Z` are built from. With `k` the records are
changed only in what `BinRec.books` and `VisitRec.books` mask; without it in any way. -/
structure Closed (k : Bool) (Z : Station → Prop) (P : State → Prop) : Prop where
  crane     : ∀ (a : Aisle) (c : CraneRec) (t : State), Z (zoneOf a) → P t → P (setCrane a c t)
  aisle     : ∀ (a : Aisle) (r : AisleRec) (t : State), Z (zoneOf a) → P t → P (setAisle a r t)
  fork      : ∀ (a : Aisle) (m : Option Nat) (t : State), Z (zoneOf a) → P t → P (setForkMark a m t)
  station   : ∀ (z : Station) (r : StationRec) (t : State), Z z → P t → P (setStation z r t)
  zone      : ∀ (z : Station) (r : ZoneRec) (t : State), Z z → P t → P (setZone z r t)
  crossing  : ∀ (z : Station) (m : Option Nat) (t : State), Z z → P t → P (setCrossingMark z m t)
  attention : ∀ (n : Nat) (t : State), P t → P (setAttention n t)
  drive     : ∀ (a : Aisle) (m : DriveMsg) (t : State), P t → P (sendDrive a m t)
  panel     : ∀ (z : Station) (m : PanelMsg) (t : State), P t → P (sendPanel z m t)
  place     : ∀ (b : Nat) (f : BinRec → BinRec) (t : State), (∀ r, (f r).books = r.books) → P t → P (modBin b f t)
  visit     : ∀ (n : Nat) (v w : VisitRec) (t : State), Machine.visit t n = some w → v.books = w.books → P t →
    P (setVisit n v t)
  visits    : ∀ (f : Nat → VisitRec → VisitRec) (t : State), (∀ n v, (f n v).books = v.books) → P t →
    P { t with visits := tableMap f t.visits }
  anyBin    : k = false → ∀ (b : Nat) (f : BinRec → BinRec) (t : State), P t → P (modBin b f t)
  slot      : k = false → ∀ (sl : Slot) (e : SlotEntry) (t : State), P t → P (setSlot sl e t)
  anyVisit  : k = false → ∀ (n : Nat) (v : VisitRec) (t : State), n < Config.visitCount ∨ (Machine.visit t n).isSome = true →
    P t → P (setVisit n v t)

variable {k : Bool} {Z : Station → Prop} {P : State → Prop} {z : Station} {t : State}

/-! ### The basic updates -/

theorem keep_setCrane (K : Closed k Z P) {a : Aisle} (ha : Z (zoneOf a)) (c : CraneRec) (h : P t) : P (setCrane a c t) :=
  K.crane a c t ha h

theorem keep_setAisle (K : Closed k Z P) {a : Aisle} (ha : Z (zoneOf a)) (r : AisleRec) (h : P t) : P (setAisle a r t) :=
  K.aisle a r t ha h

theorem keep_setForkMark (K : Closed k Z P) {a : Aisle} (ha : Z (zoneOf a)) (m : Option Nat) (h : P t) :
    P (setForkMark a m t) := K.fork a m t ha h

theorem keep_setStation (K : Closed k Z P) (hz : Z z) (r : StationRec) (h : P t) : P (setStation z r t) := K.station z r t hz h

theorem keep_setZone (K : Closed k Z P) (hz : Z z) (r : ZoneRec) (h : P t) : P (setZone z r t) := K.zone z r t hz h

theorem keep_setCrossingMark (K : Closed k Z P) (hz : Z z) (m : Option Nat) (h : P t) : P (setCrossingMark z m t) :=
  K.crossing z m t hz h

theorem keep_setAttention (K : Closed k Z P) (n : Nat) (h : P t) : P (setAttention n t) := K.attention n t h

theorem keep_sendDrive (K : Closed k Z P) (a : Aisle) (m : DriveMsg) (h : P t) : P (sendDrive a m t) := K.drive a m t h

theorem keep_sendPanel (K : Closed k Z P) (y : Station) (m : PanelMsg) (h : P t) : P (sendPanel y m t) := K.panel y m t h

theorem keep_setSlot (K : Closed false Z P) (sl : Slot) (e : SlotEntry) (h : P t) : P (setSlot sl e t) :=
  K.slot rfl sl e t h

theorem keep_modBin (K : Closed k Z P) (b : Nat) {f : BinRec → BinRec} (hf : ∀ r, (f r).books = r.books) (h : P t) :
    P (modBin b f t) := K.place b f t hf h

theorem keep_anyBin (K : Closed false Z P) (b : Nat) (f : BinRec → BinRec) (h : P t) : P (modBin b f t) :=
  K.anyBin rfl b f t h

theorem keep_setVisit (K : Closed k Z P) {n : Nat} {v w : VisitRec} (hw : visit t n = some w) (hv : v.books = w.books)
    (h : P t) : P (setVisit n v t) := K.visit n v w t hw hv h

theorem keep_anyVisit (K : Closed false Z P) {n : Nat} {w : VisitRec} (hw : visit t n = some w) (v : VisitRec) (h : P t) :
    P (setVisit n v t) := K.anyVisit rfl n v t (.inr (by rw [hw]; rfl)) h

theorem keep_modVisit (K : Closed k Z P) (n : Nat) {f : VisitRec → VisitRec} (hf : ∀ v, (f v).books = v.books) (h : P t) :
    P (modVisit n f t) := by
  unfold modVisit
  split
  · rename_i v hv
    exact keep_setVisit K hv (hf v) h
  · exact h

theorem keep_mapVisits (K : Closed k Z P) {f : Nat → VisitRec → VisitRec} (hf : ∀ n v, (f n v).books = v.books) (h : P t) :
    P { t with visits := tableMap f t.visits } := K.visits f t hf h

theorem keep_addHoldWhere (K : Closed k Z P) (r : HoldReason) (p : Nat → VisitRec → Bool) (h : P t) :
    P (addHoldWhere r p t) :=
  keep_mapVisits K (fun n v => by split <;> rfl) h

theorem keep_addHold (K : Closed k Z P) (r : HoldReason) (n : Nat) (h : P t) : P (addHold r n t) :=
  keep_addHoldWhere K _ _ h

theorem liftedVisit_books (bins : Table BinRec) (r : HoldReason) (v : VisitRec) : (liftedVisit bins r v).books = v.books := by
  simp only [liftedVisit]
  split
  · split <;> rfl
  · rfl

theorem keep_liftHoldWhere (K : Closed k Z P) (r : HoldReason) (p : Nat → VisitRec → Bool) (h : P t) :
    P (liftHoldWhere r p t) :=
  keep_mapVisits K (fun n v => by
    split
    · exact liftedVisit_books _ _ _
    · rfl) h

/-! ### Operations over the records (Ops) -/

theorem zoneOf_aisle0 (z : Station) : zoneOf (aisle0 z) = z := by
  apply Fin.ext
  simp only [zoneOf, aisle0]
  omega

theorem zoneOf_aisle1 (z : Station) : zoneOf (aisle1 z) = z := by
  apply Fin.ext
  simp only [zoneOf, aisle1]
  omega

theorem keep_enterZoneState (K : Closed k Z P) (hz : Z z) (st : ZoneState) (h : P t) : P (enterZoneState z st t) :=
  keep_setAttention K _ (keep_setZone K hz _ h)

theorem keep_setReservations (K : Closed k Z P) {a : Aisle} (ha : Z (zoneOf a)) (n : Nat) (h : P t) :
    P (setReservations a n t) := by
  exact keep_setStation K ha _ h

theorem keep_setWaiting (K : Closed k Z P) {a : Aisle} (ha : Z (zoneOf a)) (w : Bool) (h : P t) : P (setWaiting a w t) := by
  exact keep_setStation K ha _ h

theorem keep_returnGrant (K : Closed k Z P) {a : Aisle} (ha : Z (zoneOf a)) (h : P t) : P (returnGrant a t) := by
  unfold returnGrant
  split
  · exact keep_setReservations K ha _ (keep_setAisle K ha _ h)
  · exact h

theorem keep_withdrawWait (K : Closed k Z P) {a : Aisle} (ha : Z (zoneOf a)) (h : P t) : P (withdrawWait a t) := by
  unfold withdrawWait
  split
  · exact keep_setWaiting K ha _ h
  · exact h

theorem keep_dropClaims (K : Closed k Z P) {a : Aisle} (ha : Z (zoneOf a)) (h : P t) : P (dropClaims a t) :=
  keep_withdrawWait K ha (keep_returnGrant K ha h)

theorem keep_holdBinVisit (K : Closed k Z P) (r : HoldReason) (b : Nat) (h : P t) : P (holdBinVisit r b t) := by
  unfold holdBinVisit
  split
  · exact keep_addHold K _ _ h
  · exact h

/-! ### Cranes -/

theorem keep_setCraneState (K : Closed k Z P) {a : Aisle} (ha : Z (zoneOf a)) (st : CraneState) (h : P t) :
    P (setCraneState a st t) := keep_setCrane K ha _ h

theorem keep_setLeg (K : Closed k Z P) {a : Aisle} (ha : Z (zoneOf a)) (l : Option LegRec) (h : P t) :
    P (setLeg a l t) := keep_setCrane K ha _ h

theorem keep_issue (K : Closed k Z P) {a : Aisle} (ha : Z (zoneOf a)) (g : SegmentRec) (x : Bool) (h : P t) :
    P (issue a g x t) := by
  simp only [issue]
  apply keep_sendDrive K
  have h1 := keep_setCrane K ha (issuedRec t (crane t a) g x) h
  split <;> split
  · exact keep_sendDrive K _ _ (keep_setForkMark K ha _ h1)
  · exact keep_sendDrive K _ _ h1
  · exact keep_setForkMark K ha _ h1
  · exact h1

theorem keep_proceed (K : Closed k Z P) {a : Aisle} (ha : Z (zoneOf a)) (x : Bool) (h : P t) : P (proceed a x t) := by
  simp only [proceed]
  split
  · exact h
  · split
    · split
      · split
        · split
          · exact keep_issue K ha _ _ (keep_setLeg K ha _ h)
          · exact keep_issue K ha _ _ (keep_setLeg K ha _ h)
        · exact keep_issue K ha _ _ h
      · exact keep_issue K ha _ _ h
    · exact keep_issue K ha _ _ h

theorem keep_nextSegment (K : Closed k Z P) {a : Aisle} (ha : Z (zoneOf a)) (l : LegRec) (h : P t) :
    P (nextSegment a l t) :=
  keep_setCraneState K ha _ (keep_proceed K ha _ (keep_setLeg K ha _ h))

theorem keep_takeOffline (K : Closed k Z P) {a : Aisle} (ha : Z (zoneOf a)) (h : P t) : P (takeOffline a t) := by
  simp only [takeOffline]
  apply keep_dropClaims K ha
  apply keep_setCrane K ha
  split
  · exact keep_sendDrive K _ _ h
  · exact h

theorem keep_takeSuspension (K : Closed k Z P) {a : Aisle} (ha : Z (zoneOf a)) (h : P t) : P (takeSuspension a t) :=
  keep_addHoldWhere K _ _ (keep_takeOffline K ha (keep_setAisle K ha _ h))

theorem keep_liftAtReady (K : Closed k Z P) {a : Aisle} (h : P t) : P (liftAtReady a t) :=
  keep_liftHoldWhere K _ _ (keep_liftHoldWhere K _ _ (keep_liftHoldWhere K _ _ h))

theorem keep_enterReady (K : Closed k Z P) {a : Aisle} (ha : Z (zoneOf a)) (h : P t) : P (enterReady a t) := by
  simp only [enterReady]
  split
  · exact keep_takeSuspension K ha (keep_setCrane K ha _ h)
  · exact keep_liftAtReady K (keep_setCrane K ha _ (keep_setCrane K ha _ h))

theorem keep_issuePark (K : Closed k Z P) {a : Aisle} (ha : Z (zoneOf a)) (h : P t) : P (issuePark a t) := by
  unfold issuePark
  split
  · exact keep_takeSuspension K ha h
  · exact keep_dropClaims K ha (keep_setCraneState K ha _ (keep_issue K ha _ _ h))

theorem keep_raiseTotal (K : Closed k Z P) {a : Aisle} (ha : Z (zoneOf a)) (c : FaultClass) (h : P t) :
    P (raiseTotal a c t) := keep_setCrane K ha _ h

theorem keep_noteFault (K : Closed k Z P) {a : Aisle} (ha : Z (zoneOf a)) (c : FaultClass) (h : P t) :
    P (noteFault a c t) := keep_setAttention K _ (keep_setCrane K ha _ h)

theorem keep_markUncertain (K : Closed false Z P) (b : Nat) (h : P t) : P (markUncertain b t) := keep_anyBin K _ _ h

theorem keep_markStranded (K : Closed false Z P) (b : Nat) (h : P t) : P (markStranded b t) := keep_anyBin K _ _ h

theorem keep_markObstructed (K : Closed false Z P) (b : Nat) (h : P t) : P (markObstructed b t) := keep_anyBin K _ _ h

theorem keep_cutFork (K : Closed false Z P) {a : Aisle} (ha : Z (zoneOf a)) (h : P t) : P (cutFork a t) := by
  unfold cutFork
  split
  · exact h
  · exact keep_markUncertain K _ (keep_setForkMark K ha _ h)

theorem keep_holdHalted (K : Closed k Z P) (c : CraneRec) (h : P t) : P (holdHalted c t) := by
  simp only [holdHalted]
  split
  · apply keep_holdBinVisit K
    split
    · split
      · exact h
      · exact keep_addHold K _ _ h
    · split
      · exact keep_addHold K _ _ h
      · exact h
  · split
    · split
      · exact h
      · exact keep_addHold K _ _ h
    · split
      · exact keep_addHold K _ _ h
      · exact h

theorem keep_halt (K : Closed false Z P) {a : Aisle} (ha : Z (zoneOf a)) (c : FaultClass) (x : Bool) (h : P t) :
    P (halt a c x t) := by
  simp only [halt]
  have h1 : P (cutFork a (if (crane t a).segment.isSome then sendDrive a .stop t else t)) := by
    apply keep_cutFork K ha
    split
    · exact keep_sendDrive K _ _ h
    · exact h
  split
  · apply keep_takeSuspension K ha
    apply keep_dropClaims K ha
    apply keep_setCrane K ha
    apply keep_holdHalted K
    split
    · exact keep_markStranded K _ h1
    · exact h1
  · apply keep_dropClaims K ha
    apply keep_setCrane K ha
    apply keep_holdHalted K
    split
    · exact keep_markStranded K _ h1
    · exact h1

theorem keep_retryFault (K : Closed false Z P) {a : Aisle} (ha : Z (zoneOf a)) (c : FaultClass) (h : P t) :
    P (retryFault a c t) := by
  simp only [retryFault]
  split
  · exact keep_issuePark K ha (keep_setCrane K ha _ (keep_cutFork K ha (keep_sendDrive K _ _ h)))
  · split
    · exact keep_sendDrive K _ _ (keep_setCrane K ha _ h)
    · exact keep_halt K ha _ _ h

theorem keep_takeFault (K : Closed false Z P) {a : Aisle} (ha : Z (zoneOf a)) (c : FaultClass) (h : P t) :
    P (takeFault a c t) := by
  have h1 := keep_raiseTotal K ha c h
  simp only [takeFault]
  split
  · exact h1
  · exact keep_noteFault K ha _ h1
  · exact keep_halt K ha _ _ (keep_noteFault K ha _ h1)
  · exact keep_retryFault K ha _ (keep_noteFault K ha _ h1)

theorem keep_takeSupplyFault (K : Closed false Z P) {a : Aisle} (ha : Z (zoneOf a)) (h : P t) :
    P (takeSupplyFault a t) := by
  have h1 := keep_noteFault K ha .supply (keep_raiseTotal K ha .supply h)
  simp only [takeSupplyFault]
  split
  · exact keep_halt K ha _ _ h1
  · split
    · exact keep_setCrane K ha _ h1
    · exact keep_halt K ha _ _ h1

theorem keep_startHome (K : Closed k Z P) {a : Aisle} (ha : Z (zoneOf a)) (x : Bool) (h : P t) : P (startHome a x t) :=
  keep_setCrane K ha _ (keep_issue K ha _ _ h)

theorem keep_homeOrder (K : Closed false Z P) {a : Aisle} (ha : Z (zoneOf a)) (h : P t) : P (homeOrder a t) := by
  simp only [homeOrder]
  split
  · split
    · exact keep_startHome K ha _ h
    · exact keep_takeSupplyFault K ha h
  · exact keep_startHome K ha _ h
  · exact keep_startHome K ha _ h
  · exact keep_startHome K ha _ h
  all_goals exact h

theorem keep_parkCrane (K : Closed false Z P) {a : Aisle} (ha : Z (zoneOf a)) (h : P t) : P (parkCrane a t) := by
  have h1 : P (if (crane t a).segment.isSome then sendDrive a .stop t else t) := by
    split
    · exact keep_sendDrive K _ _ h
    · exact h
  simp only [parkCrane]
  split
  case h_1 | h_2 =>
    split
    · exact keep_dropClaims K ha (keep_setCrane K ha _ h)
    · exact keep_issuePark K ha (keep_cutFork K ha (keep_setCrane K ha _ h1))
  case h_3 => exact keep_issuePark K ha (keep_cutFork K ha (keep_setCrane K ha _ h))
  case h_4 => exact keep_issuePark K ha (keep_setCrane K ha _ h1)
  case h_5 | h_6 => exact keep_issuePark K ha (keep_setCrane K ha _ h)
  all_goals exact keep_setCrane K ha _ h

/-! ### Scheduling -/

theorem keep_handLeg (K : Closed k Z P) {a : Aisle} (ha : Z (zoneOf a)) (c : Candidate) (h : P t) : P (handLeg a c t) :=
  keep_setCraneState K ha _ (keep_proceed K ha _ (keep_setLeg K ha _ (keep_modVisit K _ (fun _ => rfl) h)))

theorem keep_reserve (K : Closed k Z P) (n : Nat) (h : P t) : P (reserve n t) := keep_modVisit K _ (fun _ => rfl) h

theorem keep_takePlace (K : Closed k Z P) {a : Aisle} (ha : Z (zoneOf a)) (h : P t) : P (takePlace a t) := by
  have h1 := keep_setWaiting K ha false (keep_setReservations K ha (reservations t a + 1) h)
  exact keep_setStation K ha _ h1

theorem keep_obtainPlace (K : Closed k Z P) {a : Aisle} (ha : Z (zoneOf a)) {n : Nat} {u : State} (h : P t)
    (hu : obtainPlace a n t = some u) : P u := by
  unfold obtainPlace at hu
  split at hu
  · cases hu
    exact keep_reserve K _ (keep_setAisle K ha _ h)
  · split at hu
    · cases hu
    · split at hu
      · cases hu
        exact keep_reserve K _ (keep_takePlace K ha h)
      · cases hu

theorem keep_chooseNew (K : Closed k Z P) {a : Aisle} (ha : Z (zoneOf a)) (cs : List Candidate) (h : P t) :
    P (chooseNew a cs t) := by
  simp only [chooseNew]
  split
  · exact h
  · split
    · split
      · rename_i u hu
        exact keep_handLeg K ha _ (keep_obtainPlace K ha h hu)
      · split
        · exact keep_handLeg K ha _ (keep_setWaiting K ha _ h)
        · exact keep_setWaiting K ha _ h
    · exact keep_handLeg K ha _ h

theorem keep_chooseCarried (K : Closed k Z P) {a : Aisle} (ha : Z (zoneOf a)) (b : Nat) (cs : List Candidate) (h : P t) :
    P (chooseCarried a b cs t) := by
  simp only [chooseCarried]
  split
  · exact h
  · split
    · split
      · rename_i u hu
        exact keep_handLeg K ha _ (keep_obtainPlace K ha h hu)
      · exact keep_setWaiting K ha _ h
    · exact keep_handLeg K ha _ h

theorem keep_chooseLeg (K : Closed k Z P) {a : Aisle} (ha : Z (zoneOf a)) (cs : List Candidate) (h : P t) :
    P (chooseLeg a cs t) := by
  unfold chooseLeg
  split
  · exact keep_chooseCarried K ha _ _ h
  · split
    · exact keep_handLeg K ha _ h
    · exact keep_chooseNew K ha _ h

theorem keep_choose (K : Closed k Z P) {a : Aisle} (ha : Z (zoneOf a)) (h : P t) : P (choose a t) := by
  simp only [choose]
  split
  · split
    · exact keep_returnGrant K ha (keep_chooseLeg K ha _ h)
    · exact keep_chooseLeg K ha _ h
  · exact h

theorem keep_grantArrives (K : Closed k Z P) {a : Aisle} (ha : Z (zoneOf a)) (h : P t) : P (grantArrives a t) := by
  have h1 := keep_setAisle K ha { aisleRec (takePlace a t) a with grant := true } (keep_takePlace K ha h)
  simp only [grantArrives]
  split
  case h_1 | h_2 | h_3 | h_4 => exact keep_returnGrant K ha h1
  all_goals exact h1

theorem zoneOf_nextGrant {a : Aisle} (h : nextGrant t z = some a) : zoneOf a = z := by
  simp only [nextGrant] at h
  split at h
  · split at h
    · cases h
    · cases h
      exact zoneOf_aisle0 z
    · cases h
      exact zoneOf_aisle1 z
    · split at h
      · cases h
        exact zoneOf_aisle1 z
      · cases h
        exact zoneOf_aisle0 z
  · cases h

theorem keep_schedule (K : Closed k Z P) (hz : Z z) (fuel : Nat) (due : List Aisle) (hd : ∀ a ∈ due, Z (zoneOf a)) (h : P t) :
    P (schedule z fuel due t) := by
  induction fuel generalizing due t with
  | zero => exact h
  | succ fuel ih =>
    simp only [schedule]
    split
    · rename_i a ha
      have hz1 : Z (zoneOf a) := by rw [zoneOf_nextGrant ha]; exact hz
      refine ih _ ?_ (keep_grantArrives K hz1 h)
      intro b hb
      split at hb
      · rcases List.mem_append.mp hb with hb | hb
        · exact hd b hb
        · rw [List.mem_singleton.mp hb]
          exact hz1
      · exact hd b hb
    · split
      · exact h
      · rename_i a rest
        exact ih rest (fun b hb => hd b (List.mem_cons_of_mem _ hb)) (keep_choose K (hd a (by simp)) h)

theorem keep_scheduleZone (K : Closed k Z P) (hz : Z z) (before : State) (h : P t) : P (scheduleZone before z t) := by
  refine keep_schedule K hz _ _ ?_ h
  intro a ha
  have := (List.mem_filter.mp ha).1
  simp only [List.mem_cons, List.not_mem_nil, or_false] at this
  rcases this with rfl | rfl
  · rw [zoneOf_aisle0]; exact hz
  · rw [zoneOf_aisle1]; exact hz

/-! ### Stations -/

theorem keep_modStation (K : Closed k Z P) (hz : Z z) (f : StationRec → StationRec) (h : P t) : P (modStation z f t) :=
  keep_setStation K hz _ h

theorem keep_stationAttention (K : Closed k Z P) (y : Station) (h : P t) : P (stationAttention y t) := keep_setAttention K _ h

theorem keep_placeLane (K : Closed k Z P) (i : Nat) (bs : List Nat) (h : P t) : P (placeLane z i bs t) := by
  induction bs generalizing i t with
  | nil => exact h
  | cons b bs ih => exact ih _ (keep_modBin K _ (fun _ => rfl) h)

theorem keep_leaveLane (K : Closed k Z P) (hz : Z z) (b : Nat) (h : P t) : P (leaveLane z b t) :=
  keep_placeLane K _ _ (keep_modBin K _ (fun _ => rfl) (keep_modStation K hz _ h))

theorem keep_beginCrossing (K : Closed k Z P) (hz : Z z) (c : CrossingKind) (b : Nat) (h : P t) : P (beginCrossing z c b t) :=
  keep_sendPanel K _ _ (keep_setCrossingMark K hz _ (keep_modStation K hz _ h))

theorem keep_setVisitState (K : Closed k Z P) (b : Nat) (st : VisitState) (h : P t) : P (setVisitState b st t) := by
  unfold setVisitState
  split
  · exact keep_modVisit K _ (fun _ => rfl) h
  · exact h

theorem keep_tryPresent (K : Closed k Z P) (hz : Z z) (h : P t) : P (tryPresent z t) := by
  simp only [tryPresent]
  split
  · split
    · exact h
    · split
      · apply keep_beginCrossing K hz
        apply keep_setVisitState K
        split
        · exact h
        · exact keep_leaveLane K hz _ h
      · exact h
  · exact h

theorem keep_tryWithdraw (K : Closed k Z P) (hz : Z z) (h : P t) : P (tryWithdraw z t) := by
  unfold tryWithdraw
  dsimp only
  repeat' split
  all_goals first
    | exact h
    | exact keep_beginCrossing K hz _ _ h

theorem keep_startCrossings (K : Closed k Z P) (hz : Z z) (h : P t) : P (startCrossings z t) := keep_tryPresent K hz (keep_tryWithdraw K hz h)

theorem keep_releaseShutter (K : Closed k Z P) (hz : Z z) (h : P t) : P (releaseShutter z t) := keep_modStation K hz _ h

theorem keep_energiseShutter (K : Closed k Z P) (hz : Z z) (h : P t) : P (energiseShutter z t) := keep_modStation K hz _ h

theorem keep_reportReleased (K : Closed k Z P) (hz : Z z) (h : P t) : P (reportReleased z t) := keep_setZone K hz _ h

theorem keep_reportReopen (K : Closed k Z P) (hz : Z z) (r : ReopenReport) (h : P t) : P (reportReopen z r t) := by
  unfold reportReopen
  split
  · exact keep_setZone K hz _ h
  · exact h

theorem keep_carryClose (K : Closed k Z P) (hz : Z z) (h : P t) : P (carryClose z t) := by
  simp only [carryClose]
  split
  · split
    · split
      · exact keep_reportReleased K hz (keep_releaseShutter K hz h)
      · exact h
    · exact keep_reportReleased K hz (keep_releaseShutter K hz h)
    · split
      · exact h
      · exact keep_reportReleased K hz h
    · split
      · exact h
      · exact keep_reportReleased K hz h
  · exact h

theorem keep_liftCrossingResets (K : Closed k Z P) (h : P t) : P (liftCrossingResets z t) := by
  unfold liftCrossingResets
  split
  · exact keep_liftHoldWhere K _ _ h
  · exact h

theorem keep_holdOut (K : Closed k Z P) (y : Station) (h : P t) : P (holdOut y t) := keep_addHoldWhere K _ _ h

theorem keep_reopenOrder (K : Closed k Z P) (hz : Z z) (h : P t) : P (reopenOrder z t) := by
  have h1 := keep_modStation K hz (fun r => { r with closeOrder := false }) h
  simp only [reopenOrder]
  split
  · exact keep_reportReopen K hz _ h1
  · exact keep_modStation K hz _ h1
  all_goals
    split
    · exact keep_reportReopen K hz _ h1
    · exact keep_modStation K hz _ (keep_energiseShutter K hz h1)

/-! ### Zones -/

theorem keep_setSettledMark (K : Closed k Z P) {a : Aisle} (ha : Z (zoneOf a)) (x : Bool) (h : P t) :
    P (setSettledMark a x t) := by
  exact keep_setZone K ha _ h

theorem keep_setRecoveredMark (K : Closed k Z P) {a : Aisle} (ha : Z (zoneOf a)) (h : P t) :
    P (setRecoveredMark a t) := by
  exact keep_setZone K ha _ h

theorem keep_holdSettled (K : Closed k Z P) (c : CraneRec) (h : P t) : P (holdSettled c t) := by
  have h1 : P (match c.dropped with | some l => addHold .fire l.visit t | none => t) := by
    split
    · exact keep_addHold K _ _ h
    · exact h
  simp only [holdSettled]
  split
  · apply keep_holdBinVisit K
    split
    · split
      · exact h1
      · exact keep_addHold K _ _ h1
    · exact h1
  · split
    · split
      · exact h1
      · exact keep_addHold K _ _ h1
    · exact h1

theorem keep_settleCrane (K : Closed k Z P) {a : Aisle} (ha : Z (zoneOf a)) (h : P t) : P (settleCrane a t) := by
  simp only [settleCrane]
  split
  · exact h
  · split
    · exact keep_setSettledMark K ha _ h
    · split
      · exact h
      · exact keep_setCrane K ha _ (keep_holdSettled K _ (keep_setSettledMark K ha _ h))

theorem keep_recoverCrane (K : Closed k Z P) {a : Aisle} (ha : Z (zoneOf a)) (h : P t) : P (recoverCrane a t) := by
  unfold recoverCrane
  split
  · exact keep_setRecoveredMark K ha h
  · exact h

theorem keep_tryAwait (K : Closed k Z P) (hz : Z z) (h : P t) : P (tryAwait z t) := by
  unfold tryAwait
  split
  · exact keep_enterZoneState K hz _ h
  · exact h

theorem keep_trySeal (K : Closed k Z P) (hz : Z z) (h : P t) : P (trySeal z t) := by
  unfold trySeal
  split
  · exact keep_tryAwait K hz (keep_enterZoneState K hz _ h)
  · exact h

theorem keep_tryReopenZone (K : Closed k Z P) (hz : Z z) (h : P t) : P (tryReopenZone z t) := by
  unfold tryReopenZone
  split
  · exact keep_liftHoldWhere K _ _ (keep_enterZoneState K hz _ h)
  · exact h

/-- An operation made for both aisles of a zone keeps the property if it does for each. -/
theorem keep_zoneAisles (hz : Z z) {f : State → Aisle → State}
    (hf : ∀ (a : Aisle) (u : State), Z (zoneOf a) → P u → P (f u a)) (h : P t) :
    P ((zoneAisles z).foldl f t) := by
  simp only [zoneAisles, List.foldl_cons, List.foldl_nil]
  exact hf _ _ (by rw [zoneOf_aisle1]; exact hz) (hf _ _ (by rw [zoneOf_aisle0]; exact hz) h)

theorem keep_zoneProgress (K : Closed k Z P) (hz : Z z) (h : P t) : P (zoneProgress z t) := by
  simp only [zoneProgress]
  split
  · exact keep_trySeal K hz (keep_zoneAisles hz (fun _ _ ha hu => keep_settleCrane K ha hu) h)
  · exact keep_tryReopenZone K hz (keep_zoneAisles hz (fun _ _ ha hu => keep_recoverCrane K ha hu) h)
  · exact keep_tryAwait K hz h
  all_goals exact h

/-- Everything an event makes possible in a zone keeps a property that is closed for that zone. -/
theorem keep_settleZone (K : Closed k Z P) (hz : Z z) (before : State) (h : P t) : P (settleZone before z t) :=
  keep_scheduleZone K hz _ (keep_startCrossings K hz (keep_liftCrossingResets K (keep_zoneProgress K hz (keep_carryClose K hz h))))

end Sys2Proof.Machine
end

