-- ==== Sys2Proof/Laws/ClosedEvents.lean ====
section
/-! SUPPORT. The induction of Laws/Closed over the events of cranes, stations and zones, and over the ends of visits. -/

namespace Sys2Proof.Machine

variable {k : Bool} {Z : Station → Prop} {P : State → Prop} {z : Station} {t : State}

/-! ### Cranes -/

theorem keep_unexpectedReport (K : Closed k Z P) {a : Aisle} (ha : Z (zoneOf a)) (h : P t) : P (unexpectedReport a t) :=
  keep_setCrane K ha _ h

theorem keep_pickDone (K : Closed false Z P) {a : Aisle} (ha : Z (zoneOf a)) (l : LegRec) (h : P t) : P (pickDone a l t) := by
  have h1 : P (setCrane a { (crane t a).idle with carried := some l.bin } (setForkMark a none t)) :=
    keep_setCrane K ha _ (keep_setForkMark K ha _ h)
  simp only [pickDone]
  apply keep_anyBin K
  split
  · exact keep_setStation K ha _ h1
  · exact keep_setSlot K _ _ h1
  · exact h1

theorem keep_takeSlip (K : Closed false Z P) {a : Aisle} (ha : Z (zoneOf a)) (h : P t) : P (takeSlip a t) :=
  keep_takeFault K ha _ (keep_setCrane K ha _ h)

theorem keep_countSlip (K : Closed false Z P) {a : Aisle} (ha : Z (zoneOf a)) (h : P t) : P (countSlip a t) := by
  have h1 := keep_setCrane K ha { crane t a with slipCount := (crane t a).slipCount + 1 } h
  simp only [countSlip]
  split
  · exact keep_takeSlip K ha h1
  · exact h1

theorem keep_takeSpeed (K : Closed false Z P) {a : Aisle} (ha : Z (zoneOf a)) (h : P t) : P (takeSpeed a t) :=
  keep_takeFault K ha _ (keep_setCrane K ha _ h)

theorem keep_checkMark (K : Closed false Z P) {a : Aisle} (ha : Z (zoneOf a)) (x : Bool) (recorded index : Nat) (h : P t) :
    P (checkMark a x recorded index t) := by
  have h1 := keep_setCrane K ha ((crane t a).moved x index) h
  have h2 := keep_setCrane K ha (((crane t a).moved x index).timed x t.time.ms) h
  unfold checkMark
  dsimp only
  repeat' split
  all_goals first
    | exact h1
    | exact keep_countSlip K ha h1
    | exact h2
    | exact keep_countSlip K ha h2
    | exact keep_takeSpeed K ha h2
    | exact keep_takeSpeed K ha (keep_countSlip K ha h2)

theorem keep_takeMark (K : Closed false Z P) {a : Aisle} (ha : Z (zoneOf a)) (x : Bool) (index : Nat) (h : P t) :
    P (takeMark a x index t) := by
  simp only [takeMark]
  split
  · exact keep_unexpectedReport K ha h
  · split
    · exact keep_unexpectedReport K ha h
    · exact keep_checkMark K ha _ _ _ h

theorem keep_takeCurrentLimit (K : Closed false Z P) {a : Aisle} (ha : Z (zoneOf a)) (h : P t) : P (takeCurrentLimit a t) := by
  simp only [takeCurrentLimit]
  split
  · split
    · exact keep_takeFault K ha _ (keep_setCrane K ha _ h)
    · exact keep_setCrane K ha _ h
  · exact keep_unexpectedReport K ha h

theorem keep_takeNoLoad (K : Closed false Z P) {a : Aisle} (ha : Z (zoneOf a)) (h : P t) : P (takeNoLoad a t) := by
  simp only [takeNoLoad]
  split
  · split
    · exact keep_unexpectedReport K ha h
    · exact keep_takeFault K ha _ h
  · exact keep_unexpectedReport K ha h

theorem keep_endSupplyFault (K : Closed k Z P) {a : Aisle} (ha : Z (zoneOf a)) (h : P t) : P (endSupplyFault a t) := by
  have h1 := keep_setCrane K ha { crane t a with supplyFault := false } h
  simp only [endSupplyFault]
  split
  · split
    · exact keep_takeOffline K ha h1
    · split
      · exact keep_startHome K ha _ h1
      · exact h1
  · exact h1

theorem keep_takeSupply (K : Closed false Z P) {a : Aisle} (ha : Z (zoneOf a)) (c : SupplyCond) (h : P t) :
    P (takeSupply a c t) := by
  have h1 := keep_setCrane K ha { crane t a with supply := c } h
  simp only [takeSupply]
  split
  · split
    · exact keep_endSupplyFault K ha h1
    · exact h1
  · split
    · exact keep_takeSupplyFault K ha h1
    · exact h1

theorem keep_takeOverrun (K : Closed false Z P) {a : Aisle} (ha : Z (zoneOf a)) (h : P t) : P (takeOverrun a t) :=
  keep_takeFault K ha _ (keep_setCrane K ha _ h)

theorem keep_takeDeadline (K : Closed false Z P) {a : Aisle} (ha : Z (zoneOf a)) (h : P t) : P (takeDeadline a t) := by
  unfold takeDeadline
  split
  · exact keep_takeOverrun K ha h
  · exact h

theorem keep_reissueLeg (K : Closed k Z P) {a : Aisle} (ha : Z (zoneOf a)) (l : LegRec) (h : P t) :
    P (reissueLeg a l t) := by
  simp only [reissueLeg]
  split
  · apply keep_issue K ha
    split
    · exact keep_setLeg K ha _ h
    · exact h
  · exact keep_issue K ha _ _ h

theorem keep_takeRetry (K : Closed k Z P) {a : Aisle} (ha : Z (zoneOf a)) (h : P t) : P (takeRetry a t) := by
  have h1 := keep_setCrane K ha { crane t a with retryTimer := none } h
  simp only [takeRetry]
  split
  · exact keep_issue K ha _ _ h1
  · exact keep_issue K ha _ _ h1
  · split
    · exact keep_enterReady K ha h1
    · rename_i l _
      split
      · exact keep_enterReady K ha h1
      · exact keep_setCraneState K ha _ (keep_reissueLeg K ha l h1)

theorem keep_takeRetryDelay (K : Closed k Z P) {a : Aisle} (ha : Z (zoneOf a)) (h : P t) : P (takeRetryDelay a t) := by
  unfold takeRetryDelay
  split
  · exact keep_takeRetry K ha h
  · exact h

theorem keep_takeRestTimer (K : Closed k Z P) {a : Aisle} (ha : Z (zoneOf a)) (h : P t) : P (takeRestTimer a t) := by
  unfold takeRestTimer
  split
  · exact keep_sendDrive K _ _ (keep_setCrane K ha _ h)
  · exact h

theorem keep_takeArrived (K : Closed false Z P) {a : Aisle} (ha : Z (zoneOf a)) (h : P t) : P (takeArrived a t) := by
  simp only [takeArrived]
  split
  · exact keep_unexpectedReport K ha h
  · split
    · split
      · exact keep_markStranded K _ (keep_setCrane K ha _ h)
      · exact keep_setCrane K ha _ h
    · split
      · exact keep_enterReady K ha (keep_setCrane K ha _ h)
      · split
        · exact keep_enterReady K ha (keep_setCrane K ha _ h)
        · split
          · exact keep_setCraneState K ha _ (keep_proceed K ha _ (keep_setLeg K ha _ (keep_setCrane K ha _ h)))
          · exact keep_nextSegment K ha _ (keep_setCrane K ha _ h)
    all_goals exact keep_unexpectedReport K ha h

theorem keep_takeHomed (K : Closed k Z P) {a : Aisle} (ha : Z (zoneOf a)) (h : P t) : P (takeHomed a t) := by
  have h1 := keep_setCrane K ha
    { (crane t a).idle with col := some 0, level := some (mouthLevel t), homingClear := false } h
  simp only [takeHomed]
  split
  · split
    · apply keep_enterReady K ha
      split
      · exact keep_setAttention K _ h1
      · exact h1
    · split
      · exact keep_enterReady K ha h1
      · exact keep_setCraneState K ha _ (keep_proceed K ha _ h1)
  · exact keep_unexpectedReport K ha h

theorem keep_cancelLeg (K : Closed k Z P) {a : Aisle} (ha : Z (zoneOf a)) (n : Nat) (h : P t) : P (cancelLeg a n t) := by
  simp only [cancelLeg]
  have h1 : P (match (crane t a).leg with
      | some l =>
        if l.visit = n then
          setForkMark a none (setLeg a (if (crane t a).state = .retryWait then none else some { l with cancelled := true }) t)
        else t
      | none => t) := by
    split
    · split
      · exact keep_setForkMark K ha _ (keep_setLeg K ha _ h)
      · exact h
    · exact h
  split
  · split
    · exact keep_setCrane K ha _ h1
    · exact h1
  · exact h1

/-! ### Ends of visits -/

/-- The zone of a visit's bin, where the visit and the bin have records, is in `Z`. -/
def visitIn (Z : Station → Prop) (t : State) (n : Nat) : Prop :=
  ∀ v a, visit t n = some v → binAisle t v.bin = some a → Z (zoneOf a)

theorem keep_releaseReservation (K : Closed k Z P) {n : Nat} (hn : visitIn Z t n) (h : P t) : P (releaseReservation n t) := by
  simp only [releaseReservation]
  split
  · exact h
  · rename_i v hv
    split
    · have h1 : P (setVisit n { v with reservation := false } t) := keep_setVisit K hv rfl h
      split
      · exact h1
      · rename_i a ha
        exact keep_setReservations K (hn v a hv ha) _ h1
    · exact h

theorem visit_releaseReservation (n m : Nat) (t : State) :
    (visit (releaseReservation n t) m).isSome = (visit t m).isSome := by
  simp only [releaseReservation]
  split
  · rfl
  · rename_i v hv
    have h1 : (visit (setVisit n { v with reservation := false } t) m).isSome = (visit t m).isSome := by
      rw [visit_setVisit]
      split
      · rename_i e
        rw [e, hv]
        rfl
      · rfl
    split
    · split
      · exact h1
      · exact h1
    · rfl

theorem keep_endVisit (K : Closed false Z P) {n : Nat} (hn : visitIn Z t n) (st : VisitState) (o : VisitOutcome) (h : P t) :
    P (endVisit n st o t) := by
  simp only [endVisit]
  split
  · exact h
  · rename_i v hv
    apply keep_setAttention K
    have h1 : P (setVisit n { v with state := st, outcome := some o, hold := .none, reservation := false }
        (releaseReservation n t)) :=
      K.anyVisit rfl _ _ _ (.inr (by rw [visit_releaseReservation, hv]; rfl)) (keep_releaseReservation K hn h)
    split
    · exact keep_anyBin K _ _ (keep_anyBin K _ _ h1)
    · exact keep_anyBin K _ _ h1

theorem binAisle_setForkMark (a : Aisle) (m : Option Nat) (t : State) (b : Nat) :
    binAisle (setForkMark a m t) b = binAisle t b := rfl

theorem binAisle_setCrane (a : Aisle) (c : CraneRec) (t : State) (b : Nat) : binAisle (setCrane a c t) b = binAisle t b := rfl

theorem binAisle_setSlot (sl : Slot) (e : SlotEntry) (t : State) (b : Nat) : binAisle (setSlot sl e t) b = binAisle t b := rfl

theorem binAisle_modBin (m : Nat) {f : BinRec → BinRec} (hf : ∀ r, (f r).home.aisle = r.home.aisle) (t : State) (b : Nat) :
    binAisle (modBin m f t) b = binAisle t b := by
  simp only [binAisle, bin_modBin]
  split
  · rename_i e
    rw [e]
    cases bin t m <;> simp [hf]
  · rfl

/-! ### Stations -/

theorem keep_showTask (K : Closed k Z P) (y : Station) (i : Nat) (r : TaskRec) (h : P t) : P (showTask y i r t) :=
  keep_sendPanel K _ _ h

theorem keep_showPending (K : Closed k Z P) (y : Station) (i : Nat) (ts : List TaskRec) (h : P t) :
    P (showPending y i ts t) := by
  induction ts generalizing i t with
  | nil => exact h
  | cons r ts ih =>
    apply ih
    split
    · exact keep_showTask K _ _ _ h
    · exact h

theorem keep_resendTasks (K : Closed k Z P) (y : Station) (h : P t) : P (resendTasks y t) := by
  have h1 := keep_sendPanel K y .clear h
  simp only [resendTasks]
  split
  · exact h1
  · split
    · exact h1
    · split
      · exact keep_showPending K _ _ _ h1
      · exact h1

theorem keep_startFaceTimer (K : Closed k Z P) (hz : Z z) (h : P t) : P (startFaceTimer z t) := keep_modStation K hz _ h

theorem keep_endCrossing (K : Closed k Z P) (hz : Z z) (h : P t) : P (endCrossing z t) :=
  keep_setCrossingMark K hz _ (keep_modStation K hz _ h)

theorem keep_arriveAtFace (K : Closed k Z P) (hz : Z z) (b n : Nat) (h : P t) : P (arriveAtFace z b n t) := by
  simp only [arriveAtFace]
  apply keep_startFaceTimer K hz
  have h1 : P (modVisit n (fun v => { v with state := .atFace }) (modStation z (fun r => { r with face := some ⟨b, n⟩ }) t)) :=
    keep_modVisit K _ (fun _ => rfl) (keep_modStation K hz _ h)
  split
  · exact keep_showPending K _ _ _ h1
  · exact h1

theorem keep_crossingArrives (K : Closed k Z P) (hz : Z z) (x : CrossingRec) (h : P t) : P (crossingArrives z x t) := by
  have h1 : P (modStation z (fun r => { r with openingBin := none }) (endCrossing z t)) :=
    keep_modStation K hz _ (keep_endCrossing K hz h)
  simp only [crossingArrives]
  split
  · have h2 := keep_modBin K x.bin (f := fun b => { b with location := .face z }) (fun _ => rfl) h1
    split
    · exact keep_arriveAtFace K hz _ _ h2
    · exact h2
  · exact keep_setVisitState K _ _ (keep_modStation K hz _ (keep_modBin K _ (fun _ => rfl) h1))

theorem keep_jamCrossing (K : Closed false Z P) (hz : Z z) (x : CrossingRec) (h : P t) : P (jamCrossing z x t) :=
  keep_stationAttention K _ (keep_holdOut K _ (keep_modStation K hz _ (keep_markObstructed K _
    (keep_endCrossing K hz (keep_sendPanel K _ _ h)))))

theorem keep_markCaught (K : Closed false Z P) (b : Nat) (h : P t) : P (markCaught b t) :=
  keep_markObstructed K _ (keep_markUncertain K _ h)

theorem keep_forceClose (K : Closed false Z P) (hz : Z z) (h : P t) : P (forceClose z t) := by
  simp only [forceClose]
  split
  · have h1 : P (match (station t z).crossing with
        | none => t
        | some x => holdBinVisit .fire x.bin (markCaught x.bin (endCrossing z (sendPanel z (.transfer .halt) t)))) := by
      split
      · exact h
      · exact keep_holdBinVisit K _ _ (keep_markCaught K _ (keep_endCrossing K hz (keep_sendPanel K _ _ h)))
    apply keep_stationAttention K
    apply keep_modStation K hz
    apply keep_reportReleased K hz
    apply keep_releaseShutter K hz
    split
    · exact keep_markCaught K _ h1
    · exact h1
  · exact h

theorem keep_leaveOut (K : Closed k Z P) (hz : Z z) (h : P t) : P (leaveOut z t) :=
  keep_liftHoldWhere K _ _ (keep_modStation K hz _ h)

theorem keep_shutterFault (K : Closed k Z P) (hz : Z z) (h : P t) : P (shutterFault z t) :=
  keep_stationAttention K _ (keep_modStation K hz _ h)

theorem keep_shutterOpens (K : Closed k Z P) (hz : Z z) (h : P t) : P (shutterOpens z t) := by
  have h1 := keep_modStation K hz (fun r => { r with
    shutter := .open, travelTimer := none, reopenOrdered := false, reopenCommand := false }) h
  simp only [shutterOpens]
  have h2 : P (if (station t z).reopenOrdered = true then reportReopen z .open (modStation z (fun r => { r with
      shutter := .open, travelTimer := none, reopenOrdered := false, reopenCommand := false }) t)
      else modStation z (fun r => { r with
        shutter := .open, travelTimer := none, reopenOrdered := false, reopenCommand := false }) t) := by
    split
    · exact keep_reportReopen K hz _ h1
    · exact h1
  split
  · exact keep_stationAttention K _ (keep_leaveOut K hz h2)
  · exact h2

theorem keep_takeOpenAsserted (K : Closed k Z P) (hz : Z z) (h : P t) : P (takeOpenAsserted z t) := by
  unfold takeOpenAsserted
  split
  · exact keep_shutterOpens K hz h
  · exact h
  all_goals exact keep_shutterFault K hz h

theorem keep_takeOpenReleased (K : Closed k Z P) (hz : Z z) (h : P t) : P (takeOpenReleased z t) := by
  unfold takeOpenReleased
  split
  · exact keep_shutterFault K hz h
  · exact h

theorem keep_takeClosedAsserted (K : Closed k Z P) (hz : Z z) (h : P t) : P (takeClosedAsserted z t) := by
  unfold takeClosedAsserted
  split
  · exact keep_modStation K hz _ h
  · exact h
  all_goals exact keep_shutterFault K hz h

theorem keep_reopenFails (K : Closed k Z P) (hz : Z z) (h : P t) : P (reopenFails z t) := by
  simp only [reopenFails]
  split
  · exact keep_reportReopen K hz _ (keep_stationAttention K _ (keep_holdOut K _ (keep_modStation K hz _ h)))
  · exact keep_stationAttention K _ (keep_holdOut K _ (keep_modStation K hz _ h))

theorem keep_takeTravelExpiry (K : Closed k Z P) (hz : Z z) (h : P t) : P (takeTravelExpiry z t) := by
  unfold takeTravelExpiry
  split
  · exact keep_shutterFault K hz (keep_modStation K hz _ h)
  · exact keep_reopenFails K hz h
  all_goals exact h

theorem keep_takeShutterTravel (K : Closed k Z P) (hz : Z z) (h : P t) : P (takeShutterTravel z t) := by
  unfold takeShutterTravel
  split
  · exact keep_takeTravelExpiry K hz h
  · exact h

theorem keep_takeBeamBlocked (K : Closed k Z P) (hz : Z z) (h : P t) : P (takeBeamBlocked z t) := keep_modStation K hz _ h

theorem keep_takeBeamClear (K : Closed k Z P) (hz : Z z) (h : P t) : P (takeBeamClear z t) := by
  unfold takeBeamClear
  split
  · split
    · exact keep_crossingArrives K hz _ h
    · exact h
  · exact h

theorem keep_takeCrossingMax (K : Closed false Z P) (hz : Z z) (h : P t) : P (takeCrossingMax z t) := by
  unfold takeCrossingMax
  split
  · exact keep_jamCrossing K hz _ h
  · exact h

theorem keep_takeFaceTimer (K : Closed k Z P) (hz : Z z) (h : P t) : P (takeFaceTimer z t) := by
  unfold takeFaceTimer
  split
  · exact keep_stationAttention K _ (keep_modStation K hz _ h)
  · exact h

theorem keep_takeHoldTimer (K : Closed false Z P) (hz : Z z) (h : P t) : P (takeHoldTimer z t) := by
  simp only [takeHoldTimer]
  split
  · have h1 := keep_setZone K hz { zone t z with holdTimer := none } h
    split
    · exact keep_forceClose K hz h1
    · exact h1
  · exact h

/-- A level change at a station's pin keeps the property if the station's action does. -/
theorem keep_onSensor (K : Closed k Z P) (hz : Z z) (level : StationRec → StationRec) {act : State → State}
    (hact : ∀ u, P u → P (act u)) (h : P t) : P (onSensor z level act t) := by
  have h1 := keep_modStation K hz level h
  simp only [onSensor]
  split
  · exact h1
  · exact keep_settleZone K hz _ (keep_modStation K hz _ (hact _ h1))

/-! ### Zones -/

theorem keep_parkCranes (K : Closed false Z P) (hz : Z z) (h : P t) : P (parkCranes z t) := by
  refine keep_zoneAisles hz (fun a u ha hu => ?_) h
  split
  · exact keep_parkCrane K ha hu
  · exact hu

theorem keep_homeCranes (K : Closed false Z P) (hz : Z z) (h : P t) : P (homeCranes z t) := by
  refine keep_zoneAisles hz (fun a u ha hu => ?_) h
  split
  · exact keep_homeOrder K ha hu
  · exact hu

theorem keep_liftParkOrders (K : Closed k Z P) (hz : Z z) (h : P t) : P (liftParkOrders z t) := by
  refine keep_zoneAisles hz (fun a u ha hu => ?_) h
  split
  · exact keep_setCrane K ha _ hu
  · exact hu

theorem keep_enterShutdown (K : Closed false Z P) (hz : Z z) (h : P t) : P (enterShutdown z t) := by
  have h1 := keep_enterZoneState K hz .shutdown (keep_setZone K hz (shutdownRec t z) h)
  simp only [enterShutdown]
  apply keep_parkCranes K hz
  apply keep_sendPanel K
  split
  · exact keep_modStation K hz _ h1
  · exact h1

theorem keep_orderRecovery (K : Closed false Z P) (hz : Z z) (h : P t) : P (orderRecovery z t) := by
  simp only [orderRecovery]
  apply keep_homeCranes K hz
  apply keep_liftParkOrders K hz
  split
  · exact keep_resendTasks K _ (keep_reopenOrder K hz h)
  · exact h

theorem keep_enterRecovery (K : Closed false Z P) (hz : Z z) (h : P t) : P (enterRecovery z t) :=
  keep_orderRecovery K hz (keep_enterZoneState K hz _ (keep_setZone K hz _ h))

theorem keep_fireTaken (K : Closed false Z P) (hz : Z z) (h : P t) : P (fireTaken z t) := by
  unfold fireTaken
  split
  case h_4 | h_5 => exact keep_setZone K hz _ h
  case h_6 => exact keep_enterZoneState K hz _ (keep_setZone K hz _ h)
  all_goals exact keep_enterShutdown K hz h

theorem keep_clearTaken (K : Closed k Z P) (hz : Z z) (h : P t) : P (clearTaken z t) := by
  unfold clearTaken
  split
  case h_1 | h_2 =>
    split
    · exact h
    · exact keep_setZone K hz _ h
  all_goals exact h

theorem keep_alertChanged (K : Closed k Z P) (hz : Z z) (h : P t) : P (alertChanged z t) := by
  unfold alertChanged
  split
  · exact keep_enterZoneState K hz _ h
  · exact keep_enterZoneState K hz _ h
  · exact h

theorem keep_actOnLevels (K : Closed false Z P) (hz : Z z) (before : State) (h : P t) : P (actOnLevels before z t) := by
  simp only [actOnLevels]
  have h1 : P (if (fireLevel t z && !fireLevel before z) = true then fireTaken z t else t) := by
    split
    · exact keep_fireTaken K hz h
    · exact h
  have h2 : P (if (clearLevel t z && !clearLevel before z) = true then
      clearTaken z (if (fireLevel t z && !fireLevel before z) = true then fireTaken z t else t)
      else if (fireLevel t z && !fireLevel before z) = true then fireTaken z t else t) := by
    split
    · exact keep_clearTaken K hz h1
    · exact h1
  split
  · exact keep_alertChanged K hz h2
  · exact h2

theorem keep_drillZone (K : Closed false Z P) (hz : Z z) (c : DrillCode) (h : P t) : P (drillZone z c t) :=
  keep_actOnLevels K hz _ (keep_setZone K hz _ h)

/-- An event of one zone keeps the property if its own effect does. -/
theorem keep_eventOf (K : Closed k Z P) (hz : Z z) {f : State → State} (h : P (f t)) : P (eventOf z f t) :=
  keep_settleZone K hz _ h

/-- An event of every zone keeps the property if its own effect does. -/
theorem keep_eventOfAll (K : Closed k (fun _ => True) P) {f : State → State} (h : P (f t)) : P (eventOfAll f t) := by
  simp only [eventOfAll, settleAll, stationList, List.foldl_cons, List.foldl_nil]
  iterate 4 apply keep_settleZone K trivial
  exact h

/-- A crane's report or timer keeps the property if its own effect does. -/
theorem keep_craneEvent (K : Closed k Z P) {a : Aisle} (ha : Z (zoneOf a)) {f : State → State} (hf : P (f t)) (h : P t) :
    P (craneEvent a f t) := by
  unfold craneEvent outsideReset
  split
  · exact h
  · exact keep_eventOf K ha hf

end Sys2Proof.Machine
end

