-- ==== Sys2Proof/Laws/Frames.lean ====
section
/-! SUPPORT. Frames: what an event of one zone leaves alone, from the induction of Laws/Closed; and what the part does on its
own after an event. -/

namespace Sys2Proof.Machine

variable {k : Bool} {z : Station} {s t : State}

/-! ### The frame of a zone -/

theorem Frame.refl : Frame k z s s :=
  ⟨rfl, rfl, fun _ h => h, List.prefix_refl _, fun _ _ => rfl, fun _ _ => rfl, fun _ _ => rfl, fun _ _ => rfl,
    fun _ _ => rfl, fun _ _ => rfl, fun _ => rfl, fun _ _ => rfl, fun _ _ => rfl⟩

theorem Frame.trans {u : State} (h : Frame k z s t) (g : Frame k z t u) : Frame k z s u where
  ledger := g.ledger.trans h.ledger
  link := by rw [g.link, h.link]
  attention i hi := g.attention i (h.attention i hi)
  sent := h.sent.trans g.sent
  cranes a ha := (g.cranes a ha).trans (h.cranes a ha)
  aisles a ha := (g.aisles a ha).trans (h.aisles a ha)
  forkMarks a ha := (g.forkMarks a ha).trans (h.forkMarks a ha)
  stations y hy := (g.stations y hy).trans (h.stations y hy)
  zones y hy := (g.zones y hy).trans (h.zones y hy)
  crossings y hy := (g.crossings y hy).trans (h.crossings y hy)
  slots hk := (g.slots hk).trans (h.slots hk)
  bins hk n := (g.bins hk n).trans (h.bins hk n)
  visits hk n := (g.visits hk n).trans (h.visits hk n)

/-- A frame that leaves the records too is a frame. -/
theorem Frame.weaken (h : Frame true z s t) : Frame false z s t :=
  { h with
    slots := by simp
    bins := by simp
    visits := by simp }

theorem visit_mapped (f : Nat → VisitRec → VisitRec) (n : Nat) :
    visit { t with visits := tableMap f t.visits } n = (visit t n).map (f n) := tableGet_map _ _ _

/-- A change of one bin's record, with what it does to the books of bins. -/
theorem frame_bin (b : Nat) (f : BinRec → BinRec)
    (hf : k = true → ∀ n, (bin (modBin b f t) n).map BinRec.books = (bin t n).map BinRec.books) :
    Frame k z t (modBin b f t) where
  ledger := by simp [State.ledger]
  link := by simp
  attention := by simp
  sent := by simp
  cranes _ _ := crane_congr (by simp) _
  aisles _ _ := aisleRec_congr (by simp) _
  forkMarks _ _ := forkMark_congr (by simp) _
  stations _ _ := station_congr (by simp) _
  zones _ _ := zone_congr (by simp) _
  crossings _ _ := crossingMark_congr (by simp) _
  slots := by simp
  bins := hf
  visits _ n := by simp [visit]

/-- The frame of an event of zone `z` is kept by every operation of that zone. -/
theorem frame_closed (k : Bool) (z : Station) (s : State) : Closed k (fun y => y = z) (Frame k z s) where
  crane a c t ha h := h.trans { (Frame.refl : Frame k z t t) with
    cranes := fun b hb => crane_setCrane_ne (fun e => hb (by rw [e]; exact ha)) c t }
  aisle a r t ha h := h.trans { (Frame.refl : Frame k z t t) with
    aisles := fun b hb => aisleRec_setAisle_ne (fun e => hb (by rw [e]; exact ha)) r t }
  fork a m t ha h := h.trans { (Frame.refl : Frame k z t t) with
    forkMarks := fun b hb => forkMark_setForkMark_ne (fun e => hb (by rw [e]; exact ha)) m t }
  station y r t hy h := h.trans { (Frame.refl : Frame k z t t) with
    stations := fun x hx => station_setStation_ne (by rw [hy]; exact hx) r t }
  zone y r t hy h := h.trans { (Frame.refl : Frame k z t t) with
    zones := fun x hx => zone_setZone_ne (by rw [hy]; exact hx) r t }
  crossing y m t hy h := h.trans { (Frame.refl : Frame k z t t) with
    crossings := fun x hx => crossingMark_setCrossingMark_ne (by rw [hy]; exact hx) m t }
  attention n t h := h.trans { (Frame.refl : Frame k z t t) with
    link := rfl
    attention := fun i hi => by
      show (t.link.attention ||| attentionWord n).getLsbD i = true
      simp [hi] }
  drive a m t h := h.trans { (Frame.refl : Frame k z t t) with sent := List.prefix_append _ _ }
  panel y m t h := h.trans { (Frame.refl : Frame k z t t) with sent := List.prefix_append _ _ }
  place b f t hf h := h.trans (frame_bin b f fun _ n => by
    rw [bin_modBin]
    split
    · rename_i e
      subst e
      cases bin t n <;> simp [hf]
    · rfl)
  visit n v w t hw hv h := h.trans { (Frame.refl : Frame k z t t) with
    visits := fun _ m => by
      rw [visit_setVisit]
      split
      · rename_i e
        subst e
        simp [hw, hv]
      · rfl }
  visits f t hf h := h.trans { (Frame.refl : Frame k z t t) with
    visits := fun _ n => by
      rw [visit_mapped]
      cases visit t n <;> simp [hf] }
  anyBin hk b f t h := h.trans (frame_bin b f fun hk' => by simp [hk] at hk')
  slot hk sl e t h := h.trans { (Frame.refl : Frame k z t t) with slots := fun hk' => by simp [hk] at hk' }
  anyVisit hk n v t _ h := h.trans { (Frame.refl : Frame k z t t) with visits := fun hk' => by simp [hk] at hk' }

/-- What an event makes possible in a zone touches that zone's blocks alone; of the records it changes only places of bins and
states, holds and reservations of visits, and of the link only attention bits, which it sets. -/
theorem settleZone_frame (before : State) (z : Station) (s : State) : Frame true z s (settleZone before z s) :=
  keep_settleZone (frame_closed true z s) rfl before Frame.refl

/-! ### What the part does on its own after an event -/

/-- The clauses of `Settled` beyond the frame. -/
structure Quiet (z : Station) (s t : State) : Prop where
  busy    : ∀ a : Aisle, isFree s a = false → (crane t a).kept = (crane s a).kept
  body    : ∀ a : Aisle, (crane t a).body = (crane s a).body
  service : ∀ a : Aisle, (aisleRec t a).suspension = (aisleRec s a).suspension
  desk    : ∀ y : Station, (station t y).desk = (station s y).desk
  orders  : ∀ y : Station, (zone t y).orders = (zone s y).orders
  lane    : (station t z).lane <:+ (station s z).lane
  places  : ∀ b : Nat, b ∉ (station s z).lane → bin t b = bin s b
  lasting : ∀ n : Nat, (visit t n).map VisitRec.lasting = (visit s n).map VisitRec.lasting

theorem Quiet.refl : Quiet z s s :=
  ⟨fun _ _ => rfl, fun _ => rfl, fun _ => rfl, fun _ => rfl, fun _ => rfl, List.suffix_refl _, fun _ _ => rfl, fun _ => rfl⟩

/-- A crane's record decides whether it is free, whatever leg was dropped. -/
theorem isFree_kept {a : Aisle} (h : (crane t a).kept = (crane s a).kept) : isFree t a = isFree s a := by
  have h1 : (crane t a).state = (crane s a).state := by
    have := congrArg CraneRec.state h
    exact this
  have h2 : (crane t a).leg = (crane s a).leg := by
    have := congrArg CraneRec.leg h
    exact this
  simp [isFree, h1, h2]

theorem Quiet.free {a : Aisle} (h : Quiet z s t) (hf : isFree t a = true) : isFree s a = true := by
  cases hs : isFree s a with
  | true => rfl
  | false =>
    rw [isFree_kept (h.busy a hs), hs] at hf
    cases hf

/-- The blocks' records are the same. -/
theorem Quiet.same {u : State} (h : Quiet z s t) (hc : u.cranes = t.cranes) (ha : u.aisles = t.aisles)
    (hs : u.stations = t.stations) (hz : u.zones = t.zones) (hb : u.bins = t.bins) (hv : u.visits = t.visits) :
    Quiet z s u where
  busy a hf := by rw [crane_congr hc]; exact h.busy a hf
  body a := by rw [crane_congr hc]; exact h.body a
  service a := by rw [aisleRec_congr ha]; exact h.service a
  desk y := by rw [station_congr hs]; exact h.desk y
  orders y := by rw [zone_congr hz]; exact h.orders y
  lane := by rw [station_congr hs]; exact h.lane
  places b hl := by rw [bin_congr hb]; exact h.places b hl
  lasting n := by rw [visit_congr hv]; exact h.lasting n

/-- Only visits change, and they keep what lasts. -/
theorem Quiet.sameVisits {u : State} (h : Quiet z s t) (hu : { u with visits := t.visits } = t)
    (hv : ∀ n, (visit u n).map VisitRec.lasting = (visit t n).map VisitRec.lasting) : Quiet z s u := by
  have h1 : Quiet z s { u with visits := t.visits } := by rw [hu]; exact h
  exact ⟨h1.busy, h1.body, h1.service, h1.desk, h1.orders, h1.lane, h1.places, fun n => (hv n).trans (h.lasting n)⟩

theorem quiet_freeCrane {a : Aisle} (hf : isFree s a = true) {c : CraneRec} (hc : c.body = (crane t a).body)
    (h : Quiet z s t) : Quiet z s (setCrane a c t) :=
  { h with
    body := fun b => by
      by_cases e : b = a
      · subst e
        rw [crane_setCrane]
        exact hc.trans (h.body b)
      · rw [crane_setCrane_ne e]
        exact h.body b
    busy := fun b hb => by
      have hba : b ≠ a := fun e => by rw [e, hf] at hb; cases hb
      rw [crane_setCrane_ne hba]
      exact h.busy b hb }

theorem quiet_dropped {a : Aisle} (l : Option LegRec) {c : CraneRec} (hc : c.kept = (crane t a).kept) (h : Quiet z s t) :
    Quiet z s (setCrane a { c with dropped := l } t) :=
  { h with
    body := fun b => by
      by_cases e : b = a
      · subst e
        rw [crane_setCrane]
        exact (show ({ c with dropped := l } : CraneRec).body = c.kept.body from rfl).trans
          ((congrArg CraneRec.body hc).trans (h.body b))
      · rw [crane_setCrane_ne e]
        exact h.body b
    busy := fun b hb => by
      by_cases e : b = a
      · subst e
        rw [crane_setCrane]
        exact (show ({ c with dropped := l } : CraneRec).kept = c.kept from rfl).trans (hc.trans (h.busy b hb))
      · rw [crane_setCrane_ne e]
        exact h.busy b hb }

theorem quiet_setAisle {a : Aisle} {r : AisleRec} (hr : r.suspension = (aisleRec t a).suspension) (h : Quiet z s t) :
    Quiet z s (setAisle a r t) :=
  { h with
    service := fun b => by
      by_cases e : b = a
      · subst e
        rw [aisleRec_setAisle, hr]
        exact h.service b
      · rw [aisleRec_setAisle_ne e]
        exact h.service b }

theorem quiet_setStation {x : Station} {r : StationRec} (hr : r.desk = (station t x).desk)
    (hl : r.lane <:+ (station t x).lane) (h : Quiet z s t) : Quiet z s (setStation x r t) :=
  { h with
    desk := fun y => by
      by_cases e : y = x
      · subst e
        rw [station_setStation, hr]
        exact h.desk y
      · rw [station_setStation_ne e]
        exact h.desk y
    lane := by
      by_cases e : z = x
      · subst e
        rw [station_setStation]
        exact hl.trans h.lane
      · rw [station_setStation_ne e]
        exact h.lane }

theorem quiet_setZone {x : Station} {r : ZoneRec} (hr : r.orders = (zone t x).orders) (h : Quiet z s t) :
    Quiet z s (setZone x r t) :=
  { h with
    orders := fun y => by
      by_cases e : y = x
      · subst e
        rw [zone_setZone, hr]
        exact h.orders y
      · rw [zone_setZone_ne e]
        exact h.orders y }

theorem quiet_modVisit (n : Nat) {f : VisitRec → VisitRec} (hf : ∀ v, (f v).lasting = v.lasting) (h : Quiet z s t) :
    Quiet z s (modVisit n f t) :=
  h.sameVisits (by unfold modVisit; split <;> rfl) fun m => by
    rw [visit_modVisit]
    split
    · rename_i e
      subst e
      cases visit t m <;> simp [hf]
    · rfl

/-- A bin of the lane as the event found it may move. -/
theorem quiet_modBin {b : Nat} (f : BinRec → BinRec) (hb : b ∈ (station s z).lane) (h : Quiet z s t) :
    Quiet z s (modBin b f t) :=
  have h1 : Quiet z s { modBin b f t with bins := t.bins } :=
    h.same (by simp) (by simp) (by simp) (by simp) rfl (by simp)
  { busy := h1.busy
    body := h1.body
    service := h1.service
    desk := h1.desk
    orders := h1.orders
    lane := h1.lane
    places := fun c hc => by
      rw [bin_modBin, if_neg (fun e => hc (by rw [e]; exact hb))]
      exact h.places c hc
    lasting := h1.lasting }

/-! The lane. -/

theorem quiet_setReservations (a : Aisle) (n : Nat) (h : Quiet z s t) : Quiet z s (setReservations a n t) :=
  quiet_setStation (by split <;> rfl) (by split <;> exact List.suffix_refl _) h

theorem quiet_setWaiting (a : Aisle) (w : Bool) (h : Quiet z s t) : Quiet z s (setWaiting a w t) :=
  quiet_setStation (by split <;> rfl) (by split <;> exact List.suffix_refl _) h

theorem quiet_returnGrant (a : Aisle) (h : Quiet z s t) : Quiet z s (returnGrant a t) := by
  unfold returnGrant
  split
  · exact quiet_setReservations _ _ (quiet_setAisle rfl h)
  · exact h

theorem quiet_takePlace (a : Aisle) (h : Quiet z s t) : Quiet z s (takePlace a t) :=
  quiet_setStation rfl (List.suffix_refl _) (quiet_setWaiting _ _ (quiet_setReservations _ _ h))

theorem quiet_grantArrives (a : Aisle) (h : Quiet z s t) : Quiet z s (grantArrives a t) := by
  have h1 : Quiet z s (setAisle a { aisleRec (takePlace a t) a with grant := true } (takePlace a t)) :=
    quiet_setAisle rfl (quiet_takePlace a h)
  simp only [grantArrives]
  split
  case h_1 | h_2 | h_3 | h_4 => exact quiet_returnGrant _ h1
  all_goals exact h1

/-! A leg is handed to a free crane. -/

theorem quiet_issue {a : Aisle} (hf : isFree s a = true) (g : SegmentRec) (x : Bool) (h : Quiet z s t) :
    Quiet z s (issue a g x t) := by
  have h1 := quiet_freeCrane hf (show (issuedRec t (crane t a) g x).body = (crane t a).body from rfl) h
  simp only [issue]
  split <;> split <;> exact h1.same rfl rfl rfl rfl rfl rfl

theorem quiet_proceed {a : Aisle} (hf : isFree s a = true) (x : Bool) (h : Quiet z s t) : Quiet z s (proceed a x t) := by
  simp only [proceed]
  split
  · exact h
  · split
    · split
      · split
        · split
          · exact quiet_issue hf _ _ (quiet_freeCrane hf rfl h)
          · exact quiet_issue hf _ _ (quiet_freeCrane hf rfl h)
        · exact quiet_issue hf _ _ h
      · exact quiet_issue hf _ _ h
    · exact quiet_issue hf _ _ h

theorem quiet_handLeg {a : Aisle} (hf : isFree s a = true) (c : Candidate) (h : Quiet z s t) : Quiet z s (handLeg a c t) :=
  quiet_freeCrane hf rfl (quiet_proceed hf _ (quiet_freeCrane hf rfl (quiet_modVisit _ (fun _ => rfl) h)))

theorem quiet_obtainPlace {a : Aisle} {n : Nat} {u : State} (h : Quiet z s t) (hu : obtainPlace a n t = some u) : Quiet z s u := by
  unfold obtainPlace at hu
  split at hu
  · cases hu
    exact quiet_modVisit _ (fun _ => rfl) (quiet_setAisle rfl h)
  · split at hu
    · cases hu
    · split at hu
      · cases hu
        exact quiet_modVisit _ (fun _ => rfl) (quiet_takePlace _ h)
      · cases hu

theorem quiet_chooseNew {a : Aisle} (hf : isFree s a = true) (cs : List Candidate) (h : Quiet z s t) :
    Quiet z s (chooseNew a cs t) := by
  simp only [chooseNew]
  split
  · exact h
  · split
    · split
      · rename_i u hu
        exact quiet_handLeg hf _ (quiet_obtainPlace h hu)
      · split
        · exact quiet_handLeg hf _ (quiet_setWaiting _ _ h)
        · exact quiet_setWaiting _ _ h
    · exact quiet_handLeg hf _ h

theorem quiet_chooseCarried {a : Aisle} (hf : isFree s a = true) (b : Nat) (cs : List Candidate) (h : Quiet z s t) :
    Quiet z s (chooseCarried a b cs t) := by
  simp only [chooseCarried]
  split
  · exact h
  · split
    · split
      · rename_i u hu
        exact quiet_handLeg hf _ (quiet_obtainPlace h hu)
      · exact quiet_setWaiting _ _ h
    · exact quiet_handLeg hf _ h

theorem quiet_choose (a : Aisle) (h : Quiet z s t) : Quiet z s (choose a t) := by
  simp only [choose]
  split
  · rename_i hc
    simp only [Bool.and_eq_true] at hc
    have hf := h.free hc.1
    have h1 : Quiet z s (chooseLeg a (candidates t a) t) := by
      unfold chooseLeg
      split
      · exact quiet_chooseCarried hf _ _ h
      · split
        · exact quiet_handLeg hf _ h
        · exact quiet_chooseNew hf _ h
    split
    · exact quiet_returnGrant _ h1
    · exact h1
  · exact h

theorem quiet_schedule (fuel : Nat) (due : List Aisle) (h : Quiet z s t) : Quiet z s (schedule z fuel due t) := by
  induction fuel generalizing due t with
  | zero => exact h
  | succ fuel ih =>
    simp only [schedule]
    split
    · exact ih _ (quiet_grantArrives _ h)
    · split
      · exact h
      · exact ih _ (quiet_choose _ h)

/-! Crossings, a waiting close order and the passage of the zone. -/

theorem quiet_placeLane (i : Nat) (bs : List Nat) (hb : ∀ b ∈ bs, b ∈ (station s z).lane) (h : Quiet z s t) :
    Quiet z s (placeLane z i bs t) := by
  induction bs generalizing i t with
  | nil => exact h
  | cons b bs ih =>
    exact ih _ (fun c hc => hb c (List.mem_cons_of_mem _ hc)) (quiet_modBin _ (hb b List.mem_cons_self) h)

theorem quiet_leaveLane {b : Nat} (hb : b ∈ (station t z).lane) (h : Quiet z s t) : Quiet z s (leaveLane z b t) :=
  quiet_placeLane _ _ (fun _ hc => h.lane.subset (List.mem_of_mem_tail hc))
    (quiet_modBin _ (h.lane.subset hb)
      (quiet_setStation (x := z) (r := { station t z with lane := (station t z).lane.tail }) rfl (List.tail_suffix _) h))

theorem quiet_beginCrossing (c : CrossingKind) (b : Nat) (h : Quiet z s t) : Quiet z s (beginCrossing z c b t) :=
  (quiet_setStation (z := z) (r := { station t z with
    crossing := some ⟨c, b, t.time.ms, false, 1000 * param t 30⟩, openingBin := some b }) rfl (List.suffix_refl _) h).same rfl rfl rfl rfl rfl rfl

theorem quiet_setVisitState (b : Nat) (st : VisitState) (h : Quiet z s t) : Quiet z s (setVisitState b st t) := by
  unfold setVisitState
  split
  · exact quiet_modVisit _ (fun _ => rfl) h
  · exact h

theorem quiet_startCrossings (h : Quiet z s t) : Quiet z s (startCrossings z t) := by
  have h1 : Quiet z s (tryWithdraw z t) := by
    unfold tryWithdraw
    dsimp only
    repeat' split
    all_goals first
      | exact h
      | exact quiet_beginCrossing _ _ h
  unfold startCrossings
  generalize tryWithdraw z t = u at h1
  simp only [tryPresent]
  split
  · split
    · exact h1
    · rename_i b hb
      split
      · apply quiet_beginCrossing
        apply quiet_setVisitState
        split
        · exact h1
        · rename_i hn
          refine quiet_leaveLane ?_ h1
          unfold binToPresent at hb
          split at hb
          · rename_i c hc
            simp [hc] at hn
          · exact List.mem_of_mem_head? hb
      · exact h1
  · exact h1

theorem lasting_liftedVisit (bins : Table BinRec) {r : HoldReason} (hr : r = .fire ∨ r = .reset) (v : VisitRec) :
    (liftedVisit bins r v).lasting = v.lasting := by
  simp only [liftedVisit]
  rcases hr with rfl | rfl <;> split <;> (try split) <;> rfl

theorem quiet_liftHoldWhere {r : HoldReason} (hr : r = .fire ∨ r = .reset) (p : Nat → VisitRec → Bool) (h : Quiet z s t) :
    Quiet z s (liftHoldWhere r p t) :=
  h.sameVisits rfl fun n => by
    rw [liftHoldWhere, visit_mapped]
    cases visit t n with
    | none => rfl
    | some v =>
      simp only [Option.map_some]
      split
      · rw [lasting_liftedVisit _ hr]
      · rfl

theorem quiet_reportReleased (h : Quiet z s t) : Quiet z s (reportReleased z t) := quiet_setZone rfl h

theorem quiet_releaseShutter (h : Quiet z s t) : Quiet z s (releaseShutter z t) :=
  quiet_setStation rfl (List.suffix_refl _) h

theorem quiet_carryClose (h : Quiet z s t) : Quiet z s (carryClose z t) := by
  simp only [carryClose]
  split
  · split
    · split
      · exact quiet_reportReleased (quiet_releaseShutter h)
      · exact h
    · exact quiet_reportReleased (quiet_releaseShutter h)
    all_goals
      split
      · exact h
      · exact quiet_reportReleased h
  · exact h

theorem quiet_enterZoneState (st : ZoneState) (h : Quiet z s t) : Quiet z s (enterZoneState z st t) :=
  (quiet_setZone (z := z) (r := { zone t z with state := st }) rfl h).same rfl rfl rfl rfl rfl rfl

theorem quiet_addFire (n : Nat) (h : Quiet z s t) : Quiet z s (addHold .fire n t) :=
  h.sameVisits rfl fun m => by
    rw [addHold, addHoldWhere, visit_mapped]
    cases visit t m with
    | none => rfl
    | some v =>
      simp only [Option.map_some]
      split <;> rfl

theorem quiet_holdSettled (c : CraneRec) (h : Quiet z s t) : Quiet z s (holdSettled c t) := by
  have hb : ∀ (b : Nat) {u : State}, Quiet z s u → Quiet z s (holdBinVisit .fire b u) := fun b u hu => by
    unfold holdBinVisit
    split
    · exact quiet_addFire _ hu
    · exact hu
  simp only [holdSettled]
  repeat' split
  all_goals try apply hb
  all_goals first
    | exact h
    | exact quiet_addFire _ h
    | exact quiet_addFire _ (quiet_addFire _ h)

theorem quiet_settleCrane (a : Aisle) (h : Quiet z s t) : Quiet z s (settleCrane a t) := by
  have h1 : ∀ x, Quiet z s (setSettledMark a x t) := fun x => quiet_setZone (by split <;> rfl) h
  simp only [settleCrane]
  split
  · exact h
  · split
    · exact h1 _
    · split
      · exact h
      · exact quiet_dropped _ (by rfl) (quiet_holdSettled _ (h1 _))

theorem quiet_recoverCrane (a : Aisle) (h : Quiet z s t) : Quiet z s (recoverCrane a t) := by
  unfold recoverCrane
  split
  · exact quiet_setZone (by split <;> rfl) h
  · exact h

theorem quiet_tryAwait (h : Quiet z s t) : Quiet z s (tryAwait z t) := by
  unfold tryAwait
  split
  · exact quiet_enterZoneState _ h
  · exact h

theorem quiet_zoneProgress (h : Quiet z s t) : Quiet z s (zoneProgress z t) := by
  unfold zoneProgress
  simp only [zoneAisles, List.foldl_cons, List.foldl_nil]
  split
  · have h1 := quiet_settleCrane (aisle1 z) (quiet_settleCrane (aisle0 z) h)
    unfold trySeal
    split
    · exact quiet_tryAwait (quiet_enterZoneState _ h1)
    · exact h1
  · have h1 := quiet_recoverCrane (aisle1 z) (quiet_recoverCrane (aisle0 z) h)
    unfold tryReopenZone
    split
    · exact quiet_liftHoldWhere (.inl rfl) _ (quiet_enterZoneState _ h1)
    · exact h1
  · exact quiet_tryAwait h
  all_goals exact h

/-- What an event makes possible in a zone: all that `settleZone` can do. -/
theorem settleZone_settled (before : State) (z : Station) (s : State) : Settled z s (settleZone before z s) := by
  have hq : Quiet z s (settleZone before z s) := by
    apply quiet_schedule
    apply quiet_startCrossings
    have h1 : Quiet z s (zoneProgress z (carryClose z s)) := quiet_zoneProgress (quiet_carryClose Quiet.refl)
    unfold liftCrossingResets
    split
    · exact quiet_liftHoldWhere (.inr rfl) _ h1
    · exact h1
  exact { settleZone_frame before z s with
    busy := hq.busy
    body := hq.body
    places := hq.places
    lasting := hq.lasting
    service := hq.service
    desk := hq.desk
    orders := hq.orders }

end Sys2Proof.Machine
end

