-- ==== Sys2Proof/Laws/Link.lean ====
section
/-! SUPPORT. What the Link Interface does with a command message: an idle link examines it and answers, a busy link sets LATE.
The effect of a command does not depend on the command buffer. -/

namespace Sys2Proof.Machine

variable {s t u : State} {z : Station} {k : Bool}

theorem commandBody_length (p : List Byte) : (commandBody p).length = p.length + 1 := rfl

/-- A message whose length byte and byte count fit its command has good framing and length. -/
theorem commandBody_ok (code : Byte) {p : List Byte} {len : Nat} (hp : p.length = len) (hl : len ≤ 30) :
    (badFraming (code :: commandBody p) || badLength len (commandBody p)) = false := by
  have h1 : byteAt (commandBody p) 0 = len := by
    simp only [byteAt, commandBody, List.getD_cons_zero, BitVec.toNat_ofNat, hp]
    omega
  simp only [badFraming, badLength, h1, List.length_cons, commandBody_length, hp, Config.messageLimit, bne_self_eq_false,
    Bool.false_or, Bool.or_eq_false_iff, decide_eq_false_iff_not]
  exact ⟨by omega, trivial⟩

/-- An idle link examines a message of the right length by its command's own rule, from the state with the message in the
command buffer. -/
theorem takeCommand_idle {code : Byte} {len : Nat} {m : Modes} {run : List Byte → State → Result} {p : List Byte}
    (hs : linkIdle s) (hp : p.length = len) (hl : len ≤ 30) :
    takeCommand code len m run (commandBody p) s =
      answer (loadCommand (code :: commandBody p) s)
        (modeCheck m (loadCommand (code :: commandBody p) s) (run p (loadCommand (code :: commandBody p) s))) := by
  simp only [takeCommand, hs.1, hs.2, Bool.false_eq_true, if_false, commandBody_ok code hp hl, refuseIf]
  rfl

/-- A busy link discards a command write and sets LATE (R165). -/
theorem takeCommand_busy {code : Byte} {len : Nat} {m : Modes} {run : List Byte → State → Result} (body : List Byte)
    (hr : inReset s = false) (hb : linkBusy s = true) : takeCommand code len m run body s = setLate s := by
  simp [takeCommand, hr, hb]

/-- A part in a reset takes no command (R179). -/
theorem takeCommand_reset {code : Byte} {len : Nat} {m : Modes} {run : List Byte → State → Result} (body : List Byte)
    (hr : inReset s = true) : takeCommand code len m run body s = s := by
  simp [takeCommand, hr]

/-- An idle link refuses a message whose framing or length is wrong (R165 steps 1 and 3). -/
theorem takeCommand_badLength {code : Byte} {len : Nat} {m : Modes} {run : List Byte → State → Result} {body : List Byte}
    (hs : linkIdle s) (hb : (badFraming (code :: body) || badLength len body) = true) :
    takeCommand code len m run body s = writeReply .badLength [] s := by
  simp only [takeCommand, hs.1, hs.2, Bool.false_eq_true, if_false, hb, refuseIf, if_true]
  rfl

/-- The reply to a command does not show the command buffer that was filled for it. -/
@[simp] theorem writeReply_loadCommand (c : OutcomeCode) (d m : List Byte) (s : State) :
    writeReply c d (loadCommand m s) = writeReply c d s := rfl

/-- A state with the command buffer and CMD_BUSY of another. -/
def unload (s t : State) : State :=
  { t with link := { t.link with command := s.link.command, cmdBusy := s.link.cmdBusy } }

@[simp] theorem writeReply_unload (c : OutcomeCode) (d : List Byte) (s t : State) :
    writeReply c d (unload s t) = writeReply c d t := rfl

/-- What an event makes possible is the same before the message is in the buffer. -/
theorem settled_unload {m : List Byte} (h : Settled z (loadCommand m s) t) : Settled z s (unload s t) where
  ledger := h.ledger
  link := by
    have := h.link
    show { t.link with command := s.link.command, cmdBusy := s.link.cmdBusy } = { s.link with attention := t.link.attention }
    rw [this]
    rfl
  attention := h.attention
  sent := h.sent
  cranes := h.cranes
  aisles := h.aisles
  forkMarks := h.forkMarks
  stations := h.stations
  zones := h.zones
  crossings := h.crossings
  slots := h.slots
  bins := h.bins
  visits := h.visits
  busy := h.busy
  body := h.body
  service := h.service
  desk := h.desk
  orders := h.orders
  places := h.places
  lasting := h.lasting

/-- The frame of a zone is the same before the message is in the buffer. -/
theorem frame_unload {m : List Byte} (h : Frame k z (loadCommand m s) t) : Frame k z s (unload s t) where
  ledger := h.ledger
  link := by
    have := h.link
    show { t.link with command := s.link.command, cmdBusy := s.link.cmdBusy } = { s.link with attention := t.link.attention }
    rw [this]
    rfl
  attention := h.attention
  sent := h.sent
  cranes := h.cranes
  aisles := h.aisles
  forkMarks := h.forkMarks
  stations := h.stations
  zones := h.zones
  crossings := h.crossings
  slots := h.slots
  bins := h.bins
  visits := h.visits

/-! ### The two parts of a read transaction -/

/-- A read-reply transaction with nothing between its capture and its end is the whole row (R164, R168). -/
theorem finishReply_capture (n : Nat) (h : s.link.reading = none) : finishReply n (capture captureReply s) = readReplyEnd n s := by
  rcases s with ⟨⟩
  simp_all only [capture, captureReply, setReading, finishReply, readReplyEnd, replySent]
  split <;> simp_all

/-- A read-status transaction with nothing between its capture and its end is the whole row (R164, R169). -/
theorem finishStatus_capture (h : s.link.reading = none) : finishStatus (capture captureStatus s) = readStatusEnd s := by
  simp only [capture, h, Option.isSome_none, Bool.false_eq_true, if_false, captureStatus, finishStatus, setReading, readStatusEnd]

/-- A read-and-clear transaction with nothing between its capture and its end is the whole row (R164, R171). -/
theorem finishAttention_capture (h : s.link.reading = none) :
    finishAttention (capture captureAttention s) = readAttentionEnd s := by
  simp only [capture, h, Option.isSome_none, Bool.false_eq_true, if_false, captureAttention, finishAttention, setReading,
    readAttentionEnd, BitVec.and_not_self]

end Sys2Proof.Machine
end

