-- ==== Sys2Proof/Laws/Loading.lean ====
section
/-! SUPPORT. What an event makes possible does not look at the command buffer: each operation of `settleZone` commutes with the
taking of a message, so a command's effect is that of its rule on the state before the message (R165). -/

namespace Sys2Proof.Machine

variable {m : List Byte} {s t : State} {a : Aisle} {z : Station}

/-- The operation gives the same with the message in the buffer. -/
def Commutes (m : List Byte) (f : State → State) : Prop := ∀ s, f (loadCommand m s) = loadCommand m (f s)

theorem commutes_modVisit (n : Nat) (f : VisitRec → VisitRec) : Commutes m (modVisit n f) := by
  intro s
  show (match visit s n with | some v => _ | none => _) = loadCommand m (match visit s n with | some v => _ | none => _)
  cases visit s n <;> rfl

theorem commutes_modBin (b : Nat) (f : BinRec → BinRec) : Commutes m (modBin b f) := by
  intro s
  show (match bin s b with | some r => _ | none => _) = loadCommand m (match bin s b with | some r => _ | none => _)
  cases bin s b <;> rfl

theorem commutes_returnGrant (a : Aisle) : Commutes m (returnGrant a) := by
  intro s
  show (if (aisleRec s a).grant = true then _ else _) = loadCommand m (if (aisleRec s a).grant = true then _ else _)
  split <;> rfl

theorem commutes_issue (a : Aisle) (g : SegmentRec) (k : Bool) : Commutes m (issue a g k) := by
  intro s
  simp only [issue]
  have h : crane (loadCommand m s) a = crane s a := rfl
  rw [h]
  split <;> split <;> rfl

theorem commutes_proceed (a : Aisle) (k : Bool) : Commutes m (proceed a k) := by
  intro s
  simp only [proceed]
  have h : crane (loadCommand m s) a = crane s a := rfl
  have hg : ∀ l, legSegment (loadCommand m s) l = legSegment s l := fun _ => rfl
  rw [h]
  split
  · rfl
  · rw [hg]
    split
    · split
      · split
        · split
          · exact commutes_issue a _ k (setLeg a _ s)
          · exact commutes_issue a _ false (setLeg a _ s)
        · exact commutes_issue a _ k _
      · exact commutes_issue a _ k _
    · exact commutes_issue a _ k _

theorem commutes_handLeg (a : Aisle) (c : Candidate) : Commutes m (handLeg a c) := by
  intro s
  have h1 := commutes_modVisit (m := m) c.number (fun v => { v with state := legState c.kind }) s
  unfold handLeg
  dsimp only
  rw [h1]
  generalize modVisit c.number (fun v => { v with state := legState c.kind }) s = u
  have h2 := commutes_proceed (m := m) a false
    (setLeg a (some ⟨c.number, c.entry.bin, c.kind, c.continuation, if c.continuation then 2 else 0, false, false⟩) u)
  have h3 : ∀ l, setLeg a l (loadCommand m u) = loadCommand m (setLeg a l u) := fun _ => rfl
  have h4 : crane (loadCommand m s) a = crane s a := rfl
  rw [h3, h2, h4]
  rfl

theorem commutes_obtainPlace (a : Aisle) (n : Nat) (s : State) :
    obtainPlace a n (loadCommand m s) = (obtainPlace a n s).map (loadCommand m) := by
  unfold obtainPlace
  show (if (aisleRec s a).grant = true then _ else if waiting s a = true then _ else
    if 0 < freePlaces (station s (zoneOf a)) then _ else _) = _
  split
  · exact congrArg some (commutes_modVisit n _ (setAisle a { aisleRec s a with grant := false } s))
  · split
    · rfl
    · split
      · exact congrArg some (commutes_modVisit n _ (takePlace a s))
      · rfl

theorem firstRanked_load (a : Aisle) (cs : List Candidate) : firstRanked (loadCommand m s) a cs = firstRanked s a cs := by
  induction cs with
  | nil => rfl
  | cons c cs ih =>
    simp only [firstRanked, ih]
    rfl

theorem commutes_chooseNew (a : Aisle) (cs : List Candidate) : Commutes m (chooseNew a cs) := by
  intro s
  simp only [chooseNew, firstRanked_load, commutes_obtainPlace]
  split
  · rfl
  · split
    · cases obtainPlace a _ s with
      | some u => exact commutes_handLeg a _ u
      | none =>
        have h : firstRanked (loadCommand m s) a = firstRanked s a := funext fun cs => firstRanked_load a cs
        simp only [Option.map_none]
        split
        · exact commutes_handLeg a _ (setWaiting a true s)
        · rfl
    · exact commutes_handLeg a _ s

theorem commutes_chooseCarried (a : Aisle) (b : Nat) (cs : List Candidate) : Commutes m (chooseCarried a b cs) := by
  intro s
  simp only [chooseCarried, commutes_obtainPlace]
  split
  · rfl
  · split
    · cases obtainPlace a _ s with
      | some u => exact commutes_handLeg a _ u
      | none => rfl
    · exact commutes_handLeg a _ s

theorem commutes_chooseLeg (a : Aisle) (cs : List Candidate) : Commutes m (chooseLeg a cs) := by
  intro s
  simp only [chooseLeg]
  have h : (crane (loadCommand m s) a).carried = (crane s a).carried := rfl
  rw [h]
  split
  · exact commutes_chooseCarried a _ cs s
  · split
    · exact commutes_handLeg a _ s
    · exact commutes_chooseNew a _ s

theorem commutes_choose (a : Aisle) : Commutes m (choose a) := by
  intro s
  simp only [choose]
  show (if (isFree s a && service s a == .inService) = true then
    if ((aisleRec (chooseLeg a (candidates s a) (loadCommand m s)) a).grant && !(candidates s a).any (·.needsPlace)) = true then
      returnGrant a (chooseLeg a (candidates s a) (loadCommand m s)) else chooseLeg a (candidates s a) (loadCommand m s)
    else loadCommand m s) = _
  rw [commutes_chooseLeg]
  split
  · rw [commutes_returnGrant]
    show (if ((aisleRec (chooseLeg a (candidates s a) s) a).grant && _) = true then _ else _) = _
    split <;> rfl
  · rfl

theorem commutes_grantArrives (a : Aisle) : Commutes m (grantArrives a) := by
  intro s
  simp only [grantArrives]
  have h : (crane (loadCommand m s) a).state = (crane s a).state := rfl
  rw [h]
  have h1 := commutes_returnGrant (m := m) a
    (setAisle a { aisleRec (takePlace a s) a with grant := true } (takePlace a s))
  split <;> first | exact h1 | rfl

theorem commutes_schedule (n : Nat) (due : List Aisle) : Commutes m (schedule z n due) := by
  intro s
  induction n generalizing due s with
  | zero => rfl
  | succ n ih =>
    simp only [schedule]
    have h : nextGrant (loadCommand m s) z = nextGrant s z := rfl
    rw [h]
    split
    · rw [commutes_grantArrives, ih]
      rfl
    · split
      · rfl
      · rw [commutes_choose, ih]

theorem choiceDue_load (before s : State) (a : Aisle) :
    choiceDue (loadCommand m before) (loadCommand m s) a = choiceDue before s a := rfl

theorem commutes_scheduleZone (before s : State) :
    scheduleZone (loadCommand m before) z (loadCommand m s) = loadCommand m (scheduleZone before z s) := by
  have h : choiceDue (loadCommand m before) (loadCommand m s) = choiceDue before s := funext (choiceDue_load before s)
  unfold scheduleZone
  rw [h]
  generalize 12 = n
  exact commutes_schedule n _ s

/-! Crossings, a waiting close order and the passage of the zone. -/

theorem commutes_placeLane (i : Nat) (bs : List Nat) : Commutes m (placeLane z i bs) := by
  intro s
  induction bs generalizing i s with
  | nil => rfl
  | cons b bs ih =>
    simp only [placeLane]
    rw [commutes_modBin, ih]

theorem commutes_leaveLane (b : Nat) : Commutes m (leaveLane z b) := by
  intro s
  simp only [leaveLane]
  have h : modStation z (fun r => { r with lane := (station (loadCommand m s) z).lane.tail }) (loadCommand m s) =
    loadCommand m (modStation z (fun r => { r with lane := (station s z).lane.tail }) s) := rfl
  rw [h, commutes_modBin]
  exact commutes_placeLane 0 _ _

theorem commutes_beginCrossing (k : CrossingKind) (b : Nat) : Commutes m (beginCrossing z k b) := fun _ => rfl

theorem commutes_setVisitState (b : Nat) (st : VisitState) : Commutes m (setVisitState b st) := by
  intro s
  unfold setVisitState
  have h : bin (loadCommand m s) b = bin s b := rfl
  rw [h]
  cases (bin s b).bind (·.openVisit) with
  | some n => exact commutes_modVisit n _ s
  | none => rfl

theorem commutes_tryPresent : Commutes m (tryPresent z) := by
  intro s
  simp only [tryPresent]
  have h1 : mayCross (loadCommand m s) z = mayCross s z := rfl
  have h2 : station (loadCommand m s) z = station s z := rfl
  have h3 : binToPresent (loadCommand m s) z = binToPresent s z := rfl
  have h4 : ∀ b, binMayCross (loadCommand m s) b = binMayCross s b := fun _ => rfl
  have h5 : binInOpening (loadCommand m s) z = binInOpening s z := rfl
  rw [h1, h2, h3, h5]
  split
  · cases binToPresent s z with
    | none => rfl
    | some b =>
      simp only [h4]
      split
      · rw [commutes_leaveLane, ← apply_ite (loadCommand m), commutes_setVisitState, commutes_beginCrossing]
      · rfl
  · rfl

theorem commutes_tryWithdraw : Commutes m (tryWithdraw z) := by
  intro s
  simp only [tryWithdraw]
  have h : (station (loadCommand m s) z) = station s z := rfl
  rw [h]
  split
  · rfl
  · rename_i f _
    have h1 : visit (loadCommand m s) f.visit = visit s f.visit := rfl
    have h2 : mayCross (loadCommand m s) z = mayCross s z := rfl
    have h3 : binMayCross (loadCommand m s) f.bin = binMayCross s f.bin := rfl
    rw [h1, h2, h3]
    split <;> split <;> rfl

theorem commutes_carryClose : Commutes m (carryClose z) := by
  intro s
  simp only [carryClose]
  show (if (stationPresent s z && (station s z).closeOrder) = true then _ else _) = _
  split
  · have h : (station (loadCommand m s) z) = station s z := rfl
    rw [h]
    split
    · split <;> rfl
    · rfl
    all_goals
      have h1 : (zone (loadCommand m s) z) = zone s z := rfl
      rw [h1]
      split <;> rfl
  · rfl

theorem commutes_liftCrossingResets : Commutes m (liftCrossingResets z) := by
  intro s
  unfold liftCrossingResets
  show (if stationOpen s z = true then _ else _) = _
  split <;> rfl

theorem commutes_addHold (r : HoldReason) (n : Nat) : Commutes m (addHold r n) := fun _ => rfl

theorem commutes_holdBinVisit (r : HoldReason) (b : Nat) : Commutes m (holdBinVisit r b) := by
  intro s
  unfold holdBinVisit
  have h : bin (loadCommand m s) b = bin s b := rfl
  rw [h]
  cases (bin s b).bind (·.openVisit) <;> rfl

theorem commutes_holdSettled (c : CraneRec) : Commutes m (holdSettled c) := by
  intro s
  simp only [holdSettled]
  rcases c.dropped with _ | d <;> rcases c.leg with _ | l <;> rcases c.carried with _ | b <;>
    simp only [commutes_addHold _ _ s, commutes_addHold .fire _ (addHold _ _ s), commutes_holdBinVisit .fire _ s,
      commutes_holdBinVisit .fire _ (addHold _ _ s), ← apply_ite (loadCommand m), commutes_holdBinVisit .fire _ (ite _ _ _)]

theorem commutes_settleCrane (a : Aisle) : Commutes m (settleCrane a) := by
  intro s
  simp only [settleCrane]
  have h1 : aislePresent (loadCommand m s) a = aislePresent s a := rfl
  have h2 : crane (loadCommand m s) a = crane s a := rfl
  have h3 : settledMark (loadCommand m s) a = settledMark s a := rfl
  have h4 : ∀ x, setSettledMark a x (loadCommand m s) = loadCommand m (setSettledMark a x s) := fun _ => rfl
  rw [h1, h2, h3, h4, h4, commutes_holdSettled]
  split
  · rfl
  · split
    · rfl
    · split <;> rfl

theorem commutes_recoverCrane (a : Aisle) : Commutes m (recoverCrane a) := by
  intro s
  unfold recoverCrane
  show (if (aislePresent s a && (crane s a).state == .ready) = true then _ else _) = _
  split <;> rfl

theorem commutes_tryAwait : Commutes m (tryAwait z) := by
  intro s
  unfold tryAwait
  show (if (zone s z).state = .sealed ∧ (zone s z).panelClearSeen = true then _ else _) = _
  split <;> rfl

theorem commutes_trySeal : Commutes m (trySeal z) := by
  intro s
  unfold trySeal
  show (if (((zone s z).released || !stationPresent s z) && (zoneAisles z).all (countsSettled s)) = true then _ else _) = _
  split
  · exact commutes_tryAwait (enterZoneState z .sealed s)
  · rfl

theorem commutes_tryReopenZone : Commutes m (tryReopenZone z) := by
  intro s
  unfold tryReopenZone
  show (if (((zone s z).reopenReport != .none || !stationPresent s z) && (zoneAisles z).all (countsRecovered s)) = true
    then _ else _) = _
  split <;> rfl

theorem commutes_zoneProgress : Commutes m (zoneProgress z) := by
  intro s
  simp only [zoneProgress, zoneAisles, List.foldl_cons, List.foldl_nil]
  have h : (zone (loadCommand m s) z).state = (zone s z).state := rfl
  rw [h]
  split
  · rw [commutes_settleCrane, commutes_settleCrane, commutes_trySeal]
  · rw [commutes_recoverCrane, commutes_recoverCrane, commutes_tryReopenZone]
  · exact commutes_tryAwait s
  all_goals rfl

/-- What an event makes possible in a zone is the same before the message is in the buffer (R165). -/
theorem settleZone_load (m : List Byte) (before : State) (z : Station) (s : State) :
    settleZone (loadCommand m before) z (loadCommand m s) = loadCommand m (settleZone before z s) := by
  unfold settleZone startCrossings
  rw [commutes_carryClose, commutes_zoneProgress, commutes_liftCrossingResets, commutes_tryWithdraw, commutes_tryPresent,
    commutes_scheduleZone]

/-- The same for the four zones in turn. -/
theorem settleAll_load (m : List Byte) (before s : State) :
    settleAll (loadCommand m before) (loadCommand m s) = loadCommand m (settleAll before s) := by
  simp only [settleAll, stationList, List.foldl_cons, List.foldl_nil, settleZone_load]

/-- What `settleZone` makes of a state is all that `Settles` says. -/
theorem settles_settleZone (before : State) (z : Station) (u : State) : Settles before z u (settleZone before z u) :=
  ⟨rfl, settleZone_settled before z u⟩

/-- The same for the four zones in turn. -/
theorem settles_settleAll (before u : State) : SettlesAll before u (settleAll before u) :=
  ⟨rfl, _, _, _, settleZone_settled before 0 u, settleZone_settled before 1 _, settleZone_settled before 2 _,
    settleZone_settled before 3 _⟩

/-- A command's event answers as it would from the state before the message. -/
theorem writeReply_settleZone (c : OutcomeCode) (d m : List Byte) (before : State) (z : Station) (s : State) :
    writeReply c d (settleZone (loadCommand m before) z (loadCommand m s)) = writeReply c d (settleZone before z s) := by
  rw [settleZone_load, writeReply_loadCommand]

end Sys2Proof.Machine
end

