-- ==== Sys2Proof/Laws/Settling.lean ====
section
/-! SUPPORT. What an event makes possible in a zone, part by part: settling cranes and recovered cranes, crossings that start,
grants that arrive and legs that are handed over. -/

namespace Sys2Proof.Machine

/-- A set attention bit reads as set (R171). -/
theorem attention_set (n : Nat) (hn : n < 24) (s : State) : (setAttention n s).link.attention.getLsbD n = true := by
  simp [setAttention, attentionWord, hn]

/-- Entering a zone state changes the state alone of the zone (R152). -/
@[simp] theorem zone_enterZoneState (z : Station) (st : ZoneState) (s : State) :
    zone (enterZoneState z st s) z = { zone s z with state := st } := by
  simp [enterZoneState, setAttention]
  exact zone_setZone z _ s

theorem aisle0_ne_aisle1 (z : Station) : aisle1 z ≠ aisle0 z := by revert z; decide

@[simp] theorem aisle0_even (z : Station) : (aisle0 z).val % 2 = 0 := by revert z; decide

@[simp] theorem aisle1_odd (z : Station) : ¬ (aisle1 z).val % 2 = 0 := by revert z; decide

/-- The two aisles of a zone (R4). -/
theorem aisle_of_zone (a : Aisle) (z : Station) : zoneOf a = z ↔ a = aisle0 z ∨ a = aisle1 z := by
  revert a z; decide

/-- The settled crane states (R146). -/
theorem isSettled_iff (st : CraneState) : st.isSettled = true ↔ st = .parked ∨ st = .faulted ∨ st = .offline := by
  cases st <;> simp [CraneState.isSettled]

/-- `y` is the visit `x` after FIRE is added to it if it is open and `p` holds. -/
def Fires (p : Prop) (x y : Option VisitRec) : Prop :=
  (x = none → y = none) ∧ ∀ v, x = some v →
    (v.outcome = none → p → y = some { v with hold := { v.hold with fire := true } }) ∧
    (v.outcome ≠ none ∨ ¬p → y = some v)

/-- What adds FIRE nowhere. -/
theorem Fires.refl {p : Prop} (hp : ¬p) (x : Option VisitRec) : Fires p x x :=
  ⟨id, fun _ h => ⟨fun _ q => absurd q hp, fun _ => h⟩⟩

/-- The condition may be restated. -/
theorem Fires.iff {p q : Prop} {x y : Option VisitRec} (h : Fires p x y) (e : p ↔ q) : Fires q x y := by
  rwa [← propext e]

/-- FIRE added twice over is added once. -/
theorem Fires.trans {p q : Prop} {x y w : Option VisitRec} (h : Fires p x y) (g : Fires q y w) : Fires (p ∨ q) x w := by
  refine ⟨fun e => g.1 (h.1 e), fun v e => ?_⟩
  by_cases ho : v.outcome = none
  · by_cases hp : p
    · have hy := (h.2 v e).1 ho hp
      refine ⟨fun _ _ => ?_, fun k => ?_⟩
      · by_cases hq : q
        · exact (g.2 _ hy).1 ho hq
        · exact (g.2 _ hy).2 (Or.inr hq)
      · rcases k with k | k
        · exact absurd ho k
        · exact absurd (Or.inl hp) k
    · have hy := (h.2 v e).2 (Or.inr hp)
      refine ⟨fun _ k => (g.2 _ hy).1 ho (k.resolve_left hp), fun k => (g.2 _ hy).2 ?_⟩
      exact k.imp id fun k q => k (Or.inr q)
  · have hy := (h.2 v e).2 (Or.inl ho)
    exact ⟨fun k => absurd k ho, fun _ => (g.2 _ hy).2 (Or.inl ho)⟩

/-- A hold reason is added to the one open visit named. -/
theorem visit_addHold (r : HoldReason) (m n : Nat) (s : State) :
    visit (addHold r m s) n = (visit s n).map fun v =>
      if v.outcome = none ∧ n = m then { v with hold := v.hold.put r true } else v := by
  simp only [addHold, addHoldWhere, visit, tableGet_map]
  congr 1; funext v
  simp [isOpen]

/-- Adding FIRE to one visit. -/
theorem Fires.addHold {p : Prop} {x : Option VisitRec} {s : State} {n : Nat} (m : Nat) (h : Fires p x (visit s n)) :
    Fires (p ∨ m = n) x (visit (addHold .fire m s) n) := by
  rw [visit_addHold]
  refine ⟨fun e => by rw [h.1 e]; rfl, fun v e => ⟨fun ho hp => ?_, fun hp => ?_⟩⟩
  · by_cases q : p
    · rw [(h.2 v e).1 ho q]
      by_cases hm : n = m <;> simp [hm, HoldSet.put]
    · rw [(h.2 v e).2 (Or.inr q)]
      have hm : n = m := (hp.resolve_left q).symm
      simp [hm, ho, HoldSet.put]
  · have q : v.outcome ≠ none ∨ ¬p := hp.imp id fun g q => g (Or.inl q)
    rw [(h.2 v e).2 q]
    rcases hp with hp | hp
    · simp [hp]
    · have hm : ¬n = m := fun g => hp (Or.inr g.symm)
      simp [hm]

/-- The visits that a crane gives FIRE when it becomes settled (R146). -/
def givesFire (s : State) (c : CraneRec) (n : Nat) : Prop :=
  (∃ l, c.dropped = some l ∧ l.visit = n) ∨ (∃ l, c.leg = some l ∧ l.cancelled = false ∧ l.visit = n) ∨
    ∃ b r, c.carried = some b ∧ bin s b = some r ∧ r.openVisit = some n

/-- A settled crane gives FIRE to its dropped, its leg's and its carried bin's visit (R146). -/
theorem visit_holdSettled (c : CraneRec) (s : State) (n : Nat) :
    Fires (givesFire s c n) (visit s n) (visit (holdSettled c s) n) := by
  unfold holdSettled
  extract_lets s1 s2
  have e1 : Fires (∃ l, c.dropped = some l ∧ l.visit = n) (visit s n) (visit s1 n) := by
    dsimp only [s1]
    cases hd : c.dropped with
    | none => exact Fires.refl (by simp) _
    | some l => exact ((Fires.refl (p := False) (by simp) _).addHold l.visit).iff (by simp)
  have b1 : s1.bins = s.bins := by
    dsimp only [s1]; cases c.dropped <;> rfl
  have e2 : Fires ((∃ l, c.dropped = some l ∧ l.visit = n) ∨
      (∃ l, c.leg = some l ∧ l.cancelled = false ∧ l.visit = n))
      (visit s n) (visit s2 n) := by
    dsimp only [s2]
    clear_value s1
    cases hl : c.leg with
    | none => exact e1.iff (by simp)
    | some l =>
      dsimp only; split
      · rename_i h; exact e1.iff (by simp [h])
      · rename_i h; exact (e1.addHold l.visit).iff (by simp [h])
  have b2 : s2.bins = s.bins := by
    dsimp only [s2]; clear_value s1
    cases c.leg with
    | none => exact b1
    | some l => dsimp only; split <;> exact b1
  clear_value s2
  cases hc : c.carried with
  | none => exact e2.iff (by simp [givesFire, hc])
  | some b =>
    dsimp only [holdBinVisit]
    rw [bin_congr b2]
    cases hr : (bin s b).bind (·.openVisit) with
    | none =>
      refine e2.iff ?_
      simp only [givesFire, hc, ← or_assoc]
      constructor
      · exact fun h => Or.inl h
      · rintro (h | ⟨b', r, hb', h1, h2⟩)
        · exact h
        · cases hb'; simp [h1, h2] at hr
    | some m =>
      refine (e2.addHold m).iff ?_
      simp only [givesFire, hc, ← or_assoc]
      obtain ⟨r, hr1, hr2⟩ := Option.bind_eq_some_iff.1 hr
      constructor
      · rintro (h | h)
        · exact Or.inl h
        · subst h; exact Or.inr ⟨b, r, rfl, hr1, hr2⟩
      · rintro (h | ⟨b', r', hb', h1, h2⟩)
        · exact Or.inl h
        · cases hb'; rw [hr1] at h1; cases h1; rw [hr2] at h2; cases h2; exact Or.inr rfl

/-- What holding a settled crane's visits leaves alone. -/
theorem holdSettled_frame (c : CraneRec) (s : State) : { holdSettled c s with visits := s.visits } = s := by
  unfold holdSettled holdBinVisit
  cases c.dropped <;> cases c.leg <;> cases c.carried <;> dsimp only <;> (repeat' split) <;> rfl

/-- What SHUTDOWN looks at in a crane leaves the other cranes, the link, the bins and the parameters alone, and marks
the zone (R146). -/
theorem settleCrane_spec (a : Aisle) (s : State) :
    (∀ b, b ≠ a → crane (settleCrane a s) b = crane s b) ∧
    (∀ b, (crane (settleCrane a s) b).state = (crane s b).state) ∧ (settleCrane a s).link = s.link ∧
    (settleCrane a s).params = s.params ∧ (settleCrane a s).bins = s.bins ∧
    zone (settleCrane a s) (zoneOf a) = (let r := zone s (zoneOf a)
      if aislePresent s a then
        (if a.val % 2 = 0 then { r with settled0 := (crane s a).state.isSettled }
          else { r with settled1 := (crane s a).state.isSettled })
      else r) := by
  unfold settleCrane
  by_cases hp : aislePresent s a = true
  · simp only [hp]
    by_cases hs : (crane s a).state.isSettled = true
    · simp only [hs]
      by_cases hm : settledMark s a = true
      · simp [hm]
        simp only [settledMark] at hm
        split at hm <;> simp_all
        all_goals (rw [← hm])
      · simp [hm]
        have f := holdSettled_frame (crane s a) (setSettledMark a true s)
        generalize holdSettled (crane s a) (setSettledMark a true s) = t at f ⊢
        have hcr : t.cranes = s.cranes := by have h := congrArg State.cranes f; exact h
        have hz : t.zones = (setSettledMark a true s).zones := by have h := congrArg State.zones f; exact h
        refine ⟨?_, ?_, ?_, ?_, ?_, ?_⟩
        · intro b hb; rw [crane_setCrane_ne hb]; exact crane_congr hcr b
        · intro b; by_cases hb : b = a
          · subst hb; simp [crane_congr hcr]
          · rw [crane_setCrane_ne hb]; rw [crane_congr hcr]
        · have h := congrArg State.link f; exact h
        · have h := congrArg State.params f; exact h
        · have h := congrArg State.bins f; exact h
        · have : zone (setCrane a { crane t a with dropped := none } t) (zoneOf a) =
              zone (setSettledMark a true s) (zoneOf a) := zone_congr hz _
          rw [this]; simp [setSettledMark]
    · simp only [hs]
      simp [setSettledMark, crane, zone_setZone]
  · simp [hp]

/-- The visits that a newly settled crane gives FIRE (R146). -/
theorem visit_settleCrane (a : Aisle) (s : State) (n : Nat) :
    Fires (aislePresent s a = true ∧ (crane s a).state.isSettled = true ∧ settledMark s a = false ∧
        givesFire s (crane s a) n)
      (visit s n) (visit (settleCrane a s) n) := by
  unfold settleCrane
  by_cases hp : aislePresent s a = true
  · by_cases hs : (crane s a).state.isSettled = true
    · by_cases hm : settledMark s a = true
      · simp [hp, hs, hm]; exact Fires.refl (by simp) _
      · simp [hp, hs, hm]
        exact visit_holdSettled (crane s a) (setSettledMark a true s) n
    · simp [hp, hs]; exact Fires.refl (by simp) _
  · simp [hp]; exact Fires.refl (by simp) _

/-- What RECOVERY looks at in a crane only marks the zone (R150). -/
theorem recoverCrane_spec (a : Aisle) (s : State) :
    { recoverCrane a s with zones := s.zones } = s ∧
    zone (recoverCrane a s) (zoneOf a) = (let r := zone s (zoneOf a)
      if aislePresent s a = true ∧ (crane s a).state = .ready then
        (if a.val % 2 = 0 then { r with recovered0 := true } else { r with recovered1 := true })
      else r) := by
  unfold recoverCrane
  by_cases h : (aislePresent s a && (crane s a).state == .ready) = true
  · rw [if_pos h]
    have h' : aislePresent s a = true ∧ (crane s a).state = .ready := by simpa using h
    refine ⟨rfl, ?_⟩
    simp [setRecoveredMark, h']
  · rw [if_neg h]
    have h' : ¬(aislePresent s a = true ∧ (crane s a).state = .ready) := by simpa using h
    exact ⟨rfl, by simp only [h', if_false]⟩

/-- Leaving RECOVERY lifts FIRE from the zone's open visits; one with no hold left takes the state its bin's
location gives (R45, R150). -/
theorem liftHold_fire (z : Station) (s : State) (n : Nat) (v : VisitRec) (hv : visit s n = some v) (ho : v.outcome = none)
    (hz : (binAisle s v.bin).map zoneOf = some z) :
    ∃ w, visit (liftHoldWhere .fire (fun _ v => ofZone s z v) s) n = some w ∧
      w = { v with state := w.state, hold := { v.hold with fire := false } } ∧
           (v.hold.fire = false ∨ w.hold ≠ HoldSet.none → w.state = v.state) ∧
           (v.hold.fire = true → w.hold = HoldSet.none → w.state = matchState v.state (binLocation s v.bin)) := by
  simp only [liftHoldWhere, visit, tableGet_map, Option.map_eq_some_iff]
  refine ⟨_, ⟨v, hv, rfl⟩, ?_⟩
  have hsel : (isOpen v && ofZone s z v) = true := by simp [isOpen, ho, ofZone, hz]
  rw [if_pos hsel]
  unfold liftedVisit
  have hany : ∀ h : HoldSet, h.any = false ↔ h = HoldSet.none := by
    intro h; rcases h with ⟨a,b,c,d,e⟩; cases a <;> cases b <;> cases c <;> cases d <;> cases e <;> decide
  by_cases hf : v.hold.has .fire = true
  · have hf' : v.hold.fire = true := hf
    rw [if_pos hf]
    by_cases ha : (v.hold.put .fire false).any = true
    · dsimp only; rw [if_pos ha]
      refine ⟨rfl, fun _ => rfl, fun _ k => ?_⟩
      rw [(hany _).2 k] at ha; cases ha
    · dsimp only; rw [if_neg ha]
      have hn := (hany _).1 (by simpa using ha)
      refine ⟨rfl, ?_, fun _ _ => rfl⟩
      rintro (k | k)
      · rw [hf'] at k; cases k
      · exact absurd hn k
  · have hf' : v.hold.fire = false := by simpa [HoldSet.has] using hf
    rw [if_neg hf]
    refine ⟨?_, fun _ => rfl, fun k => by rw [hf'] at k; cases k⟩
    rcases v with ⟨⟩; rename_i hold _ _ _ _; rcases hold with ⟨⟩; simp_all

/-- The conditions of a crossing of a bin with its visit (R123, R124). -/
abbrev crossable (s : State) (z : Station) (r : StationRec) (y : BinRec) (v : VisitRec) : Prop :=
  r.crossing = none ∧ r.lineTest = none ∧ stationPresent s z = true ∧ r.shutter = .open ∧
       r.openLimit = true ∧ r.jammed = false ∧ r.reopenFault = false ∧ r.closeOrder = false ∧ r.beam = false ∧
       ((zone s z).state = .clear ∨ (zone s z).state = .alert) ∧ y.obstructed = false ∧ v.hold.fire = false ∧
       v.hold.stationOut = false ∧ v.hold.reset = false

/-- The conditions of a crossing (R123, R124). -/
theorem mayCross_iff (s : State) (z : Station) (b n : Nat) (y : BinRec) (v : VisitRec) (hb : bin s b = some y)
    (hn : y.openVisit = some n) (hv : visit s n = some v) :
    (mayCross s z && binMayCross s b) = true ↔ crossable s z (station s z) y v := by
  simp only [mayCross, binMayCross, hb, hn, Option.bind_some, hv, stationOpen, StationRec.isOut, HoldSet.stopsCrossings,
    Bool.and_eq_true, Bool.not_eq_true', Bool.or_eq_false_iff, Bool.or_eq_true, beq_iff_eq, Option.isNone_iff_eq_none]
  constructor
  · rintro ⟨⟨⟨⟨⟨⟨⟨h1, h2⟩, ⟨h3, h4⟩, h5, h6⟩, h7⟩, h8⟩, h9⟩, h10⟩, h11, ⟨h12, h13⟩, h14⟩
    exact ⟨h1, h2, h3, h4, h7, h5, h6, h8, h9, h10, h11, h12, h13, h14⟩
  · rintro ⟨h1, h2, h3, h4, h7, h5, h6, h8, h9, h10, h11, h12, h13, h14⟩
    exact ⟨⟨⟨⟨⟨⟨⟨h1, h2⟩, ⟨h3, h4⟩, h5, h6⟩, h7⟩, h8⟩, h9⟩, h10⟩, h11, ⟨h12, h13⟩, h14⟩

/-- What starting a crossing writes and sends (R123, R124). -/
theorem beginCrossing_eq (z : Station) (kind : CrossingKind) (b : Nat) (u : State) (hp : stationPresent u z = true) :
    beginCrossing z kind b u = { setCrossingMark z (some b) (setStation z { station u z with
           crossing := some ⟨kind, b, u.time.ms, false, 1000 * param u 30⟩, openingBin := some b } u) with
         sent := u.sent ++ [.panel z (.transfer (match kind with | .present => .present | .withdraw => .withdraw))] } := by
  have : ∀ x, panelSends (setCrossingMark z (some b) (modStation z (fun r => { r with
      crossing := some ⟨kind, b, u.time.ms, false, 1000 * param u 30⟩, openingBin := some b }) u)) z (.transfer x) = true := by
    intro x
    simp [panelSends, show ∀ c o, stationPresent (setCrossingMark z (some b) (modStation z (fun r => { r with
      crossing := c, openingBin := o }) u)) z = true from fun _ _ => hp]
  simp only [beginCrossing, sendPanel, this, if_true]
  rfl

/-- Giving the bins of a lane their places changes their locations alone (R3, R14). -/
theorem placeLane_spec (z : Station) (bs : List Nat) : ∀ (i : Nat) (s : State), bs.Nodup →
    { placeLane z i bs s with bins := s.bins } = s ∧
    (∀ (j x : Nat), bs[j]? = some x →
      bin (placeLane z i bs s) x = (bin s x).map fun q => { q with location := .lane z (Fin.ofNat 3 (i + j)) }) ∧
    ∀ x, x ∉ bs → bin (placeLane z i bs s) x = bin s x := by
  induction bs with
  | nil => intro i s _; exact ⟨rfl, by simp, fun _ _ => rfl⟩
  | cons b bs ih =>
    intro i s hn
    obtain ⟨hb, hn⟩ := List.nodup_cons.1 hn
    obtain ⟨f, g, k⟩ := ih (i + 1) (modBin b (fun r => { r with location := .lane z (Fin.ofNat 3 i) }) s) hn
    have fm : { modBin b (fun r => { r with location := .lane z (Fin.ofNat 3 i) }) s with bins := s.bins } = s := by
      unfold modBin; split <;> rfl
    refine ⟨?_, ?_, ?_⟩
    · simp only [placeLane]
      generalize modBin b (fun r => { r with location := .lane z (Fin.ofNat 3 i) }) s = m at *
      generalize placeLane z (i + 1) bs m = t at *
      rw [← fm]; conv => rhs; rw [← f]
    · intro j x hj
      simp only [placeLane]
      cases j with
      | zero =>
        simp at hj; subst hj
        rw [k _ hb, bin_modBin]; simp
      | succ j =>
        simp at hj
        rw [g j x hj, bin_modBin]
        have : x ≠ b := fun e => hb (by subst e; exact List.mem_of_getElem? hj)
        rw [if_neg this, show i + 1 + j = i + (j + 1) by omega]
    · intro x hx
      simp only [placeLane]
      simp at hx
      rw [k x hx.2, bin_modBin, if_neg hx.1]

@[simp] theorem station_setAisle (a : Aisle) (r : AisleRec) (s : State) (z : Station) :
    station (setAisle a r s) z = station s z := rfl

@[simp] theorem aisleRec_setStation (z : Station) (r : StationRec) (s : State) (a : Aisle) :
    aisleRec (setStation z r s) a = aisleRec s a := rfl

/-- A grant that arrives is kept, or given back by a crane that cannot use it (R84 Table 3). -/
theorem grantArrives_eq (a : Aisle) (s t : State)
    (ht : t = setAisle a { aisleRec (takePlace a s) a with grant := true } (takePlace a s)) :
    grantArrives a s =
      if (crane s a).state = .faulted ∨ (crane s a).state = .parking ∨ (crane s a).state = .parked ∨
          (crane s a).state = .offline
      then returnGrant a t else t := by
  subst ht
  unfold grantArrives
  dsimp only
  cases h : (crane s a).state <;> simp

theorem issue_aisles (a : Aisle) (g : SegmentRec) (k : Bool) (s : State) : (issue a g k s).aisles = s.aisles := by
  simp only [issue, sendDrive]; split <;> split <;> rfl

theorem proceed_aisles (a : Aisle) (k : Bool) (s : State) : (proceed a k s).aisles = s.aisles := by
  unfold proceed
  dsimp only
  split
  · rfl
  · split
    · split
      · split
        · split <;> rw [issue_aisles] <;> rfl
        · rw [issue_aisles]
      · rw [issue_aisles]
    · rw [issue_aisles]

/-- Handing a leg over changes no aisle (R81). -/
theorem handLeg_aisles (a : Aisle) (c : Candidate) (s : State) : (handLeg a c s).aisles = s.aisles := by
  simp [handLeg, setCraneState, setLeg, proceed_aisles]

/-- The first of the one entry that matches is that entry. -/
theorem find_unique {α : Type} {p : α → Bool} {c : α} :
    ∀ {l : List α}, c ∈ l → p c = true → (∀ d ∈ l, p d = true → d = c) → l.find? p = some c
  | [], h, _, _ => by simp at h
  | x :: xs, h, hp, hu => by
    by_cases hx : p x = true
    · rw [List.find?_cons_of_pos hx, hu x (by simp) hx]
    · have : c ∈ xs := by
        rcases List.mem_cons.1 h with rfl | h
        · exact absurd hp hx
        · exact h
      rw [List.find?_cons_of_neg hx, find_unique this hp (fun d hd => hu d (by simp [hd]))]

/-- The first in rank is one of those ranked (R82). -/
theorem mem_firstRanked {s : State} {a : Aisle} :
    ∀ {cs : List Candidate} {c : Candidate}, firstRanked s a cs = some c → c ∈ cs
  | [], c, h => by simp [firstRanked] at h
  | x :: xs, c, h => by
    simp only [firstRanked] at h
    cases hd : firstRanked s a xs with
    | none => simp [hd] at h; simp [h]
    | some d =>
      simp only [hd] at h
      split at h
      · cases h; exact List.mem_cons_of_mem _ (mem_firstRanked hd)
      · cases h; simp

end Sys2Proof.Machine
end

