-- ==== Sys2Proof/Laws/Operations.lean ====
section
/-! SUPPORT. What the shared operations over bins, visits, messages and segments do, said once: each lemma gives the whole effect of
an operation on what it changes. -/

namespace Sys2Proof.Machine

/-- A visit after a reason is added to the open visits that a test selects (R30). -/
theorem visit_addHoldWhere (r : HoldReason) (p : Nat → VisitRec → Bool) (s : State) (n : Nat) :
    visit (addHoldWhere r p s) n = (visit s n).map fun v =>
      if v.outcome = none ∧ p n v = true then { v with hold := v.hold.put r true } else v := by
  simp only [addHoldWhere, visit, tableGet_map]
  congr 1; funext v
  simp [isOpen]

/-- A visit after a reason is lifted from the open visits that a test selects (R33). -/
theorem visit_liftHoldWhere (r : HoldReason) (p : Nat → VisitRec → Bool) (s : State) (n : Nat) :
    visit (liftHoldWhere r p s) n = (visit s n).map fun v =>
      if v.outcome = none ∧ p n v = true then liftedVisit s.bins r v else v := by
  simp only [liftHoldWhere, visit, tableGet_map]
  congr 1; funext v
  simp [isOpen]

/-- The SHOWs of a list go out in list order, one for each PENDING task with its index, if the link takes them (R27, R39). -/
theorem showPending_eq (z : Station) (ts : List TaskRec) : ∀ (i : Nat) (s : State),
    let live := stationPresent s z && !zoneClosed s z
    let shows := (ts.zipIdx i).filterMap fun k =>
      if k.1.state = .pending then some (FieldMsg.panel z (.show k.1.kind (k.1.key.getD 0) k.2)) else none
    showPending z i ts s = { s with sent := s.sent ++ if live then shows else [] } := by
  induction ts with
  | nil => intro i s; simp [showPending]
  | cons t ts ih =>
    intro i s
    simp only [showPending]
    rw [ih]
    by_cases ht : t.state = .pending <;>
      cases hp : stationPresent s z <;> cases hc : zoneClosed s z <;>
      simp [ht, showTask, sendPanel, panelSends, stationPresent, zoneClosed, zone] at hp hc ⊢ <;>
      simp [hp, hc]

/-- A retry re-issues the segment that faulted wherever the crane stands (R85, R111). -/
theorem reissueLeg_known {a : Aisle} {l : LegRec} {s : State} (hc : (crane s a).col ≠ none) (hl : (crane s a).level ≠ none) :
    reissueLeg a l s =
      issue a (if l.approach then { legSegment s l with kind := .travel } else legSegment s l) true s := by
  simp [reissueLeg, hc, hl]

/-- With the position unknown a HOME is issued in place of the re-issue, and a fork has its TRAVEL still to come (R111). -/
theorem reissueLeg_unknown {a : Aisle} {l : LegRec} {s : State} (h : (crane s a).col = none ∨ (crane s a).level = none) :
    reissueLeg a l s = issue a (homeSegment s) true
      (if (legSegment s l).kind.isFork then setLeg a (some { l with approach := true }) s else s) := by
  simp [reissueLeg, h]

/-- A task placed on a bin with no open visit opens a visit under the lowest free number with the task alone (R24, R37). -/
theorem placeTaskAt_new {taken b n : Nat} {r : BinRec} {k : TaskRec} {s : State} (hb : bin s b = some r)
    (hr : r.openVisit = none) (hn : freeVisit s = some n) :
    placeTaskAt taken b r k s = ⟨setBin b { r with openVisit := some n }
      (setVisit n ({ newVisit s .delivery b .queued none with created := taken }.withTasks [k]) s), n, 0⟩ := by
  have h : bin (setVisit n ({ newVisit s .delivery b .queued none with created := taken }.withTasks [k]) s) b = some r := hb
  simp only [placeTaskAt, hr, hn, Option.getD_some, openVisit, modBin,
    show ({ newVisit s .delivery b .queued none with created := taken }.withTasks [k] : VisitRec).bin = b from rfl, h]

/-- What a deletion tells the Scan Engine (R163): a query of the table that is RUNNING or PAUSED is DISTURBED. -/
theorem deleteRecord_chanQ {key : ItemKey} {w : WithdrawalRec} {s : State} (h : withdrawal s key = some w) :
    (deleteRecord key s).chanQ =
      if s.chanQ.table = .withdrawal ∧ (s.chanQ.state = .running ∨ s.chanQ.state = .paused) then
        { s.chanQ with disturbed := true } else s.chanQ := by
  simp only [deleteRecord]
  split
  · simp only [informScan]
    split <;> simp_all
  · simp only [withdrawal] at h
    split at h <;> simp_all

end Sys2Proof.Machine
end

