-- ==== Sys2Proof/Laws/Records.lean ====
section
/-! SUPPORT. The induction over every row: a property of the tables of the Record Memory and of the queue that the table
operations keep is kept by every command, event and step. -/

namespace Sys2Proof.Machine

/-- `P` is a property of the tables and the queue that the operations on the tables keep. -/
structure Records (P : State → Prop) : Prop where
  same     : ∀ t u : State, u.bins = t.bins → u.slots = t.slots → u.visits = t.visits → u.withdrawals = t.withdrawals →
    u.pending = t.pending → P t → P u
  bin      : ∀ (b : Nat) (r : BinRec) (t : State), b < Config.binCount ∨ (Machine.bin t b).isSome = true → P t →
    P (setBin b r t)
  freeBin  : ∀ (b : Nat) (t : State), P t → P (Machine.freeBin b t)
  bins     : ∀ (f : Nat → BinRec → BinRec) (t : State), P t → P { t with bins := tableMap f t.bins }
  slot     : ∀ (sl : Slot) (e : SlotEntry) (t : State), P t → P (setSlot sl e t)
  visit    : ∀ (n : Nat) (v : VisitRec) (t : State), n < Config.visitCount ∨ (Machine.visit t n).isSome = true → P t →
    P (setVisit n v t)
  visits   : ∀ (f : Nat → VisitRec → VisitRec) (t : State), P t → P { t with visits := tableMap f t.visits }
  erase    : ∀ (n : Nat) (t : State), P t → P { t with visits := tableErase t.visits n }
  bucket   : ∀ (i : Nat) (w : WithdrawalRec) (t : State), i < Config.bucketCount → P t →
    P { t with withdrawals := tablePut t.withdrawals i w }
  unbucket : ∀ (i : Nat) (t : State), P t → P { t with withdrawals := tableErase t.withdrawals i }
  fresh    : ∀ t u : State, u.bins = [] → u.slots = [] → u.visits = [] → u.withdrawals = [] → u.pending = t.pending → P t →
    P u

variable {P : State → Prop} {s t : State}

theorem Records.modBin (R : Records P) (b : Nat) (f : BinRec → BinRec) (h : P t) : P (Machine.modBin b f t) := by
  unfold Machine.modBin
  split
  · rename_i r hr
    exact R.bin _ _ _ (.inr (by rw [hr]; rfl)) h
  · exact h

/-- The operations of cranes, stations and zones keep such a property. -/
theorem Records.closed (R : Records P) : Closed false (fun _ => True) P where
  crane a c t _ h := R.same t _ rfl rfl rfl rfl rfl h
  aisle a r t _ h := R.same t _ rfl rfl rfl rfl rfl h
  fork a m t _ h := R.same t _ rfl rfl rfl rfl rfl h
  station z r t _ h := R.same t _ rfl rfl rfl rfl rfl h
  zone z r t _ h := R.same t _ rfl rfl rfl rfl rfl h
  crossing z m t _ h := R.same t _ rfl rfl rfl rfl rfl h
  attention n t h := R.same t _ rfl rfl rfl rfl rfl h
  drive a m t h := R.same t _ rfl rfl rfl rfl rfl h
  panel z m t h := R.same t _ rfl rfl rfl rfl rfl h
  place b f t _ h := R.modBin b f h
  visit n v w t hw _ h := R.visit n v t (.inr (by rw [hw]; rfl)) h
  visits f t _ h := R.visits f t h
  anyBin _ b f t h := R.modBin b f h
  slot _ sl e t h := R.slot sl e t h
  anyVisit _ n v t hn h := R.visit n v t hn h

/-! ### Visits and tasks -/

theorem keep_openVisit (R : Records P) {n : Nat} (hn : n < Config.visitCount) (v : VisitRec) (h : P t) : P (openVisit n v t) :=
  R.modBin _ _ (R.visit n v t (.inl hn) h)

theorem freeVisit_lt {n : Nat} (h : freeVisit t = some n) : n < Config.visitCount := by
  have := tableFree_some h
  omega

/-- A task that the visit rules let through is placed in a visit that is open or in a free entry. -/
theorem keep_placeTaskAt (R : Records P) (n : Nat) {b : Nat} {r : BinRec} (task : TaskRec) (hr : visitRule t r = none)
    (h : P t) : P (placeTaskAt n b r task t).state := by
  simp only [placeTaskAt]
  split
  · split
    · rename_i v hv
      have h1 := R.visit _ (v.withTasks (v.tasks ++ [task])) t (.inr (by rw [hv]; rfl)) h
      dsimp only
      split
      · exact keep_showTask R.closed _ _ _ h1
      · exact h1
    · exact h
  · rename_i ho
    simp only [visitRule, ho, Option.bind_none] at hr
    split at hr
    · cases hr
    · rename_i hf
      cases hn : freeVisit t with
      | none => simp [hn] at hf
      | some n =>
        simp only [Option.getD_some]
        exact keep_openVisit R (freeVisit_lt hn) _ h

theorem keep_placeTask (R : Records P) {b : Nat} {r : BinRec} (task : TaskRec) (hr : visitRule t r = none) (h : P t) :
    P (placeTask b r task t).state :=
  keep_placeTaskAt R _ _ hr h

/-! ### The Withdrawal Table -/

theorem nextBucket_lt {i : Nat} : nextBucket i < Config.bucketCount := by
  unfold nextBucket
  split
  · assumption
  · decide

theorem homeBucket_lt (key : ItemKey) : homeBucket key < Config.bucketCount := by
  simp only [homeBucket]
  exact BitVec.isLt _

theorem probe_lt {w : Table WithdrawalRec} {key : ItemKey} {fuel i n : Nat} (h : i < Config.bucketCount) :
    (probe w key fuel i n).bucket < Config.bucketCount := by
  induction fuel generalizing i n with
  | zero => exact h
  | succ fuel ih =>
    simp only [probe]
    split
    · exact h
    · split
      · exact h
      · exact ih nextBucket_lt

theorem lookup_lt (w : Table WithdrawalRec) (key : ItemKey) : (lookup w key).bucket < Config.bucketCount :=
  probe_lt (homeBucket_lt key)

theorem keep_closeGap (R : Records P) {fuel i j : Nat} {w : Table WithdrawalRec} (hi : i < Config.bucketCount)
    (hj : j < Config.bucketCount) (h : P { t with withdrawals := w }) : P { t with withdrawals := closeGap fuel i j w } := by
  induction fuel generalizing i j w with
  | zero => exact h
  | succ fuel ih =>
    simp only [closeGap]
    split
    · exact h
    · split
      · exact ih hi nextBucket_lt h
      · exact ih hj nextBucket_lt (R.unbucket j { t with withdrawals := tablePut w i _ }
          (R.bucket i _ { t with withdrawals := w } hi h))

theorem keep_informScan (R : Records P) (h : P t) : P (informScan t) := by
  simp only [informScan]
  split
  · exact R.same t _ rfl rfl rfl rfl rfl h
  · exact h

theorem keep_deleteRecord (R : Records P) (key : ItemKey) (h : P t) : P (deleteRecord key t) := by
  simp only [deleteRecord]
  split
  · apply keep_informScan R
    refine R.same { t with withdrawals := removeBucket t.withdrawals (lookup t.withdrawals key).bucket } _
      rfl rfl rfl rfl rfl ?_
    exact keep_closeGap R (lookup_lt _ _) nextBucket_lt (R.unbucket _ t h)
  · exact h

theorem keep_insertRecord (R : Records P) (w : WithdrawalRec) (h : P t) : P (insertRecord w t) := by
  simp only [insertRecord]
  split
  · exact h
  · exact R.same { t with withdrawals := tablePut t.withdrawals (lookup t.withdrawals w.key).bucket w } _
      rfl rfl rfl rfl rfl (R.bucket _ w t (lookup_lt _ _) h)

theorem keep_setRecordState (R : Records P) (key : ItemKey) (st : WithdrawalState) (v : Option Nat) (h : P t) :
    P (setRecordState key st v t) := by
  simp only [setRecordState]
  split
  · split
    · exact R.bucket _ _ t (lookup_lt _ _) h
    · exact h
  · exact h

/-! ### Tasks -/

theorem keep_pendingLends (R : Records P) (n : Nat) (h : P t) : P { t with pendingLends := n } :=
  R.same t _ rfl rfl rfl rfl rfl h

theorem keep_confirmEffects (R : Records P) (b : Nat) (task : TaskRec) (key : ItemKey) (h : P t) :
    P (confirmEffects b task key t) := by
  unfold confirmEffects
  split
  · exact R.modBin _ _ (keep_pendingLends R _ (keep_insertRecord R _ h))
  · exact keep_deleteRecord R _ (R.modBin _ _ h)
  · exact R.modBin _ _ h
  · exact h

theorem keep_releaseTask (R : Records P) (b : Nat) (task : TaskRec) (h : P t) : P (releaseTask b task t) := by
  unfold releaseTask
  split
  · exact R.modBin _ _ (keep_pendingLends R _ h)
  · split
    · exact keep_setRecordState R _ _ _ h
    · exact h
  · exact R.modBin _ _ h
  · exact h

/-- The releases of tasks touch no visit. -/
theorem releaseTask_visits (b : Nat) (task : TaskRec) (u : State) : (releaseTask b task u).visits = u.visits := by
  unfold releaseTask
  split
  · simp
  · split
    · simp only [setRecordState]
      split
      · split <;> rfl
      · rfl
    · rfl
  · simp
  · rfl

theorem releasePending_visits (b : Nat) (ts : List TaskRec) (u : State) : (releasePending b ts u).visits = u.visits := by
  induction ts generalizing u with
  | nil => rfl
  | cons task ts ih =>
    simp only [releasePending]
    rw [ih]
    split
    · exact releaseTask_visits _ _ _
    · rfl

theorem keep_releasePending (R : Records P) (b : Nat) (ts : List TaskRec) (h : P t) : P (releasePending b ts t) := by
  induction ts generalizing t with
  | nil => exact h
  | cons task ts ih =>
    apply ih
    split
    · exact keep_releaseTask R _ _ h
    · exact h

theorem keep_replaceVisit (R : Records P) {n : Nat} {v : VisitRec} {u : State} (hv : visit s n = some v)
    (hu : u.visits = s.visits) (w : VisitRec) (h : P u) : P (setVisit n w u) :=
  R.visit _ _ _ (.inr (by rw [visit_congr hu, hv]; rfl)) h

theorem keep_settleTasks (R : Records P) {n : Nat} {v : VisitRec} (hv : visit t n = some v) (h : P t) :
    P (settleTasks n v t) :=
  keep_replaceVisit R hv (releasePending_visits _ _ _) _ (keep_releasePending R _ _ h)

theorem keep_cancelTasks (R : Records P) {n : Nat} {v : VisitRec} (hv : visit t n = some v) (h : P t) :
    P (cancelTasks n v t) :=
  keep_replaceVisit R hv (releasePending_visits _ _ _) _ (keep_releasePending R _ _ h)

theorem visitIn_true (t : State) (n : Nat) : visitIn (fun _ => True) t n := fun _ _ _ _ => trivial

theorem keep_endCancelled (R : Records P) (n : Nat) (v : VisitRec) (h : P t) : P (endCancelled n v t) := by
  have K := R.closed
  have h1 := keep_endVisit K (visitIn_true t n) .cancelled .cancelled h
  simp only [endCancelled]
  have h2 : P (match v.kind, v.target with
      | .relocation, some sl => setSlot sl .empty (endVisit n .cancelled .cancelled t)
      | _, _ => endVisit n .cancelled .cancelled t) := by
    split
    · exact keep_setSlot K _ _ h1
    · exact h1
  split
  · exact keep_cancelLeg K trivial _ h2
  · exact h2

/-! ### Places of a leg -/

theorem keep_joinLane (K : Closed false (fun _ => True) P) (a : Aisle) (l : LegRec) (h : P t) : P (joinLane a l t) := by
  simp only [joinLane]
  split
  · exact keep_addHold K _ _ (keep_modVisit K _ (fun _ => rfl) (keep_releaseReservation K (visitIn_true _ _)
      (keep_modBin K _ (fun _ => rfl) (keep_setStation K trivial _ h))))
  · exact keep_modVisit K _ (fun _ => rfl) (keep_releaseReservation K (visitIn_true _ _)
      (keep_modBin K _ (fun _ => rfl) (keep_setStation K trivial _ h)))

theorem keep_putHome (K : Closed false (fun _ => True) P) (l : LegRec) (h : P t) : P (putHome l t) := by
  simp only [putHome]
  apply keep_endVisit K (visitIn_true _ _)
  apply keep_anyBin K
  split
  · exact keep_setSlot K _ _ h
  · exact h

theorem keep_putTarget (K : Closed false (fun _ => True) P) (l : LegRec) (h : P t) : P (putTarget l t) := by
  unfold putTarget
  split
  · exact keep_endVisit K (visitIn_true _ _) _ _ (keep_anyBin K _ _ (keep_setSlot K _ _ (keep_setSlot K _ _ h)))
  · exact h

theorem keep_placeDone (K : Closed false (fun _ => True) P) (a : Aisle) (l : LegRec) (h : P t) : P (placeDone a l t) := by
  simp only [placeDone]
  have h1 := keep_anyBin K l.bin (fun b => { b with stranded := false })
    (keep_setCrane K (a := a) trivial { (crane t a).idle with carried := none } (keep_setForkMark K (a := a) trivial none h))
  split
  · exact keep_joinLane K _ _ h1
  · exact keep_putHome K _ h1
  · exact keep_putTarget K _ h1

theorem keep_takeForkDone (K : Closed false (fun _ => True) P) (a : Aisle) (h : P t) : P (takeForkDone a t) := by
  have ha : (fun _ : Station => True) (zoneOf a) := trivial
  simp only [takeForkDone]
  split
  · split
    · split
      · exact keep_enterReady K ha (keep_placeDone K _ _ h)
      · exact keep_nextSegment K ha _ (keep_pickDone K ha _ h)
    · split
      · exact keep_issuePark K ha (keep_setCrane K ha _ (keep_placeDone K _ _ h))
      · exact keep_issuePark K ha (keep_pickDone K ha _ h)
    · exact keep_unexpectedReport K ha h
  · exact keep_unexpectedReport K ha h

end Sys2Proof.Machine
end

