-- ==== Sys2Proof/Laws/Refusals.lean ====
section
/-! SUPPORT. The checks of a command in their order, and the bytes of a reply: one lemma for each check that a command is written
with says that the first failing check answers, and the last ones give the fields of R182 as numbers and sets. -/

namespace Sys2Proof.Machine

variable {s t : State} {a : Aisle} {code : OutcomeCode} {rest : Result} {l : List (Prop × OutcomeCode)}

/-- A check that a command is written with by `refuseIf`. -/
theorem refuseIf_first {x : Bool} {fails : Prop} {answer : OutcomeCode} (hx : x = true ↔ fails)
    (hl : FirstFailing l code → rest = .refuse code []) (h : FirstFailing ((fails, answer) :: l) code) :
    refuseIf x answer rest = .refuse code [] := by
  unfold refuseIf
  rcases h with ⟨h, rfl⟩ | ⟨h1, h⟩
  · simp [hx.2 h]
  · cases x with
    | true => exact absurd (hx.1 rfl) h1
    | false => simpa using hl h

/-- A check that a command is written with by `withSome`. -/
theorem withSome_first {α : Type} {o : Option α} {fails : Prop} {answer : OutcomeCode} {f : α → Result} (ho : o = none ↔ fails)
    (hl : ∀ x, o = some x → FirstFailing l code → f x = .refuse code []) (h : FirstFailing ((fails, answer) :: l) code) :
    withSome o answer f = .refuse code [] := by
  unfold withSome
  rcases h with ⟨h, rfl⟩ | ⟨h1, h⟩
  · simp [ho.2 h]
  · cases hv : o with
    | none => exact absurd (ho.1 hv) h1
    | some y => simpa using hl y hv h

/-- The checks of zone and aisle refuse as `placeChecks` lists them (R54 steps 5 and 6). -/
theorem zoneAndAisle_first (hl : FirstFailing l code → rest = .refuse code [])
    (h : FirstFailing (placeChecks s a ++ l) code) : zoneAndAisle s a rest = .refuse code [] := by
  unfold zoneAndAisle
  refine refuseIf_first Iff.rfl (fun h => refuseIf_first ?_ hl h) h
  simp [aisleOut]

/-- The visit rules refuse as `visitChecks` lists them (R37). -/
theorem visitRules_first {r : BinRec} (h : FirstFailing (visitChecks s r) code) : visitRules s r rest = .refuse code [] := by
  simp only [visitChecks, FirstFailing] at h
  unfold visitRules
  rcases h with ⟨h, rfl⟩ | ⟨-, ⟨h, rfl⟩ | ⟨-, ⟨h, rfl⟩ | ⟨-, h⟩⟩⟩
  · simp [h]
  · simp [h]
  · simp [h]
  · exact h.elim

/-- A command whose rule refuses in the part's mode is answered by the code and changes nothing else (R165). -/
theorem takeCommand_refuses {c : Byte} {len : Nat} {m : Modes} {run : List Byte → State → Result} {p : List Byte}
    (hs : linkIdle s) (hp : p.length = len) (hl : len ≤ 30) (hm : ∀ r, modeCheck m s r = r)
    (h : run p (loadCommand (c :: commandBody p) s) = .refuse code []) :
    takeCommand c len m run (commandBody p) s = writeReply code [] s := by
  rw [takeCommand_idle hs hp hl, h, show modeCheck m (loadCommand (c :: commandBody p) s) (.refuse code []) =
    modeCheck m s (.refuse code []) from rfl, hm]
  rfl

/-- A command whose rule replies in the part's mode is answered so. -/
theorem takeCommand_replies {c : Byte} {len : Nat} {m : Modes} {run : List Byte → State → Result} {p data : List Byte}
    (hs : linkIdle s) (hp : p.length = len) (hl : len ≤ 30) (hm : ∀ r, modeCheck m s r = r)
    (h : run p (loadCommand (c :: commandBody p) s) = .reply code data t) :
    takeCommand c len m run (commandBody p) s = writeReply code data t := by
  rw [takeCommand_idle hs hp hl, h, show modeCheck m (loadCommand (c :: commandBody p) s) (.reply code data t) =
    modeCheck m s (.reply code data t) from rfl, hm]
  rfl

/-- A command for SERVICE passes its mode check there, and one for both modes always (R165 step 4). -/
theorem modeCheck_service (h : s.mode = .service) (r : Result) : modeCheck .service s r = r := by simp [modeCheck, h]
theorem modeCheck_both (r : Result) : modeCheck .both s r = r := by simp [modeCheck]

/-- A number is sent most significant byte first (R182). -/
theorem bytes_eq_digits (k x : Nat) :
    bytes k x = (List.range k).reverse.map fun i => (BitVec.ofNat 8 (x / 256 ^ i) : Byte) := by
  induction k generalizing x with
  | zero => rfl
  | succ k ih =>
    rw [bytes, ih, List.range_succ_eq_map]
    simp [byte, List.map_reverse, Function.comp_def, Nat.pow_succ, Nat.div_div_eq_div_mul, Nat.mul_comm]

/-- A set is sent with its first member in bit 0 (R182). -/
theorem setByte_eq_sum (l : List Bool) : setByte l = bytes 1 (l.zipIdx.map fun b => if b.1 then 2 ^ b.2 else 0).sum := by
  have h : ∀ k, ((l.zipIdx k).map fun b => if b.1 then 2 ^ b.2 else 0).sum =
      2 ^ k * l.foldr (fun (b : Bool) n => 2 * n + b.toNat) 0 := by
    induction l with
    | nil => intro k; simp
    | cons x xs ih =>
      intro k
      simp only [List.zipIdx_cons, List.map_cons, List.sum_cons, List.foldr_cons, ih, Nat.pow_succ, Nat.mul_add]
      cases x <;> simp [Nat.mul_assoc, Nat.add_comm]
  have h0 := h 0
  simp only [Nat.pow_zero, Nat.one_mul] at h0
  simp only [setByte, bytes, List.nil_append, h0]

@[simp] theorem bytes_length (k x : Nat) : (bytes k x).length = k := by
  induction k generalizing x with
  | zero => rfl
  | succ k ih => simp [bytes, ih, byte]
@[simp] theorem byte_length (x : Nat) : (byte x).length = 1 := rfl
@[simp] theorem setByte_length (l : List Bool) : (setByte l).length = 1 := rfl

end Sys2Proof.Machine
end

