-- ==== Sys2Proof/Laws/Rows.lean ====
section
/-! SUPPORT. The induction over every row: a property of the tables and the queue that the table operations keep is kept by
`exec`, and by `step` where taking a command from the queue keeps it. -/

namespace Sys2Proof.Machine

variable {P : State → Prop} {s t : State} {z : Station}

/-! ### Results of commands -/

/-- The state that a result leads to has the property. -/
def Result.keeps (P : State → Prop) : Result → Prop
  | .refuse _ _ => True
  | .reply _ _ t => P t
  | .wait t => P t

theorem keeps_refuseIf {x : Bool} {c : OutcomeCode} {r : Result} (h : r.keeps P) : (refuseIf x c r).keeps P := by
  unfold refuseIf
  split
  · trivial
  · exact h

theorem keeps_withSome {α : Type} {o : Option α} {c : OutcomeCode} {f : α → Result} (h : ∀ x, o = some x → (f x).keeps P) :
    (withSome o c f).keeps P := by
  unfold withSome
  split
  · trivial
  · exact h _ rfl

theorem keeps_visitRules {r : BinRec} {rest : Result} (h : visitRule t r = none → rest.keeps P) :
    (visitRules t r rest).keeps P := by
  unfold visitRules
  split
  · trivial
  · trivial
  · trivial
  · rename_i hr
    exact h hr

theorem keeps_zoneAndAisle {a : Aisle} {rest : Result} (h : rest.keeps P) : (zoneAndAisle t a rest).keeps P :=
  keeps_refuseIf (keeps_refuseIf h)

theorem keep_writeReply (R : Records P) (c : OutcomeCode) (d : List Byte) (h : P t) : P (writeReply c d t) :=
  R.same t _ rfl rfl rfl rfl rfl h

theorem keep_takeCommand (R : Records P) (code : Byte) (len : Nat) (m : Modes) {run : List Byte → State → Result}
    (body : List Byte) (hr : ∀ (p : List Byte) (u : State), P u → (run p u).keeps P) (h : P t) :
    P (takeCommand code len m run body t) := by
  simp only [takeCommand]
  split
  · exact h
  · split
    · exact R.same t _ rfl rfl rfl rfl rfl h
    · have h1 : P (loadCommand (code :: body) t) := R.same t _ rfl rfl rfl rfl rfl h
      have h2 : ((refuseIf (badFraming (code :: body) || badLength len body) .badLength
          (modeCheck m (loadCommand (code :: body) t) (run body.tail (loadCommand (code :: body) t)))).keeps P) := by
        apply keeps_refuseIf
        unfold modeCheck
        split
        · trivial
        · trivial
        · exact hr _ _ h1
      revert h2
      generalize refuseIf _ _ _ = r
      intro h2
      cases r with
      | refuse c d => exact keep_writeReply R _ _ h1
      | reply c d u => exact keep_writeReply R _ _ h2
      | wait u => exact h2

/-! ### Panel messages -/

theorem keep_modStation' (R : Records P) (f : StationRec → StationRec) (h : P t) : P (modStation z f t) :=
  keep_modStation R.closed trivial f h

theorem keep_discardMessage (R : Records P) (h : P t) : P (discardMessage z t) := by
  simp only [discardMessage]
  split
  · exact keep_stationAttention R.closed _ (keep_modStation' R _ (keep_sendPanel R.closed _ _ h))
  · exact keep_modStation' R _ (keep_sendPanel R.closed _ _ h)

theorem keep_unexpectedScan (R : Records P) (key : ItemKey) (h : P t) : P (unexpectedScan z key t) :=
  keep_stationAttention R.closed _ (keep_modStation' R _ h)

theorem faceVisit_some {n : Nat} {v : VisitRec} (h : faceVisit t z = some (n, v)) : visit t n = some v := by
  unfold faceVisit at h
  split at h
  · cases h
  · rename_i f _
    cases hv : visit t f.visit with
    | none => simp [hv] at h
    | some w =>
      simp only [hv, Option.filter] at h
      split at h
      · simp only [Option.map_some, Option.some.injEq, Prod.mk.injEq] at h
        rw [← h.1, ← h.2, hv]
      · cases h

theorem keep_takeScan (R : Records P) (key : ItemKey) (h : P t) : P (takeScan z key t) := by
  unfold takeScan
  split
  · exact keep_sendPanel R.closed _ _ (keep_unexpectedScan R _ h)
  · rename_i n v hf
    split
    · exact keep_resendTasks R.closed _ (keep_confirmEffects R _ _ _ (keep_replaceVisit R (faceVisit_some hf) rfl _ h))
    · exact keep_unexpectedScan R _ h

theorem keep_takePanelDone (R : Records P) (h : P t) : P (takePanelDone z t) := by
  unfold takePanelDone
  split
  · exact keep_sendPanel R.closed _ _ h
  · rename_i n v hf
    exact keep_sendPanel R.closed _ _ (keep_modStation' R _ (keep_settleTasks R (faceVisit_some hf) h))

theorem keep_takeKeep (R : Records P) (h : P t) : P (takeKeep z t) := by
  unfold takeKeep
  split
  · exact keep_sendPanel R.closed _ _ h
  · exact keep_startFaceTimer R.closed trivial h

theorem keep_takeProblem (R : Records P) (code : ProblemCode) (h : P t) : P (takeProblem z code t) := by
  simp only [takeProblem]
  split
  · exact keep_sendPanel R.closed _ _ h
  · rename_i n v hf
    have h1 := keep_replaceVisit R (faceVisit_some hf) rfl { v with problems := v.problems.add code } h
    split
    · exact h1
    all_goals exact keep_stationAttention R.closed _ (keep_modStation' R _ h1)

theorem keep_panelEvent (R : Records P) {act : State → State} (hact : P (act t)) (h : P t) : P (panelEvent z act t) := by
  unfold panelEvent outsideReset onPanel
  split
  · exact h
  · split
    · exact h
    · split
      · exact keep_sendPanel R.closed _ _ h
      · split
        · exact keep_modStation' R _ h
        · exact hact

/-- A message taken whole keeps the property if what it does keeps it. -/
theorem keep_takeMessage (R : Records P) {act : State → State} (hact : ∀ u, P u → P (act u)) (h : P t) :
    P (takeMessage z act t) := hact _ (keep_modStation' R _ h)

/-! ### Bins and slots -/

theorem badBin_lt {b : Nat} (h : badBin b = false) : b < Config.binCount := by
  simp only [badBin, decide_eq_false_iff_not] at h
  omega

theorem admissionOf_lt {p : List Byte} {d : Admission} (h : admissionOf p = some d) : d.number < Config.binCount := by
  simp only [admissionOf] at h
  split at h
  · cases h
  · rename_i hb
    cases hs : slotAt p 5 with
    | none => simp [hs] at h
    | some sl =>
      simp only [hs, Option.map_some, Option.some.injEq] at h
      rw [← h]
      simp only [Bool.or_eq_true, not_or, Bool.not_eq_true] at hb
      exact badBin_lt hb.1.1.1.1

theorem keep_intake (R : Records P) {d : Admission} (hd : d.number < Config.binCount) {n : Nat} (hn : n < Config.visitCount)
    (h : P t) : P (intake d z n t) :=
  keep_arriveAtFace R.closed trivial _ _ (R.visit _ _ _ (.inl hn) (R.bin _ _ _ (.inl hd) (R.slot _ _ _ h)))

theorem keeps_runAdmitBin (R : Records P) (p : List Byte) (h : P t) : (runAdmitBin p t).keeps P := by
  refine keeps_withSome fun d hd => ?_
  have hn := admissionOf_lt hd
  split
  · exact keeps_refuseIf (keeps_refuseIf (keeps_refuseIf (R.bin _ _ _ (.inl hn) (R.slot _ _ _ h))))
  · refine keeps_withSome fun z _ => ?_
    iterate 6 apply keeps_refuseIf
    exact keeps_withSome fun n hf => keep_intake R hn (freeVisit_lt hf) h

theorem keeps_runAlterBin (R : Records P) (p : List Byte) (h : P t) : (runAlterBin p t).keeps P := by
  refine keeps_refuseIf (keeps_withSome fun r hr => keeps_refuseIf (keeps_refuseIf ?_))
  exact keep_eventOf R.closed trivial (R.bin _ _ _ (.inr (by rw [hr]; rfl)) h)

theorem keeps_runRetireBin (R : Records P) (p : List Byte) (h : P t) : (runRetireBin p t).keeps P := by
  refine keeps_refuseIf (keeps_withSome fun r hr => keeps_refuseIf (keeps_refuseIf (keeps_refuseIf
    (keeps_withSome fun n hn => ?_))))
  refine keep_eventOf R.closed trivial (keep_sendPanel R.closed _ _ (keep_modStation' R _ ?_))
  exact R.freeBin _ _ (R.slot _ _ _ (keep_endVisit R.closed (visitIn_true _ _) _ _ h))

theorem keeps_runBlockSlot (R : Records P) (p : List Byte) (h : P t) : (runBlockSlot p t).keeps P := by
  refine keeps_withSome fun sl _ => ?_
  split
  case h_1 | h_2 => exact R.slot _ _ _ h
  all_goals trivial

theorem keeps_runUnblockSlot (R : Records P) (p : List Byte) (h : P t) : (runUnblockSlot p t).keeps P := by
  refine keeps_withSome fun sl _ => ?_
  split
  case h_1 | h_2 => exact R.slot _ _ _ h
  all_goals trivial

theorem keeps_runMoveHome (R : Records P) (p : List Byte) (h : P t) : (runMoveHome p t).keeps P := by
  refine keeps_refuseIf (keeps_withSome fun sl _ => keeps_refuseIf (keeps_withSome fun r _ => ?_))
  iterate 7 apply keeps_refuseIf
  exact keeps_withSome fun n hn =>
    keep_eventOf R.closed trivial (keep_openVisit R (freeVisit_lt hn) _ (R.slot _ _ _ h))

/-! ### Work -/

theorem keep_holdLend (R : Records P) (b : Nat) (h : P t) : P (holdLend b t) := R.modBin _ _ (keep_pendingLends R _ h)

theorem keeps_runLend (R : Records P) (p : List Byte) (h : P t) : (runLend p t).keeps P := by
  refine keeps_refuseIf (keeps_withSome fun r _ => keeps_refuseIf (keeps_zoneAndAisle (keeps_refuseIf (keeps_refuseIf
    (keeps_refuseIf (keeps_visitRules fun hv => ?_))))))
  exact keep_eventOf R.closed trivial (keep_holdLend R _ (keep_placeTask R _ hv h))

theorem keeps_runReturn (R : Records P) (p : List Byte) (h : P t) : (runReturn p t).keeps P := by
  refine keeps_refuseIf (keeps_withSome fun w _ => keeps_refuseIf (keeps_withSome fun r _ => keeps_zoneAndAisle
    (keeps_visitRules fun hv => ?_)))
  exact keep_eventOf R.closed trivial (keep_setRecordState R _ _ _ (keep_placeTask R _ hv h))

theorem keep_placeRefile (R : Records P) (m : Nat) {b : Nat} {r : BinRec} (key : ItemKey) (n : Nat)
    (hr : visitRule t r = none) (h : P t) : P (placeRefile m b r key n t).state :=
  R.modBin _ _ (keep_placeTaskAt R _ _ hr h)

theorem keeps_runRefile (R : Records P) (p : List Byte) (h : P t) : (runRefile p t).keeps P := by
  unfold runRefile
  split
  · exact keeps_withSome fun z _ => keeps_refuseIf (keeps_refuseIf (keeps_refuseIf
      (R.same t _ rfl rfl rfl rfl rfl h)))
  · refine keeps_refuseIf (keeps_withSome fun r _ => keeps_refuseIf (keeps_zoneAndAisle (keeps_refuseIf (keeps_refuseIf
      (keeps_visitRules fun hv => ?_)))))
    exact keep_eventOf R.closed trivial (keep_placeRefile R _ _ _ hv h)

theorem keeps_runFetch (R : Records P) (p : List Byte) (h : P t) : (runFetch p t).keeps P :=
  keeps_refuseIf (keeps_withSome fun _ _ => keeps_zoneAndAisle (keeps_visitRules fun hv =>
    keep_eventOf R.closed trivial (keep_placeTask R _ hv h)))

theorem keep_reshow (R : Records P) (v : VisitRec) (h : P t) : P (reshow v t) := by
  unfold reshow
  split
  · exact keep_resendTasks R.closed _ h
  · exact h

theorem keep_visitEvent (R : Records P) (v : VisitRec) {f : State → State} (h : P (f t)) : P (visitEvent v f t) := by
  unfold visitEvent
  split
  · exact keep_eventOf R.closed trivial h
  · exact h

theorem keeps_runCancelTask (R : Records P) (p : List Byte) (h : P t) : (runCancelTask p t).keeps P := by
  refine keeps_refuseIf (keeps_withSome fun v hv => keeps_refuseIf (keeps_withSome fun task _ => keeps_refuseIf ?_))
  apply keep_visitEvent R
  simp only [cancelTask, endIfIdle]
  have h1 := keep_reshow R (v.withTasks (v.tasks.set (byteAt p 1) (cancelledTask task)))
    (keep_replaceVisit R hv (releaseTask_visits v.bin task t) (v.withTasks (v.tasks.set (byteAt p 1) (cancelledTask task)))
      (keep_releaseTask R v.bin task h))
  split
  · exact h1
  · split
    · exact keep_endCancelled R _ _ h1
    · exact h1

theorem keeps_runCancelVisit (R : Records P) (p : List Byte) (h : P t) : (runCancelVisit p t).keeps P := by
  refine keeps_refuseIf (keeps_withSome fun v hv => keeps_refuseIf ?_)
  apply keep_visitEvent R
  simp only [cancelVisit]
  have h1 : P (match v.state, binAisle t v.bin with
      | .atFace, some a => sendPanel (zoneOf a) .clear (cancelTasks (byteAt p 0) v t)
      | _, _ => cancelTasks (byteAt p 0) v t) := by
    split
    · exact keep_sendPanel R.closed _ _ (keep_cancelTasks R hv h)
    · exact keep_cancelTasks R hv h
  split
  · split
    · exact keep_endCancelled R _ _ h1
    · exact h1
  · exact h1

theorem keeps_runRetireVisit (R : Records P) (p : List Byte) (h : P t) : (runRetireVisit p t).keeps P :=
  keeps_refuseIf (keeps_withSome fun _ _ => keeps_refuseIf (R.erase _ _ h))

theorem keeps_runFindItem (p : List Byte) (h : P t) : (runFindItem p t).keeps P := by
  refine keeps_refuseIf ?_
  split
  · exact h
  · split
    · exact h
    · trivial

theorem keeps_runWriteOff (R : Records P) (p : List Byte) (h : P t) : (runWriteOff p t).keeps P :=
  keeps_refuseIf (keeps_withSome fun _ _ => keeps_refuseIf (R.modBin _ _ (keep_deleteRecord R _ h)))

/-! ### Scans -/

theorem keep_channel (R : Records P) (q : ChannelRec) (h : P t) : P { t with chanQ := q } :=
  R.same t _ rfl rfl rfl rfl rfl h

theorem keep_stepQuery (R : Records P) (h : P t) : P (stepQuery t) := by
  simp only [stepQuery]
  split
  · split
    · exact keep_setAttention R.closed _ (keep_channel R _ h)
    · exact keep_channel R _ h
  · exact h

theorem keep_endSearch (R : Records P) (c : OutcomeCode) (d : List Byte) (h : P t) : P (endSearch c d t) :=
  R.same t _ rfl rfl rfl rfl rfl h

theorem keep_endPass (R : Records P) (h : P t) : P (endPass t) := by
  simp only [endPass]
  split
  · exact keep_endSearch R _ _ h
  · split
    · exact keep_endSearch R _ _ h
    · rename_i w _
      split
      · rename_i r hr
        apply keep_endSearch R
        refine keep_eventOf R.closed trivial (keep_placeRefile R _ _ _ ?_ h)
        have := Option.eq_some_of_filter_eq_some hr
        have hc : isCandidate t w.bin r = true := by
          cases hb : bin t w.bin with
          | none => simp [hb] at hr
          | some r' =>
            simp only [hb, Option.filter] at hr
            split at hr
            · cases hr
              assumption
            · cases hr
        simp only [isCandidate, Bool.and_eq_true] at hc
        simpa using hc.1.2
      · split
        · exact R.same t _ rfl rfl rfl rfl rfl h
        · exact keep_endSearch R _ _ h

theorem keep_stepSearch (R : Records P) (h : P t) : P (stepSearch t) := by
  simp only [stepSearch]
  split
  · split
    · exact R.same t _ rfl rfl rfl rfl rfl h
    · exact keep_endPass R (R.same t _ rfl rfl rfl rfl rfl h)
  · exact h

/-! ### Machinery -/

theorem keeps_withAisle {p : List Byte} {rest : Aisle → Result} (h : ∀ a, (rest a).keeps P) : (withAisle p t rest).keeps P :=
  keeps_withSome fun a _ => keeps_refuseIf (h a)

theorem keeps_withStation {p : List Byte} {rest : Station → Result} (h : ∀ z, (rest z).keeps P) :
    (withStation p t rest).keeps P := keeps_withSome fun z _ => h z

theorem keeps_runSuspendAisle (R : Records P) (p : List Byte) (h : P t) : (runSuspendAisle p t).keeps P := by
  refine keeps_withAisle fun a => ?_
  show P (if aisleSuspended t a then t else eventOf (zoneOf a) (suspend a) t)
  split
  · exact h
  · apply keep_eventOf R.closed trivial
    unfold suspend
    split
    · exact keep_takeSuspension R.closed trivial h
    · exact keep_setAisle R.closed trivial _ h

theorem keeps_runResumeAisle (R : Records P) (p : List Byte) (h : P t) : (runResumeAisle p t).keeps P := by
  refine keeps_withAisle fun a => keeps_refuseIf ?_
  apply keep_eventOf R.closed trivial
  simp only [resume]
  split
  · exact keep_homeOrder R.closed trivial (keep_setAisle R.closed trivial _ h)
  · exact keep_setAisle R.closed trivial _ h

theorem keeps_runClearCrane (R : Records P) (p : List Byte) (h : P t) : (runClearCrane p t).keeps P := by
  refine keeps_withAisle fun a => keeps_refuseIf ?_
  apply keep_eventOf R.closed trivial
  unfold clearCrane
  split
  · exact keep_takeOffline R.closed trivial h
  · exact keep_startHome R.closed trivial _ h

theorem keeps_runReopenStation (R : Records P) (p : List Byte) (h : P t) : (runReopenStation p t).keeps P := by
  refine keeps_withStation fun z => keeps_refuseIf (keeps_refuseIf (keeps_refuseIf ?_))
  apply keep_eventOf R.closed trivial
  unfold reopen
  split
  · exact keep_leaveOut R.closed trivial h
  · exact keep_modStation' R _ h
  all_goals exact keep_modStation' R _ (keep_energiseShutter R.closed trivial h)

theorem keep_driveLine (R : Records P) (x : Bool) (h : P t) : P (driveLine z x t) := by
  unfold driveLine
  split
  · split
    · exact keep_modStation' R _ h
    · exact h
  · exact h

theorem keep_sendRepeats (R : Records P) (n : Nat) (h : P t) : P (sendRepeats z n t) := by
  induction n generalizing t with
  | zero => exact h
  | succ n ih => exact ih (keep_sendPanel R.closed _ _ h)

theorem keep_finishLineTest (R : Records P) (x : Bool) (h : P t) : P (finishLineTest z x t) := by
  unfold finishLineTest
  split
  · split
    · apply keep_writeReply R
      apply keep_eventOf R.closed trivial
      simp only [endLineTest]
      split
      · exact keep_modStation' R _ h
      · exact keep_sendPanel R.closed _ _ (keep_sendRepeats R _ (keep_modStation' R _ h))
    · exact h
  · exact h

/-! ### Set-up -/

/-- An operation made for each of a list of blocks keeps the property if each does. -/
theorem keep_foldl {α : Type} {f : State → α → State} (hf : ∀ (u : State) (x : α), P u → P (f u x)) (l : List α) (h : P t) :
    P (l.foldl f t) := by
  induction l generalizing t with
  | nil => exact h
  | cons x l ih => exact ih (hf _ _ h)

theorem keep_reconcile (R : Records P) (i : FireInput) (h : P t) : P (reconcile i t) := by
  simp only [reconcile]
  split
  · exact R.same t _ rfl rfl rfl rfl rfl h
  · split
    · exact R.same t _ rfl rfl rfl rfl rfl h
    · exact h

theorem keep_reconcileAll (R : Records P) (h : P t) : P (reconcileAll t) :=
  keep_foldl (fun _ _ hu => keep_reconcile R _ hu) _ h

theorem keep_startStation (R : Records P) (h : P t) : P (startStation z t) := by
  unfold startStation
  split
  · exact keep_sendPanel R.closed _ _ (keep_reportReleased R.closed trivial h)
  · exact keep_reopenOrder R.closed trivial (keep_resendTasks R.closed _ h)

theorem keep_homeAll (R : Records P) (h : P t) : P (homeAll t) :=
  keep_foldl (fun u z hu => by
    split
    · exact hu
    · exact keep_homeCranes R.closed trivial hu) _ h

theorem keep_settleAll (R : Records P) (before : State) (h : P t) : P (settleAll before t) :=
  keep_foldl (fun _ _ hu => keep_settleZone R.closed trivial _ hu) _ h

end Sys2Proof.Machine
end

