-- ==== Sys2Proof/Laws/Steps.lean ====
section
/-! SUPPORT. The induction over every row, completed: resets, set-up, `exec` and `step`. -/

namespace Sys2Proof.Machine

variable {P : State → Prop} {s t : State} {z : Station}

/-! ### Set-up -/

theorem keep_maskAisles (R : Records P) (before : State) (h : P t) : P (maskAisles before t) :=
  keep_foldl (fun u a hu => by
    split
    · exact hu
    · exact keep_setAisle R.closed trivial _ hu) _ h

theorem keep_removeStation (R : Records P) (h : P t) : P (removeStation z t) := by
  simp only [removeStation]
  have h1 : P (if (station t z).holdOpen = true then releaseShutter z t else t) := by
    split
    · exact keep_releaseShutter R.closed trivial h
    · exact h
  split
  · exact keep_reportReleased R.closed trivial h1
  · exact h1

theorem keep_resetStation (R : Records P) (h : P t) : P (resetStation z t) := keep_setStation R.closed trivial _ h

theorem keep_maskStations (R : Records P) (before : State) (h : P t) : P (maskStations before t) :=
  keep_foldl (fun u z hu => by
    split
    · exact keep_removeStation R hu
    · exact keep_startStation R (keep_resetStation R hu)
    · exact hu) _ h

theorem keep_paramEffect (R : Records P) (n : Fin 41) (before : State) (h : P t) : P (paramEffect n before t) := by
  unfold paramEffect
  split
  · exact keep_maskAisles R _ h
  · split
    · exact keep_maskStations R _ h
    · split
      · exact keep_reconcileAll R h
      · exact h

theorem keeps_runSetParameter (R : Records P) (p : List Byte) (h : P t) : (runSetParameter p t).keeps P := by
  refine keeps_withSome fun n _ => keeps_refuseIf (keeps_refuseIf (keeps_refuseIf (keeps_refuseIf ?_)))
  exact keep_eventOfAll R.closed (keep_paramEffect R _ _ (R.same t _ rfl rfl rfl rfl rfl h))

theorem keeps_runFinish (R : Records P) (p : List Byte) (h : P t) : (runFinish p t).keeps P :=
  keeps_refuseIf (keeps_refuseIf (keep_eventOfAll R.closed (keep_homeAll R (R.same t _ rfl rfl rfl rfl rfl h))))

theorem keeps_runEnter (R : Records P) (p : List Byte) (h : P t) : (runEnter p t).keeps P := by
  refine keeps_refuseIf (keep_eventOfAll R.closed ?_)
  simp only [enterCommissioningMode]
  exact keep_foldl (fun _ _ hu => keep_drillZone R.closed trivial _ hu) _
    (keep_foldl (fun _ _ hu => keep_takeOffline R.closed trivial hu) _ (R.same t _ rfl rfl rfl rfl rfl h))

theorem keep_tick (R : Records P) (h : P t) : P (tick t) := R.same t _ rfl rfl rfl rfl rfl h

theorem keep_idleStep (R : Records P) (h : P t) : P (idleStep t) := by
  unfold idleStep outsideReset
  split
  · exact h
  · unfold clockCycle
    split
    · exact R.same t _ rfl rfl rfl rfl rfl h
    · exact keep_tick R h

/-! ### Resets -/

theorem keep_resetRecords (R : Records P) (h : P t) : P (resetRecords t) := by
  refine R.same { t with
    bins := tableMap (resetBin t.forkMarks.toArray.toList t.crossingMarks.toArray.toList) t.bins
    visits := tableMap (fun _ v => resetVisit t.crossingMarks.toArray.toList (visitSuspended t v) v) t.visits } _
    rfl rfl rfl rfl rfl ?_
  exact R.visits _ { t with bins := _ } (R.bins _ t h)

theorem keep_resetBlocks (R : Records P) (h : P t) : P (resetBlocks t) := by
  simp only [resetBlocks]
  refine keep_foldl (fun _ _ hu => keep_resetStation R hu) _ (keep_foldl (fun _ _ hu => keep_setCrane R.closed trivial _ hu) _ ?_)
  exact R.same t _ rfl rfl rfl rfl rfl h

theorem keep_startStations (R : Records P) (h : P t) : P (startStations t) :=
  keep_foldl (fun u z hu => by
    split
    · exact keep_startStation R hu
    · exact hu) _ h

theorem keep_stopCranes (R : Records P) (h : P t) : P (stopCranes t) :=
  keep_foldl (fun u a hu => by
    split
    · exact keep_sendDrive R.closed _ _ hu
    · exact hu) _ h

theorem keep_holdCarried (R : Records P) (h : P t) : P (holdCarried t) :=
  keep_foldl (fun u a hu => by
    split
    · split
      · exact keep_holdBinVisit R.closed _ _ hu
      · exact hu
    · exact hu) _ h

theorem keep_leaveKept (R : Records P) (h : P t) : P (leaveKept t) :=
  keep_settleAll R _ (keep_homeAll R (keep_stopCranes R (keep_holdCarried R (keep_startStations R
    (keep_reconcileAll R (keep_resetBlocks R (keep_resetRecords R (R.same t _ rfl rfl rfl rfl rfl h))))))))

theorem setUpAfresh_resets (x : ResetRec) (s : State) :
    setUpAfresh { s with resets := x } = { setUpAfresh s with resets := x } := rfl

@[simp] theorem keepPins_keepPins (r : StationRec) : keepPins (keepPins r) = keepPins r := rfl

/-- What a reset with retention lost sets up at its start is what its end would set up. -/
theorem setUpAfresh_setUpAfresh (s : State) : setUpAfresh (setUpAfresh s) = setUpAfresh s := by
  simp [setUpAfresh, vectorMap, Function.comp_def, resetLink]

theorem keep_setUpAfresh (R : Records P) (h : P t) : P (setUpAfresh t) := R.fresh t _ rfl rfl rfl rfl rfl h

theorem keep_leaveLost (R : Records P) (h : P t) : P (leaveLost t) := keep_reconcileAll R (keep_setUpAfresh R h)

theorem keep_resets (R : Records P) (x : ResetRec) (h : P t) : P { t with resets := x } :=
  R.same t _ rfl rfl rfl rfl rfl h

theorem keep_leaveReset (R : Records P) (c : ResetCause) (h : P t) : P (leaveReset c t) := by
  have h1 : P (if c = .powerLost then leaveLost t else leaveKept t) := by
    split
    · exact keep_leaveLost R h
    · exact keep_leaveKept R h
  exact keep_resets R _ h1

theorem keep_beginReset (R : Records P) (c : ResetCause) (h : P t) : P (beginReset c t) := by
  have h1 : P (if c = .powerLost then setUpAfresh t else t) := by
    split
    · exact keep_setUpAfresh R h
    · exact h
  exact R.same (if c = .powerLost then setUpAfresh t else t) _ rfl rfl rfl rfl rfl h1

theorem keep_resetAtOnce (R : Records P) (c : ResetCause) (h : P t) : P (resetAtOnce c t) :=
  keep_leaveReset R _ (keep_beginReset R _ h)

theorem keep_powerOn (R : Records P) (x : Bool) (h : P t) : P (powerOn x t) := by
  simp only [powerOn]
  split
  · exact keep_beginReset R _ h
  · exact keep_resetAtOnce R _ h

theorem keep_assertReset (R : Records P) (x : Bool) (h : P t) : P (assertReset x t) := by
  have h1 : P { t with resets := { t.resets with pinLow := true } } := R.same t _ rfl rfl rfl rfl rfl h
  simp only [assertReset]
  split
  · exact h
  · split
    · exact h1
    · exact keep_beginReset R _ h1

theorem keep_releaseReset (R : Records P) (h : P t) : P (releaseReset t) := by
  have h1 : P { t with resets := { t.resets with pinLow := false } } := R.same t _ rfl rfl rfl rfl rfl h
  simp only [releaseReset]
  split
  · split
    · exact keep_leaveReset R _ h1
    · exact h1
  · exact h1

theorem keep_takeReadReply (R : Records P) (n : Nat) (x : Bool) (h : P t) : P (takeReadReply n x t) := by
  have h1 : P (readReplyEnd n t) := by
    simp only [readReplyEnd]
    split <;> exact R.same t _ rfl rfl rfl rfl rfl h
  simp only [takeReadReply]
  split
  · exact keep_resetAtOnce R _ h1
  · exact h1

theorem keep_takeReplyFinish (R : Records P) (n : Nat) (x : Bool) (h : P t) : P (takeReplyFinish n x t) := by
  have h1 : P (finishReply n t) := by
    unfold finishReply
    split <;> first | exact h | exact R.same t _ rfl rfl rfl rfl rfl h
  simp only [takeReplyFinish]
  split
  · exact keep_resetAtOnce R _ h1
  · exact h1

/-! ### Rows -/

/-- A row that acts outside a reset keeps the property if its act does. -/
theorem keep_outsideReset {f : State → State} (hf : P (f t)) (h : P t) : P (outsideReset f t) := by
  unfold outsideReset
  split
  · exact h
  · exact hf

/-- A capture keeps the property if what it does keeps it. -/
theorem keep_capture {f : State → State} (h : P t) (hf : P (f t)) : P (capture f t) := by
  unfold capture
  split
  · exact h
  · exact hf

theorem keep_refuseWrite (R : Records P) (m : List Byte) (c : OutcomeCode) (h : P t) : P (refuseWrite m c t) := by
  unfold refuseWrite
  split <;> exact R.same t _ rfl rfl rfl rfl rfl h

theorem next_keeps {P : State → Prop} {u t : State} (h : P u) (hx : (.next u : Taken) = .next t) : P t := by
  cases hx
  exact h

/-- Every row keeps a property of the tables and the queue that the table operations keep. -/
theorem keep_exec (R : Records P) (i : Instr) (h : P s) (hx : exec i s = .next t) : P t := by
  have K := R.closed
  cases i
  case writeCommandDiscarded m =>
    refine next_keeps (keep_outsideReset ?_ h) hx
    split
    · exact R.same s _ rfl rfl rfl rfl rfl h
    · exact h
  case unknownCommand code body =>
    refine next_keeps (keep_outsideReset ?_ h) hx
    split
    · exact h
    · exact keep_refuseWrite R _ _ h
  case commandWriteBadFraming m =>
    refine next_keeps (keep_outsideReset ?_ h) hx
    split
    · exact keep_refuseWrite R _ _ h
    · exact h
  case readReply n x part =>
    refine next_keeps (keep_outsideReset ?_ h) hx
    cases part
    · exact keep_takeReadReply R _ _ h
    · exact keep_capture h (R.same s _ rfl rfl rfl rfl rfl h)
    · exact keep_takeReplyFinish R _ _ h
  case readStatusTransaction part =>
    refine next_keeps (keep_outsideReset ?_ h) hx
    cases part
    · exact R.same s _ rfl rfl rfl rfl rfl h
    · exact keep_capture h (R.same s _ rfl rfl rfl rfl rfl h)
    · show P (finishStatus s)
      unfold finishStatus
      split <;> first | exact h | exact R.same s _ rfl rfl rfl rfl rfl h
  case readAndClearAttention part =>
    refine next_keeps (keep_outsideReset ?_ h) hx
    cases part
    · exact R.same s _ rfl rfl rfl rfl rfl h
    · exact keep_capture h (R.same s _ rfl rfl rfl rfl rfl h)
    · show P (finishAttention s)
      unfold finishAttention
      split <;> first | exact h | exact R.same s _ rfl rfl rfl rfl rfl h
  case readStatus body =>
    exact next_keeps (keep_takeCommand R _ _ _ _ (run := runReadStatus) (fun _ u hu => R.same u _ rfl rfl rfl rfl rfl hu) h) hx
  case readBin body =>
    exact next_keeps (keep_takeCommand R _ _ _ _ (run := runReadBin) (fun _ _ hu => keeps_refuseIf (keeps_withSome fun _ _ => hu)) h) hx
  case readSlot body =>
    exact next_keeps (keep_takeCommand R _ _ _ _ (run := runReadSlot) (fun _ _ hu => keeps_withSome fun _ _ => hu) h) hx
  case findItem body => exact next_keeps (keep_takeCommand R _ _ _ _ (run := runFindItem) (fun _ _ hu => keeps_runFindItem _ hu) h) hx
  case readWithdrawalBucket body =>
    exact next_keeps (keep_takeCommand R _ _ _ _ (run := runReadBucket) (fun _ _ hu => keeps_refuseIf hu) h) hx
  case readVisit body =>
    exact next_keeps (keep_takeCommand R _ _ _ _ (run := runReadVisit) (fun _ _ hu => keeps_refuseIf (keeps_withSome fun _ _ => hu)) h) hx
  case readCrane body => exact next_keeps (keep_takeCommand R _ _ _ _ (run := runReadCrane) (fun _ _ hu => keeps_withAisle fun _ => hu) h) hx
  case readStation body =>
    exact next_keeps (keep_takeCommand R _ _ _ _ (run := runReadStation) (fun _ _ hu => keeps_withStation fun _ => keep_modStation' R _ hu) h) hx
  case readZone body =>
    exact next_keeps (keep_takeCommand R _ _ _ _ (run := runReadZone) (fun _ _ hu => keeps_withSome fun _ _ => hu) h) hx
  case readParameter body =>
    exact next_keeps (keep_takeCommand R _ _ _ _ (run := runReadParameter) (fun _ _ hu => keeps_withSome fun _ _ => hu) h) hx
  case admitBin body => exact next_keeps (keep_takeCommand R _ _ _ _ (fun _ _ hu => keeps_runAdmitBin R _ hu) h) hx
  case alterBin body => exact next_keeps (keep_takeCommand R _ _ _ _ (fun _ _ hu => keeps_runAlterBin R _ hu) h) hx
  case retireBin body => exact next_keeps (keep_takeCommand R _ _ _ _ (fun _ _ hu => keeps_runRetireBin R _ hu) h) hx
  case blockSlot body => exact next_keeps (keep_takeCommand R _ _ _ _ (fun _ _ hu => keeps_runBlockSlot R _ hu) h) hx
  case unblockSlot body => exact next_keeps (keep_takeCommand R _ _ _ _ (fun _ _ hu => keeps_runUnblockSlot R _ hu) h) hx
  case setProtection body =>
    exact next_keeps (keep_takeCommand R _ _ _ _ (run := runSetProtection) (fun _ u hu => R.same u _ rfl rfl rfl rfl rfl hu) h) hx
  case lend body => exact next_keeps (keep_takeCommand R _ _ _ _ (fun _ _ hu => keeps_runLend R _ hu) h) hx
  case returnItem body => exact next_keeps (keep_takeCommand R _ _ _ _ (fun _ _ hu => keeps_runReturn R _ hu) h) hx
  case refile body => exact next_keeps (keep_takeCommand R _ _ _ _ (fun _ _ hu => keeps_runRefile R _ hu) h) hx
  case fetch body => exact next_keeps (keep_takeCommand R _ _ _ _ (fun _ _ hu => keeps_runFetch R _ hu) h) hx
  case moveHome body => exact next_keeps (keep_takeCommand R _ _ _ _ (fun _ _ hu => keeps_runMoveHome R _ hu) h) hx
  case cancelTask body => exact next_keeps (keep_takeCommand R _ _ _ _ (fun _ _ hu => keeps_runCancelTask R _ hu) h) hx
  case cancelVisit body => exact next_keeps (keep_takeCommand R _ _ _ _ (fun _ _ hu => keeps_runCancelVisit R _ hu) h) hx
  case retireVisit body => exact next_keeps (keep_takeCommand R _ _ _ _ (fun _ _ hu => keeps_runRetireVisit R _ hu) h) hx
  case writeOffItem body => exact next_keeps (keep_takeCommand R _ _ _ _ (fun _ _ hu => keeps_runWriteOff R _ hu) h) hx
  case startScan body =>
    exact next_keeps (keep_takeCommand R _ _ _ _ (run := runStartScan) (fun _ _ hu => keeps_withSome fun _ _ => keep_channel R _ hu) h) hx
  case readScanResults body =>
    exact next_keeps (keep_takeCommand R _ _ _ _ (run := runReadScan) (fun _ _ hu => keep_channel R _ hu) h) hx
  case stopScan body => exact next_keeps (keep_takeCommand R _ _ _ _ (run := runStopScan) (fun _ _ hu => keep_channel R _ hu) h) hx
  case suspendAisle body =>
    exact next_keeps (keep_takeCommand R _ _ _ _ (fun _ _ hu => keeps_runSuspendAisle R _ hu) h) hx
  case resumeAisle body => exact next_keeps (keep_takeCommand R _ _ _ _ (fun _ _ hu => keeps_runResumeAisle R _ hu) h) hx
  case clearCrane body => exact next_keeps (keep_takeCommand R _ _ _ _ (fun _ _ hu => keeps_runClearCrane R _ hu) h) hx
  case restoreZone body =>
    exact next_keeps (keep_takeCommand R _ _ _ _ (run := runRestoreZone) (fun _ _ hu => keeps_withSome fun _ _ => keeps_refuseIf
      (keep_eventOf K trivial (keep_enterRecovery K trivial hu))) h) hx
  case drill body =>
    exact next_keeps (keep_takeCommand R _ _ _ _ (run := runDrill) (fun _ _ hu => keeps_withSome fun _ _ => keeps_withSome fun _ _ =>
      keep_eventOf K trivial (keep_drillZone K trivial _ hu)) h) hx
  case lineTest body =>
    exact next_keeps (keep_takeCommand R _ _ _ _ (run := runLineTest) (fun _ _ hu => keeps_withStation fun _ => keeps_refuseIf
      (keep_modStation' R _ hu)) h) hx
  case reopenStation body =>
    exact next_keeps (keep_takeCommand R _ _ _ _ (fun _ _ hu => keeps_runReopenStation R _ hu) h) hx
  case setParameter body =>
    exact next_keeps (keep_takeCommand R _ _ _ _ (fun _ _ hu => keeps_runSetParameter R _ hu) h) hx
  case setDay body =>
    exact next_keeps (keep_takeCommand R _ _ _ _ (run := runSetDay) (fun _ u hu => keeps_refuseIf (R.same u _ rfl rfl rfl rfl rfl hu)) h) hx
  case finishCommissioning body =>
    exact next_keeps (keep_takeCommand R _ _ _ _ (fun _ _ hu => keeps_runFinish R _ hu) h) hx
  case enterCommissioning body =>
    exact next_keeps (keep_takeCommand R _ _ _ _ (fun _ _ hu => keeps_runEnter R _ hu) h) hx
  case restart body =>
    exact next_keeps (keep_takeCommand R _ _ _ _ (run := runRestart) (fun _ u hu => R.same u _ rfl rfl rfl rfl rfl hu) h) hx
  case restartTimeout x =>
    refine next_keeps (keep_outsideReset ?_ h) hx
    unfold takeRestartTimeout
    split
    · exact keep_resetAtOnce R _ h
    · exact h
  case powerOn x => exact next_keeps (keep_powerOn R _ h) hx
  case resetAsserted x => exact next_keeps (keep_assertReset R _ h) hx
  case resetReleased => exact next_keeps (keep_releaseReset R h) hx
  case timebaseTick => exact next_keeps (keep_outsideReset (keep_tick R h) h) hx
  case mark a axis index =>
    refine next_keeps (keep_craneEvent K trivial ?_ h) hx
    split
    · exact keep_takeMark K trivial _ _ h
    · exact keep_unexpectedReport K trivial h
  case arrived a => exact next_keeps (keep_craneEvent K trivial (keep_takeArrived K trivial h) h) hx
  case forkDone a => exact next_keeps (keep_craneEvent K trivial (keep_takeForkDone K _ h) h) hx
  case homed a => exact next_keeps (keep_craneEvent K trivial (keep_takeHomed K trivial h) h) hx
  case currentLimit a => exact next_keeps (keep_craneEvent K trivial (keep_takeCurrentLimit K trivial h) h) hx
  case noLoad a => exact next_keeps (keep_craneEvent K trivial (keep_takeNoLoad K trivial h) h) hx
  case supply a c =>
    refine next_keeps (keep_craneEvent K trivial ?_ h) hx
    cases supplyOfByte c with
    | some c => exact keep_takeSupply K trivial _ h
    | none => exact keep_unexpectedReport K trivial h
  case driveReportDiscarded a => exact next_keeps (keep_outsideReset (keep_unexpectedReport K trivial h) h) hx
  case driveByteTimeout a => exact next_keeps (keep_outsideReset (keep_unexpectedReport K trivial h) h) hx
  case deadlineExpiry a => exact next_keeps (keep_craneEvent K trivial (keep_takeDeadline K trivial h) h) hx
  case retryDelayExpiry a => exact next_keeps (keep_craneEvent K trivial (keep_takeRetryDelay K trivial h) h) hx
  case restTimerExpiry a => exact next_keeps (keep_outsideReset (keep_takeRestTimer K trivial h) h) hx
  case itemScan z key =>
    exact next_keeps (keep_panelEvent R (keep_takeMessage R (fun _ hu => keep_takeScan R _ hu) h) h) hx
  case panelDone z =>
    exact next_keeps (keep_panelEvent R
      (keep_eventOf K trivial (keep_takeMessage R (fun _ hu => keep_takePanelDone R hu) h)) h) hx
  case keep z => exact next_keeps (keep_panelEvent R (keep_takeMessage R (fun _ hu => keep_takeKeep R hu) h) h) hx
  case problem z c =>
    refine next_keeps (keep_panelEvent R ?_ h) hx
    cases problemOfByte c with
    | some c => exact keep_takeMessage R (fun _ hu => keep_takeProblem R _ hu) h
    | none => exact keep_discardMessage R h
  case panelMessageDiscarded z => exact next_keeps (keep_panelEvent R (keep_discardMessage R h) h) hx
  case panelByteTimeout z => exact next_keeps (keep_panelEvent R (keep_discardMessage R h) h) hx
  case beamBlocked z => exact next_keeps (keep_onSensor K trivial _ (fun _ hu => keep_takeBeamBlocked K trivial hu) h) hx
  case beamClear z => exact next_keeps (keep_onSensor K trivial _ (fun _ hu => keep_takeBeamClear K trivial hu) h) hx
  case crossingMaxExpiry z =>
    exact next_keeps (keep_outsideReset (keep_eventOf K trivial (keep_takeCrossingMax K trivial h)) h) hx
  case faceTimerExpiry z => exact next_keeps (keep_outsideReset (keep_takeFaceTimer K trivial h) h) hx
  case openLimitAsserted z =>
    exact next_keeps (keep_onSensor K trivial _ (fun _ hu => keep_takeOpenAsserted K trivial hu) h) hx
  case openLimitReleased z =>
    exact next_keeps (keep_onSensor K trivial _ (fun _ hu => keep_takeOpenReleased K trivial hu) h) hx
  case closedLimitAsserted z =>
    exact next_keeps (keep_onSensor K trivial _ (fun _ hu => keep_takeClosedAsserted K trivial hu) h) hx
  case closedLimitReleased z => exact next_keeps (keep_onSensor K trivial _ (fun _ hu => hu) h) hx
  case shutterTravelExpiry z =>
    exact next_keeps (keep_outsideReset (keep_eventOf K trivial (keep_takeShutterTravel K trivial h)) h) hx
  case holdTimerExpiry z =>
    exact next_keeps (keep_outsideReset (keep_eventOf K trivial (keep_takeHoldTimer K trivial h)) h) hx
  case lineTestDrive z x => exact next_keeps (keep_outsideReset (keep_driveLine R _ h) h) hx
  case lineTestEnd z x => exact next_keeps (keep_outsideReset (keep_finishLineTest R _ h) h) hx
  case inputLevelChange i x =>
    refine next_keeps ?_ hx
    have h1 : P (setConditioner i { conditioner s i with pinHigh := x } s) := R.same s _ rfl rfl rfl rfl rfl h
    unfold takeInputLevel
    dsimp only
    split
    · exact h1
    · exact keep_reconcile R _ h1
  case deglitchWindowExpiry i =>
    refine next_keeps (keep_outsideReset (keep_eventOfAll K ?_) h) hx
    unfold takeDeglitch
    split
    · exact keep_foldl (fun _ _ hu => keep_actOnLevels K trivial _ hu) _ (R.same s _ rfl rfl rfl rfl rfl h)
    · exact h
  case placementSearchStep => exact next_keeps (keep_outsideReset (keep_stepSearch R h) h) hx
  case scanStep => exact next_keeps (keep_outsideReset (keep_stepQuery R h) h) hx

/-- Every step keeps such a property, where taking the front command from the queue keeps it. -/
theorem keep_step (R : Records P) (hq : ∀ u q, P u → P { u with pending := q }) (h : P s) (hx : step s = .next t) : P t := by
  unfold step at hx
  split at hx
  · exact next_keeps (keep_idleStep R h) hx
  · exact keep_exec R _ (hq _ _ h) hx

end Sys2Proof.Machine
end

