-- ==== Sys2Proof/Tests/Slice0.lean ====
section
/-! SUPPORT. Tests: the WellFormed smoke tests, the rows of messages written out from the manual's formats, the manual's worked
examples, one or two small tests of a command, and for each statement states that meet its hypotheses (`meets_…`). -/

namespace Sys2Proof.Tests

open Sys2Proof Sys2Proof.Machine

-- One theorem after the other: the kernel evaluates whole steps here, and many at once take much memory.
set_option Elab.async false

/-! ### Small states -/

/-- The state after a row. -/
def after (c : Instr) (s : State) : State :=
  match exec c s with
  | .next t => t
  | .fault _ => s
  | .refused _ => s

/-- The reply a command leaves. -/
def replyOf (c : Instr) (s : State) : List Byte := (after c s).link.reply

/-- A wing in SERVICE with every aisle and station present, its shutters OPEN and its cranes READY at the mouth. -/
def site : State :=
  { State.reset with
    mode := .service
    params := (defaultParams.set 0 (paramWord 0xFF)).set 1 (paramWord 0xF)
    stations := Vector.replicate 4 { StationRec.reset with shutter := .open, holdOpen := true, openLimit := true }
    cranes := Vector.replicate 8
      { CraneRec.reset with state := .ready, col := some 0, level := some 0, restTimer := some 60000 }
    link := { LinkRec.reset with restarted := false, attention := 0 } }

/-- A home slot, and another of its aisle. -/
def home : Slot := ⟨0, 3, 2, .left⟩
def other : Slot := ⟨0, 95, 11, .right⟩

/-- A bin in that slot. -/
def box : BinRec := ⟨1, 20, 5, 0, 0, 0, home, .slot, none, false, false, false, false, none⟩

/-- The wing with that bin as bin 7. -/
def stocked : State := setBin 7 box (setSlot home (.filled 7) site)

/-- The wing with the zone state of zone 0. -/
def inZoneState (st : ZoneState) (s : State) : State := setZone 0 { zone s 0 with state := st } s

/-- A key, and the bytes of it. -/
def key1 : ItemKey := 0x123456789ABC
def keyBytes1 : List Byte := [0x12, 0x34, 0x56, 0x78, 0x9A, 0xBC]

/-- A task of each kind for that key. -/
def task (k : TaskKind) : TaskRec := ⟨k, some key1, 2, false, none, .pending, false⟩

/-- A visit of bin 7. -/
def trip (st : VisitState) (ts : List TaskRec) : VisitRec :=
  ⟨.delivery, 7, st, 0, 2, false, ts, HoldSet.none, false, none, ⟨false, false, false⟩, none⟩

/-- The wing with bin 7 at the face of station 0, for a visit with some tasks. -/
def served (b : BinRec) (ts : List TaskRec) : State :=
  modStation 0 (fun r => { r with face := some ⟨7, 3⟩, faceTimer := some 5, discards := 1 })
    (setVisit 3 (trip .atFace ts) (setBin 7 { b with location := .face 0, openVisit := some 3 }
      (setSlot home (.home 7) site)))

/-- The wing with the item out of bin 7. -/
def lent (st : WithdrawalState) : State :=
  { setBin 7 { box with withdrawn := 1 } stocked with
    withdrawals := [(2112, ⟨key1, 7, 0, 10, st, none⟩)], recordCount := 1 }

/-- The wing with a crane record at aisle 0. -/
def withCrane (c : CraneRec) : State := setCrane 0 c stocked

/-- A crane in a segment of a leg of visit 3 with bin 7. -/
def inSegment (k : SegKind) (l : LegRec) : CraneRec :=
  { CraneRec.reset with
    state := .moving, col := some 0, level := some 0, leg := some l, segment := some ⟨k, 4, 2, .left, 0⟩
    estimate := some 5000, deadline := 9500 }

/-- The legs of visit 3 with bin 7. -/
def leg (k : LegKind) (n : Fin 4) : LegRec := ⟨3, 7, k, false, n, false, false⟩

/-! ### WellFormed refuses -/

/-- Every command row with a body. -/
def commandRows (body : List Byte) : List Instr := (knownCodes.map fun c => commandRow (BitVec.ofNat 8 c) body).reduceOption

theorem test_command_rows : (commandRows [0]).length = 40 := by decide +kernel
theorem test_wellformed_empty_body : ((commandRows []).any WellFormed) = false := by decide +kernel
theorem test_wellformed_long_body : ((commandRows (List.replicate 32 0)).any WellFormed) = false := by decide +kernel
theorem test_wellformed_greatest_body : ((commandRows (List.replicate 31 0)).all WellFormed) = true := by decide +kernel
theorem test_wellformed_known_code : WellFormed (.unknownCommand 0x30 [0]) = false := by decide +kernel
theorem test_wellformed_unknown_empty : WellFormed (.unknownCommand 0x99 []) = false := by decide +kernel
theorem test_wellformed_good_framing : WellFormed (.commandWriteBadFraming [0x01, 0x00]) = false := by decide +kernel
theorem test_wellformed_axis : WellFormed (.mark 0 2 0) = false := by decide +kernel
theorem test_wellformed_supply : WellFormed (.supply 0 3) = false := by decide +kernel
theorem test_wellformed_problem : WellFormed (.problem 0 3) = false := by decide +kernel

/-! ### Messages written out from R182 and R183 -/

theorem test_decode_read : decodeMessage [0x10, 0x02, 0x00, 0x07] = .readBin [0x02, 0x00, 0x07] := by decide +kernel
theorem test_decode_record :
    decodeMessage [0x23, 0x04, 0x00, 0x03, 0x02, 0x01] = .blockSlot [0x04, 0x00, 0x03, 0x02, 0x01] := by decide +kernel
theorem test_decode_work :
    decodeMessage [0x33, 0x04, 0x00, 0x07, 0x02, 0x01] = .fetch [0x04, 0x00, 0x07, 0x02, 0x01] := by decide +kernel
theorem test_decode_scan : decodeMessage [0x42, 0x00] = .stopScan [0x00] := by decide +kernel
theorem test_decode_machinery : decodeMessage [0x61, 0x02, 0x03, 0x01] = .drill [0x02, 0x03, 0x01] := by decide +kernel
theorem test_decode_setup : decodeMessage [0x71, 0x02, 0x00, 0x02] = .setDay [0x02, 0x00, 0x02] := by decide +kernel
theorem test_decode_unknown : decodeMessage [0x99, 0x00] = .unknownCommand 0x99 [0x00] := by decide +kernel
theorem test_decode_short : decodeMessage [0x71] = .commandWriteBadFraming [0x71] := by decide +kernel
theorem test_decode_mark : decodeDrive 3 (withParity [0x41, 0x02, 0x01, 0x07]) = .mark 3 1 7 := by decide +kernel
theorem test_decode_supply : decodeDrive 3 (withParity [0x47, 0x01, 0x02]) = .supply 3 2 := by decide +kernel
theorem test_decode_parity :
    decodeDrive 3 [(0x42, true), (0x00, false)] = .driveReportDiscarded 3 := by decide +kernel
theorem test_decode_scan_message :
    decodePanel 2 (withParity [0x11, 0x06, 0, 0, 0, 0, 0x12, 0x34]) = .itemScan 2 0x1234 := by decide +kernel
theorem test_decode_problem_code :
    decodePanel 2 (withParity [0x14, 0x01, 0x03]) = .panelMessageDiscarded 2 := by decide +kernel
theorem test_no_word_spells_a_command : decodeTableWord 8 1 = none := by decide +kernel
theorem test_message_frames :
    DriveMsg.frame (.go 4 2) = [0x31, 2, 4, 2] ∧ DriveMsg.frame (.fork true .right) = [0x32, 2, 1, 1] ∧
      PanelMsg.frame (.transfer .halt) = [0x25, 1, 2] := by decide +kernel

/-! ### The manual's worked examples -/

/-- R48: three keys and their home buckets. -/
theorem test_home_buckets :
    homeBucket 0x123456789ABC = 2112 ∧ homeBucket 0x1841 = 2112 ∧ homeBucket 0x841 = 2113 ∧ homeBucket 0x843 = 2115 ∧
      homeBucket 0x2842 = 2112 := by decide +kernel

/-- A record of the cluster of R51. -/
def item (k : ItemKey) : WithdrawalRec := ⟨k, 7, 0, 10, .out, none⟩

/-- The keys A to E in the order of their confirmation (R51 Table 3). -/
def cluster : List ItemKey := [0x123456789ABC, 0x841, 0x1841, 0x843, 0x2842]

/-- The table after the five insertions. -/
def clustered : State := cluster.foldl (fun t k => insertRecord (item k) t) site

/-- R51 Table 4: where the five records stand. -/
theorem test_cluster :
    clustered.withdrawals = [(2112, item 0x123456789ABC), (2113, item 0x841), (2114, item 0x1841), (2115, item 0x843),
      (2116, item 0x2842)] ∧ (lookup clustered.withdrawals 0x2842).probes = 5 := by decide +kernel

/-- R51 Table 5: the deletion of A moves C and E. -/
theorem test_cluster_deletion :
    (deleteRecord 0x123456789ABC clustered).withdrawals = [(2112, item 0x1841), (2113, item 0x841), (2114, item 0x2842),
      (2115, item 0x843)] ∧
    (lookup (deleteRecord 0x123456789ABC clustered).withdrawals 0x2842).probes = 3 := by decide +kernel

/-- R121 Table 3: with both aisles waiting and the last grant aisle 5, the freed place goes to aisle 4. -/
theorem test_alternation :
    nextGrant (modStation 2 (fun r => { r with lane := [1, 2], waiting0 := true, waiting1 := true, lastGrant := .second })
      site) 2 = some 4 := by decide +kernel

/-- R108: with r = 4, marks at 1,000, 1,160 and 1,300 ms break nothing. -/
theorem test_mark_ratio :
    (((MarkTiming.zero.next 1000).next 1160).breaks 1300 4) = false ∧
      (((MarkTiming.zero.next 1000).next 1160).next 1300).interval = 140 := by decide +kernel

/-- R89 to R91: a resting crane's approach, 10,167 ms with a deadline of 17,251 ms. -/
theorem test_resting_approach :
    let c := { CraneRec.reset with state := .resting, col := some 0, level := some 2 }
    segmentEstimate site c .travel 40 7 = some 10167 ∧ segmentDeadline site (some 10167) = 17251 := by decide +kernel

/-- R89 to R91: a short move of two columns, 1,633 ms, 1,933 ms with settle and a deadline of 4,900 ms; and the boundary. -/
theorem test_short_move :
    axisTime 2 500 3000 1500 = 1633 ∧ travelTime site 4 2 6 2 = 1933 ∧ segmentDeadline site (some 1933) = 4900 ∧
      axisTime 12 500 3000 1500 = 4000 := by decide +kernel

/-- R108: the fourth mark at 1,900 ms breaks the ratio. -/
theorem test_mark_breaks :
    ((((MarkTiming.zero.next 1000).next 1160).next 1300).breaks 1900 4) = true := by decide +kernel

/-- R55 with today 41,210: a past day, a day in the window, and one past it; and the window's end at 65,535. -/
theorem test_due_days :
    clampDue 41210 41100 = 41210 ∧ clampDue 41210 41500 = 41500 ∧ clampDue 41210 43000 = 42210 ∧
      clampDue 65000 65535 = 65535 := by decide +kernel

/-! ### The link, the resets and the reads -/

theorem meets_StepTakesTheFrontCommand :
    ({ site with pending := [.arrived 0, .homed 1] } : State).pending = .arrived 0 :: [.homed 1] := by decide +kernel

/-- A link with a reply waiting, and one with a command in hand. -/
def replying : State := writeReply .done [5, 6] site
def holding : State := loadCommand [0x68, 1, 0] site

theorem meets_BusyLinkDiscardsAndServes :
    inReset replying = false ∧ linkBusy replying = true ∧ encodeMessage (.stopScan [0]) = some [0x42, 0] ∧
      WellFormed (.stopScan [0]) = true ∧ inReset holding = false ∧ holding.link.cmdBusy = true ∧
      holding.link.restartTimer = none := by decide +kernel

theorem test_late : (after (.stopScan [0]) replying).link.late = true ∧
    (after (.writeCommandDiscarded [0x42, 0]) holding).link.late = true := by decide +kernel

theorem meets_CommandsAreExamined :
    linkIdle site ∧ ([0x42] : List Byte).length < 2 ∧ 32 < (List.replicate 33 (0 : Byte)).length ∧
      (0x99 : Byte).toNat ∉ knownCodes ∧ 1 ≤ ([0] : List Byte).length ∧ (List.replicate 31 (0 : Byte)).length ≤ 31 ∧
      ((commandShape (.setDay [1, 0])).map (·.fits)) = some false ∧
      commandShape (.fetch [4, 0, 7, 0, 0]) = some ⟨4, .service, [4, 0, 7, 0, 0]⟩ ∧
      linkIdle { site with mode := .commissioning } ∧ CommandShape.fits ⟨4, .service, [4, 0, 7, 0, 0]⟩ = true ∧
      commandShape (.finishCommissioning [0]) = some ⟨0, .commissioning, [0]⟩ ∧
      CommandShape.fits ⟨0, .commissioning, [0]⟩ = true ∧ site.mode = .service := by decide +kernel

theorem test_examined :
    replyOf (.setDay [1, 0]) site = [0x11, 0] ∧ replyOf (.unknownCommand 0x99 [0]) site = [0x10, 0] ∧
      replyOf (.fetch [4, 0, 7, 0, 0]) State.reset = [0x13, 0] ∧ replyOf (.finishCommissioning [0]) site = [0x14, 0] ∧
      replyOf (.commandWriteBadFraming [0x42]) site = [0x11, 0] := by decide +kernel

/-- An accepted Restart. -/
def restarting : State := after (.restart [0]) site

theorem meets_ReadReplySends :
    inReset replying = false ∧ replying.link.replyReady = true ∧ replying.link.restartTimer = none ∧
      restarting.link.replyReady = true ∧ inReset site = false ∧ site.link.replyReady = false ∧
      replying.link.reading = none ∧ (after (.readReply 2 true .capture) replying).link.reading = some (.reply (some [0, 2, 5, 6])) ∧
      (after (.readReply 2 true .capture) replying).link.restartTimer = none ∧
      (after (.readReply 2 true .capture) restarting).link.restartTimer.isSome = true ∧
      (after (.readReply 2 true .capture) site).link.reading = some (.reply none) := by decide +kernel

theorem test_read_reply :
    (after (.readReply 6 true) replying).link.hostOut = [0, 2, 5, 6, 0, 0] ∧
      (after (.readReply 1 true) replying).link.replyReady = false ∧
      (after (.readReply 2 true) site).link.hostOut = [0xFF, 0xFF] := by decide +kernel

/-- A read-status and a read-and-clear transaction in progress (R169, R171). -/
def reading : State := after (.readStatusTransaction .capture) { State.reset with link := { State.reset.link with late := true } }
def clearing : State := after (.readAndClearAttention .capture) (setAttention 0 State.reset)

theorem meets_StatusAndAttentionAreSent :
    inReset State.reset = false ∧ State.reset.link.reading = none ∧ inReset reading = false ∧
      reading.link.reading = some (.status true) ∧ inReset clearing = false ∧
      clearing.link.reading = some (.attention 0x080001) := by decide +kernel

/-- A bit set again after the capture stays set at the end, and the others sent are cleared (R171); a reset takes the
transaction in progress with it (R164). -/
theorem test_set_again :
    (after (.readAndClearAttention .finish) (setAttention 0 clearing)).link.summary = 1 ∧
      (after (.readAndClearAttention .finish) clearing).link.summary = 0 ∧ clearing.link.summary = 0x080001 ∧
      (after (.readStatusTransaction .finish) reading).link.lateFlag = false ∧
      (after (.powerOn true) reading).link.reading = none := by decide +kernel

/-- After a power-on the status byte shows ATTN, COMMISSIONING and RESTARTED, and the summary bit 19 (R169, R171, R173). -/
theorem test_status_and_attention :
    (after .readStatusTransaction State.reset).link.hostOut = [0x34] ∧
      (after .readAndClearAttention State.reset).link.hostOut = [0x08, 0, 0] ∧
      (after .readAndClearAttention State.reset).link.attention = 0 := by decide +kernel

/-- The prescaler one short of the reload count. -/
def lateClock : State := { site with time := ⟨15999, 16000, 2 ^ 48 - 1⟩ }

theorem meets_TimebaseCounts :
    inReset site = false ∧ site.pending = [] ∧ site.time.prescaler + 1 < site.time.reload ∧ inReset lateClock = false ∧
      lateClock.pending = [] ∧ lateClock.time.reload ≤ lateClock.time.prescaler + 1 := by decide +kernel

theorem test_tick : (after .timebaseTick lateClock).time = ⟨0, 16000, 0⟩ ∧
    (crane (after .timebaseTick lateClock) 0).restTimer = some 59999 := by decide +kernel

/-- RESET_N held low. -/
def heldReset : State := after (.resetAsserted true) site

theorem meets_NothingIsTakenInAReset :
    inReset heldReset = true ∧ changesPin (.arrived 0) = false ∧ stationPresent State.reset 0 = false := by decide +kernel

theorem meets_ResetsBeginAndEnd :
    heldReset.resets.pinLow = true ∧ heldReset.resets.active = some .pin ∧ site.resets.pinLow = false ∧
      inReset site = false ∧ site.resets.active = none ∧ linkIdle site ∧ inReset restarting = false ∧
      restarting.link.replyReady = true ∧ restarting.link.restartTimer = some 1000 ∧
      inReset { site with link := { site.link with restartTimer := some 0 } } = false ∧
      site.link.restartTimer ≠ some 0 := by decide +kernel

theorem test_resets :
    (after .resetReleased heldReset).resets = ⟨false, none, .pin⟩ ∧
      (station heldReset 2).holdOpen = false ∧ (after (.readReply 2 true) restarting).resets.cause = .restart ∧
      (after (.powerOn true) site).resets.cause = .powerKept ∧
      (crane (after (.powerOn true) site) 5).state = .homing := by decide +kernel

/-- A wing whose zone 0 a kept reset finds in a state, with bin 7 at the face there. -/
def leftIn (st : ZoneState) : State := resetAtOnce .pin (inZoneState st (served box []))

theorem meets_ResetsSetUpTheBlocks :
    ResetCause.pin ≠ .powerLost ∧ (zone (served box []) 0).state = .clear ∧
      (zone (inZoneState .alert site) 0).state = .alert ∧ (zone (inZoneState .awaitRestore site) 0).state = .awaitRestore ∧
      (zone (inZoneState .sealed site) 0).state = .sealed ∧ (zone (inZoneState .shutdown site) 0).state = .shutdown ∧
      (zone (inZoneState .recovery site) 0).state = .recovery ∧ stationPresent (leftIn .clear) 0 = true ∧
      stationPresent (resetAtOnce .pin State.reset) 0 = false ∧ aislePresent (leftIn .clear) 0 = true := by decide +kernel

theorem test_power_lost : (after (.powerOn false) stocked).bins = [] ∧
    (after (.powerOn false) stocked).params = defaultParams ∧
    (after (.powerOn false) (setConditioner 9 ⟨true, false, none⟩ site)).inputs.get 9 = ⟨true, false, some 100⟩ := by
  decide +kernel

/-- R63, R179: what a reset with retention lost emptied is not there again after a power-on within that reset. -/
theorem test_power_lost_in_a_reset :
    (after .resetReleased (after (.powerOn true) (after (.powerOn false) (after (.resetAsserted true) stocked)))).bins = [] ∧
      bin (after .resetReleased (after (.powerOn true) (after (.resetAsserted true) stocked))) 7 = some box := by
  decide +kernel

/-- R118, R138, R155: a face bin keeps its place and a zone in SHUTDOWN is sealed. -/
theorem test_kept_blocks :
    (station (leftIn .clear) 0).face = some ⟨7, 3⟩ ∧ (station (leftIn .clear) 0).faceTimer = some 600000 ∧
      (station (leftIn .clear) 0).shutter = .opening ∧ (crane (leftIn .clear) 1).state = .homing ∧
      (zone (leftIn .shutdown) 0).state = .sealed ∧ (station (leftIn .shutdown) 0).shutter = .closing ∧
      (crane (leftIn .shutdown) 1).parkOrder = true := by decide +kernel

theorem meets_ResetsBeginAndEnd_kept : ResetCause.pin ≠ .powerLost ∧ visit site 3 = none ∧
    visit (served box []) 3 = some (trip .atFace []) ∧ (trip .atFace []).outcome = none ∧
    ({ trip .done [] with outcome := some .done } : VisitRec).outcome ≠ none ∧
    oddOnes ((site.params.set 17 ⟨121, false⟩).get 17).value ≠ ((site.params.set 17 ⟨121, false⟩).get 17).parity := by
  decide +kernel

/-- A crossing mark makes its bin UNCERTAIN and OBSTRUCTED, and a word of bad parity goes back to its default (R21, R180). -/
theorem test_kept_reset :
    ((bin (resetAtOnce .pin (setCrossingMark 0 (some 7) stocked)) 7).map fun r => (r.uncertain, r.obstructed)) =
      some (true, true) ∧
    param (resetAtOnce .pin { site with params := site.params.set 17 ⟨121, false⟩ }) 17 = 120 ∧
    (resetAtOnce .pin { site with params := site.params.set 17 ⟨121, false⟩ }).mode = .commissioning := by decide +kernel

theorem meets_RecordReadsReply :
    linkIdle stocked ∧ ([0x40, 0x00] : List Byte).length = 2 ∧ 16384 ≤ wordAt [0x40, 0x00] 0 ∧
      wordAt [0x3F, 0xFF] 0 < 16384 ∧ bin stocked (wordAt [0x3F, 0xFF] 0) = none ∧
      bin stocked (wordAt [0, 7] 0) = some box ∧ slotAt [0, 96, 0, 0] 0 = none ∧ slotAt [0, 95, 11, 1] 0 = some other ∧
      4096 ≤ wordAt [0x10, 0] 0 ∧ wordAt [0x0F, 0xFF] 0 < 4096 ∧
      tableGet (lent .out).withdrawals (wordAt [0x0F, 0xFF] 0) = none ∧
      tableGet (lent .out).withdrawals (wordAt [0x08, 0x40] 0) = some ⟨key1, 7, 0, 10, .out, none⟩ ∧
      64 ≤ byteAt [64, 0] 0 ∧ 2 < byteAt [63, 3] 1 ∧ byteAt [63, 2] 0 < 64 ∧ byteAt [63, 2] 1 ≤ 2 ∧
      visit stocked (byteAt [63, 2] 0) = none ∧
      visit (served box []) (byteAt [3, 0] 0) = some (trip .atFace []) ∧ keyAt [0, 0, 0, 0, 0, 0] 0 = 0 ∧
      keyAt keyBytes1 0 ≠ 0 ∧ withdrawal (lent .out) (keyAt keyBytes1 0) = some ⟨key1, 7, 0, 10, .out, none⟩ ∧
      (lookup stocked.withdrawals (keyAt keyBytes1 0)).found = false ∧
      findPendingTask (keyAt keyBytes1 0) stocked.visits = none ∧
      findPendingTask (keyAt keyBytes1 0) (served box [task .lend]).visits = some ⟨3, 0, .lend⟩ := by decide +kernel

theorem test_record_reads :
    replyOf (.readBin (commandBody [0, 7])) stocked =
      [0, 20, 0, 7, 1, 20, 5, 0, 0, 0, 0, 3, 2, 0, 0, 0xFF, 0xFF, 0xFF, 0, 0, 0, 0] ∧
    replyOf (.readSlot (commandBody [0, 3, 2, 0])) stocked = [0, 3, 2, 0, 7] ∧
    replyOf (.findItem (commandBody keyBytes1)) stocked = [0x32, 2, 0x08, 0x40] := by decide +kernel

theorem meets_BlockAndStatusReadsReply :
    linkIdle site ∧ aisleOf (byteAt [7] 0) = some 7 ∧ aislePresent site 7 = true ∧ linkIdle State.reset ∧
      aislePresent State.reset 7 = false ∧ aisleOf (byteAt [8] 0) = none ∧ stationOf (byteAt [3] 0) = some 3 ∧
      stationPresent site 3 = true ∧ stationPresent State.reset 3 = false ∧ stationOf (byteAt [4] 0) = none ∧ paramOf (byteAt [40] 0) = some 40 ∧
      paramOf (byteAt [41] 0) = none := by decide +kernel

theorem test_block_reads :
    replyOf (.readStatus [0]) State.reset = [0, 6, 0, 0, 0, 0, 0, 0] ∧
      replyOf (.readStation (commandBody [3])) State.reset = [0x12, 0] ∧
      replyOf (.readParameter (commandBody [17])) site = [0, 3, 0, 120, 0] ∧
      (replyOf (.readCrane (commandBody [0])) site).length = 51 ∧
      (station (after (.readStation (commandBody [0])) (modStation 0 (fun r => { r with faceLong := true }) site)) 0).faceLong =
        false := by decide +kernel

/-! ### Bins, slots and work -/

/-- Admit Bin of bin 16,383 at its greatest fields, in the other slot. -/
def admitBytes : List Byte := [0x3F, 0xFF, 3, 250, 250, 0, 95, 11, 1, 0]

/-- The wing in COMMISSIONING. -/
def loading : State := { stocked with mode := .commissioning }

theorem meets_AdmitBinEntersTheRecord :
    linkIdle loading ∧ loading.mode = .commissioning ∧ admitBytes.length = 10 ∧ wordAt admitBytes 0 < 16384 ∧
      byteAt admitBytes 2 ≤ 3 ∧ 1 ≤ byteAt admitBytes 3 ∧ byteAt admitBytes 3 ≤ 250 ∧
      byteAt admitBytes 4 ≤ byteAt admitBytes 3 ∧ slotAt admitBytes 5 = some other ∧
      bin loading (wordAt admitBytes 0) = none ∧ aislePresent loading other.aisle = true ∧
      slotEntry loading other = .empty ∧ slotEntry loading home ≠ .empty ∧
      (bin loading (wordAt [0, 7, 0, 1, 0, 0, 95, 11, 1, 0] 0)).isSome = true ∧ aislePresent State.reset other.aisle = false ∧
      linkIdle State.reset ∧ bin State.reset (wordAt admitBytes 0) = none ∧ slotAt [0, 9, 0, 1, 0, 0, 3, 2, 0, 0] 5 = some home ∧
      linkIdle stocked ∧ stocked.mode = .service ∧ stationOf (byteAt admitBytes 9) = some 0 ∧
      stationPresent stocked 0 = true ∧ zoneOf other.aisle = 0 ∧ bin stocked (wordAt admitBytes 0) = none ∧
      (zone stocked 0).state = .clear ∧ service stocked other.aisle = .inService ∧ (station stocked 0).jammed = false ∧
      (station stocked 0).reopenFault = false ∧ (station stocked 0).face = none ∧ (station stocked 0).crossing = none ∧
      (station stocked 0).openingBin = none ∧ slotEntry stocked other = .empty ∧ freeVisit stocked = some 0 := by decide +kernel

theorem test_admit :
    replyOf (.admitBin (commandBody admitBytes)) loading = [0, 1, 0xFF] ∧
      slotEntry (after (.admitBin (commandBody admitBytes)) loading) other = .filled 16383 ∧
      (station (after (.admitBin (commandBody admitBytes)) stocked) 0).face = some ⟨16383, 0⟩ ∧
      slotEntry (after (.admitBin (commandBody admitBytes)) stocked) other = .home 16383 := by decide +kernel

/-- Alter Bin of the fill, and of a cleared flag. -/
def alterFill (n : Byte) : List Byte := [0, 7, 4, 0, 0, n, 0]
def clearFlags : List Byte := [0, 7, 0, 0, 0, 0, 15]

/-- The wing with the sector of bin 7 protected. -/
def guarded : State := { stocked with protection := 1 }

theorem meets_AlterBinChanges :
    linkIdle stocked ∧ (alterFill 20).length = 7 ∧ wordAt (alterFill 20) 0 < 16384 ∧ byteAt (alterFill 20) 2 < 16 ∧
      byteAt (alterFill 20) 6 = 0 ∧ byteAt (alterFill 20) 3 = 0 ∧ byteAt (alterFill 20) 4 = 0 ∧ bitAt (alterFill 20) 2 2 = true ∧
      byteAt (alterFill 20) 5 ≤ 250 ∧
      bin stocked (wordAt (alterFill 20) 0) = some box ∧ isProtected guarded (wordAt (alterFill 20) 0) = true ∧
      byteAt (alterFill 20) 2 ≠ 0 ∧ linkIdle guarded ∧ bin guarded 7 = some box ∧ byteAt clearFlags 6 < 16 ∧
      byteAt clearFlags 2 = 0 ∧ isProtected stocked 7 = false ∧ box.lendHolds ≤ 20 ∧
      20 + box.withdrawn + box.refileHolds ≤ box.capacity ∧ box.capacity < 21 + box.withdrawn + box.refileHolds ∧
      byteAt (alterFill 21) 5 ≤ 250 := by decide +kernel

theorem test_alter :
    ((bin (after (.alterBin (commandBody (alterFill 20))) stocked) 7).map (·.fill)) = some 20 ∧
      replyOf (.alterBin (commandBody (alterFill 20))) guarded = [0x22, 0] ∧
      replyOf (.alterBin (commandBody (alterFill 21))) stocked = [0x15, 0] := by decide +kernel

theorem meets_RetireBin_refused :
    16384 ≤ wordAt [0x40, 0] 0 ∧ bin site 7 = none ∧ isProtected guarded 7 = true ∧
      zoneClosed (inZoneState .sealed (served box [])) 0 = true ∧ box.location ≠ .face 0 ∧
      (task .fetch).state = .pending := by decide +kernel

theorem meets_RetireBinRemoves :
    linkIdle (served box []) ∧ (served box []).mode = .service ∧ ([0, 7] : List Byte).length = 2 ∧ wordAt [0, 7] 0 < 16384 ∧
      bin (served box []) (wordAt [0, 7] 0) = some { box with location := .face 0, openVisit := some 3 } ∧
      isProtected (served box []) 7 = false ∧ zoneClosed (served box []) (zoneOf box.home.aisle) = false ∧
      Location.face 0 = .face (zoneOf box.home.aisle) ∧ box.withdrawn = 0 ∧
      visit (served box []) 3 = some (trip .atFace []) ∧ (∀ t ∈ (trip .atFace []).tasks, t.state ≠ .pending) := by
  decide +kernel

theorem test_retire :
    bin (after (.retireBin (commandBody [0, 7])) (served box [])) 7 = none ∧
      ((visit (after (.retireBin (commandBody [0, 7])) (served box [])) 3).map (·.outcome)) = some (some .removed) ∧
      (station (after (.retireBin (commandBody [0, 7])) (served box [])) 0).face = none := by decide +kernel

theorem meets_SlotsAndProtectionAreSet :
    linkIdle stocked ∧ ([0, 95, 11, 1] : List Byte).length = 4 ∧ slotAt [8, 0, 0, 0] 0 = none ∧
      slotAt [0, 95, 11, 1] 0 = some other ∧ slotEntry stocked other = .empty ∧
      slotEntry (setSlot other .blocked stocked) other = .blocked ∧ slotAt [0, 3, 2, 0] 0 = some home ∧
      slotEntry stocked home ≠ .empty ∧ slotEntry stocked home ≠ .blocked ∧ home ≠ other ∧
      ([0x80, 1] : List Byte).length = 2 := by decide +kernel

theorem test_slots :
    slotEntry (after (.blockSlot (commandBody [0, 95, 11, 1])) stocked) other = .blocked ∧
      replyOf (.unblockSlot (commandBody [0, 3, 2, 0])) stocked = [0x15, 0] ∧
      (after (.setProtection (commandBody [0x80, 1])) stocked).protection = 0x8001 ∧
      isProtected (after (.setProtection (commandBody [0x80, 1])) stocked) 15360 = true := by decide +kernel

/-- Visits 0..63 all taken. -/
def crowded : State :=
  (List.range 64).foldl (fun t n => setVisit n { trip .queued [] with outcome := some .done } t) stocked

theorem meets_TasksArePlaced :
    box.openVisit = none ∧ freeVisit stocked = some 0 ∧ freeVisit crowded = none ∧
      bin (served box []) 7 = some { box with location := .face 0, openVisit := some 3 } ∧
      visit (served box []) 3 = some (trip .atFace []) ∧ (trip .atFace []).kind ≠ .relocation ∧
      (trip .atFace []).state ≠ .withdrawing ∧ (trip .atFace []).state ≠ .atOutbound ∧
      (trip .atFace []).state ≠ .inbound ∧ (trip .atFace (List.replicate 7 (task .fetch))).tasks.length < 8 ∧
      8 ≤ (trip .atFace (List.replicate 8 (task .fetch))).tasks.length ∧ (trip .inbound []).state = .inbound ∧
      bin stocked 7 = some box ∧ (task .lend).state = .pending := by decide +kernel

/-- The parameters of a Lend of the key from bin 7 at priority 3 with a due day. -/
def lendBytes (hi lo : Byte) : List Byte := keyBytes1 ++ [0, 7, 3, hi, lo]

theorem meets_LendIsPlaced :
    linkIdle stocked ∧ stocked.mode = .service ∧ (lendBytes 0x03 0xE8).length = 11 ∧ keyAt (lendBytes 0x03 0xE8) 0 ≠ 0 ∧
      wordAt (lendBytes 0x03 0xE8) 6 < 16384 ∧ byteAt (lendBytes 0x03 0xE8) 8 ≤ 3 ∧
      bin stocked (wordAt (lendBytes 0x03 0xE8) 6) = some box ∧ box.quarantined = false ∧
      zoneClosed stocked (zoneOf box.home.aisle) = false ∧ service stocked box.home.aisle = .inService ∧
      keyTaken stocked (keyAt (lendBytes 0x03 0xE8) 0) = false ∧
      stocked.recordCount + stocked.pendingLends < param stocked 38 ∧ box.lendHolds < box.fill ∧
      visitRule stocked box = none ∧ clampDue stocked.day (wordAt (lendBytes 0x03 0xE8) 9) = 1000 ∧
      clampDue stocked.day (wordAt (lendBytes 0x03 0xE9) 9) = 1000 := by decide +kernel

/-- A Lend at a READY crane: the reply, the hold, and the GO to column 3, level 2 with the visit OUTBOUND (R56, R81). -/
theorem test_lend :
    replyOf (.lend (commandBody (lendBytes 0x03 0xE9))) stocked = [1, 4, 0, 0, 0x03, 0xE8] ∧
      (after (.lend (commandBody (lendBytes 0x03 0xE8))) stocked).sent = [.drive 0 (.go 4 2)] ∧
      ((visit (after (.lend (commandBody (lendBytes 0x03 0xE8))) stocked) 0).map (·.state)) = some .outbound ∧
      (after (.lend (commandBody (lendBytes 0x03 0xE8))) stocked).pendingLends = 1 := by decide +kernel

/-- The wing with another record of bin 7. -/
def stockedWith (r : BinRec) : State := setBin 7 r stocked

theorem meets_LendIsRefusedInOrder :
    keyAt (List.replicate 11 0) 0 = 0 ∧ bin site (wordAt (lendBytes 0 0) 6) = none ∧ linkIdle site ∧
      { box with quarantined := true }.quarantined = true ∧ bin (stockedWith { box with quarantined := true }) 7 =
        some { box with quarantined := true } ∧
      zoneClosed (inZoneState .sealed stocked) (zoneOf box.home.aisle) = true ∧
      service (setAisle 0 ⟨.suspended, false⟩ stocked) box.home.aisle ≠ .inService ∧
      keyTaken (lent .out) (keyAt (lendBytes 0 0) 0) = true ∧
      param stocked 38 ≤ ({ stocked with recordCount := 3600 } : State).recordCount + stocked.pendingLends ∧
      ({ box with lendHolds := 5 } : BinRec).fill ≤ 5 ∧ visitRule crowded box = some .tableFull := by decide +kernel

theorem test_lend_refused :
    replyOf (.lend (commandBody (List.replicate 11 0))) stocked = [0x12, 0] ∧
      replyOf (.lend (commandBody (lendBytes 0 0))) site = [0x20, 0] ∧
      replyOf (.lend (commandBody (lendBytes 0 0))) (stockedWith { box with quarantined := true }) = [0x23, 0] ∧
      replyOf (.lend (commandBody (lendBytes 0 0))) (inZoneState .sealed stocked) = [0x40, 0] ∧
      replyOf (.lend (commandBody (lendBytes 0 0))) (setAisle 0 ⟨.suspended, false⟩ stocked) = [0x41, 0] ∧
      replyOf (.lend (commandBody (lendBytes 0 0))) (lent .out) = [0x31, 0] ∧
      replyOf (.lend (commandBody (lendBytes 0 0))) { stocked with recordCount := 3600 } = [0x30, 0] ∧
      replyOf (.lend (commandBody (lendBytes 0 0))) (stockedWith { box with lendHolds := 5 }) = [0x26, 0] ∧
      replyOf (.lend (commandBody (lendBytes 0 0))) crowded = [0x30, 0] := by decide +kernel

theorem meets_ReturnIsPlaced :
    linkIdle (lent .out) ∧ (lent .out).mode = .service ∧ (keyBytes1 ++ [3]).length = 7 ∧ keyAt (keyBytes1 ++ [3]) 0 ≠ 0 ∧
      byteAt (keyBytes1 ++ [3]) 6 ≤ 3 ∧ withdrawal (lent .out) key1 = some ⟨key1, 7, 0, 10, .out, none⟩ ∧
      withdrawal stocked key1 = none ∧ withdrawal (lent .returning) key1 = some ⟨key1, 7, 0, 10, .returning, none⟩ ∧
      bin (lent .out) 7 = some { box with withdrawn := 1 } ∧ zoneClosed (lent .out) 0 = false ∧
      service (lent .out) 0 = .inService ∧ visitRule (lent .out) { box with withdrawn := 1 } = none := by decide +kernel

theorem test_return :
    replyOf (.returnItem (commandBody (keyBytes1 ++ [3]))) (lent .out) = [0, 4, 0, 7, 0, 0] ∧
      (after (.returnItem (commandBody (keyBytes1 ++ [3]))) (lent .out)).withdrawals =
        [(2112, ⟨key1, 7, 0, 10, .returning, some 0⟩)] ∧
      replyOf (.returnItem (commandBody (keyBytes1 ++ [3]))) (lent .returning) = [0x33, 0] := by decide +kernel

/-- Refile of the key to bin 7, and to ANY of size class 1 at station 0. -/
def refileBytes : List Byte := keyBytes1 ++ [0, 7, 0, 0, 2]
def refileAny : List Byte := keyBytes1 ++ [0xFF, 0xFF, 1, 0, 2]

theorem meets_RefileToANamedBin :
    linkIdle stocked ∧ refileBytes.length = 11 ∧ keyAt refileBytes 0 ≠ 0 ∧ wordAt refileBytes 6 < 16384 ∧
      byteAt refileBytes 10 ≤ 3 ∧ bin stocked (wordAt refileBytes 6) = some box ∧
      keyTaken stocked (keyAt refileBytes 0) = false ∧ box.fill + box.withdrawn + box.refileHolds < box.capacity ∧
      visitRule stocked box = none ∧ bin (stockedWith { box with fill := 20 }) 7 = some { box with fill := 20 } ∧
      ({ box with fill := 20 } : BinRec).capacity ≤ 20 := by decide +kernel

theorem test_refile :
    replyOf (.refile (commandBody refileBytes)) stocked = [0, 4, 0, 7, 0, 0] ∧
      ((bin (after (.refile (commandBody refileBytes)) stocked) 7).map (·.refileHolds)) = some 1 ∧
      replyOf (.refile (commandBody refileBytes)) (stockedWith { box with fill := 20 }) = [0x25, 0] := by decide +kernel

theorem meets_RefileAnyStartsTheSearch :
    linkIdle stocked ∧ refileAny.length = 11 ∧ wordAt refileAny 6 = 0xFFFF ∧ keyAt refileAny 0 ≠ 0 ∧
      byteAt refileAny 8 ≤ 3 ∧ stationOf (byteAt refileAny 9) = some 0 ∧ stationPresent stocked 0 = true ∧
      byteAt refileAny 10 ≤ 3 ∧ zoneClosed stocked 0 = false ∧ service stocked (aisle0 0) = .inService ∧
      keyTaken stocked (keyAt refileAny 0) = false := by decide +kernel

/-- A search at bin 7, at the last bin, and with a winner at the last bin. -/
def searching (cursor pass : Nat) (w : Option Winner) : State :=
  { after (.refile (commandBody refileAny)) stocked with
    chanP := ⟨.bin, 0, 16383, cursor, none, .single, .running, [], pass, false⟩, search := ⟨key1, 1, 0, 2, 0, w⟩ }

theorem meets_PlacementSearchRuns :
    inReset (searching 7 0 none) = false ∧ stocked.chanP.state ≠ .running ∧ (searching 7 0 none).chanP.state = .running ∧
      (searching 7 0 none).chanP.cursor < (searching 7 0 none).chanP.last ∧
      bin (searching 7 0 none) 7 = some box ∧ isCandidate (searching 7 0 none) 7 box = true ∧ room box = 15 ∧
      (searching 7 0 (some ⟨6, 15⟩)).search.winner = some ⟨6, 15⟩ ∧
      (searching 16383 0 none).chanP.last ≤ (searching 16383 0 none).chanP.cursor ∧
      bin (searching 16383 0 none) 16383 = none ∧ zoneClosed (searching 16383 0 none) 0 = false ∧
      zoneClosed (inZoneState .shutdown (searching 16383 0 none)) 0 = true ∧
      isCandidate (searching 16383 0 (some ⟨7, 15⟩)) 7 box = true ∧
      isCandidate (searching 16383 0 (some ⟨7, 15⟩)) 7 { box with quarantined := true } = false := by decide +kernel

/-- The same wing with such a bin as the last of the range too, at 900 ms. -/
def searchingLast : State :=
  { setBin 16383 box (searching 16383 0 none) with
    time := ⟨0, 16000, 900⟩, search := { (searching 16383 0 none).search with taken := 500 } }

theorem meets_PlacementSearch_last :
    bin searchingLast searchingLast.chanP.cursor = some box ∧ isCandidate searchingLast 16383 box = true := by
  decide +kernel

/-- R24: the visit has the moment its Refile was taken as its creation time. -/
theorem test_search_creation :
    ((visit (after .placementSearchStep searchingLast) 0).map fun v => (v.bin, v.created)) = some (16383, 500) := by
  decide +kernel

theorem test_search :
    (after .placementSearchStep (searching 7 0 none)).search.winner = some ⟨7, 15⟩ ∧
      (after .placementSearchStep (searching 7 0 (some ⟨6, 15⟩))).search.winner = some ⟨6, 15⟩ ∧
      replyOf .placementSearchStep (searching 16383 0 none) = [0x25, 0] ∧
      replyOf .placementSearchStep (searching 16383 0 (some ⟨7, 15⟩)) = [0, 4, 0, 7, 0, 0] ∧
      (after .placementSearchStep (searching 16383 0 (some ⟨8, 15⟩))).chanP.passCount = 1 ∧
      replyOf .placementSearchStep (searching 16383 1 (some ⟨8, 15⟩)) = [0x25, 0] := by decide +kernel

/-- Move Home of bin 7 to the other slot. -/
def moveBytes : List Byte := [0, 7, 0, 95, 11, 1]

theorem meets_FetchAndMoveHomeArePlaced :
    linkIdle stocked ∧ ([0, 7, 3, 1] : List Byte).length = 4 ∧ wordAt [0, 7, 3, 1] 0 < 16384 ∧ byteAt [0, 7, 3, 1] 2 ≤ 3 ∧
      byteAt [0, 7, 3, 1] 3 ≤ 1 ∧ bin stocked (wordAt [0, 7, 3, 1] 0) = some box ∧ zoneClosed stocked 0 = false ∧
      service stocked 0 = .inService ∧ visitRule stocked box = none ∧ moveBytes.length = 6 ∧
      slotAt moveBytes 2 = some other ∧ other.aisle = box.home.aisle ∧ other ≠ box.home ∧ isProtected stocked 7 = false ∧
      box.location = .slot ∧ slotEntry stocked other = .empty ∧ freeVisit stocked = some 0 := by decide +kernel

theorem test_fetch_and_move :
    replyOf (.fetch (commandBody [0, 7, 1, 1])) stocked = [0, 2, 0, 0] ∧
      ((visit (after (.fetch (commandBody [0, 7, 1, 1])) stocked) 0).map fun v => (v.priority, v.urgent)) = some (3, true) ∧
      replyOf (.moveHome (commandBody moveBytes)) stocked = [0, 1, 0] ∧
      slotEntry (after (.moveHome (commandBody moveBytes)) stocked) other = .target 7 := by decide +kernel

theorem meets_WorkIsCancelled :
    linkIdle (served box [task .lend]) ∧ byteAt [3, 0] 0 < 64 ∧ byteAt [3, 7] 1 < 8 ∧
      visit (served box [task .lend]) 3 = some (trip .atFace [task .lend]) ∧ (trip .atFace [task .lend]).outcome = none ∧
      (trip .atFace [task .lend]).tasks[0]? = some (task .lend) ∧ (task .lend).state = .pending ∧
      bin (served box [task .lend]) 7 = some { box with location := .face 0, openVisit := some 3 } ∧
      (served box [task .lend]).mode = .service ∧ (task .return).kind = .return ∧ (task .return).key = some key1 ∧
      withdrawal (lent .returning) key1 = some ⟨key1, 7, 0, 10, .returning, none⟩ := by decide +kernel

/-- A visit waiting for its crane with one Fetch. -/
def waitingTrip : State :=
  setVisit 3 (trip .queued [task .fetch]) (setBin 7 { box with openVisit := some 3 } (setSlot home (.filled 7) site))

theorem test_cancel :
    replyOf (.cancelVisit (commandBody [3])) waitingTrip = [0, 1, 0] ∧
      ((visit (after (.cancelTask (commandBody [3, 0])) waitingTrip) 3).map (·.outcome)) = some (some .cancelled) ∧
      replyOf (.cancelVisit (commandBody [3])) (served box [task .fetch]) = [0, 1, 1] := by decide +kernel

theorem meets_VisitsEnd :
    visit (served box []) 3 = some (trip .atFace []) ∧
      bin (served box []) (trip .atFace []).bin = some { box with location := .face 0, openVisit := some 3 } := by
  decide +kernel

theorem meets_RecordsAreCleared :
    linkIdle crowded ∧ crowded.mode = .service ∧ ([63] : List Byte).length = 1 ∧ byteAt [63] 0 < 64 ∧
      visit crowded 63 = some { trip .queued [] with outcome := some .done } ∧
      visit waitingTrip 3 = some (trip .queued [task .fetch]) ∧ keyBytes1.length = 6 ∧ keyAt keyBytes1 0 ≠ 0 ∧
      withdrawal stocked key1 = none ∧ withdrawal (lent .out) key1 = some ⟨key1, 7, 0, 10, .out, none⟩ ∧
      bin (lent .out) 7 = some { box with withdrawn := 1 } := by decide +kernel

theorem test_records_cleared :
    visit (after (.retireVisit (commandBody [63])) crowded) 63 = none ∧
      replyOf (.retireVisit (commandBody [3])) waitingTrip = [0x15, 0] ∧
      replyOf (.writeOffItem (commandBody keyBytes1)) (lent .out) = [0, 3, 0, 7, 0] ∧
      (after (.writeOffItem (commandBody keyBytes1)) (lent .out)).withdrawals = [] := by decide +kernel

/-! ### Scans, machinery and set-up -/

/-- A query of bins 0..16,383 with room for at most 5 items in them, in a LOOP. -/
def scanBytes1 : List Byte := [0, 0, 0, 0x3F, 0xFF, 5, 0, 0, 0, 5, 1]

/-- A running query at a cursor of the range 7..8, with some entries listed. -/
def scanning (m : ScanMode) (cursor n : Nat) : State :=
  { stocked with
    chanQ := ⟨.bin, 7, 8, cursor, some (.fillAtMost 5), m, .running, List.replicate n (.bin 1), 65535, false⟩ }

/-- The same query of the Withdrawal Table. -/
def tableScan (f : Filter) : State :=
  { lent .out with chanQ := ⟨.withdrawal, 2112, 2113, 2112, some f, .single, .running, [], 0, false⟩, day := 11 }

theorem meets_QueriesStartAndAreRead :
    linkIdle stocked ∧ scanBytes1.length = 11 ∧ scanTableOf (byteAt scanBytes1 0) = some .bin ∧
      scanModeOf (byteAt scanBytes1 10) = some .loop ∧ wordAt scanBytes1 1 ≤ wordAt scanBytes1 3 ∧
      wordAt scanBytes1 3 < 16384 ∧ filterOf scanBytes1 6 .bin (byteAt scanBytes1 5) = some (.fillAtMost 5) ∧
      scanTableOf (byteAt [2] 0) = none ∧ filterOf [0, 0, 0, 0, 1, 8, 0, 0, 0, 0, 0] 6 .bin 8 = none ∧
      linkIdle (scanning .single 7 16) := by decide +kernel

theorem test_queries :
    (after (.startScan (commandBody scanBytes1)) stocked).chanQ =
      ⟨.bin, 0, 16383, 0, some (.fillAtMost 5), .loop, .running, [], 0, false⟩ ∧
    replyOf (.startScan (commandBody [0, 0, 0, 0, 1, 8, 0, 0, 0, 0, 0])) stocked = [0x12, 0] ∧
    (after (.readScanResults [0]) { scanning .single 7 16 with
      chanQ := { (scanning .single 7 16).chanQ with state := .paused } }).chanQ.state = .running := by decide +kernel

theorem meets_StopScanEndsTheQuery : linkIdle (scanning .loop 7 0) ∧ linkIdle stocked ∧ stocked.chanQ.state = .idle := by
  decide +kernel

theorem test_stop_scan : replyOf (.stopScan [0]) (scanning .loop 7 0) = [0, 1, 1] ∧
    (after (.stopScan [0]) (scanning .loop 7 3)).chanQ.results.length = 3 := by decide +kernel

theorem meets_ScanStepJudgesOneRecord :
    inReset (scanning .loop 7 0) = false ∧ stocked.chanQ.state ≠ .running ∧ (scanning .loop 7 0).chanQ.state = .running ∧
      (scanning .loop 7 0).chanQ.cursor < (scanning .loop 7 0).chanQ.last ∧
      ((scanning .loop 7 0).chanQ.results ++ (judgeQuery (scanning .loop 7 0) (scanning .loop 7 0).chanQ).toList).length < 16 ∧
      16 ≤ ((scanning .loop 7 15).chanQ.results ++
        (judgeQuery (scanning .loop 7 15) (scanning .loop 7 15).chanQ).toList).length ∧
      (scanning .single 8 0).chanQ.last ≤ (scanning .single 8 0).chanQ.cursor ∧ (scanning .single 8 0).chanQ.mode = .single ∧
      (scanning .loop 8 0).chanQ.mode = .loop ∧ bin (scanning .loop 7 0) 7 = some box ∧ box.fill ≤ 5 ∧
      tableGet (tableScan .overdue).withdrawals 2112 = some ⟨key1, 7, 0, 10, .out, none⟩ := by decide +kernel

theorem test_scan_step :
    (after .scanStep (scanning .loop 7 0)).chanQ.results = [.bin 7] ∧
      (after .scanStep (scanning .loop 7 15)).chanQ.state = .paused ∧
      (after .scanStep (scanning .single 8 0)).chanQ.state = .done ∧
      (after .scanStep (scanning .loop 8 0)).chanQ.cursor = 7 ∧
      (after .scanStep (scanning .loop 8 0)).chanQ.passCount = 65535 ∧
      (after .scanStep (tableScan .overdue)).chanQ.results = [.bucket 2112 key1] ∧
      (after .scanStep (tableScan .returning)).chanQ.results = [] := by decide +kernel

/-- Aisle 0 in a suspension state. -/
def suspendedAs (x : Suspension) (s : State) : State := setAisle 0 ⟨x, false⟩ s

/-- A crane that a fault of the drive halted. -/
def faulted : CraneRec := { CraneRec.reset with state := .faulted, latched := some .noDrive }

theorem meets_AislesSuspendAndCranesAreReleased :
    linkIdle stocked ∧ stocked.mode = .service ∧ ([0] : List Byte).length = 1 ∧ aisleOf (byteAt [0] 0) = some 0 ∧
      aislePresent stocked 0 = true ∧ (aisleRec (suspendedAs .suspending stocked) 0).suspension = .suspending ∧
      (aisleRec (suspendedAs .suspended stocked) 0).suspension = .suspended ∧ (aisleRec stocked 0).suspension = .inService ∧
      suspendsAtOnce (crane stocked 0) = true ∧
      suspendsAtOnce (crane (withCrane (inSegment .travel (leg .outbound 0))) 0) = false ∧
      (crane stocked 0).state ≠ .faulted ∧ (crane (withCrane faulted) 0).state = .faulted ∧
      (crane (withCrane faulted) 0).supplyFault = false ∧ zoneClosed (withCrane faulted) 0 = false ∧
      zoneClosed (inZoneState .shutdown (withCrane faulted)) 0 = true := by decide +kernel

theorem test_suspend_and_clear :
    replyOf (.suspendAisle (commandBody [0])) stocked = [0, 1, 3] ∧
      replyOf (.suspendAisle (commandBody [0])) (withCrane (inSegment .travel (leg .outbound 0))) = [0, 1, 2] ∧
      (after (.resumeAisle (commandBody [0])) (suspendedAs .suspended (withCrane CraneRec.reset))).sent =
        [.drive 0 .wake, .drive 0 .home] ∧
      replyOf (.clearCrane (commandBody [0])) (withCrane faulted) = [0, 1, 1] ∧
      replyOf (.clearCrane (commandBody [0])) (inZoneState .sealed (withCrane faulted)) = [0, 1, 0] := by decide +kernel

/-- A crane OFFLINE in each supply condition, and one that is busy, meet a HOME order. -/
theorem meets_AislesSuspend_orders :
    (crane stocked 0).state = .ready ∧ CraneRec.reset.state = .offline ∧ CraneRec.reset.supply = .ok ∧
      ({ CraneRec.reset with supply := .low } : CraneRec).supply = .low ∧ faulted.state = .faulted ∧
      (inSegment .travel (leg .outbound 0)).state = .moving := by decide +kernel

/-- R112, R109: a RESTING crane is woken and homed; an OFFLINE one without supply takes the SUPPLY fault. -/
theorem test_home_order :
    (homeOrder 0 (withCrane { crane stocked 0 with state := .resting })).sent = [.drive 0 .wake, .drive 0 .home] ∧
      (crane (homeOrder 0 (withCrane { CraneRec.reset with supply := .low })) 0).state = .faulted ∧
      homeOrder 0 (withCrane faulted) = withCrane faulted := by decide +kernel

/-- Station 0 OUT, with a shutter state. -/
def outStation (x : Shutter) : State := modStation 0 (fun r => { r with jammed := true, shutter := x }) stocked

theorem meets_ZoneAndStationCommandsAct :
    linkIdle stocked ∧ stocked.mode = .service ∧ stationOf (byteAt [0] 0) = some 0 ∧ (zone stocked 0).state ≠ .awaitRestore ∧
      (zone (inZoneState .awaitRestore stocked) 0).state = .awaitRestore ∧ linkIdle (inZoneState .awaitRestore stocked) ∧
      4 ≤ byteAt [0, 4] 1 ∧ byteAt [0, 3] 1 < 4 ∧ ([0, 3] : List Byte).length = 2 ∧ stationPresent stocked 0 = true ∧
      zoneClosed (inZoneState .sealed stocked) 0 = true ∧ zoneClosed (outStation .open) 0 = false ∧
      (station (outStation .open) 0).jammed = true ∧ (station (outStation .open) 0).beam = false ∧
      (station stocked 0).jammed = false ∧ (station stocked 0).reopenFault = false := by decide +kernel

theorem test_zone_commands :
    replyOf (.restoreZone (commandBody [0])) (inZoneState .awaitRestore (outStation .closed)) = [0, 1, 5] ∧
      replyOf (.drill (commandBody [0, 0])) stocked = [0, 2, 1, 1] ∧
      replyOf (.drill (commandBody [0, 1])) (withCrane { CraneRec.reset with state := .moving }) = [0, 2, 2, 2] ∧
      replyOf (.reopenStation (commandBody [0])) (outStation .closed) = [0, 1, 3] ∧
      (station (after (.reopenStation (commandBody [0])) (outStation .open)) 0).jammed = false := by decide +kernel

theorem meets_ZoneAndStation_reopen :
    (station (outStation .open) 0).shutter = .open ∧ (station (outStation .opening) 0).shutter = .opening ∧
      (station (outStation .closing) 0).shutter = .closing ∧ (station (outStation .closed) 0).shutter = .closed ∧
      (station (outStation .closed) 0).reopenFault = false ∧
      (station (modStation 0 (fun r => { r with reopenFault := true }) (outStation .closed)) 0).reopenFault = true := by
  decide +kernel

/-- A Line Test at station 0 after some ms. -/
def testing (n : Nat) (driven : Bool) : State :=
  modStation 0 (fun r => { r with lineTest := some ⟨n, .open, driven, false, false, false, false, 1⟩ })
    (loadCommand [0x68, 1, 0] stocked)

theorem meets_LineTestRuns :
    linkIdle stocked ∧ ([0] : List Byte).length = 1 ∧ stationOf (byteAt [0] 0) = some 0 ∧ stationPresent stocked 0 = true ∧
      mayTest stocked 0 = true ∧ mayTest (served box []) 0 = false ∧ inReset (testing 125 false) = false ∧
      (station (testing 125 false) 0).lineTest = some ⟨125, .open, false, false, false, false, false, 1⟩ ∧
      (station (testing 250 true) 0).lineTest = some ⟨250, .open, true, false, false, false, false, 1⟩ := by decide +kernel

theorem test_line_test :
    (after (.lineTest (commandBody [0])) stocked).link.cmdBusy = true ∧
      (after (.lineTestDrive 0 true) (testing 124 false)) = testing 124 false ∧
      ((station (after (.lineTestDrive 0 true) (testing 125 false)) 0).lineTest.map (·.lowBefore)) = some true ∧
      replyOf (.lineTestEnd 0 true) (testing 250 true) = [0, 1, 2] ∧
      (after (.lineTestEnd 0 false) (testing 250 true)).sent = [.panel 0 .repeat, .panel 0 .clear] := by decide +kernel

/-- A station whose beam is blocked and whose limits are both asserted as its test starts. -/
def watching : State :=
  modStation 0 (fun r => { r with
    beam := true, closedLimit := true, lineTest := some ⟨5, .open, false, false, true, true, false, 0⟩ }) stocked

theorem meets_LineTestRuns_sensors :
    inReset watching = false ∧ stationPresent watching 0 = true ∧
      (station watching 0).lineTest = some ⟨5, .open, false, false, true, true, false, 0⟩ := by decide +kernel

/-- R136: a beam that clears is not blocked for the whole window, and a state of the limits once seen counts. -/
theorem test_line_test_watches :
    ((station (after (.beamClear 0) watching) 0).lineTest.map (·.beamWhole)) = some false ∧
      ((station (after (.closedLimitReleased 0) watching) 0).lineTest.map (·.bothLimits)) = some true ∧
      ((station (after (.openLimitReleased 0) (testing 5 false)) 0).lineTest.map (·.noLimit)) = some true := by decide +kernel

theorem meets_SetParameterStores :
    linkIdle stocked ∧ ([17, 0, 200, 1] : List Byte).length = 4 ∧ (200 : BitVec 16).toNat = wordAt [17, 0, 200, 1] 1 ∧
      41 ≤ byteAt [41, 0, 0, 0] 0 ∧ ((17 : Fin 41)).val = byteAt [17, 0, 200, 1] 0 ∧ (paramRange 17).badCode 200 = false ∧
      (paramRange 23).badCode 4 = true ∧ byteAt [17, 0, 200, 1] 3 ≤ 1 ∧ 1 < byteAt [17, 0, 200, 2] 3 ∧
      (oddOnes (200 : BitVec 16)).toNat = byteAt [17, 0, 200, 1] 3 ∧ (oddOnes (200 : BitVec 16)).toNat ≠ 0 ∧
      stocked.mode = .service ∧ removesUsed 17 200 stocked = false ∧ removesUsed 0 0xFE loading = true ∧
      stationPresent stocked 0 = true ∧ stationPresent State.reset 0 = false := by decide +kernel

theorem test_set_parameter :
    replyOf (.setParameter (commandBody [17, 0, 200, 1])) stocked = [0, 3, 0, 200, 1] ∧
      replyOf (.setParameter (commandBody [17, 0, 200, 0])) stocked = [0x50, 0] ∧
      replyOf (.setParameter (commandBody [38, 0xFF, 0xFF, 0])) stocked = [1, 3, 0x0F, 0xA0, 0] ∧
      replyOf (.setParameter (commandBody [5, 0, 1, 1])) stocked = [0x14, 0] ∧
      replyOf (.setParameter (commandBody [0, 0, 0xFE, 1])) loading = [0x15, 0] ∧
      (station (after (.setParameter (commandBody [1, 0, 0xE, 1])) loading) 0).shutter = .closing ∧
      (station (after (.setParameter (commandBody [1, 0, 1, 1])) State.reset) 0).shutter = .opening := by decide +kernel

theorem meets_SetUpCommandsAct :
    linkIdle stocked ∧ ([0, 0] : List Byte).length = 2 ∧ stocked.day ≤ wordAt [0, 0] 0 ∧
      wordAt [0, 0] 0 < ({ stocked with day := 1 } : State).day ∧ loading.mode = .commissioning ∧ linkIdle loading ∧
      (∀ a, aislePresent State.reset a = false) ∧ (∃ a, aislePresent loading a = true) ∧
      (∀ e ∈ loading.bins, aislePresent loading e.2.home.aisle = true) ∧ stocked.mode = .service ∧
      (∀ e ∈ stocked.visits, e.2.outcome ≠ none) ∧ (∀ a, (crane stocked a).carried = none) ∧
      (∃ e ∈ waitingTrip.visits, e.2.outcome = none) := by decide +kernel

theorem test_set_up :
    replyOf (.setDay (commandBody [0xFF, 0xFF])) stocked = [0, 2, 0xFF, 0xFF] ∧
      replyOf (.setDay (commandBody [0, 0])) { stocked with day := 1 } = [0x51, 0] ∧
      (after (.finishCommissioning [0]) loading).mode = .service ∧
      replyOf (.finishCommissioning [0]) State.reset = [0x15, 0] ∧
      (crane (after (.enterCommissioning [0]) stocked) 0).state = .offline ∧
      replyOf (.enterCommissioning [0]) waitingTrip = [0x15, 0] := by decide +kernel

/-! ### Cranes -/

/-- The wing with bin 7 and its visit 3, and a crane record at aisle 0. -/
def working (st : VisitState) (loc : Location) (c : CraneRec) : State :=
  setCrane 0 c (setForkMark 0 (some 7) (setVisit 3 (trip st [task .fetch])
    (setBin 7 { box with openVisit := some 3, location := loc } (setSlot home (.filled 7) site))))

/-- A crane in a PARK, one in a HOME, and one with marks taken in a TRAVEL. -/
def parking : CraneRec :=
  { CraneRec.reset with state := .parking, parkOrder := true, carried := some 7, segment := some ⟨.park, 1, 0, .mouth, 0⟩ }
def homing : CraneRec := { CraneRec.reset with state := .homing, homingClear := true, segment := some ⟨.home, 0, 0, .mouth, 0⟩ }
def timed (interval : Nat) : CraneRec :=
  { inSegment .travel (leg .outbound 0) with timingH := ⟨2, 0, interval⟩ }

/-- The wing at 1,000 ms with a crane record at aisle 0. -/
def atSecond (c : CraneRec) : State := { withCrane c with time := ⟨0, 16000, 1000⟩ }

/-- Bin 7 on crane 0 in a closed zone, and bin 7 at a face whose zone leaves RECOVERY with a kept reset. -/
def carriedInFire : State := inZoneState .sealed (working .outbound (.crane 0) CraneRec.reset)
def relieved : State :=
  { inZoneState .recovery (modStation 0 (fun r => { r with reopenFault := true })
      (setVisit 3 { trip .atFace [] with hold := { HoldSet.none with fire := true } } (served box []))) with
    mode := .commissioning }

theorem meets_ResetsBeginAndEnd_fire :
    zoneClosed carriedInFire (zoneOf 0) = true ∧
      (carriedInFire.bins.find? fun e => decide (e.2.location = .crane 0)).map (·.1) = some 7 ∧
      bin carriedInFire 7 = some { box with openVisit := some 3, location := .crane 0 } ∧
      visit carriedInFire 3 = some (trip .outbound [task .fetch]) ∧ binAisle relieved 7 = some 0 ∧
      (zone relieved (zoneOf 0)).state = .recovery ∧ (zone (resetAtOnce .pin relieved) (zoneOf 0)).state ≠ .recovery ∧
      ((visit relieved 3).map (·.hold.fire)) = some true ∧
      ((visit (resetAtOnce .pin relieved) 3).map (·.hold)) = some HoldSet.none := by decide +kernel

/-- Bin 7 on crane 0, its own aisle's, with a visit that carries FIRE, in a zone that leaves RECOVERY with a kept reset. -/
def relievedOnCrane : State :=
  { inZoneState .recovery (modStation 0 (fun r => { r with reopenFault := true })
      (modVisit 3 (fun v => { v with hold := { HoldSet.none with fire := true } })
        (working .outbound (.crane 0) CraneRec.reset))) with
    mode := .commissioning }

theorem meets_ResetsBeginAndEnd_ownCrane : ∀ (a : Aisle) (b : Nat) (r : BinRec),
    (relievedOnCrane.bins.find? fun e => decide (e.2.location = .crane a)).map (·.1) = some b →
      bin relievedOnCrane b = some r → r.openVisit = some 3 → binAisle relievedOnCrane 7 = some a := by
  have located : ∀ a : Aisle, (relievedOnCrane.bins.find? fun e => decide (e.2.location = .crane a)).map (·.1) =
      if a = 0 then some 7 else none := by decide +kernel
  intro a b r h _ _
  rw [located a] at h
  by_cases ha : a = 0
  · subst ha; decide +kernel
  · simp [ha] at h

theorem meets_ResetsBeginAndEnd_reopened :
    (zone relievedOnCrane (zoneOf 0)).state = .recovery ∧ (visit relievedOnCrane 3).map (·.bin) = some 7 ∧
      (zone (resetAtOnce .pin relievedOnCrane) (zoneOf 0)).state ≠ .recovery ∧
      ((visit relievedOnCrane 3).map fun v => (v.outcome, v.hold.fire)) = some (none, true) ∧
      ((visit (resetAtOnce .pin relievedOnCrane) 3).map (·.hold)) = some { HoldSet.none with reset := true } := by
  decide +kernel

/-- R155: a bin that a crane of a closed zone carries has FIRE on its visit after the reset. -/
theorem test_reset_fire :
    ((visit (resetAtOnce .pin carriedInFire) 3).map fun v => (v.hold.fire, v.hold.reset)) = some (true, true) := by
  decide +kernel

theorem meets_SegmentsAreIssued :
    bin (working .outbound .slot (inSegment .travel (leg .outbound 0))) (leg .outbound 0).bin = some { box with openVisit := some 3 } ∧
      (leg .relocation 0).kind = .relocation ∧ (leg .inbound 0).kind = .inbound ∧
      (crane (working .outbound .slot (inSegment .travel (leg .outbound 0))) 0).leg = some (leg .outbound 0) ∧
      (legSegment (working .outbound .slot CraneRec.reset) (leg .outbound 1)).kind ≠ .travel ∧
      (legSegment (working .outbound .slot CraneRec.reset) (leg .outbound 0)).kind = .travel ∧
      (legSegment (working .outbound .slot CraneRec.reset) (leg .outbound 0)).col = 4 ∧
      (legSegment (working .outbound .slot CraneRec.reset) (leg .outbound 0)).level = 2 ∧
      (inSegment .travel (leg .outbound 0)).col = some 0 ∧ CraneRec.reset.col = none := by decide +kernel

theorem test_issue :
    (issue 0 ⟨.travel, 4, 2, .left, 0⟩ false (withCrane { CraneRec.reset with state := .resting })).sent =
      [.drive 0 .wake, .drive 0 (.go 4 2)] ∧
    (crane (issue 0 (homeSegment site) false (withCrane (inSegment .travel (leg .outbound 0)))) 0).col = none := by
  decide +kernel

theorem meets_MarksAreChecked :
    inReset (withCrane homing) = false ∧ (crane (withCrane homing) 0).state = .homing ∧
      (crane (withCrane (timed 200)) 0).state ≠ .homing ∧ (crane (withCrane (timed 200)) 0).state ≠ .resting ∧
      (crane (withCrane (timed 200)) 0).col = some 0 ∧ (crane stocked 0).segment = none ∧
      (inSegment .forkPick (leg .outbound 1)).segment = some ⟨.forkPick, 4, 2, .left, 0⟩ ∧ SegKind.forkPick.isFork = true ∧
      (0 : Nat) + 1 < param stocked 27 ∧ param stocked 27 ≤ 2 + 1 ∧ (0 : Nat) < 4 ∧ (1 : Byte).toNat = 0 + 1 ∧
      2 ≤ (timed 200).timingH.marks ∧ param (atSecond (timed 200)) 29 * 200 < 1000 - 0 ∧
      ¬(param (atSecond (timed 250)) 29 * 250 < 1000 - 0 ∨ (1000 - 0) * param (atSecond (timed 250)) 29 < 250) ∧
      (timed 200).speedTaken = false ∧ (3 : Byte).toNat ≠ 0 + 1 ∧
      (crane (setCrane 0 { (timed 200).timed true 1000 with slipCount := 1 } (atSecond (timed 200))) 0).segment ≠ none ∧
      (crane (takeFault 0 .slip (atSecond (timed 200))) 0).segment = none := by decide +kernel

theorem test_marks :
    (crane (after (.mark 0 0 1) (atSecond (timed 250))) 0).col = some 1 ∧
      (crane (after (.mark 0 0 3) (atSecond (timed 250))) 0).slipCount = 1 ∧
      (crane (after (.mark 0 0 1) (atSecond (timed 200))) 0).lastFault = some (.speed, some .travel) ∧
      (crane (after (.mark 0 0 3) (atSecond (timed 200))) 0).slipCount = 1 ∧
      (crane (after (.mark 0 0 3) (atSecond (timed 200))) 0).lastFault = some (.speed, some .travel) ∧
      (crane (after (.mark 0 0 1) (withCrane homing)) 0).unexpected = 1 ∧
      (crane (after (.mark 0 1 1) (withCrane (inSegment .forkPick (leg .outbound 1)))) 0).slipCount = 1 := by decide +kernel

theorem meets_LegSegmentsComplete :
    inReset (withCrane homing) = false ∧ (crane (withCrane homing) 0).segment = some ⟨.home, 0, 0, .mouth, 0⟩ ∧
      (crane (withCrane parking) 0).segment = some ⟨.park, 1, 0, .mouth, 0⟩ ∧ (crane (withCrane parking) 0).carried = some 7 ∧
      bin (withCrane parking) 7 = some box ∧ (inSegment .travel (leg .outbound 0)).leg = some (leg .outbound 0) ∧
      (leg .outbound 0).cancelled = false ∧ (leg .outbound 0).approach = false ∧
      forkInFlight (crane (working .outbound .slot (inSegment .forkPick (leg .outbound 1))) 0) = true ∧
      (crane (working .outbound .slot (inSegment .forkPick (leg .outbound 1))) 0).leg = some (leg .outbound 1) ∧
      bin (working .outbound .slot (inSegment .forkPick (leg .outbound 1))) 7 = some { box with openVisit := some 3 } ∧
      (leg .outbound 1).seg ≠ 3 ∧ (leg .inbound 1).kind = .inbound ∧ (leg .inbound 3).seg = 3 ∧
      visit (working .outbound (.crane 0) (inSegment .forkPlace (leg .outbound 3))) 3 = some (trip .outbound [task .fetch]) ∧
      (trip .outbound [task .fetch]).bin = 7 ∧ box.home.aisle = 0 ∧
      (station (working .outbound (.crane 0) (inSegment .forkPlace (leg .outbound 3))) 0).lane.length < 3 ∧
      (leg .relocation 3).kind = .relocation := by decide +kernel

/-- A crane that a park order found in a fork of a leg. -/
def finishing (k : SegKind) (l : LegRec) : CraneRec :=
  { inSegment k l with state := .parking, parkOrder := true, leg := none, dropped := some l }

theorem meets_LegSegments_parking :
    forkInFlight (finishing .forkPick (leg .outbound 1)) = true ∧
      (finishing .forkPlace (leg .outbound 3)).dropped = some (leg .outbound 3) ∧
      (aisleRec (withCrane (finishing .forkPick (leg .outbound 1))) 0).suspension ≠ .suspending ∧
      ({ finishing .forkPick (leg .outbound 1) with dropped := none } : CraneRec).dropped = none := by decide +kernel

theorem test_parking_fork :
    (after (.forkDone 0) (working .outbound .slot (finishing .forkPick (leg .outbound 1)))).sent = [.drive 0 .park] ∧
      (crane (after (.forkDone 0) (working .outbound .slot (finishing .forkPick (leg .outbound 1)))) 0).dropped =
        some (leg .outbound 1) ∧
      (crane (after (.forkDone 0) (working .outbound (.crane 0) (finishing .forkPlace (leg .outbound 3)))) 0).dropped =
        none := by decide +kernel

theorem test_segments :
    (after (.arrived 0) (working .outbound .slot (inSegment .travel (leg .outbound 0)))).sent = [.drive 0 (.fork false .left)] ∧
      ((bin (after (.arrived 0) (withCrane parking)) 7).map (·.stranded)) = some true ∧
      slotEntry (after (.forkDone 0) (working .outbound .slot (inSegment .forkPick (leg .outbound 1)))) home = .home 7 ∧
      ((visit (after (.forkDone 0) (working .inbound (.crane 0) (inSegment .forkPlace (leg .inbound 3)))) 3).map (·.outcome)) =
        some (some .done) ∧
      (after (.forkDone 0) (working .outbound (.crane 0) (inSegment .forkPlace (leg .outbound 3)))).sent =
        [.panel 0 (.transfer .present)] := by decide +kernel

theorem meets_HomingsComplete :
    inReset (withCrane homing) = false ∧ (crane (withCrane homing) 0).segment = some ⟨.home, 0, 0, .mouth, 0⟩ ∧
      (crane (withCrane homing) 0).leg = none ∧ (aisleRec (withCrane homing) 0).suspension ≠ .suspending ∧
      inReset (suspendedAs .suspending (withCrane homing)) = false ∧
      crane (suspendedAs .suspending (withCrane homing)) 0 = homing ∧ homing.homingClear = true ∧
      (aisleRec (suspendedAs .suspending (withCrane homing)) 0).suspension = .suspending ∧
      (inSegment .home (leg .outbound 0)).leg = some (leg .outbound 0) ∧ (leg .outbound 0).cancelled = false ∧
      (crane stocked 0).segment = none ∧ forkInFlight (crane stocked 0) = false := by decide +kernel

theorem test_homed :
    (crane (after (.homed 0) (withCrane homing)) 0).state = .ready ∧
      (crane (after (.homed 0) (suspendedAs .suspending (withCrane homing))) 0).state = .offline ∧
      (aisleRec (after (.homed 0) (suspendedAs .suspending (withCrane homing))) 0).suspension = .suspended ∧
      (after (.homed 0) (withCrane homing)).link.attention = 2 ∧
      (crane (after (.driveByteTimeout 0) (withCrane { homing with unexpected := 65535 })) 0).unexpected = 65535 := by
  decide +kernel

/-- The wing with the mode of NO_DRIVE faults. -/
def withMode (n : Nat) (c : CraneRec) : State := { withCrane c with params := stocked.params.set 23 (paramWord n) }

theorem meets_FaultsAreDetectedAndAct :
    inReset (withMode 3 (timed 0)) = false ∧ (crane (withMode 3 (timed 0)) 0).segment = some ⟨.travel, 4, 2, .left, 0⟩ ∧
      SegKind.travel.isFork = false ∧ 3 ≤ param (withMode 3 (timed 0)) 23 ∧ param (withMode 2 (timed 0)) 23 = 2 ∧
      param (withMode 0 (timed 0)) 23 = 0 ∧ (aisleRec (withMode 0 (timed 0)) 0).suspension ≠ .suspending ∧
      param (withMode 1 (timed 0)) 23 = 1 ∧ (timed 0).retryCount < param (withMode 1 (timed 0)) 26 ∧
      param (withMode 1 (timed 0)) 26 ≠ 0 ∧ param (withMode 1 (timed 0)) 26 ≤ ({ timed 0 with retryCount := 20 } : CraneRec).retryCount ∧
      (timed 0).state = .moving ∧ (crane stocked 0).segment = none ∧ (timed 0).surgeCount + 1 < param stocked 28 ∧
      param stocked 28 ≤ ({ timed 0 with surgeCount := 3 } : CraneRec).surgeCount + 1 ∧ (timed 0).overran = false ∧
      0 + (timed 0).deadline ≤ ({ stocked with time := ⟨0, 16000, 9500⟩ } : State).time.ms ∧
      stocked.time.ms < 0 + (timed 0).deadline ∧ (timed 0).supplyFault = false ∧ (timed 0).supply = .ok := by decide +kernel

/-- A crane that a SUPPLY fault in FOLLOW mode halted. -/
def starved : CraneRec := { CraneRec.reset with state := .faulted, supply := .low, supplyFault := true }

theorem meets_FaultsAreDetected_supply :
    starved.supplyFault = true ∧ starved.state = .faulted ∧ starved.latched = none ∧ faulted.latched ≠ none ∧
      zoneClosed (withCrane starved) 0 = false ∧ zoneClosed (inZoneState .sealed (withCrane starved)) 0 = true ∧
      service (withCrane starved) 0 = .inService ∧ (withCrane starved).mode = .service ∧
      service (suspendedAs .suspended (withCrane starved)) 0 ≠ .inService := by decide +kernel

theorem test_supply_ends :
    (crane (after (.supply 0 1) (withCrane starved)) 0).state = .homing ∧
      (crane (after (.supply 0 1) (inZoneState .sealed (withCrane starved))) 0).state = .offline := by decide +kernel

theorem test_faults :
    (crane (after (.noLoad 0) (withMode 3 (timed 0))) 0).totals.get 4 = 1 ∧
      (after (.noLoad 0) (withMode 2 (timed 0))).link.attention = 2 ∧
      (crane (after (.noLoad 0) (withMode 0 (timed 0))) 0).latched = some .noDrive ∧
      (crane (after (.noLoad 0) (withMode 1 (timed 0))) 0).retryTimer = some 1000 ∧
      (crane (after (.supply 0 2) (withCrane (timed 0))) 0).state = .faulted ∧
      (crane (after (.deadlineExpiry 0) { withCrane (timed 0) with time := ⟨0, 16000, 9500⟩ }) 0).overran = true := by
  decide +kernel

/-- A crane whose segment waits for its re-issue. -/
def waitingRetry : CraneRec :=
  { CraneRec.reset with state := .retryWait, leg := some (leg .outbound 1), retryTimer := some 0, retryCount := 2 }

theorem meets_CraneTimersAct :
    inReset stocked = false ∧ (crane stocked 0).retryTimer ≠ some 0 ∧ waitingRetry.retryTimer = some 0 ∧
      ({ waitingRetry with state := .homing } : CraneRec).state = .homing ∧ waitingRetry.state = .retryWait ∧
      waitingRetry.leg = some (leg .outbound 1) ∧ ({ leg .outbound 1 with cancelled := true } : LegRec).cancelled = true ∧
      (leg .outbound 1).cancelled = false ∧ waitingRetry.col = none ∧
      (legSegment (working .outbound .slot waitingRetry) (leg .outbound 1)).kind.isFork = true ∧
      (legSegment (working .outbound .slot waitingRetry) (leg .outbound 0)).kind.isFork = false ∧
      (crane (withCrane { (crane stocked 0) with restTimer := some 0 }) 0).state = .ready ∧
      (crane stocked 0).restTimer ≠ some 0 := by decide +kernel

theorem test_crane_timers :
    (after (.retryDelayExpiry 0) (working .outbound .slot waitingRetry)).sent = [.drive 0 .home] ∧
      (crane (after (.retryDelayExpiry 0) (working .outbound .slot waitingRetry)) 0).retryCount = 2 ∧
      (after (.restTimerExpiry 0) (withCrane { (crane stocked 0) with restTimer := some 0 })).sent =
        [.drive 0 .brakeRest] := by decide +kernel

/-- R85, R111: a retry sends GO again to a crane that has coasted to the target. -/
def coasted : CraneRec := { waitingRetry with leg := some (leg .outbound 0), col := some 4, level := some 2 }

theorem meets_CraneTimersAct_known :
    coasted.retryTimer = some 0 ∧ coasted.state = .retryWait ∧ coasted.leg = some (leg .outbound 0) ∧ coasted.col ≠ none ∧
      coasted.level ≠ none ∧ (leg .outbound 0).approach = false ∧
      ({ leg .outbound 1 with approach := true } : LegRec).approach = true ∧ waitingRetry.col = none ∧
      (legSegment (working .outbound .slot coasted) (leg .outbound 0)).kind = .travel ∧
      (legSegment (working .outbound .slot waitingRetry) (leg .outbound 1)).kind ≠ .travel := by decide +kernel

theorem test_retry_at_the_target :
    (after (.retryDelayExpiry 0) (working .outbound .slot coasted)).sent = [.drive 0 (.go 4 2)] ∧
      (crane (after (.retryDelayExpiry 0) (working .outbound .slot coasted)) 0).state = .moving ∧
      (crane (after (.retryDelayExpiry 0) (working .outbound .slot coasted)) 0).retryCount = 2 := by decide +kernel

theorem meets_HomingsComplete_ready :
    (aisleRec (suspendedAs .suspending (working .outbound .slot coasted)) 0).suspension = .suspending ∧
      (aisleRec (working .outbound .slot coasted) 0).suspension ≠ .suspending ∧
      visit (working .outbound .slot coasted) 3 = some (trip .outbound [task .fetch]) ∧
      (trip .outbound [task .fetch]).outcome = none ∧ binAisle (working .outbound .slot coasted) 7 = some 0 ∧
      binAisle (working .outbound .slot coasted) 7 ≠ some 1 := by decide +kernel

/-- The finishing fork of a crane with a park order, and a crane with a fork that may not be retried again. -/
theorem meets_FaultsAreDetected_modes :
    param stocked 19 = 1 ∧ param stocked 20 = 0 ∧ param stocked 21 = 1 ∧ param stocked 22 = 2 ∧ param stocked 24 ≠ 0 ∧
      3 ≤ param (withMode 3 faulted) 23 ∧ (crane stocked 0).state ≠ .faulted ∧ faulted.state = .faulted ∧
      (finishing .forkPick (leg .outbound 1)).parkOrder = true ∧
      (finishing .forkPick (leg .outbound 1)).segment = some ⟨.forkPick, 4, 2, .left, 0⟩ ∧
      forkMark (working .outbound .slot (finishing .forkPick (leg .outbound 1))) 0 = some 7 ∧
      CraneRec.reset.parkOrder = false ∧ (2 : Nat) < param stocked 26 ∧ ¬(param stocked 26 = 0 ∨ (3 : Nat) < param stocked 26) ∧
      (aisleRec stocked 0).suspension ≠ .suspending ∧
      (aisleRec (suspendedAs .suspending stocked) 0).suspension = .suspending ∧
      ((inSegment .travel (leg .outbound 0)).leg.map (·.visit)) = some 3 ∧
      visit (working .outbound .slot (inSegment .travel (leg .outbound 0))) 3 = some (trip .outbound [task .fetch]) := by
  decide +kernel

/-- R110, R115: a halt holds the visit of the leg; a fault in RETRY mode cuts a finishing fork off, and PARK follows. -/
theorem test_halt_and_cut :
    ((visit (halt 0 .slip false (working .outbound .slot (inSegment .forkPick (leg .outbound 1)))) 3).map (·.hold.craneFault)) =
      some true ∧
    ((bin (halt 0 .slip false (working .outbound .slot (inSegment .forkPick (leg .outbound 1)))) 7).map (·.uncertain)) =
      some true ∧
    (retryFault 0 .overrun (working .outbound .slot (finishing .forkPick (leg .outbound 1)))).sent =
      [.drive 0 .stop, .drive 0 .park] := by decide +kernel

/-! ### Stations and zones -/

theorem meets_ItemScansConfirm :
    inReset (served box [task .lend]) = false ∧ stationPresent (served box [task .lend]) 0 = true ∧
      zoneClosed (served box [task .lend]) 0 = false ∧ (station (served box [task .lend]) 0).lineTest = none ∧
      (station (served box [task .lend]) 0).face = some ⟨7, 3⟩ ∧
      visit (served box [task .lend]) 3 = some (trip .atFace [task .lend]) ∧
      (∀ k ∈ (trip .atFace []).tasks, k.state = .pending → k.key ≠ some key1) ∧
      (trip .atFace [task .lend]).tasks = [] ++ task .lend :: [] ∧ (task .lend).state = .pending ∧
      (task .lend).key = some key1 ∧
      bin (served box [task .lend]) 7 = some { box with location := .face 0, openVisit := some 3 } ∧
      (lookup (served box [task .lend]).withdrawals key1).found = false ∧ (task .return).kind = .return ∧
      (task .refile).kind = .refile := by decide +kernel

theorem test_item_scan :
    (after (.itemScan 0 key1) (served { box with lendHolds := 1 } [task .lend])).withdrawals =
      [(2112, ⟨key1, 7, 0, 0, .out, none⟩)] ∧
    ((bin (after (.itemScan 0 key1) (served { box with lendHolds := 1 } [task .lend])) 7).map fun r =>
      (r.fill, r.withdrawn, r.lendHolds)) = some (4, 1, 0) ∧
    (after (.itemScan 0 key1) (served box [])).link.attention = 0x200 ∧
    (after (.itemScan 0 key1) (served box [task .refile, task .fetch])).sent =
      [.panel 0 .clear, .panel 0 (.show .fetch key1 1)] := by decide +kernel

theorem meets_ItemScans_resent : (station stocked 0).face = none ∧ (station (served box []) 0).face = some ⟨7, 3⟩ ∧
    visit (served box []) 3 = some (trip .atFace []) ∧ (trip .atFace []).state = .atFace := by decide +kernel

/-- The wing with bin 7 at the face of station 0, on its way back. -/
def leaving : State := setVisit 3 (trip .withdrawing []) (served box [])

/-- A station with a bin at its face, one with a Line Test and one in a closed zone. -/
theorem meets_PanelMessagesAct :
    inReset (served box []) = false ∧ stationPresent (served box []) 0 = true ∧ zoneClosed (served box []) 0 = false ∧
      (station (served box []) 0).lineTest = none ∧ (station (served box []) 0).face = some ⟨7, 3⟩ ∧
      visit (served box []) 3 = some (trip .atFace []) ∧ (trip .atFace []).state = .atFace ∧
      3 ≤ (station (modStation 0 (fun r => { r with discards := 2 }) (served box [])) 0).discards + 1 ∧
      stationPresent State.reset 0 = false ∧ zoneClosed (inZoneState .awaitRestore (served box [])) 0 = true ∧
      (station (testing 5 false) 0).lineTest = some ⟨5, .open, false, false, false, false, false, 1⟩ ∧
      zoneClosed (testing 5 false) 0 = false ∧ (station stocked 0).face = none ∧ inReset leaving = false ∧
      stationPresent leaving 0 = true ∧ zoneClosed leaving 0 = false ∧ (station leaving 0).lineTest = none ∧
      (station leaving 0).face = some ⟨7, 3⟩ ∧ (visit leaving 3).map (·.state) = some .withdrawing ∧
      (2 : Byte).toNat < 3 ∧ 3 ≤ (3 : Byte).toNat := by decide +kernel

theorem test_panel :
    ((visit (after (.panelDone 0) (served box [task .fetch])) 3).map (·.state)) = some .withdrawing ∧
      ((visit (after (.panelDone 0) (served box [task .lend])) 3).map fun v => v.tasks.map (·.state)) = some [.notFound] ∧
      (after (.panelDone 0) (served box [task .fetch])).sent = [.panel 0 .clear, .panel 0 (.transfer .withdraw)] ∧
      (station (after (.keep 0) (served box [])) 0).faceTimer = some 600000 ∧
      (station (after (.problem 0 1) (served box [])) 0).lastProblem = some (3, .wrongBin) ∧
      (station (after (.panelByteTimeout 0) (modStation 0 (fun r => { r with discards := 2 }) stocked)) 0).panelLinkFlag = true ∧
      (after (.keep 0) (inZoneState .sealed stocked)).sent = [.panel 0 .locked] ∧
      (after (.keep 0) stocked).sent = [.panel 0 .clear] ∧ (after (.problem 0 2) leaving).sent = [.panel 0 .clear] ∧
      (station (after (.itemScan 0 key1) leaving) 0).scanUnexpected = true := by decide +kernel

/-- A crossing of bin 7 at station 0 whose beam has been seen. -/
def crossing (k : CrossingKind) (n : Nat) : State :=
  modStation 0 (fun r => { r with crossing := some ⟨k, 7, 0, true, n⟩, openingBin := some 7, beam := true })
    (setVisit 3 (trip .presenting [task .fetch]) (setBin 7 { box with location := .opening 0, openVisit := some 3 }
      (setSlot home (.home 7) site)))

theorem meets_SensorsActAndCrossingsArrive :
    inReset (crossing .present 5) = false ∧ stationPresent (crossing .present 5) 0 = true ∧
      (station (crossing .present 5) 0).lineTest = none ∧
      (station (crossing .present 5) 0).crossing = some ⟨.present, 7, 0, true, 5⟩ ∧ (station stocked 0).crossing = none ∧
      bin (crossing .present 5) 7 = some { box with location := .opening 0, openVisit := some 3 } ∧
      visit (crossing .withdraw 5) 3 = some (trip .presenting [task .fetch]) ∧ inReset watching = false ∧
      stationPresent watching 0 = true := by decide +kernel

/-- A jammed station with a Reopen Station under way, whose visit is held. -/
def reopening : State :=
  modStation 0 (fun r => { r with shutter := .opening, jammed := true, reopenCommand := true })
    (setVisit 3 { trip .atFace [] with hold := { HoldSet.none with stationOut := true } } (served box []))

theorem meets_Sensors_opens :
    (station reopening 0).reopenCommand = true ∧ (station stocked 0).reopenCommand = false ∧
      (visit reopening 3).map (fun v => (v.outcome, v.hold.stationOut)) = some (none, true) ∧
      (binAisle reopening 7).map zoneOf = some 0 ∧ visit (served box []) 3 = some (trip .atFace []) := by decide +kernel

/-- R131, R132: the open limit ends the travel, and Reopen Station's station leaves OUT. -/
theorem test_reopened :
    (station (after (.openLimitAsserted 0) reopening) 0).jammed = false ∧
      ((visit (after (.openLimitAsserted 0) reopening) 3).map (·.hold)) = some HoldSet.none ∧
      (after (.openLimitAsserted 0) reopening).link.attention = 0x200 := by decide +kernel

theorem test_sensors :
    (station (after (.beamClear 0) (crossing .present 5)) 0).face = some ⟨7, 3⟩ ∧
      (after (.beamClear 0) (crossing .present 5)).sent = [.panel 0 (.show .fetch key1 0)] ∧
      (station (after (.beamClear 0) (crossing .withdraw 5)) 0).outbound = some 7 ∧
      (after (.beamClear 0) (crossing .withdraw 5)).sent = [.drive 0 (.fork false .mouth)] ∧
      (station (after (.openLimitReleased 0) stocked) 0).shutterFault = true ∧
      (station (after (.openLimitAsserted 0) (modStation 0 (fun r => { r with shutter := .opening }) stocked)) 0).shutter =
        .open := by decide +kernel

/-- The wing with a travel timer run out at station 0, and with a hold timer run out in zone 0. -/
def travelled (x : Shutter) : State :=
  modStation 0 (fun r => { r with shutter := x, travelTimer := some 0 }) stocked
def heldLong : State := setZone 0 { zone stocked 0 with state := .shutdown, holdTimer := some 0 } (crossing .present 5)

theorem meets_StationTimersAct :
    inReset (crossing .present 0) = false ∧ (station (crossing .present 0) 0).crossing = some ⟨.present, 7, 0, true, 0⟩ ∧
      bin (crossing .present 0) 7 = some { box with location := .opening 0, openVisit := some 3 } ∧
      (station stocked 0).crossing = none ∧ (station (served box []) 0).faceTimer ≠ some 0 ∧
      (station (modStation 0 (fun r => { r with faceTimer := some 0 }) stocked) 0).faceTimer = some 0 ∧
      stationPresent (travelled .closing) 0 = true ∧ (station (travelled .closing) 0).travelTimer = some 0 ∧
      (station (travelled .closing) 0).shutter = .closing ∧ (station (travelled .opening) 0).shutter = .opening ∧
      (station stocked 0).travelTimer ≠ some 0 ∧ (zone heldLong 0).holdTimer = some 0 ∧ stationPresent heldLong 0 = true ∧
      (station heldLong 0).holdOpen = true ∧ (zone stocked 0).holdTimer ≠ some 0 := by decide +kernel

theorem test_station_timers :
    (station (after (.crossingMaxExpiry 0) (crossing .present 0)) 0).jammed = true ∧
      (station (after (.faceTimerExpiry 0) (modStation 0 (fun r => { r with faceTimer := some 0 }) stocked)) 0).faceLong = true ∧
      (station (after (.shutterTravelExpiry 0) (travelled .opening)) 0).reopenFault = true ∧
      (station (after (.holdTimerExpiry 0) heldLong) 0).shutter = .closing ∧
      ((bin (after (.holdTimerExpiry 0) heldLong) 7).map (·.obstructed)) = some true := by decide +kernel

theorem meets_StationTimers_bins :
    (station heldLong 0).crossing = some ⟨.present, 7, 0, true, 5⟩ ∧ (station heldLong 0).beam = true ∧
      (station heldLong 0).openingBin = some 7 ∧ ((bin heldLong 7).bind (·.openVisit)) = some 3 ∧
      ((visit heldLong 3).map (·.outcome)) = some none ∧
      (station (modStation 0 (fun r => { r with holdOpen := false }) heldLong) 0).holdOpen = false := by decide +kernel

/-- R126, R130: the visits that a jam and a forced close hold, and the TRANSFER(HALT) they send. -/
theorem test_halted_crossings :
    ((visit (after (.holdTimerExpiry 0) heldLong) 3).map (·.hold.fire)) = some true ∧
      (after (.holdTimerExpiry 0) heldLong).sent = [.panel 0 (.transfer .halt)] ∧
      ((visit (after (.crossingMaxExpiry 0) (crossing .present 0)) 3).map (·.hold.stationOut)) = some true ∧
      (after (.crossingMaxExpiry 0) (crossing .present 0)).sent = [.panel 0 (.transfer .halt)] := by decide +kernel

/-- An input whose window has run out. -/
def inputDue (i : FireInput) : State := setConditioner i ⟨true, false, some 0⟩ stocked

theorem meets_InputsAreDeglitched :
    inReset stocked = false ∧ true = (true != (stocked.params.get 33).value.getLsbD 4) ∧
      (conditioner (inputDue 4) 4).window = some 0 ∧ (conditioner stocked 4).window ≠ some 0 := by decide +kernel

theorem test_inputs :
    conditioner (after (.inputLevelChange 4 true) stocked) 4 = ⟨true, false, some 50⟩ ∧
      (zone (after (.deglitchWindowExpiry 4) (withCrane (timed 0))) 0).state = .clear ∧
      (zone (after (.deglitchWindowExpiry 4) (inputDue 4)) 0).state = .shutdown ∧
      (zone (after (.deglitchWindowExpiry 8) (inputDue 8)) 3).causeFireAll = true ∧
      (zone (after (.deglitchWindowExpiry 0) (inputDue 0)) 0).state = .alert := by decide +kernel

/-- The wing with one conditioned input taken. -/
def taken (i : FireInput) (s : State) : State := setConditioner i ⟨true, true, none⟩ s

theorem meets_ZonesActOnLevelsAndShutDown :
    (fireLevel stocked 0 = true → fireLevel stocked 0 = true) ∧ clearLevel stocked 0 = clearLevel stocked 0 ∧
      fireLevel (taken 4 stocked) 0 = true ∧ fireLevel stocked 0 = false ∧
      clearLevel (taken 4 stocked) 0 = clearLevel stocked 0 ∧ alertLevel (taken 4 stocked) 0 = alertLevel stocked 0 ∧
      clearLevel (taken 9 stocked) 0 = true ∧ fireLevel (taken 9 stocked) 0 = false ∧
      alertLevel (taken 0 stocked) 0 ≠ alertLevel stocked 0 ∧ fireLevel (taken 0 stocked) 0 = fireLevel stocked 0 ∧
      zoneOf 1 = 0 ∧ aislePresent stocked 1 = true ∧ zoneOf 2 ≠ 0 ∧ stationPresent stocked 0 = true := by decide +kernel

/-- FIRE at a zone with an idle station: the shutter is released, the cranes park, and the zone stays in SHUTDOWN until they
have (R143 to R147). -/
theorem test_shutdown :
    (station (after (.deglitchWindowExpiry 4) (inputDue 4)) 0).holdOpen = false ∧
      (after (.deglitchWindowExpiry 4) (inputDue 4)).sent = [.panel 0 .locked, .drive 0 .park, .drive 1 .park] ∧
      (zone (after (.arrived 1) (after (.arrived 0) (after (.deglitchWindowExpiry 4) (inputDue 4)))) 0).state = .sealed := by
  decide +kernel

theorem meets_ZonesAct_parkOrders :
    parking.state = .parking ∧ (inSegment .forkPick (leg .outbound 1)).state = .moving ∧
      (inSegment .forkPick (leg .outbound 1)).segment = some ⟨.forkPick, 4, 2, .left, 0⟩ ∧
      (inSegment .travel (leg .outbound 0)).segment = some ⟨.travel, 4, 2, .left, 0⟩ ∧ waitingRetry.state = .retryWait ∧
      homing.state = .homing ∧ (crane stocked 0).state = .ready ∧ (aisleRec stocked 0).suspension ≠ .suspending := by
  decide +kernel

/-- R114: a park order stops a TRAVEL, lets a fork finish, and cuts off a fork that waits for its retry. -/
theorem test_park_orders :
    (parkCrane 0 (withCrane (inSegment .travel (leg .outbound 0)))).sent = [.drive 0 .stop, .drive 0 .park] ∧
      (parkCrane 0 (withCrane (inSegment .forkPick (leg .outbound 1)))).sent = [] ∧
      (parkCrane 0 (withCrane { crane stocked 0 with state := .resting })).sent = [.drive 0 .wake, .drive 0 .park] ∧
      ((bin (parkCrane 0 (working .outbound .slot waitingRetry)) 7).map (·.uncertain)) = some true := by decide +kernel

/-! ### What an event sets off -/

/-- A close order at station 0. -/
def closing (f : StationRec → StationRec) : State := modStation 0 (fun r => f { r with closeOrder := true }) site

/-- Bin 7 in the opening, and bins 7 and 8 in the lane, of station 0. -/
def opened : State :=
  modStation 0 (fun r => { r with openingBin := some 7 })
    (setVisit 3 (trip .presenting []) (setBin 7 { box with location := .opening 0, openVisit := some 3 } site))
def queueing : State :=
  modStation 0 (fun r => { r with lane := [7, 8] }) (setBin 8 { box with location := .lane 0 1 }
    (setVisit 3 (trip .inLane []) (setBin 7 { box with location := .lane 0 0, openVisit := some 3 } site)))

/-- Bin 7 with an eligible leg of visit 3: carried by crane 0, and from the outbound place; `waitingTrip` has one from its slot. -/
def carrying : State :=
  setCrane 0 { (crane site 0) with carried := some 7 }
    (setVisit 3 (trip .outbound [task .fetch]) (setBin 7 { box with openVisit := some 3, location := .crane 0 } site))
def homeward : State :=
  modStation 0 (fun r => { r with outbound := some 7 })
    (setVisit 3 (trip .atOutbound []) (setBin 7 { box with openVisit := some 3, location := .outbound 0 } site))

theorem meets_EventsSetOffWhatTheyAllow :
    inReset site = false ∧ stationPresent site 0 = true ∧ (station site 0).closeOrder = false ∧
      (station (closing id) 0).closeOrder = true ∧ (station (closing id) 0).shutter = .open ∧
      (station (closing id) 0).crossing = none ∧ (station (closing id) 0).beam = false ∧
      (station (closing fun r => { r with beam := true }) 0).beam = true ∧
      (station (closing fun r => { r with shutter := .opening }) 0).shutter = .opening ∧
      (station (closing fun r => { r with shutter := .closing }) 0).shutter = .closing ∧ (zone site 0).state = .clear ∧
      (zone (inZoneState .sealed site) 0).state = .sealed ∧ (zone (inZoneState .shutdown site) 0).state = .shutdown ∧
      (zone (inZoneState .recovery site) 0).state = .recovery ∧ stationOpen State.reset 0 = false ∧ stationOpen site 0 = true ∧
      (station leaving 0).face = some ⟨7, 3⟩ ∧ visit leaving 3 = some (trip .withdrawing []) ∧
      (station leaving 0).outbound = none ∧ mayCross leaving 0 = true ∧ binMayCross leaving 7 = true ∧
      (station opened 0).openingBin = some 7 ∧ (bin opened 7).map (·.location) = some (.opening 0) ∧
      (station opened 0).face = none ∧ (station queueing 0).lane = 7 :: [8] ∧ (station queueing 0).lane.Nodup ∧
      (station queueing 0).openingBin = none ∧ (station site 0).lane = [] := by decide +kernel

theorem meets_EventsSetOff_legs :
    nextGrant site 0 = none ∧ nextGrant (setWaiting 0 true site) 0 = some 0 ∧
      candidates waitingTrip 0 = [⟨3, trip .queued [task .fetch], .outbound, false⟩] ∧
      candidates carrying 0 = [⟨3, trip .outbound [task .fetch], .outbound, true⟩] ∧
      candidates homeward 0 = [⟨3, trip .atOutbound [], .inbound, false⟩] ∧ isFree waitingTrip 0 = true ∧
      service waitingTrip 0 = .inService ∧ (crane carrying 0).carried = some 7 ∧ (crane waitingTrip 0).carried = none ∧
      (aisleRec waitingTrip 0).grant = false ∧ waiting waitingTrip 0 = false ∧ 0 < freePlaces (station waitingTrip 0) ∧
      freePlaces (station (modStation 0 (fun r => { r with lane := [1, 2, 3] }) waitingTrip) 0) = 0 ∧
      (firstRanked waitingTrip 0 (candidates waitingTrip 0)).map (·.number) = some 3 ∧ firstRanked site 0 [] = none ∧
      visit waitingTrip 3 = some (trip .queued [task .fetch]) := by decide +kernel

/-- R123 to R126: the lane head crosses; R81 to R84: a free crane takes the leg with a place, waits with none, and a grant that
comes is used; R129: the close order is carried out. -/
theorem test_events :
    (settleZone queueing 0 queueing).sent = [.panel 0 (.transfer .present)] ∧
      (bin (settleZone queueing 0 queueing) 8).map (·.location) = some (.lane 0 0) ∧
      (choose 0 waitingTrip).sent = [.drive 0 (.go 4 2)] ∧ reservations (choose 0 waitingTrip) 0 = 1 ∧
      waiting (choose 0 (modStation 0 (fun r => { r with lane := [1, 2, 3] }) waitingTrip)) 0 = true ∧
      (aisleRec (grantArrives 0 waitingTrip) 0).grant = true ∧
      (settleZone site 0 (closing id)).stations.get 0 = station (releaseShutter 0 (closing id)) 0 := by decide +kernel

theorem meets_LanePlacesAreGranted :
    3 ≤ (station (modStation 0 (fun r => { r with lane := [1, 2, 3] }) site) 0).lane.length + 0 + 0 ∧
      (station site 0).lane.length + (station site 0).resv0 + (station site 0).resv1 < 3 ∧
      (station site 0).waiting0 = false ∧ visit waitingTrip 3 = some (trip .queued [task .fetch]) := by decide +kernel

/-- Three legs of the choice of R82's worked example, ranked by priority. -/
def legs : List Candidate := [
  ⟨21, { trip .queued [] with priority := 1, created := 50000 }, .outbound, false⟩,
  ⟨22, { trip .queued [] with priority := 1, created := 80000 }, .outbound, false⟩,
  ⟨23, { trip .queued [] with priority := 2, created := 105000 }, .outbound, false⟩]

/-- The wing at 120 s and at 170 s, when visit 21 alone has aged. -/
def late (n : Nat) : State := { stocked with time := ⟨0, 16000, n⟩ }

theorem meets_FirstRankedIsBest :
    (crane (late 120000) 0).col = some 0 ∧ (crane (late 120000) 0).level = some 0 ∧ CraneRec.reset.col = none ∧
      (∀ c ∈ legs, c.entry.priority ≤ 3) ∧ (∀ c ∈ legs, bin (late 120000) c.entry.bin = some box) ∧ legs ≠ [] := by
  decide +kernel

theorem test_choice :
    ((firstRanked (late 120000) 0 legs).map (·.number)) = some 23 ∧
      ((firstRanked (late 170000) 0 legs).map (·.number)) = some 21 := by decide +kernel

theorem meets_AxisTimeIsExact :
    96 * 2000 ≤ 192000 ∧ 0 < 96 * 2000 ∧ 200 * 200 ≤ 96 * 2000 * 200 ∧ 2 * 500 * 1500 < 3000 * 3000 ∧
      12 * 500 * 1500 = 3000 * 3000 ∧ 0 * 500 = 0 := by decide +kernel

/-- At the boundary the short form's smallest time is 4,000 ms. -/
theorem meets_AxisTime_boundary : ∀ k : Nat, 4000 ≤ k ↔ 4000000 * (12 * 500) ≤ k * k * 1500 := by
  intro k
  constructor
  · intro h
    have := Nat.mul_le_mul h h
    omega
  · intro h
    by_contra hk
    have h1 : k ≤ 3999 := by omega
    have := Nat.mul_le_mul h1 h1
    omega

theorem meets_DueDayIsClamped :
    (65535 : Nat) ≤ 65535 ∧ (41100 : Nat) < 41210 ∧ 41210 + 1000 < 42211 ∧ 41210 ≤ 42210 ∧ 42210 ≤ 41210 + 1000 := by
  decide +kernel

/-! ### The Withdrawal Table and the laws -/

theorem probeLaw_empty : ProbeLaw ([] : Table WithdrawalRec) where
  form := rfl
  space := ⟨0, by decide, rfl⟩
  once := by intro i j r w h; cases h
  path := by intro j r h; cases h

/-- A table of one record in its home bucket keeps the law. -/
theorem probeLaw_one : ProbeLaw (lent .out).withdrawals where
  form := by decide +kernel
  space := ⟨0, by decide, by decide +kernel⟩
  once := by
    intro i j r w h1 h2 _
    simp only [lent, tableGet] at h1 h2
    split at h1
    · split at h2
      · omega
      · cases h2
    · cases h1
  path := by
    intro j r h d hd
    simp only [lent, tableGet] at h
    split at h
    · rename_i hj
      simp only [Option.some.injEq] at h
      subst h hj
      have hh : homeBucket key1 = 2112 := by decide +kernel
      simp only [hh] at hd ⊢
      have : d = 0 := by omega
      subst this
      decide +kernel
    · cases h

theorem meets_WithdrawalTableFindsItsRecords :
    withdrawal stocked (item key1).key = none ∧ tableGet stocked.withdrawals 0 = none ∧
      tableGet stocked.withdrawals 4095 = none ∧ (0 : Nat) < 4095 ∧ (4095 : Nat) < 4096 ∧ stocked.withdrawals = [] ∧
      withdrawal (lent .out) key1 = some ⟨key1, 7, 0, 10, .out, none⟩ ∧ (tableScan .overdue).chanQ.table = .withdrawal ∧
      (tableScan .overdue).chanQ.state = .running := by decide +kernel

theorem test_deletion_disturbs : (deleteRecord key1 (tableScan .overdue)).chanQ.disturbed = true := by decide +kernel

theorem meets_MessagesReadAsWritten :
    WellFormed (.setDay [2, 0, 2]) = true ∧ encodeMessage (.setDay [2, 0, 2]) = some [0x71, 2, 0, 2] ∧
      WellFormed (.mark 3 1 7) = true ∧ encodeField (.mark 3 1 7) = some [0x41, 2, 1, 7] ∧
      WellFormed (.problem 2 2) = true ∧ encodeField (.problem 2 2) = some [0x14, 1, 2] ∧ (0 : Byte).toNat = 0 ∧
      4 < (5 : Byte).toNat ∧ inReset site = false := by decide +kernel

/-- The access codes of R182, and a transaction with another first byte (R164). -/
theorem test_access :
    decodeTransaction true [0x01, 0x42, 0x00] = some (.stopScan [0]) ∧ decodeTransaction true [0x02, 0, 0] = some (.readReply 2 true) ∧
      decodeTransaction true [0x03, 0] = some .readStatusTransaction ∧
      decodeTransaction true [0x04, 0, 0, 0] = some .readAndClearAttention ∧ decodeTransaction true [0x05, 0] = none ∧
      decodeTransaction true [] = none := by decide +kernel

/-- R164: 0x00 for every byte clocked, the code byte among them. -/
theorem test_ignored_transaction :
    takeTransaction true [0x05, 0] site = .next { site with link := { site.link with hostOut := [0, 0] } } := rfl

theorem meets_RecordTablesStayWellFormed : (served box []).wf = true ∧ State.reset.wf = true := by decide +kernel

theorem meets_LinkLawIsKept : LinkLaw replying.link where
  serial := by intro h; cases h
  command := by decide +kernel
  noCommand := by intro _; rfl
  noReply := by intro h; cases h
  reply := by intro _; exact ⟨.done, [5, 6], rfl⟩
  restart := by intro h; cases h
  summary := by
    intro i _
    exact BitVec.getLsbD_zero

/-- A zone SEALED behind its closed shutter meets the shutter law. -/
theorem meets_SealedShutterStaysReleased :
    shutterLaw (modStation 0 (fun r => { r with holdOpen := false, shutter := .closed }) (inZoneState .sealed site)) := by
  unfold shutterLaw
  decide +kernel

/-! ### Refusals and boundaries -/

/-- Bin 7 with an open visit in a state, and the wing with aisle 0 suspended. -/
def busyWith (st : VisitState) (ts : List TaskRec) : State :=
  setVisit 3 (trip st ts) (setBin 7 { box with openVisit := some 3 } (setSlot home (.filled 7) site))
def suspendedSite : State := setAisle 0 ⟨.suspended, false⟩ stocked

/-- Each check of R54 steps 5 and 6 and of R37 is the first that fails somewhere. -/
theorem meets_placeChecks :
    FirstFailing (placeChecks (inZoneState .sealed stocked) 0 ++ visitChecks stocked box) .zoneClosed ∧
      FirstFailing (placeChecks suspendedSite 0 ++ visitChecks suspendedSite box) .aisleOut ∧
      FirstFailing (placeChecks crowded 0 ++ visitChecks crowded box) .tableFull ∧
      FirstFailing (placeChecks (busyWith .inbound []) 0 ++
        visitChecks (busyWith .inbound []) { box with openVisit := some 3 }) .binBusy ∧
      FirstFailing (placeChecks (busyWith .queued (List.replicate 8 (task .fetch))) 0 ++
        visitChecks (busyWith .queued (List.replicate 8 (task .fetch))) { box with openVisit := some 3 }) .tasksFull :=
  ⟨Or.inl ⟨by decide +kernel, rfl⟩, Or.inr ⟨by decide +kernel, Or.inl ⟨by decide +kernel, rfl⟩⟩,
    Or.inr ⟨by decide +kernel, Or.inr ⟨by decide +kernel, Or.inl ⟨by decide +kernel, rfl⟩⟩⟩,
    Or.inr ⟨by decide +kernel, Or.inr ⟨by decide +kernel, Or.inr ⟨by decide +kernel,
      Or.inl ⟨by decide +kernel, rfl⟩⟩⟩⟩,
    Or.inr ⟨by decide +kernel, Or.inr ⟨by decide +kernel, Or.inr ⟨by decide +kernel, Or.inr ⟨by decide +kernel,
      Or.inl ⟨by decide +kernel, rfl⟩⟩⟩⟩⟩⟩

/-- The refusals of Return and Refile in their order (R64, R68, R70). -/
theorem test_return_and_refile_refused :
    replyOf (.returnItem (commandBody (keyBytes1 ++ [4]))) (lent .out) = [0x12, 0] ∧
      replyOf (.returnItem (commandBody (keyBytes1 ++ [3]))) stocked = [0x32, 0] ∧
      replyOf (.returnItem (commandBody (keyBytes1 ++ [3]))) (inZoneState .sealed (lent .out)) = [0x40, 0] ∧
      replyOf (.refile (commandBody refileBytes)) site = [0x20, 0] ∧
      replyOf (.refile (commandBody refileBytes)) (inZoneState .sealed (stockedWith { box with quarantined := true })) =
        [0x23, 0] ∧
      replyOf (.refile (commandBody refileBytes)) (lent .out) = [0x31, 0] ∧
      replyOf (.refile (commandBody refileBytes)) crowded = [0x30, 0] ∧
      replyOf (.refile (commandBody (keyBytes1 ++ [0xFF, 0xFF, 1, 4, 2]))) stocked = [0x12, 0] ∧
      replyOf (.refile (commandBody refileAny)) (setAisle 1 ⟨.suspended, false⟩ suspendedSite) = [0x41, 0] := by decide +kernel

theorem meets_RefileAny_refused :
    stationOf (byteAt [0, 0, 0, 0, 0, 0, 0xFF, 0xFF, 3, 4, 3] 9) = none ∧ zoneClosed (inZoneState .sealed stocked) 0 = true ∧
      service (setAisle 1 ⟨.suspended, false⟩ suspendedSite) (aisle1 0) ≠ .inService ∧
      keyTaken (lent .out) (keyAt refileAny 0) = true := by decide +kernel

/-- The greatest good fields of Fetch, and the least bad ones. -/
theorem meets_FetchAndMoveHome_refused :
    3 < byteAt [0, 7, 4, 0] 2 ∧ 1 < byteAt [0, 7, 3, 2] 3 ∧ slotAt [0, 7, 0, 96, 0, 0] 2 = none ∧
      slotAt [0, 7, 1, 3, 2, 0] 2 = some ⟨1, 3, 2, .left⟩ ∧ (⟨1, 3, 2, .left⟩ : Slot).aisle ≠ box.home.aisle ∧
      slotAt [0, 7, 0, 3, 2, 0] 2 = some box.home := by decide +kernel

/-- The refusals of Fetch and Move Home in their order (R38, R15). -/
theorem test_fetch_and_move_refused :
    replyOf (.fetch (commandBody [0, 7, 0, 2])) stocked = [0x12, 0] ∧ replyOf (.fetch (commandBody [0, 9, 0, 0])) stocked = [0x20, 0] ∧
      replyOf (.fetch (commandBody [0, 7, 0, 0])) (busyWith .inbound []) = [0x21, 0] ∧
      replyOf (.moveHome (commandBody [0, 7, 0, 3, 2, 0])) stocked = [0x12, 0] ∧
      replyOf (.moveHome (commandBody moveBytes)) guarded = [0x22, 0] ∧
      replyOf (.moveHome (commandBody moveBytes)) (busyWith .queued []) = [0x21, 0] ∧
      replyOf (.moveHome (commandBody moveBytes)) (setSlot other .blocked stocked) = [0x24, 0] ∧
      replyOf (.moveHome (commandBody moveBytes)) crowded = [0x30, 0] := by decide +kernel

/-- The least bad fields of Admit Bin. -/
theorem meets_AdmitBin_refused :
    16384 ≤ wordAt [0x40, 0] 0 ∧ 3 < byteAt [0, 9, 4] 2 ∧ byteAt [0, 9, 3, 0] 3 = 0 ∧ 250 < byteAt [0, 9, 3, 251] 3 ∧
      byteAt [0, 9, 3, 1, 2] 3 < byteAt [0, 9, 3, 1, 2] 4 ∧ slotAt [0, 9, 3, 1, 1, 8, 0, 0, 0, 0] 5 = none ∧
      stationOf (byteAt [0, 9, 3, 1, 1, 0, 95, 11, 1, 4] 9) = none ∧ (station (served box []) 0).face ≠ none ∧
      linkIdle (served box []) ∧ (served box []).mode = .service := by decide +kernel

/-- The refusals of Admit Bin in SERVICE in their order (R8). -/
theorem test_admit_refused :
    replyOf (.admitBin (commandBody [0, 9, 3, 1, 2, 0, 95, 11, 1, 0])) stocked = [0x12, 0] ∧
      replyOf (.admitBin (commandBody [0, 7, 3, 2, 2, 0, 95, 11, 1, 0])) stocked = [0x15, 0] ∧
      replyOf (.admitBin (commandBody admitBytes)) (inZoneState .alert stocked) = [0x40, 0] ∧
      replyOf (.admitBin (commandBody admitBytes)) suspendedSite = [0x41, 0] ∧
      replyOf (.admitBin (commandBody admitBytes)) (outStation .open) = [0x42, 0] ∧
      replyOf (.admitBin (commandBody admitBytes)) (served box []) = [0x15, 0] ∧
      replyOf (.admitBin (commandBody admitBytes)) (setSlot other .blocked stocked) = [0x24, 0] ∧
      replyOf (.admitBin (commandBody admitBytes)) crowded = [0x30, 0] := by decide +kernel

/-- BAD_VALUE and NO_SUCH_BIN of Alter Bin (R9), each at the least bad field; a kept field of 0 and counts of 250 are good. -/
theorem test_alter_refused :
    replyOf (.alterBin (commandBody [0, 7, 16, 0, 0, 0, 0])) stocked = [0x12, 0] ∧
      replyOf (.alterBin (commandBody [0, 7, 1, 4, 0, 0, 0])) stocked = [0x12, 0] ∧
      replyOf (.alterBin (commandBody [0, 7, 0, 1, 0, 0, 0])) stocked = [0x12, 0] ∧
      replyOf (.alterBin (commandBody [0, 7, 2, 0, 251, 0, 0])) stocked = [0x12, 0] ∧
      replyOf (.alterBin (commandBody [0, 7, 4, 0, 0, 251, 0])) stocked = [0x12, 0] ∧
      replyOf (.alterBin (commandBody [0, 7, 8, 0, 0, 0, 1])) stocked = [0x12, 0] ∧
      replyOf (.alterBin (commandBody [0, 9, 0, 0, 0, 0, 0])) stocked = [0x20, 0] ∧
      ((bin (after (.alterBin (commandBody [0, 7, 6, 0, 250, 250, 0])) stocked) 7).map fun r => (r.capacity, r.fill)) =
        some (250, 250) := by decide +kernel

theorem meets_WorkIsCancelled_refused :
    64 ≤ byteAt [64, 0] 0 ∧ 8 ≤ byteAt [3, 8] 1 ∧ visit waitingTrip (byteAt [63, 0] 0) = none ∧
      visit crowded 63 = some { trip .queued [] with outcome := some .done } ∧
      (trip .queued [task .fetch]).tasks.length ≤ byteAt [3, 1] 1 ∧
      ({ task .fetch with state := .confirmed } : TaskRec).state ≠ .pending := by decide +kernel

/-- The refusals of Cancel Task, Cancel Visit, Retire Visit and Write Off Item (R42 to R44, R62). -/
theorem test_cancel_refused :
    replyOf (.cancelTask (commandBody [64, 0])) waitingTrip = [0x12, 0] ∧
      replyOf (.cancelTask (commandBody [4, 0])) waitingTrip = [0x35, 0] ∧
      replyOf (.cancelTask (commandBody [3, 1])) waitingTrip = [0x36, 0] ∧
      replyOf (.cancelVisit (commandBody [63])) crowded = [0x15, 0] ∧
      replyOf (.retireVisit (commandBody [64])) crowded = [0x12, 0] ∧
      replyOf (.writeOffItem (commandBody [0, 0, 0, 0, 0, 0])) stocked = [0x12, 0] := by decide +kernel

/-- A wing in SERVICE with no aisle and no station present. -/
def bare : State := { State.reset with mode := .service }

/-- An aisle, zone or station that is none, and ones that are absent (R93, R94, R113, R132, R136). -/
theorem meets_absent :
    linkIdle bare ∧ bare.mode = .service ∧ aisleOf (byteAt [8] 0) = none ∧ aisleOf (byteAt [7] 0) = some 7 ∧
      aislePresent bare 7 = false ∧ stationOf (byteAt [4] 0) = none ∧ stationOf (byteAt [3] 0) = some 3 ∧
      stationPresent bare 3 = false := by decide +kernel

theorem test_absent :
    replyOf (.suspendAisle (commandBody [8])) bare = [0x12, 0] ∧ replyOf (.clearCrane (commandBody [7])) bare = [0x41, 0] ∧
      replyOf (.restoreZone (commandBody [4])) bare = [0x12, 0] ∧ replyOf (.reopenStation (commandBody [3])) bare = [0x12, 0] ∧
      replyOf (.lineTest (commandBody [3])) bare = [0x12, 0] := by decide +kernel

/-- The filters of R158 steps 3 and 4 at their boundaries. -/
theorem test_filters :
    filterOf [0, 0, 0, 7] 0 .bin 4 = some (.homeAisle 7) ∧ filterOf [0, 0, 0, 8] 0 .bin 4 = none ∧
      filterOf [0, 0, 0, 250] 0 .bin 5 = some (.fillAtMost 250) ∧ filterOf [0, 0, 0, 251] 0 .bin 5 = none ∧
      filterOf [0, 0, 0, 1] 0 .bin 6 = none ∧ filterOf [0, 0, 0xFF, 0xFF] 0 .bin 7 = some (.idleSince 65535) ∧
      filterOf [0x3F, 0xFF, 0x3F, 0xFF] 0 .withdrawal 2 = some (.homeBinRange 16383 16383) ∧
      filterOf [0, 0, 0x40, 0] 0 .withdrawal 2 = none ∧ filterOf [0, 2, 0, 1] 0 .withdrawal 2 = none ∧
      filterOf [0, 0, 0, 0] 0 .withdrawal 4 = none := by decide +kernel

/-- R159: a free record and an empty bucket pass no filter. -/
theorem meets_ScanStep_free :
    bin (scanning .single 8 0) (scanning .single 8 0).chanQ.cursor = none ∧
      tableGet (lent .out).withdrawals 2113 = none ∧ (after .scanStep (scanning .single 8 0)).chanQ.results = [] := by
  decide +kernel

/-- R182 Table 4: the bytes of a withdrawal record's bucket, of an empty one, and of a visit. -/
theorem test_reply_layouts :
    bucketBytes 2112 2112 (some ⟨key1, 7, 0x0102, 0x0304, .returning, some 63⟩) =
      [0x08, 0x40, 1, 0x12, 0x34, 0x56, 0x78, 0x9A, 0xBC, 0, 7, 1, 2, 3, 4, 1, 63, 0x08, 0x40] ∧
    visitBytes 63 { trip .atFace [task .lend] with created := 0x010203, hold := { HoldSet.none with stationOut := true } } =
      [63, 0, 0, 7, 4, 0, 0, 0, 1, 2, 3, 2, 0, 16, 0xFF, 0xFF, 0xFF, 0xFF, 0, 0xFF, 1] ∧
    slotEntryBytes .blocked = [4, 0xFF, 0xFF] := by decide +kernel

/-- R155, R173: after a kept reset the summary holds RESTARTED, and the ZONE bit of a zone that it sealed (log entry 21). -/
theorem test_reset_summary :
    (resetAtOnce .pin site).link.attention = 0x080000 ∧
      (resetAtOnce .pin (inZoneState .shutdown site)).link.attention = 0x082000 ∧
      (resetAtOnce .pin { site with params := site.params.set 17 ⟨121, false⟩ }).link.attention = 0x0C0000 := by decide +kernel

/-- Several levels of a zone at once: fire and panel clear, panel clear under fire, its fall, and with alert (R148, R151). -/
theorem meets_ZonesAct_levels :
    fireLevel (taken 4 (taken 9 stocked)) 0 = true ∧ clearLevel (taken 4 (taken 9 stocked)) 0 = true ∧
      fireLevel (taken 4 stocked) 0 = true ∧ clearLevel (taken 4 stocked) 0 = false ∧
      alertLevel (taken 4 (taken 9 stocked)) 0 = alertLevel (taken 4 stocked) 0 ∧ clearLevel (taken 9 stocked) 0 = true ∧
      alertLevel (taken 0 (taken 9 stocked)) 0 = true ∧ clearLevel (taken 0 (taken 9 stocked)) 0 = true ∧
      (zone (inZoneState .sealed stocked) 0).state = .sealed := by decide +kernel

/-- R148: panel clear that rises under fire is not seen; one that rises without is, be it with alert; fire that rises with it
clears it. -/
theorem test_levels :
    (zone (actOnLevels (taken 4 stocked) 0 (taken 9 (taken 4 (inZoneState .sealed stocked)))) 0).panelClearSeen = false ∧
      (zone (actOnLevels stocked 0 (taken 0 (taken 9 (inZoneState .sealed stocked)))) 0).panelClearSeen = true ∧
      (zone (actOnLevels stocked 0 (taken 4 (taken 9 (inZoneState .awaitRestore stocked)))) 0).state = .sealed := by
  decide +kernel

/-- R93, R115: a fault in RETRY mode that cuts off the finishing fork of a SUSPENDING aisle takes the suspension (log entry 36);
otherwise PARK is issued. -/
theorem test_cut_off :
    (crane (retryFault 0 .slip (withCrane (finishing .forkPick (leg .outbound 1)))) 0).state = .parking ∧
      (retryFault 0 .slip (withCrane (finishing .forkPick (leg .outbound 1)))).sent = [.drive 0 .stop, .drive 0 .park] ∧
      (aisleRec (retryFault 0 .slip (suspendedAs .suspending (withCrane (finishing .forkPick (leg .outbound 1))))) 0).suspension =
        .suspended := by decide +kernel

/-- R119, R174: a station that a parity repair leaves absent still agrees with the directory on the bin at its face. -/
def maskLost : State := { served box [] with params := (served box []).params.set 1 ⟨0xF, true⟩ }

theorem test_absent_station :
    stationPresent (resetAtOnce .pin maskLost) 0 = false ∧ (station (resetAtOnce .pin maskLost) 0).face = some ⟨7, 3⟩ ∧
      ((bin (resetAtOnce .pin maskLost) 7).map (·.location)) = some (.face 0) := by decide +kernel

/-- A crane in the HOME of a leg that a cancellation has ended (R85, R87). -/
def cancelledHoming : CraneRec :=
  { inSegment .travel (leg .outbound 0) with
    leg := some { leg .outbound 0 with cancelled := true }, segment := some ⟨.home, 0, 0, .mouth, 0⟩, col := none, level := none }

theorem meets_HomingsComplete_cancelled :
    inReset (withCrane cancelledHoming) = false ∧ cancelledHoming.segment = some ⟨.home, 0, 0, .mouth, 0⟩ ∧
      (cancelledHoming.leg.map (·.cancelled)) = some true ∧
      (aisleRec (withCrane cancelledHoming) 0).suspension ≠ .suspending := by decide +kernel

theorem test_cancelled_homing :
    (crane (after (.homed 0) (withCrane cancelledHoming)) 0).state = .ready ∧
      (crane (after (.homed 0) (withCrane cancelledHoming)) 0).leg = none := by decide +kernel

/-- R99 Table 4: NO_LOAD in a fork is unexpected. -/
theorem test_no_load_in_a_fork :
    (crane (after (.noLoad 0) (withCrane (inSegment .forkPick (leg .outbound 1)))) 0).unexpected = 1 ∧
      (crane (after (.noLoad 0) (withCrane (inSegment .forkPick (leg .outbound 1)))) 0).segment =
        some ⟨.forkPick, 4, 2, .left, 0⟩ := by decide +kernel

/-- A bin without an open visit, and a free visit number, for the task that a search places (R73). -/
theorem meets_PlacementSearch_new :
    bin searchingLast 16383 = some box ∧ box.openVisit = none ∧ freeVisit searchingLast = some 0 ∧
      (task .refile).state = .pending := by decide +kernel

/-- R163: a deletion disturbs neither an IDLE query nor one of the BIN table. -/
theorem test_deletion_leaves_the_channel :
    (deleteRecord key1 { tableScan .overdue with chanQ := { (tableScan .overdue).chanQ with state := .idle } }).chanQ.disturbed =
        false ∧
      (deleteRecord key1 { tableScan .overdue with chanQ := (scanning .loop 7 0).chanQ }).chanQ = (scanning .loop 7 0).chanQ := by
  decide +kernel

end Sys2Proof.Tests
end

