-- ==== Sys2Proof/Proofs/AxisTime.lean ====
section
/-! The time of one axis (R89): what each function of its computation answers, and the exactness of both profiles. -/

namespace Sys2Proof.Machine

/-! ### The count of pitches -/

theorem distance_eq_ite (x y : Nat) : distance x y = if x ≤ y then y - x else x - y := by
  unfold distance
  split <;> omega

theorem distance_eq_natAbs (x y : Nat) : distance x y = ((x : Int) - y).natAbs := by
  unfold distance
  omega

theorem distance_le_of_le {x y n : Nat} (hx : x ≤ n) (hy : y ≤ n) : distance x y ≤ n := by
  unfold distance
  omega

/-- Raising both columns by 1, so that the mouth is 0, keeps their difference. -/
theorem distance_slotCol (f g : Slot) :
    distance (slotCol f) (slotCol g) = ((f.column.val : Int) - g.column.val).natAbs := by
  rw [distance_eq_natAbs]
  simp [slotCol]

theorem distance_slotCol_mouth (f : Slot) : distance (slotCol f) 0 = ((f.column.val : Int) - (-1)).natAbs := by
  rw [distance_eq_natAbs]
  simp [slotCol]

theorem slotCol_le (f : Slot) : slotCol f ≤ 96 := f.column.isLt

theorem level_le (f : Slot) : f.level.val ≤ 11 := Nat.le_of_lt_succ f.level.isLt

/-! ### The two profiles -/

theorem ceilDiv_le_iff {x y : Nat} (hy : 0 < y) (t : Nat) : ceilDiv x y ≤ t ↔ x ≤ t * y := by
  rw [ceilDiv, Nat.div_le_iff_le_mul_add_pred hy, Nat.mul_comm, Nat.add_le_add_iff_right]

/-- The search by bits keeps its bracket: it starts below the bound with the end of its range at or above it, and answers a
number below the bound whose successor is not. -/
theorem greatestBelow_brackets (a n : Nat) : ∀ bits t : Nat,
    t * t * a < n → n ≤ (t + 2 ^ bits) * (t + 2 ^ bits) * a →
    greatestBelow a n bits t * greatestBelow a n bits t * a < n ∧
      n ≤ (greatestBelow a n bits t + 1) * (greatestBelow a n bits t + 1) * a
  | 0, _, hlow, hhigh => ⟨hlow, hhigh⟩
  | bits + 1, t, hlow, hhigh => by
    rw [greatestBelow]
    split
    case isTrue hmid =>
      have hend : t + 2 ^ bits + 2 ^ bits = t + 2 ^ (bits + 1) := by rw [pow_succ]; omega
      exact greatestBelow_brackets a n bits _ hmid (hend ▸ hhigh)
    case isFalse hmid => exact greatestBelow_brackets a n bits t hlow (Nat.le_of_not_lt hmid)

theorem square_mul_mono {x y : Nat} (h : x ≤ y) (a : Nat) : x * x * a ≤ y * y * a :=
  Nat.mul_le_mul_right a (Nat.mul_le_mul h h)

/-- The 20 bits searched are enough: 2⁴⁰ is above 4,000,000 × 192,000. -/
theorem shortProfile_le_iff {a d : Nat} (ha : 0 < a) (hd : 0 < d) (hmax : d ≤ 192000) (t : Nat) :
    shortProfile a d ≤ t ↔ 4000000 * d ≤ t * t * a := by
  have hrange : 4000000 * d ≤ (0 + 2 ^ 20) * (0 + 2 ^ 20) * a := by omega
  obtain ⟨hbelow, hreached⟩ := greatestBelow_brackets a (4000000 * d) 20 0 (by omega) hrange
  rw [shortProfile, if_neg (Nat.ne_of_gt hd)]
  constructor
  · intro ht
    exact hreached.trans (square_mul_mono ht a)
  · intro ht
    by_contra hlt
    have hle : t ≤ greatestBelow a (4000000 * d) 20 0 := by omega
    exact absurd (square_mul_mono hle a) (by omega)

/-! ### The axis time by case -/

theorem axisTime_of_no_move {n pitch : Nat} (h : n * pitch = 0) (v a : Nat) : axisTime n pitch v a = 0 :=
  if_pos h

theorem axisTime_of_short {n pitch v a : Nat} (hd : 0 < n * pitch) (h : n * pitch * a < v * v) :
    axisTime n pitch v a = shortProfile a (n * pitch) := by
  simp only [axisTime, if_neg (Nat.ne_of_gt hd), if_neg (Nat.not_le.mpr h)]

theorem axisTime_of_full {n pitch v a : Nat} (hd : 0 < n * pitch) (h : v * v ≤ n * pitch * a) :
    axisTime n pitch v a = ceilDiv (1000 * (n * pitch)) v + ceilDiv (1000 * v) a := by
  simp only [axisTime, fullProfile, if_neg (Nat.ne_of_gt hd), if_pos h]

/-! ### The boundary of the profiles -/

section
variable {d v a : Nat} (ha : 0 < a) (h : d * a = v * v)
include ha h

/-- At the boundary the short form's bound is that of 2,000 × v / a: it is the square of it. -/
theorem short_bound_iff_of_boundary (t : Nat) : 4000000 * d ≤ t * t * a ↔ 2000 * v ≤ t * a :=
  calc 4000000 * d ≤ t * t * a ↔ 4000000 * d * a ≤ t * t * a * a := (Nat.mul_le_mul_right_iff ha).symm
    _ ↔ 2000 * v * (2000 * v) ≤ t * a * (t * a) := by
      rw [Nat.mul_assoc 4000000, h, Nat.mul_mul_mul_comm 2000, Nat.mul_mul_mul_comm t, Nat.mul_assoc (t * t)]
    _ ↔ 2000 * v ≤ t * a := Nat.mul_self_le_mul_self_iff

variable (hv : 0 < v)
include hv

/-- At the boundary D / v = v / a, so that the two terms of the full profile are one number. -/
theorem ceilDiv_eq_of_boundary : ceilDiv (1000 * d) v = ceilDiv (1000 * v) a := by
  refine eq_of_forall_ge_iff fun t => ?_
  rw [ceilDiv_le_iff hv, ceilDiv_le_iff ha]
  calc 1000 * d ≤ t * v ↔ 1000 * d * a ≤ t * v * a := (Nat.mul_le_mul_right_iff ha).symm
    _ ↔ 1000 * v * v ≤ t * a * v := by rw [Nat.mul_assoc 1000, h, Nat.mul_right_comm t, Nat.mul_assoc 1000]
    _ ↔ 1000 * v ≤ t * a := Nat.mul_le_mul_right_iff hv

/-- Twice a number rounded up is at most 1 above its double rounded up. -/
theorem full_eq_short_or_succ_of_boundary {t : Nat} (ht : ∀ k : Nat, t ≤ k ↔ 4000000 * d ≤ k * k * a) :
    ceilDiv (1000 * d) v + ceilDiv (1000 * v) a = t ∨ ceilDiv (1000 * d) v + ceilDiv (1000 * v) a = t + 1 := by
  rw [ceilDiv_eq_of_boundary ha h hv]
  generalize hc : ceilDiv (1000 * v) a = c
  have hterm : ∀ k, c ≤ k ↔ 1000 * v ≤ k * a := fun k => hc ▸ ceilDiv_le_iff ha k
  have hshort : ∀ k, t ≤ k ↔ 2000 * v ≤ k * a := fun k => (ht k).trans (short_bound_iff_of_boundary ha h k)
  have hupper : t ≤ c + c := by
    have := (hterm c).mp le_rfl
    rw [hshort, Nat.add_mul]
    omega
  have hlower : c ≤ t / 2 + t % 2 := by
    have := (hshort t).mp le_rfl
    have hhalf : t * a ≤ 2 * ((t / 2 + t % 2) * a) := by
      rw [← Nat.mul_assoc]
      exact Nat.mul_le_mul_right a (by omega)
    rw [hterm]
    omega
  omega

end

/-- Settles O52: the search by bits finds the short profile, the two rounded terms are the full one, and the two agree to
within 1 ms at their boundary. -/
theorem axisTimeIsExact : Obligations.AxisTimeIsExact := by
  refine ⟨distance_eq_ite, fun f g => ⟨distance_slotCol f g, distance_slotCol_mouth f,
    distance_le_of_le (slotCol_le f) (slotCol_le g), distance_le_of_le (slotCol_le f) (Nat.zero_le _),
    distance_le_of_le (level_le f) (level_le g)⟩, ?_⟩
  intro n pitch v a hmax hv ha
  refine ⟨fun hd => axisTime_of_no_move hd v a, ?short, ?full, ?boundary, by omega, by norm_num⟩
  case short =>
    intro hd hshort t
    rw [axisTime_of_short hd hshort]
    exact shortProfile_le_iff ha hd hmax t
  case full =>
    intro hd hfull
    exact ⟨_, _, axisTime_of_full hd hfull, ceilDiv_le_iff hv, ceilDiv_le_iff ha⟩
  case boundary =>
    intro hd heq t ht
    rw [axisTime_of_full hd heq.ge]
    exact full_eq_short_or_succ_of_boundary ha heq hv ht

end Sys2Proof.Machine
end

/-! Stop Scan (R162): what the command does to channel Q, and that a scan step leaves a channel that is not RUNNING alone. -/

namespace Sys2Proof.Machine

theorem exec_stopScan_eq (body : List Byte) (s : State) : exec (.stopScan body) s = execStopScan body s := rfl

theorem exec_scanStep_eq (s : State) : exec .scanStep s = execScanStep s := rfl

/-- An idle link answers Stop Scan in either mode, with the code of the state that channel Q had. -/
theorem exec_stopScan {s : State} (hs : linkIdle s) :
    exec (.stopScan (commandBody [])) s = .next (writeReply .done (byte s.chanQ.state.code)
      { s with chanQ := { s.chanQ with state := .idle } }) := by
  have hreply : takeCommand 0x42 0 .both runStopScan (commandBody []) s = writeReply .done (byte s.chanQ.state.code)
      (loadCommand (0x42 :: commandBody []) { s with chanQ := { s.chanQ with state := .idle } }) :=
    takeCommand_replies hs rfl (Nat.zero_le _) modeCheck_both rfl
  rw [exec_stopScan_eq, execStopScan, hreply, writeReply_loadCommand]

theorem stop_chanQ_of_idle {s : State} (h : s.chanQ.state = .idle) :
    { s with chanQ := { s.chanQ with state := .idle } } = s := by
  rw [← h]

/-- Only a RUNNING channel Q takes a step (R159), in a reset or outside one. -/
theorem exec_scanStep_of_not_running {s : State} (h : s.chanQ.state ≠ .running) : exec .scanStep s = .next s := by
  have hstep : stepQuery s = s := if_neg h
  rw [exec_scanStep_eq, execScanStep, outsideReset, hstep, ite_self]

/-- Settles O31: the state after Stop Scan is the one above, and its channel, being IDLE, takes no further step. -/
theorem stopScanEndsTheQuery : Obligations.StopScanEndsTheQuery := by
  intro s hs
  refine ⟨?reply, ?idle, ?step⟩
  case reply =>
    rw [exec_stopScan hs]
    cases s.chanQ.state <;> rfl
  case idle =>
    intro hidle
    rw [exec_stopScan hs, stop_chanQ_of_idle hidle, hidle]
    rfl
  case step =>
    intro t ht
    rw [exec_stopScan hs] at ht
    obtain rfl := Host.Outcome.next.inj ht
    refine exec_scanStep_of_not_running ?_
    rw [writeReply_chanQ]
    exact ScanState.noConfusion

end Sys2Proof.Machine

/-! The tables of the Record Memory stay in canonical form at every step (R1, R4, R22, R46). -/

namespace Sys2Proof.Machine

/-- The number of a slot lies among the 18,432 of the wing (R4). -/
theorem slotIndex_lt (sl : Slot) : slotIndex sl < 18432 := by
  have ha := sl.aisle.isLt
  have hc := sl.column.isLt
  have hl := sl.level.isLt
  unfold slotIndex
  split <;> omega

theorem tablePut_mem {α : Type} {t : Table α} {n : Nat} {x : α} {e : Nat × α} (h : e ∈ tablePut t n x) :
    e = (n, x) ∨ e ∈ t := by
  induction t with
  | nil => exact .inl (List.mem_singleton.mp h)
  | cons d t ih =>
    simp only [tablePut] at h
    split at h
    · exact List.mem_cons.mp h
    · split at h
      · exact (List.mem_cons.mp h).imp_right (List.mem_cons_of_mem _)
      · rcases List.mem_cons.mp h with rfl | h
        · exact .inr List.mem_cons_self
        · exact (ih h).imp_right (List.mem_cons_of_mem _)

theorem State.wf_iff (s : State) : s.wf = true ↔
    tableWf Config.binCount s.bins = true ∧ tableWf 18432 s.slots = true ∧ tableWf Config.visitCount s.visits = true ∧
      tableWf Config.bucketCount s.withdrawals = true ∧ ∀ e ∈ s.slots, e.2 ≠ .empty := by
  simp [State.wf, and_assoc]

/-- A number that lies below the bound, or has a record already, lies below the bound. -/
theorem lt_of_tableWf {α : Type} {bound : Nat} {t : Table α} {n : Nat} (h : tableWf bound t = true)
    (hn : n < bound ∨ (tableGet t n).isSome = true) : n < bound := by
  rcases hn with hn | hn
  · exact hn
  · obtain ⟨x, hx⟩ := Option.isSome_iff_exists.mp hn
    exact tableWf_lt h hx

theorem wf_setSlot {s : State} (sl : Slot) (e : SlotEntry) (h : s.wf = true) : (setSlot sl e s).wf = true := by
  obtain ⟨hb, hs, hv, hw, hn⟩ := s.wf_iff.mp h
  refine (State.wf_iff _).mpr ⟨hb, ?form, hv, hw, ?full⟩ <;> unfold setSlot <;> split
  case form.isTrue => exact tableWf_erase hs
  case form.isFalse => exact tableWf_put hs (slotIndex_lt sl)
  case full.isTrue => exact fun d hd => hn d (tableErase_mem hd)
  case full.isFalse he =>
    intro d hd
    rcases tablePut_mem hd with rfl | hd
    · exact he
    · exact hn d hd

/-- The table operations keep the canonical form. -/
theorem records_wf : Records (fun s => s.wf = true) where
  same t u hb hs hv hw _ h := by
    rw [State.wf, hb, hs, hv, hw]
    exact h
  bin b r t hn h := by
    obtain ⟨hb, hs, hv, hw, hl⟩ := t.wf_iff.mp h
    exact (State.wf_iff _).mpr ⟨tableWf_put hb (lt_of_tableWf hb hn), hs, hv, hw, hl⟩
  freeBin b t h := by
    obtain ⟨hb, hs, hv, hw, hl⟩ := t.wf_iff.mp h
    exact (State.wf_iff _).mpr ⟨tableWf_erase hb, hs, hv, hw, hl⟩
  bins f t h := by
    obtain ⟨hb, hs, hv, hw, hl⟩ := t.wf_iff.mp h
    exact (State.wf_iff _).mpr ⟨tableWf_map f hb, hs, hv, hw, hl⟩
  slot sl e t h := wf_setSlot sl e h
  visit n v t hn h := by
    obtain ⟨hb, hs, hv, hw, hl⟩ := t.wf_iff.mp h
    exact (State.wf_iff _).mpr ⟨hb, hs, tableWf_put hv (lt_of_tableWf hv hn), hw, hl⟩
  visits f t h := by
    obtain ⟨hb, hs, hv, hw, hl⟩ := t.wf_iff.mp h
    exact (State.wf_iff _).mpr ⟨hb, hs, tableWf_map f hv, hw, hl⟩
  erase n t h := by
    obtain ⟨hb, hs, hv, hw, hl⟩ := t.wf_iff.mp h
    exact (State.wf_iff _).mpr ⟨hb, hs, tableWf_erase hv, hw, hl⟩
  bucket i w t hi h := by
    obtain ⟨hb, hs, hv, hw, hl⟩ := t.wf_iff.mp h
    exact (State.wf_iff _).mpr ⟨hb, hs, hv, tableWf_put hw hi, hl⟩
  unbucket i t h := by
    obtain ⟨hb, hs, hv, hw, hl⟩ := t.wf_iff.mp h
    exact (State.wf_iff _).mpr ⟨hb, hs, hv, tableWf_erase hw, hl⟩
  fresh t u hb hs hv hw _ _ := by
    rw [State.wf, hb, hs, hv, hw]
    rfl

/-- Settles O58: the induction over every row, for the canonical form. -/
theorem recordTablesStayWellFormed : Obligations.RecordTablesStayWellFormed :=
  fun _ _ => keep_step records_wf fun _ _ h => h

/-! ### The queue -/

/-- Settles O1. -/
theorem stepTakesTheFrontCommand : Obligations.StepTakesTheFrontCommand := by
  intro c rest s h
  unfold step
  rw [h]

theorem exec_next (c : Instr) (s : State) : ∃ t, exec c s = .next t := by
  cases c <;> exact ⟨_, rfl⟩

theorem step_next (s : State) : goesOn s := by
  unfold goesOn step
  split
  · exact ⟨_, rfl⟩
  · exact exec_next _ _

/-- The operations on the tables leave the queue as it is. -/
theorem records_pending (q : List Instr) : Records (fun s => s.pending = q) where
  same _ _ _ _ _ _ hp h := hp.trans h
  bin _ _ _ _ h := h
  freeBin _ _ h := h
  bins _ _ h := h
  slot _ _ _ h := h
  visit _ _ _ _ h := h
  visits _ _ h := h
  erase _ _ h := h
  bucket _ _ _ _ h := h
  unbucket _ _ h := h
  fresh _ _ _ _ _ _ hp h := hp.trans h

/-- Settles O2: every meaning is a next state, and the induction over every row gives the queue. -/
theorem everyRowGoesOn : Obligations.EveryRowGoesOn := by
  refine ⟨step_next, fun c s => ?_⟩
  obtain ⟨t, ht⟩ := exec_next c s
  exact ⟨t, ht, keep_exec (records_pending s.pending) c rfl ht⟩

end Sys2Proof.Machine

/-! Values that single functions answer: the due day (R55), the home bucket (R48), and the laws of the reset state. -/

namespace Sys2Proof.Machine

/-- Settles O54: both ends of the window are numbers, and the clamp takes the nearer one. -/
theorem dueDayIsClamped : Obligations.DueDayIsClamped := by
  intro today due htoday hdue
  unfold clampDue Config.dueWindow Config.dayLimit
  omega

/-! ### The home bucket -/

theorem extract_low_toNat {w : Nat} (x : BitVec w) (n : Nat) : (x.extractLsb' 0 n).toNat = x.toNat % 2 ^ n := by
  simp

theorem extract_high_toNat {n m : Nat} (x : BitVec (n + m)) : (x.extractLsb' m n).toNat = x.toNat / 2 ^ m := by
  have hlt : x.toNat / 2 ^ m < 2 ^ n := by
    rw [Nat.div_lt_iff_lt_mul (by positivity), ← Nat.pow_add]
    exact x.isLt
  rw [BitVec.extractLsb'_toNat, Nat.shiftRight_eq_div_pow, Nat.mod_eq_of_lt hlt]

/-- Settles O53: XOR of bit vectors is XOR of their numbers, and the halves are quotient and remainder. -/
theorem homeBucketFoldsTheKey : Obligations.HomeBucketFoldsTheKey := by
  intro key
  have hfold : (key.extractLsb' 24 24 ^^^ key.extractLsb' 0 24 : BitVec 24).toNat =
      (key.toNat / 2 ^ 24) ^^^ (key.toNat % 2 ^ 24) := by
    rw [BitVec.toNat_xor, extract_low_toNat, extract_high_toNat (n := 24) (m := 24) key]
  refine ⟨_, hfold, (key.extractLsb' 24 24 ^^^ key.extractLsb' 0 24).isLt, ?fold, homeBucket_lt key⟩
  rw [homeBucket, BitVec.toNat_xor, extract_low_toNat, extract_high_toNat (n := 12) (m := 12)]
  rfl

/-! ### The reset state -/

theorem linkLaw_reset : LinkLaw LinkRec.reset where
  serial := nofun
  command := Nat.zero_le _
  noCommand _ := rfl
  noReply _ := rfl
  reply := nofun
  restart := nofun
  summary i hi := by
    change (0x080000#24).getLsbD i = false
    rcases Nat.lt_or_ge i 24 with h | h
    · interval_cases i <;> rfl
    · exact BitVec.getLsbD_of_ge _ _ h

theorem shutterLaw_reset : shutterLaw State.reset := by
  intro z _
  revert z
  decide

theorem probeLaw_nil : ProbeLaw [] where
  form := rfl
  space := ⟨0, by decide, rfl⟩
  once _ _ _ _ h := nomatch h
  path _ _ h := nomatch h

/-- Settles O57. -/
theorem resetMeetsTheLaws : Obligations.ResetMeetsTheLaws :=
  ⟨rfl, linkLaw_reset, shutterLaw_reset, probeLaw_nil⟩

end Sys2Proof.Machine

/-! The lane arbiter (R83, R84, R121): the aisle that a free place goes to, and what the records of a place are. -/

namespace Sys2Proof.Machine

section
variable (s : State) (z : Station)

theorem freePlaces_pos_iff (r : StationRec) : 0 < freePlaces r ↔ r.lane.length + r.resv0 + r.resv1 < 3 := by
  unfold freePlaces Config.laneLength
  omega

theorem nextGrant_of_full (h : 3 ≤ (station s z).lane.length + (station s z).resv0 + (station s z).resv1) :
    nextGrant s z = none :=
  if_neg (mt (freePlaces_pos_iff _).mp (Nat.not_lt.mpr h))

theorem nextGrant_of_free (h : (station s z).lane.length + (station s z).resv0 + (station s z).resv1 < 3) :
    nextGrant s z = match (station s z).waiting0, (station s z).waiting1 with
      | false, false => none
      | true, false => some (aisle0 z)
      | false, true => some (aisle1 z)
      | true, true => if (station s z).lastGrant = .first then some (aisle1 z) else some (aisle0 z) :=
  if_pos ((freePlaces_pos_iff _).mpr h)

theorem station_setReservations_aisle0 (n : Nat) :
    station (setReservations (aisle0 z) n s) z = { station s z with resv0 := n } := by
  simp [setReservations, zoneOf_aisle0]

theorem station_setReservations_aisle1 (n : Nat) :
    station (setReservations (aisle1 z) n s) z = { station s z with resv1 := n } := by
  simp [setReservations, zoneOf_aisle1]

theorem station_takePlace_aisle0 : station (takePlace (aisle0 z) s) z =
    { station s z with resv0 := (station s z).resv0 + 1, waiting0 := false, lastGrant := .first } := by
  simp [takePlace, setWaiting, setReservations, reservations, lastGrantOf, zoneOf_aisle0]

theorem station_takePlace_aisle1 : station (takePlace (aisle1 z) s) z =
    { station s z with resv1 := (station s z).resv1 + 1, waiting1 := false, lastGrant := .second } := by
  simp [takePlace, setWaiting, setReservations, reservations, lastGrantOf, zoneOf_aisle1]

theorem returnGrant_of_grant {a : Aisle} (h : (aisleRec s a).grant = true) : returnGrant a s =
    setReservations a (reservations s a - 1) (setAisle a { aisleRec s a with grant := false } s) :=
  if_pos h

theorem returnGrant_of_no_grant {a : Aisle} (h : (aisleRec s a).grant = false) : returnGrant a s = s :=
  if_neg (by simp [h])

theorem station_returnGrant_aisle0 : station (returnGrant (aisle0 z) s) z =
    { station s z with resv0 := (station s z).resv0 - if (aisleRec s (aisle0 z)).grant then 1 else 0 } := by
  cases h : (aisleRec s (aisle0 z)).grant with
  | true => simp [returnGrant_of_grant s h, station_setReservations_aisle0, reservations, zoneOf_aisle0]
  | false => simp [returnGrant_of_no_grant s h]

theorem station_returnGrant_aisle1 : station (returnGrant (aisle1 z) s) z =
    { station s z with resv1 := (station s z).resv1 - if (aisleRec s (aisle1 z)).grant then 1 else 0 } := by
  cases h : (aisleRec s (aisle1 z)).grant with
  | true => simp [returnGrant_of_grant s h, station_setReservations_aisle1, reservations, zoneOf_aisle1]
  | false => simp [returnGrant_of_no_grant s h]

theorem aisleRec_returnGrant (a : Aisle) : aisleRec (returnGrant a s) a = { aisleRec s a with grant := false } := by
  cases h : (aisleRec s a).grant with
  | true =>
    rw [returnGrant_of_grant s h]
    exact aisleRec_setAisle ..
  | false =>
    rw [returnGrant_of_no_grant s h, ← h]

theorem modVisit_of_some {n : Nat} {v : VisitRec} {f : VisitRec → VisitRec} (h : visit s n = some v) :
    modVisit n f s = setVisit n (f v) s := by
  rw [modVisit, h]

end

/-- Settles O50. -/
theorem lanePlacesAreGranted : Obligations.LanePlacesAreGranted := by
  rintro s z _ rfl
  refine ⟨nextGrant_of_full s z, ?free, station_takePlace_aisle0 s z, station_takePlace_aisle1 s z, zoneOf_aisle0 z,
    zoneOf_aisle1 z, station_returnGrant_aisle0 s z, station_returnGrant_aisle1 s z, aisleRec_returnGrant s,
    fun n v h => modVisit_of_some s h⟩
  case free =>
    intro hfree
    rw [nextGrant_of_free s z hfree]
    refine ⟨?_, ?_, ?_, ?_⟩ <;> intro h0 h1 <;> rw [h0, h1]
    exact (apply_ite some _ _ _).symm

end Sys2Proof.Machine

/-! The rank of candidate legs (R82): the keys are compared as lists are, and no leg is ranked before the one taken. -/

namespace Sys2Proof.Machine

/-- The comparison of keys is the lexicographic order of lists. -/
theorem keysBefore_iff_lt : ∀ {xs ys : List Nat}, xs.length = ys.length → (keysBefore xs ys = true ↔ xs < ys)
  | [], [], _ => by simp [keysBefore]
  | x :: xs, y :: ys, h => by
    have ih := keysBefore_iff_lt (Nat.succ.inj h)
    rw [keysBefore, List.cons_lt_cons_iff]
    rcases Nat.lt_trichotomy x y with hxy | rfl | hxy
    · simp [hxy]
    · simp [ih]
    · simp [hxy, Nat.not_lt.mpr hxy.le, Nat.ne_of_gt hxy]

section
variable {s : State} {a : Aisle}

theorem keysBefore_rankKeys (c d : Candidate) :
    keysBefore (rankKeys s a d) (rankKeys s a c) = true ↔ rankKeys s a d < rankKeys s a c :=
  keysBefore_iff_lt rfl

/-- The leg ranked first is one of the list, and no leg of the list has smaller keys. -/
theorem firstRanked_spec : ∀ {cs : List Candidate}, cs ≠ [] → ∃ c ∈ cs, firstRanked s a cs = some c ∧
    ∀ d ∈ cs, rankKeys s a c ≤ rankKeys s a d
  | [c], _ => ⟨c, List.mem_singleton_self c, rfl, by simp⟩
  | c :: c' :: cs, _ => by
    obtain ⟨d, hd, hfirst, hleast⟩ := firstRanked_spec (List.cons_ne_nil c' cs)
    rw [firstRanked, hfirst]
    by_cases hlt : rankKeys s a d < rankKeys s a c
    · refine ⟨d, List.mem_cons_of_mem _ hd, if_pos ((keysBefore_rankKeys c d).mpr hlt), fun e he => ?_⟩
      rcases List.mem_cons.mp he with rfl | he
      · exact hlt.le
      · exact hleast e he
    · refine ⟨c, List.mem_cons_self, if_neg (mt (keysBefore_rankKeys c d).mp hlt), fun e he => ?_⟩
      rcases List.mem_cons.mp he with rfl | he
      · exact le_rfl
      · exact (not_lt.mp hlt).trans (hleast e he)

theorem rankKeys_eq {c : Candidate} {r : BinRec} (h : bin s c.entry.bin = some r) : rankKeys s a c =
    [if c.entry.urgent then 0 else 1, if isAged s c.entry then 0 else 1, if isAged s c.entry then c.entry.created else 0,
      3 - c.entry.priority, approachEstimate s (crane s a) r.home, c.number] := by
  rw [rankKeys, h]
  rfl

/-- A leg that R82 ranks before another has smaller keys. -/
theorem rankKeys_lt {approach : Candidate → Nat} {c d : Candidate} {q r : BinRec} (hc : bin s c.entry.bin = some q)
    (hd : bin s d.entry.bin = some r) (hac : approach c = approachEstimate s (crane s a) q.home)
    (had : approach d = approachEstimate s (crane s a) r.home) (hp : d.entry.priority ≤ 3)
    (h : RanksBefore s approach d c) : rankKeys s a d < rankKeys s a c := by
  rw [rankKeys_eq hc, rankKeys_eq hd, ← hac, ← had]
  simp only [List.cons_lt_cons_iff]
  rcases h with ⟨hu, hn⟩ | ⟨hu, hrest⟩
  · simp [hu, hn]
  · rw [hu]
    rcases hrest with ⟨ha, hn⟩ | ⟨ha, ha', hlt⟩ | ⟨ha, he, hrest⟩
    · simp [ha, hn]
    · simp [ha, ha', hlt]
    · have hcreated : (if isAged s c.entry = true then d.entry.created else 0) =
          if isAged s c.entry = true then c.entry.created else 0 := by
        split
        next hx => exact he hx
        next => rfl
      rw [ha, hcreated]
      rcases hrest with hlt | ⟨heq, hlt | ⟨heq', hlt⟩⟩
      · have : 3 - d.entry.priority < 3 - c.entry.priority := by omega
        simp [this]
      · simp [heq, hlt]
      · simp [heq, heq', hlt]

theorem approachEstimate_eq (c : CraneRec) (sl : Slot) (x y : Nat)
    (h : (c.col = some x ∧ c.level = some y) ∨ ((c.col = none ∨ c.level = none) ∧ x = 0 ∧ y = param s 4)) :
    approachEstimate s c sl = wakeTime s c + travelTime s x y (sl.column.val + 1) sl.level.val := by
  rcases h with ⟨hx, hy⟩ | ⟨hnone | hnone, rfl, rfl⟩
  · simp only [approachEstimate, hx, hy]
    rfl
  · simp only [approachEstimate, hnone]
    rfl
  · cases hx : c.col <;> simp only [approachEstimate, hx, hnone] <;> rfl

end

/-- Settles O51. -/
theorem firstRankedIsBest : Obligations.FirstRankedIsBest := by
  refine ⟨fun s v => decide_eq_true_iff, ?estimate, ?ranked⟩
  case estimate =>
    rintro s c sl x y _ _ hpos rfl rfl
    rw [approachEstimate_eq c sl x y hpos, travelTime, wakeTime, Nat.max_def]
    omega
  case ranked =>
    intro s a cs approach hpriority hestimate
    refine ⟨fun h => h ▸ rfl, fun h => ?_⟩
    obtain ⟨c, hc, hfirst, hleast⟩ := firstRanked_spec (s := s) (a := a) h
    refine ⟨c, hc, hfirst, fun d hd hbefore => ?_⟩
    obtain ⟨q, hq, hac⟩ := hestimate c hc
    obtain ⟨r, hr, had⟩ := hestimate d hd
    exact absurd (rankKeys_lt hq hr hac had (hpriority d hd) hbefore) (not_lt.mpr (hleast d hd))

end Sys2Proof.Machine

/-! Tasks on a visit (R22, R24, R34, R36, R37): the priority of a list, the lowest free number, the visit rules and the placing. -/

namespace Sys2Proof.Machine

/-! ### Priority -/

/-- The fold over the PENDING tasks answers the greatest of its start and their priorities. -/
theorem foldl_priority_spec (ts : List TaskRec) : ∀ p : Nat,
    let m := ts.foldl (fun p t => if t.state = .pending then max p t.priority else p) p
    p ≤ m ∧ (∀ k ∈ ts, k.state = .pending → k.priority ≤ m) ∧
      (m = p ∨ ∃ k ∈ ts, k.state = .pending ∧ k.priority = m) := by
  induction ts with
  | nil => simp
  | cons t ts ih =>
    intro p
    rw [List.foldl_cons]
    obtain ⟨hstart, hall, hreached⟩ := ih (if t.state = .pending then max p t.priority else p)
    by_cases ht : t.state = .pending
    · rw [if_pos ht] at hstart hall hreached ⊢
      refine ⟨(le_max_left _ _).trans hstart, ?_, ?_⟩
      · rintro k hk hpending
        rcases List.mem_cons.mp hk with rfl | hk
        · exact (le_max_right _ _).trans hstart
        · exact hall k hk hpending
      · rcases hreached with he | ⟨k, hk, hkp, he⟩
        · rcases max_choice p t.priority with hm | hm
          · exact .inl (he.trans hm)
          · exact .inr ⟨t, List.mem_cons_self, ht, (he.trans hm).symm⟩
        · exact .inr ⟨k, List.mem_cons_of_mem _ hk, hkp, he⟩
    · rw [if_neg ht] at hstart hall hreached ⊢
      refine ⟨hstart, ?_, ?_⟩
      · rintro k hk hpending
        rcases List.mem_cons.mp hk with rfl | hk
        · exact absurd hpending ht
        · exact hall k hk hpending
      · exact hreached.imp_right fun ⟨k, hk, h⟩ => ⟨k, List.mem_cons_of_mem _ hk, h⟩

theorem pendingUrgent_iff (ts : List TaskRec) :
    pendingUrgent ts = true ↔ ∃ k ∈ ts, k.state = .pending ∧ k.kind = .fetch ∧ k.urgent = true := by
  simp [pendingUrgent, and_assoc]

/-- Settles O19. -/
theorem priorityIsTheHighestPending : Obligations.PriorityIsTheHighestPending := by
  intro v ts
  obtain ⟨-, hall, hreached⟩ := foldl_priority_spec ts 0
  exact ⟨hall, hreached, pendingUrgent_iff ts, rfl, rfl⟩

/-! ### The lowest free number -/

theorem tableFree_eq_some_iff {α : Type} {t : Table α} : ∀ {fuel i n : Nat}, tableFree t fuel i = some n ↔
    i ≤ n ∧ n < i + fuel ∧ tableGet t n = none ∧ ∀ m, i ≤ m → m < n → (tableGet t m).isSome = true
  | 0, i, n => by simp [tableFree]; omega
  | fuel + 1, i, n => by
    rw [tableFree]
    split
    next hfree =>
      rw [Option.isNone_iff_eq_none] at hfree
      constructor
      · rintro ⟨⟩
        exact ⟨le_rfl, by omega, hfree, fun m _ _ => by omega⟩
      · rintro ⟨hin, -, -, hlow⟩
        rcases Nat.eq_or_lt_of_le hin with rfl | hlt
        · rfl
        · simpa [hfree] using hlow i le_rfl hlt
    next hused =>
      rw [tableFree_eq_some_iff]
      have hi : (tableGet t i).isSome = true := by
        simpa [Option.isSome_iff_ne_none] using hused
      constructor
      · rintro ⟨hin, hn, hfree, hlow⟩
        refine ⟨by omega, by omega, hfree, fun m him hmn => ?_⟩
        rcases Nat.eq_or_lt_of_le him with rfl | hlt
        · exact hi
        · exact hlow m hlt hmn
      · rintro ⟨hin, hn, hfree, hlow⟩
        have hne : i ≠ n := by
          rintro rfl
          simp [hfree] at hi
        exact ⟨by omega, by omega, hfree, fun m hm => hlow m (by omega)⟩

theorem freeVisit_eq_some_iff {s : State} {n : Nat} : freeVisit s = some n ↔
    n < 64 ∧ visit s n = none ∧ ∀ m : Nat, m < n → (visit s m).isSome = true := by
  rw [freeVisit, tableFree_eq_some_iff]
  simp [visit, Config.visitCount]

/-! ### The visit rules -/

theorem visitRule_of_no_visit {s : State} {r : BinRec} (h : r.openVisit = none) :
    visitRule s r = if (freeVisit s).isNone then some .tableFull else none := by
  rw [visitRule, h]
  rfl

theorem visitRule_of_visit {s : State} {r : BinRec} {n : Nat} {v : VisitRec} (h : r.openVisit = some n)
    (hv : visit s n = some v) : visitRule s r =
    if v.kind = .relocation then some .binBusy
    else if v.state = .withdrawing ∨ v.state = .atOutbound ∨ v.state = .inbound then some .binBusy
    else if v.tasks.length ≥ Config.taskLimit then some .tasksFull
    else none := by
  rw [visitRule, h, Option.bind_some, hv]

/-! ### The placing -/

theorem placeTaskAt_join {taken b n : Nat} {r : BinRec} {k : TaskRec} {s : State} {v : VisitRec}
    (hr : r.openVisit = some n) (hv : visit s n = some v) : placeTaskAt taken b r k s =
      ⟨if v.state = .atFace then
          showTask (zoneOf r.home.aisle) v.tasks.length k (setVisit n (v.withTasks (v.tasks ++ [k])) s)
        else setVisit n (v.withTasks (v.tasks ++ [k])) s, n, v.tasks.length⟩ := by
  simp only [placeTaskAt, hr, hv]

theorem withTasks_singleton (v : VisitRec) {k : TaskRec} (h : k.state = .pending) : v.withTasks [k] =
    { v with tasks := [k], priority := k.priority, urgent := decide (k.kind = .fetch) && k.urgent } := by
  simp [VisitRec.withTasks, pendingPriority, pendingUrgent, h, beq_eq_decide]

/-- Settles O18. -/
theorem tasksArePlaced : Obligations.TasksArePlaced := by
  refine ⟨fun s r => ⟨fun n => freeVisit_eq_some_iff, ?none, ?some⟩, fun s b r k hb hk => ⟨?new, ?join⟩⟩
  case none =>
    intro h
    rw [visitRule_of_no_visit h]
    exact ⟨fun ⟨n, hn⟩ => by rw [hn]; rfl, fun hn => by rw [hn]; rfl⟩
  case some =>
    intro n v h hv
    rw [visitRule_of_visit h hv]
    refine ⟨?_, fun hkind hw ho hi => ?_⟩
    · rintro (hkind | hstate)
      · rw [if_pos hkind]
      · rw [if_pos hstate, ite_self]
    · rw [if_neg hkind, if_neg (by simp [hw, ho, hi])]
      exact ⟨fun hfull => if_pos hfull, fun hroom => if_neg (Nat.not_le.mpr hroom)⟩
  case new =>
    intro n hr hn
    rw [placeTask, placeTaskAt_new hb hr hn, withTasks_singleton _ hk]
    exact ⟨rfl, rfl, rfl⟩
  case join =>
    intro n v hr hv
    rw [placeTask, placeTaskAt_join hr hv]
    exact ⟨rfl, rfl, rfl⟩

end Sys2Proof.Machine

/-! The commands of work (R37, R54 to R56, R64, R65, R68 to R70): checks that pass, what the command buffer does not change, and
Lend, Return and Refile. -/

namespace Sys2Proof.Machine

section
variable {s t u : State} {z : Station} {a : Aisle} {code : OutcomeCode} {rest : Result}

/-! ### Checks that pass -/

theorem refuseIf_passes {x : Bool} {c : OutcomeCode} (h : x = false) : refuseIf x c rest = rest := by
  rw [refuseIf, h, if_neg Bool.false_ne_true]

theorem withSome_passes {α : Type} {o : Option α} {c : OutcomeCode} {f : α → Result} {x : α} (h : o = some x) :
    withSome o c f = f x := by
  rw [h, withSome]

theorem zoneAndAisle_passes (hz : zoneClosed s (zoneOf a) = false) (ha : service s a = .inService) :
    zoneAndAisle s a rest = rest := by
  rw [zoneAndAisle, refuseIf_passes hz, refuseIf_passes (by simp [aisleOut, ha])]

theorem visitRules_passes {r : BinRec} (h : visitRule s r = none) : visitRules s r rest = rest := by
  rw [visitRules, h]

theorem badKey_iff (key : ItemKey) : badKey key = true ↔ key = 0 := beq_iff_eq
theorem badBin_iff (b : Nat) : badBin b = true ↔ 16384 ≤ b := decide_eq_true_iff
theorem badPriority_iff (n : Nat) : badPriority n = true ↔ 3 < n := decide_eq_true_iff
theorem badKey_eq_false {key : ItemKey} : badKey key = false ↔ key ≠ 0 := beq_eq_false_iff_ne
theorem badBin_eq_false {b : Nat} : badBin b = false ↔ b < 16384 := by
  rw [badBin, decide_eq_false_iff_not, Nat.not_le]; rfl
theorem badPriority_eq_false {n : Nat} : badPriority n = false ↔ n ≤ 3 := by
  rw [badPriority, decide_eq_false_iff_not, Nat.not_lt]

/-! ### The command buffer -/

/-- A command whose effect is an event of a zone is answered with what the event makes possible without its message. -/
theorem takeCommand_settles {c : Byte} {len : Nat} {m : Modes} {run : List Byte → State → Result} {p data : List Byte}
    (hs : linkIdle s) (hp : p.length = len) (hl : len ≤ 30) (hm : ∀ r, modeCheck m s r = r)
    (h : ∀ x, run p (loadCommand x s) = .reply code data (settleZone (loadCommand x s) z (loadCommand x u))) :
    takeCommand c len m run (commandBody p) s = writeReply code data (settleZone s z u) := by
  rw [takeCommand_replies hs hp hl hm (h _), writeReply_settleZone]

theorem openVisit_load (m : List Byte) (n : Nat) (v : VisitRec) : Commutes m (openVisit n v) :=
  fun s => commutes_modBin v.bin _ (setVisit n v s)

theorem holdLend_load (m : List Byte) (b : Nat) : Commutes m (holdLend b) :=
  fun s => commutes_modBin b _ { s with pendingLends := s.pendingLends + 1 }

/-- A placed task with a message in the command buffer. -/
def Placed.load (m : List Byte) (q : Placed) : Placed := { q with state := loadCommand m q.state }

/-- The placing of a task does not look at the command buffer. -/
theorem placeTaskAt_load (m : List Byte) (taken b : Nat) (r : BinRec) (k : TaskRec) (s : State) :
    placeTaskAt taken b r k (loadCommand m s) = (placeTaskAt taken b r k s).load m := by
  unfold placeTaskAt
  cases r.openVisit with
  | none => exact congrArg (fun t => (⟨t, _, _⟩ : Placed)) (openVisit_load m _ _ s)
  | some n =>
    have hv : visit (loadCommand m s) n = visit s n := rfl
    simp only [hv]
    cases visit s n with
    | none => rfl
    | some v =>
      by_cases hface : v.state = .atFace
      · simp only [if_pos hface]
        rfl
      · simp only [if_neg hface]
        rfl

theorem placeTask_load (m : List Byte) (b : Nat) (r : BinRec) (k : TaskRec) (s : State) :
    placeTask b r k (loadCommand m s) = (placeTask b r k s).load m :=
  placeTaskAt_load m _ b r k s

end

/-! ### Keys in use -/

theorem findPending_isSome_iff (key : ItemKey) : ∀ (i : Nat) (ts : List TaskRec),
    (findPending key i ts).isSome = true ↔ ∃ k ∈ ts, k.state = .pending ∧ k.key = some key
  | _, [] => by simp [findPending]
  | i, t :: ts => by
    rw [findPending]
    by_cases h : t.state = .pending ∧ t.key = some key
    · simp [h]
    · rw [if_neg h, findPending_isSome_iff key (i + 1) ts]
      simp [h]

theorem findPendingTask_isSome_iff (key : ItemKey) : ∀ t : Table VisitRec,
    (findPendingTask key t).isSome = true ↔
      ∃ e ∈ t, e.2.outcome = none ∧ ∃ k ∈ e.2.tasks, k.state = .pending ∧ k.key = some key
  | [] => by simp [findPendingTask]
  | (n, v) :: rest => by
    have ih := findPendingTask_isSome_iff key rest
    have hv := findPending_isSome_iff key 0 v.tasks
    rw [findPendingTask]
    by_cases ho : v.outcome = none
    · simp only [isOpen, ho, Option.isNone_none, if_true]
      cases hf : findPending key 0 v.tasks with
      | none =>
        simp only [hf, Option.isSome_none, Bool.false_eq_true, false_iff] at hv
        simp only [ih, List.exists_mem_cons_iff, hv, and_false, false_or]
      | some x =>
        simp only [hf, Option.isSome_some, true_iff] at hv
        simp only [Option.isSome_some, true_iff]
        exact ⟨(n, v), List.mem_cons_self, ho, hv⟩
    · have hopen : isOpen v = false := by simpa [isOpen, Option.isSome_iff_ne_none] using ho
      simp only [hopen, Bool.false_eq_true, if_false, ih, List.exists_mem_cons_iff, ho, false_and, false_or]

theorem keyTaken_iff (s : State) (key : ItemKey) : keyTaken s key = true ↔ (lookup s.withdrawals key).found = true ∨
    ∃ e ∈ s.visits, e.2.outcome = none ∧ ∃ k ∈ e.2.tasks, k.state = .pending ∧ k.key = some key := by
  rw [keyTaken, Bool.or_eq_true, findPendingTask_isSome_iff]

/-! ### Lend -/

section
variable {p : List Byte} {s : State} {r : BinRec} {code : OutcomeCode}

/-- The checks of Lend from the size of its fields on, for a bin in use. -/
def lendChecks (p : List Byte) (s : State) (r : BinRec) : List (Prop × OutcomeCode) :=
  (r.quarantined = true, .quarantined) :: (placeChecks s r.home.aisle ++
    (keyTaken s (keyAt p 0) = true, .alreadyOut) :: (param s 38 ≤ s.recordCount + s.pendingLends, .tableFull) ::
      (r.fill ≤ r.lendHolds, .binEmpty) :: visitChecks s r)

def badLend (p : List Byte) : Prop := keyAt p 0 = 0 ∨ 16384 ≤ wordAt p 6 ∨ 3 < byteAt p 8

theorem badLend_iff (p : List Byte) :
    (badKey (keyAt p 0) || badBin (wordAt p 6) || badPriority (byteAt p 8)) = true ↔ badLend p := by
  simp [badLend, badKey_iff, badBin_iff, badPriority_iff, or_assoc]

theorem not_badLend {p : List Byte} (hkey : keyAt p 0 ≠ 0) (hbin : wordAt p 6 < 16384) (hprio : byteAt p 8 ≤ 3) :
    ¬ badLend p := by
  rintro (h | h | h)
  · exact hkey h
  · omega
  · omega

theorem runLend_badValue (h : badLend p) : runLend p s = .refuse .badValue [] :=
  refuseIf_first (l := []) (badLend_iff p) False.elim (.inl ⟨h, rfl⟩)

theorem runLend_noSuchBin (h : ¬ badLend p) (hb : bin s (wordAt p 6) = none) : runLend p s = .refuse .noSuchBin [] :=
  (refuseIf_passes (by simpa using mt (badLend_iff p).mp h)).trans (by rw [hb]; rfl)

theorem runLend_refuses (h : ¬ badLend p) (hb : bin s (wordAt p 6) = some r) (hc : FirstFailing (lendChecks p s r) code) :
    runLend p s = .refuse code [] := by
  refine (refuseIf_passes (by simpa using mt (badLend_iff p).mp h)).trans ((withSome_passes hb).trans ?_)
  refine refuseIf_first Iff.rfl (zoneAndAisle_first ?_) hc
  refine refuseIf_first Iff.rfl (refuseIf_first decide_eq_true_iff (refuseIf_first ?_ visitRules_first))
  rw [decide_eq_true_iff]
  omega

theorem runLend_places (h : ¬ badLend p) (hb : bin s (wordAt p 6) = some r) (hq : r.quarantined = false)
    (hz : zoneClosed s (zoneOf r.home.aisle) = false) (ha : service s r.home.aisle = .inService)
    (hk : keyTaken s (keyAt p 0) = false) (ho : s.recordCount + s.pendingLends < param s 38) (hf : r.lendHolds < r.fill)
    (hv : visitRule s r = none) {day : Nat} (hd : day = clampDue s.day (wordAt p 9)) {q : Placed}
    (hplaced : q = placeTask (wordAt p 6) r (newTask .lend (some (keyAt p 0)) (byteAt p 8) false (some day)) s) :
    runLend p s = .reply (if day = wordAt p 9 then .done else .doneClamped) (q.bytes ++ bytes 2 day)
      (settleZone s (zoneOf r.home.aisle) (holdLend (wordAt p 6) q.state)) := by
  subst hd hplaced
  refine (refuseIf_passes (by simpa using mt (badLend_iff p).mp h)).trans ((withSome_passes hb).trans ?_)
  refine (refuseIf_passes hq).trans ((zoneAndAisle_passes hz ha).trans ((refuseIf_passes hk).trans ?_))
  refine (refuseIf_passes (decide_eq_false (Nat.not_le.mpr ho))).trans ?_
  exact (refuseIf_passes (decide_eq_false (by omega))).trans (visitRules_passes hv)

end

theorem exec_lend_refuses {p : List Byte} {s : State} {code : OutcomeCode} (hs : linkIdle s) (hm : s.mode = .service)
    (hp : p.length = 11) (h : ∀ x, runLend p (loadCommand x s) = .refuse code []) :
    exec (.lend (commandBody p)) s = .next (writeReply code [] s) :=
  congrArg _ (takeCommand_refuses hs hp (by decide) (modeCheck_service hm) (h _))

/-- Settles O21: each nest of hypotheses makes one check the first that fails. -/
theorem lendIsRefusedInOrder : Obligations.LendIsRefusedInOrder := by
  refine ⟨keyTaken_iff, ?_⟩
  intro p s hs hm hp refused
  have refuses {code : OutcomeCode} (h : ∀ x, runLend p (loadCommand x s) = .refuse code []) : refused code :=
    exec_lend_refuses hs hm hp h
  refine ⟨fun h => refuses fun _ => runLend_badValue h, fun hkey hbin hprio => ?_⟩
  have hgood : ¬ badLend p := not_badLend hkey hbin hprio
  refine ⟨fun hb => refuses fun _ => runLend_noSuchBin hgood hb, fun r hb => ?_⟩
  have first {code : OutcomeCode} (h : FirstFailing (lendChecks p s r) code) : refused code :=
    refuses fun _ => runLend_refuses hgood hb h
  simp only [lendChecks, placeChecks, visitChecks, List.cons_append, List.nil_append, FirstFailing] at first
  refine ⟨fun hq => first (by simp [hq]), fun hq => ⟨fun hz => first (by simp [hq, hz]), fun hz => ?_⟩⟩
  refine ⟨fun ha => first (by simp [hq, hz, ha]), fun ha => ⟨fun hk => first (by simp [hq, hz, ha, hk]), fun hk => ?_⟩⟩
  refine ⟨fun ho => first (by simp [hq, hz, ha, hk, ho]), fun ho => ?_⟩
  refine ⟨fun hf => first (by simp [hq, hz, ha, hk, Nat.not_le.mpr ho, hf]), fun hf => ?_⟩
  refine ⟨fun hv => first ?_, fun hv => first ?_, fun hv => first ?_⟩ <;>
    simp [hq, hz, ha, hk, Nat.not_le.mpr ho, Nat.not_le.mpr hf, hv]

/-- Settles O20. -/
theorem lendIsPlaced : Obligations.LendIsPlaced := by
  intro p s r day q hs hm hp hkey hbin hprio hb hq hz ha hk ho hf hv hd hplaced
  refine ⟨_, settles_settleZone _ _ _, congrArg _ (takeCommand_settles hs hp (by decide) (modeCheck_service hm) fun x => ?_)⟩
  have hgood : ¬ badLend p := not_badLend hkey hbin hprio
  have hrun := runLend_places (s := loadCommand x s) hgood hb hq hz ha hk ho hf hv hd rfl
  rw [placeTask_load] at hrun
  subst hplaced
  exact hrun.trans (congrArg (fun u => Result.reply _ _ (settleZone _ _ u)) (holdLend_load x _ _))

end Sys2Proof.Machine

/-! Return and Refile (R64, R65, R68 to R70): their checks in order, the task placed, and the start of the placement search. -/

namespace Sys2Proof.Machine

/-! ### The Withdrawal Table under a placed task -/

@[simp] theorem showTask_withdrawals (z : Station) (i : Nat) (t : TaskRec) (s : State) :
    (showTask z i t s).withdrawals = s.withdrawals := rfl

theorem placeTaskAt_withdrawals (taken b : Nat) (r : BinRec) (k : TaskRec) (s : State) :
    (placeTaskAt taken b r k s).state.withdrawals = s.withdrawals := by
  unfold placeTaskAt
  cases r.openVisit with
  | none => exact modBin_withdrawals ..
  | some n =>
    cases hv : visit s n with
    | none => simp only [hv]
    | some v =>
      simp only [hv]
      split <;> rfl

/-- The record of a key stands in the bucket where its lookup stops. -/
theorem withdrawal_eq_some_iff {s : State} {key : ItemKey} {w : WithdrawalRec} : withdrawal s key = some w ↔
    (lookup s.withdrawals key).found = true ∧ tableGet s.withdrawals (lookup s.withdrawals key).bucket = some w :=
  Option.ite_none_right_eq_some

theorem setRecordState_of_some {s : State} {key : ItemKey} {w : WithdrawalRec} (h : withdrawal s key = some w)
    (st : WithdrawalState) (v : Option Nat) : setRecordState key st v s = { s with
      withdrawals := tablePut s.withdrawals (lookup s.withdrawals key).bucket { w with state := st, returnVisit := v } } := by
  obtain ⟨hfound, hget⟩ := withdrawal_eq_some_iff.mp h
  simp only [setRecordState, hfound, if_true, hget]

theorem setRecordState_load (m : List Byte) (key : ItemKey) (st : WithdrawalState) (v : Option Nat) :
    Commutes m (setRecordState key st v) := by
  intro s
  unfold setRecordState
  cases hfound : (lookup s.withdrawals key).found with
  | false => simp [loadCommand, hfound]
  | true =>
    cases hget : tableGet s.withdrawals (lookup s.withdrawals key).bucket <;> simp [loadCommand, hfound, hget]

/-! ### Return -/

section
variable {p : List Byte} {s : State} {w : WithdrawalRec} {r : BinRec} {code : OutcomeCode}

theorem badReturn_iff (p : List Byte) :
    (badKey (keyAt p 0) || badPriority (byteAt p 6)) = true ↔ keyAt p 0 = 0 ∨ 3 < byteAt p 6 := by
  simp [badKey_iff, badPriority_iff]

theorem goodReturn (hkey : keyAt p 0 ≠ 0) (hprio : byteAt p 6 ≤ 3) :
    (badKey (keyAt p 0) || badPriority (byteAt p 6)) = false := by
  simp [badKey_eq_false.mpr hkey, badPriority_eq_false.mpr hprio]

theorem runReturn_badValue (h : keyAt p 0 = 0 ∨ 3 < byteAt p 6) : runReturn p s = .refuse .badValue [] :=
  refuseIf_first (l := []) (badReturn_iff p) False.elim (.inl ⟨h, rfl⟩)

variable (hkey : keyAt p 0 ≠ 0) (hprio : byteAt p 6 ≤ 3)
include hkey hprio

theorem runReturn_notOut (hw : withdrawal s (keyAt p 0) = none) : runReturn p s = .refuse .notOut [] :=
  (refuseIf_passes (goodReturn hkey hprio)).trans (by rw [hw]; rfl)

variable (hw : withdrawal s (keyAt p 0) = some w)
include hw

theorem runReturn_alreadyReturning (hst : w.state = .returning) : runReturn p s = .refuse .alreadyReturning [] :=
  (refuseIf_passes (goodReturn hkey hprio)).trans ((withSome_passes hw).trans (if_pos (beq_iff_eq.mpr hst)))

variable (hst : w.state = .out) (hb : bin s w.homeBin = some r)
include hst hb

theorem runReturn_refuses (hc : FirstFailing (placeChecks s r.home.aisle ++ visitChecks s r) code) :
    runReturn p s = .refuse code [] := by
  refine (refuseIf_passes (goodReturn hkey hprio)).trans ((withSome_passes hw).trans ?_)
  refine (refuseIf_passes (by rw [hst]; rfl)).trans ((withSome_passes hb).trans ?_)
  exact zoneAndAisle_first visitRules_first hc

theorem runReturn_places (hz : zoneClosed s (zoneOf r.home.aisle) = false) (ha : service s r.home.aisle = .inService)
    (hv : visitRule s r = none) {q : Placed}
    (hq : q = placeTask w.homeBin r (newTask .return (some (keyAt p 0)) (byteAt p 6) false none) s) :
    runReturn p s = .reply .done (bytes 2 w.homeBin ++ q.bytes)
      (settleZone s (zoneOf r.home.aisle) (setRecordState (keyAt p 0) .returning (some q.visit) q.state)) := by
  subst hq
  refine (refuseIf_passes (goodReturn hkey hprio)).trans ((withSome_passes hw).trans ?_)
  refine (refuseIf_passes (by rw [hst]; rfl)).trans ((withSome_passes hb).trans ?_)
  exact (zoneAndAisle_passes hz ha).trans (visitRules_passes hv)

end

/-- Settles O22. -/
theorem returnIsPlaced : Obligations.ReturnIsPlaced := by
  intro p s hs hm hp refused
  have refuses {code : OutcomeCode} (h : ∀ x, runReturn p (loadCommand x s) = .refuse code []) : refused code :=
    congrArg _ (takeCommand_refuses hs hp (by decide) (modeCheck_service hm) (h _))
  refine ⟨fun h => refuses fun _ => runReturn_badValue h,
    fun hkey hprio hw => refuses fun _ => runReturn_notOut hkey hprio hw, fun w hkey hprio hw => ?_⟩
  refine ⟨fun hst => refuses fun _ => runReturn_alreadyReturning hkey hprio hw hst, fun r hst hb => ?_⟩
  refine ⟨fun code hc => refuses fun _ => runReturn_refuses hkey hprio hw hst hb hc, fun q hz ha hv hq => ?_⟩
  have hplaced : withdrawal q.state (keyAt p 0) = some w := by
    rw [withdrawal, hq, placeTask, placeTaskAt_withdrawals]
    exact hw
  have hrecord := setRecordState_of_some hplaced .returning (some q.visit)
  rw [show lookup q.state.withdrawals (keyAt p 0) = lookup s.withdrawals (keyAt p 0) by
    rw [hq, placeTask, placeTaskAt_withdrawals]] at hrecord
  rw [← hrecord]
  refine ⟨_, settles_settleZone _ _ _, congrArg _ (takeCommand_settles hs hp (by decide) (modeCheck_service hm) fun x => ?_)⟩
  have hrun := runReturn_places (s := loadCommand x s) hkey hprio hw hst hb hz ha hv rfl
  rw [placeTask_load] at hrun
  subst hq
  exact hrun.trans (congrArg (fun u => Result.reply _ _ (settleZone _ _ u)) (setRecordState_load x _ _ _ _))

/-! ### Refile to a named bin -/

section
variable {p : List Byte} {s : State} {r : BinRec} {code : OutcomeCode} {key : ItemKey} {b priority : Nat}

theorem badRefile_iff : (badKey key || badBin b || badPriority priority) = true ↔ key = 0 ∨ 16384 ≤ b ∨ 3 < priority := by
  simp [badKey_iff, badBin_iff, badPriority_iff, or_assoc]

theorem room_lt_one_iff (r : BinRec) : decide (room r < 1) = true ↔ r.capacity ≤ r.fill + r.withdrawn + r.refileHolds := by
  rw [decide_eq_true_iff, room]
  omega

theorem runRefile_named (h : wordAt p 6 ≠ 0xFFFF) :
    runRefile p s = runRefileNamed (keyAt p 0) (wordAt p 6) (byteAt p 10) s :=
  if_neg h

theorem runRefileNamed_badValue (h : key = 0 ∨ 16384 ≤ b ∨ 3 < priority) :
    runRefileNamed key b priority s = .refuse .badValue [] :=
  refuseIf_first (l := []) badRefile_iff False.elim (.inl ⟨h, rfl⟩)

variable (hkey : key ≠ 0) (hbin : b < 16384) (hprio : priority ≤ 3)
include hkey hbin hprio

theorem goodRefile : (badKey key || badBin b || badPriority priority) = false := by
  simp [badKey_eq_false.mpr hkey, badBin_eq_false.mpr hbin, badPriority_eq_false.mpr hprio]

theorem runRefileNamed_noSuchBin (hb : bin s b = none) : runRefileNamed key b priority s = .refuse .noSuchBin [] :=
  (refuseIf_passes (goodRefile hkey hbin hprio)).trans (by rw [hb]; rfl)

variable (hb : bin s b = some r)
include hb

theorem runRefileNamed_refuses (hc : FirstFailing ((r.quarantined = true, .quarantined) :: placeChecks s r.home.aisle ++
    [(keyTaken s key = true, .alreadyOut), (r.capacity ≤ r.fill + r.withdrawn + r.refileHolds, .noRoom)] ++
    visitChecks s r) code) : runRefileNamed key b priority s = .refuse code [] := by
  refine (refuseIf_passes (goodRefile hkey hbin hprio)).trans ((withSome_passes hb).trans ?_)
  refine refuseIf_first Iff.rfl (zoneAndAisle_first ?_) hc
  exact refuseIf_first Iff.rfl (refuseIf_first (room_lt_one_iff r) visitRules_first)

theorem runRefileNamed_places (hq : r.quarantined = false) (hz : zoneClosed s (zoneOf r.home.aisle) = false)
    (ha : service s r.home.aisle = .inService) (hk : keyTaken s key = false)
    (hroom : r.fill + r.withdrawn + r.refileHolds < r.capacity) (hv : visitRule s r = none) :
    runRefileNamed key b priority s = .reply .done (bytes 2 b ++ (placeRefile s.time.ms b r key priority s).bytes)
      (settleZone s (zoneOf r.home.aisle) (placeRefile s.time.ms b r key priority s).state) := by
  refine (refuseIf_passes (goodRefile hkey hbin hprio)).trans ((withSome_passes hb).trans ?_)
  refine (refuseIf_passes hq).trans ((zoneAndAisle_passes hz ha).trans ((refuseIf_passes hk).trans ?_))
  exact (refuseIf_passes (by simpa using mt (room_lt_one_iff r).mp (Nat.not_le.mpr hroom))).trans (visitRules_passes hv)

end

theorem placeRefile_load (m : List Byte) (taken b : Nat) (r : BinRec) (key : ItemKey) (priority : Nat) (s : State) :
    placeRefile taken b r key priority (loadCommand m s) = (placeRefile taken b r key priority s).load m := by
  unfold placeRefile
  rw [placeTaskAt_load]
  exact congrArg (fun t => (⟨t, _, _⟩ : Placed)) (commutes_modBin _ _ _)

/-- Settles O23. -/
theorem refileToANamedBin : Obligations.RefileToANamedBin := by
  intro p s hs hm hp hnamed refused
  have refuses {code : OutcomeCode}
      (h : ∀ x, runRefileNamed (keyAt p 0) (wordAt p 6) (byteAt p 10) (loadCommand x s) = .refuse code []) : refused code :=
    congrArg _ (takeCommand_refuses hs hp (by decide) (modeCheck_service hm) ((runRefile_named hnamed).trans (h _)))
  refine ⟨fun h => refuses fun _ => runRefileNamed_badValue h,
    fun hkey hbin hprio hb => refuses fun _ => runRefileNamed_noSuchBin hkey hbin hprio hb, fun r hkey hbin hprio hb => ?_⟩
  refine ⟨fun code hc => refuses fun _ => runRefileNamed_refuses hkey hbin hprio hb hc, ?_⟩
  rintro _ hq hz ha hk hroom hv rfl
  refine ⟨_, settles_settleZone _ _ _, congrArg _ (takeCommand_settles hs hp (by decide) (modeCheck_service hm) fun x => ?_)⟩
  have hrun := runRefileNamed_places (s := loadCommand x s) hkey hbin hprio hb hq hz ha hk hroom hv
  rw [placeRefile_load] at hrun
  exact (runRefile_named hnamed).trans hrun

/-! ### Refile with ANY -/

section
variable {p : List Byte} {s : State} {z : Station} {code : OutcomeCode} {key : ItemKey} {cls st priority : Nat}

/-- A command that takes time keeps CMD_BUSY and its message (R167). -/
theorem takeCommand_waits {c : Byte} {len : Nat} {m : Modes} {run : List Byte → State → Result} {t : State}
    (hs : linkIdle s) (hp : p.length = len) (hl : len ≤ 30) (hm : ∀ r, modeCheck m s r = r)
    (h : run p (loadCommand (c :: commandBody p) s) = .wait t) : takeCommand c len m run (commandBody p) s = t := by
  rw [takeCommand_idle hs hp hl, h, show modeCheck m (loadCommand (c :: commandBody p) s) (.wait t) =
    modeCheck m s (.wait t) from rfl, hm]
  rfl

/-- A message of at most 32 bytes stands whole in the command buffer. -/
theorem loadCommand_short {m : List Byte} (h : m.length ≤ 32) (s : State) :
    loadCommand m s = { s with link := { s.link with command := m, cmdBusy := true } } := by
  have htake : m.take Config.messageLimit = m := List.take_of_length_le h
  rw [loadCommand, htake]

theorem runRefile_any (h : wordAt p 6 = 0xFFFF) :
    runRefile p s = runRefileAny (keyAt p 0) (byteAt p 8) (byteAt p 9) (byteAt p 10) s :=
  if_pos h

/-- The station that Refile ANY examines, with its other fields in range. -/
def refileStation (s : State) (key : ItemKey) (cls st priority : Nat) : Option Station :=
  (stationOf st).filter (fun z => stationPresent s z && !badKey key && !decide (3 < cls) && !badPriority priority)

theorem refileStation_eq_none (h : key = 0 ∨ 3 < cls ∨ (∀ z, stationOf st = some z → stationPresent s z = false) ∨ 3 < priority) :
    refileStation s key cls st priority = none := by
  rw [refileStation, Option.filter_eq_none_iff]
  intro z hz
  rcases h with rfl | h | h | h
  · simp [badKey]
  · simp [h]
  · simp [h z hz]
  · simp [badPriority, h]

theorem refileStation_eq_some (hkey : key ≠ 0) (hcls : cls ≤ 3) (hst : stationOf st = some z)
    (hpresent : stationPresent s z = true) (hprio : priority ≤ 3) : refileStation s key cls st priority = some z := by
  rw [refileStation, hst, Option.filter_some]
  simp [hpresent, badKey_eq_false.mpr hkey, hcls, badPriority_eq_false.mpr hprio]

theorem runRefileAny_badValue (h : refileStation s key cls st priority = none) :
    runRefileAny key cls st priority s = .refuse .badValue [] :=
  withSome_first (l := []) (fails := True) (iff_true_intro h) (fun _ _ => False.elim) (.inl ⟨trivial, rfl⟩)

theorem bothAislesOut_iff (s : State) (z : Station) : (aisleOut s (aisle0 z) && aisleOut s (aisle1 z)) = true ↔
    service s (aisle0 z) ≠ .inService ∧ service s (aisle1 z) ≠ .inService := by
  simp [aisleOut]

variable (hz : refileStation s key cls st priority = some z)
include hz

theorem runRefileAny_refuses (hc : FirstFailing [(zoneClosed s z = true, .zoneClosed),
    (service s (aisle0 z) ≠ .inService ∧ service s (aisle1 z) ≠ .inService, .aisleOut),
    (keyTaken s key = true, .alreadyOut)] code) : runRefileAny key cls st priority s = .refuse code [] := by
  refine (withSome_passes hz).trans (refuseIf_first Iff.rfl (refuseIf_first (bothAislesOut_iff s z) ?_) hc)
  exact refuseIf_first Iff.rfl False.elim

theorem runRefileAny_waits (hc : zoneClosed s z = false)
    (ha : service s (aisle0 z) = .inService ∨ service s (aisle1 z) = .inService) (hk : keyTaken s key = false) :
    runRefileAny key cls st priority s =
      .wait { s with chanP := searchChannel 0, search := ⟨key, cls, z, priority, s.time.ms, none⟩ } := by
  have hin : (aisleOut s (aisle0 z) && aisleOut s (aisle1 z)) = false := by
    rw [← Bool.not_eq_true, bothAislesOut_iff]
    rcases ha with h | h <;> simp [h]
  exact (withSome_passes hz).trans ((refuseIf_passes hc).trans ((refuseIf_passes hin).trans (refuseIf_passes hk)))

end

/-- Settles O24. -/
theorem refileAnyStartsTheSearch : Obligations.RefileAnyStartsTheSearch := by
  intro p s hs hm hp hany refused
  have refuses {code : OutcomeCode} (h : ∀ x, runRefileAny (keyAt p 0) (byteAt p 8) (byteAt p 9) (byteAt p 10)
      (loadCommand x s) = .refuse code []) : refused code :=
    congrArg _ (takeCommand_refuses hs hp (by decide) (modeCheck_service hm) ((runRefile_any hany).trans (h _)))
  refine ⟨fun h => refuses fun x => runRefileAny_badValue (refileStation_eq_none (s := loadCommand x s) h), ?_⟩
  intro z hkey hcls hst hpresent hprio
  have hz (x : List Byte) : refileStation (loadCommand x s) (keyAt p 0) (byteAt p 8) (byteAt p 9) (byteAt p 10) = some z :=
    refileStation_eq_some hkey hcls hst hpresent hprio
  refine ⟨fun code hc => refuses fun x => runRefileAny_refuses (hz x) hc, fun hc ha hk => ?_⟩
  have hrun := (runRefile_any hany).trans (runRefileAny_waits (hz (0x32 :: commandBody p)) hc ha hk)
  refine congrArg _ ((takeCommand_waits hs hp (by decide) (modeCheck_service hm) hrun).trans ?_)
  rw [loadCommand_short (by simp [commandBody, hp])]
  rfl

end Sys2Proof.Machine

/-! The placement search (R71 to R73): the bin that a step judges, the end of a pass, and the visit that the winner takes. -/

namespace Sys2Proof.Machine

section
variable {s x : State} {w : Option Winner} {b : Nat} {r : BinRec}

theorem isCandidate_iff (s : State) (b : Nat) (r : BinRec) : isCandidate s b r = true ↔
    zoneOf r.home.aisle = s.search.station ∧ service s r.home.aisle = .inService ∧
      r.sizeClass = s.search.sizeClass ∧ isProtected s b = false ∧ r.quarantined = false ∧ visitRule s r = none ∧
      r.fill + r.withdrawn + r.refileHolds < r.capacity := by
  have hroom : 1 ≤ room r ↔ r.fill + r.withdrawn + r.refileHolds < r.capacity := by
    unfold room
    omega
  simp [isCandidate, aisleOut, hroom, and_assoc]

theorem judgeBin_of_unfit (h : ∀ r, bin s b = some r → isCandidate s b r = false) : judgeBin s b = s.search.winner := by
  unfold judgeBin
  cases hb : bin s b with
  | none => rfl
  | some r => simp [h r hb]

theorem judgeBin_of_less (hb : bin s b = some r) (hc : isCandidate s b r = true) {y : Winner}
    (hy : s.search.winner = some y) (hroom : room r ≤ y.room) : judgeBin s b = s.search.winner := by
  simp [judgeBin, hb, hc, hy, Nat.not_lt.mpr hroom]

theorem judgeBin_of_more (hb : bin s b = some r) (hc : isCandidate s b r = true)
    (hroom : ∀ y, s.search.winner = some y → y.room < room r) : judgeBin s b = some ⟨b, room r⟩ := by
  cases hy : s.search.winner with
  | none => simp [judgeBin, hb, hc, hy]
  | some y => simp [judgeBin, hb, hc, hy, hroom y hy]

/-- The winner after a judged bin is told by the three cases of R72. -/
theorem winner_eq_judgeBin (hunfit : (∀ r, bin s b = some r → isCandidate s b r = false) → w = s.search.winner)
    (hfit : ∀ r, bin s b = some r → isCandidate s b r = true →
      ((∃ y, s.search.winner = some y ∧ room r ≤ y.room) → w = s.search.winner) ∧
      ((∀ y, s.search.winner = some y → y.room < room r) → w = some ⟨b, room r⟩)) : w = judgeBin s b := by
  by_cases h : ∀ r, bin s b = some r → isCandidate s b r = false
  · rw [judgeBin_of_unfit h, hunfit h]
  · push Not at h
    obtain ⟨r, hb, hc⟩ := h
    rw [ne_eq, Bool.not_eq_false] at hc
    obtain ⟨hless, hmore⟩ := hfit r hb hc
    by_cases hroom : ∃ y, s.search.winner = some y ∧ room r ≤ y.room
    · obtain ⟨y, hy, hle⟩ := hroom
      rw [judgeBin_of_less hb hc hy hle, hless ⟨y, hy, hle⟩]
    · push Not at hroom
      rw [judgeBin_of_more hb hc hroom, hmore hroom]

/-! ### The step -/

theorem outsideReset_of_not (f : State → State) (h : inReset s = false) : outsideReset f s = f s :=
  if_neg (by simp [h])

theorem exec_searchStep (h : inReset s = false) : exec .placementSearchStep s = .next (stepSearch s) :=
  congrArg _ (outsideReset_of_not stepSearch h)

theorem stepSearch_judges (hrun : s.chanP.state = .running)
    (hx : x = { s with search := { s.search with winner := judgeBin s s.chanP.cursor } })
    (hlt : s.chanP.cursor < s.chanP.last) :
    stepSearch s = { x with chanP := { s.chanP with cursor := s.chanP.cursor + 1 } } := by
  subst hx
  exact (if_pos hrun).trans (if_pos hlt)

theorem stepSearch_ends (hrun : s.chanP.state = .running)
    (hx : x = { s with search := { s.search with winner := judgeBin s s.chanP.cursor } })
    (hge : s.chanP.last ≤ s.chanP.cursor) : stepSearch s = endPass x := by
  subst hx
  exact (if_pos hrun).trans (if_neg (Nat.not_lt.mpr hge))

/-! ### The end of a pass -/

theorem endPass_of_closed (h : zoneClosed s s.search.station = true) : endPass s = endSearch .zoneClosed [] s :=
  if_pos h

section
variable (hz : zoneClosed s s.search.station = false)
include hz

theorem endPass_of_no_winner (hw : s.search.winner = none) : endPass s = endSearch .noRoom [] s := by
  simp only [endPass, hz, Bool.false_eq_true, if_false, hw]

variable {y : Winner} (hw : s.search.winner = some y)
include hw

theorem endPass_of_unfit (h : ∀ r, bin s y.bin = some r → isCandidate s y.bin r = false) : endPass s =
    if s.chanP.passCount = 0 then { s with chanP := searchChannel 1, search := { s.search with winner := none } }
    else endSearch .noRoom [] s := by
  have hnone : (bin s y.bin).filter (isCandidate s y.bin) = none := by
    rw [Option.filter_eq_none_iff]
    intro r hr
    rw [h r hr]
    exact Bool.false_ne_true
  simp only [endPass, hz, Bool.false_eq_true, if_false, hw, hnone]

theorem endPass_of_fit (hb : bin s y.bin = some r) (hc : isCandidate s y.bin r = true) :
    endPass s = placeWinner y.bin r s := by
  have hsome : (bin s y.bin).filter (isCandidate s y.bin) = some r := by rw [hb, Option.filter_some, if_pos hc]
  simp only [endPass, hz, Bool.false_eq_true, if_false, hw, hsome]

end

/-! ### The winner takes the task -/

@[simp] theorem showTask_chanP (z : Station) (i : Nat) (t : TaskRec) (s : State) : (showTask z i t s).chanP = s.chanP := rfl

theorem placeTaskAt_chanP (taken b : Nat) (r : BinRec) (k : TaskRec) (s : State) :
    (placeTaskAt taken b r k s).state.chanP = s.chanP := by
  unfold placeTaskAt
  cases r.openVisit with
  | none => exact modBin_chanP ..
  | some n =>
    cases hv : visit s n with
    | none => simp only [hv]
    | some v =>
      simp only [hv]
      split <;> rfl

theorem settleZone_chanP (before : State) (z : Station) (u : State) : (settleZone before z u).chanP = u.chanP :=
  congrArg Ledger.chanP (settleZone_frame before z u).ledger

theorem placeWinner_eq (b : Nat) (r : BinRec) (x : State) {q : Placed} (hq : q = placeTaskAt x.search.taken b r
      (newTask .refile (some x.search.key) x.search.priority false none) x) :
    placeWinner b r x = writeReply .done (bytes 2 b ++ q.bytes)
      { settleZone x (zoneOf r.home.aisle) (modBin b (fun g => { g with refileHolds := g.refileHolds + 1 }) q.state) with
        chanP := { x.chanP with state := .idle } } := by
  have hchan : (settleZone x (zoneOf r.home.aisle)
      (modBin b (fun g => { g with refileHolds := g.refileHolds + 1 }) q.state)).chanP = x.chanP := by
    rw [settleZone_chanP, modBin_chanP, hq, placeTaskAt_chanP]
  rw [← hchan, hq]
  rfl

/-! ### The creation time of the new visit -/

section
variable {n taken : Nat} {k : TaskRec} (hb : bin s b = some r) (hr : r.openVisit = none) (hn : freeVisit s = some n)
include hb hr hn

/-- The visit that a command taken at `taken` ms creates for a task. -/
def createdVisit (s : State) (taken b : Nat) (k : TaskRec) : VisitRec :=
  { newVisit s .delivery b .queued none with created := taken }.withTasks [k]

theorem visit_placeTaskAt_new : visit (placeTaskAt taken b r k s).state n = some (createdVisit s taken b k) := by
  rw [placeTaskAt_new hb hr hn]
  exact tableGet_put_same _ _ _

theorem bin_placeTaskAt_new : bin (placeTaskAt taken b r k s).state b = some { r with openVisit := some n } := by
  rw [placeTaskAt_new hb hr hn]
  exact tableGet_put_same _ _ _

theorem placeTaskAt_new_place : (placeTaskAt taken b r k s).visit = n ∧ (placeTaskAt taken b r k s).index = 0 := by
  rw [placeTaskAt_new hb hr hn]
  exact ⟨rfl, rfl⟩

theorem placeTaskAt_new_state : (placeTaskAt taken b r k s).state =
    setVisit n (createdVisit s taken b k) (placeTask b r k s).state := by
  rw [placeTask, placeTaskAt_new hb hr hn, placeTaskAt_new hb hr hn]
  simp [setVisit, setBin, tablePut_put, createdVisit]

end

theorem placeTaskAt_of_visit {taken b n : Nat} {r : BinRec} (h : r.openVisit = some n) (k : TaskRec) (s : State) :
    placeTaskAt taken b r k s = placeTask b r k s := by
  simp only [placeTask, placeTaskAt, h]

end

/-- Settles O25. -/
theorem placementSearchRuns : Obligations.PlacementSearchRuns := by
  refine ⟨?step, ?idle, isCandidate_iff, ?place⟩
  case idle =>
    intro s hs hrun
    rw [exec_searchStep hs, stepSearch, if_neg hrun]
  case place =>
    refine fun taken b r k s => ⟨fun n hb hr hn => ?_, fun n h => placeTaskAt_of_visit h k s⟩
    refine ⟨createdVisit s taken b k, createdVisit s s.time.ms b k, visit_placeTaskAt_new hb hr hn, rfl,
      fun hk => withTasks_singleton _ hk, visit_placeTaskAt_new hb hr hn, bin_placeTaskAt_new hb hr hn,
      (placeTaskAt_new_place hb hr hn).1, (placeTaskAt_new_place hb hr hn).2, (placeTaskAt_new_place hb hr hn).1,
      (placeTaskAt_new_place hb hr hn).2, placeTaskAt_new_state hb hr hn⟩
  case step =>
    intro s x w hs hrun hunfit hfit hx
    rw [winner_eq_judgeBin hunfit hfit] at hx ⊢
    refine ⟨fun hlt => by rw [exec_searchStep hs, stepSearch_judges hrun hx hlt], fun hge => ?_⟩
    rw [exec_searchStep hs, stepSearch_ends hrun hx hge]
    refine ⟨fun hz => ?closed, fun hz => ⟨fun hw => ?none, fun y hw => ⟨fun hno => ?unfit, ?fit⟩⟩⟩
    case closed =>
      subst hx
      exact congrArg _ (endPass_of_closed hz)
    case none =>
      subst hx
      exact congrArg _ (endPass_of_no_winner hz hw)
    case unfit =>
      subst hx
      have hend := endPass_of_unfit (s := { s with search := { s.search with winner := judgeBin s s.chanP.cursor } }) hz hw hno
      exact ⟨fun hp => congrArg _ (hend.trans (if_pos hp)), fun hp => congrArg _ (hend.trans (if_neg hp))⟩
    case fit =>
      rintro r q hb hc rfl
      subst hx
      have hend := endPass_of_fit (s := { s with search := { s.search with winner := judgeBin s s.chanP.cursor } }) hz hw hb hc
      exact ⟨_, settles_settleZone _ _ _, congrArg _ (hend.trans (placeWinner_eq _ _ _ rfl))⟩

end Sys2Proof.Machine

/-! Fetch and Move Home (R15, R38), the end of a visit (R28, R29, R77), Retire Visit and Write Off Item (R44, R62). -/

namespace Sys2Proof.Machine

/-! ### Fetch -/

section
variable {p : List Byte} {s : State} {r : BinRec} {code : OutcomeCode}

/-- A field of Fetch is out of range. -/
def badFetch (p : List Byte) : Prop := 16384 ≤ wordAt p 0 ∨ 3 < byteAt p 2 ∨ 1 < byteAt p 3

theorem badFetch_iff (p : List Byte) :
    (badBin (wordAt p 0) || badPriority (byteAt p 2) || decide (1 < byteAt p 3)) = true ↔ badFetch p := by
  simp [badFetch, badBin_iff, badPriority_iff, or_assoc]

theorem runFetch_badValue (h : badFetch p) : runFetch p s = .refuse .badValue [] :=
  refuseIf_first (l := []) (badFetch_iff p) False.elim (.inl ⟨h, rfl⟩)

variable (h : ¬ badFetch p)
include h

theorem goodFetch : (badBin (wordAt p 0) || badPriority (byteAt p 2) || decide (1 < byteAt p 3)) = false := by
  simpa using mt (badFetch_iff p).mp h

theorem runFetch_noSuchBin (hb : bin s (wordAt p 0) = none) : runFetch p s = .refuse .noSuchBin [] :=
  (refuseIf_passes (goodFetch h)).trans (by rw [hb]; rfl)

variable (hb : bin s (wordAt p 0) = some r)
include hb

theorem runFetch_refuses (hc : FirstFailing (placeChecks s r.home.aisle ++ visitChecks s r) code) :
    runFetch p s = .refuse code [] :=
  (refuseIf_passes (goodFetch h)).trans ((withSome_passes hb).trans (zoneAndAisle_first visitRules_first hc))

/-- The task of a Fetch. -/
def fetchTask (p : List Byte) : TaskRec :=
  newTask .fetch none (if byteAt p 3 == 1 then 3 else byteAt p 2) (byteAt p 3 == 1) none

theorem runFetch_places (hz : zoneClosed s (zoneOf r.home.aisle) = false) (ha : service s r.home.aisle = .inService)
    (hv : visitRule s r = none) :
    runFetch p s = .reply .done (placeTask (wordAt p 0) r (fetchTask p) s).bytes
      (settleZone s (zoneOf r.home.aisle) (placeTask (wordAt p 0) r (fetchTask p) s).state) :=
  (refuseIf_passes (goodFetch h)).trans ((withSome_passes hb).trans
    ((zoneAndAisle_passes hz ha).trans (visitRules_passes hv)))

end

/-! ### Move Home -/

section
variable {p : List Byte} {s : State} {sl : Slot} {r : BinRec} {code : OutcomeCode} {n : Nat}

theorem runMoveHome_badValue (h : 16384 ≤ wordAt p 0 ∨ slotAt p 2 = none) : runMoveHome p s = .refuse .badValue [] := by
  by_cases hbin : badBin (wordAt p 0) = true
  · exact if_pos hbin
  · refine (refuseIf_passes (by simpa using hbin)).trans ?_
    have hslot : slotAt p 2 = none := h.resolve_left (mt (badBin_iff _).mpr hbin)
    rw [hslot]
    rfl

theorem badNewSlot_iff (hb : bin s (wordAt p 0) = some r) :
    badNewSlot s (wordAt p 0) sl = true ↔ sl.aisle ≠ r.home.aisle ∨ sl = r.home := by
  simp [badNewSlot, hb]

theorem aisleOut_iff (s : State) (a : Aisle) :
    (service s a == .absent || aisleSuspended s a) = true ↔ service s a ≠ .inService := by
  cases h : service s a <;> simp [aisleSuspended, h]

variable (hbin : wordAt p 0 < 16384) (hsl : slotAt p 2 = some sl)
include hbin hsl

theorem runMoveHome_noSuchBin (hb : bin s (wordAt p 0) = none) : runMoveHome p s = .refuse .noSuchBin [] := by
  refine (refuseIf_passes (badBin_eq_false.mpr hbin)).trans ((withSome_passes hsl).trans ?_)
  refine (refuseIf_passes (by simp only [badNewSlot, hb])).trans ?_
  rw [hb]
  rfl

variable (hb : bin s (wordAt p 0) = some r)
include hb

theorem runMoveHome_refuses (hc : FirstFailing [(sl.aisle ≠ r.home.aisle ∨ sl = r.home, .badValue),
    (r.quarantined = true, .quarantined), (isProtected s (wordAt p 0) = true, .protected_),
    (zoneClosed s (zoneOf r.home.aisle) = true, .zoneClosed), (service s r.home.aisle ≠ .inService, .aisleOut),
    (r.openVisit ≠ none, .binBusy), (r.location ≠ .slot, .state), (slotEntry s sl ≠ .empty, .slotTaken),
    (freeVisit s = none, .tableFull)] code) : runMoveHome p s = .refuse code [] := by
  refine (refuseIf_passes (badBin_eq_false.mpr hbin)).trans ((withSome_passes hsl).trans ?_)
  refine refuseIf_first (badNewSlot_iff hb) (fun hc => (withSome_passes hb).trans ?_) hc
  refine refuseIf_first Iff.rfl (refuseIf_first Iff.rfl (refuseIf_first Iff.rfl ?_)) hc
  refine refuseIf_first (aisleOut_iff _ _) (refuseIf_first Option.isSome_iff_ne_none ?_)
  refine refuseIf_first bne_iff_ne (refuseIf_first bne_iff_ne (withSome_first Iff.rfl fun _ _ => False.elim))

theorem runMoveHome_moves (haisle : sl.aisle = r.home.aisle) (hne : sl ≠ r.home) (hq : r.quarantined = false)
    (hprot : isProtected s (wordAt p 0) = false) (hz : zoneClosed s (zoneOf r.home.aisle) = false)
    (ha : service s r.home.aisle = .inService) (hv : r.openVisit = none) (hloc : r.location = .slot)
    (hempty : slotEntry s sl = .empty) (hn : freeVisit s = some n) :
    runMoveHome p s = .reply .done (byte n)
      (settleZone s (zoneOf r.home.aisle) (relocate (wordAt p 0) sl n s)) := by
  have hslot : badNewSlot s (wordAt p 0) sl = false := by simp [badNewSlot, hb, haisle, hne]
  refine (refuseIf_passes (badBin_eq_false.mpr hbin)).trans ((withSome_passes hsl).trans ?_)
  refine (refuseIf_passes hslot).trans ((withSome_passes hb).trans ((refuseIf_passes hq).trans ?_))
  refine (refuseIf_passes hprot).trans ((refuseIf_passes hz).trans ?_)
  refine (refuseIf_passes (by simp [aisleSuspended, ha])).trans ((refuseIf_passes (by simp [hv])).trans ?_)
  exact (refuseIf_passes (by simp [hloc])).trans ((refuseIf_passes (by simp [slotTaken, hempty])).trans (withSome_passes hn))

end

/-- The relocation visit as R15 creates it. -/
theorem relocate_eq {b n : Nat} {sl : Slot} {r : BinRec} {s : State} (hb : bin s b = some r) : relocate b sl n s =
    setBin b { r with openVisit := some n }
      (setVisit n (newVisit s .relocation b .queued (some sl)) (setSlot sl (.target b) s)) := by
  have h : bin (setVisit n (newVisit s .relocation b .queued (some sl)) (setSlot sl (.target b) s))
      (newVisit s .relocation b .queued (some sl)).bin = some r := hb
  rw [relocate, openVisit, modBin, h]
  rfl

/-- Settles O26. -/
theorem fetchAndMoveHomeArePlaced : Obligations.FetchAndMoveHomeArePlaced := by
  refine ⟨fun p s hs hm hp => ?fetch, fun p s hs hm hp => ?move⟩
  case fetch =>
    intro refused bad
    have refuses {code : OutcomeCode} (h : ∀ x, runFetch p (loadCommand x s) = .refuse code []) : refused code :=
      congrArg _ (takeCommand_refuses hs hp (by decide) (modeCheck_service hm) (h _))
    refine ⟨fun h => refuses fun _ => runFetch_badValue h, fun h hb => refuses fun _ => runFetch_noSuchBin h hb, ?_⟩
    refine fun r h hb => ⟨fun code hc => refuses fun _ => runFetch_refuses h hb hc, fun q hz ha hv hq => ?_⟩
    have htask : q = placeTask (wordAt p 0) r (fetchTask p) s := by
      simpa [fetchTask, newTask, beq_eq_decide] using hq
    subst htask
    refine ⟨_, settles_settleZone _ _ _,
      congrArg _ (takeCommand_settles hs hp (by decide) (modeCheck_service hm) fun x => ?_)⟩
    have hrun := runFetch_places (s := loadCommand x s) h hb hz ha hv
    rw [placeTask_load] at hrun
    exact hrun
  case move =>
    intro refused
    have refuses {code : OutcomeCode} (h : ∀ x, runMoveHome p (loadCommand x s) = .refuse code []) : refused code :=
      congrArg _ (takeCommand_refuses hs hp (by decide) (modeCheck_service hm) (h _))
    refine ⟨fun h => refuses fun _ => runMoveHome_badValue h,
      fun sl hbin hsl hb => refuses fun _ => runMoveHome_noSuchBin hbin hsl hb, fun sl r hbin hsl hb => ?_⟩
    refine ⟨fun code hc => refuses fun _ => runMoveHome_refuses hbin hsl hb hc, ?_⟩
    intro n haisle hne hq hprot hz ha hv hloc hempty hn
    refine ⟨_, settles_settleZone _ _ _,
      congrArg _ (takeCommand_settles hs hp (by decide) (modeCheck_service hm) fun x => ?_)⟩
    refine (runMoveHome_moves (s := loadCommand x s) hbin hsl hb haisle hne hq hprot hz ha hv hloc hempty hn).trans ?_
    rw [relocate_eq (s := loadCommand x s) hb]
    rfl

end Sys2Proof.Machine

/-! The end of a visit (R28, R29, R77), and the commands that clear records: Retire Visit and Write Off Item (R44, R62). -/

namespace Sys2Proof.Machine

/-! ### Reservations -/

section
variable {s : State} {a b : Aisle} {n : Nat}

theorem reservations_setReservations (a : Aisle) (n : Nat) (s : State) : reservations (setReservations a n s) a = n := by
  unfold reservations setReservations
  rw [station_setStation]
  split <;> rfl

theorem eq_of_zone_of_parity (hz : zoneOf b = zoneOf a) (hp : b.val % 2 = 0 ↔ a.val % 2 = 0) : b = a := by
  have hdiv : b.val / 2 = a.val / 2 := congrArg Fin.val hz
  exact Fin.ext (by omega)

theorem reservations_setReservations_ne (h : b ≠ a) : reservations (setReservations a n s) b = reservations s b := by
  unfold reservations setReservations
  by_cases hz : zoneOf b = zoneOf a
  · have hp : ¬(b.val % 2 = 0 ↔ a.val % 2 = 0) := fun hp => h (eq_of_zone_of_parity hz hp)
    rw [hz, station_setStation]
    by_cases hb : b.val % 2 = 0
    · rw [if_pos hb, if_pos hb, if_neg (by simpa [hb] using hp)]
    · rw [if_neg hb, if_neg hb, if_pos (by simpa [hb] using hp)]
  · rw [station_setStation_ne hz]

theorem station_setReservations (a : Aisle) (n : Nat) (s : State) (z : Station) :
    { station (setReservations a n s) z with resv0 := (station s z).resv0, resv1 := (station s z).resv1 } =
      station s z := by
  unfold setReservations
  by_cases hz : z = zoneOf a
  · subst hz
    rw [station_setStation]
    split <;> rfl
  · rw [station_setStation_ne hz]

end

/-! ### The end of a visit -/

section
variable {n : Nat} {st : VisitState} {o : VisitOutcome} {s : State} {v : VisitRec} {r : BinRec}

/-- A visit as its end leaves it (R28). -/
def VisitRec.ended (v : VisitRec) (st : VisitState) (o : VisitOutcome) : VisitRec :=
  { v with state := st, outcome := some o, hold := .none, reservation := false }

/-- The bin of a visit that ends (R28, R77). -/
def endedBin (s : State) (v : VisitRec) (o : VisitOutcome) (r : BinRec) : BinRec :=
  if o = .done then doneBin s.day v.problems.damaged { r with openVisit := none } else { r with openVisit := none }

/-- The stations with the reservation of a visit given back to an aisle (R29). -/
def givenBack (a : Aisle) (v : VisitRec) (s : State) : State :=
  if v.reservation then setReservations a (reservations s a - 1) s else s

theorem setVisit_setVisit (n : Nat) (v w : VisitRec) (s : State) : setVisit n v (setVisit n w s) = setVisit n v s := by
  simp [setVisit, tablePut_put]

theorem setBin_setBin (b : Nat) (r q : BinRec) (s : State) : setBin b r (setBin b q s) = setBin b r s := by
  simp [setBin, tablePut_put]

theorem bin_setBin_self (b : Nat) (r : BinRec) (s : State) : bin (setBin b r s) b = some r := tableGet_put_same _ _ _

theorem modBin_of_some {b : Nat} {f : BinRec → BinRec} (h : bin s b = some r) : modBin b f s = setBin b (f r) s := by
  rw [modBin, h]

theorem setVisit_releaseReservation (w : VisitRec) (hv : visit s n = some v) (hb : bin s v.bin = some r) :
    setVisit n w (releaseReservation n s) = setVisit n w (givenBack r.home.aisle v s) := by
  have ha : binAisle s v.bin = some r.home.aisle := by rw [binAisle, hb, Option.map_some]
  by_cases hr : v.reservation = true
  · simp only [releaseReservation, hv, hr, if_true, ha, givenBack]
    exact setVisit_setVisit n w _ (setReservations _ _ s)
  · simp only [releaseReservation, hv, hr, givenBack, Bool.false_eq_true, if_false]

theorem bin_givenBack (a : Aisle) (v : VisitRec) (s : State) (b : Nat) : bin (givenBack a v s) b = bin s b := by
  unfold givenBack
  split <;> rfl

/-- The end of a visit, written out. -/
theorem endVisit_eq (hv : visit s n = some v) (hb : bin s v.bin = some r) : endVisit n st o s =
    setAttention visitEndedBit (setBin v.bin (endedBin s v o r)
      (setVisit n (v.ended st o) (givenBack r.home.aisle v s))) := by
  have hbin : bin (setVisit n (v.ended st o) (givenBack r.home.aisle v s)) v.bin = some r :=
    (bin_givenBack _ _ s _).trans hb
  have hrec : setVisit n (v.ended st o) (releaseReservation n s) = _ := setVisit_releaseReservation _ hv hb
  simp only [endVisit, hv]
  rw [show setVisit n { v with state := st, outcome := some o, hold := .none, reservation := false }
    (releaseReservation n s) = setVisit n (v.ended st o) (givenBack r.home.aisle v s) from hrec, modBin_of_some hbin]
  by_cases ho : o = .done
  · rw [if_pos ho, modBin_of_some (bin_setBin_self ..), setBin_setBin, endedBin, if_pos ho]
  · rw [if_neg ho, endedBin, if_neg ho]

theorem reservations_givenBack (a : Aisle) (v : VisitRec) (s : State) :
    reservations (givenBack a v s) a = reservations s a - if v.reservation then 1 else 0 := by
  unfold givenBack
  split
  · exact reservations_setReservations ..
  · rfl

theorem reservations_givenBack_ne {a b : Aisle} (h : b ≠ a) (v : VisitRec) (s : State) :
    reservations (givenBack a v s) b = reservations s b := by
  unfold givenBack
  split
  · exact reservations_setReservations_ne h
  · rfl

theorem station_givenBack (a : Aisle) (v : VisitRec) (s : State) (z : Station) :
    { station (givenBack a v s) z with resv0 := (station s z).resv0, resv1 := (station s z).resv1 } = station s z := by
  unfold givenBack
  split
  · exact station_setReservations ..
  · rfl

theorem visit_givenBack (a : Aisle) (v : VisitRec) (s : State) (m : Nat) : visit (givenBack a v s) m = visit s m := by
  unfold givenBack
  split <;> rfl

theorem link_givenBack (a : Aisle) (v : VisitRec) (s : State) : (givenBack a v s).link = s.link := by
  unfold givenBack
  split <;> rfl

end

/-- Settles O28. -/
theorem visitsEnd : Obligations.VisitsEnd := by
  rintro n st o s t v r hv hb rfl
  rw [endVisit_eq hv hb]
  refine ⟨tableGet_put_same _ _ _, ?bin, reservations_givenBack _ v s, fun a ha => reservations_givenBack_ne ha v s,
    station_givenBack _ v s, ?others, ?bins, ?link, ?rest⟩
  case bin =>
    refine (tableGet_put_same _ _ _).trans (congrArg some ?_)
    unfold endedBin
    by_cases ho : o = .done <;> simp [ho, doneBin]
  case others =>
    intro m hm
    exact (tableGet_put_ne _ hm _).trans (visit_givenBack ..)
  case bins =>
    intro b hne
    exact (tableGet_put_ne _ hne _).trans (bin_givenBack ..)
  case link =>
    rw [← link_givenBack r.home.aisle v s]
    rfl
  case rest =>
    unfold givenBack
    split <;> rfl

/-! ### Retire Visit -/

section
variable {p : List Byte} {s : State} {v : VisitRec} {w : WithdrawalRec} {r : BinRec}

theorem badVisit_iff (n : Nat) : badVisit n = true ↔ 64 ≤ n := decide_eq_true_iff
theorem badVisit_eq_false {n : Nat} : badVisit n = false ↔ n < 64 := by
  rw [badVisit, decide_eq_false_iff_not, Nat.not_le]
  rfl

theorem isOpen_iff (v : VisitRec) : isOpen v = true ↔ v.outcome = none := Option.isNone_iff_eq_none
theorem isOpen_eq_false {v : VisitRec} : isOpen v = false ↔ v.outcome ≠ none := by
  rw [← Bool.not_eq_true, isOpen_iff]

theorem runRetireVisit_badValue (h : 64 ≤ byteAt p 0) : runRetireVisit p s = .refuse .badValue [] :=
  if_pos ((badVisit_iff _).mpr h)

theorem runRetireVisit_noSuchVisit (h : byteAt p 0 < 64) (hv : visit s (byteAt p 0) = none) :
    runRetireVisit p s = .refuse .noSuchVisit [] :=
  (refuseIf_passes (badVisit_eq_false.mpr h)).trans (by rw [hv]; rfl)

theorem runRetireVisit_open (h : byteAt p 0 < 64) (hv : visit s (byteAt p 0) = some v) (ho : v.outcome = none) :
    runRetireVisit p s = .refuse .state [] :=
  (refuseIf_passes (badVisit_eq_false.mpr h)).trans ((withSome_passes hv).trans (if_pos ((isOpen_iff v).mpr ho)))

theorem runRetireVisit_ended (h : byteAt p 0 < 64) (hv : visit s (byteAt p 0) = some v) (ho : v.outcome ≠ none) :
    runRetireVisit p s = .reply .done [] { s with visits := tableErase s.visits (byteAt p 0) } :=
  (refuseIf_passes (badVisit_eq_false.mpr h)).trans
    ((withSome_passes hv).trans (refuseIf_passes (isOpen_eq_false.mpr ho)))

/-! ### Write Off Item -/

theorem runWriteOff_badValue (h : keyAt p 0 = 0) : runWriteOff p s = .refuse .badValue [] :=
  if_pos ((badKey_iff _).mpr h)

theorem runWriteOff_notOut (h : keyAt p 0 ≠ 0) (hw : withdrawal s (keyAt p 0) = none) :
    runWriteOff p s = .refuse .notOut [] :=
  (refuseIf_passes (badKey_eq_false.mpr h)).trans (by rw [hw]; rfl)

theorem runWriteOff_returning (h : keyAt p 0 ≠ 0) (hw : withdrawal s (keyAt p 0) = some w) (hst : w.state = .returning) :
    runWriteOff p s = .refuse .alreadyReturning [] :=
  (refuseIf_passes (badKey_eq_false.mpr h)).trans ((withSome_passes hw).trans (if_pos (beq_iff_eq.mpr hst)))

theorem informScan_bins (s : State) : (informScan s).bins = s.bins := by
  simp only [informScan]
  split <;> rfl

theorem bin_deleteRecord (key : ItemKey) (s : State) (b : Nat) : bin (deleteRecord key s) b = bin s b := by
  simp only [deleteRecord, bin]
  split
  · rw [informScan_bins]
  · rfl

theorem deleteRecord_load (m : List Byte) (key : ItemKey) : Commutes m (deleteRecord key) := by
  intro s
  by_cases hf : (lookup s.withdrawals key).found = true
  · by_cases hq : s.chanQ.table = .withdrawal ∧ (s.chanQ.state = .running ∨ s.chanQ.state = .paused)
    · simp [deleteRecord, informScan, loadCommand, hf, hq]
    · simp [deleteRecord, informScan, loadCommand, hf, hq]
  · simp [deleteRecord, loadCommand, hf]

theorem runWriteOff_deletes (h : keyAt p 0 ≠ 0) (hw : withdrawal s (keyAt p 0) = some w) (hst : w.state = .out)
    (hb : bin s w.homeBin = some r) : runWriteOff p s = .reply .done (bytes 2 w.homeBin ++ byte (r.withdrawn - 1))
      (setBin w.homeBin { r with withdrawn := r.withdrawn - 1 } (deleteRecord (keyAt p 0) s)) := by
  have hmod : modBin w.homeBin writeOffBin (deleteRecord (keyAt p 0) s) =
      setBin w.homeBin { r with withdrawn := r.withdrawn - 1 } (deleteRecord (keyAt p 0) s) :=
    modBin_of_some ((bin_deleteRecord ..).trans hb)
  refine (refuseIf_passes (badKey_eq_false.mpr h)).trans ((withSome_passes hw).trans ?_)
  refine (refuseIf_passes (by rw [hst]; rfl)).trans ?_
  simp only [hmod, bin_setBin_self]
  rfl

end

/-- Settles O29. -/
theorem recordsAreCleared : Obligations.RecordsAreCleared := by
  intro p s hs hm
  have service := modeCheck_service hm
  refine ⟨fun hp h => ?_, fun hp h hv => ?_, fun hp h => ?_, fun v hp h hv => ⟨fun ho => ?_, fun ho => ?_⟩,
    fun hp h => ⟨fun hw => ?_, fun w hw => ⟨fun hst => ?_, fun r hst hb => ?_⟩⟩⟩
  · exact congrArg _ (takeCommand_refuses hs hp (by decide) service (runRetireVisit_badValue h))
  · exact congrArg _ (takeCommand_refuses hs hp (by decide) service (runRetireVisit_noSuchVisit h hv))
  · exact congrArg _ (takeCommand_refuses hs hp (by decide) service (runWriteOff_badValue h))
  · exact congrArg _ (takeCommand_refuses hs hp (by decide) service (runRetireVisit_open h hv ho))
  · exact congrArg _ (takeCommand_replies hs hp (by decide) service (runRetireVisit_ended h hv ho))
  · exact congrArg _ (takeCommand_refuses hs hp (by decide) service (runWriteOff_notOut h hw))
  · exact congrArg _ (takeCommand_refuses hs hp (by decide) service (runWriteOff_returning h hw hst))
  · refine congrArg _ ((takeCommand_replies hs hp (by decide) service (runWriteOff_deletes h hw hst hb)).trans ?_)
    rw [deleteRecord_load]
    rfl

end Sys2Proof.Machine

/-! What the record of a block, a bin or a visit is after an update of another part of the state. -/

namespace Sys2Proof.Machine

/-! setCrane -/

@[simp] theorem aisleRec_setCrane (e : Aisle) (c : CraneRec) (s : State) (a : Aisle) : aisleRec (setCrane e c s) a = aisleRec s a :=
  rfl
@[simp] theorem forkMark_setCrane (e : Aisle) (c : CraneRec) (s : State) (a : Aisle) : forkMark (setCrane e c s) a = forkMark s a :=
  rfl
@[simp] theorem station_setCrane (e : Aisle) (c : CraneRec) (s : State) (z : Station) : station (setCrane e c s) z = station s z :=
  rfl
@[simp] theorem zone_setCrane (e : Aisle) (c : CraneRec) (s : State) (z : Station) : zone (setCrane e c s) z = zone s z :=
  rfl
@[simp] theorem crossingMark_setCrane (e : Aisle) (c : CraneRec) (s : State) (z : Station) : crossingMark (setCrane e c s) z = crossingMark s z :=
  rfl
@[simp] theorem conditioner_setCrane (e : Aisle) (c : CraneRec) (s : State) (i : FireInput) : conditioner (setCrane e c s) i = conditioner s i :=
  rfl
@[simp] theorem bin_setCrane (e : Aisle) (c : CraneRec) (s : State) (b : Nat) : bin (setCrane e c s) b = bin s b := rfl
@[simp] theorem visit_setCrane (e : Aisle) (c : CraneRec) (s : State) (n : Nat) : visit (setCrane e c s) n = visit s n :=
  rfl
@[simp] theorem stationPresent_setCrane (e : Aisle) (c : CraneRec) (s : State) (z : Station) : stationPresent (setCrane e c s) z = stationPresent s z :=
  rfl
@[simp] theorem aislePresent_setCrane (e : Aisle) (c : CraneRec) (s : State) (a : Aisle) : aislePresent (setCrane e c s) a = aislePresent s a :=
  rfl
@[simp] theorem param_setCrane (e : Aisle) (c : CraneRec) (s : State) (n : Fin 41) : param (setCrane e c s) n = param s n :=
  rfl
@[simp] theorem zoneClosed_setCrane (e : Aisle) (c : CraneRec) (s : State) (z : Station) : zoneClosed (setCrane e c s) z = zoneClosed s z :=
  rfl
@[simp] theorem service_setCrane (e : Aisle) (c : CraneRec) (s : State) (a : Aisle) : service (setCrane e c s) a = service s a :=
  rfl

/-! setAisle -/

@[simp] theorem crane_setAisle (e : Aisle) (r : AisleRec) (s : State) (a : Aisle) : crane (setAisle e r s) a = crane s a :=
  rfl
@[simp] theorem forkMark_setAisle (e : Aisle) (r : AisleRec) (s : State) (a : Aisle) : forkMark (setAisle e r s) a = forkMark s a :=
  rfl
@[simp] theorem zone_setAisle (e : Aisle) (r : AisleRec) (s : State) (z : Station) : zone (setAisle e r s) z = zone s z :=
  rfl
@[simp] theorem crossingMark_setAisle (e : Aisle) (r : AisleRec) (s : State) (z : Station) : crossingMark (setAisle e r s) z = crossingMark s z :=
  rfl
@[simp] theorem conditioner_setAisle (e : Aisle) (r : AisleRec) (s : State) (i : FireInput) : conditioner (setAisle e r s) i = conditioner s i :=
  rfl
@[simp] theorem bin_setAisle (e : Aisle) (r : AisleRec) (s : State) (b : Nat) : bin (setAisle e r s) b = bin s b := rfl
@[simp] theorem visit_setAisle (e : Aisle) (r : AisleRec) (s : State) (n : Nat) : visit (setAisle e r s) n = visit s n :=
  rfl
@[simp] theorem stationPresent_setAisle (e : Aisle) (r : AisleRec) (s : State) (z : Station) : stationPresent (setAisle e r s) z = stationPresent s z :=
  rfl
@[simp] theorem aislePresent_setAisle (e : Aisle) (r : AisleRec) (s : State) (a : Aisle) : aislePresent (setAisle e r s) a = aislePresent s a :=
  rfl
@[simp] theorem param_setAisle (e : Aisle) (r : AisleRec) (s : State) (n : Fin 41) : param (setAisle e r s) n = param s n :=
  rfl
@[simp] theorem zoneClosed_setAisle (e : Aisle) (r : AisleRec) (s : State) (z : Station) : zoneClosed (setAisle e r s) z = zoneClosed s z :=
  rfl

/-! setForkMark -/

@[simp] theorem crane_setForkMark (e : Aisle) (m : Option Nat) (s : State) (a : Aisle) : crane (setForkMark e m s) a = crane s a :=
  rfl
@[simp] theorem aisleRec_setForkMark (e : Aisle) (m : Option Nat) (s : State) (a : Aisle) : aisleRec (setForkMark e m s) a = aisleRec s a :=
  rfl
@[simp] theorem station_setForkMark (e : Aisle) (m : Option Nat) (s : State) (z : Station) : station (setForkMark e m s) z = station s z :=
  rfl
@[simp] theorem zone_setForkMark (e : Aisle) (m : Option Nat) (s : State) (z : Station) : zone (setForkMark e m s) z = zone s z :=
  rfl
@[simp] theorem crossingMark_setForkMark (e : Aisle) (m : Option Nat) (s : State) (z : Station) : crossingMark (setForkMark e m s) z = crossingMark s z :=
  rfl
@[simp] theorem conditioner_setForkMark (e : Aisle) (m : Option Nat) (s : State) (i : FireInput) : conditioner (setForkMark e m s) i = conditioner s i :=
  rfl
@[simp] theorem bin_setForkMark (e : Aisle) (m : Option Nat) (s : State) (b : Nat) : bin (setForkMark e m s) b = bin s b :=
  rfl
@[simp] theorem visit_setForkMark (e : Aisle) (m : Option Nat) (s : State) (n : Nat) : visit (setForkMark e m s) n = visit s n :=
  rfl
@[simp] theorem stationPresent_setForkMark (e : Aisle) (m : Option Nat) (s : State) (z : Station) : stationPresent (setForkMark e m s) z = stationPresent s z :=
  rfl
@[simp] theorem aislePresent_setForkMark (e : Aisle) (m : Option Nat) (s : State) (a : Aisle) : aislePresent (setForkMark e m s) a = aislePresent s a :=
  rfl
@[simp] theorem param_setForkMark (e : Aisle) (m : Option Nat) (s : State) (n : Fin 41) : param (setForkMark e m s) n = param s n :=
  rfl
@[simp] theorem zoneClosed_setForkMark (e : Aisle) (m : Option Nat) (s : State) (z : Station) : zoneClosed (setForkMark e m s) z = zoneClosed s z :=
  rfl
@[simp] theorem service_setForkMark (e : Aisle) (m : Option Nat) (s : State) (a : Aisle) : service (setForkMark e m s) a = service s a :=
  rfl

/-! setStation -/

@[simp] theorem crane_setStation (y : Station) (r : StationRec) (s : State) (a : Aisle) : crane (setStation y r s) a = crane s a :=
  rfl
@[simp] theorem forkMark_setStation (y : Station) (r : StationRec) (s : State) (a : Aisle) : forkMark (setStation y r s) a = forkMark s a :=
  rfl
@[simp] theorem zone_setStation (y : Station) (r : StationRec) (s : State) (z : Station) : zone (setStation y r s) z = zone s z :=
  rfl
@[simp] theorem crossingMark_setStation (y : Station) (r : StationRec) (s : State) (z : Station) : crossingMark (setStation y r s) z = crossingMark s z :=
  rfl
@[simp] theorem conditioner_setStation (y : Station) (r : StationRec) (s : State) (i : FireInput) : conditioner (setStation y r s) i = conditioner s i :=
  rfl
@[simp] theorem bin_setStation (y : Station) (r : StationRec) (s : State) (b : Nat) : bin (setStation y r s) b = bin s b :=
  rfl
@[simp] theorem visit_setStation (y : Station) (r : StationRec) (s : State) (n : Nat) : visit (setStation y r s) n = visit s n :=
  rfl
@[simp] theorem stationPresent_setStation (y : Station) (r : StationRec) (s : State) (z : Station) : stationPresent (setStation y r s) z = stationPresent s z :=
  rfl
@[simp] theorem aislePresent_setStation (y : Station) (r : StationRec) (s : State) (a : Aisle) : aislePresent (setStation y r s) a = aislePresent s a :=
  rfl
@[simp] theorem param_setStation (y : Station) (r : StationRec) (s : State) (n : Fin 41) : param (setStation y r s) n = param s n :=
  rfl
@[simp] theorem zoneClosed_setStation (y : Station) (r : StationRec) (s : State) (z : Station) : zoneClosed (setStation y r s) z = zoneClosed s z :=
  rfl
@[simp] theorem service_setStation (y : Station) (r : StationRec) (s : State) (a : Aisle) : service (setStation y r s) a = service s a :=
  rfl

/-! setZone -/

@[simp] theorem crane_setZone (y : Station) (r : ZoneRec) (s : State) (a : Aisle) : crane (setZone y r s) a = crane s a :=
  rfl
@[simp] theorem aisleRec_setZone (y : Station) (r : ZoneRec) (s : State) (a : Aisle) : aisleRec (setZone y r s) a = aisleRec s a :=
  rfl
@[simp] theorem forkMark_setZone (y : Station) (r : ZoneRec) (s : State) (a : Aisle) : forkMark (setZone y r s) a = forkMark s a :=
  rfl
@[simp] theorem station_setZone (y : Station) (r : ZoneRec) (s : State) (z : Station) : station (setZone y r s) z = station s z :=
  rfl
@[simp] theorem crossingMark_setZone (y : Station) (r : ZoneRec) (s : State) (z : Station) : crossingMark (setZone y r s) z = crossingMark s z :=
  rfl
@[simp] theorem conditioner_setZone (y : Station) (r : ZoneRec) (s : State) (i : FireInput) : conditioner (setZone y r s) i = conditioner s i :=
  rfl
@[simp] theorem bin_setZone (y : Station) (r : ZoneRec) (s : State) (b : Nat) : bin (setZone y r s) b = bin s b := rfl
@[simp] theorem visit_setZone (y : Station) (r : ZoneRec) (s : State) (n : Nat) : visit (setZone y r s) n = visit s n := rfl
@[simp] theorem stationPresent_setZone (y : Station) (r : ZoneRec) (s : State) (z : Station) : stationPresent (setZone y r s) z = stationPresent s z :=
  rfl
@[simp] theorem aislePresent_setZone (y : Station) (r : ZoneRec) (s : State) (a : Aisle) : aislePresent (setZone y r s) a = aislePresent s a :=
  rfl
@[simp] theorem param_setZone (y : Station) (r : ZoneRec) (s : State) (n : Fin 41) : param (setZone y r s) n = param s n :=
  rfl
@[simp] theorem service_setZone (y : Station) (r : ZoneRec) (s : State) (a : Aisle) : service (setZone y r s) a = service s a :=
  rfl

/-! setCrossingMark -/

@[simp] theorem crane_setCrossingMark (y : Station) (m : Option Nat) (s : State) (a : Aisle) : crane (setCrossingMark y m s) a = crane s a :=
  rfl
@[simp] theorem aisleRec_setCrossingMark (y : Station) (m : Option Nat) (s : State) (a : Aisle) : aisleRec (setCrossingMark y m s) a = aisleRec s a :=
  rfl
@[simp] theorem forkMark_setCrossingMark (y : Station) (m : Option Nat) (s : State) (a : Aisle) : forkMark (setCrossingMark y m s) a = forkMark s a :=
  rfl
@[simp] theorem station_setCrossingMark (y : Station) (m : Option Nat) (s : State) (z : Station) : station (setCrossingMark y m s) z = station s z :=
  rfl
@[simp] theorem zone_setCrossingMark (y : Station) (m : Option Nat) (s : State) (z : Station) : zone (setCrossingMark y m s) z = zone s z :=
  rfl
@[simp] theorem conditioner_setCrossingMark (y : Station) (m : Option Nat) (s : State) (i : FireInput) : conditioner (setCrossingMark y m s) i = conditioner s i :=
  rfl
@[simp] theorem bin_setCrossingMark (y : Station) (m : Option Nat) (s : State) (b : Nat) : bin (setCrossingMark y m s) b = bin s b :=
  rfl
@[simp] theorem visit_setCrossingMark (y : Station) (m : Option Nat) (s : State) (n : Nat) : visit (setCrossingMark y m s) n = visit s n :=
  rfl
@[simp] theorem stationPresent_setCrossingMark (y : Station) (m : Option Nat) (s : State) (z : Station) : stationPresent (setCrossingMark y m s) z = stationPresent s z :=
  rfl
@[simp] theorem aislePresent_setCrossingMark (y : Station) (m : Option Nat) (s : State) (a : Aisle) : aislePresent (setCrossingMark y m s) a = aislePresent s a :=
  rfl
@[simp] theorem param_setCrossingMark (y : Station) (m : Option Nat) (s : State) (n : Fin 41) : param (setCrossingMark y m s) n = param s n :=
  rfl
@[simp] theorem zoneClosed_setCrossingMark (y : Station) (m : Option Nat) (s : State) (z : Station) : zoneClosed (setCrossingMark y m s) z = zoneClosed s z :=
  rfl
@[simp] theorem service_setCrossingMark (y : Station) (m : Option Nat) (s : State) (a : Aisle) : service (setCrossingMark y m s) a = service s a :=
  rfl

/-! setConditioner -/

@[simp] theorem crane_setConditioner (j : FireInput) (c : Conditioner) (s : State) (a : Aisle) : crane (setConditioner j c s) a = crane s a :=
  rfl
@[simp] theorem aisleRec_setConditioner (j : FireInput) (c : Conditioner) (s : State) (a : Aisle) : aisleRec (setConditioner j c s) a = aisleRec s a :=
  rfl
@[simp] theorem forkMark_setConditioner (j : FireInput) (c : Conditioner) (s : State) (a : Aisle) : forkMark (setConditioner j c s) a = forkMark s a :=
  rfl
@[simp] theorem station_setConditioner (j : FireInput) (c : Conditioner) (s : State) (z : Station) : station (setConditioner j c s) z = station s z :=
  rfl
@[simp] theorem zone_setConditioner (j : FireInput) (c : Conditioner) (s : State) (z : Station) : zone (setConditioner j c s) z = zone s z :=
  rfl
@[simp] theorem crossingMark_setConditioner (j : FireInput) (c : Conditioner) (s : State) (z : Station) : crossingMark (setConditioner j c s) z = crossingMark s z :=
  rfl
@[simp] theorem bin_setConditioner (j : FireInput) (c : Conditioner) (s : State) (b : Nat) : bin (setConditioner j c s) b = bin s b :=
  rfl
@[simp] theorem visit_setConditioner (j : FireInput) (c : Conditioner) (s : State) (n : Nat) : visit (setConditioner j c s) n = visit s n :=
  rfl
@[simp] theorem stationPresent_setConditioner (j : FireInput) (c : Conditioner) (s : State) (z : Station) : stationPresent (setConditioner j c s) z = stationPresent s z :=
  rfl
@[simp] theorem aislePresent_setConditioner (j : FireInput) (c : Conditioner) (s : State) (a : Aisle) : aislePresent (setConditioner j c s) a = aislePresent s a :=
  rfl
@[simp] theorem param_setConditioner (j : FireInput) (c : Conditioner) (s : State) (n : Fin 41) : param (setConditioner j c s) n = param s n :=
  rfl
@[simp] theorem zoneClosed_setConditioner (j : FireInput) (c : Conditioner) (s : State) (z : Station) : zoneClosed (setConditioner j c s) z = zoneClosed s z :=
  rfl
@[simp] theorem service_setConditioner (j : FireInput) (c : Conditioner) (s : State) (a : Aisle) : service (setConditioner j c s) a = service s a :=
  rfl

/-! setBin -/

@[simp] theorem crane_setBin (k : Nat) (r : BinRec) (s : State) (a : Aisle) : crane (setBin k r s) a = crane s a := rfl
@[simp] theorem aisleRec_setBin (k : Nat) (r : BinRec) (s : State) (a : Aisle) : aisleRec (setBin k r s) a = aisleRec s a :=
  rfl
@[simp] theorem forkMark_setBin (k : Nat) (r : BinRec) (s : State) (a : Aisle) : forkMark (setBin k r s) a = forkMark s a :=
  rfl
@[simp] theorem station_setBin (k : Nat) (r : BinRec) (s : State) (z : Station) : station (setBin k r s) z = station s z :=
  rfl
@[simp] theorem zone_setBin (k : Nat) (r : BinRec) (s : State) (z : Station) : zone (setBin k r s) z = zone s z := rfl
@[simp] theorem crossingMark_setBin (k : Nat) (r : BinRec) (s : State) (z : Station) : crossingMark (setBin k r s) z = crossingMark s z :=
  rfl
@[simp] theorem conditioner_setBin (k : Nat) (r : BinRec) (s : State) (i : FireInput) : conditioner (setBin k r s) i = conditioner s i :=
  rfl
@[simp] theorem visit_setBin (k : Nat) (r : BinRec) (s : State) (n : Nat) : visit (setBin k r s) n = visit s n := rfl
@[simp] theorem stationPresent_setBin (k : Nat) (r : BinRec) (s : State) (z : Station) : stationPresent (setBin k r s) z = stationPresent s z :=
  rfl
@[simp] theorem aislePresent_setBin (k : Nat) (r : BinRec) (s : State) (a : Aisle) : aislePresent (setBin k r s) a = aislePresent s a :=
  rfl
@[simp] theorem param_setBin (k : Nat) (r : BinRec) (s : State) (n : Fin 41) : param (setBin k r s) n = param s n := rfl
@[simp] theorem zoneClosed_setBin (k : Nat) (r : BinRec) (s : State) (z : Station) : zoneClosed (setBin k r s) z = zoneClosed s z :=
  rfl
@[simp] theorem service_setBin (k : Nat) (r : BinRec) (s : State) (a : Aisle) : service (setBin k r s) a = service s a :=
  rfl

/-! freeBin -/

@[simp] theorem crane_freeBin (k : Nat) (s : State) (a : Aisle) : crane (freeBin k s) a = crane s a := rfl
@[simp] theorem aisleRec_freeBin (k : Nat) (s : State) (a : Aisle) : aisleRec (freeBin k s) a = aisleRec s a := rfl
@[simp] theorem forkMark_freeBin (k : Nat) (s : State) (a : Aisle) : forkMark (freeBin k s) a = forkMark s a := rfl
@[simp] theorem station_freeBin (k : Nat) (s : State) (z : Station) : station (freeBin k s) z = station s z := rfl
@[simp] theorem zone_freeBin (k : Nat) (s : State) (z : Station) : zone (freeBin k s) z = zone s z := rfl
@[simp] theorem crossingMark_freeBin (k : Nat) (s : State) (z : Station) : crossingMark (freeBin k s) z = crossingMark s z :=
  rfl
@[simp] theorem conditioner_freeBin (k : Nat) (s : State) (i : FireInput) : conditioner (freeBin k s) i = conditioner s i :=
  rfl
@[simp] theorem visit_freeBin (k : Nat) (s : State) (n : Nat) : visit (freeBin k s) n = visit s n := rfl
@[simp] theorem stationPresent_freeBin (k : Nat) (s : State) (z : Station) : stationPresent (freeBin k s) z = stationPresent s z :=
  rfl
@[simp] theorem aislePresent_freeBin (k : Nat) (s : State) (a : Aisle) : aislePresent (freeBin k s) a = aislePresent s a :=
  rfl
@[simp] theorem param_freeBin (k : Nat) (s : State) (n : Fin 41) : param (freeBin k s) n = param s n := rfl
@[simp] theorem zoneClosed_freeBin (k : Nat) (s : State) (z : Station) : zoneClosed (freeBin k s) z = zoneClosed s z := rfl
@[simp] theorem service_freeBin (k : Nat) (s : State) (a : Aisle) : service (freeBin k s) a = service s a := rfl

/-! setSlot -/

@[simp] theorem crane_setSlot (sl : Slot) (e : SlotEntry) (s : State) (a : Aisle) : crane (setSlot sl e s) a = crane s a :=
  rfl
@[simp] theorem aisleRec_setSlot (sl : Slot) (e : SlotEntry) (s : State) (a : Aisle) : aisleRec (setSlot sl e s) a = aisleRec s a :=
  rfl
@[simp] theorem forkMark_setSlot (sl : Slot) (e : SlotEntry) (s : State) (a : Aisle) : forkMark (setSlot sl e s) a = forkMark s a :=
  rfl
@[simp] theorem station_setSlot (sl : Slot) (e : SlotEntry) (s : State) (z : Station) : station (setSlot sl e s) z = station s z :=
  rfl
@[simp] theorem zone_setSlot (sl : Slot) (e : SlotEntry) (s : State) (z : Station) : zone (setSlot sl e s) z = zone s z :=
  rfl
@[simp] theorem crossingMark_setSlot (sl : Slot) (e : SlotEntry) (s : State) (z : Station) : crossingMark (setSlot sl e s) z = crossingMark s z :=
  rfl
@[simp] theorem conditioner_setSlot (sl : Slot) (e : SlotEntry) (s : State) (i : FireInput) : conditioner (setSlot sl e s) i = conditioner s i :=
  rfl
@[simp] theorem bin_setSlot (sl : Slot) (e : SlotEntry) (s : State) (b : Nat) : bin (setSlot sl e s) b = bin s b := rfl
@[simp] theorem visit_setSlot (sl : Slot) (e : SlotEntry) (s : State) (n : Nat) : visit (setSlot sl e s) n = visit s n :=
  rfl
@[simp] theorem stationPresent_setSlot (sl : Slot) (e : SlotEntry) (s : State) (z : Station) : stationPresent (setSlot sl e s) z = stationPresent s z :=
  rfl
@[simp] theorem aislePresent_setSlot (sl : Slot) (e : SlotEntry) (s : State) (a : Aisle) : aislePresent (setSlot sl e s) a = aislePresent s a :=
  rfl
@[simp] theorem param_setSlot (sl : Slot) (e : SlotEntry) (s : State) (n : Fin 41) : param (setSlot sl e s) n = param s n :=
  rfl
@[simp] theorem zoneClosed_setSlot (sl : Slot) (e : SlotEntry) (s : State) (z : Station) : zoneClosed (setSlot sl e s) z = zoneClosed s z :=
  rfl
@[simp] theorem service_setSlot (sl : Slot) (e : SlotEntry) (s : State) (a : Aisle) : service (setSlot sl e s) a = service s a :=
  rfl

/-! setVisit -/

@[simp] theorem crane_setVisit (k : Nat) (v : VisitRec) (s : State) (a : Aisle) : crane (setVisit k v s) a = crane s a :=
  rfl
@[simp] theorem aisleRec_setVisit (k : Nat) (v : VisitRec) (s : State) (a : Aisle) : aisleRec (setVisit k v s) a = aisleRec s a :=
  rfl
@[simp] theorem forkMark_setVisit (k : Nat) (v : VisitRec) (s : State) (a : Aisle) : forkMark (setVisit k v s) a = forkMark s a :=
  rfl
@[simp] theorem station_setVisit (k : Nat) (v : VisitRec) (s : State) (z : Station) : station (setVisit k v s) z = station s z :=
  rfl
@[simp] theorem zone_setVisit (k : Nat) (v : VisitRec) (s : State) (z : Station) : zone (setVisit k v s) z = zone s z := rfl
@[simp] theorem crossingMark_setVisit (k : Nat) (v : VisitRec) (s : State) (z : Station) : crossingMark (setVisit k v s) z = crossingMark s z :=
  rfl
@[simp] theorem conditioner_setVisit (k : Nat) (v : VisitRec) (s : State) (i : FireInput) : conditioner (setVisit k v s) i = conditioner s i :=
  rfl
@[simp] theorem bin_setVisit (k : Nat) (v : VisitRec) (s : State) (b : Nat) : bin (setVisit k v s) b = bin s b := rfl
@[simp] theorem stationPresent_setVisit (k : Nat) (v : VisitRec) (s : State) (z : Station) : stationPresent (setVisit k v s) z = stationPresent s z :=
  rfl
@[simp] theorem aislePresent_setVisit (k : Nat) (v : VisitRec) (s : State) (a : Aisle) : aislePresent (setVisit k v s) a = aislePresent s a :=
  rfl
@[simp] theorem param_setVisit (k : Nat) (v : VisitRec) (s : State) (n : Fin 41) : param (setVisit k v s) n = param s n :=
  rfl
@[simp] theorem zoneClosed_setVisit (k : Nat) (v : VisitRec) (s : State) (z : Station) : zoneClosed (setVisit k v s) z = zoneClosed s z :=
  rfl
@[simp] theorem service_setVisit (k : Nat) (v : VisitRec) (s : State) (a : Aisle) : service (setVisit k v s) a = service s a :=
  rfl

/-! modBin -/

@[simp] theorem crane_modBin (k : Nat) (f : BinRec → BinRec) (s : State) (a : Aisle) : crane (modBin k f s) a = crane s a :=
  crane_congr (modBin_cranes ..) a
@[simp] theorem aisleRec_modBin (k : Nat) (f : BinRec → BinRec) (s : State) (a : Aisle) : aisleRec (modBin k f s) a = aisleRec s a :=
  aisleRec_congr (modBin_aisles ..) a
@[simp] theorem forkMark_modBin (k : Nat) (f : BinRec → BinRec) (s : State) (a : Aisle) : forkMark (modBin k f s) a = forkMark s a :=
  forkMark_congr (modBin_forkMarks ..) a
@[simp] theorem station_modBin (k : Nat) (f : BinRec → BinRec) (s : State) (z : Station) : station (modBin k f s) z = station s z :=
  station_congr (modBin_stations ..) z
@[simp] theorem zone_modBin (k : Nat) (f : BinRec → BinRec) (s : State) (z : Station) : zone (modBin k f s) z = zone s z :=
  zone_congr (modBin_zones ..) z
@[simp] theorem crossingMark_modBin (k : Nat) (f : BinRec → BinRec) (s : State) (z : Station) : crossingMark (modBin k f s) z = crossingMark s z :=
  crossingMark_congr (modBin_crossingMarks ..) z
@[simp] theorem conditioner_modBin (k : Nat) (f : BinRec → BinRec) (s : State) (i : FireInput) : conditioner (modBin k f s) i = conditioner s i :=
  congrArg (·.get i) (modBin_inputs ..)
@[simp] theorem visit_modBin (k : Nat) (f : BinRec → BinRec) (s : State) (n : Nat) : visit (modBin k f s) n = visit s n :=
  congrArg (tableGet · n) (modBin_visits ..)
@[simp] theorem stationPresent_modBin (k : Nat) (f : BinRec → BinRec) (s : State) (z : Station) : stationPresent (modBin k f s) z = stationPresent s z := by
  unfold modBin
  split <;> rfl
@[simp] theorem aislePresent_modBin (k : Nat) (f : BinRec → BinRec) (s : State) (a : Aisle) : aislePresent (modBin k f s) a = aislePresent s a := by
  unfold modBin
  split <;> rfl
@[simp] theorem param_modBin (k : Nat) (f : BinRec → BinRec) (s : State) (n : Fin 41) : param (modBin k f s) n = param s n := by
  unfold modBin
  split <;> rfl
@[simp] theorem zoneClosed_modBin (k : Nat) (f : BinRec → BinRec) (s : State) (z : Station) : zoneClosed (modBin k f s) z = zoneClosed s z := by
  unfold modBin
  split <;> rfl
@[simp] theorem service_modBin (k : Nat) (f : BinRec → BinRec) (s : State) (a : Aisle) : service (modBin k f s) a = service s a := by
  unfold modBin
  split <;> rfl

/-! modVisit -/

@[simp] theorem crane_modVisit (k : Nat) (f : VisitRec → VisitRec) (s : State) (a : Aisle) : crane (modVisit k f s) a = crane s a :=
  crane_congr (modVisit_cranes ..) a
@[simp] theorem aisleRec_modVisit (k : Nat) (f : VisitRec → VisitRec) (s : State) (a : Aisle) : aisleRec (modVisit k f s) a = aisleRec s a :=
  aisleRec_congr (modVisit_aisles ..) a
@[simp] theorem forkMark_modVisit (k : Nat) (f : VisitRec → VisitRec) (s : State) (a : Aisle) : forkMark (modVisit k f s) a = forkMark s a :=
  forkMark_congr (modVisit_forkMarks ..) a
@[simp] theorem station_modVisit (k : Nat) (f : VisitRec → VisitRec) (s : State) (z : Station) : station (modVisit k f s) z = station s z :=
  station_congr (modVisit_stations ..) z
@[simp] theorem zone_modVisit (k : Nat) (f : VisitRec → VisitRec) (s : State) (z : Station) : zone (modVisit k f s) z = zone s z :=
  zone_congr (modVisit_zones ..) z
@[simp] theorem crossingMark_modVisit (k : Nat) (f : VisitRec → VisitRec) (s : State) (z : Station) : crossingMark (modVisit k f s) z = crossingMark s z :=
  crossingMark_congr (modVisit_crossingMarks ..) z
@[simp] theorem conditioner_modVisit (k : Nat) (f : VisitRec → VisitRec) (s : State) (i : FireInput) : conditioner (modVisit k f s) i = conditioner s i :=
  congrArg (·.get i) (modVisit_inputs ..)
@[simp] theorem bin_modVisit (k : Nat) (f : VisitRec → VisitRec) (s : State) (b : Nat) : bin (modVisit k f s) b = bin s b :=
  congrArg (tableGet · b) (modVisit_bins ..)
@[simp] theorem stationPresent_modVisit (k : Nat) (f : VisitRec → VisitRec) (s : State) (z : Station) : stationPresent (modVisit k f s) z = stationPresent s z := by
  unfold modVisit
  split <;> rfl
@[simp] theorem aislePresent_modVisit (k : Nat) (f : VisitRec → VisitRec) (s : State) (a : Aisle) : aislePresent (modVisit k f s) a = aislePresent s a := by
  unfold modVisit
  split <;> rfl
@[simp] theorem param_modVisit (k : Nat) (f : VisitRec → VisitRec) (s : State) (n : Fin 41) : param (modVisit k f s) n = param s n := by
  unfold modVisit
  split <;> rfl
@[simp] theorem zoneClosed_modVisit (k : Nat) (f : VisitRec → VisitRec) (s : State) (z : Station) : zoneClosed (modVisit k f s) z = zoneClosed s z := by
  unfold modVisit
  split <;> rfl
@[simp] theorem service_modVisit (k : Nat) (f : VisitRec → VisitRec) (s : State) (a : Aisle) : service (modVisit k f s) a = service s a := by
  unfold modVisit
  split <;> rfl

/-! sendDrive -/

@[simp] theorem crane_sendDrive (e : Aisle) (m : DriveMsg) (s : State) (a : Aisle) : crane (sendDrive e m s) a = crane s a :=
  rfl
@[simp] theorem aisleRec_sendDrive (e : Aisle) (m : DriveMsg) (s : State) (a : Aisle) : aisleRec (sendDrive e m s) a = aisleRec s a :=
  rfl
@[simp] theorem forkMark_sendDrive (e : Aisle) (m : DriveMsg) (s : State) (a : Aisle) : forkMark (sendDrive e m s) a = forkMark s a :=
  rfl
@[simp] theorem station_sendDrive (e : Aisle) (m : DriveMsg) (s : State) (z : Station) : station (sendDrive e m s) z = station s z :=
  rfl
@[simp] theorem zone_sendDrive (e : Aisle) (m : DriveMsg) (s : State) (z : Station) : zone (sendDrive e m s) z = zone s z :=
  rfl
@[simp] theorem crossingMark_sendDrive (e : Aisle) (m : DriveMsg) (s : State) (z : Station) : crossingMark (sendDrive e m s) z = crossingMark s z :=
  rfl
@[simp] theorem conditioner_sendDrive (e : Aisle) (m : DriveMsg) (s : State) (i : FireInput) : conditioner (sendDrive e m s) i = conditioner s i :=
  rfl
@[simp] theorem bin_sendDrive (e : Aisle) (m : DriveMsg) (s : State) (b : Nat) : bin (sendDrive e m s) b = bin s b := rfl
@[simp] theorem visit_sendDrive (e : Aisle) (m : DriveMsg) (s : State) (n : Nat) : visit (sendDrive e m s) n = visit s n :=
  rfl
@[simp] theorem stationPresent_sendDrive (e : Aisle) (m : DriveMsg) (s : State) (z : Station) : stationPresent (sendDrive e m s) z = stationPresent s z :=
  rfl
@[simp] theorem aislePresent_sendDrive (e : Aisle) (m : DriveMsg) (s : State) (a : Aisle) : aislePresent (sendDrive e m s) a = aislePresent s a :=
  rfl
@[simp] theorem param_sendDrive (e : Aisle) (m : DriveMsg) (s : State) (n : Fin 41) : param (sendDrive e m s) n = param s n :=
  rfl
@[simp] theorem zoneClosed_sendDrive (e : Aisle) (m : DriveMsg) (s : State) (z : Station) : zoneClosed (sendDrive e m s) z = zoneClosed s z :=
  rfl
@[simp] theorem service_sendDrive (e : Aisle) (m : DriveMsg) (s : State) (a : Aisle) : service (sendDrive e m s) a = service s a :=
  rfl

/-! sendPanel -/

@[simp] theorem crane_sendPanel (y : Station) (m : PanelMsg) (s : State) (a : Aisle) : crane (sendPanel y m s) a = crane s a :=
  rfl
@[simp] theorem aisleRec_sendPanel (y : Station) (m : PanelMsg) (s : State) (a : Aisle) : aisleRec (sendPanel y m s) a = aisleRec s a :=
  rfl
@[simp] theorem forkMark_sendPanel (y : Station) (m : PanelMsg) (s : State) (a : Aisle) : forkMark (sendPanel y m s) a = forkMark s a :=
  rfl
@[simp] theorem station_sendPanel (y : Station) (m : PanelMsg) (s : State) (z : Station) : station (sendPanel y m s) z = station s z :=
  rfl
@[simp] theorem zone_sendPanel (y : Station) (m : PanelMsg) (s : State) (z : Station) : zone (sendPanel y m s) z = zone s z :=
  rfl
@[simp] theorem crossingMark_sendPanel (y : Station) (m : PanelMsg) (s : State) (z : Station) : crossingMark (sendPanel y m s) z = crossingMark s z :=
  rfl
@[simp] theorem conditioner_sendPanel (y : Station) (m : PanelMsg) (s : State) (i : FireInput) : conditioner (sendPanel y m s) i = conditioner s i :=
  rfl
@[simp] theorem bin_sendPanel (y : Station) (m : PanelMsg) (s : State) (b : Nat) : bin (sendPanel y m s) b = bin s b := rfl
@[simp] theorem visit_sendPanel (y : Station) (m : PanelMsg) (s : State) (n : Nat) : visit (sendPanel y m s) n = visit s n :=
  rfl
@[simp] theorem stationPresent_sendPanel (y : Station) (m : PanelMsg) (s : State) (z : Station) : stationPresent (sendPanel y m s) z = stationPresent s z :=
  rfl
@[simp] theorem aislePresent_sendPanel (y : Station) (m : PanelMsg) (s : State) (a : Aisle) : aislePresent (sendPanel y m s) a = aislePresent s a :=
  rfl
@[simp] theorem param_sendPanel (y : Station) (m : PanelMsg) (s : State) (n : Fin 41) : param (sendPanel y m s) n = param s n :=
  rfl
@[simp] theorem zoneClosed_sendPanel (y : Station) (m : PanelMsg) (s : State) (z : Station) : zoneClosed (sendPanel y m s) z = zoneClosed s z :=
  rfl
@[simp] theorem service_sendPanel (y : Station) (m : PanelMsg) (s : State) (a : Aisle) : service (sendPanel y m s) a = service s a :=
  rfl

/-! setAttention -/

@[simp] theorem crane_setAttention (k : Nat) (s : State) (a : Aisle) : crane (setAttention k s) a = crane s a := rfl
@[simp] theorem aisleRec_setAttention (k : Nat) (s : State) (a : Aisle) : aisleRec (setAttention k s) a = aisleRec s a :=
  rfl
@[simp] theorem forkMark_setAttention (k : Nat) (s : State) (a : Aisle) : forkMark (setAttention k s) a = forkMark s a :=
  rfl
@[simp] theorem station_setAttention (k : Nat) (s : State) (z : Station) : station (setAttention k s) z = station s z := rfl
@[simp] theorem zone_setAttention (k : Nat) (s : State) (z : Station) : zone (setAttention k s) z = zone s z := rfl
@[simp] theorem crossingMark_setAttention (k : Nat) (s : State) (z : Station) : crossingMark (setAttention k s) z = crossingMark s z :=
  rfl
@[simp] theorem conditioner_setAttention (k : Nat) (s : State) (i : FireInput) : conditioner (setAttention k s) i = conditioner s i :=
  rfl
@[simp] theorem bin_setAttention (k : Nat) (s : State) (b : Nat) : bin (setAttention k s) b = bin s b := rfl
@[simp] theorem visit_setAttention (k : Nat) (s : State) (n : Nat) : visit (setAttention k s) n = visit s n := rfl
@[simp] theorem stationPresent_setAttention (k : Nat) (s : State) (z : Station) : stationPresent (setAttention k s) z = stationPresent s z :=
  rfl
@[simp] theorem aislePresent_setAttention (k : Nat) (s : State) (a : Aisle) : aislePresent (setAttention k s) a = aislePresent s a :=
  rfl
@[simp] theorem param_setAttention (k : Nat) (s : State) (n : Fin 41) : param (setAttention k s) n = param s n := rfl
@[simp] theorem zoneClosed_setAttention (k : Nat) (s : State) (z : Station) : zoneClosed (setAttention k s) z = zoneClosed s z :=
  rfl
@[simp] theorem service_setAttention (k : Nat) (s : State) (a : Aisle) : service (setAttention k s) a = service s a := rfl

/-! addHoldWhere -/

@[simp] theorem crane_addHoldWhere (r : HoldReason) (p : Nat → VisitRec → Bool) (s : State) (a : Aisle) : crane (addHoldWhere r p s) a = crane s a :=
  rfl
@[simp] theorem aisleRec_addHoldWhere (r : HoldReason) (p : Nat → VisitRec → Bool) (s : State) (a : Aisle) : aisleRec (addHoldWhere r p s) a = aisleRec s a :=
  rfl
@[simp] theorem forkMark_addHoldWhere (r : HoldReason) (p : Nat → VisitRec → Bool) (s : State) (a : Aisle) : forkMark (addHoldWhere r p s) a = forkMark s a :=
  rfl
@[simp] theorem station_addHoldWhere (r : HoldReason) (p : Nat → VisitRec → Bool) (s : State) (z : Station) : station (addHoldWhere r p s) z = station s z :=
  rfl
@[simp] theorem zone_addHoldWhere (r : HoldReason) (p : Nat → VisitRec → Bool) (s : State) (z : Station) : zone (addHoldWhere r p s) z = zone s z :=
  rfl
@[simp] theorem crossingMark_addHoldWhere (r : HoldReason) (p : Nat → VisitRec → Bool) (s : State) (z : Station) : crossingMark (addHoldWhere r p s) z = crossingMark s z :=
  rfl
@[simp] theorem conditioner_addHoldWhere (r : HoldReason) (p : Nat → VisitRec → Bool) (s : State) (i : FireInput) : conditioner (addHoldWhere r p s) i = conditioner s i :=
  rfl
@[simp] theorem bin_addHoldWhere (r : HoldReason) (p : Nat → VisitRec → Bool) (s : State) (b : Nat) : bin (addHoldWhere r p s) b = bin s b :=
  rfl
@[simp] theorem stationPresent_addHoldWhere (r : HoldReason) (p : Nat → VisitRec → Bool) (s : State) (z : Station) : stationPresent (addHoldWhere r p s) z = stationPresent s z :=
  rfl
@[simp] theorem aislePresent_addHoldWhere (r : HoldReason) (p : Nat → VisitRec → Bool) (s : State) (a : Aisle) : aislePresent (addHoldWhere r p s) a = aislePresent s a :=
  rfl
@[simp] theorem param_addHoldWhere (r : HoldReason) (p : Nat → VisitRec → Bool) (s : State) (n : Fin 41) : param (addHoldWhere r p s) n = param s n :=
  rfl
@[simp] theorem zoneClosed_addHoldWhere (r : HoldReason) (p : Nat → VisitRec → Bool) (s : State) (z : Station) : zoneClosed (addHoldWhere r p s) z = zoneClosed s z :=
  rfl
@[simp] theorem service_addHoldWhere (r : HoldReason) (p : Nat → VisitRec → Bool) (s : State) (a : Aisle) : service (addHoldWhere r p s) a = service s a :=
  rfl

/-! addHold -/

@[simp] theorem crane_addHold (r : HoldReason) (k : Nat) (s : State) (a : Aisle) : crane (addHold r k s) a = crane s a :=
  rfl
@[simp] theorem aisleRec_addHold (r : HoldReason) (k : Nat) (s : State) (a : Aisle) : aisleRec (addHold r k s) a = aisleRec s a :=
  rfl
@[simp] theorem forkMark_addHold (r : HoldReason) (k : Nat) (s : State) (a : Aisle) : forkMark (addHold r k s) a = forkMark s a :=
  rfl
@[simp] theorem station_addHold (r : HoldReason) (k : Nat) (s : State) (z : Station) : station (addHold r k s) z = station s z :=
  rfl
@[simp] theorem zone_addHold (r : HoldReason) (k : Nat) (s : State) (z : Station) : zone (addHold r k s) z = zone s z := rfl
@[simp] theorem crossingMark_addHold (r : HoldReason) (k : Nat) (s : State) (z : Station) : crossingMark (addHold r k s) z = crossingMark s z :=
  rfl
@[simp] theorem conditioner_addHold (r : HoldReason) (k : Nat) (s : State) (i : FireInput) : conditioner (addHold r k s) i = conditioner s i :=
  rfl
@[simp] theorem bin_addHold (r : HoldReason) (k : Nat) (s : State) (b : Nat) : bin (addHold r k s) b = bin s b := rfl
@[simp] theorem stationPresent_addHold (r : HoldReason) (k : Nat) (s : State) (z : Station) : stationPresent (addHold r k s) z = stationPresent s z :=
  rfl
@[simp] theorem aislePresent_addHold (r : HoldReason) (k : Nat) (s : State) (a : Aisle) : aislePresent (addHold r k s) a = aislePresent s a :=
  rfl
@[simp] theorem param_addHold (r : HoldReason) (k : Nat) (s : State) (n : Fin 41) : param (addHold r k s) n = param s n :=
  rfl
@[simp] theorem zoneClosed_addHold (r : HoldReason) (k : Nat) (s : State) (z : Station) : zoneClosed (addHold r k s) z = zoneClosed s z :=
  rfl
@[simp] theorem service_addHold (r : HoldReason) (k : Nat) (s : State) (a : Aisle) : service (addHold r k s) a = service s a :=
  rfl

/-! liftHoldWhere -/

@[simp] theorem crane_liftHoldWhere (r : HoldReason) (p : Nat → VisitRec → Bool) (s : State) (a : Aisle) : crane (liftHoldWhere r p s) a = crane s a :=
  rfl
@[simp] theorem aisleRec_liftHoldWhere (r : HoldReason) (p : Nat → VisitRec → Bool) (s : State) (a : Aisle) : aisleRec (liftHoldWhere r p s) a = aisleRec s a :=
  rfl
@[simp] theorem forkMark_liftHoldWhere (r : HoldReason) (p : Nat → VisitRec → Bool) (s : State) (a : Aisle) : forkMark (liftHoldWhere r p s) a = forkMark s a :=
  rfl
@[simp] theorem station_liftHoldWhere (r : HoldReason) (p : Nat → VisitRec → Bool) (s : State) (z : Station) : station (liftHoldWhere r p s) z = station s z :=
  rfl
@[simp] theorem zone_liftHoldWhere (r : HoldReason) (p : Nat → VisitRec → Bool) (s : State) (z : Station) : zone (liftHoldWhere r p s) z = zone s z :=
  rfl
@[simp] theorem crossingMark_liftHoldWhere (r : HoldReason) (p : Nat → VisitRec → Bool) (s : State) (z : Station) : crossingMark (liftHoldWhere r p s) z = crossingMark s z :=
  rfl
@[simp] theorem conditioner_liftHoldWhere (r : HoldReason) (p : Nat → VisitRec → Bool) (s : State) (i : FireInput) : conditioner (liftHoldWhere r p s) i = conditioner s i :=
  rfl
@[simp] theorem bin_liftHoldWhere (r : HoldReason) (p : Nat → VisitRec → Bool) (s : State) (b : Nat) : bin (liftHoldWhere r p s) b = bin s b :=
  rfl
@[simp] theorem stationPresent_liftHoldWhere (r : HoldReason) (p : Nat → VisitRec → Bool) (s : State) (z : Station) : stationPresent (liftHoldWhere r p s) z = stationPresent s z :=
  rfl
@[simp] theorem aislePresent_liftHoldWhere (r : HoldReason) (p : Nat → VisitRec → Bool) (s : State) (a : Aisle) : aislePresent (liftHoldWhere r p s) a = aislePresent s a :=
  rfl
@[simp] theorem param_liftHoldWhere (r : HoldReason) (p : Nat → VisitRec → Bool) (s : State) (n : Fin 41) : param (liftHoldWhere r p s) n = param s n :=
  rfl
@[simp] theorem zoneClosed_liftHoldWhere (r : HoldReason) (p : Nat → VisitRec → Bool) (s : State) (z : Station) : zoneClosed (liftHoldWhere r p s) z = zoneClosed s z :=
  rfl
@[simp] theorem service_liftHoldWhere (r : HoldReason) (p : Nat → VisitRec → Bool) (s : State) (a : Aisle) : service (liftHoldWhere r p s) a = service s a :=
  rfl

end Sys2Proof.Machine

/-! Cancellations (R35, R42, R43, R87, R111): what a task gives back, the end of a cancelled visit, and the two commands. -/

namespace Sys2Proof.Machine

/-! ### The command buffer -/

section
variable {m : List Byte}

theorem commutes_comp {f g : State → State} (hf : Commutes m f) (hg : Commutes m g) : Commutes m (fun s => f (g s)) :=
  fun s => (congrArg f (hg s)).trans (hf (g s))

theorem commutes_releaseReservation (n : Nat) : Commutes m (releaseReservation n) := by
  intro s
  have hv : visit (loadCommand m s) n = visit s n := rfl
  have ha (b : Nat) : binAisle (loadCommand m s) b = binAisle s b := rfl
  simp only [releaseReservation, hv, ha]
  cases visit s n with
  | none => rfl
  | some v =>
    by_cases hr : v.reservation = true
    · simp only [hr, if_true]
      cases binAisle s v.bin <;> rfl
    · simp only [hr, Bool.false_eq_true, if_false]

theorem commutes_endVisit (n : Nat) (st : VisitState) (o : VisitOutcome) : Commutes m (endVisit n st o) := by
  intro s
  have hv : visit (loadCommand m s) n = visit s n := rfl
  simp only [endVisit, hv, commutes_releaseReservation n s]
  cases visit s n with
  | none => rfl
  | some v =>
    have hset (w : VisitRec) (u : State) : setVisit n w (loadCommand m u) = loadCommand m (setVisit n w u) := rfl
    by_cases ho : o = .done
    · simp only [hset, ho, if_true, commutes_modBin _ _ _]
      rfl
    · simp only [hset, ho, if_false, commutes_modBin _ _ _]
      rfl

theorem commutes_cancelLeg (a : Aisle) (n : Nat) : Commutes m (cancelLeg a n) := by
  intro s
  have hc : crane (loadCommand m s) a = crane s a := rfl
  simp only [cancelLeg, hc]
  split <;> split <;> (try split) <;> (try split) <;> rfl

theorem setSlot_loadCommand (sl : Slot) (e : SlotEntry) (s : State) :
    setSlot sl e (loadCommand m s) = loadCommand m (setSlot sl e s) := rfl

theorem commutes_endCancelled (n : Nat) (v : VisitRec) : Commutes m (endCancelled n v) := by
  intro s
  have ha : binAisle (loadCommand m s) v.bin = binAisle s v.bin := rfl
  simp only [endCancelled, ha, commutes_endVisit n .cancelled .cancelled s]
  split <;> split <;> simp only [setSlot_loadCommand, commutes_cancelLeg _ n _]

theorem commutes_releaseTask (b : Nat) (k : TaskRec) : Commutes m (releaseTask b k) := by
  intro s
  unfold releaseTask
  split
  · exact commutes_modBin b _ { s with pendingLends := s.pendingLends - 1 }
  · split
    · exact setRecordState_load m _ _ _ s
    · rfl
  · exact commutes_modBin b _ s
  · rfl

theorem commutes_releasePending (b : Nat) (ks : List TaskRec) : Commutes m (releasePending b ks) := by
  induction ks with
  | nil => exact fun _ => rfl
  | cons k ks ih =>
    intro s
    simp only [releasePending]
    by_cases hk : k.state = .pending
    · simp only [hk, if_true, commutes_releaseTask b k s, ih _]
    · simp only [hk, if_false, ih _]

theorem commutes_showPending (z : Station) (i : Nat) (ks : List TaskRec) : Commutes m (showPending z i ks) := by
  intro s
  rw [showPending_eq, showPending_eq]
  rfl

theorem commutes_resendTasks (z : Station) : Commutes m (resendTasks z) := by
  intro s
  have hf : station (loadCommand m s) z = station s z := rfl
  have hv (n : Nat) : visit (loadCommand m s) n = visit s n := rfl
  simp only [resendTasks, hf, hv]
  split
  · rfl
  · split
    · rfl
    · split
      · exact commutes_showPending z 0 _ (sendPanel z .clear s)
      · rfl

end

/-! ### What a task gives back -/

section
variable {b n : Nat} {k : TaskRec} {r : BinRec} {s u : State} {v : VisitRec} {a : Aisle}

theorem releaseTask_lend (hb : bin s b = some r) (hk : k.kind = .lend) : releaseTask b k s =
    setBin b { r with lendHolds := r.lendHolds - 1 } { s with pendingLends := s.pendingLends - 1 } := by
  have hbin : bin { s with pendingLends := s.pendingLends - 1 } b = some r := hb
  simp only [releaseTask, hk, modBin_of_some hbin]

theorem releaseTask_return {key : ItemKey} {w : WithdrawalRec} (hk : k.kind = .return) (hkey : k.key = some key)
    (hw : withdrawal s key = some w) : releaseTask b k s = { s with
      withdrawals := tablePut s.withdrawals (lookup s.withdrawals key).bucket
        { w with state := .out, returnVisit := none } } := by
  simp only [releaseTask, hk, hkey, setRecordState_of_some hw]

theorem releaseTask_refile (hb : bin s b = some r) (hk : k.kind = .refile) :
    releaseTask b k s = setBin b { r with refileHolds := r.refileHolds - 1 } s := by
  simp only [releaseTask, hk, modBin_of_some hb]

theorem releaseTask_fetch (hk : k.kind = .fetch) : releaseTask b k s = s := by
  simp only [releaseTask, hk]

/-- What the giving back of a task leaves of the places that a cancellation looks at. -/
structure SamePlaces (s u : State) : Prop where
  cranes    : u.cranes = s.cranes
  forkMarks : u.forkMarks = s.forkMarks
  bins      : ∀ b, (bin u b).map (fun r => (r.home, r.location)) = (bin s b).map (fun r => (r.home, r.location))

theorem SamePlaces.refl : SamePlaces s s := ⟨rfl, rfl, fun _ => rfl⟩

theorem SamePlaces.trans {t : State} (h : SamePlaces s t) (g : SamePlaces t u) : SamePlaces s u :=
  ⟨g.cranes.trans h.cranes, g.forkMarks.trans h.forkMarks, fun b => (g.bins b).trans (h.bins b)⟩

theorem SamePlaces.of_eq (hc : u.cranes = s.cranes) (hf : u.forkMarks = s.forkMarks) (hb : u.bins = s.bins) :
    SamePlaces s u :=
  ⟨hc, hf, fun b => by rw [bin, bin, hb]⟩

theorem samePlaces_modBin {f : BinRec → BinRec} (hh : ∀ r, (f r).home = r.home) (hl : ∀ r, (f r).location = r.location) :
    SamePlaces s (modBin b f s) where
  cranes := modBin_cranes ..
  forkMarks := modBin_forkMarks ..
  bins c := by
    rw [bin_modBin]
    split
    next hc =>
      subst hc
      cases bin s c <;> simp [hh, hl]
    next => rfl

theorem samePlaces_setRecordState (key : ItemKey) (st : WithdrawalState) (x : Option Nat) :
    SamePlaces s (setRecordState key st x s) := by
  simp only [setRecordState]
  split
  · split <;> exact .of_eq rfl rfl rfl
  · exact .refl

theorem samePlaces_releaseTask (b : Nat) (k : TaskRec) (s : State) : SamePlaces s (releaseTask b k s) := by
  unfold releaseTask
  split
  · have hcount : SamePlaces s { s with pendingLends := s.pendingLends - 1 } := .of_eq rfl rfl rfl
    exact hcount.trans (samePlaces_modBin (fun _ => rfl) fun _ => rfl)
  · split
    · exact samePlaces_setRecordState _ _ _
    · exact .refl
  · exact samePlaces_modBin (fun _ => rfl) fun _ => rfl
  · exact .refl

theorem samePlaces_resendTasks (z : Station) (s : State) : SamePlaces s (resendTasks z s) := by
  simp only [resendTasks]
  split
  · exact .of_eq rfl rfl rfl
  · split
    · exact .of_eq rfl rfl rfl
    · split
      · rw [showPending_eq]
        exact .of_eq rfl rfl rfl
      · exact .of_eq rfl rfl rfl

theorem binAisle_samePlaces (h : SamePlaces s u) (b : Nat) : binAisle u b = binAisle s b := by
  have hb := congrArg (Option.map fun x : Slot × Location => x.1.aisle) (h.bins b)
  rw [Option.map_map, Option.map_map] at hb
  exact hb

theorem inHomeSlot_samePlaces (h : SamePlaces s u) (b : Nat) : inHomeSlot u b = inHomeSlot s b := by
  have hpick (a : Aisle) : pickInFlight u a b = pickInFlight s a b := by
    simp only [pickInFlight, crane, forkMark, h.cranes, h.forkMarks]
  have hb := h.bins b
  unfold inHomeSlot
  cases hs : bin s b with
  | none =>
    rw [hs, Option.map_none, Option.map_eq_none_iff] at hb
    simp only [hb]
  | some r =>
    rw [hs, Option.map_some, Option.map_eq_some_iff] at hb
    obtain ⟨q, hq, heq⟩ := hb
    obtain ⟨hhome, hloc⟩ := Prod.mk.inj heq
    simp only [hq, hhome, hloc, hpick]

theorem inHomeSlot_iff (hb : bin s b = some r) : inHomeSlot s b = true ↔ r.location = .slot ∧
    ¬∃ g, (crane s r.home.aisle).segment = some g ∧ g.kind = .forkPick ∧ forkMark s r.home.aisle = some b := by
  simp only [inHomeSlot, hb, pickInFlight]
  cases (crane s r.home.aisle).segment with
  | none => simp
  | some g => simp [imp_iff_not_or]

/-! ### The leg of a cancelled visit -/

theorem crane_cancelLeg (a : Aisle) (n : Nat) (s : State) : crane (cancelLeg a n s) a = { crane s a with
      leg := (crane s a).leg.bind fun l => if l.visit ≠ n then some l
        else if (crane s a).state = .retryWait then none else some { l with cancelled := true }
      dropped := (crane s a).dropped.bind fun l => if l.visit = n then none else some l } := by
  rcases hc : crane s a with ⟨_, _, _, _, leg, dropped⟩
  cases leg <;> cases dropped <;> simp only [cancelLeg, hc] <;> (try split) <;> (try split) <;> simp_all [setLeg]

theorem forkMark_cancelLeg (a : Aisle) (n : Nat) (s : State) : forkMark (cancelLeg a n s) a =
    if (crane s a).leg.any (·.visit == n) then none else forkMark s a := by
  rcases hl : (crane s a).leg with _ | l <;> simp only [cancelLeg, hl] <;> split <;> (try split) <;> (try split) <;>
    simp_all [setLeg]

theorem cancelLeg_others {a b : Aisle} (h : b ≠ a) (n : Nat) (s : State) :
    crane (cancelLeg a n s) b = crane s b ∧ forkMark (cancelLeg a n s) b = forkMark s b := by
  simp only [cancelLeg]
  split <;> split <;> (try split) <;> (try split) <;> simp [setLeg, crane_setCrane_ne h, forkMark_setForkMark_ne h]

theorem cancelLeg_frame (a : Aisle) (n : Nat) (s : State) :
    { cancelLeg a n s with cranes := s.cranes, forkMarks := s.forkMarks } = s := by
  simp only [cancelLeg]
  split <;> split <;> (try split) <;> (try split) <;> rfl

end

end Sys2Proof.Machine

/-! Cancel Task and Cancel Visit (R42, R43): their refusals, and what each leaves. -/

namespace Sys2Proof.Machine

section
variable {p : List Byte} {s u : State} {v w : VisitRec} {k : TaskRec} {r : BinRec} {code : OutcomeCode} {n : Nat}

/-! ### Refusals -/

theorem badCancel_iff (p : List Byte) :
    (badVisit (byteAt p 0) || decide (Config.taskLimit ≤ byteAt p 1)) = true ↔ 64 ≤ byteAt p 0 ∨ 8 ≤ byteAt p 1 := by
  rw [Bool.or_eq_true, badVisit_iff, decide_eq_true_iff]
  rfl

theorem goodCancel (hn : byteAt p 0 < 64) (hi : byteAt p 1 < 8) :
    (badVisit (byteAt p 0) || decide (Config.taskLimit ≤ byteAt p 1)) = false := by
  rw [badVisit_eq_false.mpr hn, Bool.false_or]
  exact decide_eq_false (Nat.not_le.mpr hi)

theorem runCancelTask_badValue (h : 64 ≤ byteAt p 0 ∨ 8 ≤ byteAt p 1) : runCancelTask p s = .refuse .badValue [] :=
  if_pos ((badCancel_iff p).mpr h)

theorem runCancelTask_noSuchVisit (hn : byteAt p 0 < 64) (hi : byteAt p 1 < 8) (hv : visit s (byteAt p 0) = none) :
    runCancelTask p s = .refuse .noSuchVisit [] :=
  (refuseIf_passes (goodCancel hn hi)).trans (by rw [hv]; rfl)

theorem not_isOpen_iff (v : VisitRec) : (!isOpen v) = true ↔ v.outcome ≠ none := by
  rw [Bool.not_eq_true', isOpen_eq_false]

theorem runCancelTask_refuses (hn : byteAt p 0 < 64) (hi : byteAt p 1 < 8) (hv : visit s (byteAt p 0) = some v)
    (hc : FirstFailing [(v.outcome ≠ none, .state), (v.tasks.length ≤ byteAt p 1, .noSuchTask),
      (∃ k, v.tasks[byteAt p 1]? = some k ∧ k.state ≠ .pending, .state)] code) : runCancelTask p s = .refuse code [] := by
  refine (refuseIf_passes (goodCancel hn hi)).trans ((withSome_passes hv).trans ?_)
  refine refuseIf_first (not_isOpen_iff v) (withSome_first List.getElem?_eq_none_iff fun k hk => ?_) hc
  refine refuseIf_first ?_ False.elim
  simp [hk]

theorem runCancelVisit_badValue (h : 64 ≤ byteAt p 0) : runCancelVisit p s = .refuse .badValue [] :=
  if_pos ((badVisit_iff _).mpr h)

theorem runCancelVisit_noSuchVisit (hn : byteAt p 0 < 64) (hv : visit s (byteAt p 0) = none) :
    runCancelVisit p s = .refuse .noSuchVisit [] :=
  (refuseIf_passes (badVisit_eq_false.mpr hn)).trans (by rw [hv]; rfl)

theorem runCancelVisit_ended (hn : byteAt p 0 < 64) (hv : visit s (byteAt p 0) = some v) (ho : v.outcome ≠ none) :
    runCancelVisit p s = .refuse .state [] :=
  (refuseIf_passes (badVisit_eq_false.mpr hn)).trans ((withSome_passes hv).trans (if_pos ((not_isOpen_iff v).mpr ho)))

/-! ### The event of a visit -/

theorem binAisle_of_some {b : Nat} (hb : bin s b = some r) : binAisle s b = some r.home.aisle := by
  rw [binAisle, hb, Option.map_some]

theorem visitEvent_eq (hb : bin s v.bin = some r) (f : State → State) :
    visitEvent v f s = settleZone s (zoneOf r.home.aisle) (f s) := by
  rw [visitEvent, binAisle_of_some hb]
  rfl

/-! ### Cancel Task -/

theorem cancelledTask_of_pending (h : k.state = .pending) : cancelledTask k = { k with state := .cancelled } := if_pos h

theorem reshow_eq {a : Aisle} (ha : binAisle s v.bin = some a) :
    reshow v s = (if v.state = .atFace then resendTasks (zoneOf a) else id) s := by
  unfold reshow
  split
  next hv ha' =>
    rw [if_pos hv, Option.some.inj (ha.symm.trans ha')]
  next h =>
    rw [if_neg fun hv => h a hv ha]
    rfl

theorem visits_resendTasks (z : Station) (s : State) : (resendTasks z s).visits = s.visits := by
  simp only [resendTasks]
  split
  · rfl
  · split
    · rfl
    · split
      · rw [showPending_eq]
        rfl
      · rfl

/-- The state before the visit may end, in Cancel Task (R42). -/
theorem cancelTask_eq (hb : bin s v.bin = some r) (hk : k.state = .pending) {i : Nat}
    (hw : w = v.withTasks (v.tasks.set i { k with state := .cancelled }))
    (hu : u = (if v.state = .atFace then resendTasks (zoneOf r.home.aisle) else id) (setVisit n w (releaseTask v.bin k s))) :
    cancelTask n v i k s =
      if v.kind = .delivery ∧ hasPending w = false ∧ inHomeSlot s v.bin = true then endCancelled n w u else u := by
  have hset : SamePlaces s (setVisit n w (releaseTask v.bin k s)) :=
    (samePlaces_releaseTask v.bin k s).trans (.of_eq rfl rfl rfl)
  have hsame : SamePlaces s u := by
    rw [hu]
    split
    · exact hset.trans (samePlaces_resendTasks _ _)
    · exact hset
  have hvisit : visit u n = some w := by
    have : u.visits = (setVisit n w (releaseTask v.bin k s)).visits := by
      rw [hu]
      split
      · exact visits_resendTasks ..
      · rfl
    rw [visit, this]
    exact tableGet_put_same _ _ _
  have hshow : reshow w (setVisit n w (releaseTask v.bin k s)) = u := by
    have hw' : w.state = v.state ∧ w.bin = v.bin := by rw [hw]; exact ⟨rfl, rfl⟩
    rw [reshow_eq (a := r.home.aisle), hw'.1, hu]
    rw [hw'.2, binAisle_samePlaces hset, binAisle_of_some hb]
  have hcancel : cancelTask n v i k s = endIfIdle n u := by
    rw [cancelTask, cancelledTask_of_pending hk, ← hw, hshow]
  have hkind : w.kind = v.kind ∧ w.bin = v.bin := by rw [hw]; exact ⟨rfl, rfl⟩
  simp only [hcancel, endIfIdle, hvisit, hkind.1, hkind.2, inHomeSlot_samePlaces hsame]

theorem runCancelTask_cancels (hn : byteAt p 0 < 64) (hi : byteAt p 1 < 8) (hv : visit s (byteAt p 0) = some v)
    (ho : v.outcome = none) (hk : v.tasks[byteAt p 1]? = some k) (hpending : k.state = .pending)
    (hb : bin s v.bin = some r) : runCancelTask p s = .reply .done []
      (settleZone s (zoneOf r.home.aisle) (cancelTask (byteAt p 0) v (byteAt p 1) k s)) := by
  refine (refuseIf_passes (goodCancel hn hi)).trans ((withSome_passes hv).trans ?_)
  refine (refuseIf_passes (by simpa using (isOpen_iff v).mpr ho)).trans ((withSome_passes hk).trans ?_)
  refine (refuseIf_passes (by simp [hpending])).trans ?_
  rw [visitEvent_eq hb]
  rfl

/-! ### Cancel Visit -/

/-- The state before the visit may end, in Cancel Visit (R43). -/
theorem cancelVisit_eq (hb : bin s v.bin = some r)
    (hw : w = v.withTasks (v.tasks.map fun k => if k.state = .pending then { k with state := .cancelled } else k))
    (hu : u = (if v.state = .atFace then sendPanel (zoneOf r.home.aisle) .clear else id)
      (setVisit n w (releasePending v.bin v.tasks s))) :
    cancelVisit n v s = if inHomeSlot s v.bin then endCancelled n w u else u := by
  have hclear : (match v.state, binAisle s v.bin with
      | .atFace, some a => sendPanel (zoneOf a) .clear (cancelTasks n v s)
      | _, _ => cancelTasks n v s) = u := by
    have ha := binAisle_of_some hb
    subst hw hu
    split
    next hv ha' =>
      rw [if_pos hv, ← Option.some.inj (ha.symm.trans ha')]
      rfl
    next h =>
      rw [if_neg fun hv => h _ hv ha]
      rfl
  have hvisit : visit u n = some w := by
    rw [hu]
    split <;> exact tableGet_put_same _ _ _
  have hcancel : cancelVisit n v s = if inHomeSlot s v.bin then
      match visit u n with
      | some w => endCancelled n w u
      | none => u
    else u := by
    rw [← hclear]
    rfl
  rw [hcancel, hvisit]

theorem runCancelVisit_cancels (hn : byteAt p 0 < 64) (hv : visit s (byteAt p 0) = some v) (ho : v.outcome = none)
    (hb : bin s v.bin = some r) : runCancelVisit p s = .reply .done (byte (if inHomeSlot s v.bin then 0 else 1))
      (settleZone s (zoneOf r.home.aisle) (cancelVisit (byteAt p 0) v s)) := by
  refine (refuseIf_passes (badVisit_eq_false.mpr hn)).trans ((withSome_passes hv).trans ?_)
  refine (refuseIf_passes (by simpa using (isOpen_iff v).mpr ho)).trans ?_
  rw [visitEvent_eq hb]
  rfl

/-! ### The command buffer -/

theorem commutes_choice {m : List Byte} {q : Prop} [Decidable q] {f g : State → State} (hf : Commutes m f)
    (hg : Commutes m g) : Commutes m (if q then f else g) := by
  split
  · exact hf
  · exact hg

theorem commutes_id {m : List Byte} : Commutes m id := fun _ => rfl

theorem commutes_cancelTaskState {m : List Byte} {q : Prop} [Decidable q] {z : Station} {n b : Nat} {w : VisitRec}
    {k : TaskRec} :
    Commutes m fun s => (if q then resendTasks z else id) (setVisit n w (releaseTask b k s)) :=
  commutes_comp (commutes_choice (commutes_resendTasks z) commutes_id)
    (commutes_comp (f := setVisit n w) (fun _ => rfl) (commutes_releaseTask b k))

theorem commutes_cancelVisitState {m : List Byte} {q : Prop} [Decidable q] {z : Station} {n b : Nat} {w : VisitRec}
    {ks : List TaskRec} :
    Commutes m fun s => (if q then sendPanel z .clear else id) (setVisit n w (releasePending b ks s)) :=
  commutes_comp (commutes_choice (f := sendPanel z .clear) (fun _ => rfl) commutes_id)
    (commutes_comp (f := setVisit n w) (fun _ => rfl) (commutes_releasePending b ks))

/-- An end that a condition on the state before decides. -/
theorem commutes_endIf {m : List Byte} (q : Prop) [Decidable q] (n : Nat) (w : VisitRec) (u : State) :
    (if q then endCancelled n w (loadCommand m u) else loadCommand m u) =
      loadCommand m (if q then endCancelled n w u else u) := by
  split
  · exact commutes_endCancelled n w u
  · rfl

end

/-! ### The end of a cancelled visit -/

/-- The state a cancelled visit ends in, before its leg is cut (R16, R43). -/
def endedState (n : Nat) (v : VisitRec) (s : State) : State :=
  match v.kind, v.target with
  | .relocation, some sl => setSlot sl .empty (endVisit n .cancelled .cancelled s)
  | _, _ => endVisit n .cancelled .cancelled s

theorem endCancelled_eq {n : Nat} {v : VisitRec} {r : BinRec} {s : State} (hb : bin s v.bin = some r) :
    endCancelled n v s = cancelLeg r.home.aisle n (endedState n v s) := by
  simp only [endCancelled, binAisle_of_some hb]
  rfl

theorem endVisit_cranes {n : Nat} {st : VisitState} {o : VisitOutcome} {v : VisitRec} {r : BinRec} {s : State}
    (hv : visit s n = some v) (hb : bin s v.bin = some r) :
    (endVisit n st o s).cranes = s.cranes ∧ (endVisit n st o s).forkMarks = s.forkMarks := by
  rw [endVisit_eq hv hb]
  unfold givenBack
  split <;> exact ⟨rfl, rfl⟩

theorem endedState_cranes {n : Nat} {v : VisitRec} {r : BinRec} {s : State} (hv : visit s n = some v)
    (hb : bin s v.bin = some r) : (endedState n v s).cranes = s.cranes := by
  unfold endedState
  split <;> exact (endVisit_cranes hv hb).1

theorem endedState_forkMarks {n : Nat} {v : VisitRec} {r : BinRec} {s : State} (hv : visit s n = some v)
    (hb : bin s v.bin = some r) : (endedState n v s).forkMarks = s.forkMarks := by
  unfold endedState
  split <;> exact (endVisit_cranes hv hb).2

theorem endCancelled_act {n : Nat} {v : VisitRec} {r : BinRec} {s : State} {a : Aisle} (hv : visit s n = some v)
    (hb : bin s v.bin = some r) (ha : a = r.home.aisle) :
    crane (endCancelled n v s) a = { crane s a with
      leg := (crane s a).leg.bind fun l => if l.visit ≠ n then some l
        else if (crane s a).state = .retryWait then none else some { l with cancelled := true }
      dropped := (crane s a).dropped.bind fun l => if l.visit = n then none else some l } ∧
    forkMark (endCancelled n v s) a = (if (crane s a).leg.any (·.visit == n) then none else forkMark s a) ∧
    (∀ b : Aisle, b ≠ a → crane (endCancelled n v s) b = crane s b ∧ forkMark (endCancelled n v s) b = forkMark s b) ∧
    { endCancelled n v s with cranes := s.cranes, forkMarks := s.forkMarks } = endedState n v s := by
  have hc : (endedState n v s).cranes = s.cranes := endedState_cranes hv hb
  have hf : (endedState n v s).forkMarks = s.forkMarks := endedState_forkMarks hv hb
  have hcrane (b : Aisle) : crane (endedState n v s) b = crane s b := crane_congr hc b
  have hmark (b : Aisle) : forkMark (endedState n v s) b = forkMark s b := forkMark_congr hf b
  rw [endCancelled_eq hb, ← ha]
  refine ⟨?_, ?_, fun b h => ?_, ?_⟩
  · rw [crane_cancelLeg, hcrane]
  · rw [forkMark_cancelLeg, hcrane, hmark]
  · rw [(cancelLeg_others h n _).1, (cancelLeg_others h n _).2, hcrane, hmark]
    exact ⟨rfl, rfl⟩
  · rw [← hc, ← hf]
    exact cancelLeg_frame a n _

/-- Settles O27. -/
theorem workIsCancelled : Obligations.WorkIsCancelled := by
  refine ⟨fun b k r s hb => ⟨releaseTask_lend hb, fun key w hk hkey hw => releaseTask_return hk hkey hw,
      releaseTask_refile hb, releaseTask_fetch, rfl, fun ks => rfl⟩, ?_, fun s b r hb => inHomeSlot_iff hb, ?_, ?_⟩
  · rintro n v r a s t hv hb ha rfl
    exact endCancelled_act hv hb ha
  · intro p s hs hm
    have service := modeCheck_service hm
    refine ⟨fun hp => ⟨fun h => ?_, fun hn hi hv => ?_, fun v hn hi hv code hc => ?_⟩,
      fun hp => ⟨fun h => ?_, fun hn hv => ?_, fun v hn hv ho => ?_⟩⟩
    · exact congrArg _ (takeCommand_refuses hs hp (by decide) service (runCancelTask_badValue h))
    · exact congrArg _ (takeCommand_refuses hs hp (by decide) service (runCancelTask_noSuchVisit hn hi hv))
    · exact congrArg _ (takeCommand_refuses hs hp (by decide) service (runCancelTask_refuses hn hi hv hc))
    · exact congrArg _ (takeCommand_refuses hs hp (by decide) service (runCancelVisit_badValue h))
    · exact congrArg _ (takeCommand_refuses hs hp (by decide) service (runCancelVisit_noSuchVisit hn hv))
    · exact congrArg _ (takeCommand_refuses hs hp (by decide) service (runCancelVisit_ended hn hv ho))
  · intro p s v r hs hm hn hv ho hb
    have service := modeCheck_service hm
    refine ⟨fun k w u hp hi hk hpending hw hu => ?_, fun w u hp hw hu => ?_⟩
    · refine ⟨_, settles_settleZone _ _ _, congrArg _ (takeCommand_settles hs hp (by decide) service fun x => ?_)⟩
      rw [runCancelTask_cancels (s := loadCommand x s) hn hi hv ho hk hpending hb,
        cancelTask_eq (s := loadCommand x s) (u := loadCommand x u) hb hpending hw (hu ▸ (commutes_cancelTaskState (m := x) s).symm), commutes_endIf]
      rfl
    · refine ⟨_, settles_settleZone _ _ _, congrArg _ (takeCommand_settles hs hp (by decide) service fun x => ?_)⟩
      rw [runCancelVisit_cancels (s := loadCommand x s) hn hv ho hb,
        cancelVisit_eq (s := loadCommand x s) (u := loadCommand x u) hb hw (hu ▸ (commutes_cancelVisitState (m := x) s).symm), commutes_endIf]
      rw [show inHomeSlot (loadCommand x s) v.bin = inHomeSlot s v.bin from rfl]
      cases inHomeSlot s v.bin <;> rfl

end Sys2Proof.Machine

/-! The host link's rows outside a command's own rule (R164, R165, R168, R169, R171, R179): discarded writes, the first
examinations of a command, and the rows that a reset keeps out. -/

namespace Sys2Proof.Machine

section
variable {s : State} {c : Instr} {f : CommandShape} {code : Byte} {modes : Modes} {body m : List Byte}
  {run : List Byte → State → Result}

theorem next_outsideReset {g : State → State} (hr : inReset s = false) :
    (.next (outsideReset g s) : Taken) = .next (g s) := congrArg _ (outsideReset_of_not g hr)

/-! ### Every command is a command write with its own rule -/

theorem exec_of_commandShape (h : commandShape c = some f) : ∃ (code : Byte) (run : List Byte → State → Result),
    ∀ s : State, exec c s = .next (takeCommand code f.length f.modes run f.body s) := by
  cases c <;> cases h <;> exact ⟨_, _, fun s => rfl⟩

/-- A command that the link takes is examined from its framing on. -/
theorem takeCommand_examined {len : Nat} (hs : linkIdle s) : takeCommand code len modes run body s =
    answer (loadCommand (code :: body) s) (refuseIf (badFraming (code :: body) || badLength len body) .badLength
      (modeCheck modes s (run body.tail (loadCommand (code :: body) s)))) := by
  rw [takeCommand, if_neg (ne_true_of_eq_false hs.1), if_neg (ne_true_of_eq_false hs.2)]
  rfl

/-- A row that a command message can spell is a command of the table, an unknown one, or a message with bad framing. -/
theorem commandShape_of_encodeMessage (h : encodeMessage c = some m) : (∃ f, commandShape c = some f) ∨
    (∃ code body, c = .unknownCommand code body) ∨ ∃ message, c = .commandWriteBadFraming message := by
  cases c with
  | unknownCommand code body => exact .inr (.inl ⟨code, body, rfl⟩)
  | commandWriteBadFraming message => exact .inr (.inr ⟨message, rfl⟩)
  | _ => first | exact .inl ⟨_, rfl⟩ | cases h

/-! ### A busy link -/

theorem refuseWrite_busy {x : OutcomeCode} (hb : linkBusy s = true) : refuseWrite m x s = setLate s := if_pos hb

theorem refuseWrite_idle {x : OutcomeCode} (hs : linkIdle s) : refuseWrite m x s = writeReply x [] s :=
  if_neg (ne_true_of_eq_false hs.2)

theorem exec_unknownCommand (hr : inReset s = false) (hc : code.toNat ∉ knownCodes) (hbody : bodyOk body = true) :
    exec (.unknownCommand code body) s = .next (refuseWrite (code :: body) .unknownCommand s) := by
  have hknown : knownCodes.contains code.toNat = false := by simpa using hc
  have hframe : badFraming (code :: body) = false := by
    simp only [bodyOk, badFraming, Bool.and_eq_true, Bool.or_eq_false_iff, decide_eq_true_eq,
      decide_eq_false_iff_not, List.length_cons] at hbody ⊢
    omega
  refine (next_outsideReset hr).trans (congrArg _ ?_)
  rw [if_neg (ne_true_of_eq_false hknown), hframe, if_neg Bool.false_ne_true]

theorem exec_badFraming (hr : inReset s = false) (hm : badFraming m = true) :
    exec (.commandWriteBadFraming m) s = .next (refuseWrite m .badLength s) :=
  (next_outsideReset hr).trans (congrArg _ (if_pos hm))

theorem exec_encoded_busy (hr : inReset s = false) (hb : linkBusy s = true) (h : encodeMessage c = some m)
    (hw : WellFormed c = true) : exec c s = .next (setLate s) := by
  obtain ⟨f, hf⟩ | ⟨code, body, rfl⟩ | ⟨message, rfl⟩ := commandShape_of_encodeMessage h
  · obtain ⟨code, run, hexec⟩ := exec_of_commandShape hf
    rw [hexec, takeCommand_busy _ hr hb]
  · obtain ⟨hcode, hbody⟩ := Bool.and_eq_true_iff.mp hw
    rw [exec_unknownCommand hr (by simpa using hcode) hbody, refuseWrite_busy hb]
  · rw [exec_badFraming hr hw, refuseWrite_busy hb]

theorem exec_discarded_busy (hr : inReset s = false) (hb : linkBusy s = true) :
    exec (.writeCommandDiscarded m) s = .next (setLate s) :=
  (next_outsideReset hr).trans (congrArg _ (if_pos hb))

theorem exec_readReply_of_not_restarting {n : Nat} {bkok : Bool} (hr : inReset s = false)
    (ht : s.link.restartTimer = none) : exec (.readReply n bkok) s = .next (readReplyEnd n s) := by
  refine (next_outsideReset hr).trans (congrArg _ ?_)
  simp only [takeReadReply, ht, Option.isSome_none, Bool.and_false, Bool.false_eq_true, if_false]

end

/-- Settles O3. -/
theorem busyLinkDiscardsAndServes : Obligations.BusyLinkDiscardsAndServes := by
  refine ⟨fun s hr hb => ⟨fun c m h hw => exec_encoded_busy hr hb h hw, fun m => exec_discarded_busy hr hb⟩, ?_⟩
  rintro n bkok s c hr hbusy ht (rfl | rfl | rfl)
  · refine ⟨_, exec_readReply_of_not_restarting hr ht, ?_⟩
    simp only [readReplyEnd]
    split <;> exact ⟨hbusy, rfl, rfl⟩
  · exact ⟨_, next_outsideReset hr, hbusy, rfl, rfl⟩
  · exact ⟨_, next_outsideReset hr, hbusy, rfl, rfl⟩

section
variable {s : State} {c : Instr} {f : CommandShape}

theorem badLength_of_not_fits (h : f.fits = false) : badLength f.length f.body = true := by
  simp only [CommandShape.fits, badLength, bne, Bool.and_eq_false_iff, Bool.or_eq_true, Bool.not_eq_true'] at h ⊢
  exact h

theorem badLength_of_fits (h : f.fits = true) : badLength f.length f.body = false := by
  simp only [CommandShape.fits, badLength, bne, Bool.and_eq_true, Bool.or_eq_false_iff, Bool.not_eq_false'] at h ⊢
  exact h

theorem commandShape_length_le (h : commandShape c = some f) : f.length ≤ 11 := by
  cases c <;> cases h <;> simp only [] <;> omega

theorem badFraming_of_fits {code : Byte} (hl : f.length ≤ 11) (h : f.fits = true) :
    badFraming (code :: f.body) = false := by
  have hlen : f.body.length = f.length + 1 := beq_iff_eq.mp (Bool.and_eq_true_iff.mp h).2
  have hlimit : Config.messageLimit = 32 := rfl
  simp only [badFraming, List.length_cons, Bool.or_eq_false_iff, decide_eq_false_iff_not]
  omega

theorem exec_not_fits (hs : linkIdle s) (h : commandShape c = some f) (hf : f.fits = false) :
    exec c s = .next (writeReply .badLength [] s) := by
  obtain ⟨code, run, hexec⟩ := exec_of_commandShape h
  rw [hexec, takeCommand_examined hs, badLength_of_not_fits hf, Bool.or_true]
  rfl

/-- A command that fits is refused by its mode with the command buffer empty again. -/
theorem exec_wrong_mode {x : OutcomeCode} (hs : linkIdle s) (h : commandShape c = some f) (hf : f.fits = true)
    (hm : ∀ rest, modeCheck f.modes s rest = .refuse x []) : exec c s = .next (writeReply x [] s) := by
  obtain ⟨code, run, hexec⟩ := exec_of_commandShape h
  rw [hexec, takeCommand_examined hs, badLength_of_fits hf, badFraming_of_fits (commandShape_length_le h) hf, hm]
  rfl

end

/-- Settles O4. -/
theorem commandsAreExamined : Obligations.CommandsAreExamined := by
  refine ⟨fun s hs => ⟨fun m hm => ?_, fun code body hc h1 h31 => ?_⟩,
    fun c f s h hs => ⟨exec_not_fits hs h, fun hf hmodes hm => ?_, fun hf hmodes hm => ?_⟩⟩
  · have hbad : badFraming m = true := by
      rw [badFraming, Bool.or_eq_true, decide_eq_true_iff, decide_eq_true_iff]
      exact hm
    rw [exec_badFraming hs.1 hbad, refuseWrite_idle hs]
  · have hbody : bodyOk body = true := by
      rw [bodyOk, Bool.and_eq_true, decide_eq_true_iff, decide_eq_true_iff]
      exact ⟨h1, Nat.lt_succ_of_le h31⟩
    rw [exec_unknownCommand hs.1 hc hbody, refuseWrite_idle hs]
  · exact exec_wrong_mode hs h hf fun rest => by simp only [modeCheck, hmodes, hm]
  · exact exec_wrong_mode hs h hf fun rest => by simp only [modeCheck, hmodes, hm]

section
variable {s : State}

theorem outsideReset_of_reset (f : State → State) (h : inReset s = true) : outsideReset f s = s := if_pos h

/-- In a reset that lasts a row that changes no pin is outside the part, or a command write that is not taken. -/
theorem exec_of_reset {c : Instr} (h : inReset s = true) (hc : changesPin c = false) : exec c s = .next s := by
  cases hf : commandShape c with
  | some f =>
    obtain ⟨code, run, hexec⟩ := exec_of_commandShape hf
    rw [hexec, takeCommand_reset _ h]
  | none =>
    cases c with
    | powerOn | resetAsserted | resetReleased | beamBlocked | beamClear | openLimitAsserted | openLimitReleased
    | closedLimitAsserted | closedLimitReleased | inputLevelChange => cases hc
    | _ => first | cases hf; done | exact congrArg _ (outsideReset_of_reset _ h)

theorem onSensor_of_not_taken {z : Station} {level : StationRec → StationRec} {act : State → State}
    (h : inReset s = true ∨ stationPresent s z = false) : onSensor z level act s = setStation z (level (station s z)) s := by
  have hpresent : stationPresent (modStation z level s) z = stationPresent s z := rfl
  have hreset : inReset (modStation z level s) = inReset s := rfl
  rw [onSensor]
  refine if_pos ?_
  rcases h with h | h <;> simp [h]

end

/-- Settles O8. -/
theorem nothingIsTakenInAReset : Obligations.NothingIsTakenInAReset := fun _ =>
  ⟨fun h => ⟨fun _ hc => exec_of_reset h hc, fun _ _ => congrArg _ (if_pos h)⟩, fun _ h =>
    ⟨congrArg _ (onSensor_of_not_taken h), congrArg _ (onSensor_of_not_taken h), congrArg _ (onSensor_of_not_taken h),
      congrArg _ (onSensor_of_not_taken h), congrArg _ (onSensor_of_not_taken h), congrArg _ (onSensor_of_not_taken h)⟩⟩

end Sys2Proof.Machine

/-! What a reset's set-up keeps (R179): the induction of Laws/Closed over the steps of a reset, and the Link Interface after
it (R173). -/

namespace Sys2Proof.Machine

/-- A property that the events of every zone keep, and the fire-panel inputs too. -/
structure Spread (P : State → Prop) : Prop extends Closed false (fun _ => True) P where
  input : ∀ (i : FireInput) (c : Conditioner) (t : State), P t → P (setConditioner i c t)

section
variable {P : State → Prop} {t : State}

theorem spread_reconcile (K : Spread P) (i : FireInput) (h : P t) : P (reconcile i t) := by
  simp only [reconcile]
  split
  · exact K.input _ _ _ h
  · split
    · exact K.input _ _ _ h
    · exact h

theorem spread_reconcileAll (K : Spread P) (h : P t) : P (reconcileAll t) :=
  keep_foldl (fun _ _ hu => spread_reconcile K _ hu) _ h

theorem closed_startStations (K : Closed false (fun _ => True) P) (h : P t) : P (startStations t) :=
  keep_foldl (fun u z hu => by
    split
    · unfold startStation
      split
      · exact keep_sendPanel K _ _ (keep_reportReleased K trivial hu)
      · exact keep_reopenOrder K trivial (keep_resendTasks K _ hu)
    · exact hu) _ h

theorem closed_stopCranes (K : Closed false (fun _ => True) P) (h : P t) : P (stopCranes t) :=
  keep_foldl (fun u a hu => by
    split
    · exact keep_sendDrive K _ _ hu
    · exact hu) _ h

theorem closed_holdCarried (K : Closed false (fun _ => True) P) (h : P t) : P (holdCarried t) :=
  keep_foldl (fun u a hu => by
    split
    · split
      · exact keep_holdBinVisit K _ _ hu
      · exact hu
    · exact hu) _ h

theorem closed_homeAll (K : Closed false (fun _ => True) P) (h : P t) : P (homeAll t) :=
  keep_foldl (fun u z hu => by
    split
    · exact hu
    · exact keep_homeCranes K trivial hu) _ h

theorem closed_settleAll (K : Closed false (fun _ => True) P) (before : State) (h : P t) : P (settleAll before t) :=
  keep_foldl (fun _ _ hu => keep_settleZone K trivial _ hu) _ h

/-- The orders that a kept reset gives once its records stand. -/
theorem spread_ordersOfReset (K : Spread P) (h : P t) :
    P (homeAll (stopCranes (holdCarried (startStations (reconcileAll t))))) :=
  have C := K.toClosed
  closed_homeAll C (closed_stopCranes C (closed_holdCarried C (closed_startStations C (spread_reconcileAll K h))))

theorem closed_resetBlocks_records (K : Closed false (fun _ => True) P) (s : State)
    (h : P { s with
      aisles := vectorMap resetAisle s.aisles
      zones := vectorMap resetZone s.zones
      inputs := vectorMap (fun c => { c with window := none }) s.inputs
      chanQ := ChannelRec.reset
      chanP := ChannelRec.reset
      search := SearchRec.reset
      time := ⟨0, param s 6, 0⟩ }) : P (resetBlocks s) :=
  keep_foldl (fun _ _ hu => K.station _ _ _ trivial hu) _ (keep_foldl (fun _ _ hu => K.crane _ _ _ trivial hu) _ h)

theorem leaveKept_keeps (K : Spread P) (s : State) (h : P (resetBlocks (resetRecords (resetSettings s)))) :
    P (leaveKept s) :=
  closed_settleAll K.toClosed _ (spread_ordersOfReset K h)

end

/-! ### The Link Interface -/

/-- The link is `l` but for bits of the attention summary. -/
def LinkIs (l : LinkRec) (t : State) : Prop := t.link = { l with attention := t.link.attention }

theorem linkIs_spread (l : LinkRec) : Spread (LinkIs l) where
  crane _ _ _ _ h := h
  aisle _ _ _ _ h := h
  fork _ _ _ _ h := h
  station _ _ _ _ h := h
  zone _ _ _ _ h := h
  crossing _ _ _ _ h := h
  attention n t h := by
    have h1 : t.link = { l with attention := t.link.attention } := h
    exact congrArg (fun x : LinkRec => { x with attention := (setAttention n t).link.attention }) h1
  drive _ _ _ h := h
  panel _ _ _ h := h
  place b f t _ h := by rw [LinkIs, modBin_link]; exact h
  visit _ _ _ _ _ _ h := h
  visits _ _ _ h := h
  anyBin _ b f t h := by rw [LinkIs, modBin_link]; exact h
  slot _ _ _ _ h := h
  anyVisit _ _ _ _ _ h := h
  input _ _ _ h := h

theorem leaveKept_link (s : State) : LinkIs { LinkRec.reset with hostOut := s.link.hostOut } (leaveKept s) :=
  leaveKept_keeps (linkIs_spread _) s (closed_resetBlocks_records (linkIs_spread _).toClosed _ rfl)

theorem leaveLost_link (s : State) : LinkIs { LinkRec.reset with hostOut := s.link.hostOut } (leaveLost s) :=
  spread_reconcileAll (linkIs_spread _) rfl

theorem leaveReset_link (cause : ResetCause) (s : State) :
    LinkIs { LinkRec.reset with hostOut := s.link.hostOut } (leaveReset cause s) := by
  have h : LinkIs { LinkRec.reset with hostOut := s.link.hostOut }
      (if cause = .powerLost then leaveLost s else leaveKept s) := by
    split
    · exact leaveLost_link s
    · exact leaveKept_link s
  exact h

theorem beginReset_hostOut (cause : ResetCause) (s : State) : (beginReset cause s).link.hostOut = s.link.hostOut := by
  simp only [beginReset]
  split <;> rfl

/-- R173: after a reset the link is as the manual sets it up, but for the summary; the last bytes sent are the model's own. -/
theorem resetAtOnce_link (cause : ResetCause) (s : State) :
    LinkIs { LinkRec.reset with hostOut := s.link.hostOut } (resetAtOnce cause s) := by
  have h := leaveReset_link cause (beginReset cause s)
  rwa [beginReset_hostOut] at h

end Sys2Proof.Machine

/-! Read transactions (R168, R169, R171, R172) and the Timebase (R181). -/

namespace Sys2Proof.Machine

/-! ### The reply -/

section
variable {s : State} {n : Nat} {bkok : Bool} {m : List Byte}

theorem take_append_zeros (l : List Byte) (n : Nat) :
    (l ++ List.replicate n 0x00).take n = l.take n ++ List.replicate (n - l.length) 0x00 := by
  rw [List.take_append, List.take_replicate, Nat.min_eq_left (Nat.sub_le n _)]

theorem readReplyEnd_ready (h : s.link.replyReady = true) (n : Nat) : readReplyEnd n s = { s with link := { s.link with
    reply := [], replyReady := false
    hostOut := s.link.reply.take n ++ List.replicate (n - s.link.reply.length) 0x00 } } := by
  simp only [readReplyEnd, replySent, h, if_true, take_append_zeros]

theorem readReplyEnd_not_ready (h : s.link.replyReady = false) (n : Nat) :
    readReplyEnd n s = { s with link := { s.link with hostOut := List.replicate n 0xFF } } := by
  simp only [readReplyEnd, replySent, h, Bool.false_eq_true, if_false]

theorem exec_readReply (hr : inReset s = false) : exec (.readReply n bkok) s = .next (takeReadReply n bkok s) :=
  next_outsideReset hr

theorem exec_readReply_finish (hr : inReset s = false) :
    exec (.readReply n bkok .finish) s = .next (takeReplyFinish n bkok s) :=
  next_outsideReset hr

theorem takeReadReply_not_ready (h : s.link.replyReady = false) : takeReadReply n bkok s = readReplyEnd n s := by
  rw [takeReadReply, h, Bool.false_and]
  rfl

theorem takeReadReply_ready (h : s.link.replyReady = true) : takeReadReply n bkok s =
    if s.link.restartTimer.isSome then restartReset bkok (readReplyEnd n s) else readReplyEnd n s := by
  rw [takeReadReply, h, Bool.true_and]

/-- A reply is sent whole, and the reset it may begin keeps what the host has read. -/
theorem takeReadReply_sends (h : s.link.replyReady = true) :
    (takeReadReply n bkok s).link.hostOut = s.link.reply.take n ++ List.replicate (n - s.link.reply.length) 0x00 ∧
      (takeReadReply n bkok s).link.reply = [] ∧ (takeReadReply n bkok s).link.replyReady = false := by
  rw [takeReadReply_ready h]
  split
  · have hlink : (restartReset bkok (readReplyEnd n s)).link = _ := resetAtOnce_link _ _
    rw [hlink, readReplyEnd_ready h]
    exact ⟨rfl, rfl, rfl⟩
  · rw [readReplyEnd_ready h]
    exact ⟨rfl, rfl, rfl⟩

theorem capture_idle (h : s.link.reading = none) (f : State → State) : capture f s = f s := by
  rw [capture, h]
  rfl

theorem finishReply_of_message (h : s.link.reading = some (.reply (some m))) (n : Nat) :
    finishReply n s = { s with link := { s.link with
      reply := [], replyReady := false, reading := none
      hostOut := m.take n ++ List.replicate (n - m.length) 0x00 } } := by
  simp only [finishReply, h, take_append_zeros]

theorem takeReplyFinish_of_message (h : s.link.reading = some (.reply (some m))) : takeReplyFinish n bkok s =
    if s.link.restartTimer.isSome then restartReset bkok (finishReply n s) else finishReply n s := by
  simp only [takeReplyFinish, sendsReply, h, Bool.true_and]

theorem takeReplyFinish_of_none (h : s.link.reading = some (.reply none)) : takeReplyFinish n bkok s =
    { s with link := { s.link with reading := none, hostOut := List.replicate n 0xFF } } := by
  simp only [takeReplyFinish, sendsReply, finishReply, h, Bool.false_and, Bool.false_eq_true, if_false]

end

/-- Settles O5. -/
theorem readReplySends : Obligations.ReadReplySends := by
  refine ⟨fun n bkok s hr => ⟨fun h => ?_, fun h => ?_⟩, fun n bkok s hr => ⟨fun h => ?_,
    fun m u h hu => ⟨fun ht => ?_, fun ht => ?_⟩, fun h => ?_⟩⟩
  · obtain ⟨hout, hreply, hready⟩ := takeReadReply_sends (n := n) (bkok := bkok) h
    refine ⟨_, exec_readReply hr, hout, hreply, hready, fun ht => ?_⟩
    rw [takeReadReply_ready h, ht, Option.isSome_none, if_neg Bool.false_ne_true, readReplyEnd_ready h]
  · rw [exec_readReply hr, takeReadReply_not_ready h, readReplyEnd_not_ready h]
  · exact (next_outsideReset hr).trans (congrArg _ (capture_idle h _))
  · rw [exec_readReply_finish hr, takeReplyFinish_of_message h, ht, Option.isSome_none, if_neg Bool.false_ne_true,
      finishReply_of_message h, hu]
  · rw [exec_readReply_finish hr, takeReplyFinish_of_message h, if_pos ht, finishReply_of_message h, ← hu]
    rfl
  · rw [exec_readReply_finish hr, takeReplyFinish_of_none h]

/-! ### The status byte and the summary -/

section
variable {s : State}

theorem getLsbD_attentionMask (s : State) (i : Nat) : (attentionMask s).getLsbD i = maskSelects s i := by
  rw [attentionMask, maskSelects, BitVec.getLsbD_append, BitVec.getLsbD_append, BitVec.getLsbD_extractLsb']
  by_cases h16 : i < 16
  · simp [h16]
  · by_cases h20 : i - 16 < 4
    · simp [h16, h20, show i < 20 by omega]
    · simp [h16, h20, show ¬ i < 20 by omega]

/-- ATTN is set exactly while a bit is set and selected (R172). -/
theorem attn_iff (s : State) : attn s = true ↔ ∃ i : Nat, s.link.summary.getLsbD i = true ∧ maskSelects s i = true := by
  simp only [← getLsbD_attentionMask, ← Bool.and_eq_true, ← BitVec.getLsbD_and]
  rw [attn, bne_iff_ne, ne_eq, BitVec.eq_of_getLsbD_eq_iff]
  simp only [BitVec.ofNat_eq_ofNat, BitVec.getLsbD_zero, not_forall, Bool.not_eq_false]
  exact ⟨fun ⟨i, _, h⟩ => ⟨i, h⟩, fun ⟨i, h⟩ => ⟨i, BitVec.lt_of_getLsbD h, h⟩⟩

theorem statusByte_bits (s : State) : (statusByte s).getLsbD 0 = s.link.cmdBusy ∧
    (statusByte s).getLsbD 1 = s.link.replyReady ∧
    ((statusByte s).getLsbD 2 = true ↔ ∃ i : Nat, s.link.summary.getLsbD i = true ∧ maskSelects s i = true) ∧
    (statusByte s).getLsbD 3 = s.link.lateFlag ∧ ((statusByte s).getLsbD 4 = true ↔ s.mode = .commissioning) ∧
    (statusByte s).getLsbD 5 = s.link.restarted ∧ (statusByte s).getLsbD 6 = false ∧
    (statusByte s).getLsbD 7 = false := by
  have hbit (i : Nat) : (statusByte s).getLsbD i = [s.link.cmdBusy, s.link.replyReady, attn s, s.link.lateFlag,
      s.mode == .commissioning, s.link.restarted, false, false].getD i false := BitVec.getLsbD_ofBoolListLE
  rw [← attn_iff]
  refine ⟨hbit 0, hbit 1, by rw [hbit 2]; rfl, hbit 3, ?_, hbit 5, hbit 6, hbit 7⟩
  rw [hbit 4]
  exact beq_iff_eq

theorem getLsbD_div (x : BitVec 24) (k i : Nat) (hi : i < 8) :
    (BitVec.ofNat 8 (x.toNat / 256 ^ k)).getLsbD i = x.getLsbD (8 * k + i) := by
  rw [BitVec.getLsbD_ofNat, decide_eq_true hi, Bool.true_and, show 256 ^ k = 2 ^ (8 * k) by rw [pow_mul]; rfl,
    Nat.testBit_div_two_pow]
  exact congrArg _ (Nat.add_comm ..)

theorem attentionBytes_eq (s : State) : attentionBytes s =
    [BitVec.ofNat 8 (s.link.summary.toNat / 256 ^ 2), BitVec.ofNat 8 (s.link.summary.toNat / 256 ^ 1),
      BitVec.ofNat 8 (s.link.summary.toNat / 256 ^ 0)] := bytes_eq_digits 3 _

theorem readAttentionEnd_eq (s : State) : readAttentionEnd s =
    { s with link := { s.link with hostOut := attentionBytes s, attention := 0 } } := by
  rw [readAttentionEnd, BitVec.and_not_self]

theorem finishStatus_eq {late : Bool} (h : s.link.reading = some (.status late)) :
    finishStatus s = { s with link := { s.link with reading := none } } := by
  rw [finishStatus, h]
  rfl

theorem finishAttention_eq {bits : BitVec 24} (h : s.link.reading = some (.attention bits)) :
    finishAttention s = { s with link := { s.link with reading := none } } := by
  rw [finishAttention, h]
  rfl

end

/-- Settles O6. -/
theorem statusAndAttentionAreSent : Obligations.StatusAndAttentionAreSent := by
  refine ⟨fun s hr => ⟨statusByte s, next_outsideReset hr, fun h => ?_, statusByte_bits s⟩, fun s hr => ?_,
    fun s h => ?_, ?_, ?_⟩
  · exact (next_outsideReset hr).trans (congrArg _ (capture_idle h _))
  · refine ⟨_, _, BitVec.ofNat 8 (s.link.summary.toNat / 256 ^ 0), ?_, fun h => ?_, fun i hi =>
      ⟨?_, getLsbD_div _ 1 i hi, getLsbD_div _ 2 i hi⟩⟩
    · exact (next_outsideReset hr).trans (congrArg _ ((readAttentionEnd_eq s).trans (by rw [attentionBytes_eq])))
    · refine (next_outsideReset hr).trans (congrArg _ ((capture_idle h _).trans ?_))
      rw [captureAttention, attentionBytes_eq]
    · rw [getLsbD_div _ 0 i hi, Nat.mul_zero, Nat.zero_add]
  · simp only [LinkRec.summary, LinkRec.lateFlag, h, and_self]
  · rintro late s t hr h rfl
    refine ⟨(next_outsideReset hr).trans (congrArg _ (finishStatus_eq h)), ?_, rfl, ?_⟩
    · simp only [LinkRec.lateFlag, h]
    · simp only [LinkRec.summary, h]
  · rintro bits s t hr h rfl
    refine ⟨(next_outsideReset hr).trans (congrArg _ (finishAttention_eq h)), ?_, fun i => ?_, rfl,
      fun i hi => ⟨h, attention_set i hi s⟩⟩
    · simp only [LinkRec.lateFlag, h]
    · simp only [LinkRec.summary, h, BitVec.getLsbD_or]

/-! ### The Timebase -/

section
variable {s : State}

theorem get_vectorMap {α : Type} {n : Nat} (f : α → α) (v : Vector α n) (i : Fin n) :
    (vectorMap f v).get i = f (v.get i) := by
  rw [Vector.get_eq_getElem, Vector.get_eq_getElem]
  simp only [vectorMap, Vector.getElem_mk, List.getElem_toArray, List.getElem_map, Array.getElem_toList,
    Vector.getElem_toArray]

theorem step_idle (hr : inReset s = false) (hp : s.pending = []) : step s = .next (clockCycle s) := by
  rw [step, hp]
  exact next_outsideReset hr

end

/-- Settles O7. -/
theorem timebaseCounts : Obligations.TimebaseCounts := by
  intro s hr
  refine ⟨fun hp h => ?_, fun hp h => ?_, ?_⟩
  · rw [step_idle hr hp, clockCycle, if_pos h]
  · rw [step_idle hr hp, clockCycle, if_neg (Nat.not_lt.mpr h)]
    exact (next_outsideReset hr).symm
  · exact ⟨tick s, next_outsideReset hr, rfl, fun a => get_vectorMap _ _ a, fun z => get_vectorMap _ _ z,
      fun z => get_vectorMap _ _ z, fun i => get_vectorMap _ _ i, rfl, rfl⟩

end Sys2Proof.Machine

/-! The fields of a command (R182), the slot map (R4, R11) and the protection mask (R6). -/

namespace Sys2Proof.Machine

/-! ### Fields -/

theorem toNat_append_byte {w : Nat} (x : BitVec w) (b : Byte) : (x ++ b).toNat = x.toNat * 256 + b.toNat := by
  rw [BitVec.toNat_append, ← Nat.shiftLeft_add_eq_or_of_lt b.isLt, Nat.shiftLeft_eq]

theorem byteAt_of_some {p : List Byte} {i : Nat} {x : Byte} (h : p[i]? = some x) : byteAt p i = x.toNat := by
  rw [byteAt, List.getD_eq_getElem?_getD, h, Option.getD_some]

theorem keyAt_toNat (p : List Byte) (i : Nat) :
    (keyAt p i).toNat = 256 ^ 4 * wordAt p i + 256 ^ 2 * wordAt p (i + 2) + wordAt p (i + 4) := by
  simp only [keyAt, toNat_append_byte, wordAt, byteAt]
  ring

theorem sideOfCode_eq_some {n : Nat} {sd : Side} : sideOfCode n = some sd ↔ n = if sd = .left then 0 else 1 := by
  cases sd <;> simp only [sideOfCode] <;> split <;> simp_all

theorem slotAt_eq_some {p : List Byte} {i : Nat} {sl : Slot} : slotAt p i = some sl ↔
    byteAt p i = sl.aisle.val ∧ byteAt p (i + 1) = sl.column.val ∧ byteAt p (i + 2) = sl.level.val ∧
      byteAt p (i + 3) = if sl.side = .left then 0 else 1 := by
  obtain ⟨a, c, l, sd⟩ := sl
  rw [slotAt]
  split
  · split
    · split
      · rw [Option.map_eq_some_iff]
        simp only [sideOfCode_eq_some, Slot.mk.injEq, Fin.ext_iff]
        constructor
        · rintro ⟨sd', h, ha, hc, hl, rfl⟩
          exact ⟨ha, hc, hl, h⟩
        · rintro ⟨ha, hc, hl, h⟩
          exact ⟨sd, h, ha, hc, hl, rfl⟩
      · exact ⟨nofun, fun h => absurd l.isLt (h.2.2.1 ▸ ‹_›)⟩
    · exact ⟨nofun, fun h => absurd c.isLt (h.2.1 ▸ ‹_›)⟩
  · exact ⟨nofun, fun h => absurd a.isLt (h.1 ▸ ‹_›)⟩

theorem aisleOf_eq_some {n : Nat} {a : Aisle} : aisleOf n = some a ↔ n = a.val := by
  rw [aisleOf]
  split
  · rw [Option.some.injEq, Fin.ext_iff]
  · exact ⟨nofun, fun h => absurd a.isLt (h ▸ ‹_›)⟩

theorem stationOf_eq_some {n : Nat} {z : Station} : stationOf n = some z ↔ n = z.val := by
  rw [stationOf]
  split
  · rw [Option.some.injEq, Fin.ext_iff]
  · exact ⟨nofun, fun h => absurd z.isLt (h ▸ ‹_›)⟩

/-! ### The slot map -/

section
variable {s : State} {sl : Slot} {p : List Byte}

/-- R4: no two slots of the wing have one number. -/
theorem slotIndex_injective : Function.Injective slotIndex := by
  rintro ⟨a, c, l, sd⟩ ⟨a', c', l', sd'⟩ h
  have hside : sd = sd' := by
    cases sd <;> cases sd' <;> simp only [slotIndex] at h <;> first | rfl | omega
  have hplace : (a.val * 96 + c.val) * 12 + l.val = (a'.val * 96 + c'.val) * 12 + l'.val := by
    cases hside
    simp only [slotIndex] at h
    omega
  have hlevel : l.val = l'.val := by
    have := congrArg (· % 12) hplace
    omega
  simp only [Slot.mk.injEq, Fin.ext_iff, hside, hlevel, and_true]
  omega

theorem slotEntry_setSlot (e : SlotEntry) (s : State) : slotEntry (setSlot sl e s) sl = e := by
  simp only [slotEntry, setSlot]
  split
  · rename_i h
    rw [tableGet_erase_same, h]
    rfl
  · rw [tableGet_put_same]
    rfl

theorem slotEntry_setSlot_ne {other : Slot} (h : other ≠ sl) (e : SlotEntry) (s : State) :
    slotEntry (setSlot sl e s) other = slotEntry s other := by
  have hi : slotIndex other ≠ slotIndex sl := slotIndex_injective.ne h
  simp only [slotEntry, setSlot]
  split
  · rw [tableGet_erase_ne _ hi]
  · rw [tableGet_put_ne _ hi]

theorem runBlockSlot_noSlot (h : slotAt p 0 = none) : runBlockSlot p s = .refuse .badValue [] := by
  rw [runBlockSlot, h]
  rfl

theorem runUnblockSlot_noSlot (h : slotAt p 0 = none) : runUnblockSlot p s = .refuse .badValue [] := by
  rw [runUnblockSlot, h]
  rfl

theorem runBlockSlot_free (h : slotAt p 0 = some sl) (he : slotEntry s sl = .empty ∨ slotEntry s sl = .blocked) :
    runBlockSlot p s = done [] (setSlot sl .blocked s) := by
  refine (withSome_passes h).trans ?_
  rcases he with he | he <;> simp only [he]

theorem runUnblockSlot_free (h : slotAt p 0 = some sl) (he : slotEntry s sl = .empty ∨ slotEntry s sl = .blocked) :
    runUnblockSlot p s = done [] (setSlot sl .empty s) := by
  refine (withSome_passes h).trans ?_
  rcases he with he | he <;> simp only [he]

theorem runBlockSlot_taken (h : slotAt p 0 = some sl) (he : slotEntry s sl ≠ .empty) (hb : slotEntry s sl ≠ .blocked) :
    runBlockSlot p s = .refuse .slotTaken [] := by
  refine (withSome_passes h).trans ?_
  cases hx : slotEntry s sl <;> simp_all only [ne_eq, not_true_eq_false]

theorem runUnblockSlot_taken (h : slotAt p 0 = some sl) (he : slotEntry s sl ≠ .empty) (hb : slotEntry s sl ≠ .blocked) :
    runUnblockSlot p s = .refuse .state [] := by
  refine (withSome_passes h).trans ?_
  cases hx : slotEntry s sl <;> simp_all only [ne_eq, not_true_eq_false]

/-! ### The protection mask -/

/-- The mask that the parameters of Set Protection give. -/
def maskAt (p : List Byte) : BitVec 16 := p.getD 0 0 ++ p.getD 1 0

theorem maskAt_toNat (p : List Byte) : (maskAt p).toNat = wordAt p 0 := toNat_append_byte _ _

theorem runSetProtection_eq : runSetProtection p s = .reply .done
    [BitVec.ofNat 8 (s.protection.toNat / 256), BitVec.ofNat 8 s.protection.toNat,
      BitVec.ofNat 8 ((maskAt p).toNat / 256), BitVec.ofNat 8 (maskAt p).toNat] { s with protection := maskAt p } := rfl

end

/-- Settles O17. -/
theorem slotsAndProtectionAreSet : Obligations.SlotsAndProtectionAreSet := by
  refine ⟨fun p i => ⟨fun x h => byteAt_of_some h, congrArg (· + _) (Nat.mul_comm ..), keyAt_toNat p i,
      fun sl => slotAt_eq_some, fun n a => aisleOf_eq_some, fun n z => stationOf_eq_some⟩, ?_,
    fun sl other e s => ⟨slotEntry_setSlot e s, fun h => slotEntry_setSlot_ne h e s, slotIndex_lt sl⟩, ?_⟩
  · intro p s hs hp
    refine ⟨fun h => ⟨?_, ?_⟩, fun sl h => ⟨fun he => ⟨?_, ?_⟩, fun he hb => ⟨?_, ?_⟩⟩⟩
    · exact congrArg _ (takeCommand_refuses hs hp (by decide) modeCheck_both (runBlockSlot_noSlot h))
    · exact congrArg _ (takeCommand_refuses hs hp (by decide) modeCheck_both (runUnblockSlot_noSlot h))
    · exact congrArg _ (takeCommand_replies hs hp (by decide) modeCheck_both (runBlockSlot_free h he))
    · exact congrArg _ (takeCommand_replies hs hp (by decide) modeCheck_both (runUnblockSlot_free h he))
    · exact congrArg _ (takeCommand_refuses hs hp (by decide) modeCheck_both (runBlockSlot_taken h he hb))
    · exact congrArg _ (takeCommand_refuses hs hp (by decide) modeCheck_both (runUnblockSlot_taken h he hb))
  · intro p s hs hp
    refine ⟨{ s with protection := maskAt p },
      congrArg _ (takeCommand_replies hs hp (by decide) modeCheck_both runSetProtection_eq), maskAt_toNat p, rfl, fun b => ?_⟩
    rw [← maskAt_toNat]
    rfl

end Sys2Proof.Machine

/-! Messages read as written (R133, R164, R165, R183). -/

namespace Sys2Proof.Machine

section
variable {s : State} {i : Instr} {m : List Byte} {bkok : Bool}

/-! ### The host link -/

/-- A code outside Table 3 selects no row. -/
theorem commandRow_unknown {code : Byte} (h : knownCodes.contains code.toNat = false) (body : List Byte) :
    commandRow code body = none := by
  unfold commandRow
  split
  case h_41 => rfl
  all_goals
    rename_i hcode
    rw [hcode] at h
    cases h

theorem decodeMessage_cons {code : Byte} {body : List Byte} (h : bodyOk body = true) :
    decodeMessage (code :: body) = (commandRow code body).getD (.unknownCommand code body) := by
  obtain ⟨h1, h31⟩ := Bool.and_eq_true_iff.mp h
  cases body with
  | nil => cases h1
  | cons x rest =>
    exact if_neg (Nat.not_lt.mpr (of_decide_eq_true h31))

theorem decodeMessage_badFraming (h : m.length < 2 ∨ Config.messageLimit < m.length) :
    decodeMessage m = .commandWriteBadFraming m := by
  match m, h with
  | [], _ => rfl
  | [_], _ => rfl
  | x :: y :: rest, h =>
    exact if_pos (h.resolve_left (by simp))

/-- R164, R165: a command message is read as the row it was written for. -/
theorem decodeMessage_encodeMessage (hw : WellFormed i = true) (h : encodeMessage i = some m) : decodeMessage m = i := by
  cases i with
  | unknownCommand code body =>
    cases h
    obtain ⟨hcode, hbody⟩ := Bool.and_eq_true_iff.mp hw
    rw [decodeMessage_cons hbody, commandRow_unknown (by simpa using hcode)]
    rfl
  | commandWriteBadFraming message =>
    cases h
    simp only [WellFormed, Bool.or_eq_true, decide_eq_true_eq] at hw
    exact decodeMessage_badFraming hw
  | _ => cases h <;> exact decodeMessage_cons hw

/-! ### The field links -/

theorem parityOk_withParity (m : List Byte) : parityOk (withParity m) = true := by
  simp [parityOk, withParity]

theorem withParity_bytes (m : List Byte) : (withParity m).map (·.1) = m := by
  rw [withParity, List.map_map]
  exact List.map_id m

theorem decodeDrive_withParity (a : Aisle) (m : List Byte) : decodeDrive a (withParity m) = driveRow a m := by
  rw [decodeDrive, if_pos (parityOk_withParity m), withParity_bytes]

theorem decodePanel_withParity (z : Station) (m : List Byte) : decodePanel z (withParity m) = panelRow z m := by
  rw [decodePanel, if_pos (parityOk_withParity m), withParity_bytes]

/-- A key is the six bytes it is sent as. -/
theorem keyBytes_append (key : ItemKey) : (key.extractLsb' 40 8 ++ key.extractLsb' 32 8 ++ key.extractLsb' 24 8 ++
    key.extractLsb' 16 8 ++ key.extractLsb' 8 8 ++ key.extractLsb' 0 8 : BitVec 48) = key := by
  refine BitVec.eq_of_toNat_eq ?_
  have hk : key.toNat < 2 ^ 48 := key.isLt
  simp only [toNat_append_byte, BitVec.extractLsb'_toNat, Nat.shiftRight_eq_div_pow]
  omega

/-- R183: a drive report is read as the row it was written for. -/
theorem driveRow_encodeField {a : Aisle} {x y : Byte} (hw : WellFormed i = true) (h : encodeField i = some m)
    (hi : i = .mark a x y ∨ i = .arrived a ∨ i = .forkDone a ∨ i = .homed a ∨ i = .currentLimit a ∨ i = .noLoad a ∨
      i = .supply a x) : driveRow a m = i := by
  rcases hi with rfl | rfl | rfl | rfl | rfl | rfl | rfl <;> cases h
  case inl => exact if_pos (of_decide_eq_true hw)
  case inr.inr.inr.inr.inr.inr => exact if_pos (of_decide_eq_true hw)
  all_goals rfl

/-- R133: a panel message is read as the row it was written for. -/
theorem panelRow_encodeField {z : Station} {key : ItemKey} {x : Byte} (hw : WellFormed i = true)
    (h : encodeField i = some m) (hi : i = .itemScan z key ∨ i = .panelDone z ∨ i = .keep z ∨ i = .problem z x) :
    panelRow z m = i := by
  rcases hi with rfl | rfl | rfl | rfl <;> cases h
  · exact congrArg _ (keyBytes_append key)
  · rfl
  · rfl
  · exact if_pos (of_decide_eq_true hw)

/-! ### Transactions -/

theorem accessOf_other {code : Byte} (h : code.toNat = 0 ∨ 4 < code.toNat) : accessOf code = none := by
  unfold accessOf
  split <;> first | rfl | omega

theorem takeTransaction_other {code : Byte} (h : code.toNat = 0 ∨ 4 < code.toNat) (hr : inReset s = false) :
    takeTransaction bkok (code :: m) s =
      .next { s with link := { s.link with hostOut := List.replicate (m.length + 1) 0x00 } } := by
  rw [takeTransaction, decodeTransaction, accessOf_other h]
  exact next_outsideReset hr

end

/-- Settles O56. -/
theorem messagesReadAsWritten : Obligations.MessagesReadAsWritten := by
  refine ⟨fun i m => decodeMessage_encodeMessage, fun a z i m hw h =>
    ⟨⟨fun x y hi => ?_, fun key x hi => ?_⟩, fun bkok s => ⟨fun i m hw h => ?_, fun m => ⟨rfl, rfl, rfl⟩,
      fun code m h hr => takeTransaction_other h hr, next_outsideReset⟩⟩⟩
  · rw [decodeDrive_withParity, driveRow_encodeField hw h hi]
  · rw [decodePanel_withParity, panelRow_encodeField hw h hi]
  · exact congrArg (exec · s) (decodeMessage_encodeMessage hw h)

end Sys2Proof.Machine

/-! Queries of the Scan Engine (R158 to R161, R182). -/

namespace Sys2Proof.Machine

/-! ### Codes and arguments -/

theorem scanTableOf_eq_some {n : Nat} {t : ScanTable} :
    scanTableOf n = some t ↔ (n = 0 ∧ t = .bin) ∨ (n = 1 ∧ t = .withdrawal) := by
  rw [scanTableOf]
  split
  · simp_all [eq_comm]
  · split <;> simp_all [eq_comm]

theorem scanModeOf_eq_some {n : Nat} {m : ScanMode} :
    scanModeOf n = some m ↔ (n = 0 ∧ m = .single) ∨ (n = 1 ∧ m = .loop) := by
  rw [scanModeOf]
  split
  · simp_all [eq_comm]
  · split <;> simp_all [eq_comm]

/-- Bytes beyond the end of the parameters read as 0. -/
theorem zeroes_iff (p : List Byte) (i n : Nat) : zeroes p i n = true ↔ ∀ j : Nat, j < n → byteAt p (i + j) = 0 := by
  simp only [zeroes, byteAt, List.all_eq_true, beq_iff_eq, List.getD_eq_getElem?_getD]
  constructor
  · intro h j hj
    cases hx : p[i + j]? with
    | none => rfl
    | some x =>
      have hmem : x ∈ (p.drop i).take n :=
        List.mem_of_getElem? (i := j) (by rw [List.getElem?_take_of_lt hj, List.getElem?_drop, hx])
      rw [h x hmem]
      rfl
  · intro h x hx
    obtain ⟨j, hj⟩ := List.mem_iff_getElem?.mp hx
    rw [List.getElem?_take] at hj
    split at hj
    · rename_i hlt
      rw [List.getElem?_drop] at hj
      have hzero := h j hlt
      rw [hj] at hzero
      exact BitVec.eq_of_toNat_eq hzero
    · cases hj

section
variable {p : List Byte} {f : Filter}

theorem filterOf_bin (code : Nat) : filterOf p 6 .bin code = some f ↔
    ((∀ j : Nat, j < 4 → byteAt p (6 + j) = 0) ∧ ((code = 0 ∧ f = .stranded) ∨ (code = 1 ∧ f = .obstructed) ∨
      (code = 2 ∧ f = .uncertain) ∨ (code = 3 ∧ f = .quarantined) ∨ (code = 6 ∧ f = .openVisit))) ∨
    (code = 4 ∧ (∀ j : Nat, j < 3 → byteAt p (6 + j) = 0) ∧ byteAt p 9 ≤ 7 ∧ f = .homeAisle (byteAt p 9)) ∨
    (code = 5 ∧ (∀ j : Nat, j < 3 → byteAt p (6 + j) = 0) ∧ byteAt p 9 ≤ 250 ∧ f = .fillAtMost (byteAt p 9)) ∨
    (code = 7 ∧ (∀ j : Nat, j < 2 → byteAt p (6 + j) = 0) ∧ f = .idleSince (wordAt p 8)) := by
  simp only [← zeroes_iff, Nat.le_iff_lt_add_one]
  match code with
  | 0 | 1 | 2 | 3 | 4 | 5 | 6 =>
    simp [filterOf, smallArgument, Option.ite_none_right_eq_some, eq_comm (a := f), and_assoc, Nat.lt_succ_iff]
  | 7 =>
    have h : filterOf p 6 .bin 7 = if zeroes p 6 2 then some (.idleSince (wordAt p 8)) else none := rfl
    simp [h, eq_comm (a := f)]
  | _ + 8 => simp [filterOf]

theorem filterOf_withdrawal (code : Nat) : filterOf p 6 .withdrawal code = some f ↔
    ((∀ j : Nat, j < 4 → byteAt p (6 + j) = 0) ∧ ((code = 0 ∧ f = .overdue) ∨ (code = 3 ∧ f = .returning))) ∨
    (code = 1 ∧ (∀ j : Nat, j < 2 → byteAt p (6 + j) = 0) ∧ f = .outBefore (wordAt p 8)) ∨
    (code = 2 ∧ wordAt p 6 ≤ wordAt p 8 ∧ wordAt p 8 ≤ 16383 ∧ f = .homeBinRange (wordAt p 6) (wordAt p 8)) := by
  simp only [← zeroes_iff, Nat.le_iff_lt_add_one]
  match code with
  | 0 | 2 | 3 =>
    simp [filterOf, smallArgument, Option.ite_none_right_eq_some, eq_comm (a := f), and_assoc, Nat.lt_succ_iff, Config.binCount]
  | 1 =>
    have h : filterOf p 6 .withdrawal 1 = if zeroes p 6 2 then some (.outBefore (wordAt p 8)) else none := rfl
    simp [h, eq_comm (a := f)]
  | _ + 4 => simp [filterOf]

end

/-! ### Start Scan and Read Scan Results -/

section
variable {p : List Byte} {s : State}

theorem lastIndex_eq (t : ScanTable) : lastIndex t + 1 = if t = .bin then 16384 else 4096 := by
  cases t <;> rfl

theorem queryOf_eq_some {t : ScanTable} {m : ScanMode} {f : Filter} (ht : scanTableOf (byteAt p 0) = some t)
    (hm : scanModeOf (byteAt p 10) = some m) (hfirst : wordAt p 1 ≤ wordAt p 3)
    (hlast : wordAt p 3 < (if t = .bin then 16384 else 4096)) (hf : filterOf p 6 t (byteAt p 5) = some f) :
    queryOf p = some ⟨t, wordAt p 1, wordAt p 3, wordAt p 1, some f, m, .running, [], 0, false⟩ := by
  rw [← lastIndex_eq, Nat.lt_add_one_iff] at hlast
  simp only [queryOf, ht, hm, hfirst, hlast, and_self, if_true, hf, Option.map_some]

theorem queryOf_eq_none (h : scanTableOf (byteAt p 0) = none ∨ scanModeOf (byteAt p 10) = none ∨ wordAt p 3 < wordAt p 1 ∨
    ∃ t, scanTableOf (byteAt p 0) = some t ∧
      ((if t = .bin then 16384 else 4096) ≤ wordAt p 3 ∨ filterOf p 6 t (byteAt p 5) = none)) : queryOf p = none := by
  cases ht : scanTableOf (byteAt p 0) with
  | none => simp only [queryOf, ht]
  | some t =>
    cases hm : scanModeOf (byteAt p 10) with
    | none => simp only [queryOf, ht, hm]
    | some m =>
      simp only [queryOf, ht, hm]
      split
      · rename_i hrange
        have hlast : wordAt p 3 < if t = .bin then 16384 else 4096 :=
          lastIndex_eq t ▸ Nat.lt_add_one_of_le hrange.2
        obtain h | h | h | ⟨t', h, hbad⟩ := h
        · cases ht.symm.trans h
        · cases hm.symm.trans h
        · exact absurd hrange.1 (Nat.not_le.mpr h)
        · cases ht.symm.trans h
          rw [hbad.resolve_left (Nat.not_le.mpr hlast)]
          rfl
      · rfl

theorem runStartScan_starts {q : ChannelRec} (h : queryOf p = some q) : runStartScan p s = .reply .done [] { s with chanQ := q } :=
  withSome_passes h

theorem runStartScan_badValue (h : queryOf p = none) : runStartScan p s = .refuse .badValue [] := by
  rw [runStartScan, h]
  rfl

theorem carriedLimit_eq (t : ScanTable) : carriedLimit t = if t = .bin then 8 else 6 := by
  cases t <;> rfl

/-- R182 Table 4: the bytes of Read Scan Results. -/
theorem scanBytes_eq (es : List ScanEntry) (q : ChannelRec) : scanBytes es q =
    bytes 1 es.length ++ bytes 1 q.results.length ++
      bytes 1 ((if q.table = .bin then 0 else 1) + 2 * (match q.state with
        | .idle => 0
        | .running => 1
        | .paused => 2
        | .done => 3) + if q.disturbed then 8 else 0) ++
      bytes 2 q.cursor ++ bytes 2 q.passCount ++ es.flatMap scanEntryBytes := by
  obtain ⟨table, first, last, cursor, filter, mode, state, results, passCount, disturbed⟩ := q
  cases table <;> cases state <;> cases disturbed <;> rfl

end

/-- Settles O30. -/
theorem queriesStartAndAreRead : Obligations.QueriesStartAndAreRead := by
  refine ⟨fun n => ⟨fun t => scanTableOf_eq_some, fun m => scanModeOf_eq_some⟩,
    fun p code f => ⟨filterOf_bin code, filterOf_withdrawal code⟩, fun es q => ?_,
    fun p s k q hs => ⟨fun hp => ⟨fun t m f ht hm hfirst hlast hf => ?_, fun h => ?_⟩, ?_⟩⟩
  · simp only [← bytes_eq_digits]
    refine (scanBytes_eq es q).trans (congrArg _ (congrArg (es.flatMap ·) (funext fun e => ?_)))
    cases e <;> rfl
  · exact congrArg _ (takeCommand_replies hs hp (by decide) modeCheck_both
      (runStartScan_starts (queryOf_eq_some ht hm hfirst hlast hf)))
  · exact congrArg _ (takeCommand_refuses hs hp (by decide) modeCheck_both (runStartScan_badValue (queryOf_eq_none h)))
  · rintro rfl rfl rfl
    rw [← carriedLimit_eq]
    exact congrArg _ (takeCommand_replies (run := runReadScan) (c := 0x41) (p := []) hs rfl (by decide) modeCheck_both rfl)

/-! ### A step of a query -/

section
variable {s : State} {rs : List ScanEntry}

theorem exec_scanStep (hr : inReset s = false) : exec .scanStep s = .next (stepQuery s) := next_outsideReset hr

theorem stepQuery_running (h : s.chanQ.state = .running) {q : ChannelRec}
    (hq : s.chanQ.stepped (judgeQuery s s.chanQ) = q) : stepQuery s =
      if q.state ≠ .running ∨ s.chanQ.last ≤ s.chanQ.cursor then setAttention scanBit { s with chanQ := q }
      else { s with chanQ := q } := by
  simp only [stepQuery, h, if_true, hq]

theorem stepQuery_within (h : s.chanQ.state = .running) (hrs : rs = s.chanQ.results ++ (judgeQuery s s.chanQ).toList)
    (hc : s.chanQ.cursor < s.chanQ.last) (hl : rs.length < 16) :
    stepQuery s = { s with chanQ := { s.chanQ with results := rs, cursor := s.chanQ.cursor + 1 } } := by
  have hfull : ¬ 16 ≤ rs.length := Nat.not_le.mpr hl
  rw [stepQuery_running h (q := { s.chanQ with results := rs, cursor := s.chanQ.cursor + 1 })]
  · simp only [h, ne_eq, not_true_eq_false, false_or, Nat.not_le.mpr hc, if_false]
  · simp only [ChannelRec.stepped, hc, if_true, ← hrs, Config.resultLimit, hfull, and_false, if_false]

theorem stepQuery_full (h : s.chanQ.state = .running) (hrs : rs = s.chanQ.results ++ (judgeQuery s s.chanQ).toList)
    (hc : s.chanQ.cursor < s.chanQ.last) (hl : 16 ≤ rs.length) : stepQuery s = setAttention 17
      { s with chanQ := { s.chanQ with results := rs, cursor := s.chanQ.cursor + 1, state := .paused } } := by
  rw [stepQuery_running h (q := { s.chanQ with results := rs, cursor := s.chanQ.cursor + 1, state := .paused })]
  · rfl
  · simp only [ChannelRec.stepped, hc, if_true, ← hrs, Config.resultLimit, hl, h, and_self]

theorem stepQuery_single (h : s.chanQ.state = .running) (hrs : rs = s.chanQ.results ++ (judgeQuery s s.chanQ).toList)
    (hc : s.chanQ.last ≤ s.chanQ.cursor) (hm : s.chanQ.mode = .single) : stepQuery s = setAttention 17
      { s with chanQ := { s.chanQ with results := rs, passCount := 1, state := .done } } := by
  rw [stepQuery_running h (q := { s.chanQ with results := rs, passCount := 1, state := .done })]
  · rfl
  · simp only [ChannelRec.stepped, Nat.not_lt.mpr hc, if_false, hm, ← hrs, reduceCtorEq, false_and]

theorem stepQuery_loop (h : s.chanQ.state = .running) (hrs : rs = s.chanQ.results ++ (judgeQuery s s.chanQ).toList)
    (hc : s.chanQ.last ≤ s.chanQ.cursor) (hm : s.chanQ.mode = .loop) : stepQuery s = setAttention 17
      { s with chanQ := { s.chanQ with
        results := rs, cursor := s.chanQ.first
        passCount := if s.chanQ.passCount < 65535 then s.chanQ.passCount + 1 else s.chanQ.passCount
        state := if 16 ≤ rs.length then .paused else .running } } := by
  rw [stepQuery_running h rfl, if_pos (.inr hc)]
  simp only [ChannelRec.stepped, Nat.not_lt.mpr hc, if_false, hm, ← hrs, h, true_and, Config.resultLimit]
  split
  · rfl
  · rw [← h]
    rfl

theorem binPasses_iff (r : BinRec) (f : Filter) : binPasses r f = true ↔ match f with
    | .stranded => r.stranded = true
    | .obstructed => r.obstructed = true
    | .uncertain => r.uncertain = true
    | .quarantined => r.quarantined = true
    | .homeAisle a => r.home.aisle.val = a
    | .fillAtMost n => r.fill ≤ n
    | .openVisit => r.openVisit ≠ none
    | .idleSince day => ∀ d, r.lastVisitDay = some d → d < day
    | .overdue | .outBefore _ | .homeBinRange _ _ | .returning => False := by
  cases f <;> simp [binPasses, Option.isSome_iff_ne_none]
  cases r.lastVisitDay <;> simp

theorem recordPasses_iff (today : Nat) (w : WithdrawalRec) (f : Filter) : recordPasses today w f = true ↔ match f with
    | .overdue => w.dueDay < today
    | .outBefore day => w.outDay < day
    | .homeBinRange low high => low ≤ w.homeBin ∧ w.homeBin ≤ high
    | .returning => w.state = .returning
    | .stranded | .obstructed | .uncertain | .quarantined | .homeAisle _ | .fillAtMost _ | .openVisit
    | .idleSince _ => False := by
  cases f <;> simp [recordPasses]

theorem judgeQuery_bin {f : Filter} {r : BinRec} (ht : s.chanQ.table = .bin) (hf : s.chanQ.filter = some f)
    (hb : bin s s.chanQ.cursor = some r) :
    judgeQuery s s.chanQ = if binPasses r f then some (.bin s.chanQ.cursor) else none := by
  simp only [judgeQuery, hf, ht, hb]

theorem judgeQuery_record {f : Filter} {w : WithdrawalRec} (ht : s.chanQ.table = .withdrawal)
    (hf : s.chanQ.filter = some f) (hb : tableGet s.withdrawals s.chanQ.cursor = some w) :
    judgeQuery s s.chanQ = if recordPasses s.day w f then some (.bucket s.chanQ.cursor w.key) else none := by
  simp only [judgeQuery, hf, ht, hb]

theorem judgeQuery_freeBin (ht : s.chanQ.table = .bin) (hb : bin s s.chanQ.cursor = none) :
    judgeQuery s s.chanQ = none := by
  cases hf : s.chanQ.filter <;> simp only [judgeQuery, hf, ht, hb]

theorem judgeQuery_emptyBucket (ht : s.chanQ.table = .withdrawal) (hb : tableGet s.withdrawals s.chanQ.cursor = none) :
    judgeQuery s s.chanQ = none := by
  cases hf : s.chanQ.filter <;> simp only [judgeQuery, hf, ht, hb]

end

/-- Settles O32. -/
theorem scanStepJudgesOneRecord : Obligations.ScanStepJudgesOneRecord := by
  intro s hr
  rw [exec_scanStep hr]
  refine ⟨fun h => congrArg _ (if_neg h), fun rs h hrs => ⟨fun hc hl => ?_, fun hc hl => ?_, fun hc hm => ?_, fun hc hm => ?_⟩,
    fun f r pass ht hf hb hpass => ?_, judgeQuery_freeBin, judgeQuery_emptyBucket, fun f w pass ht hf hb hpass => ?_⟩
  · rw [stepQuery_within h hrs hc hl]
  · rw [stepQuery_full h hrs hc hl]
  · rw [stepQuery_single h hrs hc hm]
  · rw [stepQuery_loop h hrs hc hm]
  · rw [judgeQuery_bin ht hf hb]
    have := hpass.trans (binPasses_iff r f).symm
    exact ⟨fun h => if_pos (this.mp h), fun h => if_neg (mt this.mpr h)⟩
  · rw [judgeQuery_record ht hf hb]
    have := hpass.trans (recordPasses_iff s.day w f).symm
    exact ⟨fun h => if_pos (this.mp h), fun h => if_neg (mt this.mpr h)⟩

end Sys2Proof.Machine

/-! The replies of the reads of records (R5, R44, R60, R61, R182 Table 4), byte after byte. -/

namespace Sys2Proof.Machine

/-! ### Lengths -/

theorem locationBytes_length (loc : Location) : (locationBytes loc).length = 3 := by
  cases loc <;> rfl

theorem slotBytes_length (sl : Slot) : (slotBytes sl).length = 4 := rfl

theorem optSlot_length (o : Option Slot) : (optSlot o).length = 4 := by
  cases o <;> rfl

theorem binBytes_length (b : Nat) (r : BinRec) : (binBytes b r).length = 20 := by
  simp only [binBytes, List.length_append, bytes_length, byte_length, setByte_length, locationBytes_length,
    slotBytes_length, optByte]

theorem bucketBytes_length (i home : Nat) (w : WithdrawalRec) : (bucketBytes i home (some w)).length = 19 := by
  simp only [bucketBytes, List.length_append, bytes_length, byte_length, keyBytes, optByte]

theorem visitBytes_length (n : Nat) (v : VisitRec) : (visitBytes n v).length = 21 := by
  simp only [visitBytes, holdBytes, List.length_append, bytes_length, byte_length, setByte_length, optSlot_length, optByte]

/-! ### Fields -/

theorem withdrawalStateCode_eq (st : WithdrawalState) : st.code = if st = .out then 0 else 1 := by
  cases st <;> rfl

section
variable {p : List Byte} {s : State} {r : BinRec} {v : VisitRec} {w : WithdrawalRec} {t : PendingTask}

/-! ### The commands -/

theorem runReadBin_badValue (h : 16384 ≤ wordAt p 0) : runReadBin p s = .refuse .badValue [] :=
  if_pos ((badBin_iff _).mpr h)

theorem runReadBin_free (h : wordAt p 0 < 16384) (hb : bin s (wordAt p 0) = none) :
    runReadBin p s = .refuse .noSuchBin [] :=
  (refuseIf_passes (badBin_eq_false.mpr h)).trans (by rw [hb]; rfl)

theorem runReadBin_reads (h : wordAt p 0 < 16384) (hb : bin s (wordAt p 0) = some r) :
    runReadBin p s = .reply .done (binBytes (wordAt p 0) r) s :=
  (refuseIf_passes (badBin_eq_false.mpr h)).trans (withSome_passes hb)

theorem runReadSlot_badValue (h : slotAt p 0 = none) : runReadSlot p s = .refuse .badValue [] := by
  rw [runReadSlot, h]
  rfl

theorem runReadSlot_reads {sl : Slot} (h : slotAt p 0 = some sl) :
    runReadSlot p s = .reply .done (slotEntryBytes (slotEntry s sl)) s := withSome_passes h

theorem runReadBucket_badValue (h : 4096 ≤ wordAt p 0) : runReadBucket p s = .refuse .badValue [] :=
  if_pos (decide_eq_true h)

theorem runReadBucket_reads (h : wordAt p 0 < 4096) : runReadBucket p s = .reply .done
    (bucketBytes (wordAt p 0) (((tableGet s.withdrawals (wordAt p 0)).map fun r => homeBucket r.key).getD 0)
      (tableGet s.withdrawals (wordAt p 0))) s :=
  refuseIf_passes (decide_eq_false (Nat.not_le.mpr h))

theorem runReadVisit_badValue (h : 64 ≤ byteAt p 0 ∨ 2 < byteAt p 1) : runReadVisit p s = .refuse .badValue [] :=
  if_pos (by rwa [Bool.or_eq_true, badVisit_iff, decide_eq_true_iff])

theorem goodVisitPart (hn : byteAt p 0 < 64) (hp : byteAt p 1 ≤ 2) :
    (badVisit (byteAt p 0) || decide (2 < byteAt p 1)) = false := by
  rw [badVisit_eq_false.mpr hn, Bool.false_or]
  exact decide_eq_false (Nat.not_lt.mpr hp)

theorem runReadVisit_free (hn : byteAt p 0 < 64) (hp : byteAt p 1 ≤ 2) (hv : visit s (byteAt p 0) = none) :
    runReadVisit p s = .refuse .noSuchVisit [] :=
  (refuseIf_passes (goodVisitPart hn hp)).trans (by rw [hv]; rfl)

theorem runReadVisit_reads (hn : byteAt p 0 < 64) (hp : byteAt p 1 ≤ 2) (hv : visit s (byteAt p 0) = some v) :
    runReadVisit p s = .reply .done
      (if byteAt p 1 = 0 then visitBytes (byteAt p 0) v else taskPartBytes (byteAt p 0) (byteAt p 1) v) s :=
  (refuseIf_passes (goodVisitPart hn hp)).trans (withSome_passes hv)

theorem runFindItem_badValue (h : keyAt p 0 = 0) : runFindItem p s = .refuse .badValue [] :=
  if_pos ((badKey_iff _).mpr h)

theorem runFindItem_out (h : keyAt p 0 ≠ 0) (hw : withdrawal s (keyAt p 0) = some w) :
    runFindItem p s = .reply .done
      (0x00 :: bucketBytes (lookup s.withdrawals (keyAt p 0)).bucket (homeBucket (keyAt p 0)) (some w) ++
        pendingBytes (findPendingTask (keyAt p 0) s.visits) ++ bytes 2 (lookup s.withdrawals (keyAt p 0)).probes) s := by
  obtain ⟨hfound, hrec⟩ := withdrawal_eq_some_iff.mp hw
  refine (refuseIf_passes (badKey_eq_false.mpr h)).trans ((if_pos hfound).trans ?_)
  rw [hrec]
  rfl

theorem runFindItem_pending (h : keyAt p 0 ≠ 0) (hf : (lookup s.withdrawals (keyAt p 0)).found = false)
    (ht : findPendingTask (keyAt p 0) s.visits = some t) : runFindItem p s = .reply .done
      (0x01 :: bucketBytes 0 0 none ++
        [BitVec.ofNat 8 t.visit, BitVec.ofNat 8 t.index, BitVec.ofNat 8 t.kind.code, 0x00, 0x00]) s := by
  refine (refuseIf_passes (badKey_eq_false.mpr h)).trans ((if_neg (ne_true_of_eq_false hf)).trans ?_)
  rw [ht]
  rfl

theorem runFindItem_notOut (h : keyAt p 0 ≠ 0) (hf : (lookup s.withdrawals (keyAt p 0)).found = false)
    (ht : findPendingTask (keyAt p 0) s.visits = none) : runFindItem p s = .refuse .notOut
      [BitVec.ofNat 8 (homeBucket (keyAt p 0) / 256), BitVec.ofNat 8 (homeBucket (keyAt p 0))] := by
  refine (refuseIf_passes (badKey_eq_false.mpr h)).trans ((if_neg (ne_true_of_eq_false hf)).trans ?_)
  rw [ht]
  rfl

end

/-- A refusal that carries data leaves the state as it was, too (R165). -/
theorem takeCommand_refusesWith {c : Byte} {len : Nat} {m : Modes} {run : List Byte → State → Result} {p data : List Byte}
    {s : State} {code : OutcomeCode} (hs : linkIdle s) (hp : p.length = len) (hl : len ≤ 30)
    (hm : ∀ r, modeCheck m s r = r) (h : run p (loadCommand (c :: commandBody p) s) = .refuse code data) :
    takeCommand c len m run (commandBody p) s = writeReply code data s := by
  rw [takeCommand_idle hs hp hl, h, show modeCheck m (loadCommand (c :: commandBody p) s) (.refuse code data) =
    modeCheck m s (.refuse code data) from rfl, hm]
  rfl

theorem readBin_and_readSlot (p : List Byte) (s : State) (hs : linkIdle s) :
    (p.length = 2 →
      (16384 ≤ wordAt p 0 → exec (.readBin (commandBody p)) s = .next (writeReply .badValue [] s)) ∧
      (wordAt p 0 < 16384 → bin s (wordAt p 0) = none →
        exec (.readBin (commandBody p)) s = .next (writeReply .noSuchBin [] s)) ∧
      ∀ r, wordAt p 0 < 16384 → bin s (wordAt p 0) = some r →
        exec (.readBin (commandBody p)) s = .next (writeReply .done (binBytes (wordAt p 0) r) s)) ∧
    (p.length = 4 →
      (slotAt p 0 = none → exec (.readSlot (commandBody p)) s = .next (writeReply .badValue [] s)) ∧
      ∀ sl, slotAt p 0 = some sl →
        exec (.readSlot (commandBody p)) s = .next (writeReply .done (slotEntryBytes (slotEntry s sl)) s)) := by
  have both := @modeCheck_both s
  refine ⟨fun hp => ⟨fun h => ?_, fun h hb => ?_, fun r h hb => ?_⟩, fun hp => ⟨fun h => ?_, fun sl h => ?_⟩⟩
  · exact congrArg _ (takeCommand_refuses hs hp (by decide) both (runReadBin_badValue h))
  · exact congrArg _ (takeCommand_refuses hs hp (by decide) both (runReadBin_free h hb))
  · exact congrArg _ (takeCommand_replies hs hp (by decide) both (runReadBin_reads h hb))
  · exact congrArg _ (takeCommand_refuses hs hp (by decide) both (runReadSlot_badValue h))
  · exact congrArg _ (takeCommand_replies hs hp (by decide) both (runReadSlot_reads h))

/-- Settles O12. -/
theorem recordReadsReply : Obligations.RecordReadsReply := by
  unfold Obligations.RecordReadsReply
  simp only [← bytes_eq_digits, ← setByte_eq_sum]
  refine ⟨fun b r => ⟨binBytes_length b r, ?_⟩, fun e => ?_, fun i home w => ⟨bucketBytes_length i home w, ?_, rfl⟩,
    fun n v => ⟨visitBytes_length n v, ?_, rfl, rfl⟩, ⟨rfl, fun k => rfl⟩, ⟨rfl, rfl, rfl, rfl, rfl, rfl⟩,
    readBin_and_readSlot, fun p s hs hp => ⟨fun h => ?_, fun h hw => ?_, fun w h hw => ?_, fun h => ?_,
      fun hn hpart hv => ?_, fun v hn hpart hv => ?_⟩,
    fun p s hs hp => ⟨fun h => ?_, fun w h hw => ?_, fun t h hf ht => ?_, fun h hf ht => ?_⟩⟩
  · obtain ⟨sizeClass, capacity, fill, withdrawn, lendHolds, refileHolds, home, loc, openVisit⟩ := r
    cases loc <;> rfl
  · cases e <;> rfl
  · rw [← withdrawalStateCode_eq]
    rfl
  · rcases htarget : v.target with _ | sl <;> simp only [visitBytes, htarget] <;> rfl
  · exact congrArg _ (takeCommand_refuses hs hp (by decide) modeCheck_both (runReadBucket_badValue h))
  · refine congrArg _ ((takeCommand_replies hs hp (by decide) modeCheck_both (runReadBucket_reads h)).trans ?_)
    rw [loadCommand_withdrawals, hw]
    rfl
  · refine congrArg _ ((takeCommand_replies hs hp (by decide) modeCheck_both (runReadBucket_reads h)).trans ?_)
    rw [loadCommand_withdrawals, hw]
    rfl
  · exact congrArg _ (takeCommand_refuses hs hp (by decide) modeCheck_both (runReadVisit_badValue h))
  · exact congrArg _ (takeCommand_refuses hs hp (by decide) modeCheck_both (runReadVisit_free hn hpart hv))
  · exact congrArg _ (takeCommand_replies hs hp (by decide) modeCheck_both (runReadVisit_reads hn hpart hv))
  · exact congrArg _ (takeCommand_refuses hs hp (by decide) modeCheck_both (runFindItem_badValue h))
  · exact congrArg _ (takeCommand_replies hs hp (by decide) modeCheck_both (runFindItem_out h hw))
  · exact congrArg _ (takeCommand_replies hs hp (by decide) modeCheck_both (runFindItem_pending h hf ht))
  · exact congrArg _ (takeCommand_refusesWith hs hp (by decide) modeCheck_both (runFindItem_notOut h hf ht))

end Sys2Proof.Machine

/-! The replies of the reads of blocks, parameters and the status (R117, R137, R152, R170, R175, R182 Table 4). -/

namespace Sys2Proof.Machine

theorem laneBytes_length (s : State) (b : Option Nat) : (laneBytes s b).length = 3 := rfl

theorem flatMap_bytes_length (k : Nat) (l : List Nat) : (l.flatMap (bytes k)).length = l.length * k := by
  induction l with
  | nil => simp
  | cons x l ih => simp only [List.flatMap_cons, List.length_append, ih, bytes_length, List.length_cons]; ring

theorem optByte_length (o : Option Nat) : (optByte o).length = 1 := rfl
theorem optBin_length (o : Option Nat) : (optBin o).length = 2 := bytes_length ..
theorem optTimer_length (n : Nat) (o : Option Nat) : (optTimer n o).length = n := bytes_length ..
theorem keyBytes_length (o : Option ItemKey) : (keyBytes o).length = 6 := bytes_length ..

theorem craneBytes_length (s : State) (a : Aisle) : (craneBytes s a).length = 49 := by
  unfold craneBytes
  simp only [List.length_append, bytes_length, byte_length, setByte_length, optByte_length, optBin_length,
    optTimer_length, flatMap_bytes_length, Vector.length_toList]

theorem stationBytes_length (s : State) (z : Station) : (stationBytes s z).length = 43 := by
  unfold stationBytes
  simp only [List.length_append, byte_length, setByte_length, optByte_length, optBin_length,
    optTimer_length, laneBytes_length, keyBytes_length]

theorem zoneBytes_length (s : State) (z : Station) : (zoneBytes s z).length = 15 := by
  simp only [zoneBytes, levelByte, injectionByte, craneStateByte, List.length_append, byte_length,
    setByte_length, optByte_length, optTimer_length]

/-- The three lane places one after the other. -/
theorem lanes_append (x : List Byte) (s : State) (lane : List Nat) :
    x ++ laneBytes s lane[0]? ++ laneBytes s lane[1]? ++ laneBytes s lane[2]? =
      x ++ ([0, 1, 2] : List Nat).flatMap fun i => laneBytes s lane[i]? := by
  simp only [List.flatMap_cons, List.flatMap_nil, List.append_nil, List.append_assoc]

theorem isOut_toNat (r : StationRec) : r.isOut.toNat = if r.jammed || r.reopenFault then 1 else 0 := by
  rw [StationRec.isOut]
  cases r.jammed || r.reopenFault <;> rfl

section
variable {p : List Byte} {s : State} {a : Aisle} {z : Station}

/-! ### Blocks that a command names -/

theorem withAisle_present {rest : Aisle → Result} (ha : aisleOf (byteAt p 0) = some a) (hp : aislePresent s a = true) :
    withAisle p s rest = rest a :=
  (withSome_passes ha).trans (refuseIf_passes (by rw [hp]; rfl))

theorem withAisle_absent {rest : Aisle → Result} (ha : aisleOf (byteAt p 0) = some a) (hp : aislePresent s a = false) :
    withAisle p s rest = .refuse .aisleOut [] :=
  (withSome_passes ha).trans (if_pos (by rw [hp]; rfl))

theorem withAisle_none {rest : Aisle → Result} (ha : aisleOf (byteAt p 0) = none) :
    withAisle p s rest = .refuse .badValue [] := by
  rw [withAisle, ha]
  rfl

theorem withStation_present {rest : Station → Result} (hz : stationOf (byteAt p 0) = some z)
    (hp : stationPresent s z = true) : withStation p s rest = rest z :=
  withSome_passes (by rw [hz, Option.filter_some, if_pos hp])

theorem withStation_absent {rest : Station → Result} (hz : stationOf (byteAt p 0) = some z)
    (hp : stationPresent s z = false) : withStation p s rest = .refuse .badValue [] := by
  rw [withStation, hz, Option.filter_some, if_neg (ne_true_of_eq_false hp)]
  rfl

theorem withStation_none {rest : Station → Result} (hz : stationOf (byteAt p 0) = none) :
    withStation p s rest = .refuse .badValue [] := by
  rw [withStation, hz]
  rfl

theorem runReadCrane_reads (ha : aisleOf (byteAt p 0) = some a) (hp : aislePresent s a = true) :
    runReadCrane p s = .reply .done (craneBytes s a) s := withAisle_present ha hp

theorem runReadStation_reads (hz : stationOf (byteAt p 0) = some z) (hp : stationPresent s z = true) :
    runReadStation p s = .reply .done (stationBytes s z) (modStation z (·.clearFlags) s) := withStation_present hz hp

theorem runReadZone_reads (hz : stationOf (byteAt p 0) = some z) : runReadZone p s = .reply .done (zoneBytes s z) s :=
  withSome_passes hz

theorem runReadParameter_reads {n : Fin 41} (hn : paramOf (byteAt p 0) = some n) :
    runReadParameter p s = .reply .done (paramBytes (s.params.get n)) s := withSome_passes hn

theorem runReadZone_none (h : stationOf (byteAt p 0) = none) : runReadZone p s = .refuse .badValue [] := by
  rw [runReadZone, h]
  rfl

theorem runReadParameter_none (h : paramOf (byteAt p 0) = none) : runReadParameter p s = .refuse .badValue [] := by
  rw [runReadParameter, h]
  rfl

/-- A mask word is sent as its low byte (R170). -/
theorem byte_param (s : State) (n : Fin 41) : byte (param s n) = [(s.params.get n).value.setWidth 8] :=
  congrArg (fun b => [b]) (BitVec.eq_of_toNat_eq (by rw [BitVec.toNat_ofNat, BitVec.toNat_setWidth]; rfl))

theorem runReadStatus_eq (q : List Byte) (s : State) : runReadStatus q s = .reply .done
    [BitVec.ofNat 8 s.mode.code, BitVec.ofNat 8 s.resets.cause.code, BitVec.ofNat 8 (s.day / 256), BitVec.ofNat 8 s.day,
      (s.params.get 0).value.setWidth 8, (s.params.get 1).value.setWidth 8]
    { s with link := { s.link with restarted := false } } := by
  rw [runReadStatus, byte_param, byte_param]
  rfl

end

/-- Settles O13. -/
theorem blockAndStatusReadsReply : Obligations.BlockAndStatusReadsReply := by
  unfold Obligations.BlockAndStatusReadsReply
  simp only [← bytes_eq_digits, ← setByte_eq_sum]
  refine ⟨fun s a c hc => ⟨craneBytes_length s a, ?_⟩, fun s z r hr => ⟨stationBytes_length s z, ?_⟩,
    fun s z r hr => ⟨zoneBytes_length s z, ?_⟩, ⟨rfl, rfl, rfl, rfl, rfl, rfl, rfl, rfl, rfl, rfl, rfl, rfl, rfl, rfl⟩,
    fun p s hs hp => ⟨fun a ha hpr => ?_, fun a ha hpr => ?_, fun ha => ?_, fun z hz hpr => ?_, fun z hz hpr => ?_,
      fun z hz => ?_, fun hz => ⟨?_, ?_⟩, fun n hn => ?_, fun hn => ?_⟩, fun s hs => ?_⟩
  · rw [hc]
    unfold craneBytes
    rfl
  · rw [hr]
    unfold stationBytes
    rcases hx : (station s z).crossing with _ | x <;> simp only [hx, lanes_append] <;> rfl
  · rw [hr, ← isOut_toNat]
    rfl
  · exact congrArg _ (takeCommand_replies hs hp (by decide) modeCheck_both (runReadCrane_reads ha hpr))
  · exact congrArg _ (takeCommand_refuses hs hp (by decide) modeCheck_both (withAisle_absent ha hpr))
  · exact congrArg _ (takeCommand_refuses hs hp (by decide) modeCheck_both (withAisle_none ha))
  · exact congrArg _ (takeCommand_replies hs hp (by decide) modeCheck_both (runReadStation_reads hz hpr))
  · exact congrArg _ (takeCommand_refuses hs hp (by decide) modeCheck_both (withStation_absent hz hpr))
  · exact congrArg _ (takeCommand_replies hs hp (by decide) modeCheck_both (runReadZone_reads hz))
  · exact congrArg _ (takeCommand_refuses hs hp (by decide) modeCheck_both (withStation_none hz))
  · exact congrArg _ (takeCommand_refuses hs hp (by decide) modeCheck_both (runReadZone_none hz))
  · exact congrArg _ (takeCommand_replies hs hp (by decide) modeCheck_both (runReadParameter_reads hn))
  · exact congrArg _ (takeCommand_refuses hs hp (by decide) modeCheck_both (runReadParameter_none hn))
  · exact congrArg _ (takeCommand_replies (p := []) hs rfl (by decide) modeCheck_both (runReadStatus_eq _ _))

end Sys2Proof.Machine

/-! Retire Bin, Alter Bin and Admit Bin (R7 to R10). -/

namespace Sys2Proof.Machine

/-! ### Retire Bin -/

section
variable {p : List Byte} {s : State} {r : BinRec} {v : VisitRec} {n : Nat} {z : Station}

theorem runRetireBin_badValue (h : 16384 ≤ wordAt p 0) : runRetireBin p s = .refuse .badValue [] :=
  if_pos ((badBin_iff _).mpr h)

theorem runRetireBin_free (h : wordAt p 0 < 16384) (hb : bin s (wordAt p 0) = none) :
    runRetireBin p s = .refuse .noSuchBin [] :=
  (refuseIf_passes (badBin_eq_false.mpr h)).trans (by rw [hb]; rfl)

theorem hasPending_eq_false (v : VisitRec) : hasPending v = false ↔ ∀ t ∈ v.tasks, t.state ≠ .pending := by
  simp [hasPending]

theorem retiringVisit_eq_none
    (h : ∀ n v, r.openVisit = some n → visit s n = some v → v.state ≠ .atFace ∨ ∃ t ∈ v.tasks, t.state = .pending) :
    retiringVisit s r = none := by
  unfold retiringVisit
  split
  · rfl
  · rename_i n hn
    split
    · rename_i v hv
      refine if_neg fun hface => ?_
      have htasks := (hasPending_eq_false v).mp hface.2
      obtain hstate | ⟨t, ht, hpending⟩ := h n v hn hv
      · exact hstate hface.1
      · exact htasks t ht hpending
    · rfl

theorem retiringVisit_eq_some (hn : r.openVisit = some n) (hv : visit s n = some v) (hf : v.state = .atFace)
    (ht : ∀ t ∈ v.tasks, t.state ≠ .pending) : retiringVisit s r = some n := by
  simp only [retiringVisit, hn, hv, hf, (hasPending_eq_false v).mpr ht, and_self, if_true]

section
variable (h : wordAt p 0 < 16384) (hb : bin s (wordAt p 0) = some r)
include h hb

theorem runRetireBin_protected (hp : isProtected s (wordAt p 0) = true) :
    runRetireBin p s = .refuse .protected_ [] :=
  (refuseIf_passes (badBin_eq_false.mpr h)).trans ((withSome_passes hb).trans (if_pos hp))

theorem runRetireBin_zoneClosed (hp : isProtected s (wordAt p 0) = false) (hz : zoneClosed s (zoneOf r.home.aisle) = true) :
    runRetireBin p s = .refuse .zoneClosed [] :=
  (refuseIf_passes (badBin_eq_false.mpr h)).trans ((withSome_passes hb).trans ((refuseIf_passes hp).trans (if_pos hz)))

/-- Past the checks of bin, protection and zone, what is left is the bin's place and its visit (R10 steps 5 and 6). -/
theorem runRetireBin_checked (hp : isProtected s (wordAt p 0) = false)
    (hz : zoneClosed s (zoneOf r.home.aisle) = false) : runRetireBin p s =
      refuseIf (r.location != .face (zoneOf r.home.aisle) || r.withdrawn != 0) .state
        (withSome (retiringVisit s r) .state fun n =>
          done [] (settleZone s (zoneOf r.home.aisle) (retire (wordAt p 0) r (zoneOf r.home.aisle) n s))) :=
  (refuseIf_passes (badBin_eq_false.mpr h)).trans ((withSome_passes hb).trans
    ((refuseIf_passes hp).trans (refuseIf_passes hz)))

variable (hp : isProtected s (wordAt p 0) = false) (hz : zoneClosed s (zoneOf r.home.aisle) = false)
include hp hz

theorem runRetireBin_elsewhere (hl : r.location ≠ .face (zoneOf r.home.aisle) ∨ r.withdrawn ≠ 0) :
    runRetireBin p s = .refuse .state [] := by
  rw [runRetireBin_checked h hb hp hz]
  exact if_pos (by rwa [Bool.or_eq_true, bne_iff_ne, bne_iff_ne])

theorem runRetireBin_noVisit (hv : retiringVisit s r = none) : runRetireBin p s = .refuse .state [] := by
  rw [runRetireBin_checked h hb hp hz, hv, refuseIf]
  split <;> rfl

theorem runRetireBin_retires (hl : r.location = .face (zoneOf r.home.aisle)) (hw : r.withdrawn = 0)
    (hv : retiringVisit s r = some n) : runRetireBin p s = .reply .done []
      (settleZone s (zoneOf r.home.aisle) (retire (wordAt p 0) r (zoneOf r.home.aisle) n s)) := by
  rw [runRetireBin_checked h hb hp hz, refuseIf_passes (by simp [hl, hw]), withSome_passes hv]
  rfl

end

theorem commutes_retire (m : List Byte) (b : Nat) (r : BinRec) (z : Station) (n : Nat) : Commutes m (retire b r z n) := by
  intro s
  simp only [retire, commutes_endVisit n .done .removed s, setSlot_loadCommand]
  rfl

end

/-- Settles O16. -/
theorem retireBinRemoves : Obligations.RetireBinRemoves := by
  intro p s hs hm hp
  have service := modeCheck_service hm
  refine ⟨fun h => ?_, fun h hb => ?_, ?_⟩
  · exact congrArg _ (takeCommand_refuses hs hp (by decide) service (runRetireBin_badValue h))
  · exact congrArg _ (takeCommand_refuses hs hp (by decide) service (runRetireBin_free h hb))
  · rintro r z h hb rfl
    refine ⟨fun hpr => ?_, fun hpr hz => ?_, fun hpr hz => ⟨fun hl => ?_, fun hv => ?_, fun n v hl hw hn hv hf ht => ?_⟩⟩
    · exact congrArg _ (takeCommand_refuses hs hp (by decide) service (runRetireBin_protected h hb hpr))
    · exact congrArg _ (takeCommand_refuses hs hp (by decide) service (runRetireBin_zoneClosed h hb hpr hz))
    · exact congrArg _ (takeCommand_refuses hs hp (by decide) service (runRetireBin_elsewhere h hb hpr hz hl))
    · exact congrArg _ (takeCommand_refuses hs hp (by decide) service
        (runRetireBin_noVisit h hb hpr hz (retiringVisit_eq_none hv)))
    · refine ⟨_, settles_settleZone _ _ _, congrArg _ (takeCommand_settles hs hp (by decide) service fun x => ?_)⟩
      rw [runRetireBin_retires (s := loadCommand x s) h hb hpr hz hl hw (retiringVisit_eq_some hn hv hf ht),
        commutes_retire]
      rfl

/-! ### Alter Bin -/

section
variable {p : List Byte} {s : State} {r : BinRec}

/-- R9 step 1 and R182: when an alteration is BAD_VALUE. -/
theorem badAlteration_iff (p : List Byte) : badAlteration p = true ↔
    16384 ≤ wordAt p 0 ∨ 16 ≤ byteAt p 2 ∨ 16 ≤ byteAt p 6 ∨ (bitAt p 2 0 = true ∧ 3 < byteAt p 3) ∨
      (¬bitAt p 2 0 = true ∧ byteAt p 3 ≠ 0) ∨ (bitAt p 2 1 = true ∧ (byteAt p 4 = 0 ∨ 250 < byteAt p 4)) ∨
      (¬bitAt p 2 1 = true ∧ byteAt p 4 ≠ 0) ∨ (bitAt p 2 2 = true ∧ 250 < byteAt p 5) ∨
      (¬bitAt p 2 2 = true ∧ byteAt p 5 ≠ 0) ∨ (bitAt p 2 3 = true ∧ bitAt p 6 0 = true) := by
  have hclass : (3 < (givenField p 0 3).getD 0 ∨ ((givenField p 0 3).isNone = true ∧ byteAt p 3 ≠ 0)) ↔
      (bitAt p 2 0 = true ∧ 3 < byteAt p 3) ∨ (¬bitAt p 2 0 = true ∧ byteAt p 3 ≠ 0) := by
    cases h : bitAt p 2 0 <;> simp [givenField, h]
  have hcap : ((givenField p 1 4 = some 0 ∨ 250 < (givenField p 1 4).getD 1) ∨
      ((givenField p 1 4).isNone = true ∧ byteAt p 4 ≠ 0)) ↔
      (bitAt p 2 1 = true ∧ (byteAt p 4 = 0 ∨ 250 < byteAt p 4)) ∨ (¬bitAt p 2 1 = true ∧ byteAt p 4 ≠ 0) := by
    cases h : bitAt p 2 1 <;> simp [givenField, h]
  have hfill : (250 < (givenField p 2 5).getD 0 ∨ ((givenField p 2 5).isNone = true ∧ byteAt p 5 ≠ 0)) ↔
      (bitAt p 2 2 = true ∧ 250 < byteAt p 5) ∨ (¬bitAt p 2 2 = true ∧ byteAt p 5 ≠ 0) := by
    cases h : bitAt p 2 2 <;> simp [givenField, h]
  have hgroups : badAlteration p = true ↔ 16384 ≤ wordAt p 0 ∨ 16 ≤ byteAt p 2 ∨ 16 ≤ byteAt p 6 ∨
      (3 < (givenField p 0 3).getD 0 ∨ ((givenField p 0 3).isNone = true ∧ byteAt p 3 ≠ 0)) ∨
      ((givenField p 1 4 = some 0 ∨ 250 < (givenField p 1 4).getD 1) ∨
        ((givenField p 1 4).isNone = true ∧ byteAt p 4 ≠ 0)) ∨
      (250 < (givenField p 2 5).getD 0 ∨ ((givenField p 2 5).isNone = true ∧ byteAt p 5 ≠ 0)) ∨
      (bitAt p 2 3 = true ∧ bitAt p 6 0 = true) := by
    simp only [badAlteration, Bool.or_eq_true, Bool.and_eq_true, bne_iff_ne, beq_iff_eq, badBin_iff, decide_eq_true_eq]
    simp only [alterationOf]
    refine Iff.of_eq ?_
    ac_rfl
  rw [hgroups, hclass, hcap, hfill]
  simp only [or_assoc]

theorem getD_givenField (bit i x : Nat) : (givenField p bit i).getD x = if bitAt p 2 bit then byteAt p i else x := by
  rw [givenField]
  split <;> rfl

/-- The record after the alteration, field by field (R9). -/
theorem alterationOf_apply (p : List Byte) (r : BinRec) : (alterationOf p).apply r = { r with
    sizeClass := if bitAt p 2 0 then byteAt p 3 else r.sizeClass
    capacity := if bitAt p 2 1 then byteAt p 4 else r.capacity
    fill := if bitAt p 2 2 then byteAt p 5 else r.fill
    quarantined := (r.quarantined || bitAt p 2 3) && !bitAt p 6 0
    stranded := r.stranded && !bitAt p 6 1
    obstructed := r.obstructed && !bitAt p 6 2
    uncertain := r.uncertain && !bitAt p 6 3 } := by
  simp only [Alteration.apply, alterationOf, getD_givenField]

theorem isSome_givenField (bit i : Nat) : (givenField p bit i).isSome = bitAt p 2 bit := by
  rw [givenField]
  cases bitAt p 2 bit <;> rfl

/-- With the upper bits of the changes byte 0, something is changed exactly while the byte is not 0 (R9 step 3). -/
theorem changesMore_iff (h : byteAt p 2 < 16) : (alterationOf p).changesMore = true ↔ byteAt p 2 ≠ 0 := by
  have hbits : byteAt p 2 = 0 ↔ bitAt p 2 0 = false ∧ bitAt p 2 1 = false ∧ bitAt p 2 2 = false ∧ bitAt p 2 3 = false := by
    simp only [byteAt, bitAt] at h ⊢
    generalize p.getD 2 0 = x at h ⊢
    revert x
    decide
  simp only [Alteration.changesMore, alterationOf, isSome_givenField, Bool.or_eq_true, ne_eq, hbits]
  cases bitAt p 2 0 <;> cases bitAt p 2 1 <;> cases bitAt p 2 2 <;> cases bitAt p 2 3 <;> decide

theorem countsOk_iff (r : BinRec) :
    r.countsOk = true ↔ r.lendHolds ≤ r.fill ∧ r.fill + r.withdrawn + r.refileHolds ≤ r.capacity := by
  rw [BinRec.countsOk, Bool.and_eq_true, decide_eq_true_iff, decide_eq_true_iff]

theorem runAlterBin_badValue (h : badAlteration p = true) : runAlterBin p s = .refuse .badValue [] := if_pos h

section
variable (h : badAlteration p = false)
include h

theorem runAlterBin_free (hb : bin s (wordAt p 0) = none) : runAlterBin p s = .refuse .noSuchBin [] :=
  (refuseIf_passes h).trans (by rw [hb]; rfl)

theorem runAlterBin_protected (hb : bin s (wordAt p 0) = some r) (hp : isProtected s (wordAt p 0) = true)
    (hc : (alterationOf p).changesMore = true) : runAlterBin p s = .refuse .protected_ [] :=
  (refuseIf_passes h).trans ((withSome_passes hb).trans (if_pos (by rw [hp, hc]; rfl)))

variable (hb : bin s (wordAt p 0) = some r)
  (hp : isProtected s (wordAt p 0) = false ∨ (alterationOf p).changesMore = false)
include hb hp

theorem runAlterBin_allowed : runAlterBin p s = refuseIf (!((alterationOf p).apply r).countsOk) .state
    (done (binBytes (wordAt p 0) ((alterationOf p).apply r))
      (settleZone s (zoneOf r.home.aisle) (setBin (wordAt p 0) ((alterationOf p).apply r) s))) :=
  (refuseIf_passes h).trans ((withSome_passes hb).trans (refuseIf_passes (by
    rcases hp with hp | hp <;> simp only [hp, Bool.false_and, Bool.and_false])))

theorem runAlterBin_badCounts (hx : ((alterationOf p).apply r).fill < ((alterationOf p).apply r).lendHolds ∨
    ((alterationOf p).apply r).capacity < ((alterationOf p).apply r).fill + ((alterationOf p).apply r).withdrawn +
      ((alterationOf p).apply r).refileHolds) : runAlterBin p s = .refuse .state [] := by
  rw [runAlterBin_allowed h hb hp]
  refine if_pos ?_
  rw [Bool.not_eq_true', ← Bool.not_eq_true, countsOk_iff]
  omega

theorem runAlterBin_alters (hx : ((alterationOf p).apply r).countsOk = true) : runAlterBin p s =
    .reply .done (binBytes (wordAt p 0) ((alterationOf p).apply r))
      (settleZone s (zoneOf r.home.aisle) (setBin (wordAt p 0) ((alterationOf p).apply r) s)) := by
  rw [runAlterBin_allowed h hb hp]
  exact refuseIf_passes (by rw [hx]; rfl)

end

end

/-- Settles O15. -/
theorem alterBinChanges : Obligations.AlterBinChanges := by
  intro p s hs hp
  have bad := badAlteration_iff p
  refine ⟨fun h => ?_, fun hgood hb => ?_, fun r r' hgood hb hr' => ?_⟩
  · exact congrArg _ (takeCommand_refuses hs hp (by decide) modeCheck_both (runAlterBin_badValue (bad.mpr h)))
  · exact congrArg _ (takeCommand_refuses hs hp (by decide) modeCheck_both
      (runAlterBin_free (Bool.eq_false_iff.mpr (mt bad.mp hgood)) hb))
  · rw [← alterationOf_apply] at hr'
    subst hr'
    have h : badAlteration p = false := Bool.eq_false_iff.mpr (mt bad.mp hgood)
    have hlow : byteAt p 2 < 16 := Nat.lt_of_not_le fun hge => hgood (.inr (.inl hge))
    have hmore := changesMore_iff hlow
    refine ⟨fun hpr hc => ?_, fun hpr => ?_⟩
    · exact congrArg _ (takeCommand_refuses hs hp (by decide) modeCheck_both (runAlterBin_protected h hb hpr (hmore.mpr hc)))
    · have hallowed : isProtected s (wordAt p 0) = false ∨ (alterationOf p).changesMore = false :=
        hpr.imp_right fun hc => Bool.eq_false_iff.mpr fun hx => hmore.mp hx hc
      refine ⟨fun hx => ?_, fun hl hc => ⟨_, settles_settleZone _ _ _, ?_⟩⟩
      · exact congrArg _ (takeCommand_refuses hs hp (by decide) modeCheck_both (runAlterBin_badCounts h hb hallowed hx))
      · refine congrArg _ (takeCommand_settles hs hp (by decide) modeCheck_both fun x => ?_)
        rw [runAlterBin_alters (s := loadCommand x s) h hb hallowed ((countsOk_iff _).mpr ⟨hl, hc⟩)]
        rfl

end Sys2Proof.Machine

/-! Admit Bin (R7, R8). -/

namespace Sys2Proof.Machine

section
variable {p : List Byte} {s : State} {sl : Slot} {code : OutcomeCode} {z : Station} {n : Nat}

theorem setStation_setStation (z : Station) (r q : StationRec) (s : State) :
    setStation z r (setStation z q s) = setStation z r s := by
  simp [setStation]

/-! ### The fields -/

/-- The fields of an Admit Bin whose home slot is `sl`. -/
def admitted (p : List Byte) (sl : Slot) : Admission :=
  ⟨wordAt p 0, byteAt p 2, byteAt p 3, byteAt p 4, sl, byteAt p 9⟩

theorem admissionOf_eq_none (h : 16384 ≤ wordAt p 0 ∨ 3 < byteAt p 2 ∨ byteAt p 3 = 0 ∨ 250 < byteAt p 3 ∨
    byteAt p 3 < byteAt p 4 ∨ slotAt p 5 = none) : admissionOf p = none := by
  simp only [admissionOf, Bool.or_eq_true, badBin_iff, beq_iff_eq, decide_eq_true_eq]
  split
  · rfl
  · rename_i hrange
    have hslot : slotAt p 5 = none := by
      rcases h with h | h | h | h | h | h
      case inr.inr.inr.inr.inr => exact h
      all_goals exact absurd (by simp [h]) hrange
    rw [hslot]
    rfl

theorem admissionOf_eq_some (h : ¬(16384 ≤ wordAt p 0 ∨ 3 < byteAt p 2 ∨ byteAt p 3 = 0 ∨ 250 < byteAt p 3 ∨
    byteAt p 3 < byteAt p 4 ∨ slotAt p 5 = none)) (hsl : slotAt p 5 = some sl) : admissionOf p = some (admitted p sl) := by
  simp only [admissionOf, Bool.or_eq_true, badBin_iff, beq_iff_eq, decide_eq_true_eq]
  rw [if_neg fun hbad => ?_, hsl]
  · rfl
  · rcases hbad with (((hbad | hbad) | hbad) | hbad) | hbad <;> exact h (by simp [hbad])

theorem runAdmitBin_badValue (h : admissionOf p = none) : runAdmitBin p s = .refuse .badValue [] := by
  rw [runAdmitBin, h]
  rfl

theorem runAdmitBin_commissioning {d : Admission} (h : admissionOf p = some d) (hm : s.mode = .commissioning) :
    runAdmitBin p s = runLoadBin d s :=
  (withSome_passes h).trans (by rw [hm])

theorem runAdmitBin_service {d : Admission} (h : admissionOf p = some d) (hm : s.mode = .service) :
    runAdmitBin p s = runIntake d s :=
  (withSome_passes h).trans (by rw [hm])

/-! ### In COMMISSIONING -/

theorem slotTaken_iff (s : State) (sl : Slot) : slotTaken s sl = true ↔ slotEntry s sl ≠ .empty := bne_iff_ne
theorem slotTaken_eq_false : slotTaken s sl = false ↔ slotEntry s sl = .empty := bne_eq_false_iff_eq

theorem not_aislePresent_iff (s : State) (a : Aisle) : (!aislePresent s a) = true ↔ aislePresent s a = false :=
  by rw [Bool.not_eq_true']

theorem runLoadBin_refuses (h : FirstFailing [((bin s (wordAt p 0)).isSome = true, .state),
    (aislePresent s sl.aisle = false, .aisleOut), (slotEntry s sl ≠ .empty, .slotTaken)] code) :
    runLoadBin (admitted p sl) s = .refuse code [] :=
  refuseIf_first Iff.rfl (refuseIf_first (not_aislePresent_iff s sl.aisle)
    (refuseIf_first (slotTaken_iff s sl) False.elim)) h

theorem runLoadBin_loads (hb : bin s (wordAt p 0) = none) (ha : aislePresent s sl.aisle = true)
    (he : slotEntry s sl = .empty) : runLoadBin (admitted p sl) s = .reply .done [0xFF] (setBin (wordAt p 0)
      ⟨byteAt p 2, byteAt p 3, byteAt p 4, 0, 0, 0, sl, .slot, none, false, false, false, false, none⟩
      (setSlot sl (.filled (wordAt p 0)) s)) :=
  (refuseIf_passes (Option.isSome_eq_false_iff.mpr (Option.isNone_iff_eq_none.mpr hb))).trans
    ((refuseIf_passes ((congrArg (!·) ha).trans rfl)).trans (refuseIf_passes (slotTaken_eq_false.mpr he)))

/-! ### In SERVICE -/

theorem runIntake_badValue
    (h : ∀ z, stationOf (byteAt p 9) = some z → stationPresent s z = false ∨ zoneOf sl.aisle ≠ z) :
    runIntake (admitted p sl) s = .refuse .badValue [] := by
  have hnone : (stationOf (byteAt p 9)).filter (fun z => stationPresent s z && zoneOf sl.aisle == z) = none := by
    rw [Option.filter_eq_none_iff]
    intro z hz hgood
    rw [Bool.and_eq_true, beq_iff_eq] at hgood
    obtain hp | hp := h z hz
    · exact Bool.false_ne_true (hp.symm.trans hgood.1)
    · exact hp hgood.2
  rw [runIntake]
  exact (congrArg (withSome · _ _) hnone).trans rfl

/-- R8 step 6: the face is occupied, or a bin stands LANE OPENING at the station. -/
theorem faceBusy_iff (s : State) (z : Station) : faceBusy s z = true ↔ (station s z).face ≠ none ∨
    (∃ x, (station s z).crossing = some x ∧ x.kind = .present) ∨
    ∃ b, (station s z).openingBin = some b ∧ binLocation s b = some (.opening z) := by
  have hopening : (binInOpening s z).isSome = true ↔
      ∃ b, (station s z).openingBin = some b ∧ binLocation s b = some (.opening z) := by
    simp only [binInOpening, Option.isSome_iff_exists, Option.filter_eq_some_iff, beq_iff_eq]
  simp only [faceBusy, Bool.or_eq_true, Option.isSome_iff_ne_none, hopening, or_assoc]
  refine or_congr Iff.rfl (or_congr ?_ Iff.rfl)
  cases (station s z).crossing <;> simp

theorem isOut_iff (r : StationRec) : r.isOut = true ↔ r.jammed = true ∨ r.reopenFault = true := Bool.or_eq_true_iff

theorem zoneNotClear_iff (s : State) (z : Station) : ((zone s z).state != .clear) = true ↔ (zone s z).state ≠ .clear :=
  bne_iff_ne

theorem stationOf_filter (hz : stationOf (byteAt p 9) = some z) (hp : stationPresent s z = true)
    (ha : zoneOf sl.aisle = z) :
    (stationOf (byteAt p 9)).filter (fun z => stationPresent s z && zoneOf sl.aisle == z) = some z := by
  rw [hz, Option.filter_some, if_pos]
  rw [hp, ha, Bool.true_and, beq_iff_eq]

section
variable (hz : stationOf (byteAt p 9) = some z) (hp : stationPresent s z = true) (ha : zoneOf sl.aisle = z)
include hz hp ha

theorem runIntake_refuses (h : FirstFailing [((bin s (wordAt p 0)).isSome = true, .state),
    ((zone s z).state ≠ .clear, .zoneClosed), (service s sl.aisle ≠ .inService, .aisleOut),
    ((station s z).jammed = true ∨ (station s z).reopenFault = true, .stationOut),
    ((station s z).face ≠ none ∨ (∃ x, (station s z).crossing = some x ∧ x.kind = .present) ∨
      (∃ b, (station s z).openingBin = some b ∧ binLocation s b = some (.opening z)), .state),
    (slotEntry s sl ≠ .empty, .slotTaken), (freeVisit s = none, .tableFull)] code) :
    runIntake (admitted p sl) s = .refuse code [] := by
  refine (withSome_passes (stationOf_filter hz hp ha)).trans ?_
  exact refuseIf_first Iff.rfl (refuseIf_first (zoneNotClear_iff s z) (refuseIf_first (aisleOut_iff s sl.aisle)
    (refuseIf_first (isOut_iff _) (refuseIf_first (faceBusy_iff s z) (refuseIf_first (slotTaken_iff s sl)
      (withSome_first Iff.rfl fun _ _ => False.elim)))))) h

theorem runIntake_passes (hb : bin s (wordAt p 0) = none) (hc : (zone s z).state = .clear)
    (hs : service s sl.aisle = .inService) (hj : (station s z).jammed = false) (hf : (station s z).reopenFault = false)
    (hbusy : faceBusy s z = false) (he : slotEntry s sl = .empty) (hn : freeVisit s = some n) :
    runIntake (admitted p sl) s = .reply .done [BitVec.ofNat 8 n] (intake (admitted p sl) z n s) := by
  refine (withSome_passes (stationOf_filter hz hp ha)).trans ?_
  refine (refuseIf_passes (Option.isSome_eq_false_iff.mpr (Option.isNone_iff_eq_none.mpr hb))).trans ?_
  refine (refuseIf_passes (bne_eq_false_iff_eq.mpr hc)).trans ?_
  refine (refuseIf_passes (Bool.eq_false_iff.mpr (mt (aisleOut_iff s sl.aisle).mp (not_not.mpr hs)))).trans ?_
  refine (refuseIf_passes (by rw [StationRec.isOut, hj, hf]; rfl)).trans ((refuseIf_passes hbusy).trans ?_)
  exact (refuseIf_passes (slotTaken_eq_false.mpr he)).trans (withSome_passes hn)

end

theorem modStation_eq (z : Station) (f : StationRec → StationRec) (s : State) :
    modStation z f s = setStation z (f (station s z)) s := rfl

theorem visit_setVisit_same (n : Nat) (v : VisitRec) (s : State) : visit (setVisit n v s) n = some v :=
  tableGet_put_same _ _ _

theorem setVisit_modStation (n : Nat) (v : VisitRec) (z : Station) (f : StationRec → StationRec) (s : State) :
    setVisit n v (modStation z f s) = modStation z f (setVisit n v s) := rfl

theorem startFaceTimer_modStation (z : Station) (f : StationRec → StationRec) (s : State) :
    startFaceTimer z (modStation z f s) =
      setStation z { f (station s z) with faceTimer := some (1000 * param s 31) } s := by
  simp only [startFaceTimer, modStation_eq, setStation_setStation, station_setStation]
  rfl

/-- A visit that arrives at the face is there with its face timer running, and its pending tasks are shown (R8, R125). -/
theorem arriveAtFace_eq {b : Nat} {v : VisitRec} (hv : visit s n = some v) : arriveAtFace z b n s =
    startFaceTimer z (showPending z 0 v.tasks (setVisit n { v with state := .atFace }
      (modStation z (fun r => { r with face := some ⟨b, n⟩ }) s))) := by
  have hmod : modVisit n (fun v => { v with state := .atFace }) (modStation z (fun r => { r with face := some ⟨b, n⟩ }) s) =
      setVisit n { v with state := .atFace } (modStation z (fun r => { r with face := some ⟨b, n⟩ }) s) :=
    modVisit_of_some _ hv
  simp only [arriveAtFace, hmod, visit_setVisit_same]

/-- What an intake enters: the record at the face, its visit AT_FACE with no task, and the face timer (R8). -/
theorem intake_eq (z : Station) (n : Nat) (s : State) : intake (admitted p sl) z n s =
    setStation z { station s z with face := some ⟨wordAt p 0, n⟩, faceTimer := some (1000 * param s 31) }
      (setVisit n ⟨.intake, wordAt p 0, .atFace, s.time.ms, 0, false, [], HoldSet.none, false, none,
          ⟨false, false, false⟩, none⟩
        (setBin (wordAt p 0)
          ⟨byteAt p 2, byteAt p 3, byteAt p 4, 0, 0, 0, sl, .face z, some n, false, false, false, false, none⟩
          (setSlot sl (.home (wordAt p 0)) s))) := by
  simp only [intake]
  rw [arriveAtFace_eq (visit_setVisit_same n _ _), setVisit_modStation, setVisit_setVisit]
  exact startFaceTimer_modStation z _ _

end

/-- Settles O14. -/
theorem admitBinEntersTheRecord : Obligations.AdmitBinEntersTheRecord := by
  intro p s hs hp
  refine ⟨fun h => ?_, fun sl hm hgood hsl => ⟨fun code h => ?_, fun hb ha he => ?_⟩,
    fun sl hm hgood hsl => ⟨fun h => ?_, ?_⟩⟩
  · exact congrArg _ (takeCommand_refuses hs hp (by decide) modeCheck_both (runAdmitBin_badValue (admissionOf_eq_none h)))
  · exact congrArg _ (takeCommand_refuses hs hp (by decide) modeCheck_both
      ((runAdmitBin_commissioning (s := loadCommand _ s) (admissionOf_eq_some hgood hsl) hm).trans (runLoadBin_refuses h)))
  · exact congrArg _ (takeCommand_replies hs hp (by decide) modeCheck_both
      ((runAdmitBin_commissioning (s := loadCommand _ s) (admissionOf_eq_some hgood hsl) hm).trans (runLoadBin_loads hb ha he)))
  · exact congrArg _ (takeCommand_refuses hs hp (by decide) modeCheck_both
      ((runAdmitBin_service (s := loadCommand _ s) (admissionOf_eq_some hgood hsl) hm).trans (runIntake_badValue h)))
  · rintro z r hz hpr ha rfl
    refine ⟨fun code h => ?_, fun n hb hc hsv hj hf hface hcross hopen he hn => ?_⟩
    · exact congrArg _ (takeCommand_refuses hs hp (by decide) modeCheck_both
        ((runAdmitBin_service (s := loadCommand _ s) (admissionOf_eq_some hgood hsl) hm).trans (runIntake_refuses hz hpr ha h)))
    · have hbusy : faceBusy s z = false := by
        refine Bool.eq_false_iff.mpr fun h => ?_
        obtain h | ⟨x, hx, hk⟩ | ⟨b, hb', hloc⟩ := (faceBusy_iff s z).mp h
        · exact h hface
        · cases hk.symm.trans (hcross x hx)
        · exact hopen b hb' hloc
      refine congrArg _ ((takeCommand_replies hs hp (by decide) modeCheck_both
        ((runAdmitBin_service (s := loadCommand _ s) (admissionOf_eq_some hgood hsl) hm).trans
          (runIntake_passes hz hpr ha hb hc hsv hj hf hbusy he hn))).trans ?_)
      rw [intake_eq]
      rfl

end Sys2Proof.Machine

/-! Reports of a crane as events of its zone, and the marks of its axes (R99, R101, R106, R108). -/

namespace Sys2Proof.Machine

/-! ### Events of a crane -/

section
variable {a : Aisle} {s u : State} {c : Instr} {f : State → State}

/-- A report that is an event of a crane is answered with what its effect makes possible. -/
theorem craneEvent_answers (hr : inReset s = false) (hc : exec c s = .next (craneEvent a f s)) (hu : u = f s) :
    ∃ t, Settles s (zoneOf a) u t ∧ exec c s = .next t :=
  ⟨_, settles_settleZone _ _ _, by rw [hc, craneEvent, outsideReset_of_not _ hr, hu]; rfl⟩

theorem setCrane_setCrane (a : Aisle) (c d : CraneRec) (s : State) :
    setCrane a c (setCrane a d s) = setCrane a c s := by
  simp [setCrane]

end

/-! ### Marks -/

section
variable {a : Aisle} {h : Bool} {s : State} {c m w : CraneRec} {x target index : Nat}

/-- What a recorded index leaves as it was: the segment and its counts. -/
theorem moved_segment (c : CraneRec) (h : Bool) (i : Nat) : (c.moved h i).segment = c.segment := by
  cases h <;> simp only [CraneRec.moved, if_true, Bool.false_eq_true, if_false] <;> split <;> rfl

theorem moved_slipCount (c : CraneRec) (h : Bool) (i : Nat) : (c.moved h i).slipCount = c.slipCount := by
  cases h <;> simp only [CraneRec.moved, if_true, Bool.false_eq_true, if_false] <;> split <;> rfl

theorem timed_segment (c : CraneRec) (h : Bool) (now : Nat) : (c.timed h now).segment = c.segment := by
  cases h <;> rfl

theorem timed_slipCount (c : CraneRec) (h : Bool) (now : Nat) : (c.timed h now).slipCount = c.slipCount := by
  cases h <;> rfl

theorem expectedMark_iff (x target index : Nat) : expectedMark x target index = true ↔
    (x < target ∧ index = x + 1) ∨ (target < x ∧ index + 1 = x) := by
  simp only [expectedMark, Bool.or_eq_true, Bool.and_eq_true, decide_eq_true_eq, beq_iff_eq]

theorem breaks_iff (y : MarkTiming) (now r : Nat) : y.breaks now r = true ↔
    2 ≤ y.marks ∧ (r * y.interval < now - y.last ∨ (now - y.last) * r < y.interval) := by
  simp only [MarkTiming.breaks, Bool.and_eq_true, Bool.or_eq_true, decide_eq_true_eq, gt_iff_lt]

/-- A mark that counts a slip: the count rises, or a SLIP fault is taken at the limit (R106). -/
theorem countSlip_setCrane (a : Aisle) (m : CraneRec) (s : State) : countSlip a (setCrane a m s) =
    if m.slipCount + 1 < param s 27 then setCrane a { m with slipCount := m.slipCount + 1 } s
    else takeFault a .slip (setCrane a { m with slipCount := 0, col := none, level := none } s) := by
  simp only [countSlip, takeSlip, crane_setCrane, setCrane_setCrane, ge_iff_le, ← Nat.not_lt, ite_not]
  rfl

theorem takeSpeed_setCrane (a : Aisle) (m : CraneRec) (s : State) :
    takeSpeed a (setCrane a m s) = takeFault a .speed (setCrane a { m with speedTaken := true } s) := by
  rw [takeSpeed, crane_setCrane, setCrane_setCrane]

theorem takeMark_unexpected
    (hx : (crane s a).state = .homing ∨ (crane s a).state = .resting ∨
      (if h then (crane s a).col else (crane s a).level) = none) : takeMark a h index s = unexpectedReport a s := by
  simp only [takeMark]
  split
  · rfl
  · rename_i hst
    rw [(hx.resolve_left fun h => hst (.inl h)).resolve_left fun h => hst (.inr h)]

theorem takeMark_known (h1 : (crane s a).state ≠ .homing) (h2 : (crane s a).state ≠ .resting)
    (hx : (if h then (crane s a).col else (crane s a).level) = some x) :
    takeMark a h index s = checkMark a h x index s := by
  simp only [takeMark, h1, h2, or_self, if_false, hx]

variable {g : SegmentRec}

theorem checkMark_free (hg : ∀ g, (crane s a).segment = some g → g.kind = .home) :
    checkMark a h x index s = setCrane a ((crane s a).moved h index) s := by
  cases hseg : (crane s a).segment with
  | none => simp only [checkMark, hseg]
  | some g => simp only [checkMark, hseg, hg g hseg]

theorem checkMark_fork (hseg : (crane s a).segment = some g) (hk : g.kind.isFork = true) :
    checkMark a h x index s = countSlip a (setCrane a ((crane s a).moved h index) s) := by
  cases hkind : g.kind <;> simp only [checkMark, hseg, hkind] <;> simp [hkind, SegKind.isFork] at hk

/-- The state once a mark of a TRAVEL or PARK is timed and its slip judged. -/
def slipJudged (a : Aisle) (h : Bool) (x index : Nat) (g : SegmentRec) (s : State) : State :=
  if expectedMark x (if h then g.col else g.level) index then
    setCrane a (((crane s a).moved h index).timed h s.time.ms) s
  else countSlip a (setCrane a (((crane s a).moved h index).timed h s.time.ms) s)

theorem checkMark_travel (hseg : (crane s a).segment = some g) (hk : g.kind = .travel ∨ g.kind = .park) :
    checkMark a h x index s =
      if (if h then (crane s a).timingH else (crane s a).timingV).breaks s.time.ms (param s 29) &&
        !(crane s a).speedTaken && (crane (slipJudged a h x index g s) a).segment.isSome
      then takeSpeed a (slipJudged a h x index g s) else slipJudged a h x index g s := by
  rcases hk with hk | hk <;> simp only [checkMark, hseg, hk] <;> rfl

section
variable (hseg : (crane s a).segment = some g) (hk : g.kind = .travel ∨ g.kind = .park)
include hseg hk

/-- No SPEED fault: the interval keeps the ratio, or the fault was taken in this segment already (R108). -/
theorem checkMark_quiet {y : MarkTiming} (hy : y = (if h then (crane s a).timingH else (crane s a).timingV))
    (hb : ¬(2 ≤ y.marks ∧ (param s 29 * y.interval < s.time.ms - y.last ∨ (s.time.ms - y.last) * param s 29 < y.interval)) ∨
      (crane s a).speedTaken = true) : checkMark a h x index s = slipJudged a h x index g s := by
  rw [checkMark_travel hseg hk, if_neg]
  rw [Bool.and_eq_true, Bool.and_eq_true, ← hy, breaks_iff]
  rintro ⟨⟨hbreaks, hs⟩, -⟩
  obtain hb | hb := hb
  · exact hb hbreaks
  · rw [hb] at hs
    cases hs

theorem checkMark_speeds {y : MarkTiming} (hy : y = (if h then (crane s a).timingH else (crane s a).timingV))
    (hb : 2 ≤ y.marks ∧ (param s 29 * y.interval < s.time.ms - y.last ∨ (s.time.ms - y.last) * param s 29 < y.interval))
    (hs : (crane s a).speedTaken = false) (hsome : (crane (slipJudged a h x index g s) a).segment ≠ none) :
    checkMark a h x index s = takeSpeed a (slipJudged a h x index g s) := by
  rw [checkMark_travel hseg hk, if_pos]
  rw [Bool.and_eq_true, Bool.and_eq_true, ← hy, breaks_iff, Option.isSome_iff_ne_none, hs]
  exact ⟨⟨hb, rfl⟩, hsome⟩

/-- A SLIP fault that stopped the segment leaves no SPEED fault to take. -/
theorem checkMark_stopped (hnone : (crane (slipJudged a h x index g s) a).segment = none) :
    checkMark a h x index s = slipJudged a h x index g s := by
  rw [checkMark_travel hseg hk, if_neg]
  rw [hnone, Option.isSome_none, Bool.and_false]
  exact Bool.false_ne_true

end

end

section
variable {a : Aisle} {h : Bool} {s u : State} {index : Byte} {x : Nat} {g : SegmentRec} {w : CraneRec}

theorem exec_mark (hr : inReset s = false) (hu : u = takeMark a h index.toNat s) :
    ∃ t, Settles s (zoneOf a) u t ∧ exec (.mark a (if h then 0 else 1) index) s = .next t := by
  cases h
  · exact craneEvent_answers (f := takeMark a false index.toNat) hr rfl hu
  · exact craneEvent_answers (f := takeMark a true index.toNat) hr rfl hu

theorem slipJudged_next (hn : (x < (if h then g.col else g.level) ∧ index.toNat = x + 1) ∨
      ((if h then g.col else g.level) < x ∧ index.toNat + 1 = x))
    (hw : w = ((crane s a).moved h index.toNat).timed h s.time.ms) :
    slipJudged a h x index.toNat g s = setCrane a w s := by
  rw [slipJudged, if_pos ((expectedMark_iff ..).mpr hn), hw]

theorem slipJudged_slip (hn : ¬((x < (if h then g.col else g.level) ∧ index.toNat = x + 1) ∨
      ((if h then g.col else g.level) < x ∧ index.toNat + 1 = x)))
    (hw : w = ((crane s a).moved h index.toNat).timed h s.time.ms) :
    slipJudged a h x index.toNat g s = if (crane s a).slipCount + 1 < param s 27 then
        setCrane a { w with slipCount := (crane s a).slipCount + 1 } s
      else takeFault a .slip (setCrane a { w with slipCount := 0, col := none, level := none } s) := by
  rw [slipJudged, if_neg (mt (expectedMark_iff ..).mp hn), countSlip_setCrane, timed_slipCount, moved_slipCount, hw]

end

/-- Settles O39. -/
theorem marksAreChecked : Obligations.MarksAreChecked := by
  refine ⟨fun c i now => ⟨rfl, rfl, rfl, rfl⟩, ?_⟩
  rintro a h index s c m u hr rfl rfl
  refine ⟨fun hx hu => exec_mark hr (hu.trans (takeMark_unexpected hx).symm), fun x h1 h2 hx => ?_⟩
  have hmark : takeMark a h index.toNat s = checkMark a h x index.toNat s := takeMark_known h1 h2 hx
  refine ⟨fun hg hu => ?_, fun g hseg hk => ⟨fun hl hu => ?_, fun hl hu => ?_⟩, ?_⟩
  · exact exec_mark hr (by rw [hu, hmark, checkMark_free hg])
  · exact exec_mark hr (by rw [hu, hmark, checkMark_fork hseg hk, countSlip_setCrane, moved_slipCount, if_pos hl])
  · exact exec_mark hr (by
      rw [hu, hmark, checkMark_fork hseg hk, countSlip_setCrane, moved_slipCount, if_neg (Nat.not_lt.mpr hl)])
  · intro g w y hseg hk hy hw
    have hwseg : w.segment = some g := by rw [hw, timed_segment, moved_segment, hseg]
    have hquiet := fun hb => hmark.trans (checkMark_quiet hseg hk hy hb)
    have hspeeds := checkMark_speeds hseg hk (x := x) (index := index.toNat) hy
    refine ⟨fun hn hb hu => ?_, fun hn hb hs hu => ?_, fun hn hb => ⟨fun hl hu => ?_, fun hl hu => ?_⟩,
      fun z hn hb hs hz => ⟨fun hnone hu => ?_, fun hsome hu => ?_⟩⟩
    · exact exec_mark hr (by rw [hu, hquiet hb, slipJudged_next hn hw])
    · have hsome : (crane (slipJudged a h x index.toNat g s) a).segment ≠ none := by
        rw [slipJudged_next hn hw, crane_setCrane, hwseg]
        exact Option.some_ne_none g
      exact exec_mark hr (by rw [hu, hmark, hspeeds hb hs hsome, slipJudged_next hn hw, takeSpeed_setCrane])
    · exact exec_mark hr (by rw [hu, hquiet hb, slipJudged_slip hn hw, if_pos hl])
    · exact exec_mark hr (by rw [hu, hquiet hb, slipJudged_slip hn hw, if_neg (Nat.not_lt.mpr hl)])
    · rw [← slipJudged_slip hn hw] at hz
      exact exec_mark hr (by rw [hu, hmark, checkMark_stopped hseg hk (hz ▸ hnone), hz])
    · rw [← slipJudged_slip hn hw] at hz
      exact exec_mark hr (by rw [hu, hmark, hspeeds hb hs (hz ▸ hsome), ← hz, takeSpeed])

end Sys2Proof.Machine

/-! The timers of a crane (R88, R111) and the deglitch of the fire-panel inputs (R139). -/

namespace Sys2Proof.Machine

/-! ### Timers -/

section
variable {t : Option Nat}

theorem timerDue_iff : timerDue t = true ↔ t = some 0 := by
  simp only [timerDue, beq_iff_eq]

theorem timerDue_eq_false : timerDue t = false ↔ t ≠ some 0 := by
  rw [← Bool.not_eq_true, timerDue_iff]

end

/-! ### The retry delay and the rest timer -/

section
variable {a : Aisle} {s : State} {l : LegRec}

theorem legSegment_isFork_iff (s : State) (l : LegRec) :
    (legSegment s l).kind.isFork = true ↔ (legSegment s l).kind ≠ .travel := by
  have hkind (k : SegKind) (sl : Option Slot) : (segmentAt s k sl).kind = k := by
    cases sl <;> rfl
  simp only [legSegment]
  split <;> rw [hkind] <;> decide

theorem takeRetryDelay_idle (h : (crane s a).retryTimer ≠ some 0) : takeRetryDelay a s = s := by
  rw [takeRetryDelay, timerDue_eq_false.mpr h]
  rfl

theorem takeRetryDelay_due (h : (crane s a).retryTimer = some 0) : takeRetryDelay a s = takeRetry a s := by
  rw [takeRetryDelay, timerDue_iff.mpr h]
  rfl

/-- The state in which a retry is taken: the retry timer has stopped. -/
def retryStopped (a : Aisle) (s : State) : State := setCrane a { crane s a with retryTimer := none } s

theorem retryStopped_eq : setCrane a { crane s a with retryTimer := none } s = retryStopped a s := rfl

theorem takeRetry_homing (h : (crane s a).state = .homing) :
    takeRetry a s = issue a ⟨.home, 0, param s 4, .mouth, 0⟩ true (retryStopped a s) := by
  simp only [takeRetry, retryStopped_eq]
  simp only [h]
  rfl

theorem takeRetry_parking (h : (crane s a).state = .parking) :
    takeRetry a s = issue a ⟨.park, param s 5 + 1, 0, .mouth, 0⟩ true (retryStopped a s) := by
  simp only [takeRetry, retryStopped_eq]
  simp only [h]
  rfl

/-- A crane whose leg a cancellation ended enters READY (R87). -/
theorem takeRetry_ended (h : (crane s a).state = .retryWait)
    (hl : ∀ l, (crane s a).leg = some l → l.cancelled = true) : takeRetry a s = enterReady a (retryStopped a s) := by
  cases hleg : (crane s a).leg with
  | none =>
    simp only [takeRetry, retryStopped_eq]
    simp only [h, hleg]
  | some l =>
    simp only [takeRetry, retryStopped_eq]
    simp only [h, hleg, hl l hleg, if_true]

theorem takeRetry_leg (h : (crane s a).state = .retryWait) (hl : (crane s a).leg = some l) (hc : l.cancelled = false) :
    takeRetry a s = setCraneState a .moving (reissueLeg a l (retryStopped a s)) := by
  simp only [takeRetry, retryStopped_eq]
  simp only [h, hl, hc, Bool.false_eq_true, if_false]

section
variable (hcol : (crane s a).col ≠ none) (hlevel : (crane s a).level ≠ none)
include hcol hlevel

theorem reissueLeg_retryStopped : reissueLeg a l (retryStopped a s) =
    issue a (if l.approach then { legSegment s l with kind := .travel } else legSegment s l) true (retryStopped a s) :=
  reissueLeg_known (s := retryStopped a s) (by rwa [retryStopped, crane_setCrane]) (by rwa [retryStopped, crane_setCrane])

end

theorem reissueLeg_lost (h : (crane s a).col = none ∨ (crane s a).level = none) : reissueLeg a l (retryStopped a s) =
    issue a ⟨.home, 0, param s 4, .mouth, 0⟩ true (if (legSegment s l).kind = .travel then retryStopped a s
      else setCrane a { crane s a with retryTimer := none, leg := some { l with approach := true } } s) := by
  rw [reissueLeg_unknown (s := retryStopped a s) (by rwa [retryStopped, crane_setCrane])]
  change issue a (homeSegment s) true (if (legSegment s l).kind.isFork = true then _ else _) = _
  simp only [legSegment_isFork_iff, ne_eq, ite_not, setLeg, retryStopped, crane_setCrane, setCrane_setCrane]
  rfl

theorem takeRestTimer_due (h : (crane s a).state = .ready) (ht : (crane s a).restTimer = some 0) :
    takeRestTimer a s = sendDrive a .brakeRest (setCrane a { crane s a with state := .resting, restTimer := none } s) := by
  rw [takeRestTimer, if_pos ⟨h, timerDue_iff.mpr ht⟩, takeRest]

theorem takeRestTimer_idle (h : (crane s a).state ≠ .ready ∨ (crane s a).restTimer ≠ some 0) : takeRestTimer a s = s := by
  rw [takeRestTimer, if_neg]
  rwa [timerDue_iff, not_and_or]

end

/-- Settles O43. -/
theorem craneTimersAct : Obligations.CraneTimersAct := by
  rintro a s c hr rfl
  have hgo {u : State} (hu : u = takeRetryDelay a s) :
      ∃ t, Settles s (zoneOf a) u t ∧ exec (.retryDelayExpiry a) s = .next t := craneEvent_answers hr rfl hu
  refine ⟨fun h => hgo (takeRetryDelay_idle h).symm, ?_, fun h ht => ?_, fun h => ?_⟩
  · rintro u v hdue rfl
    have hgo {w : State} (hw : takeRetry a s = w) (hv : v = w) :
        ∃ t, Settles s (zoneOf a) v t ∧ exec (.retryDelayExpiry a) s = .next t :=
      hgo (hv.trans (hw.symm.trans (takeRetryDelay_due hdue).symm))
    refine ⟨fun h => hgo (takeRetry_homing h), fun h => hgo (takeRetry_parking h),
      fun h hl => hgo (takeRetry_ended h hl), ?_⟩
    rintro l g w h hl hc rfl rfl
    have hleg := takeRetry_leg h hl hc
    refine ⟨fun hcol hlevel => ⟨fun ha hw => ?_, fun ha hw => ?_⟩, fun hlost => ⟨fun hg hw => ?_, fun hg hw => ?_⟩⟩
    · rw [reissueLeg_retryStopped hcol hlevel, ha] at hleg
      exact hgo hleg (by rw [hw]; rfl)
    · rw [reissueLeg_retryStopped hcol hlevel, ha] at hleg
      exact hgo hleg (by rw [hw]; rfl)
    · rw [reissueLeg_lost hlost, if_pos hg] at hleg
      exact hgo hleg (by rw [hw]; rfl)
    · rw [reissueLeg_lost hlost, if_neg hg] at hleg
      exact hgo hleg (by rw [hw]; rfl)
  · exact (next_outsideReset hr).trans (congrArg _ (takeRestTimer_due h ht))
  · exact (next_outsideReset hr).trans (congrArg _ (takeRestTimer_idle h))

/-! ### The fire-panel inputs -/

section
variable {i : FireInput} {high level : Bool} {s : State}

theorem setConditioner_setConditioner (i : FireInput) (c d : Conditioner) (s : State) :
    setConditioner i c (setConditioner i d s) = setConditioner i c s := by
  simp [setConditioner]

theorem presentLevel_setConditioner (i : FireInput) (c : Conditioner) (s : State) :
    presentLevel (setConditioner i c s) i = (c.pinHigh != (s.params.get 33).value.getLsbD i.val) := by
  rw [presentLevel, conditioner_setConditioner]
  rfl

/-- A level at the pin is compared with the taken one, and starts, leaves or stops the window (R139). -/
theorem reconcile_setConditioner (i : FireInput) (c : Conditioner) (s : State) :
    reconcile i (setConditioner i c s) = setConditioner i ⟨c.pinHigh, c.taken,
      if (c.pinHigh != (s.params.get 33).value.getLsbD i.val) = c.taken then none
      else if c.window = none then some (deglitchTime s i) else c.window⟩ s := by
  simp only [reconcile, presentLevel_setConditioner, conditioner_setConditioner, setConditioner_setConditioner,
    Option.isNone_iff_eq_none]
  split
  · rfl
  · split
    · rfl
    · rfl

theorem takeInputLevel_eq (hr : inReset s = false) (hl : level = (high != (s.params.get 33).value.getLsbD i.val)) :
    takeInputLevel i high s = setConditioner i ⟨high, takenLevel s i,
      if level = takenLevel s i then none
      else if (conditioner s i).window = none then
        some (param s (if i.val < 4 then 34 else if i.val < 9 then 35 else 36))
      else (conditioner s i).window⟩ s := by
  rw [takeInputLevel, if_neg (by rw [hr]; exact Bool.false_ne_true), reconcile_setConditioner, hl]
  simp only [deglitchTime, apply_ite (param s)]
  rfl

theorem takeDeglitch_due (h : (conditioner s i).window = some 0) : takeDeglitch i s = takeLevel i s := by
  rw [takeDeglitch, timerDue_iff.mpr h]
  rfl

theorem takeDeglitch_idle (h : (conditioner s i).window ≠ some 0) : takeDeglitch i s = s := by
  rw [takeDeglitch, timerDue_eq_false.mpr h]
  rfl

end

/-- Settles O48. -/
theorem inputsAreDeglitched : Obligations.InputsAreDeglitched := by
  intro i high level s hr hl
  have hgo {u : State} (hu : takeDeglitch i s = u) : ∃ t, SettlesAll s u t ∧ exec (.deglitchWindowExpiry i) s = .next t :=
    ⟨_, settles_settleAll _ _, hu ▸ next_outsideReset (g := eventOfAll (takeDeglitch i)) hr⟩
  refine ⟨congrArg _ (takeInputLevel_eq hr hl), ?_, fun h => hgo (takeDeglitch_idle h)⟩
  rintro h u rfl
  exact hgo ((takeDeglitch_due h).trans rfl)

end Sys2Proof.Machine

/-! The issue of a segment, and the segments of a leg in their order (R85, R90, R98, R100). -/

namespace Sys2Proof.Machine

/-! ### Estimates (R90 Table 7) -/

section
variable {s : State} {c : CraneRec} {kind : SegKind} {col level x y : Nat}

theorem distance_eq (x y : Nat) : distance x y = if x ≤ y then y - x else x - y := by
  unfold distance
  split <;> omega

theorem segmentEstimate_fork (hk : kind = .forkPick ∨ kind = .forkPlace) :
    segmentEstimate s c kind col level = some (param s 12 + wakeTime s c) := by
  obtain rfl | rfl := hk <;> rfl

theorem segmentEstimate_lost (hk : kind = .travel ∨ kind = .park) (h : c.col = none ∨ c.level = none) :
    segmentEstimate s c kind col level = none := by
  obtain rfl | rfl := hk
  all_goals
    simp only [segmentEstimate]
    split
    · rename_i hx hy
      rw [hx, hy] at h
      simp at h
    · rfl

theorem segmentEstimate_known (hk : kind = .travel ∨ kind = .park) (hx : c.col = some x) (hy : c.level = some y) :
    segmentEstimate s c kind col level = some (wakeTime s c + travelTime s x y col level) := by
  obtain rfl | rfl := hk <;> simp only [segmentEstimate, hx, hy]

theorem travelTime_eq (s : State) (x y col level : Nat) {h v : Nat}
    (hh : h = axisTime (if x ≤ col then col - x else x - col) (param s 2) (param s 7) (param s 8))
    (hv : v = axisTime (if y ≤ level then level - y else y - level) (param s 3) (param s 9) (param s 10)) :
    travelTime s x y col level = (if h ≤ v then v else h) + param s 11 := by
  rw [travelTime, distance_eq, distance_eq, ← hh, ← hv, Nat.max_def]

end

/-! ### The issue -/

section
variable {a b : Aisle} {g : SegmentRec} {keep : Bool} {s : State} {c : CraneRec}

/-- The state after an issue: the record, the fork mark and the messages. -/
theorem issue_eq (a : Aisle) (g : SegmentRec) (keep : Bool) (s : State) : issue a g keep s =
    { (if g.kind.isFork then setForkMark a ((crane s a).leg.map (·.bin)) (setCrane a (issuedRec s (crane s a) g keep) s)
        else setCrane a (issuedRec s (crane s a) g keep) s) with
      sent := s.sent ++ (if wakeFirst (crane s a) g then [.drive a .wake] else []) ++ [.drive a (segmentMessage g)] } := by
  simp only [issue, sendDrive]
  split <;> split <;> simp [setForkMark, setCrane]

theorem crane_issue (a : Aisle) (g : SegmentRec) (keep : Bool) (s : State) :
    crane (issue a g keep s) a = issuedRec s (crane s a) g keep := by
  rw [issue_eq]
  split <;> exact crane_setCrane a _ s

theorem crane_issue_ne (hb : b ≠ a) : crane (issue a g keep s) b = crane s b := by
  rw [issue_eq]
  split <;> exact crane_setCrane_ne hb _ s

theorem forkMark_issue (a : Aisle) (g : SegmentRec) (keep : Bool) (s : State) : forkMark (issue a g keep s) a =
    if g.kind.isFork then (crane s a).leg.map (·.bin) else forkMark s a := by
  rw [issue_eq]
  split
  · exact forkMark_setForkMark a _ (setCrane a (issuedRec s (crane s a) g keep) s)
  · rfl

theorem forkMark_issue_ne (hb : b ≠ a) : forkMark (issue a g keep s) b = forkMark s b := by
  rw [issue_eq]
  split
  · exact forkMark_setForkMark_ne hb _ (setCrane a (issuedRec s (crane s a) g keep) s)
  · rfl

theorem sent_issue (a : Aisle) (g : SegmentRec) (keep : Bool) (s : State) : (issue a g keep s).sent =
    s.sent ++ (if wakeFirst (crane s a) g then [.drive a .wake] else []) ++ [.drive a (segmentMessage g)] := by
  rw [issue_eq]

theorem issue_keeps (a : Aisle) (g : SegmentRec) (keep : Bool) (s : State) :
    { issue a g keep s with cranes := s.cranes, forkMarks := s.forkMarks, sent := s.sent } = s := by
  rw [issue_eq]
  split <;> rfl

theorem wakeFirst_iff : wakeFirst c g = true ↔ c.state = .resting ∨ (g.kind = .home ∧ c.state = .offline) := by
  simp only [wakeFirst, Bool.or_eq_true, Bool.and_eq_true, beq_iff_eq]

theorem isFork_iff (k : SegKind) : k.isFork = true ↔ k = .forkPick ∨ k = .forkPlace := by
  cases k <;> decide

end

/-! ### The segments of a leg (R85 Table 5) -/

section
variable {s : State} {l : LegRec} {r : BinRec} {v : VisitRec} {sl : Slot}

/-- The four segments of a leg, from its source to its target. -/
theorem legSegments_eq (s : State) (l : LegRec) : ([0, 1, 2, 3] : List (Fin 4)).map (fun i => legSegment s { l with seg := i }) =
    [segmentAt s .travel (legSource s l), segmentAt s .forkPick (legSource s l),
      segmentAt s .travel (legTarget s l), segmentAt s .forkPlace (legTarget s l)] := rfl

theorem legSource_home (hb : bin s l.bin = some r) (hk : l.kind ≠ .inbound) : legSource s l = some r.home := by
  cases hkind : l.kind with
  | inbound => exact absurd hkind hk
  | outbound => simp only [legSource, hkind, hb, Option.map_some]
  | relocation => simp only [legSource, hkind, hb, Option.map_some]

theorem legSource_mouth (hk : l.kind = .inbound) : legSource s l = none := by
  simp only [legSource, hk]

theorem legTarget_mouth (hk : l.kind = .outbound) : legTarget s l = none := by
  simp only [legTarget, hk]

theorem legTarget_home (hb : bin s l.bin = some r) (hk : l.kind = .inbound) : legTarget s l = some r.home := by
  simp only [legTarget, hk, hb, Option.map_some]

theorem legTarget_target (hk : l.kind = .relocation) (hv : visit s l.visit = some v) (ht : v.target = some sl) :
    legTarget s l = some sl := by
  simp only [legTarget, hk, hv, Option.bind_some, ht]

end

/-! ### The segment that is issued -/

section
variable {a : Aisle} {keep : Bool} {s : State} {l : LegRec} {x y : Nat}

theorem proceed_fork (hl : (crane s a).leg = some l) (hk : (legSegment s l).kind ≠ .travel) (ha : l.approach = false) :
    proceed a keep s = issue a (legSegment s l) keep s := by
  simp [proceed, hl, hk, ha]

section
variable (hl : (crane s a).leg = some l) (ht : (legSegment s l).kind = .travel ∨ l.approach = true)
include hl ht

theorem proceed_lost (h : (crane s a).col = none ∨ (crane s a).level = none) :
    proceed a keep s = issue a ⟨.home, 0, param s 4, .mouth, 0⟩ keep s := by
  simp only [proceed, hl, ht, if_true]
  split
  · rename_i hx hy
    rw [hx, hy] at h
    simp at h
  · rfl

variable (hx : (crane s a).col = some x) (hy : (crane s a).level = some y)
include hx hy

theorem proceed_away (h : x ≠ (legSegment s l).col ∨ y ≠ (legSegment s l).level) :
    proceed a keep s = issue a { legSegment s l with kind := .travel } keep s := by
  simp only [proceed, hl, ht, hx, hy, if_true, if_neg (not_and_or.mpr h)]

theorem proceed_there_approach (h : x = (legSegment s l).col ∧ y = (legSegment s l).level) (ha : l.approach = true) :
    proceed a keep s =
      issue a (legSegment s l) keep (setCrane a { crane s a with leg := some { l with approach := false } } s) := by
  simp only [proceed, hl, ht, hx, hy, if_true, if_pos h, setLeg]
  rw [if_pos ha]

theorem proceed_there (h : x = (legSegment s l).col ∧ y = (legSegment s l).level) (ha : l.approach = false) :
    proceed a keep s = issue a (legSegment s { l with seg := l.seg + 1 }) false
      (setCrane a { crane s a with leg := some { l with seg := l.seg + 1 } } s) := by
  simp only [proceed, hl, ht, hx, hy, if_true, if_pos h, setLeg]
  rw [if_neg (by rw [ha]; exact Bool.false_ne_true)]

end

end

theorem estimates_of_kind (s : State) (c : CraneRec) (col level wake : Nat)
    (hw : wake = if c.state = .resting then param s 13 else 0) :
    segmentEstimate s c .home col level = none ∧
    (∀ kind, kind = .forkPick ∨ kind = .forkPlace → segmentEstimate s c kind col level = some (param s 12 + wake)) ∧
    ∀ kind, kind = .travel ∨ kind = .park →
      (c.col = none ∨ c.level = none → segmentEstimate s c kind col level = none) ∧
      ∀ x y h v, c.col = some x → c.level = some y →
        h = axisTime (if x ≤ col then col - x else x - col) (param s 2) (param s 7) (param s 8) →
        v = axisTime (if y ≤ level then level - y else y - level) (param s 3) (param s 9) (param s 10) →
        segmentEstimate s c kind col level = some ((if h ≤ v then v else h) + param s 11 + wake) := by
  refine ⟨rfl, fun kind hk => ?_, fun kind hk => ⟨segmentEstimate_lost hk, fun x y h v hx hy hh hv => ?_⟩⟩
  · rw [segmentEstimate_fork hk, wakeTime, hw]
  · rw [segmentEstimate_known hk hx hy, travelTime_eq s x y col level hh hv, wakeTime, ← hw, Nat.add_comm]

/-- Settles O38. -/
theorem segmentsAreIssued : Obligations.SegmentsAreIssued := by
  refine ⟨estimates_of_kind, ?_, ?_, ?_, ?_⟩
  · rintro a g keep s c e rfl rfl
    refine ⟨?_, fun b hb => crane_issue_ne hb, ?_, fun b hb => forkMark_issue_ne hb, ?_, issue_keeps a g keep s⟩
    · rw [crane_issue, issuedRec]
      cases segmentEstimate s (crane s a) g.kind g.col g.level <;> rfl
    · simp only [forkMark_issue, isFork_iff]
    · simp only [sent_issue, wakeFirst_iff, segmentMessage] <;> rfl
  · intro s l r hb
    refine ⟨fun hk => ?_, fun hk => ?_, fun v sl hk hv ht => ?_⟩
    · rw [legSegments_eq, legSource_home hb (by simp [hk]), legTarget_mouth hk]
      cases r.home.side <;> rfl
    · rw [legSegments_eq, legSource_mouth hk, legTarget_home hb hk]
      cases r.home.side <;> rfl
    · rw [legSegments_eq, legSource_home hb (by simp [hk]), legTarget_target hk hv ht]
      cases r.home.side <;> cases sl.side <;> rfl
  · rintro a keep s c l g rfl hl rfl
    exact ⟨proceed_fork hl, proceed_lost hl, fun x y ht hx hy => ⟨proceed_away hl ht hx hy,
      fun h1 h2 => ⟨proceed_there_approach hl ht hx hy ⟨h1, h2⟩, proceed_there hl ht hx hy ⟨h1, h2⟩⟩⟩⟩
  · rintro a l s u rfl
    rfl

end Sys2Proof.Machine

/-! What a crane that leaves its work gives up: its claims on the lane (R84), and what OFFLINE and a suspension do
(R93, R116). -/

namespace Sys2Proof.Machine

/-! ### Waits and reservations of the aisles -/

section
variable {a b : Aisle} {s : State} {w : Bool} {n : Nat}

theorem waiting_setWaiting (a : Aisle) (w : Bool) (s : State) : waiting (setWaiting a w s) a = w := by
  unfold waiting setWaiting
  rw [station_setStation]
  split <;> rfl

theorem waiting_setWaiting_ne (h : b ≠ a) : waiting (setWaiting a w s) b = waiting s b := by
  unfold waiting setWaiting
  by_cases hz : zoneOf b = zoneOf a
  · have hp : ¬(b.val % 2 = 0 ↔ a.val % 2 = 0) := fun hp => h (eq_of_zone_of_parity hz hp)
    rw [hz, station_setStation]
    by_cases hb : b.val % 2 = 0
    · rw [if_pos hb, if_pos hb, if_neg (by simpa [hb] using hp)]
    · rw [if_neg hb, if_neg hb, if_pos (by simpa [hb] using hp)]
  · rw [station_setStation_ne hz]

theorem reservations_setWaiting (a b : Aisle) (w : Bool) (s : State) :
    reservations (setWaiting a w s) b = reservations s b := by
  unfold reservations setWaiting
  by_cases hz : zoneOf b = zoneOf a
  · rw [hz, station_setStation]
    by_cases ha : a.val % 2 = 0 <;> simp only [ha, if_true, if_false]
  · rw [station_setStation_ne hz]

theorem waiting_setReservations (a b : Aisle) (n : Nat) (s : State) :
    waiting (setReservations a n s) b = waiting s b := by
  unfold waiting setReservations
  by_cases hz : zoneOf b = zoneOf a
  · rw [hz, station_setStation]
    by_cases ha : a.val % 2 = 0 <;> simp only [ha, if_true, if_false]
  · rw [station_setStation_ne hz]

end

/-! ### Grants and waits given up (R84) -/

section
variable {a b : Aisle} {s : State}

theorem aisleRec_returnGrant_ne (h : b ≠ a) : aisleRec (returnGrant a s) b = aisleRec s b := by
  cases hg : (aisleRec s a).grant with
  | true =>
    rw [returnGrant_of_grant s hg]
    exact aisleRec_setAisle_ne h _ s
  | false => rw [returnGrant_of_no_grant s hg]

theorem reservations_returnGrant (a : Aisle) (s : State) :
    reservations (returnGrant a s) a = reservations s a - if (aisleRec s a).grant then 1 else 0 := by
  cases hg : (aisleRec s a).grant with
  | true =>
    rw [returnGrant_of_grant s hg]
    exact reservations_setReservations ..
  | false =>
    rw [returnGrant_of_no_grant s hg]
    rfl

theorem reservations_returnGrant_ne (h : b ≠ a) : reservations (returnGrant a s) b = reservations s b := by
  cases hg : (aisleRec s a).grant with
  | true =>
    rw [returnGrant_of_grant s hg]
    exact reservations_setReservations_ne h
  | false => rw [returnGrant_of_no_grant s hg]

theorem waiting_returnGrant (a b : Aisle) (s : State) : waiting (returnGrant a s) b = waiting s b := by
  cases hg : (aisleRec s a).grant with
  | true =>
    rw [returnGrant_of_grant s hg]
    exact waiting_setReservations ..
  | false => rw [returnGrant_of_no_grant s hg]

theorem returnGrant_keeps (a : Aisle) (s : State) :
    { returnGrant a s with aisles := s.aisles, stations := s.stations } = s := by
  cases hg : (aisleRec s a).grant with
  | true =>
    rw [returnGrant_of_grant s hg]
    rfl
  | false => rw [returnGrant_of_no_grant s hg]

theorem withdrawWait_aisles (a : Aisle) (s : State) : (withdrawWait a s).aisles = s.aisles := by
  unfold withdrawWait
  split <;> rfl

theorem withdrawWait_keeps (a : Aisle) (s : State) : { withdrawWait a s with stations := s.stations } = s := by
  unfold withdrawWait
  split <;> rfl

theorem waiting_withdrawWait (a : Aisle) (s : State) : waiting (withdrawWait a s) a = false := by
  unfold withdrawWait
  split
  · exact waiting_setWaiting ..
  · rename_i h
    exact Bool.eq_false_iff.mpr h

theorem waiting_withdrawWait_ne (h : b ≠ a) : waiting (withdrawWait a s) b = waiting s b := by
  unfold withdrawWait
  split
  · exact waiting_setWaiting_ne h
  · rfl

theorem reservations_withdrawWait (a b : Aisle) (s : State) : reservations (withdrawWait a s) b = reservations s b := by
  unfold withdrawWait
  split
  · exact reservations_setWaiting ..
  · rfl

theorem aisleRec_withdrawWait (a b : Aisle) (s : State) : aisleRec (withdrawWait a s) b = aisleRec s b := by
  rw [aisleRec, withdrawWait_aisles, aisleRec]

theorem aisleRec_dropClaims (a : Aisle) (s : State) : aisleRec (dropClaims a s) a = { aisleRec s a with grant := false } := by
  rw [dropClaims, aisleRec_withdrawWait, aisleRec_returnGrant]

theorem aisleRec_dropClaims_ne (h : b ≠ a) : aisleRec (dropClaims a s) b = aisleRec s b := by
  rw [dropClaims, aisleRec_withdrawWait, aisleRec_returnGrant_ne h]

theorem waiting_dropClaims (a : Aisle) (s : State) : waiting (dropClaims a s) a = false := waiting_withdrawWait ..

theorem waiting_dropClaims_ne (h : b ≠ a) : waiting (dropClaims a s) b = waiting s b := by
  rw [dropClaims, waiting_withdrawWait_ne h, waiting_returnGrant]

theorem reservations_dropClaims (a : Aisle) (s : State) :
    reservations (dropClaims a s) a = reservations s a - if (aisleRec s a).grant then 1 else 0 := by
  rw [dropClaims, reservations_withdrawWait, reservations_returnGrant]

theorem reservations_dropClaims_ne (h : b ≠ a) : reservations (dropClaims a s) b = reservations s b := by
  rw [dropClaims, reservations_withdrawWait, reservations_returnGrant_ne h]

/-- What the claims of an aisle do not touch. -/
theorem dropClaims_keeps (a : Aisle) (s : State) :
    { dropClaims a s with aisles := s.aisles, stations := s.stations } = s :=
  calc { dropClaims a s with aisles := s.aisles, stations := s.stations }
    _ = { ({ withdrawWait a (returnGrant a s) with stations := (returnGrant a s).stations } : State) with
          aisles := s.aisles, stations := s.stations } := rfl
    _ = s := by rw [withdrawWait_keeps, returnGrant_keeps]

theorem dropClaims_cranes (a : Aisle) (s : State) : (dropClaims a s).cranes = s.cranes :=
  (congrArg State.cranes (dropClaims_keeps a s) :)
theorem dropClaims_forkMarks (a : Aisle) (s : State) : (dropClaims a s).forkMarks = s.forkMarks :=
  (congrArg State.forkMarks (dropClaims_keeps a s) :)
theorem dropClaims_bins (a : Aisle) (s : State) : (dropClaims a s).bins = s.bins :=
  (congrArg State.bins (dropClaims_keeps a s) :)
theorem dropClaims_visits (a : Aisle) (s : State) : (dropClaims a s).visits = s.visits :=
  (congrArg State.visits (dropClaims_keeps a s) :)
theorem dropClaims_sent (a : Aisle) (s : State) : (dropClaims a s).sent = s.sent :=
  (congrArg State.sent (dropClaims_keeps a s) :)
theorem dropClaims_link (a : Aisle) (s : State) : (dropClaims a s).link = s.link :=
  (congrArg State.link (dropClaims_keeps a s) :)

theorem crane_dropClaims (a b : Aisle) (s : State) : crane (dropClaims a s) b = crane s b :=
  crane_congr (dropClaims_cranes a s) b

end

/-! ### STOP -/

section
variable {a : Aisle} {s : State}

/-- The messages that stop a segment in flight (R110, R114, R116). -/
def stopOf (a : Aisle) (c : CraneRec) : List FieldMsg := if c.segment = none then [] else [.drive a .stop]

theorem stop_eq (a : Aisle) (s : State) : (if (crane s a).segment.isSome then sendDrive a .stop s else s) =
    { s with sent := s.sent ++ stopOf a (crane s a) } := by
  unfold stopOf
  cases (crane s a).segment with
  | none => simp
  | some g => rfl

end

/-! ### OFFLINE and suspension (R93, R116) -/

section
variable {a b : Aisle} {s : State} {n : Nat}

/-- The record of a crane that is OFFLINE (R116). -/
def CraneRec.offlined (c : CraneRec) : CraneRec :=
  { c with
    state := .offline, segment := none, estimate := none, deadline := 0, leg := none, latched := none
    supplyFault := false, homingClear := false, retryTimer := none, restTimer := none }

theorem takeOffline_eq (a : Aisle) (s : State) : takeOffline a s =
    dropClaims a (setCrane a (crane s a).offlined { s with sent := s.sent ++ stopOf a (crane s a) }) := by
  unfold takeOffline
  dsimp only
  rw [stop_eq]
  rfl

theorem crane_takeOffline (a : Aisle) (s : State) : crane (takeOffline a s) a = (crane s a).offlined := by
  rw [takeOffline_eq, crane_dropClaims, crane_setCrane]

theorem crane_takeOffline_ne (h : b ≠ a) : crane (takeOffline a s) b = crane s b := by
  rw [takeOffline_eq, crane_dropClaims, crane_setCrane_ne h]
  rfl

theorem sent_takeOffline (a : Aisle) (s : State) : (takeOffline a s).sent = s.sent ++ stopOf a (crane s a) := by
  rw [takeOffline_eq, dropClaims_sent]
  rfl

theorem aisleRec_takeOffline (a : Aisle) (s : State) : aisleRec (takeOffline a s) a = { aisleRec s a with grant := false } := by
  rw [takeOffline_eq, aisleRec_dropClaims]
  rfl

theorem waiting_takeOffline (a : Aisle) (s : State) : waiting (takeOffline a s) a = false := by
  rw [takeOffline_eq, waiting_dropClaims]

theorem reservations_takeOffline (a : Aisle) (s : State) :
    reservations (takeOffline a s) a = reservations s a - if (aisleRec s a).grant then 1 else 0 := by
  rw [takeOffline_eq, reservations_dropClaims]
  rfl

theorem takeOffline_keeps (a : Aisle) (s : State) :
    { takeOffline a s with cranes := s.cranes, aisles := s.aisles, stations := s.stations, sent := s.sent } = s := by
  rw [takeOffline_eq]
  exact congrArg (fun t : State => { t with cranes := s.cranes, sent := s.sent })
    (dropClaims_keeps a (setCrane a (crane s a).offlined { s with sent := s.sent ++ stopOf a (crane s a) }))

theorem takeOffline_bins (a : Aisle) (s : State) : (takeOffline a s).bins = s.bins :=
  (congrArg State.bins (takeOffline_keeps a s) :)
theorem takeOffline_visits (a : Aisle) (s : State) : (takeOffline a s).visits = s.visits :=
  (congrArg State.visits (takeOffline_keeps a s) :)
theorem takeOffline_link (a : Aisle) (s : State) : (takeOffline a s).link = s.link :=
  (congrArg State.link (takeOffline_keeps a s) :)

theorem aisleRec_takeSuspension (a : Aisle) (s : State) :
    aisleRec (takeSuspension a s) a = { aisleRec s a with suspension := .suspended, grant := false } := by
  unfold takeSuspension
  exact (aisleRec_takeOffline a _).trans (by rw [aisleRec_setAisle])

theorem crane_takeSuspension (a : Aisle) (s : State) : crane (takeSuspension a s) a = (crane s a).offlined :=
  crane_takeOffline a _

theorem takeSuspension_link (a : Aisle) (s : State) : (takeSuspension a s).link = s.link :=
  takeOffline_link a _

theorem takeSuspension_keeps (a : Aisle) (s : State) : { takeSuspension a s with visits := s.visits } =
    takeOffline a (setAisle a { aisleRec s a with suspension := .suspended } s) :=
  congrArg (fun v => { takeOffline a (setAisle a { aisleRec s a with suspension := .suspended } s) with visits := v })
    (takeOffline_visits a (setAisle a { aisleRec s a with suspension := .suspended } s)).symm

theorem bins_takeSuspension (a : Aisle) (s : State) : (takeSuspension a s).bins = s.bins := takeOffline_bins a _

theorem visit_takeSuspension (a : Aisle) (s : State) (n : Nat) :
    visit (takeSuspension a s) n = (visit s n).map fun v => if v.outcome = none ∧ binAisle s v.bin = some a then
      { v with hold := { v.hold with aisleSuspended := true } } else v := by
  unfold takeSuspension
  rw [visit_addHoldWhere, visit, takeOffline_visits]
  simp only [ofAisle, beq_iff_eq]
  rfl

/-- Every open visit of the aisle carries AISLE_SUSPENDED once the suspension has taken effect. -/
theorem takeSuspension_holds {v : VisitRec} (hv : visit (takeSuspension a s) n = some v) (ho : v.outcome = none)
    (hb : binAisle (takeSuspension a s) v.bin = some a) : v.hold.aisleSuspended = true := by
  rw [binAisle, bin, bins_takeSuspension] at hb
  rw [visit_takeSuspension, Option.map_eq_some_iff] at hv
  obtain ⟨w, -, rfl⟩ := hv
  split
  · rfl
  · rename_i hn
    rw [if_neg hn] at ho hb
    exact absurd ⟨ho, hb⟩ hn

end

end Sys2Proof.Machine

/-! The completions of a leg's segments: ARRIVED and FORK_DONE (R12, R13, R15, R26, R100, R101, R114). -/

namespace Sys2Proof.Machine

/-! ### ARRIVED -/

section
variable {a : Aisle} {s : State} {g : SegmentRec} {l : LegRec} {b : Nat} {r : BinRec}

/-- The record of a crane that has arrived where a segment leads (R101). -/
def CraneRec.arrivedAt (c : CraneRec) (g : SegmentRec) : CraneRec :=
  { c with segment := none, estimate := none, deadline := 0, col := some g.col, level := some g.level }

theorem takeArrived_unexpected (h : ∀ g, (crane s a).segment = some g → g.kind ≠ .travel ∧ g.kind ≠ .park) :
    takeArrived a s = unexpectedReport a s := by
  cases hseg : (crane s a).segment with
  | none => simp only [takeArrived, hseg]
  | some g =>
    obtain ⟨ht, hp⟩ := h g hseg
    cases hk : g.kind with
    | travel => exact absurd hk ht
    | park => exact absurd hk hp
    | forkPick => simp only [takeArrived, hseg, hk]
    | forkPlace => simp only [takeArrived, hseg, hk]
    | home => simp only [takeArrived, hseg, hk]

theorem takeArrived_park (hseg : (crane s a).segment = some g) (hk : g.kind = .park) (hc : (crane s a).carried = none) :
    takeArrived a s = setCrane a { (crane s a).arrivedAt g with state := .parked } s := by
  simp only [takeArrived, hseg, hk, hc]
  rfl

theorem takeArrived_park_carried (hseg : (crane s a).segment = some g) (hk : g.kind = .park)
    (hc : (crane s a).carried = some b) (hb : bin s b = some r) : takeArrived a s =
      setBin b { r with stranded := true } (setCrane a { (crane s a).arrivedAt g with state := .parked } s) := by
  have hmark : takeArrived a s = markStranded b (setCrane a { (crane s a).arrivedAt g with state := .parked } s) := by
    simp only [takeArrived, hseg, hk, hc]
    rfl
  rw [hmark, markStranded]
  exact modBin_of_some hb

section
variable (hseg : (crane s a).segment = some g) (hk : g.kind = .travel)
include hseg hk

theorem takeArrived_legless (hl : (crane s a).leg = none) :
    takeArrived a s = enterReady a (setCrane a ((crane s a).arrivedAt g) s) := by
  simp only [takeArrived, hseg, hk, hl]
  rfl

theorem takeArrived_cancelled (hl : (crane s a).leg = some l) (hc : l.cancelled = true) :
    takeArrived a s = enterReady a (setCrane a ((crane s a).arrivedAt g) s) := by
  simp only [takeArrived, hseg, hk, hl, hc, if_true]
  rfl

theorem takeArrived_next (hl : (crane s a).leg = some l) (hc : l.cancelled = false) (ha : l.approach = false) :
    takeArrived a s = nextSegment a l (setCrane a ((crane s a).arrivedAt g) s) := by
  simp only [takeArrived, hseg, hk, hl, hc, ha, Bool.false_eq_true, if_false]
  rfl

theorem takeArrived_approach (hl : (crane s a).leg = some l) (hc : l.cancelled = false) (ha : l.approach = true) :
    takeArrived a s = setCraneState a .moving (proceed a true
      (setCrane a { (crane s a).arrivedAt g with leg := some { l with approach := false } } s)) := by
  simp only [takeArrived, hseg, hk, hl, hc, ha, Bool.false_eq_true, if_false, if_true, setLeg, crane_setCrane,
    setCrane_setCrane]
  rfl

end

end

/-! ### FORK_PICK -/

section
variable {a : Aisle} {s : State} {l : LegRec} {r : BinRec}

/-- The crane that a fork leaves with a bin on its forks, or with none. -/
def forkEnded (a : Aisle) (carried : Option Nat) (s : State) : State :=
  setCrane a { crane s a with segment := none, estimate := none, deadline := 0, carried := carried } (setForkMark a none s)

theorem pickDone_slot (hb : bin s l.bin = some r) (hk : l.kind ≠ .inbound) : pickDone a l s =
    setBin l.bin { r with location := .crane a } (setSlot r.home (.home l.bin) (forkEnded a (some l.bin) s)) := by
  have hsource := legSource_home hb hk
  have hpick : pickDone a l s = modBin l.bin (fun r => { r with location := .crane a })
      (setSlot r.home (.home l.bin) (forkEnded a (some l.bin) s)) := by
    cases hkind : l.kind with
    | inbound => exact absurd hkind hk
    | outbound => simp only [pickDone, hsource, hkind]; rfl
    | relocation => simp only [pickDone, hsource, hkind]; rfl
  exact hpick.trans (modBin_of_some hb)

theorem pickDone_mouth (hb : bin s l.bin = some r) (hk : l.kind = .inbound) : pickDone a l s =
    setBin l.bin { r with location := .crane a }
      (setStation (zoneOf a) { station s (zoneOf a) with outbound := none } (forkEnded a (some l.bin) s)) := by
  have hpick : pickDone a l s = modBin l.bin (fun r => { r with location := .crane a })
      (setStation (zoneOf a) { station s (zoneOf a) with outbound := none } (forkEnded a (some l.bin) s)) := by
    simp only [pickDone, hk]
    rfl
  exact hpick.trans (modBin_of_some hb)

end

/-! ### FORK_PLACE -/

section
variable {a : Aisle} {s : State} {l : LegRec} {r : BinRec} {v : VisitRec} {sl : Slot}

theorem placeDone_home (hb : bin s l.bin = some r) (hk : l.kind = .inbound) : placeDone a l s =
    endVisit l.visit .done .done (setBin l.bin { r with stranded := false, location := .slot }
      (setSlot r.home (.filled l.bin) (forkEnded a none s))) := by
  let t := setBin l.bin { r with stranded := false } (forkEnded a none s)
  have ht : modBin l.bin (fun b => { b with stranded := false }) (forkEnded a none s) = t := modBin_of_some hb
  have hbin : bin t l.bin = some { r with stranded := false } := bin_setBin_self ..
  have hplace : placeDone a l s = putHome l (modBin l.bin (fun b => { b with stranded := false }) (forkEnded a none s)) := by
    simp only [placeDone, hk]
    rfl
  rw [hplace, ht, putHome, hbin]
  refine congrArg (endVisit l.visit .done .done)
    ((modBin_of_some (s := setSlot r.home (.filled l.bin) t) hbin).trans ?_)
  exact setBin_setBin l.bin _ _ (setSlot r.home (.filled l.bin) (forkEnded a none s))

theorem placeDone_target (hb : bin s l.bin = some r) (hk : l.kind = .relocation) (hv : visit s l.visit = some v)
    (ht : v.target = some sl) : placeDone a l s =
    endVisit l.visit .done .done (setBin l.bin { r with stranded := false, location := .slot, home := sl }
      (setSlot sl (.filled l.bin) (setSlot r.home .empty (forkEnded a none s)))) := by
  let t := setBin l.bin { r with stranded := false } (forkEnded a none s)
  have hmod : modBin l.bin (fun b => { b with stranded := false }) (forkEnded a none s) = t := modBin_of_some hb
  have hbin : bin t l.bin = some { r with stranded := false } := bin_setBin_self ..
  have htarget : legTarget t l = some sl := legTarget_target hk hv ht
  have hplace : placeDone a l s = putTarget l (modBin l.bin (fun b => { b with stranded := false }) (forkEnded a none s)) := by
    simp only [placeDone, hk]
    rfl
  rw [hplace, hmod]
  simp only [putTarget, hbin, htarget, Option.map_some]
  refine congrArg (endVisit l.visit .done .done)
    ((modBin_of_some (s := setSlot sl (.filled l.bin) (setSlot r.home .empty t)) hbin).trans ?_)
  exact setBin_setBin l.bin _ _ (setSlot sl (.filled l.bin) (setSlot r.home .empty (forkEnded a none s)))

end

/-! ### The lane -/

section
variable {a : Aisle} {s : State} {l : LegRec} {r : BinRec} {v : VisitRec}

/-- The bin's record in the lane, at its tail (R13). -/
def laneBin (a : Aisle) (s : State) (r : BinRec) : BinRec :=
  { r with location := .lane (zoneOf a) (Fin.ofNat 3 (station s (zoneOf a)).lane.length) }

/-- The state with a bin at the tail of the lane. -/
def laneWith (a : Aisle) (b : Nat) (r : BinRec) (s : State) : State :=
  setBin b (laneBin a s r)
    (setStation (zoneOf a) { station s (zoneOf a) with lane := (station s (zoneOf a)).lane ++ [b] } s)

/-- A bin that joins the lane, written out: its place, its visit's reservation, and its visit (R13). -/
def laneJoined (a : Aisle) (l : LegRec) (r : BinRec) (v : VisitRec) (s : State) : State :=
  setVisit l.visit { v with state := .inLane, reservation := false } (givenBack a v (laneWith a l.bin r s))

theorem joinLane_eq (hb : bin s l.bin = some r) (hv : visit s l.visit = some v) (hvb : v.bin = l.bin)
    (ha : r.home.aisle = a) : joinLane a l s = if (station s (zoneOf a)).isOut then
      addHold .stationOut l.visit (laneJoined a l r v s) else laneJoined a l r v s := by
  let t := laneWith a l.bin r s
  have hvisit : visit t l.visit = some v := hv
  have hbin : bin t v.bin = some (laneBin a s r) := by
    rw [hvb]
    exact bin_setBin_self ..
  have hplaced : modBin l.bin (fun b => { b with location := .lane (zoneOf a) (Fin.ofNat 3 (station s (zoneOf a)).lane.length) })
      (setStation (zoneOf a) { station s (zoneOf a) with lane := (station s (zoneOf a)).lane ++ [l.bin] } s) = t :=
    modBin_of_some hb
  have hjoined : modVisit l.visit (fun v => { v with state := .inLane }) (releaseReservation l.visit t) =
      laneJoined a l r v s := by
    have hrec (w : VisitRec) := setVisit_releaseReservation w hvisit hbin
    have hhome : (laneBin a s r).home.aisle = a := ha
    cases hres : v.reservation with
    | true =>
      have hrel : visit (releaseReservation l.visit t) l.visit = some { v with reservation := false } := by
        simp only [releaseReservation, hvisit, hres, if_true, binAisle_of_some hbin]
        exact visit_setVisit_same ..
      rw [modVisit_of_some _ hrel, hrec, hhome]
      rfl
    | false =>
      have hsame : v = { v with reservation := false } := by rw [← hres]
      have hrel : visit (releaseReservation l.visit t) l.visit = some { v with reservation := false } := by
        simp only [releaseReservation, hvisit, hres, Bool.false_eq_true, if_false]
        exact congrArg some hsame
      rw [modVisit_of_some _ hrel, hrec, hhome]
      rfl
  simp only [joinLane, hplaced, hjoined]

theorem joinLane_rest (hb : bin s l.bin = some r) (hv : visit s l.visit = some v) (hvb : v.bin = l.bin)
    (ha : r.home.aisle = a) :
    { joinLane a l s with bins := s.bins, visits := s.visits, stations := s.stations } = s := by
  rw [joinLane_eq hb hv hvb ha]
  unfold laneJoined givenBack
  split <;> split <;> rfl

theorem joinLane_stations (hb : bin s l.bin = some r) (hv : visit s l.visit = some v) (hvb : v.bin = l.bin)
    (ha : r.home.aisle = a) : (joinLane a l s).stations = (givenBack a v (laneWith a l.bin r s)).stations := by
  rw [joinLane_eq hb hv hvb ha]
  split <;> rfl

theorem joinLane_bins (hb : bin s l.bin = some r) (hv : visit s l.visit = some v) (hvb : v.bin = l.bin)
    (ha : r.home.aisle = a) : (joinLane a l s).bins = (givenBack a v (laneWith a l.bin r s)).bins := by
  rw [joinLane_eq hb hv hvb ha]
  split <;> rfl

theorem visit_laneJoined (a : Aisle) (l : LegRec) (r : BinRec) (v : VisitRec) (s : State) (m : Nat) : visit (laneJoined a l r v s) m =
    if m = l.visit then some { v with state := .inLane, reservation := false } else visit s m := by
  rw [laneJoined, visit_setVisit, visit_givenBack]
  rfl

/-- The visit of a bin that joins the lane is IN_LANE, and held if the station is OUT (R32). -/
theorem visit_joinLane (hb : bin s l.bin = some r) (hv : visit s l.visit = some v) (hvb : v.bin = l.bin)
    (ha : r.home.aisle = a) (m : Nat) : visit (joinLane a l s) m = if m = l.visit then some { v with
      state := .inLane, reservation := false
      hold := if (station s (zoneOf a)).isOut ∧ v.outcome = none then { v.hold with stationOut := true } else v.hold }
    else visit s m := by
  rw [joinLane_eq hb hv hvb ha]
  cases hout : (station s (zoneOf a)).isOut with
  | false => simp [visit_laneJoined]
  | true =>
    rw [if_pos rfl, visit_addHold, visit_laneJoined]
    by_cases hm : m = l.visit
    · simp only [hm, if_true, Option.map_some, and_true, true_and]
      split <;> rfl
    · simp [hm]

theorem station_laneWith (a : Aisle) (b : Nat) (r : BinRec) (s : State) (z : Station) :
    { station (laneWith a b r s) z with lane := (station s z).lane } = station s z := by
  by_cases hz : z = zoneOf a
  · subst hz
    exact congrArg (fun x : StationRec => { x with lane := (station s (zoneOf a)).lane }) (station_setStation ..)
  · exact congrArg (fun x : StationRec => { x with lane := (station s z).lane }) (station_setStation_ne hz _ s)

theorem lane_givenBack (a : Aisle) (v : VisitRec) (s : State) (z : Station) :
    (station (givenBack a v s) z).lane = (station s z).lane :=
  (congrArg StationRec.lane (station_givenBack a v s z) :)

theorem station_joinLane (hb : bin s l.bin = some r) (hv : visit s l.visit = some v) (hvb : v.bin = l.bin)
    (ha : r.home.aisle = a) (z : Station) : station (joinLane a l s) z = station (givenBack a v (laneWith a l.bin r s)) z :=
  station_congr (joinLane_stations hb hv hvb ha) z

theorem bin_joinLane (hb : bin s l.bin = some r) (hv : visit s l.visit = some v) (hvb : v.bin = l.bin)
    (ha : r.home.aisle = a) (b : Nat) : bin (joinLane a l s) b = if b = l.bin then some (laneBin a s r) else bin s b :=
  calc bin (joinLane a l s) b
    _ = bin (givenBack a v (laneWith a l.bin r s)) b := by rw [bin, joinLane_bins hb hv hvb ha, bin]
    _ = bin (laneWith a l.bin r s) b := bin_givenBack ..
    _ = _ := bin_setBin ..

end

/-- What a place on the outbound place leaves: the bin at the tail of the lane, as R13 has it. -/
structure JoinsLane (a : Aisle) (l : LegRec) (r : BinRec) (v : VisitRec) (s y x : State) : Prop where
  lane : (station x (zoneOf a)).lane = (station s (zoneOf a)).lane ++ [l.bin]
  bin : ∃ q, Machine.bin x l.bin = some { r with stranded := false, location := .lane (zoneOf a) q } ∧
    q.val = (station s (zoneOf a)).lane.length
  visit : Machine.visit x l.visit = some { v with
    state := .inLane, reservation := false
    hold := if (station s (zoneOf a)).isOut ∧ v.outcome = none then { v.hold with stationOut := true } else v.hold }
  reservations : Machine.reservations x a = Machine.reservations s a - (if v.reservation then 1 else 0)
  crane : Machine.crane x a = Machine.crane y a
  forkMark : Machine.forkMark x a = none
  bins : ∀ b : Nat, b ≠ l.bin → Machine.bin x b = Machine.bin s b
  visits : ∀ m : Nat, m ≠ l.visit → Machine.visit x m = Machine.visit s m
  stations : ∀ z : Station, { station x z with
    lane := (station s z).lane, resv0 := (station s z).resv0, resv1 := (station s z).resv1 } = station s z
  rest : { x with
    cranes := y.cranes, forkMarks := y.forkMarks, bins := s.bins, visits := s.visits, stations := s.stations } = y

section
variable {a : Aisle} {s : State} {l : LegRec} {r : BinRec} {v : VisitRec}

theorem reservations_congr {t u : State} (h : station u (zoneOf a) = station t (zoneOf a)) :
    reservations u a = reservations t a := by
  rw [reservations, h, reservations]

theorem reservations_laneWith (a : Aisle) (b : Nat) (r : BinRec) (s : State) :
    reservations (laneWith a b r s) a = reservations s a := by
  have hstation : station (laneWith a b r s) (zoneOf a) = _ := station_setStation ..
  rw [reservations, hstation, reservations]

/-- The state that a place leaves before its bin joins the lane. -/
def forkCleared (a : Aisle) (l : LegRec) (r : BinRec) (s : State) : State :=
  setBin l.bin { r with stranded := false } (forkEnded a none s)

theorem placeDone_lane (hb : bin s l.bin = some r) (hk : l.kind = .outbound) :
    placeDone a l s = joinLane a l (forkCleared a l r s) := by
  have hmod : modBin l.bin (fun b => { b with stranded := false }) (forkEnded a none s) = forkCleared a l r s :=
    modBin_of_some hb
  have hplace : placeDone a l s = joinLane a l (modBin l.bin (fun b => { b with stranded := false }) (forkEnded a none s)) := by
    simp only [placeDone, hk]
    rfl
  rw [hplace, hmod]

theorem placeDone_joinsLane (hb : bin s l.bin = some r) (hk : l.kind = .outbound) (hv : visit s l.visit = some v)
    (hvb : v.bin = l.bin) (ha : r.home.aisle = a) (hlen : (station s (zoneOf a)).lane.length < 3) :
    JoinsLane a l r v s (forkEnded a none s) (placeDone a l s) := by
  let q := forkCleared a l r s
  let r' : BinRec := { r with stranded := false }
  have hbin : bin q l.bin = some r' := bin_setBin_self ..
  have hvisit : visit q l.visit = some v := hv
  have hhome : r'.home.aisle = a := ha
  have hrest := joinLane_rest hbin hvisit hvb hhome
  have hstation := station_joinLane hbin hvisit hvb hhome
  rw [placeDone_lane hb hk]
  refine ⟨?_, ⟨Fin.ofNat 3 (station s (zoneOf a)).lane.length, ?_, Nat.mod_eq_of_lt hlen⟩, ?_, ?_, ?_, ?_, ?_, ?_, ?_, ?_⟩
  · rw [hstation, lane_givenBack]
    exact (congrArg StationRec.lane (station_setStation (zoneOf a) _ q) :)
  · rw [bin_joinLane hbin hvisit hvb hhome, if_pos rfl]
    rfl
  · rw [visit_joinLane hbin hvisit hvb hhome, if_pos rfl]
    rfl
  · rw [reservations_congr (hstation _), reservations_givenBack, reservations_laneWith]
    rfl
  · exact crane_congr (congrArg State.cranes hrest :) a
  · exact (forkMark_congr (congrArg State.forkMarks hrest :) a).trans (forkMark_setForkMark a none s)
  · intro b hne
    rw [bin_joinLane hbin hvisit hvb hhome, if_neg hne]
    exact tableGet_put_ne _ hne _
  · intro m hne
    rw [visit_joinLane hbin hvisit hvb hhome, if_neg hne]
    rfl
  · intro z
    rw [hstation]
    have hgiven := station_givenBack a v (laneWith a l.bin r' q) z
    have hlane := station_laneWith a l.bin r' q z
    calc { station (givenBack a v (laneWith a l.bin r' q)) z with
          lane := (station s z).lane, resv0 := (station s z).resv0, resv1 := (station s z).resv1 }
      _ = { station (laneWith a l.bin r' q) z with
          lane := (station s z).lane, resv0 := (station s z).resv0, resv1 := (station s z).resv1 } := by rw [← hgiven]
      _ = station s z :=
        (congrArg (fun x : StationRec => { x with resv0 := (station s z).resv0, resv1 := (station s z).resv1 }) hlane :)
  · exact (congrArg (fun t : State => { t with
      cranes := (forkEnded a none s).cranes, forkMarks := (forkEnded a none s).forkMarks
      bins := s.bins, visits := s.visits, stations := s.stations }) hrest :)

end

/-! ### PARK (R114) -/

section
variable {a : Aisle} {s : State}

theorem issuePark_suspending (h : (aisleRec s a).suspension = .suspending) : issuePark a s = takeSuspension a s := if_pos h

/-- A PARK's issue, with the crane PARKING and its claims given up. -/
theorem issuePark_eq (h : (aisleRec s a).suspension ≠ .suspending) : issuePark a s =
    dropClaims a (setCraneState a .parking (issue a ⟨.park, param s 5 + 1, 0, .mouth, 0⟩ false s)) := if_neg h

theorem crane_issuePark (h : (aisleRec s a).suspension ≠ .suspending) : crane (issuePark a s) a =
    { crane (issue a ⟨.park, param s 5 + 1, 0, .mouth, 0⟩ false s) a with state := .parking } := by
  rw [issuePark_eq h, crane_dropClaims, setCraneState, crane_setCrane]

theorem grant_issuePark (h : (aisleRec s a).suspension ≠ .suspending) : (aisleRec (issuePark a s) a).grant = false := by
  rw [issuePark_eq h, aisleRec_dropClaims]

theorem waiting_issuePark (h : (aisleRec s a).suspension ≠ .suspending) : waiting (issuePark a s) a = false := by
  rw [issuePark_eq h, waiting_dropClaims]

theorem park_mem_issuePark (h : (aisleRec s a).suspension ≠ .suspending) :
    FieldMsg.drive a .park ∈ (issuePark a s).sent := by
  rw [issuePark_eq h, dropClaims_sent]
  exact (sent_issue ..) ▸ List.mem_append_right _ (List.mem_singleton.mpr rfl)

end

/-! ### FORK_DONE -/

section
variable {a : Aisle} {s : State} {l : LegRec}

theorem takeForkDone_leg (hf : forkInFlight (crane s a) = true) (hl : (crane s a).leg = some l) : takeForkDone a s =
    if l.seg = 3 then enterReady a (placeDone a l s) else nextSegment a l (pickDone a l s) := by
  simp only [takeForkDone, hf, hl, if_true]

theorem takeForkDone_dropped (hf : forkInFlight (crane s a) = true) (hl : (crane s a).leg = none)
    (hd : (crane s a).dropped = some l) : takeForkDone a s =
    if l.seg = 3 then issuePark a (setCrane a { crane (placeDone a l s) a with dropped := none } (placeDone a l s))
    else issuePark a (pickDone a l s) := by
  simp only [takeForkDone, hf, hl, hd, if_true]

theorem takeForkDone_none (hf : forkInFlight (crane s a) = true) (hl : (crane s a).leg = none)
    (hd : (crane s a).dropped = none) : takeForkDone a s = unexpectedReport a s := by
  simp only [takeForkDone, hf, hl, hd, if_true]

end

/-- Settles O40. -/
theorem legSegmentsComplete : Obligations.LegSegmentsComplete := by
  refine ⟨?arrived, ?fork, fun a s => ⟨issuePark_suspending, fun h =>
    ⟨crane_issuePark h, grant_issuePark h, waiting_issuePark h, park_mem_issuePark h⟩⟩, ?forkDone⟩
  case arrived =>
    rintro a s c u hr rfl
    have hgo {w : State} (hw : takeArrived a s = w) (hu : u = w) :
        ∃ t, Settles s (zoneOf a) u t ∧ exec (.arrived a) s = .next t := craneEvent_answers hr rfl (hu.trans hw.symm)
    refine ⟨fun h => hgo (takeArrived_unexpected h), ?_⟩
    rintro g w hseg rfl
    exact ⟨fun hk => ⟨fun hc => hgo (takeArrived_park hseg hk hc), fun b r hc hb =>
        hgo (takeArrived_park_carried hseg hk hc hb)⟩,
      fun hk => ⟨fun hl => hgo (takeArrived_legless hseg hk hl), fun l hl =>
        ⟨fun hc => hgo (takeArrived_cancelled hseg hk hl hc), fun hc ha => hgo (takeArrived_next hseg hk hl hc ha),
          fun hc ha => hgo (takeArrived_approach hseg hk hl hc ha)⟩⟩⟩
  case fork =>
    rintro a s c l r rfl hb
    refine ⟨?_, ?_⟩
    · rintro y rfl
      exact ⟨pickDone_slot hb, pickDone_mouth hb⟩
    · rintro x y rfl rfl
      refine ⟨placeDone_home hb, fun v sl hk hv ht => placeDone_target hb hk hv ht, fun v hk hv hvb ha hlen => ?_⟩
      obtain ⟨h1, h2, h3, h4, h5, h6, h7, h8, h9, h10⟩ := placeDone_joinsLane hb hk hv hvb ha hlen
      exact ⟨h1, h2, h3, h4, h5, h6, h7, h8, h9, h10⟩
  case forkDone =>
    rintro a s c l u hr rfl hf
    have hgo {w : State} (hw : takeForkDone a s = w) (hu : u = w) :
        ∃ t, Settles s (zoneOf a) u t ∧ exec (.forkDone a) s = .next t := craneEvent_answers hr rfl (hu.trans hw.symm)
    exact ⟨fun hl => ⟨fun h => hgo ((takeForkDone_leg hf hl).trans (if_neg h)),
        fun h => hgo ((takeForkDone_leg hf hl).trans (if_pos h))⟩,
      fun hl hd => ⟨fun h => hgo ((takeForkDone_dropped hf hl hd).trans (if_neg h)),
        fun h => hgo ((takeForkDone_dropped hf hl hd).trans (if_pos h))⟩,
      fun hl hd => hgo (takeForkDone_none hf hl hd)⟩

end Sys2Proof.Machine

/-! The entry to READY (R30, R33, R88, R112) and the end of a homing. -/

namespace Sys2Proof.Machine

/-! ### Lifted holds -/

section
variable {bins : Table BinRec} {v : VisitRec} {h k : HoldSet} {r : HoldReason} {s : State} {a b : Aisle} {n : Nat}

theorem HoldSet.any_iff (h : HoldSet) : h.any = true ↔ h ≠ .none := by
  obtain ⟨h1, h2, h3, h4, h5⟩ := h
  simp only [HoldSet.any, HoldSet.none, ne_eq, HoldSet.mk.injEq]
  revert h1 h2 h3 h4 h5
  decide

theorem HoldSet.put_none (r : HoldReason) : HoldSet.none.put r false = .none := by
  cases r <;> rfl

theorem HoldSet.put_eq_self (hr : h.has r = false) : h.put r false = h := by
  cases r <;> simp only [HoldSet.has] at hr <;> simp only [HoldSet.put, ← hr]

theorem HoldSet.put_ne_self (hr : h.has r = true) : h.put r false ≠ h := by
  intro he
  have hput : (h.put r false).has r = false := by cases r <;> rfl
  rw [he, hr] at hput
  cases hput

/-- A visit once its hold has become `h`: a hold that this empties matches the state to the bin's place (R33). -/
def VisitRec.withHold (v : VisitRec) (bins : Table BinRec) (h : HoldSet) : VisitRec :=
  { v with
    hold := h
    state := if h = v.hold ∨ h ≠ .none then v.state
      else matchState v.state ((tableGet bins v.bin).map (·.location)) }

theorem VisitRec.withHold_self (v : VisitRec) (bins : Table BinRec) : v.withHold bins v.hold = v := by
  rw [withHold, if_pos (.inl rfl)]

theorem VisitRec.withHold_kept (hk : k ≠ .none) : v.withHold bins k = { v with hold := k } := by
  rw [withHold, if_pos (Or.inr hk)]

theorem VisitRec.withHold_emptied (hk : k = .none) (hv : v.hold ≠ .none) : v.withHold bins k =
    { v with hold := .none, state := matchState v.state ((tableGet bins v.bin).map (·.location)) } := by
  subst hk
  rw [withHold, if_neg (not_or.mpr ⟨Ne.symm hv, not_not.mpr rfl⟩)]

theorem liftedVisit_eq (bins : Table BinRec) (r : HoldReason) (v : VisitRec) :
    liftedVisit bins r v = v.withHold bins (v.hold.put r false) := by
  cases hr : v.hold.has r with
  | false =>
    rw [HoldSet.put_eq_self hr, VisitRec.withHold_self, liftedVisit, hr]
    rfl
  | true =>
    rw [liftedVisit, hr, if_pos rfl]
    by_cases hn : v.hold.put r false = .none
    · have hv : v.hold ≠ .none := fun h => HoldSet.put_ne_self hr (hn.trans h.symm)
      rw [VisitRec.withHold_emptied hn hv, hn]
      rfl
    · rw [VisitRec.withHold_kept hn]
      exact if_pos ((HoldSet.any_iff _).mpr hn)

/-- Reasons lifted one after the other leave what lifting them at once leaves. -/
theorem VisitRec.withHold_withHold (h1 : v.hold = .none → h = .none) (h2 : h = .none → k = .none) :
    (v.withHold bins h).withHold bins k = v.withHold bins k := by
  by_cases hh : h = v.hold
  · rw [hh, withHold_self]
  · by_cases hn : h = .none
    · have hkeep : k = (v.withHold bins h).hold := (h2 hn).trans hn.symm
      rw [hkeep, withHold_self]
      rfl
    · have hv : v.hold ≠ .none := mt h1 hn
      rw [withHold_kept hn]
      by_cases hk : k = .none
      · rw [withHold_emptied hk hv, withHold_emptied hk hn]
      · rw [withHold_kept hk, withHold_kept hk]

end

/-! ### The entry to READY -/

section
variable {v : VisitRec} {s : State} {a b : Aisle} {n : Nat}

/-- The hold of a visit of an aisle whose crane has become READY: without CRANE_FAULT and AISLE_SUSPENDED, and without RESET of
a crane leg (R30, R112). -/
def VisitRec.readyHold (v : VisitRec) : HoldSet :=
  { v.hold with craneFault := false, aisleSuspended := false, reset := v.hold.reset && !v.state.inLeg }

/-- The three lifts of an entry to READY on a visit. -/
theorem lifts_eq (bins : Table BinRec) (v : VisitRec) :
    (let w := liftedVisit bins .aisleSuspended (liftedVisit bins .craneFault v)
     if w.state.inLeg then liftedVisit bins .reset w else w) = v.withHold bins v.readyHold := by
  have hsub : v.hold = .none → v.hold.put .craneFault false = .none := fun h => by rw [h, HoldSet.put_none]
  have hsub2 : v.hold.put .craneFault false = .none →
      (v.hold.put .craneFault false).put .aisleSuspended false = .none := fun h => by rw [h, HoldSet.put_none]
  have htwo : liftedVisit bins .aisleSuspended (liftedVisit bins .craneFault v) =
      v.withHold bins { v.hold with craneFault := false, aisleSuspended := false } := by
    rw [liftedVisit_eq, liftedVisit_eq]
    exact VisitRec.withHold_withHold hsub hsub2
  dsimp only
  rw [htwo]
  cases hr : v.hold.reset with
  | false =>
    have hready : v.readyHold = { v.hold with craneFault := false, aisleSuspended := false } := by
      rw [VisitRec.readyHold, hr, Bool.false_and, ← hr]
    rw [hready, liftedVisit_eq, HoldSet.put_eq_self (by exact hr), VisitRec.withHold_self, ite_self]
  | true =>
    have hne : ({ v.hold with craneFault := false, aisleSuspended := false } : HoldSet) ≠ .none := by
      intro h
      have hreset := congrArg HoldSet.reset h
      simp only [hr] at hreset
      cases hreset
    have hstate : (v.withHold bins { v.hold with craneFault := false, aisleSuspended := false }).state = v.state := by
      rw [VisitRec.withHold_kept hne]
    rw [hstate, liftedVisit_eq]
    cases hleg : v.state.inLeg with
    | false =>
      rw [VisitRec.readyHold, hr, hleg, if_neg Bool.false_ne_true, Bool.not_false, Bool.and_true, ← hr]
    | true =>
      rw [VisitRec.readyHold, hr, hleg, if_pos rfl, VisitRec.withHold_withHold (fun h => absurd (by rw [h] at hr; exact hr)
        Bool.false_ne_true) (fun h => absurd h hne)]
      rfl

theorem visit_liftAtReady (a : Aisle) (s : State) (n : Nat) : visit (liftAtReady a s) n = (visit s n).map fun v =>
    if v.outcome = none ∧ binAisle s v.bin = some a then v.withHold s.bins v.readyHold else v := by
  unfold liftAtReady
  simp only [visit_liftHoldWhere, Option.map_map, liftHoldWhere_bins]
  refine congrArg (fun f => Option.map f (visit s n)) (funext fun v => ?_)
  have houtcome (r : HoldReason) (w : VisitRec) : (liftedVisit s.bins r w).outcome = w.outcome := by
    rw [liftedVisit_eq]
    rfl
  have haisle (r : HoldReason) (w : VisitRec) : ofAisle s a (liftedVisit s.bins r w) = ofAisle s a w := by
    rw [liftedVisit_eq]
    rfl
  have hof : ofAisle s a v = true ↔ binAisle s v.bin = some a := beq_iff_eq
  simp only [← hof]
  by_cases h : v.outcome = none ∧ ofAisle s a v = true
  · rw [if_pos h, ← lifts_eq]
    simp only [Function.comp_apply, houtcome, haisle, h, Bool.true_and, true_and, and_self, if_true]
  · rw [if_neg h]
    have hreset : ¬(v.outcome = none ∧ (ofAisle s a v && v.state.inLeg) = true) := fun hr =>
      h ⟨hr.1, (Bool.and_eq_true_iff.mp hr.2).1⟩
    simp only [Function.comp_apply, if_neg h, if_neg hreset]

theorem enterReady_suspending (h : (aisleRec s a).suspension = .suspending) : enterReady a s = takeSuspension a
    (setCrane a { crane s a with segment := none, estimate := none, deadline := 0, leg := none } s) := if_pos h

/-- The record of a crane that has entered READY (R88). -/
def readyCrane (a : Aisle) (s : State) : CraneRec :=
  { crane s a with
    segment := none, estimate := none, deadline := 0, leg := none, state := .ready, restTimer := some (1000 * param s 18) }

theorem enterReady_eq (h : (aisleRec s a).suspension ≠ .suspending) :
    enterReady a s = liftAtReady a (setCrane a (readyCrane a s) s) := by
  unfold enterReady
  dsimp only
  rw [if_neg h, crane_setCrane, setCrane_setCrane]
  rfl

theorem crane_enterReady (h : (aisleRec s a).suspension ≠ .suspending) : crane (enterReady a s) a = readyCrane a s := by
  rw [enterReady_eq h]
  exact crane_setCrane ..

theorem crane_enterReady_ne (h : (aisleRec s a).suspension ≠ .suspending) (hb : b ≠ a) :
    crane (enterReady a s) b = crane s b := by
  rw [enterReady_eq h]
  exact crane_setCrane_ne hb ..

theorem enterReady_keeps (h : (aisleRec s a).suspension ≠ .suspending) :
    { enterReady a s with cranes := s.cranes, visits := s.visits } = s := by
  rw [enterReady_eq h]
  rfl

theorem enterReady_link (h : (aisleRec s a).suspension ≠ .suspending) : (enterReady a s).link = s.link := by
  rw [enterReady_eq h]
  rfl

theorem binAisle_enterReady (h : (aisleRec s a).suspension ≠ .suspending) (x : Nat) :
    binAisle (enterReady a s) x = binAisle s x := by
  rw [enterReady_eq h]
  rfl

theorem visit_enterReady (h : (aisleRec s a).suspension ≠ .suspending) (n : Nat) :
    visit (enterReady a s) n = (visit s n).map fun v =>
      if v.outcome = none ∧ binAisle s v.bin = some a then v.withHold s.bins v.readyHold else v := by
  rw [enterReady_eq h, visit_liftAtReady]
  rfl

/-- No open visit of the aisle has CRANE_FAULT or AISLE_SUSPENDED once its crane is READY. -/
theorem enterReady_lifts (h : (aisleRec s a).suspension ≠ .suspending) (hv : visit (enterReady a s) n = some v)
    (ho : v.outcome = none) (hb : binAisle (enterReady a s) v.bin = some a) :
    v.hold.craneFault = false ∧ v.hold.aisleSuspended = false := by
  rw [binAisle_enterReady h] at hb
  rw [visit_enterReady h, Option.map_eq_some_iff] at hv
  obtain ⟨w, -, rfl⟩ := hv
  split
  · exact ⟨rfl, rfl⟩
  · rename_i hn
    rw [if_neg hn] at ho hb
    exact absurd ⟨ho, hb⟩ hn

theorem inLeg_iff (x : VisitState) : x.inLeg = decide (x = .outbound ∨ x = .inbound ∨ x = .moving) := by
  cases x <;> rfl

end

/-! ### HOMED -/

section
variable {a : Aisle} {s : State} {g : SegmentRec} {l : LegRec}

/-- The crane at the mouth after HOMED (R112). -/
def homedCrane (a : Aisle) (s : State) : CraneRec :=
  { crane s a with
    segment := none, estimate := none, deadline := 0, col := some 0, level := some (mouthLevel s), homingClear := false }

/-- The state of a homing that has ended: after Clear Crane the crane's attention bit is set (R112). -/
def homingEnded (a : Aisle) (s : State) : State :=
  (if (crane s a).homingClear then setAttention (1 + a.val) else id) (setCrane a (homedCrane a s) s)

theorem takeHomed_unexpected (h : ∀ g, (crane s a).segment = some g → g.kind ≠ .home) :
    takeHomed a s = unexpectedReport a s := by
  unfold takeHomed
  dsimp only
  split
  · rename_i hseg
    exact absurd rfl (h _ hseg)
  · rfl

section
variable (hseg : (crane s a).segment = some g) (hk : g.kind = .home)
include hseg hk

theorem takeHomed_legless (hl : (crane s a).leg = none) : takeHomed a s = enterReady a (homingEnded a s) := by
  obtain ⟨kind, col, level, side, issued⟩ := g
  cases hk
  have hready : takeHomed a s = enterReady a (if (crane s a).homingClear then
      setAttention (craneBit a) (setCrane a (homedCrane a s) s) else setCrane a (homedCrane a s) s) := by
    simp only [takeHomed, hseg, hl]
    rfl
  rw [hready, homingEnded]
  split <;> rfl

theorem takeHomed_leg (hl : (crane s a).leg = some l) : takeHomed a s =
    if l.cancelled then enterReady a (setCrane a (homedCrane a s) s)
    else setCraneState a .moving (proceed a true (setCrane a (homedCrane a s) s)) := by
  obtain ⟨kind, col, level, side, issued⟩ := g
  cases hk
  simp only [takeHomed, hseg, hl]
  rfl

end

theorem crane_homingEnded (a : Aisle) (s : State) : crane (homingEnded a s) a = homedCrane a s := by
  unfold homingEnded
  split <;> exact crane_setCrane ..

theorem aisleRec_homingEnded (a : Aisle) (s : State) : aisleRec (homingEnded a s) a = aisleRec s a := by
  unfold homingEnded
  split <;> rfl

theorem param_homingEnded (a : Aisle) (s : State) (i : Fin 41) : param (homingEnded a s) i = param s i := by
  unfold homingEnded
  split <;> rfl

theorem attention_homingEnded (h : (crane s a).homingClear = true) :
    (homingEnded a s).link.attention.getLsbD (1 + a.val) = true := by
  rw [homingEnded, if_pos h]
  exact attention_set _ (by have := a.isLt; omega) _

theorem enterReady_homingEnded (hl : (crane s a).leg = none) (h : (aisleRec s a).suspension = .suspending) :
    enterReady a (homingEnded a s) = takeSuspension a (homingEnded a s) := by
  have hcrane : ({ crane (homingEnded a s) a with segment := none, estimate := none, deadline := 0, leg := none } : CraneRec) =
      homedCrane a s := by
    rw [crane_homingEnded, ← hl]
    rfl
  rw [enterReady_suspending ((aisleRec_homingEnded a s).symm ▸ h), hcrane]
  unfold homingEnded
  split <;> exact congrArg (takeSuspension a ·) (by simp only [setCrane, setAttention, id, Vector.set_set])

/-- The crane that a homing leaves READY (R88, R112). -/
theorem crane_homed_ready {t : State} (hc : crane t a = homedCrane a s) (hp : param t 18 = param s 18)
    (h : (aisleRec t a).suspension ≠ .suspending) :
    (crane (enterReady a t) a).state = .ready ∧ (crane (enterReady a t) a).leg = none ∧
    (crane (enterReady a t) a).segment = none ∧ (crane (enterReady a t) a).col = some 0 ∧
    (crane (enterReady a t) a).level = some (mouthLevel s) ∧
    (crane (enterReady a t) a).restTimer = some (1000 * param s 18) := by
  rw [crane_enterReady h, readyCrane, hc, hp]
  exact ⟨rfl, rfl, rfl, rfl, rfl, rfl⟩

theorem takeForkDone_unexpected (h : forkInFlight (crane s a) = false) : takeForkDone a s = unexpectedReport a s := by
  simp only [takeForkDone, h, Bool.false_eq_true, if_false]

end

/-- Settles O41. -/
theorem homingsComplete : Obligations.HomingsComplete := by
  refine ⟨?homed, ?ready⟩
  case homed =>
    rintro a s c hr rfl
    have hgo {u w : State} (hw : takeHomed a s = w) (hu : u = w) :
        ∃ t, Settles s (zoneOf a) u t ∧ exec (.homed a) s = .next t := craneEvent_answers hr rfl (hu.trans hw.symm)
    refine ⟨?_, ?_, ?_, ?_, ?_⟩
    · intro g u hseg hk hl hsusp hu
      have hsusp' : (aisleRec (homingEnded a s) a).suspension ≠ .suspending := (aisleRec_homingEnded a s).symm ▸ hsusp
      obtain rfl : u = enterReady a (homingEnded a s) := hu
      obtain ⟨h1, h2, h3, h4, h5, h6⟩ := crane_homed_ready (crane_homingEnded a s) (param_homingEnded a s 18) hsusp'
      refine ⟨h1, h2, h3, h4, h5, h6, fun hc => ?_, fun n v => enterReady_lifts hsusp',
        hgo (takeHomed_legless hseg hk hl) rfl⟩
      rw [enterReady_link hsusp']
      exact attention_homingEnded hc
    · intro g u hseg hk hl hsusp hu
      obtain rfl : u = takeSuspension a (homingEnded a s) := hu
      rw [aisleRec_takeSuspension, crane_takeSuspension, takeSuspension_link, crane_homingEnded]
      exact ⟨rfl, rfl, rfl, rfl, rfl, rfl, attention_homingEnded, fun n v => takeSuspension_holds,
        hgo (takeHomed_legless hseg hk hl) (enterReady_homingEnded hl hsusp).symm⟩
    · intro g l hseg hk hl hc
      exact hgo (takeHomed_leg hseg hk hl) (if_neg (by rw [hc]; exact Bool.false_ne_true)).symm
    · intro g l u hseg hk hl hc hu
      obtain rfl : u = enterReady a (setCrane a (homedCrane a s) s) := hu
      exact ⟨crane_homed_ready (t := setCrane a (homedCrane a s) s) (crane_setCrane ..) rfl,
        hgo (takeHomed_leg hseg hk hl) (if_pos hc).symm⟩
    · rintro u rfl
      exact ⟨fun h => hgo (takeHomed_unexpected h) rfl,
        fun h => craneEvent_answers hr rfl (takeForkDone_unexpected h).symm,
        next_outsideReset hr, next_outsideReset hr⟩
  case ready =>
    rintro a s t u c rfl rfl rfl
    refine ⟨enterReady_suspending, fun h => ⟨?_, fun b => crane_enterReady_ne h, enterReady_keeps h,
      fun n v hv => ⟨fun hother => ?_, fun ho hb => ⟨v.withHold s.bins v.readyHold, ?_, ?_, ?_, ?_⟩⟩⟩⟩
    · rw [crane_enterReady h, crane_setCrane]
      rfl
    · rw [visit_enterReady h, hv, Option.map_some, if_neg (not_and_or.mpr hother)]
    · rw [visit_enterReady h, hv, Option.map_some, if_pos ⟨ho, hb⟩]
    · rw [← inLeg_iff]
      rfl
    · exact fun hkept => if_pos hkept
    · exact fun hne hnone => if_neg (not_or.mpr ⟨hne, not_not.mpr hnone⟩)

end Sys2Proof.Machine

/-! A halt and a retry (R110, R111, R115). -/

namespace Sys2Proof.Machine

/-! ### The fork that is cut off, and the bin on the crane -/

section
variable {a b : Aisle} {s : State} {n : Nat} {c : CraneRec} {r : AisleRec}

/-- The bin records with one of them changed, if it is in use. -/
def modBins (m : Nat) (f : BinRec → BinRec) (x : Table BinRec) : Table BinRec :=
  match tableGet x m with
  | some r => tablePut x m (f r)
  | none => x

theorem modBin_eq (m : Nat) (f : BinRec → BinRec) (s : State) : modBin m f s = { s with bins := modBins m f s.bins } := by
  unfold modBin modBins bin
  cases tableGet s.bins m <;> rfl

theorem modBin_rest (m : Nat) (f : BinRec → BinRec) (s : State) : { modBin m f s with bins := s.bins } = s := by
  rw [modBin_eq]

theorem cutFork_of_none (h : forkMark s a = none) : cutFork a s = s := by
  simp only [cutFork, h]

theorem cutFork_of_some (h : forkMark s a = some n) : cutFork a s =
    setForkMark a none { s with bins := modBins n (fun r => { r with uncertain := true }) s.bins } := by
  simp only [cutFork, h, markUncertain, modBin_eq]
  rfl

theorem bin_cutFork (a : Aisle) (s : State) (n : Nat) : bin (cutFork a s) n = (bin s n).map fun r =>
    { r with uncertain := r.uncertain || decide (forkMark s a = some n) } := by
  cases hm : forkMark s a with
  | none => simp [cutFork_of_none hm]
  | some m =>
    simp only [cutFork, hm, markUncertain, bin_modBin]
    by_cases hn : n = m
    · subst hn
      simp
    · rw [if_neg hn]
      simp only [Option.some.injEq, Ne.symm hn, decide_false, Bool.or_false]
      simp

theorem forkMark_cutFork (a : Aisle) (s : State) : forkMark (cutFork a s) a = none := by
  cases hm : forkMark s a with
  | none => rw [cutFork_of_none hm, hm]
  | some m => rw [cutFork_of_some hm, forkMark_setForkMark]

theorem forkMark_cutFork_ne (h : b ≠ a) : forkMark (cutFork a s) b = forkMark s b := by
  cases hm : forkMark s a with
  | none => rw [cutFork_of_none hm]
  | some m =>
    rw [cutFork_of_some hm, forkMark_setForkMark_ne h]
    rfl

theorem cutFork_rest (a : Aisle) (s : State) : { cutFork a s with bins := s.bins, forkMarks := s.forkMarks } = s := by
  cases hm : forkMark s a with
  | none => rw [cutFork_of_none hm]
  | some m =>
    rw [cutFork_of_some hm]
    rfl

theorem cutFork_setAisle (a : Aisle) (r : AisleRec) (s : State) :
    cutFork a (setAisle a r s) = setAisle a r (cutFork a s) := by
  cases hm : forkMark s a with
  | none => rw [cutFork_of_none hm, cutFork_of_none (s := setAisle a r s) hm]
  | some m =>
    rw [cutFork_of_some hm, cutFork_of_some (s := setAisle a r s) hm]
    rfl

theorem cutFork_sent (a : Aisle) (x : List FieldMsg) (s : State) :
    cutFork a { s with sent := x } = { cutFork a s with sent := x } := by
  cases hm : forkMark s a with
  | none => rw [cutFork_of_none hm, cutFork_of_none (s := { s with sent := x }) hm]
  | some m =>
    rw [cutFork_of_some hm, cutFork_of_some (s := { s with sent := x }) hm]
    rfl

/-- The bin that a crane carries is STRANDED (R110). -/
def strandCarried (c : CraneRec) (s : State) : State :=
  match c.carried with
  | some b => markStranded b s
  | none => s

theorem bin_strandCarried (c : CraneRec) (s : State) (n : Nat) : bin (strandCarried c s) n = (bin s n).map fun r =>
    { r with stranded := r.stranded || decide (c.carried = some n) } := by
  unfold strandCarried
  cases hc : c.carried with
  | none => simp
  | some m =>
    simp only [markStranded, bin_modBin]
    by_cases hn : n = m
    · subst hn
      simp
    · rw [if_neg hn]
      simp only [Option.some.injEq, Ne.symm hn, decide_false, Bool.or_false]
      simp

theorem strandCarried_rest (c : CraneRec) (s : State) : { strandCarried c s with bins := s.bins } = s := by
  unfold strandCarried
  split
  · exact modBin_rest ..
  · rfl

theorem strandCarried_setAisle (a : Aisle) (r : AisleRec) (c : CraneRec) (s : State) :
    strandCarried c (setAisle a r s) = setAisle a r (strandCarried c s) := by
  unfold strandCarried
  split
  · rw [markStranded, modBin_eq, markStranded, modBin_eq]
    rfl
  · rfl

/-! ### The visits that a halt holds -/

/-- The visits that a halt holds: that of the leg in hand or, with no leg in hand, that of the leg a park order dropped and
that of a carried bin (R31, R110). -/
def haltedVisits (c : CraneRec) (s : State) : List Nat :=
  match c.leg with
  | some l => if l.cancelled then [] else [l.visit]
  | none => (c.dropped.map (·.visit)).toList ++ (c.carried.bind fun b => (bin s b).bind (·.openVisit)).toList

/-- CRANE_FAULT for a list of visits. -/
def addCraneFaults (ns : List Nat) (s : State) : State := ns.foldl (fun t n => addHold .craneFault n t) s

theorem holdHalted_eq (c : CraneRec) (s : State) : holdHalted c s = addCraneFaults (haltedVisits c s) s := by
  have hbin (t : State) (ht : t.bins = s.bins) (b : Nat) :
      holdBinVisit .craneFault b t = addCraneFaults ((bin s b).bind (·.openVisit)).toList t := by
    have hb : bin t b = bin s b := by rw [bin, ht, bin]
    unfold holdBinVisit
    rw [hb]
    cases (bin s b).bind (·.openVisit) <;> rfl
  cases hl : c.leg with
  | some l =>
    simp only [holdHalted, haltedVisits, hl]
    cases l.cancelled <;> rfl
  | none =>
    cases hd : c.dropped with
    | none =>
      cases hc : c.carried with
      | none => simp only [holdHalted, haltedVisits, hl, hd, hc]; rfl
      | some b =>
        simp only [holdHalted, haltedVisits, hl, hd, hc]
        exact hbin s rfl b
    | some l =>
      cases hc : c.carried with
      | none => simp only [holdHalted, haltedVisits, hl, hd, hc]; rfl
      | some b =>
        simp only [holdHalted, haltedVisits, hl, hd, hc]
        exact hbin (addHold .craneFault l.visit s) rfl b

theorem mem_haltedVisits (c : CraneRec) (s : State) (n : Nat) : n ∈ haltedVisits c s ↔
    (∃ l, c.leg = some l ∧ l.cancelled = false ∧ l.visit = n) ∨
    (c.leg = none ∧ ∃ l, c.dropped = some l ∧ l.visit = n) ∨
    (c.leg = none ∧ ∃ b r, c.carried = some b ∧ bin s b = some r ∧ r.openVisit = some n) := by
  unfold haltedVisits
  cases c.leg with
  | some l => cases hc : l.cancelled <;> simp [hc, eq_comm (a := n)]
  | none => simp [Option.bind_eq_some_iff]

theorem visit_addCraneFaults (ns : List Nat) (s : State) (n : Nat) : visit (addCraneFaults ns s) n = (visit s n).map fun v =>
    if v.outcome = none ∧ n ∈ ns then { v with hold := { v.hold with craneFault := true } } else v := by
  induction ns generalizing s with
  | nil => simp [addCraneFaults]
  | cons m ns ih =>
    change visit (addCraneFaults ns (addHold .craneFault m s)) n = _
    rw [ih, visit_addHold, Option.map_map]
    refine congrArg (fun f => Option.map f (visit s n)) (funext fun v => ?_)
    by_cases ho : v.outcome = none
    · by_cases hm : n = m
      · subst hm
        by_cases hns : n ∈ ns <;> simp [ho, hns, HoldSet.put]
      · simp [hm]
    · simp [ho]

theorem addCraneFaults_rest (ns : List Nat) (s : State) : { addCraneFaults ns s with visits := s.visits } = s := by
  induction ns generalizing s with
  | nil => rfl
  | cons m ns ih => exact (congrArg (fun t : State => { t with visits := s.visits }) (ih (addHold .craneFault m s)) :)

theorem addCraneFaults_setAisle (ns : List Nat) (a : Aisle) (r : AisleRec) (s : State) :
    addCraneFaults ns (setAisle a r s) = setAisle a r (addCraneFaults ns s) := by
  induction ns generalizing s with
  | nil => rfl
  | cons m ns ih => exact ih (addHold .craneFault m s)

end

/-! ### The halt (R110) -/

section
variable {a b : Aisle} {cls : FaultClass} {follow : Bool} {s : State} {n : Nat} {v : VisitRec} {k : Suspension}

/-- The record of a crane that a fault has halted (R110). -/
def CraneRec.halted (c : CraneRec) (cls : FaultClass) (follow : Bool) : CraneRec :=
  { c with
    segment := none, estimate := none, deadline := 0, state := .faulted
    latched := if follow then c.latched else some cls, supplyFault := c.supplyFault || follow
    homingClear := false, retryTimer := none, restTimer := none }

/-- What a halt does before the claims of the aisle are given up. -/
def haltMotion (a : Aisle) (s : State) : State :=
  strandCarried (crane s a) { cutFork a s with sent := s.sent ++ stopOf a (crane s a) }

/-- The halted crane, with the visits held. -/
def haltHeld (a : Aisle) (cls : FaultClass) (follow : Bool) (s : State) : State :=
  setCrane a ((crane s a).halted cls follow)
    (addCraneFaults (haltedVisits (crane s a) (haltMotion a s)) (haltMotion a s))

theorem halt_eq (a : Aisle) (cls : FaultClass) (follow : Bool) (s : State) : halt a cls follow s =
    if (aisleRec s a).suspension = .suspending then takeSuspension a (dropClaims a (haltHeld a cls follow s))
    else dropClaims a (haltHeld a cls follow s) := by
  have hstop : cutFork a (if (crane s a).segment.isSome then sendDrive a .stop s else s) =
      { cutFork a s with sent := s.sent ++ stopOf a (crane s a) } := by
    rw [stop_eq, cutFork_sent]
  simp only [halt, hstop, holdHalted_eq]
  rfl

theorem bin_haltMotion (a : Aisle) (s : State) (n : Nat) : bin (haltMotion a s) n = (bin s n).map fun r => { r with
    uncertain := r.uncertain || decide (forkMark s a = some n)
    stranded := r.stranded || decide ((crane s a).carried = some n) } := by
  have hcut : bin { cutFork a s with sent := s.sent ++ stopOf a (crane s a) } n = bin (cutFork a s) n := rfl
  rw [haltMotion, bin_strandCarried, hcut, bin_cutFork, Option.map_map]
  rfl

theorem haltMotion_rest (a : Aisle) (s : State) :
    { haltMotion a s with bins := s.bins, forkMarks := s.forkMarks, sent := s.sent } = s := by
  let t : State := { cutFork a s with sent := s.sent ++ stopOf a (crane s a) }
  calc { haltMotion a s with bins := s.bins, forkMarks := s.forkMarks, sent := s.sent }
    _ = { t with bins := s.bins, forkMarks := s.forkMarks, sent := s.sent } :=
      (congrArg (fun u : State => { u with bins := s.bins, forkMarks := s.forkMarks, sent := s.sent })
        (strandCarried_rest (crane s a) t) :)
    _ = s := (congrArg (fun u : State => { u with sent := s.sent }) (cutFork_rest a s) :)

theorem haltMotion_forkMarks (a : Aisle) (s : State) : (haltMotion a s).forkMarks = (cutFork a s).forkMarks :=
  (congrArg State.forkMarks (strandCarried_rest (crane s a) { cutFork a s with sent := s.sent ++ stopOf a (crane s a) }) :)

theorem haltMotion_sent (a : Aisle) (s : State) : (haltMotion a s).sent = s.sent ++ stopOf a (crane s a) :=
  (congrArg State.sent (strandCarried_rest (crane s a) { cutFork a s with sent := s.sent ++ stopOf a (crane s a) }) :)

/-- The carried bin's visit is the same once the bins are marked. -/
theorem haltedVisits_haltMotion (a : Aisle) (s : State) :
    haltedVisits (crane s a) (haltMotion a s) = haltedVisits (crane s a) s := by
  have hvisit (b : Nat) : (bin (haltMotion a s) b).bind (·.openVisit) = (bin s b).bind (·.openVisit) := by
    rw [bin_haltMotion]
    cases bin s b <;> rfl
  unfold haltedVisits
  simp only [hvisit]

theorem haltHeld_rest (a : Aisle) (cls : FaultClass) (follow : Bool) (s : State) : { haltHeld a cls follow s with
    cranes := s.cranes, forkMarks := s.forkMarks, bins := s.bins, visits := s.visits, sent := s.sent } = s :=
  calc { haltHeld a cls follow s with
      cranes := s.cranes, forkMarks := s.forkMarks, bins := s.bins, visits := s.visits, sent := s.sent }
    _ = { haltMotion a s with
        cranes := s.cranes, forkMarks := s.forkMarks, bins := s.bins, visits := s.visits, sent := s.sent } :=
      (congrArg (fun u : State => { u with
          cranes := s.cranes, forkMarks := s.forkMarks, bins := s.bins, visits := s.visits, sent := s.sent })
        (addCraneFaults_rest (haltedVisits (crane s a) (haltMotion a s)) (haltMotion a s)) :)
    _ = s := (congrArg (fun u : State => { u with cranes := s.cranes, visits := s.visits }) (haltMotion_rest a s) :)

theorem haltHeld_forkMarks (a : Aisle) (cls : FaultClass) (follow : Bool) (s : State) :
    (haltHeld a cls follow s).forkMarks = (cutFork a s).forkMarks :=
  (congrArg State.forkMarks (addCraneFaults_rest (haltedVisits (crane s a) (haltMotion a s)) (haltMotion a s)) :).trans
    (haltMotion_forkMarks a s)

theorem haltHeld_sent (a : Aisle) (cls : FaultClass) (follow : Bool) (s : State) :
    (haltHeld a cls follow s).sent = s.sent ++ stopOf a (crane s a) :=
  (congrArg State.sent (addCraneFaults_rest (haltedVisits (crane s a) (haltMotion a s)) (haltMotion a s)) :).trans
    (haltMotion_sent a s)

theorem bin_haltHeld (a : Aisle) (cls : FaultClass) (follow : Bool) (s : State) (n : Nat) :
    bin (haltHeld a cls follow s) n = (bin s n).map fun r => { r with
      uncertain := r.uncertain || decide (forkMark s a = some n)
      stranded := r.stranded || decide ((crane s a).carried = some n) } :=
  (congrArg (fun t : State => bin t n)
    (addCraneFaults_rest (haltedVisits (crane s a) (haltMotion a s)) (haltMotion a s)) :).trans (bin_haltMotion a s n)

theorem visit_haltHeld (a : Aisle) (cls : FaultClass) (follow : Bool) (s : State) (n : Nat) :
    visit (haltHeld a cls follow s) n = (visit s n).map fun v => if v.outcome = none ∧ n ∈ haltedVisits (crane s a) s then
      { v with hold := { v.hold with craneFault := true } } else v := by
  have hmotion : visit (haltMotion a s) n = visit s n := (congrArg (fun t : State => visit t n) (haltMotion_rest a s) :)
  rw [haltHeld, ← hmotion, ← haltedVisits_haltMotion]
  exact visit_addCraneFaults ..

theorem crane_haltHeld_ne (h : b ≠ a) : crane (haltHeld a cls follow s) b = crane s b :=
  (crane_setCrane_ne h _ _).trans (crane_congr ((congrArg State.cranes (addCraneFaults_rest
    (haltedVisits (crane s a) (haltMotion a s)) (haltMotion a s)) :).trans (congrArg State.cranes (haltMotion_rest a s) :)) b)

/-! ### A halt in a SUSPENDING aisle (R93) -/

theorem setAisle_setAisle (a : Aisle) (r q : AisleRec) (s : State) : setAisle a r (setAisle a q s) = setAisle a r s := by
  simp only [setAisle, Vector.set_set]

/-- The aisle with another suspension mark. -/
def withSuspension (a : Aisle) (k : Suspension) (s : State) : State := setAisle a { aisleRec s a with suspension := k } s

theorem takeSuspension_withSuspension (a : Aisle) (k : Suspension) (s : State) :
    takeSuspension a (withSuspension a k s) = takeSuspension a s := by
  unfold takeSuspension withSuspension
  rw [aisleRec_setAisle, setAisle_setAisle]
  rfl

theorem returnGrant_withSuspension (a : Aisle) (k : Suspension) (s : State) :
    returnGrant a (withSuspension a k s) = withSuspension a k (returnGrant a s) := by
  have hrec : aisleRec (withSuspension a k s) a = { aisleRec s a with suspension := k } := aisleRec_setAisle ..
  cases hg : (aisleRec s a).grant with
  | true =>
    rw [returnGrant_of_grant s hg, returnGrant_of_grant (withSuspension a k s) (by rw [hrec]; exact hg), hrec]
    unfold withSuspension
    rw [setAisle_setAisle]
    change setReservations a _ (setAisle a _ s) = setReservations a _ (setAisle a { aisleRec (setAisle a _ s) a with
      suspension := k } (setAisle a _ s))
    rw [aisleRec_setAisle, setAisle_setAisle]
    rfl
  | false => rw [returnGrant_of_no_grant s hg, returnGrant_of_no_grant (withSuspension a k s) (by rw [hrec]; exact hg)]

theorem withdrawWait_withSuspension (a : Aisle) (k : Suspension) (s : State) :
    withdrawWait a (withSuspension a k s) = withSuspension a k (withdrawWait a s) := by
  unfold withdrawWait
  rw [show waiting (withSuspension a k s) a = waiting s a from rfl]
  split <;> rfl

theorem dropClaims_withSuspension (a : Aisle) (k : Suspension) (s : State) :
    dropClaims a (withSuspension a k s) = withSuspension a k (dropClaims a s) := by
  rw [dropClaims, returnGrant_withSuspension, withdrawWait_withSuspension, dropClaims]

theorem haltMotion_setAisle (a : Aisle) (r : AisleRec) (s : State) :
    haltMotion a (setAisle a r s) = setAisle a r (haltMotion a s) := by
  unfold haltMotion
  rw [cutFork_setAisle]
  exact strandCarried_setAisle a r (crane s a) { cutFork a s with sent := s.sent ++ stopOf a (crane s a) }

theorem haltHeld_setAisle (a : Aisle) (r : AisleRec) (cls : FaultClass) (follow : Bool) (s : State) :
    haltHeld a cls follow (setAisle a r s) = setAisle a r (haltHeld a cls follow s) := by
  unfold haltHeld
  rw [haltMotion_setAisle, addCraneFaults_setAisle]
  rfl

theorem aisleRec_haltHeld (a b : Aisle) (cls : FaultClass) (follow : Bool) (s : State) :
    aisleRec (haltHeld a cls follow s) b = aisleRec s b :=
  (congrArg (fun t : State => aisleRec t b) (haltHeld_rest a cls follow s) :)

theorem haltHeld_withSuspension (a : Aisle) (k : Suspension) (cls : FaultClass) (follow : Bool) (s : State) :
    haltHeld a cls follow (withSuspension a k s) = withSuspension a k (haltHeld a cls follow s) := by
  rw [withSuspension, haltHeld_setAisle, withSuspension, aisleRec_haltHeld]

theorem halt_of_not_suspending (h : (aisleRec s a).suspension ≠ .suspending) :
    halt a cls follow s = dropClaims a (haltHeld a cls follow s) := by
  rw [halt_eq, if_neg h]

/-- A suspension that waits for the leg takes effect at the halt (R93). -/
theorem halt_of_suspending (h : (aisleRec s a).suspension = .suspending) :
    halt a cls follow s = takeSuspension a (halt a cls follow (withSuspension a .inService s)) := by
  have hrec : aisleRec (withSuspension a .inService s) a = { aisleRec s a with suspension := .inService } :=
    aisleRec_setAisle ..
  rw [halt_eq, if_pos h, halt_of_not_suspending (by rw [hrec]; exact Suspension.noConfusion), haltHeld_withSuspension,
    dropClaims_withSuspension, takeSuspension_withSuspension]

/-! ### A halt in any other aisle -/

variable (h : (aisleRec s a).suspension ≠ .suspending)
include h

theorem crane_halt : crane (halt a cls follow s) a = (crane s a).halted cls follow := by
  rw [halt_of_not_suspending h, crane_dropClaims, haltHeld, crane_setCrane]

theorem sent_halt : (halt a cls follow s).sent = s.sent ++ stopOf a (crane s a) := by
  rw [halt_of_not_suspending h, dropClaims_sent, haltHeld_sent]

theorem bin_halt (n : Nat) : bin (halt a cls follow s) n = (bin s n).map fun r => { r with
    uncertain := r.uncertain || decide (forkMark s a = some n)
    stranded := r.stranded || decide ((crane s a).carried = some n) } := by
  rw [halt_of_not_suspending h, bin, dropClaims_bins]
  exact bin_haltHeld a cls follow s n

theorem visit_halt (n : Nat) : visit (halt a cls follow s) n = (visit s n).map fun v =>
    if v.outcome = none ∧ n ∈ haltedVisits (crane s a) s then { v with hold := { v.hold with craneFault := true } } else v := by
  rw [halt_of_not_suspending h, visit, dropClaims_visits]
  exact visit_haltHeld a cls follow s n

theorem forkMark_halt : forkMark (halt a cls follow s) a = none := by
  rw [halt_of_not_suspending h, forkMark_congr (dropClaims_forkMarks ..), forkMark_congr (haltHeld_forkMarks ..)]
  exact forkMark_cutFork a s

theorem aisleRec_halt : aisleRec (halt a cls follow s) a = { aisleRec s a with grant := false } := by
  rw [halt_of_not_suspending h, aisleRec_dropClaims, aisleRec_haltHeld]

theorem waiting_halt : waiting (halt a cls follow s) a = false := by
  rw [halt_of_not_suspending h, waiting_dropClaims]

theorem reservations_halt : reservations (halt a cls follow s) a =
    reservations s a - if (aisleRec s a).grant then 1 else 0 := by
  rw [halt_of_not_suspending h, reservations_dropClaims, aisleRec_haltHeld]
  exact congrArg (· - _) (congrArg (fun t : State => reservations t a) (haltHeld_rest a cls follow s) :)

/-- The blocks of the other aisles go on as they were. -/
theorem halt_other (hb : b ≠ a) : crane (halt a cls follow s) b = crane s b ∧
    forkMark (halt a cls follow s) b = forkMark s b ∧ aisleRec (halt a cls follow s) b = aisleRec s b ∧
    waiting (halt a cls follow s) b = waiting s b ∧ reservations (halt a cls follow s) b = reservations s b := by
  rw [halt_of_not_suspending h, crane_dropClaims, forkMark_congr (dropClaims_forkMarks ..), aisleRec_dropClaims_ne hb,
    waiting_dropClaims_ne hb, reservations_dropClaims_ne hb, crane_haltHeld_ne hb, aisleRec_haltHeld,
    forkMark_congr (haltHeld_forkMarks ..), forkMark_congr rfl, forkMark_cutFork_ne hb]
  exact ⟨rfl, rfl, rfl, (congrArg (fun t : State => waiting t b) (haltHeld_rest a cls follow s) :),
    (congrArg (fun t : State => reservations t b) (haltHeld_rest a cls follow s) :)⟩

theorem halt_rest : { halt a cls follow s with
    cranes := s.cranes, forkMarks := s.forkMarks, aisles := s.aisles, stations := s.stations, bins := s.bins
    visits := s.visits, sent := s.sent } = s := by
  rw [halt_of_not_suspending h]
  refine Eq.trans (congrArg (fun t : State => { t with
      cranes := s.cranes, forkMarks := s.forkMarks, aisles := s.aisles, stations := s.stations, bins := s.bins
      visits := s.visits, sent := s.sent }) (dropClaims_keeps a (haltHeld a cls follow s)) :) ?_
  exact (congrArg (fun t : State => { t with aisles := s.aisles, stations := s.stations }) (haltHeld_rest a cls follow s) :)

end

/-! ### A fault in RETRY mode (R111, R115) -/

section
variable {a : Aisle} {cls : FaultClass} {s u : State}

theorem forkInFlight_iff (c : CraneRec) :
    forkInFlight c = true ↔ ∃ g, c.segment = some g ∧ (g.kind = .forkPick ∨ g.kind = .forkPlace) := by
  unfold forkInFlight
  cases c.segment with
  | none => simp
  | some g => simp [isFork_iff]

theorem mayRetry_iff (s : State) (c : CraneRec) :
    mayRetry s c = true ↔ param s 26 = 0 ∨ c.retryCount < param s 26 := by
  simp only [mayRetry, Bool.or_eq_true, beq_iff_eq, decide_eq_true_eq]

/-- The fork that a crane with a park order finishes is cut off, and PARK is issued (R115). -/
theorem retryFault_cut (hp : (crane s a).parkOrder = true) (hf : forkInFlight (crane s a) = true) :
    retryFault a cls s = issuePark a { setCrane a { crane s a with segment := none, estimate := none, deadline := 0 }
      (cutFork a s) with sent := s.sent ++ [.drive a .stop] } := by
  have hcrane : crane (cutFork a s) a = crane s a := crane_congr (congrArg State.cranes (cutFork_rest a s) :) a
  have hstop : cutFork a (sendDrive a .stop s) = { cutFork a s with sent := s.sent ++ [.drive a .stop] } := cutFork_sent ..
  have hcrane' : crane { cutFork a s with sent := s.sent ++ [.drive a .stop] } a = crane s a := hcrane
  have hboth : ((crane s a).parkOrder && forkInFlight (crane s a)) = true := by rw [hp, hf, Bool.and_self]
  unfold retryFault
  dsimp only
  rw [if_pos hboth, hstop, hcrane']
  rfl

section
variable (hn : (crane s a).parkOrder = false ∨ ¬(forkInFlight (crane s a) = true))
include hn

theorem parkFork_eq_false : ((crane s a).parkOrder && forkInFlight (crane s a)) = false := by
  obtain h | h := hn
  · rw [h, Bool.false_and]
  · rw [Bool.eq_false_iff.mpr h, Bool.and_false]

/-- The segment waits for its re-issue (R111). -/
theorem retryFault_waits (hm : param s 26 = 0 ∨ (crane s a).retryCount < param s 26) : retryFault a cls s =
    { setCrane a { crane s a with
        segment := none, estimate := none, deadline := 0
        state := if (crane s a).state = .homing ∨ (crane s a).state = .parking then (crane s a).state else .retryWait
        retryCount := min ((crane s a).retryCount + 1) 20, retryTimer := some (param s 25) } s with
      sent := s.sent ++ [.drive a .stop] } := by
  simp only [retryFault, parkFork_eq_false hn, (mayRetry_iff s _).mpr hm, Bool.false_eq_true, if_false, if_true]
  cases hst : (crane s a).state <;> rfl

theorem retryFault_halts (hm : ¬(param s 26 = 0 ∨ (crane s a).retryCount < param s 26)) :
    retryFault a cls s = halt a cls false s := by
  have hno : mayRetry s (crane s a) = false := Bool.eq_false_iff.mpr (mt (mayRetry_iff s _).mp hm)
  simp only [retryFault, parkFork_eq_false hn, hno, Bool.false_eq_true, if_false]

end

end

end Sys2Proof.Machine

/-! The faults of a crane: how they are detected, and how they act by their modes (R102, R105, R107, R109). -/

namespace Sys2Proof.Machine

/-! ### The mode of a class (R102) -/

/-- The parameter that holds the action mode of a fault class. -/
def FaultClass.modeParam : FaultClass → Fin 41
  | .overrun => 19
  | .slip => 20
  | .surge => 21
  | .speed => 22
  | .noDrive => 23
  | .supply => 24

section
variable {a : Aisle} {cls : FaultClass} {s : State}

theorem modeParam_eq (cls : FaultClass) : 19 + (⟨cls.code.val, by have := cls.code.isLt; omega⟩ : Fin 41) = cls.modeParam := by
  cases cls <;> rfl

theorem faultMode_ignore (h : 3 ≤ param s cls.modeParam) : faultMode s cls = .ignore := by
  unfold faultMode
  rw [modeParam_eq]
  split
  · omega
  · omega
  · omega
  · rfl

theorem faultMode_report (h : param s cls.modeParam = 2) : faultMode s cls = .report := by
  unfold faultMode
  rw [modeParam_eq, h]
  rfl

theorem faultMode_retry (h : param s cls.modeParam = 1) : faultMode s cls = .retry := by
  unfold faultMode
  rw [modeParam_eq, h]
  rfl

theorem faultMode_halt (h : param s cls.modeParam = 0) : faultMode s cls = .halt := by
  unfold faultMode
  rw [modeParam_eq, h]
  rfl

/-! ### A fault that is taken -/

/-- A crane with the total of a class raised (R96). -/
def CraneRec.withFault (c : CraneRec) (cls : FaultClass) : CraneRec :=
  let total := if c.totals.get cls.code < 65535 then c.totals.get cls.code + 1 else c.totals.get cls.code
  { c with totals := c.totals.set cls.code.val total cls.code.isLt }

/-- A fault that is counted, and recorded with the crane's attention bit (R102). -/
def noted (a : Aisle) (cls : FaultClass) (s : State) : State :=
  setAttention (1 + a.val) (setCrane a
    { (crane s a).withFault cls with lastFault := some (cls, (crane s a).segment.map (·.kind)) }
    (setCrane a ((crane s a).withFault cls) s))

theorem raiseTotal_eq (a : Aisle) (cls : FaultClass) (s : State) :
    raiseTotal a cls s = setCrane a ((crane s a).withFault cls) s := rfl

theorem noteFault_raiseTotal (a : Aisle) (cls : FaultClass) (s : State) :
    noteFault a cls (raiseTotal a cls s) = noted a cls s := by
  rw [raiseTotal_eq, noteFault, crane_setCrane]
  rfl

theorem crane_noted (a : Aisle) (cls : FaultClass) (s : State) : crane (noted a cls s) a =
    { (crane s a).withFault cls with lastFault := some (cls, (crane s a).segment.map (·.kind)) } :=
  crane_setCrane a _ (setCrane a ((crane s a).withFault cls) s)

theorem takeFault_ignored (h : 3 ≤ param s cls.modeParam) :
    takeFault a cls s = setCrane a ((crane s a).withFault cls) s := by
  rw [takeFault, faultMode_ignore h, raiseTotal_eq]

theorem takeFault_reported (h : param s cls.modeParam = 2) : takeFault a cls s = noted a cls s := by
  rw [takeFault, faultMode_report h, noteFault_raiseTotal]

theorem takeFault_retried (h : param s cls.modeParam = 1) : takeFault a cls s = retryFault a cls (noted a cls s) := by
  rw [takeFault, faultMode_retry h, noteFault_raiseTotal]

theorem takeFault_halted (h : param s cls.modeParam = 0) : takeFault a cls s = halt a cls false (noted a cls s) := by
  rw [takeFault, faultMode_halt h, noteFault_raiseTotal]

theorem takeSupplyFault_latch (h : param s 24 = 0) : takeSupplyFault a s = halt a .supply false (noted a .supply s) := by
  simp only [takeSupplyFault, h, if_true, noteFault_raiseTotal]

theorem takeSupplyFault_follow (h : param s 24 ≠ 0) (hf : (crane s a).state ≠ .faulted) :
    takeSupplyFault a s = halt a .supply true (noted a .supply s) := by
  simp only [takeSupplyFault, h, hf, if_false, noteFault_raiseTotal]

theorem takeSupplyFault_faulted (h : param s 24 ≠ 0) (hf : (crane s a).state = .faulted) : takeSupplyFault a s =
    setCrane a { crane (noted a .supply s) a with supplyFault := true } (noted a .supply s) := by
  simp only [takeSupplyFault, h, hf, if_false, if_true, noteFault_raiseTotal]

end

/-! ### NO_LOAD and CURRENT_LIMIT (R107) -/

section
variable {a : Aisle} {s : State} {g : SegmentRec}

theorem takeNoLoad_fault (hseg : (crane s a).segment = some g) (hk : g.kind.isFork = false) :
    takeNoLoad a s = takeFault a .noDrive s := by
  simp only [takeNoLoad, hseg, hk, Bool.false_eq_true, if_false]

theorem takeNoLoad_unexpected (h : ∀ g, (crane s a).segment = some g → g.kind = .forkPick ∨ g.kind = .forkPlace) :
    takeNoLoad a s = unexpectedReport a s := by
  cases hseg : (crane s a).segment with
  | none => simp only [takeNoLoad, hseg]
  | some g => simp only [takeNoLoad, hseg, (isFork_iff _).mpr (h g hseg), if_true]

theorem takeCurrentLimit_unexpected (h : (crane s a).segment = none) :
    takeCurrentLimit a s = unexpectedReport a s := by
  simp only [takeCurrentLimit, h, Option.isSome_none, Bool.false_eq_true, if_false]

theorem takeCurrentLimit_segment (h : (crane s a).segment ≠ none) : takeCurrentLimit a s =
    if param s 28 ≤ (crane s a).surgeCount + 1 then takeFault a .surge (setCrane a { crane s a with surgeCount := 0 } s)
    else setCrane a { crane s a with surgeCount := (crane s a).surgeCount + 1 } s := by
  simp only [takeCurrentLimit, Option.isSome_iff_ne_none.mpr h, if_true]

/-! ### Deadlines (R105) -/

theorem takeDeadline_due (hseg : (crane s a).segment = some g) (ho : (crane s a).overran = false)
    (ht : g.issued + (crane s a).deadline ≤ s.time.ms) :
    takeDeadline a s = takeFault a .overrun (setCrane a { crane s a with overran := true } s) := by
  have hdue : deadlineDue s (crane s a) = true := by
    simp only [deadlineDue, hseg, ho, ht, decide_true, Bool.not_false, Bool.and_self]
  rw [takeDeadline, if_pos hdue, takeOverrun]

theorem takeDeadline_idle (h : ∀ g, (crane s a).segment = some g →
    (crane s a).overran = true ∨ s.time.ms < g.issued + (crane s a).deadline) : takeDeadline a s = s := by
  have hdue : deadlineDue s (crane s a) = false := by
    unfold deadlineDue
    cases hseg : (crane s a).segment with
    | none => rfl
    | some g =>
      obtain ho | ht := h g hseg
      · simp only [ho, Bool.not_true, Bool.false_and]
      · simp only [Nat.not_le.mpr ht, decide_false, Bool.and_false]
  rw [takeDeadline, hdue]
  rfl

/-! ### SUPPLY (R109) -/

/-- The state with the supply condition recorded. -/
def supplied (a : Aisle) (x : SupplyCond) (s : State) : State := setCrane a { crane s a with supply := x } s

theorem takeSupply_ok (h : (crane s a).supplyFault = false) : takeSupply a .ok s = supplied a .ok s := by
  unfold takeSupply
  dsimp only
  rw [if_pos rfl, h, if_neg Bool.false_ne_true, ← h]
  rfl

/-- The state with the supply fault ended. -/
def supplyEnded (a : Aisle) (s : State) : State := setCrane a { crane s a with supply := .ok, supplyFault := false } s

theorem takeSupply_ends (h : (crane s a).supplyFault = true) : takeSupply a .ok s =
    if (crane s a).state = .faulted ∧ (crane s a).latched = none then
      if zoneClosed s (zoneOf a) then takeOffline a (supplyEnded a s)
      else if service s a = .inService ∧ s.mode = .service then startHome a false (supplyEnded a s)
      else supplyEnded a s
    else supplyEnded a s := by
  have hend : takeSupply a .ok s = endSupplyFault a (supplied a .ok s) := by
    unfold takeSupply
    dsimp only
    rw [if_pos rfl, if_pos h]
    rfl
  rw [hend, endSupplyFault, supplied]
  simp only [crane_setCrane, setCrane_setCrane]
  rfl

theorem takeSupply_known {x : SupplyCond} (hx : x ≠ .ok) (h : (crane s a).supply = x ∨ (crane s a).state = .offline) :
    takeSupply a x s = supplied a x s := by
  have hno : ¬(x ≠ (crane s a).supply ∧ (crane s a).state ≠ .offline) := by
    rintro ⟨h1, h2⟩
    exact h.elim (fun e => h1 e.symm) h2
  unfold takeSupply
  dsimp only
  rw [if_neg hx, if_neg hno]
  rfl

theorem takeSupply_fault {x : SupplyCond} (hx : x ≠ .ok) (h1 : (crane s a).supply ≠ x) (h2 : (crane s a).state ≠ .offline) :
    takeSupply a x s = takeSupplyFault a (supplied a x s) := by
  have hyes : x ≠ (crane s a).supply ∧ (crane s a).state ≠ .offline := ⟨Ne.symm h1, h2⟩
  unfold takeSupply
  dsimp only
  rw [if_neg hx, if_pos hyes]
  rfl

end

/-! ### HOME (R112) -/

section
variable {a : Aisle} {clear : Bool} {s : State}

theorem startHome_eq (a : Aisle) (clear : Bool) (s : State) : startHome a clear s =
    setCrane a { crane (issue a ⟨.home, 0, param s 4, .mouth, 0⟩ false s) a with
      state := .homing, homingClear := clear, parkOrder := false, leg := none, dropped := none, latched := none }
      (issue a ⟨.home, 0, param s 4, .mouth, 0⟩ false s) := rfl

theorem crane_startHome (a : Aisle) (clear : Bool) (s : State) : crane (startHome a clear s) a =
    { crane (issue a ⟨.home, 0, param s 4, .mouth, 0⟩ false s) a with
      state := .homing, homingClear := clear, parkOrder := false, leg := none, dropped := none, latched := none } := by
  rw [startHome_eq, crane_setCrane]

theorem sent_startHome (a : Aisle) (clear : Bool) (s : State) : (startHome a clear s).sent = s.sent ++
    (if (crane s a).state = .resting ∨ (crane s a).state = .offline then [.drive a .wake] else []) ++ [.drive a .home] := by
  have hsent : (startHome a clear s).sent = (issue a ⟨.home, 0, param s 4, .mouth, 0⟩ false s).sent := rfl
  rw [hsent, sent_issue]
  simp only [wakeFirst_iff, true_and]
  rfl

end

/-! ### The obligation -/

section
variable {a : Aisle} {s u u' : State} {g : SegmentRec} {cls : FaultClass}

theorem noted_of (hu : u = setCrane a ((crane s a).withFault cls) s)
    (hu' : u' = setAttention (1 + a.val)
      (setCrane a { crane u a with lastFault := some (cls, (crane s a).segment.map (·.kind)) } u)) : u' = noted a cls s := by
  rw [hu', hu, crane_setCrane]
  rfl

/-- A NO_DRIVE fault that halts the crane. -/
theorem noDrive_halted (hseg : (crane s a).segment = some g) (hk : g.kind.isFork = false)
    (h : param s 23 = 0 ∨ (param s 23 = 1 ∧ param s 26 ≠ 0 ∧ param s 26 ≤ (crane s a).retryCount)) :
    takeFault a .noDrive s = halt a .noDrive false (noted a .noDrive s) := by
  obtain h | ⟨h, h0, hcount⟩ := h
  · exact takeFault_halted h
  · have hcrane := crane_noted a .noDrive s
    have hfork : forkInFlight (crane (noted a .noDrive s) a) = false := by
      rw [hcrane]
      simp only [CraneRec.withFault, forkInFlight, hseg, hk]
    rw [takeFault_retried h, retryFault_halts (.inr (Bool.eq_false_iff.mp hfork))]
    rw [hcrane]
    exact not_or.mpr ⟨h0, Nat.not_lt.mpr hcount⟩

/-- What the halt of a NO_DRIVE fault leaves (R110). -/
theorem noDrive_halt_spec (hseg : (crane s a).segment = some g) (h : (aisleRec s a).suspension ≠ .suspending) {x : State}
    (hx : x = halt a .noDrive false (noted a .noDrive s)) :
    (crane x a).state = .faulted ∧ (crane x a).latched = some .noDrive ∧ (crane x a).segment = none ∧
    (crane x a).leg = (crane s a).leg ∧ (crane x a).carried = (crane s a).carried ∧ FieldMsg.drive a .stop ∈ x.sent ∧
    ∀ b r, (crane s a).carried = some b → bin x b = some r → r.stranded = true := by
  have h' : (aisleRec (noted a .noDrive s) a).suspension ≠ .suspending := h
  have hcrane := crane_noted a .noDrive s
  rw [hx, crane_halt h', sent_halt h', hcrane]
  refine ⟨rfl, rfl, rfl, rfl, rfl, List.mem_append_right _ ?_, fun b r hb hr => ?_⟩
  · simp only [stopOf, CraneRec.withFault, hseg, reduceCtorEq, if_false, List.mem_singleton]
  · rw [bin_halt h', hcrane, Option.map_eq_some_iff] at hr
    obtain ⟨q, -, rfl⟩ := hr
    simp only [CraneRec.withFault, hb, decide_true, Bool.or_true]

/-- A NO_DRIVE fault that is retried. -/
theorem noDrive_retried (hseg : (crane s a).segment = some g) (hk : g.kind.isFork = false) (h : param s 23 = 1)
    (hm : param s 26 = 0 ∨ (crane s a).retryCount < param s 26) : takeFault a .noDrive s =
      sendDrive a .stop (setCrane a { crane (noted a .noDrive s) a with
        segment := none, estimate := none, deadline := 0
        state := if (crane s a).state = .homing ∨ (crane s a).state = .parking then (crane s a).state else .retryWait
        retryCount := min ((crane s a).retryCount + 1) 20, retryTimer := some (param s 25) } (noted a .noDrive s)) := by
  have hcrane := crane_noted a .noDrive s
  have hfork : forkInFlight (crane (noted a .noDrive s) a) = false := by
    rw [hcrane]
    simp only [CraneRec.withFault, forkInFlight, hseg, hk]
  rw [takeFault_retried h, retryFault_waits (.inr (Bool.eq_false_iff.mp hfork)) (by rw [hcrane]; exact hm), hcrane]
  rfl

theorem code_of_mem {i : Fin 6} {mode : Nat} (h : (cls, i, mode) ∈ ([(.overrun, 0, param s 19), (.slip, 1, param s 20),
    (.surge, 2, param s 21), (.speed, 3, param s 22), (.noDrive, 4, param s 23), (.supply, 5, param s 24)] :
    List (FaultClass × Fin 6 × Nat))) : i = cls.code ∧ mode = param s cls.modeParam := by
  simp only [List.mem_cons, Prod.mk.injEq, List.not_mem_nil, or_false] at h
  obtain ⟨rfl, rfl, rfl⟩ | ⟨rfl, rfl, rfl⟩ | ⟨rfl, rfl, rfl⟩ | ⟨rfl, rfl, rfl⟩ | ⟨rfl, rfl, rfl⟩ | ⟨rfl, rfl, rfl⟩ := h <;>
    exact ⟨rfl, rfl⟩

theorem supplyOfByte_of {code : Byte} {x : SupplyCond} (h : (code = 0 ∧ x = .low) ∨ (code = 2 ∧ x = .high)) :
    supplyOfByte code = some x ∧ x ≠ .ok := by
  obtain ⟨rfl, rfl⟩ | ⟨rfl, rfl⟩ := h <;> exact ⟨rfl, SupplyCond.noConfusion⟩

theorem exec_supply {code : Byte} {x : SupplyCond} (hc : supplyOfByte code = some x) (hr : inReset s = false)
    (hu : u = takeSupply a x s) : ∃ t, Settles s (zoneOf a) u t ∧ exec (.supply a code) s = .next t := by
  refine craneEvent_answers (f := takeSupply a x) hr ?_ hu
  change Host.Outcome.next (craneEvent a (match supplyOfByte code with | some c => takeSupply a c | none => unexpectedReport a) s) = _
  rw [hc]

end

theorem noLoad_detected (a : Aisle) (s : State) (g : SegmentRec) (u u' : State) (hr : inReset s = false)
    (hseg : (crane s a).segment = some g) (hk : g.kind.isFork = false)
    (hu : u = setCrane a ((crane s a).withFault .noDrive) s)
    (hu' : u' = setAttention (1 + a.val) (setCrane a { crane u a with lastFault := some (.noDrive, some g.kind) } u)) :
    (3 ≤ param s 23 → ∃ t, Settles s (zoneOf a) u t ∧ exec (.noLoad a) s = .next t) ∧
    (param s 23 = 2 → ∃ t, Settles s (zoneOf a) u' t ∧ exec (.noLoad a) s = .next t) ∧
    (param s 23 = 0 ∨ (param s 23 = 1 ∧ param s 26 ≠ 0 ∧ param s 26 ≤ (crane s a).retryCount) →
      (aisleRec s a).suspension ≠ .suspending → ∃ x t, x = halt a .noDrive false u' ∧
      (crane x a).state = .faulted ∧ (crane x a).latched = some .noDrive ∧ (crane x a).segment = none ∧
      (crane x a).leg = (crane s a).leg ∧ (crane x a).carried = (crane s a).carried ∧ FieldMsg.drive a .stop ∈ x.sent ∧
      (∀ b r, (crane s a).carried = some b → bin x b = some r → r.stranded = true) ∧
      Settles s (zoneOf a) x t ∧ exec (.noLoad a) s = .next t) ∧
    (param s 23 = 1 → (param s 26 = 0 ∨ (crane s a).retryCount < param s 26) → ∃ t,
      Settles s (zoneOf a) (sendDrive a .stop (setCrane a { crane u' a with
        segment := none, estimate := none, deadline := 0
        state := if (crane s a).state = .homing ∨ (crane s a).state = .parking then (crane s a).state else .retryWait
        retryCount := min ((crane s a).retryCount + 1) 20, retryTimer := some (param s 25) } u')) t ∧
      exec (.noLoad a) s = .next t) := by
  have hgo {x : State} (hx : x = takeFault a .noDrive s) :
      ∃ t, Settles s (zoneOf a) x t ∧ exec (.noLoad a) s = .next t :=
    craneEvent_answers hr rfl (hx.trans (takeNoLoad_fault hseg hk).symm)
  have hnoted : u' = noted a .noDrive s := noted_of hu (by rw [hu', hseg]; rfl)
  refine ⟨fun h => hgo (hu.trans (takeFault_ignored h).symm), fun h => hgo (hnoted.trans (takeFault_reported h).symm),
    fun h hsusp => ?_, fun h hm => hgo ?_⟩
  · obtain ⟨t, ht⟩ := hgo (noDrive_halted hseg hk h).symm
    obtain ⟨h1, h2, h3, h4, h5, h6, h7⟩ := noDrive_halt_spec hseg hsusp rfl
    exact ⟨_, t, by rw [hnoted], h1, h2, h3, h4, h5, h6, h7, ht⟩
  · rw [noDrive_retried hseg hk h hm, hnoted]

/-- Settles O42. -/
theorem faultsAreDetectedAndAct : Obligations.FaultsAreDetectedAndAct := by
  refine ⟨?noLoad, ?reports, ?modes, ?retries, ?halts⟩
  case noLoad =>
    rintro a s c g u u' hr rfl
    exact noLoad_detected a s g u u' hr
  case reports =>
    rintro a s c hr rfl
    refine ⟨?_, fun hseg hl => ?_, fun hseg hl => ?_, fun g hseg ho ht => ?_, fun h => ?_, fun h => ?_, ?_, ?_⟩
    · rintro u rfl
      exact ⟨fun h => craneEvent_answers hr rfl (takeNoLoad_unexpected h).symm,
        fun h => craneEvent_answers hr rfl (takeCurrentLimit_unexpected h).symm⟩
    · exact craneEvent_answers hr rfl ((takeCurrentLimit_segment hseg).trans (if_neg (Nat.not_le.mpr hl))).symm
    · exact craneEvent_answers hr rfl ((takeCurrentLimit_segment hseg).trans (if_pos hl)).symm
    · exact craneEvent_answers hr rfl (takeDeadline_due hseg ho ht).symm
    · exact craneEvent_answers hr rfl (takeDeadline_idle h).symm
    · exact exec_supply rfl hr (takeSupply_ok h).symm
    · rintro u w h rfl
      have hends := takeSupply_ends h
      have hgo {x : State} (hx : takeSupply a .ok s = x) (hw : w = x) :
          ∃ t, Settles s (zoneOf a) w t ∧ exec (.supply a 1) s = .next t := exec_supply rfl hr (hw.trans hx.symm)
      refine ⟨fun hno hw => hgo (hends.trans (if_neg (not_and_or.mpr hno))) hw, fun hf hl => ?_⟩
      rw [if_pos ⟨hf, hl⟩] at hends
      refine ⟨fun hz hw => ⟨?_, hgo (hends.trans (if_pos hz)) hw⟩, fun hz h1 h2 hw => ?_, fun hz hno hw => ?_⟩
      · rw [hw, crane_takeOffline]
        rfl
      · rw [hz, if_neg Bool.false_ne_true, if_pos ⟨h1, h2⟩] at hends
        refine ⟨?_, ?_, hgo hends hw⟩
        · rw [hw, crane_startHome]
        · rw [hw, sent_startHome]
          exact List.mem_append_right _ (List.mem_singleton.mpr rfl)
      · rw [hz, if_neg Bool.false_ne_true, if_neg (not_and_or.mpr hno)] at hends
        exact hgo hends hw
    · intro code x hx
      obtain ⟨hcode, hne⟩ := supplyOfByte_of hx
      exact ⟨fun h => exec_supply hcode hr (takeSupply_known hne h).symm,
        fun h1 h2 => exec_supply hcode hr (takeSupply_fault hne h1 h2).symm⟩
  case modes =>
    rintro a cls i mode total s u u' c rfl hmem rfl hu hu'
    obtain ⟨rfl, rfl⟩ := code_of_mem hmem
    have hnoted : u' = noted a cls s := noted_of hu hu'
    refine ⟨fun _ => ⟨fun h => (takeFault_ignored h).trans hu.symm, fun h => (takeFault_reported h).trans hnoted.symm,
      fun h => hnoted ▸ takeFault_retried h, fun h => hnoted ▸ takeFault_halted h⟩, ?_⟩
    rintro rfl
    exact ⟨fun h => hnoted ▸ takeSupplyFault_latch h, fun h hf => hnoted ▸ takeSupplyFault_follow h hf,
      fun h hf => hnoted ▸ takeSupplyFault_faulted h hf⟩
  case retries =>
    rintro a cls s u c rfl
    refine ⟨fun hp hf hu => ?_, fun hn hm => ?_, fun hn hm => ?_⟩
    · have hcut : u = cutFork a s := by
        rw [hu]
        unfold cutFork
        cases forkMark s a <;> rfl
      rw [hcut]
      exact retryFault_cut hp ((forkInFlight_iff _).mpr hf)
    · exact retryFault_waits (hn.imp_right (mt (forkInFlight_iff _).mp)) hm
    · exact retryFault_halts (hn.imp_right (mt (forkInFlight_iff _).mp)) hm
  case halts =>
    rintro a cls follow s t y c rfl rfl rfl
    refine ⟨halt_of_suspending, fun h => ⟨crane_halt h, sent_halt h, forkMark_halt h, aisleRec_halt h, waiting_halt h,
      reservations_halt h, fun b hb => halt_other h hb, bin_halt h, fun n hn => ?_, fun n v hv => ⟨fun hheld => ?_,
      fun hheld => ?_⟩, halt_rest h⟩⟩
    · rw [visit_halt h, hn, Option.map_none]
    · rw [visit_halt h, hv, Option.map_some, if_pos ⟨hheld.1, (mem_haltedVisits ..).mpr hheld.2⟩]
    · rw [visit_halt h, hv, Option.map_some, if_neg fun k => hheld ⟨k.1, (mem_haltedVisits ..).mp k.2⟩]

end Sys2Proof.Machine

/-! The panel link of a station: what reaches it, what it answers, and the messages of the panel (R39 to R41, R76, R133 to
R135). -/

namespace Sys2Proof.Machine

/-! ### What a panel link does with a message (R119, R135, R136) -/

section
variable {z : Station} {act : State → State} {s : State} {m : PanelMsg}

theorem panelEvent_absent (hp : stationPresent s z = false) (hr : inReset s = false) : panelEvent z act s = s := by
  rw [panelEvent, outsideReset_of_not _ hr, onPanel, hp]
  rfl

theorem sendPanel_present (hp : stationPresent s z = true) (hm : ¬(zoneClosed s z = true ∧ ∃ k i n, m = .show k i n) ∧
    ¬(zoneClosed s z = true ∧ m = .clear)) : sendPanel z m s = { s with sent := s.sent ++ [.panel z m] } := by
  have hsends : panelSends s z m = true := by
    cases hc : zoneClosed s z with
    | false => cases m <;> simp [panelSends, hp, hc]
    | true => cases m <;> simp [panelSends, hp, hc] at hm ⊢
  rw [sendPanel, hsends]
  rfl

theorem sendPanel_live (hp : stationPresent s z = true) (hc : zoneClosed s z = false) :
    sendPanel z m s = { s with sent := s.sent ++ [.panel z m] } :=
  sendPanel_present hp ⟨fun h => by simp [hc] at h, fun h => by simp [hc] at h⟩

/-- CLEAR, if the link takes it (R135). -/
theorem sendPanel_clear (z : Station) (s : State) : sendPanel z .clear s =
    { s with sent := s.sent ++ if stationPresent s z = true ∧ zoneClosed s z = false then [.panel z .clear] else [] } := by
  cases hp : stationPresent s z <;> cases hc : zoneClosed s z <;> simp [sendPanel, panelSends, hp, hc]

theorem panelEvent_locked (hr : inReset s = false) (hp : stationPresent s z = true) (hc : zoneClosed s z = true) :
    panelEvent z act s = { s with sent := s.sent ++ [.panel z .locked] } := by
  rw [panelEvent, outsideReset_of_not _ hr, onPanel, hp, hc]
  exact sendPanel_present hp ⟨fun h => by simp at h, fun h => by simp at h⟩

theorem panelEvent_testing {x : LineTestRec} (hr : inReset s = false) (hp : stationPresent s z = true)
    (hc : zoneClosed s z = false) (hx : (station s z).lineTest = some x) : panelEvent z act s =
      setStation z { station s z with lineTest := some { x with messages := x.messages + 1 } } s := by
  rw [panelEvent, outsideReset_of_not _ hr, onPanel, hp, hc, hx]
  rfl

/-- The state once a message taken whole has returned the discard count to 0 (R133). -/
def heard (z : Station) (s : State) : State := setStation z { station s z with discards := 0 } s

theorem station_heard (z : Station) (s : State) : station (heard z s) z = { station s z with discards := 0 } :=
  station_setStation ..

section
variable (hr : inReset s = false) (hp : stationPresent s z = true) (hc : zoneClosed s z = false)
  (hx : (station s z).lineTest = none)
include hr hp hc hx

theorem panelEvent_live : panelEvent z act s = act s := by
  rw [panelEvent, outsideReset_of_not _ hr, onPanel, hp, hc, hx]
  rfl

theorem panelEvent_takes : panelEvent z (takeMessage z act) s = act (heard z s) := by
  rw [panelEvent_live hr hp hc hx]
  rfl

end

end

/-! ### The face (R134) -/

section
variable {z : Station} {s : State} {f : FaceRec} {v : VisitRec}

theorem faceVisit_of_atFace (hf : (station s z).face = some f) (hv : visit s f.visit = some v) (hs : v.state = .atFace) :
    faceVisit s z = some (f.visit, v) := by
  simp [faceVisit, hf, hv, hs]

theorem faceVisit_none (h : ∀ f v, (station s z).face = some f → visit s f.visit = some v → v.state ≠ .atFace) :
    faceVisit s z = none := by
  cases hf : (station s z).face with
  | none => simp only [faceVisit, hf]
  | some f =>
    cases hv : visit s f.visit with
    | none => simp only [faceVisit, hf, hv, Option.filter_none, Option.map_none]
    | some v => simp [faceVisit, hf, hv, h f v hf hv]

theorem faceVisit_heard (z : Station) (s : State) : faceVisit (heard z s) z = faceVisit s z := by
  simp only [faceVisit, station_heard]
  rfl

/-- The SHOWs of a visit's PENDING tasks, each with its index (R39). -/
def showsOf (z : Station) (ts : List TaskRec) : List FieldMsg :=
  ts.zipIdx.filterMap fun k =>
    if k.1.state = .pending then some (.panel z (.show k.1.kind (k.1.key.getD 0) k.2)) else none

theorem resendTasks_none (h : ∀ f v, (station s z).face = some f → visit s f.visit = some v → v.state ≠ .atFace) :
    resendTasks z s = sendPanel z .clear s := by
  unfold resendTasks
  cases hf : (station s z).face with
  | none => rfl
  | some f =>
    cases hv : visit s f.visit with
    | none => simp only [hv]
    | some v => simp only [hv, if_neg (h f v hf hv)]

theorem resendTasks_face (hf : (station s z).face = some f) (hv : visit s f.visit = some v) (hs : v.state = .atFace) :
    resendTasks z s = showPending z 0 v.tasks (sendPanel z .clear s) := by
  simp only [resendTasks, hf, hv, hs, if_true]

theorem showPending_clear (z : Station) (ts : List TaskRec) (s : State) :
    showPending z 0 ts (sendPanel z .clear s) = { s with sent := s.sent ++
      (if stationPresent s z = true ∧ zoneClosed s z = false then .panel z .clear :: showsOf z ts else []) } := by
  have hpresent : stationPresent (sendPanel z .clear s) z = stationPresent s z := rfl
  have hclosed : zoneClosed (sendPanel z .clear s) z = zoneClosed s z := rfl
  have hshows := showPending_eq z ts 0 (sendPanel z .clear s)
  dsimp only at hshows
  rw [hshows, hpresent, hclosed, sendPanel_clear]
  cases stationPresent s z <;> cases zoneClosed s z <;> simp [showsOf]

end

/-! ### ITEM_SCAN (R39, R76) -/

section
variable {z : Station} {key : ItemKey} {s : State} {n : Nat} {v : VisitRec} {k : TaskRec} {before after : List TaskRec}

theorem findPending_none {ts : List TaskRec} (h : ∀ k ∈ ts, k.state = .pending → k.key ≠ some key) (i : Nat) :
    findPending key i ts = none := by
  rw [← Option.not_isSome_iff_eq_none, findPending_isSome_iff]
  rintro ⟨k, hk, hs, hkey⟩
  exact h k hk hs hkey

theorem findPending_first (h : ∀ j ∈ before, j.state = .pending → j.key ≠ some key) (hs : k.state = .pending)
    (hk : k.key = some key) (i : Nat) : findPending key i (before ++ k :: after) = some (i + before.length, k) := by
  induction before generalizing i with
  | nil => simp only [List.nil_append, findPending, hs, hk, and_self, if_true, List.length_nil, Nat.add_zero]
  | cons j before ih =>
    have hj : ¬(j.state = .pending ∧ j.key = some key) := fun hj => h j List.mem_cons_self hj.1 hj.2
    rw [List.cons_append, findPending, if_neg hj, ih (fun x hx => h x (List.mem_cons_of_mem j hx)), List.length_cons]
    congr 2
    omega

theorem confirmAt_first (before after : List TaskRec) (k : TaskRec) :
    confirmAt (before ++ k :: after) before.length k = before ++ { k with state := .confirmed } :: after := by
  rw [confirmAt, List.set_append_right _ _ (Nat.le_refl _), Nat.sub_self, List.set_cons_zero]

theorem takeScan_unmatched (hf : faceVisit s z = some (n, v)) (h : ∀ k ∈ v.tasks, k.state = .pending → k.key ≠ some key) :
    takeScan z key s = unexpectedScan z key s := by
  simp only [takeScan, hf, findPending_none h]

theorem takeScan_matched (hf : faceVisit s z = some (n, v)) (ht : v.tasks = before ++ k :: after)
    (h : ∀ j ∈ before, j.state = .pending → j.key ≠ some key) (hs : k.state = .pending) (hk : k.key = some key) :
    takeScan z key s = resendTasks z (confirmEffects v.bin k key
      (setVisit n (v.withTasks (before ++ { k with state := .confirmed } :: after)) s)) := by
  simp only [takeScan, hf, ht, findPending_first h hs hk, confirmTask, Nat.zero_add, confirmAt_first]

theorem unexpectedScan_heard (z : Station) (key : ItemKey) (s : State) : unexpectedScan z key (heard z s) =
    setAttention (9 + z.val) (setStation z { station s z with
      discards := 0, scanUnexpected := true, lastKey := some key } s) := by
  have hmod : modStation z (fun r => { r with scanUnexpected := true, lastKey := some key }) (heard z s) =
      setStation z { station s z with discards := 0, scanUnexpected := true, lastKey := some key } s := by
    rw [modStation_eq, station_heard, heard, setStation_setStation]
  rw [unexpectedScan, hmod]
  rfl

variable {b : Nat} {r : BinRec}

theorem confirmEffects_lend (hk : k.kind = .lend) (hl : (lookup s.withdrawals key).found = false) (hb : bin s b = some r) :
    confirmEffects b k key s = setBin b
      { r with fill := r.fill - 1, withdrawn := r.withdrawn + 1, lendHolds := r.lendHolds - 1 }
      { s with
        withdrawals := tablePut s.withdrawals (lookup s.withdrawals key).bucket ⟨key, b, s.day, k.dueDay.getD s.day, .out, none⟩
        recordCount := s.recordCount + 1, pendingLends := s.pendingLends - 1 } := by
  simp only [confirmEffects, hk, confirmLend, insertRecord, hl, Bool.false_eq_true, if_false]
  exact modBin_of_some (s := { s with
    withdrawals := tablePut s.withdrawals (lookup s.withdrawals key).bucket ⟨key, b, s.day, k.dueDay.getD s.day, .out, none⟩
    recordCount := s.recordCount + 1, pendingLends := s.pendingLends - 1 }) hb

theorem confirmEffects_return (hk : k.kind = .return) (hb : bin s b = some r) : confirmEffects b k key s =
    deleteRecord key (setBin b { r with fill := r.fill + 1, withdrawn := r.withdrawn - 1 } s) := by
  simp only [confirmEffects, hk, confirmReturn, modBin_of_some hb]

theorem confirmEffects_refile (hk : k.kind = .refile) (hb : bin s b = some r) : confirmEffects b k key s =
    setBin b { r with fill := r.fill + 1, refileHolds := r.refileHolds - 1 } s := by
  simp only [confirmEffects, hk, confirmRefile, modBin_of_some hb]

end

/-- What the panel is sent again is said once for every state (R39, R135). -/
theorem resendTasks_sends (z : Station) (s : State) :
    ((∀ f v, (station s z).face = some f → visit s f.visit = some v → v.state ≠ .atFace) → resendTasks z s =
      { s with sent := s.sent ++ if stationPresent s z = true ∧ zoneClosed s z = false then [.panel z .clear] else [] }) ∧
    ∀ f v, (station s z).face = some f → visit s f.visit = some v → v.state = .atFace → resendTasks z s =
      { s with sent := s.sent ++
        (if stationPresent s z = true ∧ zoneClosed s z = false then .panel z .clear :: showsOf z v.tasks else []) } :=
  ⟨fun h => (resendTasks_none h).trans (sendPanel_clear z s),
    fun _ v hf hv hs => (resendTasks_face hf hv hs).trans (showPending_clear z v.tasks s)⟩

/-- Settles O44. -/
theorem itemScansConfirm : Obligations.ItemScansConfirm := by
  refine ⟨fun z s => resendTasks_sends z s, ?_⟩
  rintro z key s f v y hr hp hc hx hf hv hs rfl
  have hface : faceVisit (heard z s) z = some (f.visit, v) := (faceVisit_heard z s).trans (faceVisit_of_atFace hf hv hs)
  have hgo {w : State} (hw : takeScan z key (heard z s) = w) : exec (.itemScan z key) s = .next w :=
    congrArg _ ((panelEvent_takes hr hp hc hx).trans hw)
  refine ⟨fun h => hgo ((takeScan_unmatched hface h).trans (unexpectedScan_heard z key s)), ?_⟩
  rintro before after k r x ht hfirst hpend hkey hb rfl
  have hscan := takeScan_matched hface ht hfirst hpend hkey
  let x := setVisit f.visit (v.withTasks (before ++ { k with state := .confirmed } :: after)) (heard z s)
  have hbx : bin x v.bin = some r := hb
  exact ⟨fun hk hl => hgo (hscan.trans (congrArg (resendTasks z) (confirmEffects_lend (s := x) hk hl hbx))),
    fun hk => hgo (hscan.trans (congrArg (resendTasks z) (confirmEffects_return hk hbx))),
    fun hk => hgo (hscan.trans (congrArg (resendTasks z) (confirmEffects_refile hk hbx)))⟩

end Sys2Proof.Machine

/-! DONE, KEEP, PROBLEM and the discards of a panel link (R40, R41, R58, R127, R133, R134). -/

namespace Sys2Proof.Machine

section
variable {z : Station} {s : State} {n : Nat} {v : VisitRec} {code : Byte}

/-! ### DONE, KEEP and PROBLEM at an AT_FACE visit -/

theorem takePanelDone_face (hf : faceVisit s z = some (n, v)) : takePanelDone z s =
    sendPanel z .clear (modStation z (fun x => { x with faceTimer := none })
      (setVisit n { v.withTasks (v.tasks.map settledTask) with state := .withdrawing } (releasePending v.bin v.tasks s))) := by
  simp only [takePanelDone, hf, settleTasks]

theorem takeKeep_face (hf : faceVisit s z = some (n, v)) : takeKeep z s = startFaceTimer z s := by
  simp only [takeKeep, hf]

theorem takeProblem_damaged (hf : faceVisit s z = some (n, v)) : takeProblem z .damaged s =
    setVisit n { v with problems := v.problems.add .damaged } s := by
  simp only [takeProblem, hf]

theorem takeProblem_recorded {c : ProblemCode} (hf : faceVisit s z = some (n, v)) (hc : c ≠ .damaged) :
    takeProblem z c s = stationAttention z (modStation z (fun r => { r with problemFlag := true, lastProblem := some (n, c) })
      (setVisit n { v with problems := v.problems.add c } s)) := by
  cases c with
  | damaged => exact absurd rfl hc
  | wrongBin => simp only [takeProblem, hf]
  | empty => simp only [takeProblem, hf]

theorem startFaceTimer_heard (z : Station) (s : State) : startFaceTimer z (heard z s) =
    setStation z { station s z with discards := 0, faceTimer := some (1000 * param s 31) } s := by
  have hmod : startFaceTimer z (heard z s) =
      setStation z { station (heard z s) z with faceTimer := some (1000 * param s 31) } (heard z s) := rfl
  rw [hmod, station_heard, heard, setStation_setStation]

/-- A problem recorded at the station, once the discard count is 0 (R41). -/
theorem recorded_heard (z : Station) (n : Nat) (w : VisitRec) (c : ProblemCode) (s : State) :
    stationAttention z (modStation z (fun r => { r with problemFlag := true, lastProblem := some (n, c) })
      (setVisit n w (heard z s))) =
    setAttention (9 + z.val) (setStation z { station s z with
      discards := 0, problemFlag := true, lastProblem := some (n, c) } (setVisit n w s)) := by
  have hmod : modStation z (fun r => { r with problemFlag := true, lastProblem := some (n, c) }) (setVisit n w (heard z s)) =
      setStation z { station (heard z s) z with problemFlag := true, lastProblem := some (n, c) }
        (setStation z { station s z with discards := 0 } (setVisit n w s)) := rfl
  rw [hmod, station_heard, setStation_setStation]
  rfl

/-! ### A face with no AT_FACE visit -/

theorem takeScan_none {key : ItemKey} (hf : faceVisit s z = none) :
    takeScan z key s = sendPanel z .clear (unexpectedScan z key s) := by
  simp only [takeScan, hf]

theorem takePanelDone_none (hf : faceVisit s z = none) : takePanelDone z s = sendPanel z .clear s := by
  simp only [takePanelDone, hf]

theorem takeKeep_none (hf : faceVisit s z = none) : takeKeep z s = sendPanel z .clear s := by
  simp only [takeKeep, hf]

theorem takeProblem_none {c : ProblemCode} (hf : faceVisit s z = none) : takeProblem z c s = sendPanel z .clear s := by
  simp only [takeProblem, hf]

/-! ### Discards (R133, R183) -/

theorem discardMessage_eq (z : Station) (s : State) : discardMessage z s =
    if 3 ≤ (station s z).discards + 1 then setAttention (9 + z.val) (setStation z { station s z with
      discards := 0, panelLinkFlag := true } (sendPanel z .repeat s))
    else setStation z { station s z with discards := (station s z).discards + 1 } (sendPanel z .repeat s) := rfl

theorem problemOfByte_none (h : 3 ≤ code.toNat) : problemOfByte code = none := by
  have hne (x : Byte) (hx : x.toNat < 3) : code ≠ x := fun e => by
    rw [e] at h
    omega
  rw [problemOfByte, if_neg (hne 0 (by decide)), if_neg (hne 1 (by decide)), if_neg (hne 2 (by decide))]

theorem problemOfByte_some (h : code.toNat < 3) : ∃ c, problemOfByte code = some c := by
  unfold problemOfByte
  split
  · exact ⟨_, rfl⟩
  · rename_i h0
    split
    · exact ⟨_, rfl⟩
    · rename_i h1
      split
      · exact ⟨_, rfl⟩
      · rename_i h2
        bv_omega

/-! ### The rows of the panel link -/

theorem exec_problem_some {c : ProblemCode} (h : problemOfByte code = some c) :
    exec (.problem z code) s = .next (panelEvent z (takeMessage z (takeProblem z c)) s) := by
  change Host.Outcome.next (panelEvent z (match problemOfByte code with
    | some c => takeMessage z (takeProblem z c) | none => discardMessage z) s) = _
  rw [h]

theorem exec_problem_none (h : problemOfByte code = none) :
    exec (.problem z code) s = .next (panelEvent z (discardMessage z) s) := by
  change Host.Outcome.next (panelEvent z (match problemOfByte code with
    | some c => takeMessage z (takeProblem z c) | none => discardMessage z) s) = _
  rw [h]

/-- Every row of a panel link is an event of the link. -/
theorem exec_panel {m : Instr} (h : (∃ key, m = .itemScan z key) ∨ m = .panelDone z ∨ m = .keep z ∨
    (∃ code, m = .problem z code) ∨ m = .panelMessageDiscarded z ∨ m = .panelByteTimeout z) :
    ∃ act, exec m s = .next (panelEvent z act s) := by
  obtain ⟨key, rfl⟩ | rfl | rfl | ⟨code, rfl⟩ | rfl | rfl := h
  · exact ⟨_, rfl⟩
  · exact ⟨_, rfl⟩
  · exact ⟨_, rfl⟩
  · cases hc : problemOfByte code with
    | none => exact ⟨_, exec_problem_none hc⟩
    | some c => exact ⟨_, exec_problem_some hc⟩
  · exact ⟨_, rfl⟩
  · exact ⟨_, rfl⟩

section
variable (hr : inReset s = false) (hp : stationPresent s z = true) (hc : zoneClosed s z = false)
  (hx : (station s z).lineTest = none)
include hr hp hc hx

theorem exec_keep : exec (.keep z) s = .next (takeKeep z (heard z s)) := congrArg _ (panelEvent_takes hr hp hc hx)

theorem exec_itemScan (key : ItemKey) : exec (.itemScan z key) s = .next (takeScan z key (heard z s)) :=
  congrArg _ (panelEvent_takes hr hp hc hx)

theorem exec_problem {c : ProblemCode} (h : problemOfByte code = some c) :
    exec (.problem z code) s = .next (takeProblem z c (heard z s)) :=
  (exec_problem_some h).trans (congrArg _ (panelEvent_takes hr hp hc hx))

theorem exec_panelDone {u : State} (hu : u = takePanelDone z (heard z s)) :
    ∃ t, Settles s z u t ∧ exec (.panelDone z) s = .next t :=
  ⟨_, settles_settleZone _ _ _, hu ▸ congrArg _ (panelEvent_live hr hp hc hx)⟩

omit hr hx in
theorem sendPanel_heard : sendPanel z .clear (heard z s) =
    { setStation z { station s z with discards := 0 } s with sent := s.sent ++ [.panel z .clear] } :=
  sendPanel_live (s := heard z s) hp hc

end

end

theorem settledTask_eq (k : TaskRec) : settledTask k = if k.state = .pending then (match k.kind with
    | .lend => { k with state := .notFound, fillMismatch := true }
    | .return | .refile => { k with state := .notPlaced }
    | .fetch => { k with state := .seen }) else k := by
  unfold settledTask
  split
  · cases k.kind <;> rfl
  · rfl

/-- Settles O45. -/
theorem panelMessagesAct : Obligations.PanelMessagesAct := by
  refine ⟨?live, ?links, ?empty⟩
  case live =>
    rintro z s y hr hp hc hx rfl
    refine ⟨fun f v hf hv hs => ?_, ?_⟩
    · have hface : faceVisit (heard z s) z = some (f.visit, v) :=
        (faceVisit_heard z s).trans (faceVisit_of_atFace hf hv hs)
      refine ⟨?_, ?_, ?_, ?_, ?_⟩
      · refine exec_panelDone hr hp hc hx ?_
        rw [takePanelDone_face hface, funext settledTask_eq]
        rfl
      · rw [exec_keep hr hp hc hx, takeKeep_face hface, startFaceTimer_heard]
      · rw [exec_problem hr hp hc hx (c := .damaged) rfl, takeProblem_damaged hface]
        rfl
      · rw [exec_problem hr hp hc hx (c := .wrongBin) rfl, takeProblem_recorded hface (by decide), recorded_heard]
        rfl
      · rw [exec_problem hr hp hc hx (c := .empty) rfl, takeProblem_recorded hface (by decide), recorded_heard]
        rfl
    · rintro u rfl
      have hdiscard : Host.Outcome.next (φ := Fault) (ρ := Refusal) (panelEvent z (discardMessage z) s) = .next _ :=
        congrArg _ ((panelEvent_live hr hp hc hx).trans (discardMessage_eq z s))
      exact ⟨hdiscard, hdiscard, fun code h => (exec_problem_none (problemOfByte_none h)).trans hdiscard⟩
  case links =>
    intro z m s hr hm
    obtain ⟨act, hact⟩ := exec_panel hm
    refine ⟨fun hp => hact.trans (congrArg _ (panelEvent_absent hp hr)),
      fun hp hc => hact.trans (congrArg _ (panelEvent_locked hr hp hc)),
      fun x hp hc hx => hact.trans (congrArg _ (panelEvent_testing hr hp hc hx)), ?_⟩
    rintro hp hc hx hf rfl
    have hface : faceVisit (heard z s) z = none :=
      (faceVisit_heard z s).trans (faceVisit_none fun f v h => by rw [hf] at h; cases h)
    rw [exec_keep hr hp hc hx, takeKeep_none hface, sendPanel_heard hp hc]
  case empty =>
    rintro z s u hr hp hc hx hno rfl
    have hface : faceVisit (heard z s) z = none := (faceVisit_heard z s).trans (faceVisit_none hno)
    have hclear := sendPanel_heard hp hc
    refine ⟨fun key => ?_, exec_panelDone hr hp hc hx ?_, ?_, fun code h => ?_⟩
    · rw [exec_itemScan hr hp hc hx, takeScan_none hface, unexpectedScan_heard]
      exact congrArg _ (sendPanel_live hp hc)
    · rw [takePanelDone_none hface, hclear]
    · rw [exec_keep hr hp hc hx, takeKeep_none hface, hclear]
    · obtain ⟨c, hcode⟩ := problemOfByte_some h
      rw [exec_problem hr hp hc hx hcode, takeProblem_none hface, hclear]

end Sys2Proof.Machine

/-! The machinery does not look at the command buffer: the operations of cranes, stations and zones that commands give orders
to commute with the taking of a message (R165). -/

namespace Sys2Proof.Machine

section
variable {m : List Byte} {f g : State → State} {a : Aisle} {z : Station}

theorem commutes_ite (p : State → Prop) [DecidablePred p] (hp : ∀ s, p (loadCommand m s) = p s) (hf : Commutes m f)
    (hg : Commutes m g) : Commutes m fun s => if p s then f s else g s := by
  intro s
  dsimp only
  by_cases h : p s
  · rw [if_pos h, if_pos ((hp s).symm ▸ h), hf]
  · rw [if_neg h, if_neg ((hp s).symm ▸ h), hg]

theorem commutes_foldl {α : Type} {step : α → State → State} (h : ∀ x, Commutes m (step x)) (l : List α) :
    Commutes m fun s => l.foldl (fun t x => step x t) s := by
  intro s
  induction l generalizing s with
  | nil => rfl
  | cons x l ih => exact (congrArg (fun t => l.foldl (fun t x => step x t) t) (h x s)).trans (ih (step x s))

/-! ### Claims, OFFLINE and suspension -/

theorem commutes_withdrawWait (a : Aisle) : Commutes m (withdrawWait a) :=
  commutes_ite (fun s => waiting s a = true) (fun _ => rfl) (fun _ => rfl) commutes_id

theorem commutes_dropClaims (a : Aisle) : Commutes m (dropClaims a) := fun s =>
  (congrArg (withdrawWait a) (commutes_returnGrant a s)).trans (commutes_withdrawWait a (returnGrant a s))

theorem commutes_takeOffline (a : Aisle) : Commutes m (takeOffline a) := by
  intro s
  rw [takeOffline_eq, takeOffline_eq]
  exact commutes_dropClaims a (setCrane a (crane s a).offlined { s with sent := s.sent ++ stopOf a (crane s a) })

theorem commutes_takeSuspension (a : Aisle) : Commutes m (takeSuspension a) := by
  intro s
  exact congrArg (addHoldWhere .aisleSuspended fun _ v => ofAisle s a v)
    (commutes_takeOffline a (setAisle a { aisleRec s a with suspension := .suspended } s))

theorem commutes_issuePark (a : Aisle) : Commutes m (issuePark a) :=
  commutes_ite (fun s => (aisleRec s a).suspension = .suspending) (fun _ => rfl) (commutes_takeSuspension a) fun s =>
    (congrArg (fun t => dropClaims a (setCraneState a .parking t)) (commutes_issue a (parkSegment s) false s)).trans
      (commutes_dropClaims a (setCraneState a .parking (issue a (parkSegment s) false s)))

/-! ### Halts, homings and park orders -/

theorem commutes_cutFork (a : Aisle) : Commutes m (cutFork a) := by
  intro s
  cases hm : forkMark s a with
  | none => rw [cutFork_of_none hm, cutFork_of_none (s := loadCommand m s) hm]
  | some b =>
    rw [cutFork_of_some hm, cutFork_of_some (s := loadCommand m s) hm]
    rfl

theorem commutes_haltMotion (a : Aisle) : Commutes m (haltMotion a) := by
  intro s
  have hcut : { cutFork a (loadCommand m s) with sent := s.sent ++ stopOf a (crane s a) } =
      loadCommand m { cutFork a s with sent := s.sent ++ stopOf a (crane s a) } := by
    rw [commutes_cutFork]
    rfl
  change strandCarried (crane s a) { cutFork a (loadCommand m s) with sent := s.sent ++ stopOf a (crane s a) } = _
  rw [hcut, haltMotion]
  unfold strandCarried
  split
  · exact commutes_modBin _ _ _
  · rfl

theorem addCraneFaults_load (ns : List Nat) : Commutes m (addCraneFaults ns) :=
  commutes_foldl (fun n => commutes_addHold .craneFault n) ns

theorem commutes_haltHeld (a : Aisle) (cls : FaultClass) (follow : Bool) : Commutes m (haltHeld a cls follow) := by
  intro s
  unfold haltHeld
  rw [commutes_haltMotion, addCraneFaults_load]
  rfl

theorem commutes_halt (a : Aisle) (cls : FaultClass) (follow : Bool) : Commutes m (halt a cls follow) := by
  intro s
  rw [halt_eq, halt_eq, commutes_haltHeld, commutes_dropClaims, commutes_takeSuspension]
  exact (apply_ite (loadCommand m) _ _ _).symm

theorem commutes_takeSupplyFault (a : Aisle) : Commutes m (takeSupplyFault a) :=
  commutes_ite (fun s => param s 24 = 0) (fun _ => rfl)
    (fun s => commutes_halt a .supply false (noteFault a .supply (raiseTotal a .supply s)))
    (commutes_ite (fun s => (crane s a).state = .faulted) (fun _ => rfl) (fun _ => rfl)
      fun s => commutes_halt a .supply true (noteFault a .supply (raiseTotal a .supply s)))

theorem commutes_startHome (a : Aisle) (clear : Bool) : Commutes m (startHome a clear) := by
  intro s
  rw [startHome_eq, startHome_eq]
  change setCrane a { crane (issue a ⟨.home, 0, param s 4, .mouth, 0⟩ false (loadCommand m s)) a with
      state := .homing, homingClear := clear, parkOrder := false, leg := none, dropped := none, latched := none }
    (issue a ⟨.home, 0, param s 4, .mouth, 0⟩ false (loadCommand m s)) = _
  rw [commutes_issue]
  rfl

theorem commutes_homeOrder (a : Aisle) : Commutes m (homeOrder a) := by
  intro s
  unfold homeOrder
  have hcrane : crane (loadCommand m s) a = crane s a := rfl
  dsimp only
  rw [hcrane]
  split
  · split
    · exact commutes_startHome a false s
    · exact commutes_takeSupplyFault a s
  · exact commutes_startHome a false s
  · exact commutes_startHome a false s
  · exact commutes_startHome a false s
  all_goals rfl

theorem commutes_homeCranes (z : Station) : Commutes m (homeCranes z) :=
  commutes_foldl (fun a => commutes_ite (fun t => service t a = .inService ∧ t.mode = .service) (fun _ => rfl)
    (commutes_homeOrder a) commutes_id) (zoneAisles z)

theorem commutes_homeAll : Commutes m homeAll :=
  commutes_foldl (fun z => commutes_ite (fun t => zoneClosed t z = true) (fun _ => rfl) commutes_id
    (commutes_homeCranes z)) stationList

theorem commutes_parkCrane (a : Aisle) : Commutes m (parkCrane a) := by
  intro s
  have hpark (t : State) : issuePark a (loadCommand m t) = loadCommand m (issuePark a t) := commutes_issuePark a t
  have hcrane : crane (loadCommand m s) a = crane s a := rfl
  have hstop : (if (crane s a).segment.isSome then sendDrive a .stop (loadCommand m s) else loadCommand m s) =
      loadCommand m (if (crane s a).segment.isSome then sendDrive a .stop s else s) := by
    split <;> rfl
  have hset (c : CraneRec) (t : State) : setCrane a c (loadCommand m t) = loadCommand m (setCrane a c t) := rfl
  unfold parkCrane
  dsimp only
  rw [hcrane]
  cases (crane s a).state
  case moving | waking =>
    simp only
    split
    · rw [hset, commutes_dropClaims]
    · rw [hstop, hset, commutes_cutFork, hpark]
  case retryWait =>
    simp only
    rw [hset, commutes_cutFork, hpark]
  case homing =>
    simp only
    rw [hstop, hset, hpark]
  case ready | resting =>
    simp only
    rw [hset, hpark]
  all_goals
    simp only
    rfl

/-! ### Zones and stations -/

theorem commutes_parkCranes (z : Station) : Commutes m (parkCranes z) :=
  commutes_foldl (fun a => commutes_ite (fun t => aislePresent t a = true) (fun _ => rfl) (commutes_parkCrane a)
    commutes_id) (zoneAisles z)

theorem commutes_enterShutdown (z : Station) : Commutes m (enterShutdown z) := by
  intro s
  have hbefore : (let s1 := enterZoneState z .shutdown (setZone z (shutdownRec (loadCommand m s) z) (loadCommand m s))
      sendPanel z .locked (if stationPresent s z then modStation z (fun r => { r with closeOrder := true }) s1 else s1)) =
    loadCommand m (let s1 := enterZoneState z .shutdown (setZone z (shutdownRec s z) s)
      sendPanel z .locked (if stationPresent s z then modStation z (fun r => { r with closeOrder := true }) s1 else s1)) := by
    dsimp only
    split <;> rfl
  exact (congrArg (parkCranes z) hbefore).trans (commutes_parkCranes z _)

theorem commutes_fireTaken (z : Station) : Commutes m (fireTaken z) := by
  intro s
  unfold fireTaken
  have hzone : zone (loadCommand m s) z = zone s z := rfl
  rw [hzone]
  cases (zone s z).state
  case clear | alert | recovery => exact commutes_enterShutdown z s
  all_goals rfl

theorem commutes_clearTaken (z : Station) : Commutes m (clearTaken z) := by
  intro s
  unfold clearTaken
  have hzone : zone (loadCommand m s) z = zone s z := rfl
  have hfire : fireLevel (loadCommand m s) z = fireLevel s z := rfl
  rw [hzone, hfire]
  cases (zone s z).state
  case clear | alert | awaitRestore | recovery => rfl
  all_goals
    dsimp only
    split <;> rfl

theorem commutes_alertChanged (z : Station) : Commutes m (alertChanged z) := by
  intro s
  unfold alertChanged
  have hzone : zone (loadCommand m s) z = zone s z := rfl
  have halert : alertLevel (loadCommand m s) z = alertLevel s z := rfl
  rw [hzone, halert]
  cases (zone s z).state <;> cases alertLevel s z <;> rfl

theorem actOnLevels_load (before : State) (z : Station) (s : State) :
    actOnLevels (loadCommand m before) z (loadCommand m s) = loadCommand m (actOnLevels before z s) := by
  have hfire : (if fireLevel s z && !fireLevel before z then fireTaken z (loadCommand m s) else loadCommand m s) =
      loadCommand m (if fireLevel s z && !fireLevel before z then fireTaken z s else s) := by
    split
    · exact commutes_fireTaken z s
    · rfl
  have hclear (t : State) : (if clearLevel s z && !clearLevel before z then clearTaken z (loadCommand m t)
      else loadCommand m t) = loadCommand m (if clearLevel s z && !clearLevel before z then clearTaken z t else t) := by
    split
    · exact commutes_clearTaken z t
    · rfl
  have halert (t : State) : (if alertLevel s z != alertLevel before z then alertChanged z (loadCommand m t)
      else loadCommand m t) = loadCommand m (if alertLevel s z != alertLevel before z then alertChanged z t else t) := by
    split
    · exact commutes_alertChanged z t
    · rfl
  unfold actOnLevels
  dsimp only
  rw [← halert, ← hclear, ← hfire]
  rfl

theorem commutes_drillZone (z : Station) (c : DrillCode) : Commutes m (drillZone z c) := fun s =>
  actOnLevels_load s z (setZone z (inject c (zone s z)) s)

theorem commutes_liftParkOrders (z : Station) : Commutes m (liftParkOrders z) :=
  commutes_foldl (fun a => commutes_ite (fun t => (crane t a).state = .parked ∨ (crane t a).state = .offline) (fun _ => rfl)
    (f := fun t => setCrane a { crane t a with parkOrder := false } t) (fun _ => rfl) commutes_id) (zoneAisles z)

theorem commutes_reportReopen (z : Station) (rep : ReopenReport) : Commutes m (reportReopen z rep) :=
  commutes_ite (fun s => (zone s z).state = .recovery) (fun _ => rfl) (fun _ => rfl) commutes_id

theorem commutes_reopenOrder (z : Station) : Commutes m (reopenOrder z) := by
  intro s
  unfold reopenOrder
  have hstation : station (loadCommand m s) z = station s z := rfl
  dsimp only
  rw [hstation]
  have hreport (rep : ReopenReport) (t : State) : reportReopen z rep (loadCommand m t) =
      loadCommand m (reportReopen z rep t) := commutes_reportReopen z rep t
  have hmod (h : StationRec → StationRec) (t : State) : modStation z h (loadCommand m t) = loadCommand m (modStation z h t) :=
    rfl
  cases (station s z).shutter
  case opening => rfl
  case closing | closed =>
    dsimp only
    split
    · rw [hmod, hreport]
    · rfl
  · dsimp only
    rw [hmod, hreport]

theorem commutes_orderRecovery (z : Station) : Commutes m (orderRecovery z) := by
  intro s
  have hstation : (if stationPresent s z then resendTasks z (reopenOrder z (loadCommand m s)) else loadCommand m s) =
      loadCommand m (if stationPresent s z then resendTasks z (reopenOrder z s) else s) := by
    split
    · rw [commutes_reopenOrder, commutes_resendTasks]
    · rfl
  unfold orderRecovery
  have hpresent : stationPresent (loadCommand m s) z = stationPresent s z := rfl
  dsimp only
  rw [hpresent, hstation, commutes_liftParkOrders, commutes_homeCranes]

theorem commutes_enterRecovery (z : Station) : Commutes m (enterRecovery z) := fun s =>
  commutes_orderRecovery z (enterZoneState z .recovery (setZone z { zone s z with
    panelClearSeen := false, reopenReport := .none, recovered0 := false, recovered1 := false } s))

end

end Sys2Proof.Machine

/-! Set Day, Finish Commissioning and Enter Commissioning (R53, R177, R178). -/

namespace Sys2Proof.Machine

/-! ### Commands that every zone acts on -/

section
variable {s u : State} {code : OutcomeCode}

/-- A command whose effect is an event of every zone is answered with what the event makes possible without its message. -/
theorem takeCommand_settlesAll {c : Byte} {len : Nat} {m : Modes} {run : List Byte → State → Result} {p data : List Byte}
    (hs : linkIdle s) (hp : p.length = len) (hl : len ≤ 30) (hm : ∀ r, modeCheck m s r = r)
    (h : ∀ x, run p (loadCommand x s) = .reply code data (settleAll (loadCommand x s) (loadCommand x u))) :
    takeCommand c len m run (commandBody p) s = writeReply code data (settleAll s u) := by
  rw [takeCommand_replies hs hp hl hm (h _), settleAll_load, writeReply_loadCommand]

theorem refuseIf_refuses {x : Bool} {rest : Result} (h : x = true) : refuseIf x code rest = .refuse code [] := by
  rw [refuseIf, h, if_pos rfl]

theorem withSome_refuses {α : Type} {o : Option α} {f : α → Result} (h : o = none) :
    withSome o code f = .refuse code [] := by
  rw [h, withSome]

theorem modeCheck_commissioning (h : s.mode = .commissioning) (r : Result) : modeCheck .commissioning s r = r := by
  simp [modeCheck, h]

end

/-! ### Orders leave the mode -/

section
variable {x : Mode} {t : State}

/-- The mode is none of what the machinery changes. -/
theorem closed_mode (x : Mode) : Closed false (fun _ => True) (fun t => t.mode = x) where
  crane _ _ _ _ h := h
  aisle _ _ _ _ h := h
  fork _ _ _ _ h := h
  station _ _ _ _ h := h
  zone _ _ _ _ h := h
  crossing _ _ _ _ h := h
  attention _ _ h := h
  drive _ _ _ h := h
  panel _ _ _ h := h
  place b f t _ h := by rw [modBin_eq]; exact h
  visit _ _ _ _ _ _ h := h
  visits _ _ _ h := h
  anyBin _ b f t h := by rw [modBin_eq]; exact h
  slot _ _ _ _ h := h
  anyVisit _ _ _ _ _ h := h

end

/-! ### Every crane OFFLINE (R178) -/

section
variable {s : State}

theorem crane_offlineAll (l : List Aisle) (s : State) (a : Aisle) :
    crane (l.foldl (fun t b => takeOffline b t) s) a = if a ∈ l then (crane s a).offlined else crane s a := by
  induction l generalizing s with
  | nil => rfl
  | cons b l ih =>
    rw [List.foldl_cons, ih]
    by_cases hab : a = b
    · subst hab
      rw [if_pos List.mem_cons_self, crane_takeOffline]
      split <;> rfl
    · rw [crane_takeOffline_ne hab]
      simp only [List.mem_cons, hab, false_or]

theorem mem_aisleList (a : Aisle) : a ∈ aisleList := by revert a; decide

theorem mem_stationList (z : Station) : z ∈ stationList := by revert z; decide

end

/-! ### Every drill ended (R151, R178) -/

section
variable {s t : State} {z y : Station}

/-- A zone record without injections. -/
def ZoneRec.quiet (r : ZoneRec) : ZoneRec :=
  { r with injectAlert := false, injectFire := false, injectClear := false, drill := false }

/-- No drill of the zone goes on. -/
def NoDrill (r : ZoneRec) : Prop :=
  r.drill = false ∧ r.injectAlert = false ∧ r.injectFire = false ∧ r.injectClear = false

/-- The end of a drill takes no level, so FIRE and panel clear are not taken, and ALERT may pass to CLEAR (R142). -/
theorem drillZone_end (z : Station) (s : State) : drillZone z .end_ s = setZone z (zone s z).quiet s ∨
    ∃ st, drillZone z .end_ s = enterZoneState z st (setZone z (zone s z).quiet s) := by
  let u := setZone z (zone s z).quiet s
  have hzone : zone u z = (zone s z).quiet := zone_setZone ..
  have hfire : (fireLevel u z && !fireLevel s z) = false := by
    have htaken (i : FireInput) : takenLevel u i = takenLevel s i := rfl
    simp only [fireLevel, hzone, htaken, ZoneRec.quiet]
    cases takenLevel s (fireInput z) <;> cases takenLevel s fireAllInput <;> simp
  have hclear : (clearLevel u z && !clearLevel s z) = false := by
    have htaken (i : FireInput) : takenLevel u i = takenLevel s i := rfl
    simp only [clearLevel, hzone, htaken, ZoneRec.quiet]
    cases takenLevel s panelClearInput <;> simp
  have hact : drillZone z .end_ s = if alertLevel u z != alertLevel s z then alertChanged z u else u := by
    change actOnLevels s z u = _
    simp only [actOnLevels, hfire, hclear, Bool.false_eq_true, if_false]
  rw [hact]
  split
  · unfold alertChanged
    split
    · exact .inr ⟨_, rfl⟩
    · exact .inr ⟨_, rfl⟩
    · exact .inl rfl
  · exact .inl rfl

theorem cranes_drillZone_end (z : Station) (s : State) : (drillZone z .end_ s).cranes = s.cranes := by
  obtain h | ⟨st, h⟩ := drillZone_end z s <;> rw [h] <;> rfl

theorem mode_drillZone_end (z : Station) (s : State) : (drillZone z .end_ s).mode = s.mode := by
  obtain h | ⟨st, h⟩ := drillZone_end z s <;> rw [h] <;> rfl

theorem noDrill_drillZone_end (z : Station) (s : State) : NoDrill (zone (drillZone z .end_ s) z) := by
  obtain h | ⟨st, h⟩ := drillZone_end z s
  · rw [h, zone_setZone]
    exact ⟨rfl, rfl, rfl, rfl⟩
  · rw [h, zone_enterZoneState, zone_setZone]
    exact ⟨rfl, rfl, rfl, rfl⟩

theorem zone_drillZone_end_ne (h : y ≠ z) : zone (drillZone z .end_ s) y = zone s y := by
  obtain hd | ⟨st, hd⟩ := drillZone_end z s
  · rw [hd, zone_setZone_ne h]
  · rw [hd]
    exact (zone_setZone_ne h _ _).trans (zone_setZone_ne h _ s)

/-- The drills of a list of zones end. -/
def endDrills (l : List Station) (s : State) : State := l.foldl (fun t z => drillZone z .end_ t) s

theorem cranes_endDrills (l : List Station) (s : State) : (endDrills l s).cranes = s.cranes := by
  induction l generalizing s with
  | nil => rfl
  | cons z l ih => exact (ih (drillZone z .end_ s)).trans (cranes_drillZone_end z s)

theorem mode_endDrills (l : List Station) (s : State) : (endDrills l s).mode = s.mode := by
  induction l generalizing s with
  | nil => rfl
  | cons z l ih => exact (ih (drillZone z .end_ s)).trans (mode_drillZone_end z s)

theorem noDrill_endDrills (l : List Station) (s : State) (h : y ∈ l ∨ NoDrill (zone s y)) :
    NoDrill (zone (endDrills l s) y) := by
  induction l generalizing s with
  | nil => exact h.resolve_left List.not_mem_nil
  | cons z l ih =>
    refine ih (drillZone z .end_ s) ?_
    by_cases hy : y = z
    · subst hy
      exact .inr (noDrill_drillZone_end y s)
    · rw [zone_drillZone_end_ne hy]
      exact h.imp_left fun hmem => (List.mem_cons.mp hmem).resolve_left hy

/-- The state with every crane OFFLINE, in COMMISSIONING. -/
def offlineAll (s : State) : State := aisleList.foldl (fun t a => takeOffline a t) { s with mode := .commissioning }

theorem enterCommissioningMode_eq (s : State) : enterCommissioningMode s = endDrills stationList (offlineAll s) := rfl

theorem mode_takeOffline (a : Aisle) (s : State) : (takeOffline a s).mode = s.mode :=
  (congrArg State.mode (takeOffline_keeps a s) :)

theorem mode_offlineAll (s : State) : (offlineAll s).mode = .commissioning :=
  keep_foldl (P := fun t => t.mode = .commissioning) (fun t a h => (mode_takeOffline a t).trans h) aisleList rfl

theorem crane_enterCommissioningMode (s : State) (a : Aisle) :
    crane (enterCommissioningMode s) a = (crane s a).offlined := by
  rw [enterCommissioningMode_eq, crane_congr (cranes_endDrills ..), offlineAll, crane_offlineAll, if_pos (mem_aisleList a)]
  rfl

theorem commutes_enterCommissioningMode {m : List Byte} : Commutes m enterCommissioningMode := by
  intro s
  rw [enterCommissioningMode_eq, enterCommissioningMode_eq]
  have hoffline : offlineAll (loadCommand m s) = loadCommand m (offlineAll s) :=
    commutes_foldl (fun a => commutes_takeOffline a) aisleList { s with mode := .commissioning }
  rw [hoffline]
  exact commutes_foldl (fun z => commutes_drillZone z .end_) stationList (offlineAll s)

end

/-! ### The commands -/

section
variable {p : List Byte} {s : State}

theorem runSetDay_backward (h : wordAt p 0 < s.day) : runSetDay p s = .refuse .dayBackward [] :=
  refuseIf_refuses (decide_eq_true h)

theorem runSetDay_forward (h : s.day ≤ wordAt p 0) : runSetDay p s =
    .reply .done [BitVec.ofNat 8 (wordAt p 0 / 256), BitVec.ofNat 8 (wordAt p 0)] { s with day := wordAt p 0 } :=
  refuseIf_passes (decide_eq_false (Nat.not_lt.mpr h))

theorem runFinish_refuses
    (h : (∀ a, aislePresent s a = false) ∨ ∃ e ∈ s.bins, aislePresent s e.2.home.aisle = false) :
    runFinish p s = .refuse .state [] := by
  have hbins (e) (he : e ∈ s.bins) (ha : aislePresent s e.2.home.aisle = false) :
      (s.bins.any fun e => !aislePresent s e.2.home.aisle) = true :=
    List.any_eq_true.mpr ⟨e, he, by rw [ha]; rfl⟩
  unfold runFinish
  cases hany : aisleList.any (aislePresent s) with
  | false => exact refuseIf_refuses rfl
  | true =>
    obtain ⟨a, -, ha⟩ := List.any_eq_true.mp hany
    obtain hnone | ⟨e, he, hno⟩ := h
    · rw [hnone a] at ha
      cases ha
    · exact (refuseIf_passes rfl).trans (refuseIf_refuses (hbins e he hno))

theorem runFinish_replies (ha : ∃ a, aislePresent s a = true) (hb : ∀ e ∈ s.bins, aislePresent s e.2.home.aisle = true) :
    runFinish p s = .reply .done [] (settleAll s (homeAll { s with mode := .service })) := by
  obtain ⟨a, ha⟩ := ha
  have hany : (!aisleList.any (aislePresent s)) = false := by
    rw [List.any_eq_true.mpr ⟨a, mem_aisleList a, ha⟩]
    rfl
  have hbins : (s.bins.any fun e => !aislePresent s e.2.home.aisle) = false := by
    rw [List.any_eq_false]
    intro e he
    rw [hb e he]
    exact Bool.false_ne_true
  exact (refuseIf_passes hany).trans (refuseIf_passes hbins)

theorem runEnter_refuses (h : (∃ e ∈ s.visits, e.2.outcome = none) ∨ ∃ a, (crane s a).carried ≠ none) :
    runEnter p s = .refuse .state [] := by
  refine refuseIf_refuses (Bool.or_eq_true_iff.mpr ?_)
  refine h.imp (fun ⟨e, he, ho⟩ => ?_) fun ⟨a, hc⟩ => ?_
  · exact List.any_eq_true.mpr ⟨e, he, (isOpen_iff _).mpr ho⟩
  · exact List.any_eq_true.mpr ⟨a, mem_aisleList a, Option.isSome_iff_ne_none.mpr hc⟩

theorem runEnter_replies (hv : ∀ e ∈ s.visits, e.2.outcome ≠ none) (hc : ∀ a, (crane s a).carried = none) :
    runEnter p s = .reply .done [] (settleAll s (enterCommissioningMode s)) := by
  refine refuseIf_passes (Bool.or_eq_false_iff.mpr ⟨?_, ?_⟩)
  · exact List.any_eq_false.mpr fun e he => mt (isOpen_iff _).mp (hv e he)
  · exact List.any_eq_false.mpr fun a _ => by rw [hc a]; exact Bool.false_ne_true

end

/-- Settles O37. -/
theorem setUpCommandsAct : Obligations.SetUpCommandsAct := by
  intro p s hs
  refine ⟨fun hp => ⟨fun h => ?_, fun h => ?_⟩, rfl, fun hm => ⟨fun h => ?_, fun ha hb => ?_⟩,
    fun hm => ⟨fun h => ?_, fun hv hc => ?_⟩⟩
  · exact congrArg _ (takeCommand_refuses hs hp (by decide) modeCheck_both (runSetDay_backward h))
  · exact congrArg _ (takeCommand_replies hs hp (by decide) modeCheck_both (runSetDay_forward h))
  · exact congrArg _ (takeCommand_refuses hs (p := []) rfl (by decide) (modeCheck_commissioning hm) (runFinish_refuses h))
  · refine ⟨_, settles_settleAll _ _, ?_, ?_⟩
    · have hK := closed_mode .service
      exact closed_settleAll hK s (closed_homeAll hK rfl)
    · refine congrArg _ (takeCommand_settlesAll hs (p := []) rfl (by decide) (modeCheck_commissioning hm) fun x => ?_)
      rw [runFinish_replies (s := loadCommand x s) ha hb]
      exact congrArg (fun t => Result.reply .done [] (settleAll (loadCommand x s) t))
        (commutes_homeAll { s with mode := .service })
  · exact congrArg _ (takeCommand_refuses hs (p := []) rfl (by decide) (modeCheck_service hm) (runEnter_refuses h))
  · refine ⟨_, _, rfl, ?_, fun z => ?_, fun a => ?_, rfl, settles_settleAll _ _, ?_⟩
    · rw [enterCommissioningMode_eq, mode_endDrills, mode_offlineAll]
    · exact noDrill_endDrills stationList (offlineAll s) (.inl (mem_stationList z))
    · rw [crane_enterCommissioningMode, crane_takeOffline]
      exact ⟨rfl, rfl⟩
    · refine congrArg _ (takeCommand_settlesAll hs (p := []) rfl (by decide) (modeCheck_service hm) fun x => ?_)
      rw [runEnter_replies (s := loadCommand x s) hv hc]
      exact congrArg (fun t => Result.reply .done [] (settleAll (loadCommand x s) t)) (commutes_enterCommissioningMode s)

end Sys2Proof.Machine

/-! Suspend Aisle, Resume Aisle, Clear Crane, and a HOME order (R93, R94, R109, R112, R113, R116). -/

namespace Sys2Proof.Machine

/-! ### Replies that show the state after the event -/

section
variable {s u t : State} {z : Station} {a : Aisle}

/-- A command that replies what its event leaves is answered so without its message. -/
theorem takeCommand_settles_showing {c : Byte} {len : Nat} {m : Modes} {run : List Byte → State → Result} {p : List Byte}
    {code : OutcomeCode} {data : State → List Byte} (hs : linkIdle s) (hp : p.length = len) (hl : len ≤ 30)
    (hm : ∀ r, modeCheck m s r = r) (hd : ∀ x v, data (loadCommand x v) = data v)
    (h : ∀ x, run p (loadCommand x s) = .reply code (data (settleZone (loadCommand x s) z (loadCommand x u)))
      (settleZone (loadCommand x s) z (loadCommand x u))) :
    takeCommand c len m run (commandBody p) s = writeReply code (data (settleZone s z u)) (settleZone s z u) :=
  takeCommand_settles hs hp hl hm fun x => by rw [h x, settleZone_load, hd]

theorem params_of_settles (h : Settles s z u t) : t.params = u.params :=
  (congrArg Ledger.params h.2.ledger :)

theorem aislePresent_of_params (h : t.params = u.params) (a : Aisle) : aislePresent t a = aislePresent u a := by
  rw [aislePresent, h, aislePresent]

/-- The service state of a present aisle by its suspension mark (R79). -/
def Suspension.service : Suspension → ServiceState
  | .inService => .inService
  | .suspending => .suspending
  | .suspended => .suspended

theorem service_present {k : Suspension} (ha : aislePresent s a = true) (h : (aisleRec s a).suspension = k) :
    service s a = k.service := by
  rw [Machine.service, if_pos ha, h]
  cases k <;> rfl

/-- What an event sets off changes no service state. -/
theorem service_of_settles (h : Settles s z u t) (a : Aisle) : service t a = service u a := by
  rw [service, service, aislePresent_of_params (params_of_settles h), h.2.service a]

/-- A crane that is not free goes on as it was. -/
theorem kept_of_settles (h : Settles s z u t) (hf : isFree u a = false) : (crane t a).kept = (crane u a).kept :=
  h.2.busy a hf

theorem state_of_kept {c d : CraneRec} (h : c.kept = d.kept) : c.state = d.state := (congrArg CraneRec.state h :)

theorem closed_params (x : Vector ParamWord 41) : Closed false (fun _ => True) (fun t => t.params = x) where
  crane _ _ _ _ h := h
  aisle _ _ _ _ h := h
  fork _ _ _ _ h := h
  station _ _ _ _ h := h
  zone _ _ _ _ h := h
  crossing _ _ _ _ h := h
  attention _ _ h := h
  drive _ _ _ h := h
  panel _ _ _ h := h
  place b f t _ h := by rw [modBin_eq]; exact h
  visit _ _ _ _ _ _ h := h
  visits _ _ _ h := h
  anyBin _ b f t h := by rw [modBin_eq]; exact h
  slot _ _ _ _ h := h
  anyVisit _ _ _ _ _ h := h

end

/-! ### HOME orders (R109, R112) -/

section
variable {a : Aisle} {s : State}

theorem homeOrder_starts (h : (crane s a).state = .parked ∨ (crane s a).state = .ready ∨ (crane s a).state = .resting) :
    homeOrder a s = startHome a false s := by
  obtain h | h | h := h <;> simp only [homeOrder, h]

theorem homeOrder_offline (h : (crane s a).state = .offline) : homeOrder a s =
    if (crane s a).supply = .ok then startHome a false s else takeSupplyFault a s := by
  simp only [homeOrder, h]

theorem homeOrder_none (h : (crane s a).state = .faulted ∨ (crane s a).state = .homing ∨ (crane s a).state = .waking ∨
    (crane s a).state = .moving ∨ (crane s a).state = .retryWait ∨ (crane s a).state = .parking) : homeOrder a s = s := by
  obtain h | h | h | h | h | h := h <;> simp only [homeOrder, h]

theorem suspension_startHome (a : Aisle) (clear : Bool) (s : State) (b : Aisle) :
    aisleRec (startHome a clear s) b = aisleRec s b := by
  have h : (startHome a clear s).aisles = s.aisles := issue_aisles ..
  rw [aisleRec, h, aisleRec]

theorem suspension_takeSupplyFault (h : (aisleRec s a).suspension ≠ .suspending) :
    (aisleRec (takeSupplyFault a s) a).suspension = (aisleRec s a).suspension := by
  have hnoted : (aisleRec (noted a .supply s) a).suspension ≠ .suspending := h
  by_cases h24 : param s 24 = 0
  · rw [takeSupplyFault_latch h24, aisleRec_halt hnoted]
    rfl
  · by_cases hf : (crane s a).state = .faulted
    · rw [takeSupplyFault_faulted h24 hf]
      rfl
    · rw [takeSupplyFault_follow h24 hf, aisleRec_halt hnoted]
      rfl

theorem suspension_homeOrder (h : (aisleRec s a).suspension ≠ .suspending) :
    (aisleRec (homeOrder a s) a).suspension = (aisleRec s a).suspension := by
  unfold homeOrder
  dsimp only
  split
  · split
    · rw [suspension_startHome]
    · exact suspension_takeSupplyFault h
  · rw [suspension_startHome]
  · rw [suspension_startHome]
  · rw [suspension_startHome]
  all_goals rfl

end

/-! ### The commands -/

section
variable {p : List Byte} {s : State} {a : Aisle}

theorem aisle_commands {run : List Byte → State → Result} (h : run = runSuspendAisle ∨ run = runResumeAisle ∨ run = runClearCrane) :
    (aisleOf (byteAt p 0) = none → run p s = .refuse .badValue []) ∧
    ∀ a, aisleOf (byteAt p 0) = some a → aislePresent s a = false → run p s = .refuse .aisleOut [] := by
  obtain rfl | rfl | rfl := h <;> exact ⟨withAisle_none, fun _ ha hp => withAisle_absent ha hp⟩

variable (ha : aisleOf (byteAt p 0) = some a) (hp : aislePresent s a = true)
include ha hp

theorem runSuspendAisle_already (h : (aisleRec s a).suspension ≠ .inService) :
    runSuspendAisle p s = .reply .done [BitVec.ofNat 8 (service s a).code] s := by
  have hsusp : aisleSuspended s a = true := by
    cases hk : (aisleRec s a).suspension with
    | inService => exact absurd hk h
    | suspending => rw [aisleSuspended, service_present hp hk]; rfl
    | suspended => rw [aisleSuspended, service_present hp hk]; rfl
  refine (withAisle_present ha hp).trans ?_
  simp only [hsusp, if_true]
  rfl

theorem runSuspendAisle_inService (h : (aisleRec s a).suspension = .inService) : runSuspendAisle p s =
    .reply .done [BitVec.ofNat 8 (service (settleZone s (zoneOf a) (suspend a s)) a).code]
      (settleZone s (zoneOf a) (suspend a s)) := by
  have hsusp : aisleSuspended s a = false := by
    rw [aisleSuspended, service_present hp h]
    rfl
  refine (withAisle_present ha hp).trans ?_
  simp only [hsusp, Bool.false_eq_true, if_false]
  rfl

theorem runResumeAisle_inService (h : (aisleRec s a).suspension = .inService) :
    runResumeAisle p s = .refuse .state [] := by
  refine (withAisle_present ha hp).trans (refuseIf_refuses ?_)
  rw [service_present hp h]
  rfl

theorem runResumeAisle_suspended (h : (aisleRec s a).suspension ≠ .inService) : runResumeAisle p s =
    .reply .done [BitVec.ofNat 8 (service (settleZone s (zoneOf a) (resume a s)) a).code]
      (settleZone s (zoneOf a) (resume a s)) := by
  refine (withAisle_present ha hp).trans (refuseIf_passes ?_)
  cases hk : (aisleRec s a).suspension with
  | inService => exact absurd hk h
  | suspending => rw [service_present hp hk]; rfl
  | suspended => rw [service_present hp hk]; rfl

theorem runClearCrane_refuses (h : (crane s a).state ≠ .faulted ∨ (crane s a).supplyFault = true) :
    runClearCrane p s = .refuse .state [] := by
  refine (withAisle_present ha hp).trans (refuseIf_refuses ?_)
  rwa [Bool.or_eq_true, bne_iff_ne]

theorem runClearCrane_replies (h : (crane s a).state = .faulted) (hf : (crane s a).supplyFault = false) :
    runClearCrane p s = .reply .done [BitVec.ofNat 8 (crane (settleZone s (zoneOf a) (clearCrane a s)) a).state.code]
      (settleZone s (zoneOf a) (clearCrane a s)) := by
  refine (withAisle_present ha hp).trans (refuseIf_passes ?_)
  rw [h, hf]
  rfl

end

section
variable {m : List Byte} {a : Aisle}

theorem commutes_suspend (a : Aisle) : Commutes m (suspend a) :=
  commutes_ite (fun s => suspendsAtOnce (crane s a) = true) (fun _ => rfl) (commutes_takeSuspension a)
    (g := fun s => setAisle a { aisleRec s a with suspension := .suspending } s) (fun _ => rfl)

theorem commutes_resume (a : Aisle) : Commutes m (resume a) :=
  commutes_ite (fun s => (aisleRec s a).suspension = .suspended ∧ zoneClosed s (zoneOf a) = false) (fun _ => rfl)
    (f := fun s => homeOrder a (setAisle a { aisleRec s a with suspension := .inService } s))
    (fun s => commutes_homeOrder a (setAisle a { aisleRec s a with suspension := .inService } s))
    (g := fun s => setAisle a { aisleRec s a with suspension := .inService } s) (fun _ => rfl)

theorem commutes_clearCrane (a : Aisle) : Commutes m (clearCrane a) :=
  commutes_ite (fun s => zoneClosed s (zoneOf a) = true) (fun _ => rfl) (commutes_takeOffline a) (commutes_startHome a true)

end

theorem suspendsAtOnce_iff (c : CraneRec) : suspendsAtOnce c = true ↔
    c.state = .ready ∨ c.state = .resting ∨ c.state = .homing ∨ c.state = .faulted ∨ c.state = .parked ∨
    c.state = .offline ∨ (c.state = .parking ∧ forkInFlight c = false) := by
  unfold suspendsAtOnce
  cases c.state <;> simp

section
variable {s : State} {a : Aisle}

theorem suspension_resume (a : Aisle) (s : State) : (aisleRec (resume a s) a).suspension = .inService := by
  have hrec : aisleRec (setAisle a { aisleRec s a with suspension := .inService } s) a =
      { aisleRec s a with suspension := .inService } := aisleRec_setAisle ..
  unfold resume
  dsimp only
  split
  · rw [suspension_homeOrder (by rw [hrec]; exact Suspension.noConfusion), hrec]
  · rw [hrec]

theorem params_resume (a : Aisle) (s : State) : (resume a s).params = s.params := by
  unfold resume
  dsimp only
  split
  · exact keep_homeOrder (closed_params s.params) trivial rfl
  · rfl

theorem params_takeSuspension (a : Aisle) (s : State) : (takeSuspension a s).params = s.params :=
  keep_takeSuspension (closed_params s.params) trivial rfl

end

section
variable {p : List Byte} {s : State} {a : Aisle} (hs : linkIdle s) (hm : s.mode = .service) (hp : p.length = 1)
  (ha : aisleOf (byteAt p 0) = some a) (hpres : aislePresent s a = true)
include hs hm hp ha hpres

/-- Suspend Aisle of an aisle in service, with the service state that it replies. -/
theorem suspendAisle_settles {u : State} {k : ServiceState} (h : (aisleRec s a).suspension = .inService)
    (hu : suspend a s = u) (hk : service u a = k) : ∃ t, Settles s (zoneOf a) u t ∧
      exec (.suspendAisle (commandBody p)) s = .next (writeReply .done [BitVec.ofNat 8 k.code] t) := by
  have hsettles := settles_settleZone s (zoneOf a) u
  refine ⟨_, hsettles, ?_⟩
  have hcommand := takeCommand_settles_showing (c := 0x50) (z := zoneOf a) (u := u)
    (data := fun t => [BitVec.ofNat 8 (service t a).code]) hs hp (by decide) (modeCheck_service hm) (fun _ _ => rfl)
    (fun x => (runSuspendAisle_inService (s := loadCommand x s) ha hpres h).trans
      (by rw [show suspend a (loadCommand x s) = loadCommand x u from hu ▸ commutes_suspend a s]))
  rw [← hk, ← service_of_settles hsettles a]
  exact congrArg _ hcommand

theorem resumeAisle_settles (h : (aisleRec s a).suspension ≠ .inService) : ∃ t, Settles s (zoneOf a) (resume a s) t ∧
    exec (.resumeAisle (commandBody p)) s = .next (writeReply .done [1] t) := by
  have hsettles := settles_settleZone s (zoneOf a) (resume a s)
  refine ⟨_, hsettles, ?_⟩
  have hservice : service (settleZone s (zoneOf a) (resume a s)) a = .inService := by
    rw [service_of_settles hsettles a]
    exact service_present (by rw [aislePresent_of_params (params_resume a s)]; exact hpres) (suspension_resume a s)
  have hcommand := takeCommand_settles_showing (c := 0x51) (z := zoneOf a) (u := resume a s)
    (data := fun t => [BitVec.ofNat 8 (service t a).code]) hs hp (by decide) (modeCheck_service hm) (fun _ _ => rfl)
    (fun x => (runResumeAisle_suspended (s := loadCommand x s) ha hpres h).trans (by rw [commutes_resume]))
  rw [hservice] at hcommand
  exact congrArg _ hcommand

/-- Clear Crane, with the crane that its event leaves. -/
theorem clearCrane_settles {u : State} {x : CraneState} (h : (crane s a).state = .faulted)
    (hf : (crane s a).supplyFault = false) (hu : clearCrane a s = u) (hfree : isFree u a = false)
    (hx : (crane u a).state = x) : ∃ t, Settles s (zoneOf a) u t ∧ (crane t a).kept = (crane u a).kept ∧
      exec (.clearCrane (commandBody p)) s = .next (writeReply .done [BitVec.ofNat 8 x.code] t) := by
  have hsettles := settles_settleZone s (zoneOf a) u
  have hkept := kept_of_settles hsettles hfree
  have hstate : (crane (settleZone s (zoneOf a) u) a).state = x :=
    (state_of_kept hkept).trans hx
  have hrun (y : List Byte) : runClearCrane p (loadCommand y s) =
      .reply .done [BitVec.ofNat 8 (crane (settleZone (loadCommand y s) (zoneOf a) (loadCommand y u)) a).state.code]
        (settleZone (loadCommand y s) (zoneOf a) (loadCommand y u)) := by
    rw [runClearCrane_replies (s := loadCommand y s) ha hpres h hf, commutes_clearCrane a s, hu]
  have hcommand := takeCommand_settles_showing (c := 0x52) (data := fun t => [BitVec.ofNat 8 (crane t a).state.code])
    hs hp (by decide) (modeCheck_service hm) (fun _ _ => rfl) hrun
  exact ⟨_, hsettles, hkept, congrArg Host.Outcome.next (hstate ▸ hcommand)⟩

end

/-- Settles O33. -/
theorem aislesSuspendAndCranesAreReleased : Obligations.AislesSuspendAndCranesAreReleased := by
  refine ⟨?refusals, ?suspend, ?resume, ?effects, ?home, fun a s => ⟨rfl, rfl⟩, ?orders⟩
  case refusals =>
    intro c p s hs hm hp hc
    have hgo {code : Byte} {run : List Byte → State → Result} {o : OutcomeCode}
        (hrun : ∀ x, run p (loadCommand x s) = .refuse o []) :
        (Host.Outcome.next (takeCommand code 1 .service run (commandBody p) s) : Taken) = .next (writeReply o [] s) :=
      congrArg _ (takeCommand_refuses hs hp (by decide) (modeCheck_service hm) (hrun _))
    obtain rfl | rfl | rfl := hc
    · exact ⟨fun h => hgo fun x => (aisle_commands (.inl rfl)).1 h,
        fun a ha hn => hgo fun x => (aisle_commands (s := loadCommand x s) (.inl rfl)).2 a ha hn⟩
    · exact ⟨fun h => hgo fun x => (aisle_commands (.inr (.inl rfl))).1 h,
        fun a ha hn => hgo fun x => (aisle_commands (s := loadCommand x s) (.inr (.inl rfl))).2 a ha hn⟩
    · exact ⟨fun h => hgo fun x => (aisle_commands (.inr (.inr rfl))).1 h,
        fun a ha hn => hgo fun x => (aisle_commands (s := loadCommand x s) (.inr (.inr rfl))).2 a ha hn⟩
  case suspend =>
    intro p s a hs hm hp ha hpres
    have halready {k : Suspension} (hk : (aisleRec s a).suspension = k) (hne : k ≠ .inService) :
        exec (.suspendAisle (commandBody p)) s = .next (writeReply .done [BitVec.ofNat 8 (service s a).code] s) :=
      congrArg _ (takeCommand_replies hs hp (by decide) (modeCheck_service hm)
        (runSuspendAisle_already (s := loadCommand _ s) ha hpres (hk ▸ hne)))
    refine ⟨fun h => ?_, fun h => ?_, fun h hc => ?_, fun h hc => ?_, suspendsAtOnce_iff _⟩
    · rw [halready h Suspension.noConfusion, service_present hpres h]
      rfl
    · rw [halready h Suspension.noConfusion, service_present hpres h]
      rfl
    · have hservice : service (takeSuspension a s) a = .suspended :=
        service_present (by rw [aislePresent_of_params (params_takeSuspension a s)]; exact hpres)
          (by rw [aisleRec_takeSuspension])
      obtain ⟨t, ht, hexec⟩ := suspendAisle_settles hs hm hp ha hpres h (if_pos hc) hservice
      refine ⟨takeSuspension a s, t, ?_, ?_, ?_, ?_, ?_, fun n v => takeSuspension_holds, rfl, ht, hexec⟩
      · rw [aisleRec_takeSuspension]
      all_goals rw [crane_takeSuspension]; rfl
    · refine suspendAisle_settles hs hm hp ha hpres h (k := .suspending) (if_neg (ne_true_of_eq_false hc)) ?_
      exact service_present (s := setAisle a { aisleRec s a with suspension := .suspending } s) hpres
        (by rw [aisleRec_setAisle])
  case resume =>
    intro p s a hs hm hp ha hpres
    refine ⟨fun h => ?_, ?_, fun h => ?_, fun h hf hz => ?_, fun h hf hz => ?_⟩
    · exact congrArg _ (takeCommand_refuses hs hp (by decide) (modeCheck_service hm)
        (runResumeAisle_inService (s := loadCommand _ s) ha hpres h))
    · rintro u h rfl
      exact resumeAisle_settles hs hm hp ha hpres h
    · exact congrArg _ (takeCommand_refuses hs hp (by decide) (modeCheck_service hm)
        (runClearCrane_refuses (s := loadCommand _ s) ha hpres h))
    · have hcrane := crane_startHome a true s
      obtain ⟨t, ht, hkept, hexec⟩ := clearCrane_settles hs hm hp ha hpres h hf (u := startHome a true s)
        (x := .homing) (if_neg (ne_true_of_eq_false hz)) (by simp only [isFree, hcrane]; rfl) (by rw [hcrane])
      refine ⟨t, ht, (congrArg CraneRec.state hkept :).trans ?_, (congrArg CraneRec.latched hkept :).trans ?_,
        (congrArg CraneRec.homingClear hkept :).trans ?_, hexec⟩
      all_goals rw [hcrane]; rfl
    · have hcrane := crane_takeOffline a s
      obtain ⟨t, ht, hkept, hexec⟩ := clearCrane_settles hs hm hp ha hpres h hf (u := takeOffline a s)
        (x := .offline) (if_pos hz) (by simp only [isFree, hcrane]; rfl) (by rw [hcrane]; rfl)
      refine ⟨t, ht, (congrArg CraneRec.state hkept :).trans ?_, (congrArg CraneRec.latched hkept :).trans ?_, hexec⟩
      all_goals rw [hcrane]; rfl
  case effects =>
    rintro a s t u c rfl
    refine ⟨?_, ?_⟩
    · rintro rfl
      exact ⟨crane_takeOffline a s, fun b => crane_takeOffline_ne, sent_takeOffline a s, aisleRec_takeOffline a s,
        waiting_takeOffline a s, reservations_takeOffline a s, takeOffline_keeps a s⟩
    · rintro rfl rfl
      exact ⟨takeSuspension_keeps a s, visit_takeSuspension a s⟩
  case home =>
    rintro a clear s t u rfl rfl
    exact ⟨rfl, sent_startHome a clear s⟩
  case orders =>
    rintro a s c rfl
    refine ⟨homeOrder_starts, fun h hs => (homeOrder_offline h).trans (if_pos hs),
      fun h hs => (homeOrder_offline h).trans (if_neg ?_), homeOrder_none⟩
    obtain hs | hs := hs <;> rw [hs] <;> exact SupplyCond.noConfusion

end Sys2Proof.Machine

/-! How a zone acts on its levels, its entry to SHUTDOWN, and park orders by the crane's state (R114, R140 to R143, R148). -/

namespace Sys2Proof.Machine

/-! ### What an operation of one crane leaves of the other crane, the zones and the stations' close orders -/

/-- From `s` to `t` only crane `a` and its aisle change among cranes and aisles; zones and close orders stay. -/
structure OwnCrane (a : Aisle) (s t : State) : Prop where
  cranes : ∀ b, b ≠ a → crane t b = crane s b
  aisles : ∀ b, b ≠ a → aisleRec t b = aisleRec s b
  zones  : t.zones = s.zones
  params : t.params = s.params
  time   : t.time = s.time
  closes : ∀ y, (station t y).closeOrder = (station s y).closeOrder

section
variable {a : Aisle} {s t u : State} {z : Station}

theorem OwnCrane.refl (a : Aisle) (s : State) : OwnCrane a s s :=
  ⟨fun _ _ => rfl, fun _ _ => rfl, rfl, rfl, rfl, fun _ => rfl⟩

theorem OwnCrane.trans (h : OwnCrane a s t) (k : OwnCrane a t u) : OwnCrane a s u where
  cranes b hb := (k.cranes b hb).trans (h.cranes b hb)
  aisles b hb := (k.aisles b hb).trans (h.aisles b hb)
  zones := k.zones.trans h.zones
  params := k.params.trans h.params
  time := k.time.trans h.time
  closes y := (k.closes y).trans (h.closes y)

theorem ownCrane_setCrane (a : Aisle) (c : CraneRec) (s : State) : OwnCrane a s (setCrane a c s) :=
  { OwnCrane.refl a s with cranes := fun _ hb => crane_setCrane_ne hb c s }

theorem ownCrane_setAisle (a : Aisle) (r : AisleRec) (s : State) : OwnCrane a s (setAisle a r s) :=
  { OwnCrane.refl a s with aisles := fun _ hb => aisleRec_setAisle_ne hb r s }

theorem ownCrane_cutFork (a : Aisle) (s : State) : OwnCrane a s (cutFork a s) := by
  have hrest := cutFork_rest a s
  exact
    { cranes := fun b _ => crane_congr (congrArg State.cranes hrest :) b
      aisles := fun b _ => aisleRec_congr (congrArg State.aisles hrest :) b
      zones := (congrArg State.zones hrest :)
      params := (congrArg State.params hrest :)
      time := (congrArg State.time hrest :)
      closes := fun y => congrArg StationRec.closeOrder (station_congr (congrArg State.stations hrest :) y) }

theorem ownCrane_issue (a : Aisle) (g : SegmentRec) (keep : Bool) (s : State) : OwnCrane a s (issue a g keep s) := by
  have hkeeps := issue_keeps a g keep s
  exact
    { cranes := fun b hb => crane_issue_ne hb
      aisles := fun b _ => aisleRec_congr (congrArg State.aisles hkeeps :) b
      zones := (congrArg State.zones hkeeps :)
      params := (congrArg State.params hkeeps :)
      time := (congrArg State.time hkeeps :)
      closes := fun y => congrArg StationRec.closeOrder (station_congr (congrArg State.stations hkeeps :) y) }

theorem closeOrder_modStation {f : StationRec → StationRec} (hf : ∀ r, (f r).closeOrder = r.closeOrder) (y : Station) :
    (station (modStation z f s) y).closeOrder = (station s y).closeOrder := by
  by_cases hy : y = z
  · subst hy
    rw [modStation_eq, station_setStation, hf]
  · rw [modStation_eq, station_setStation_ne hy]

theorem closeOrder_dropClaims (a : Aisle) (s : State) (y : Station) :
    (station (dropClaims a s) y).closeOrder = (station s y).closeOrder := by
  have hreservations (n : Nat) (t : State) : (station (setReservations a n t) y).closeOrder = (station t y).closeOrder :=
    closeOrder_modStation (z := zoneOf a) (f := fun r => if a.val % 2 = 0 then { r with resv0 := n } else { r with resv1 := n })
      (fun r => by split <;> rfl) y
  have hwaiting (w : Bool) (t : State) : (station (setWaiting a w t) y).closeOrder = (station t y).closeOrder :=
    closeOrder_modStation (z := zoneOf a)
      (f := fun r => if a.val % 2 = 0 then { r with waiting0 := w } else { r with waiting1 := w })
      (fun r => by split <;> rfl) y
  have hgrant : (station (returnGrant a s) y).closeOrder = (station s y).closeOrder := by
    cases hg : (aisleRec s a).grant with
    | true =>
      rw [returnGrant_of_grant s hg]
      exact hreservations _ _
    | false => rw [returnGrant_of_no_grant s hg]
  rw [dropClaims, withdrawWait]
  split
  · rw [hwaiting, hgrant]
  · exact hgrant

theorem ownCrane_dropClaims (a : Aisle) (s : State) : OwnCrane a s (dropClaims a s) := by
  have hkeeps := dropClaims_keeps a s
  exact
    { cranes := fun b _ => crane_congr (dropClaims_cranes a s) b
      aisles := fun b hb => aisleRec_dropClaims_ne hb
      zones := (congrArg State.zones hkeeps :)
      params := (congrArg State.params hkeeps :)
      time := (congrArg State.time hkeeps :)
      closes := closeOrder_dropClaims a s }

theorem ownCrane_stop (a : Aisle) (c : CraneRec) (s : State) : OwnCrane a s { s with sent := s.sent ++ stopOf a c } :=
  { OwnCrane.refl a s with }

theorem ownCrane_takeOffline (a : Aisle) (s : State) : OwnCrane a s (takeOffline a s) := by
  rw [takeOffline_eq]
  exact ((ownCrane_stop a (crane s a) s).trans (ownCrane_setCrane ..)).trans (ownCrane_dropClaims ..)

theorem ownCrane_takeSuspension (a : Aisle) (s : State) : OwnCrane a s (takeSuspension a s) :=
  { ((ownCrane_setAisle ..).trans (ownCrane_takeOffline ..) :
      OwnCrane a s (takeOffline a (setAisle a { aisleRec s a with suspension := .suspended } s))) with }

theorem ownCrane_issuePark (a : Aisle) (s : State) : OwnCrane a s (issuePark a s) := by
  by_cases h : (aisleRec s a).suspension = .suspending
  · rw [issuePark_suspending h]
    exact ownCrane_takeSuspension a s
  · rw [issuePark_eq h]
    exact ((ownCrane_issue ..).trans (ownCrane_setCrane ..)).trans (ownCrane_dropClaims ..)

end

/-! ### Park orders by the crane's state (R114 Table 9) -/

/-- The crane of a park order, before PARK is issued. -/
def CraneRec.ordered (c : CraneRec) : CraneRec :=
  match c.state with
  | .moving | .waking =>
    if forkInFlight c then { c with parkOrder := true, state := .parking, dropped := droppedLeg c, leg := none }
    else { c with
      parkOrder := true, dropped := droppedLeg c, leg := none, segment := none, estimate := none, deadline := 0 }
  | .retryWait => { c with parkOrder := true, dropped := droppedLeg c, leg := none, retryTimer := none }
  | .homing => { c with
      parkOrder := true, segment := none, estimate := none, deadline := 0, homingClear := false, retryTimer := none }
  | .ready | .resting | .parking | .parked | .faulted | .offline => { c with parkOrder := true }

/-- PARK is issued at the park order. -/
def CraneRec.parksNow (c : CraneRec) : Prop :=
  ((c.state = .moving ∨ c.state = .waking) ∧ forkInFlight c = false) ∨ c.state = .homing ∨ c.state = .retryWait ∨
    c.state = .ready ∨ c.state = .resting

section
variable {a : Aisle} {s t : State} {c : CraneRec}

theorem parkCrane_settled (h : (crane s a).state = .parking ∨ (crane s a).state = .parked ∨ (crane s a).state = .faulted ∨
    (crane s a).state = .offline) : parkCrane a s = setCrane a { crane s a with parkOrder := true } s := by
  obtain h | h | h | h := h <;> simp only [parkCrane, h]

theorem parkCrane_fork (h : (crane s a).state = .moving ∨ (crane s a).state = .waking) (hf : forkInFlight (crane s a) = true) :
    parkCrane a s = dropClaims a (setCrane a { crane s a with
      parkOrder := true, state := .parking, dropped := droppedLeg (crane s a), leg := none } s) := by
  obtain h | h := h <;> simp only [parkCrane, h, hf, if_true]

theorem parkCrane_moving (h : (crane s a).state = .moving ∨ (crane s a).state = .waking)
    (hf : forkInFlight (crane s a) = false) : parkCrane a s = issuePark a (cutFork a (setCrane a { crane s a with
      parkOrder := true, dropped := droppedLeg (crane s a), leg := none, segment := none, estimate := none, deadline := 0 }
      { s with sent := s.sent ++ stopOf a (crane s a) })) := by
  rw [← stop_eq]
  obtain h | h := h <;> simp only [parkCrane, h, hf, Bool.false_eq_true, if_false] <;> rfl

theorem parkCrane_retryWait (h : (crane s a).state = .retryWait) : parkCrane a s =
    issuePark a (cutFork a (setCrane a { crane s a with
      parkOrder := true, dropped := droppedLeg (crane s a), leg := none, retryTimer := none } s)) := by
  simp only [parkCrane, h]

theorem parkCrane_homing (h : (crane s a).state = .homing) : parkCrane a s = issuePark a (setCrane a { crane s a with
      parkOrder := true, segment := none, estimate := none, deadline := 0, homingClear := false, retryTimer := none }
      { s with sent := s.sent ++ stopOf a (crane s a) }) := by
  rw [← stop_eq]
  simp only [parkCrane, h]
  rfl

theorem parkCrane_still (h : (crane s a).state = .ready ∨ (crane s a).state = .resting) : parkCrane a s =
    issuePark a (setCrane a { crane s a with parkOrder := true } s) := by
  obtain h | h := h <;> simp only [parkCrane, h]

/-- A park order either issues PARK to the crane it orders, or leaves the record at that. -/
theorem parkCrane_cases (a : Aisle) (s : State) :
    (∃ u, OwnCrane a s u ∧ crane u a = (crane s a).ordered ∧ aisleRec u a = aisleRec s a ∧
      (crane s a).parksNow ∧ parkCrane a s = issuePark a u ∧
      u.sent = s.sent ++ if (crane s a).state = .moving ∨ (crane s a).state = .waking ∨ (crane s a).state = .homing then
        stopOf a (crane s a) else []) ∨
    (OwnCrane a s (parkCrane a s) ∧ crane (parkCrane a s) a = (crane s a).ordered ∧ ¬(crane s a).parksNow) := by
  have hcut (c : CraneRec) (x : State) : crane (cutFork a (setCrane a c x)) a = c :=
    (crane_congr (congrArg State.cranes (cutFork_rest a (setCrane a c x)) :) a).trans (crane_setCrane ..)
  have haisle (x : State) : aisleRec (cutFork a x) a = aisleRec x a :=
    aisleRec_congr (congrArg State.aisles (cutFork_rest a x) :) a
  have hsent (x : State) : (cutFork a x).sent = x.sent := (congrArg State.sent (cutFork_rest a x) :)
  cases hst : (crane s a).state
  case moving | waking =>
    cases hf : forkInFlight (crane s a) with
    | true =>
      refine .inr ⟨?_, ?_, ?_⟩
      · rw [parkCrane_fork (by simp [hst]) hf]
        exact (ownCrane_setCrane ..).trans (ownCrane_dropClaims ..)
      · rw [parkCrane_fork (by simp [hst]) hf, crane_dropClaims, crane_setCrane]
        simp only [CraneRec.ordered, hst, hf, if_true]
      · simp [CraneRec.parksNow, hst, hf]
    | false =>
      refine .inl ⟨_, ((ownCrane_stop ..).trans (ownCrane_setCrane ..)).trans (ownCrane_cutFork ..), ?_, haisle _, ?_,
        parkCrane_moving (by simp [hst]) hf, ?_⟩
      · rw [hcut]
        simp only [CraneRec.ordered, hst, hf, Bool.false_eq_true, if_false]
      · simp [CraneRec.parksNow, hst, hf]
      · rw [hsent]
        simp
  case retryWait =>
    refine .inl ⟨_, (ownCrane_setCrane ..).trans (ownCrane_cutFork ..), ?_, haisle _, ?_, parkCrane_retryWait hst, ?_⟩
    · rw [hcut]
      simp only [CraneRec.ordered, hst]
    · simp [CraneRec.parksNow, hst]
    · rw [hsent]
      simp
  case homing =>
    refine .inl ⟨_, (ownCrane_stop ..).trans (ownCrane_setCrane ..), ?_, rfl, ?_, parkCrane_homing hst, ?_⟩
    · rw [crane_setCrane]
      simp only [CraneRec.ordered, hst]
    · simp [CraneRec.parksNow, hst]
    · simp
  case ready | resting =>
    refine .inl ⟨_, ownCrane_setCrane .., ?_, rfl, ?_, parkCrane_still (by simp [hst]), ?_⟩
    · rw [crane_setCrane]
      simp only [CraneRec.ordered, hst]
    · simp [CraneRec.parksNow, hst]
    · simp
  all_goals
    refine .inr ⟨?_, ?_, ?_⟩
    · rw [parkCrane_settled (by simp [hst])]
      exact ownCrane_setCrane ..
    · rw [parkCrane_settled (by simp [hst]), crane_setCrane]
      simp only [CraneRec.ordered, hst]
    · simp [CraneRec.parksNow, hst]

theorem ownCrane_parkCrane (a : Aisle) (s : State) : OwnCrane a s (parkCrane a s) := by
  obtain ⟨u, hu, -, -, -, h, -⟩ | ⟨h, -, -⟩ := parkCrane_cases a s
  · rw [h]
    exact hu.trans (ownCrane_issuePark a u)
  · exact h

/-- A crane whose PARK is issued, or whose suspension takes effect in its place (R93). -/
def parkIssued (a : Aisle) (s : State) (c : CraneRec) : CraneRec :=
  if (aisleRec s a).suspension = .suspending then c.offlined
  else { issuedRec s c ⟨.park, param s 5 + 1, 0, .mouth, 0⟩ false with state := .parking }

theorem crane_issuePark_any (a : Aisle) (s : State) : crane (issuePark a s) a = parkIssued a s (crane s a) := by
  unfold parkIssued
  split
  · next h => rw [issuePark_suspending h, crane_takeSuspension]
  · next h => rw [crane_issuePark h, crane_issue]

theorem parkIssued_congr (ha : aisleRec t a = aisleRec s a) (hp : t.params = s.params) (ht : t.time = s.time) :
    parkIssued a t c = parkIssued a s c := by
  have hparam (n : Fin 41) : param t n = param s n := param_congr hp n
  simp only [parkIssued, ha, issuedRec, segmentEstimate, segmentDeadline, wakeTime, travelTime, hparam, ht]

open Classical in
theorem crane_parkCrane (a : Aisle) (s : State) : crane (parkCrane a s) a =
    if (crane s a).parksNow then parkIssued a s (crane s a).ordered else (crane s a).ordered := by
  obtain ⟨u, hu, hc, ha, hnow, h, -⟩ | ⟨-, hc, hnot⟩ := parkCrane_cases a s
  · rw [if_pos hnow, h, crane_issuePark_any, hc, parkIssued_congr ha hu.params hu.time]
  · rw [if_neg hnot, hc]

/-- What a park order makes of its crane depends on the crane, its aisle, the parameters and the time alone. -/
theorem crane_parkCrane_congr (hc : crane t a = crane s a) (ha : aisleRec t a = aisleRec s a) (hp : t.params = s.params)
    (ht : t.time = s.time) : crane (parkCrane a t) a = crane (parkCrane a s) a := by
  rw [crane_parkCrane, crane_parkCrane, hc, parkIssued_congr ha hp ht]

theorem parkOrder_ordered (c : CraneRec) : c.ordered.parkOrder = true := by
  unfold CraneRec.ordered
  split
  · split <;> rfl
  · split <;> rfl
  all_goals rfl

theorem parkOrder_parkCrane (a : Aisle) (s : State) : (crane (parkCrane a s) a).parkOrder = true := by
  rw [crane_parkCrane]
  split
  · unfold parkIssued
    split <;> exact parkOrder_ordered _
  · exact parkOrder_ordered _

end

end Sys2Proof.Machine

/-! The levels of a zone and its entry to SHUTDOWN (R140 to R143, R148, R151). -/

namespace Sys2Proof.Machine

section
variable {s t before : State} {z y : Station} {a : Aisle}

/-! ### FIRE, panel clear and ALERT -/

theorem setZone_setZone (z : Station) (r q : ZoneRec) (s : State) : setZone z r (setZone z q s) = setZone z r s := by
  simp [setZone]

theorem zones_parkCranes (z : Station) (s : State) : (parkCranes z s).zones = s.zones :=
  keep_foldl (P := fun t => t.zones = s.zones) (fun t a h => by
    split
    · exact (ownCrane_parkCrane a t).zones.trans h
    · exact h) (zoneAisles z) rfl

theorem inputs_parkCranes (z : Station) (s : State) : (parkCranes z s).inputs = s.inputs :=
  (congrArg Ledger.inputs (keep_parkCranes (frame_closed false z s) rfl Frame.refl).ledger :)

/-- The close order at an entry to SHUTDOWN, if the station is present (R145). -/
def orderClose (z : Station) (s : State) : State :=
  if stationPresent s z then modStation z (fun r => { r with closeOrder := true }) s else s

theorem orderClose_keeps (z : Station) (s : State) : { orderClose z s with stations := s.stations } = s := by
  unfold orderClose
  split <;> rfl

/-- The records of the zone and its station as the entry to SHUTDOWN has them, before its park orders. -/
def shutdownEntered (z : Station) (s : State) : State :=
  sendPanel z .locked (orderClose z (enterZoneState z .shutdown (setZone z (shutdownRec s z) s)))

theorem enterShutdown_eq (z : Station) (s : State) : enterShutdown z s = parkCranes z (shutdownEntered z s) := rfl

theorem shutdownEntered_keeps (z : Station) (s : State) :
    { shutdownEntered z s with stations := s.stations, sent := s.sent } =
      enterZoneState z .shutdown (setZone z (shutdownRec s z) s) :=
  congrArg (fun t : State => { t with sent := s.sent })
    (orderClose_keeps z (enterZoneState z .shutdown (setZone z (shutdownRec s z) s)))

theorem zone_enterShutdown (z : Station) (s : State) :
    zone (enterShutdown z s) z = { shutdownRec s z with state := .shutdown } := by
  have hzones : (shutdownEntered z s).zones = (enterZoneState z .shutdown (setZone z (shutdownRec s z) s)).zones :=
    (congrArg State.zones (shutdownEntered_keeps z s) :)
  rw [enterShutdown_eq, zone_congr ((zones_parkCranes ..).trans hzones), zone_enterZoneState, zone_setZone]

theorem inputs_enterShutdown (z : Station) (s : State) : (enterShutdown z s).inputs = s.inputs :=
  (inputs_parkCranes z (shutdownEntered z s)).trans (congrArg State.inputs (shutdownEntered_keeps z s) :)

theorem fireLevel_congr (hi : t.inputs = s.inputs) (hz : (zone t z).injectFire = (zone s z).injectFire) :
    fireLevel t z = fireLevel s z := by
  simp only [fireLevel, takenLevel, conditioner_congr hi, hz]

/-- FIRE leaves the zone in SHUTDOWN or SEALED, with the same fire level. -/
theorem fireTaken_closes (z : Station) (s : State) : fireLevel (fireTaken z s) z = fireLevel s z ∧
    ((zone (fireTaken z s) z).state = .shutdown ∨ (zone (fireTaken z s) z).state = .sealed) := by
  have hentered : fireLevel (enterShutdown z s) z = fireLevel s z ∧
      ((zone (enterShutdown z s) z).state = .shutdown ∨ (zone (enterShutdown z s) z).state = .sealed) := by
    refine ⟨fireLevel_congr (inputs_enterShutdown z s) ?_, .inl ?_⟩
    · rw [zone_enterShutdown]
      rfl
    · rw [zone_enterShutdown]
  have hseen : zone (clearSeen z s) z = { zone s z with panelClearSeen := false } := zone_setZone ..
  unfold fireTaken
  cases hst : (zone s z).state
  case clear | alert | recovery => exact hentered
  case awaitRestore =>
    refine ⟨fireLevel_congr rfl ?_, .inr ?_⟩
    · dsimp only
      rw [zone_enterZoneState, hseen]
    · dsimp only
      rw [zone_enterZoneState]
  all_goals
    refine ⟨fireLevel_congr rfl ?_, ?_⟩
    · dsimp only
      rw [hseen]
    · dsimp only
      rw [hseen]
      simp [hst]

theorem clearTaken_of_fire (h : fireLevel s z = true) : clearTaken z s = s := by
  unfold clearTaken
  rw [h]
  cases (zone s z).state <;> rfl

theorem clearTaken_seen (h : fireLevel s z = false) (hst : (zone s z).state = .shutdown ∨ (zone s z).state = .sealed) :
    clearTaken z s = setZone z { zone s z with panelClearSeen := true } s := by
  obtain hst | hst := hst <;> simp only [clearTaken, hst, h, Bool.false_eq_true, if_false]

theorem clearTaken_unseen (hst : ¬((zone s z).state = .shutdown ∨ (zone s z).state = .sealed)) : clearTaken z s = s := by
  unfold clearTaken
  split
  · next h => exact absurd (.inl h) hst
  · next h => exact absurd (.inr h) hst
  all_goals rfl

theorem alertChanged_eq (z : Station) (s : State) : alertChanged z s =
    if (zone s z).state = .clear ∧ alertLevel s z = true then enterZoneState z .alert s
    else if (zone s z).state = .alert ∧ alertLevel s z = false then enterZoneState z .clear s
    else s := by
  unfold alertChanged
  cases (zone s z).state <;> cases alertLevel s z <;> rfl

theorem alertChanged_closed (h : (zone s z).state = .shutdown ∨ (zone s z).state = .sealed) : alertChanged z s = s := by
  rw [alertChanged_eq]
  obtain h | h := h <;> simp [h]

/-- FIRE decides alone, whatever the other levels do (R148). -/
theorem actOnLevels_fire (h : fireLevel s z = true ∧ fireLevel before z = false) :
    actOnLevels before z s = fireTaken z s := by
  obtain ⟨hlevel, hstate⟩ := fireTaken_closes z s
  simp only [actOnLevels, h.1, h.2, Bool.not_false, Bool.and_self, if_true]
  rw [clearTaken_of_fire (hlevel.trans h.1), ite_self, alertChanged_closed hstate, ite_self]

theorem rises_eq_false {new old : Bool} (h : ¬(new = true ∧ old = false)) : (new && !old) = false := by
  cases new <;> cases old <;> simp_all

theorem actOnLevels_seen (hf : ¬(fireLevel s z = true ∧ fireLevel before z = false))
    (hc : clearLevel s z = true ∧ clearLevel before z = false) (hn : fireLevel s z = false)
    (hst : (zone s z).state = .shutdown ∨ (zone s z).state = .sealed) :
    actOnLevels before z s = setZone z { zone s z with panelClearSeen := true } s := by
  simp only [actOnLevels, rises_eq_false hf, hc.1, hc.2, Bool.not_false, Bool.and_self, if_true, Bool.false_eq_true, if_false]
  rw [clearTaken_seen hn hst, alertChanged_closed (by rw [zone_setZone]; exact hst), ite_self]

theorem actOnLevels_alert (hf : ¬(fireLevel s z = true ∧ fireLevel before z = false))
    (hs : ¬((clearLevel s z = true ∧ clearLevel before z = false) ∧ fireLevel s z = false ∧
      ((zone s z).state = .shutdown ∨ (zone s z).state = .sealed))) :
    actOnLevels before z s = if alertLevel s z = alertLevel before z then s else alertChanged z s := by
  have hclear : (if clearLevel s z && !clearLevel before z then clearTaken z s else s) = s := by
    split
    · next h =>
      rw [Bool.and_eq_true, Bool.not_eq_true'] at h
      cases hfire : fireLevel s z with
      | true => exact clearTaken_of_fire hfire
      | false => exact clearTaken_unseen fun hst => hs ⟨h, hfire, hst⟩
    · rfl
  simp only [actOnLevels, rises_eq_false hf, Bool.false_eq_true, if_false, hclear]
  by_cases ha : alertLevel s z = alertLevel before z <;> simp [ha]

/-! ### The entry to SHUTDOWN (R143) -/

theorem ownCrane_parked (a : Aisle) (s : State) : OwnCrane a s (if aislePresent s a then parkCrane a s else s) := by
  split
  · exact ownCrane_parkCrane a s
  · exact OwnCrane.refl a s

/-- A present crane of the zone has the park order, which found it as it was. -/
theorem crane_parkCranes (ha : zoneOf a = z) (hp : aislePresent s a = true) :
    crane (parkCranes z s) a = crane (parkCrane a s) a := by
  have hother := ownCrane_parked (aisle0 z) s
  have hlower : parkCranes z s = (fun u => if aislePresent u (aisle1 z) then parkCrane (aisle1 z) u else u)
      (if aislePresent s (aisle0 z) then parkCrane (aisle0 z) s else s) := rfl
  have hne := aisle0_ne_aisle1 z
  rw [hlower]
  obtain rfl | rfl := (aisle_of_zone a z).mp ha
  · rw [(ownCrane_parked (aisle1 z) _).cranes _ hne.symm, if_pos hp]
  · dsimp only
    rw [aislePresent_of_params hother.params, if_pos hp]
    exact crane_parkCrane_congr (hother.cranes _ hne) (hother.aisles _ hne) hother.params hother.time

theorem crane_enterShutdown (ha : zoneOf a = z) (hp : aislePresent s a = true) :
    crane (enterShutdown z s) a = crane (parkCrane a s) a := by
  have hkeeps := shutdownEntered_keeps z s
  have hparams : (shutdownEntered z s).params = s.params := (congrArg State.params hkeeps :)
  rw [enterShutdown_eq, crane_parkCranes ha (by rw [aislePresent_of_params hparams]; exact hp)]
  exact crane_parkCrane_congr (crane_congr (congrArg State.cranes hkeeps :) a)
    (aisleRec_congr (congrArg State.aisles hkeeps :) a) hparams (congrArg State.time hkeeps :)

theorem closeOrder_parkCranes (z y : Station) (s : State) :
    (station (parkCranes z s) y).closeOrder = (station s y).closeOrder :=
  keep_foldl (P := fun t => (station t y).closeOrder = (station s y).closeOrder)
    (fun t a h => ((ownCrane_parked a t).closes y).trans h) (zoneAisles z) rfl

theorem frame_parkCranes (z : Station) (s : State) : Frame false z s (parkCranes z s) :=
  keep_parkCranes (frame_closed false z s) rfl Frame.refl

theorem frame_enterShutdown (z : Station) (s : State) : Frame false z s (enterShutdown z s) :=
  keep_enterShutdown (frame_closed false z s) rfl Frame.refl

theorem enterShutdown_closes (h : stationPresent s z = true) : (station (enterShutdown z s) z).closeOrder = true ∧
    FieldMsg.panel z .locked ∈ (enterShutdown z s).sent := by
  have hclose (t : State) (ht : stationPresent t z = true) : (station (orderClose z t) z).closeOrder = true := by
    rw [orderClose, if_pos ht]
    exact congrArg StationRec.closeOrder (station_setStation ..)
  have hsent (t : State) (ht : stationPresent t z = true) : FieldMsg.panel z .locked ∈ (sendPanel z .locked t).sent := by
    rw [sendPanel_present ht ⟨fun h => by simp at h, fun h => by simp at h⟩]
    exact List.mem_append_right _ List.mem_cons_self
  refine ⟨?_, (frame_parkCranes z (shutdownEntered z s)).sent.subset (hsent _ ?_)⟩
  · rw [enterShutdown_eq, closeOrder_parkCranes]
    exact hclose _ h
  · have hparams (t : State) : (orderClose z t).params = t.params := (congrArg State.params (orderClose_keeps z t) :)
    have hpresent (t : State) (ht : stationPresent t z = true) : stationPresent (orderClose z t) z = true := by
      rw [stationPresent, hparams]
      exact ht
    exact hpresent _ h

theorem attention_enterShutdown (z : Station) (s : State) :
    (enterShutdown z s).link.attention.getLsbD (13 + z.val) = true := by
  have hset (t : State) : (enterZoneState z .shutdown t).link.attention.getLsbD (13 + z.val) = true :=
    attention_set (13 + z.val) (by omega) (setZone z { zone t z with state := .shutdown } t)
  have hlink : (shutdownEntered z s).link = (enterZoneState z .shutdown (setZone z (shutdownRec s z) s)).link :=
    (congrArg State.link (shutdownEntered_keeps z s) :)
  refine (frame_parkCranes z (shutdownEntered z s)).attention _ ?_
  rw [hlink]
  exact hset _

/-! ### Park orders as the manual lists them -/

theorem droppedLeg_eq (c : CraneRec) : droppedLeg c = c.leg.bind fun l => if l.cancelled then none else some l := by
  unfold droppedLeg
  cases c.leg <;> rfl

theorem cutFork_eq (a : Aisle) (s : State) : (match forkMark s a with
    | some b => modBin b (fun r => { r with uncertain := true }) (setForkMark a none s)
    | none => s) = cutFork a s := by
  unfold cutFork
  cases forkMark s a <;> rfl

theorem parksNow_sent (h : (aisleRec s a).suspension ≠ .suspending) (hp : (crane s a).parksNow) :
    (crane (parkCrane a s) a).state = .parking ∧ (parkCrane a s).sent = s.sent ++
      (if (crane s a).state = .moving ∨ (crane s a).state = .waking ∨ (crane s a).state = .homing then
        stopOf a (crane s a) else []) ++
      (if (crane s a).state = .resting then [.drive a .wake] else []) ++ [.drive a .park] := by
  obtain ⟨u, hu, hc, ha, -, hpark, hsent⟩ | ⟨-, -, hnot⟩ := parkCrane_cases a s
  · have hsusp : (aisleRec u a).suspension ≠ .suspending := by rw [ha]; exact h
    refine ⟨by rw [hpark, crane_issuePark hsusp], ?_⟩
    have hrest : wakeFirst (crane u a) ⟨.park, param u 5 + 1, 0, .mouth, 0⟩ = true ↔ (crane s a).state = .resting := by
      rw [hc, wakeFirst_iff]
      obtain ⟨hst, hf⟩ | hst | hst | hst | hst := hp
      · obtain hst | hst := hst <;> simp [CraneRec.ordered, hst, hf]
      all_goals simp [CraneRec.ordered, hst]
    rw [hpark, issuePark_eq hsusp, dropClaims_sent]
    exact (sent_issue ..).trans (by simp only [hsent, hrest]; rfl)
  · exact absurd hp hnot

end

/-- Settles O49. -/
theorem zonesActOnLevelsAndShutDown : Obligations.ZonesActOnLevelsAndShutDown := by
  refine ⟨?levels, ?entry, fun z s => ⟨rfl, rfl, rfl, rfl, rfl, fun i => rfl⟩, ?park⟩
  case levels =>
    rintro z before s r rfl fire clear seen
    have halert (hf : ¬fire) (hs : ¬seen) (h : alertLevel s z = alertLevel before z) : actOnLevels before z s = s :=
      (actOnLevels_alert hf hs).trans (if_pos h)
    refine ⟨fun h => ?_, fun hf hs => actOnLevels_seen hf hs.1 hs.2.1 hs.2.2, fun hf hs => ⟨halert hf hs, fun h => ?_⟩,
      fun hc hn hf h => halert hf (fun hs => ?_) h, fun hc hf h => halert hf (fun hs => ?_) h⟩
    · rw [actOnLevels_fire h]
      unfold fireTaken
      cases hst : (zone s z).state
      case awaitRestore =>
        have hzone : zone (clearSeen z s) z = { zone s z with panelClearSeen := false } := zone_setZone ..
        dsimp only
        rw [enterZoneState, hzone, clearSeen, setZone_setZone]
        rfl
      all_goals simp only [clearSeen, hst]
    · rw [actOnLevels_alert hf hs, if_neg h, alertChanged_eq]
      rfl
    · rw [hs.2.1] at hn
      cases hn
    · rw [hs.1.1] at hc
      cases hc
  case entry =>
    rintro z s t rfl
    have hframe := frame_enterShutdown z s
    have hfields {α : Type} {f : ZoneRec → α} :
        f (zone (enterShutdown z s) z) = f { shutdownRec s z with state := .shutdown } :=
      congrArg f (zone_enterShutdown z s)
    refine ⟨hfields, hfields, hfields, hfields, hfields, hfields, hfields, hfields, hfields, hfields, hfields,
      enterShutdown_closes, attention_enterShutdown z s, fun a ha hp => ?_, hframe.cranes,
      fun y hy => ⟨hframe.stations y hy, hframe.zones y hy⟩, fun a => crane_enterShutdown⟩
    rw [crane_enterShutdown ha hp, parkOrder_parkCrane]
  case park =>
    rintro a s u c d moving fork rfl rfl rfl rfl stopped cut
    have hfork : forkInFlight (crane s a) = true ↔ ∃ g, (crane s a).segment = some g ∧
      (g.kind = .forkPick ∨ g.kind = .forkPlace) := forkInFlight_iff _
    have hnofork (h : ¬∃ g, (crane s a).segment = some g ∧ (g.kind = .forkPick ∨ g.kind = .forkPlace)) :
        forkInFlight (crane s a) = false := Bool.eq_false_iff.mpr fun hf => h (hfork.mp hf)
    have hcut (v : State) : cut v = cutFork a v := cutFork_eq a v
    rw [← droppedLeg_eq]
    refine ⟨parkCrane_settled, ?_, ?_, ?_, ?_, parkCrane_still, ?_⟩
    · rintro hm hf rfl
      rw [parkCrane_fork hm (hfork.mpr hf)]
      refine ⟨?_, ?_, waiting_dropClaims .., ?_, fun b hb => ⟨?_, ?_, ?_, ?_⟩, ?_⟩
      · rw [crane_dropClaims, crane_setCrane]
      · rw [aisleRec_dropClaims]
        rfl
      · rw [reservations_dropClaims]
        rfl
      · rw [crane_dropClaims, crane_setCrane_ne hb]
      · rw [aisleRec_dropClaims_ne hb]
        rfl
      · rw [waiting_dropClaims_ne hb]
        rfl
      · rw [reservations_dropClaims_ne hb]
        rfl
      · exact congrArg (fun t : State => { t with cranes := s.cranes }) (dropClaims_keeps a (setCrane a { crane s a with
          parkOrder := true, state := .parking, dropped := droppedLeg (crane s a), leg := none } s))
    · rintro hm hf rfl
      rw [parkCrane_moving hm (hnofork hf), hcut]
      rfl
    · rintro h rfl
      rw [parkCrane_retryWait h, hcut]
    · rintro h rfl
      rw [parkCrane_homing h]
      rfl
    · intro hsusp h
      have hnow : (crane s a).parksNow := by
        obtain ⟨hm, hf⟩ | h | h | h | h := h
        · exact .inl ⟨hm, hnofork hf⟩
        · exact .inr (.inl h)
        · exact .inr (.inr (.inl h))
        · exact .inr (.inr (.inr (.inl h)))
        · exact .inr (.inr (.inr (.inr h)))
      obtain ⟨hstate, hsent⟩ := parksNow_sent hsusp hnow
      refine ⟨hstate, hsent.trans ?_⟩
      unfold stopOf
      by_cases hseg : (crane s a).segment = none <;> simp [hseg]

end Sys2Proof.Machine

/-! Restore Zone, Drill, Reopen Station and the reopen order (R131, R132, R149 to R151). -/

namespace Sys2Proof.Machine

/-! ### Injections (R151) -/

section
variable {s t u before : State} {z : Station}

theorem injectionByte_of_orders {r q : ZoneRec} (h : r.orders = q.orders) : injectionByte r = injectionByte q :=
  (congrArg (fun x => injectionByte x) h :)

theorem injectionByte_setZone {r : ZoneRec} (h : injectionByte r = injectionByte (zone s z)) :
    injectionByte (zone (setZone z r s) z) = injectionByte (zone s z) := by
  rw [zone_setZone, h]

theorem injectionByte_enterZoneState (z : Station) (x : ZoneState) (s : State) :
    injectionByte (zone (enterZoneState z x s) z) = injectionByte (zone s z) := by
  rw [zone_enterZoneState]
  rfl

theorem injectionByte_fireTaken (z : Station) (s : State) :
    injectionByte (zone (fireTaken z s) z) = injectionByte (zone s z) := by
  have hentered : injectionByte (zone (enterShutdown z s) z) = injectionByte (zone s z) := by
    rw [zone_enterShutdown]
    rfl
  have hseen : injectionByte (zone (clearSeen z s) z) = injectionByte (zone s z) := injectionByte_setZone rfl
  unfold fireTaken
  cases (zone s z).state
  case clear | alert | recovery => exact hentered
  case awaitRestore => exact (injectionByte_enterZoneState z .sealed (clearSeen z s)).trans hseen
  all_goals exact hseen

theorem injectionByte_clearTaken (z : Station) (s : State) :
    injectionByte (zone (clearTaken z s) z) = injectionByte (zone s z) := by
  have hseen : injectionByte (zone (setZone z { zone s z with panelClearSeen := true } s) z) = injectionByte (zone s z) :=
    injectionByte_setZone rfl
  by_cases hst : (zone s z).state = .shutdown ∨ (zone s z).state = .sealed
  · cases hf : fireLevel s z with
    | true => rw [clearTaken_of_fire hf]
    | false => rw [clearTaken_seen hf hst, hseen]
  · rw [clearTaken_unseen hst]

theorem injectionByte_alertChanged (z : Station) (s : State) :
    injectionByte (zone (alertChanged z s) z) = injectionByte (zone s z) := by
  rw [alertChanged_eq]
  split
  · rw [injectionByte_enterZoneState]
  · split
    · rw [injectionByte_enterZoneState]
    · rfl

theorem injectionByte_actOnLevels (before : State) (z : Station) (s : State) :
    injectionByte (zone (actOnLevels before z s) z) = injectionByte (zone s z) := by
  have hfire : injectionByte (zone (if fireLevel s z && !fireLevel before z then fireTaken z s else s) z) =
      injectionByte (zone s z) := by
    split
    · exact injectionByte_fireTaken z s
    · rfl
  have hclear (t : State) : injectionByte (zone (if clearLevel s z && !clearLevel before z then clearTaken z t else t) z) =
      injectionByte (zone t z) := by
    split
    · exact injectionByte_clearTaken z t
    · rfl
  unfold actOnLevels
  dsimp only
  split
  · rw [injectionByte_alertChanged, hclear, hfire]
  · rw [hclear, hfire]

/-- The injections that a drill leaves, shown after its event. -/
theorem injectionByte_drilled {w : ZoneRec} (h : Settles s z (actOnLevels s z (setZone z w s)) t) :
    injectionByte (zone t z) = injectionByte w := by
  rw [injectionByte_of_orders (h.2.orders z), injectionByte_actOnLevels, zone_setZone]

/-! ### The reopen order and the orders of RECOVERY (R131, R149) -/

theorem reopenOrder_open (h : (station s z).shutter = .open) : reopenOrder z s =
    reportReopen z .open (setStation z { station s z with closeOrder := false } s) := by
  simp only [reopenOrder, h, modStation_eq]

theorem reopenOrder_opening (h : (station s z).shutter = .opening) : reopenOrder z s =
    setStation z { station s z with closeOrder := false, reopenOrdered := true } s := by
  simp only [reopenOrder, h, modStation_eq, station_setStation, setStation_setStation]

theorem reopenOrder_fault (h : (station s z).shutter = .closing ∨ (station s z).shutter = .closed)
    (hf : (station s z).reopenFault = true) : reopenOrder z s =
      reportReopen z .reopenFault (setStation z { station s z with closeOrder := false } s) := by
  obtain h | h := h <;> simp only [reopenOrder, h, hf, if_true, modStation_eq]

theorem reopenOrder_travels (h : (station s z).shutter = .closing ∨ (station s z).shutter = .closed)
    (hf : (station s z).reopenFault = false) : reopenOrder z s = setStation z { station s z with
      closeOrder := false, holdOpen := true, shutter := .opening, travelTimer := some (1000 * param s 32)
      reopenOrdered := true } s := by
  have hparam (r : StationRec) : param (setStation z r s) 32 = param s 32 := rfl
  obtain h | h := h <;> simp only [reopenOrder, h, hf, Bool.false_eq_true, if_false, energiseShutter, modStation_eq,
    station_setStation, setStation_setStation, hparam]

/-- A park order that stands at a crane which is PARKED or OFFLINE ends (R149). -/
def liftParkOrder (a : Aisle) (s : State) : State :=
  if (crane s a).state = .parked ∨ (crane s a).state = .offline then setCrane a { crane s a with parkOrder := false } s else s

theorem crane_liftParkOrder (a : Aisle) (s : State) : crane (liftParkOrder a s) a =
    if (crane s a).state = .parked ∨ (crane s a).state = .offline then { crane s a with parkOrder := false } else crane s a := by
  unfold liftParkOrder
  split
  · rw [crane_setCrane]
  · rfl

theorem crane_liftParkOrder_ne {a b : Aisle} (h : b ≠ a) : crane (liftParkOrder a s) b = crane s b := by
  unfold liftParkOrder
  split
  · rw [crane_setCrane_ne h]
  · rfl

theorem liftParkOrder_keeps (a : Aisle) (s : State) : { liftParkOrder a s with cranes := s.cranes } = s := by
  unfold liftParkOrder
  split <;> rfl

theorem liftParkOrders_eq (z : Station) (s : State) :
    liftParkOrders z s = liftParkOrder (aisle1 z) (liftParkOrder (aisle0 z) s) := rfl

theorem liftParkOrders_keeps (z : Station) (s : State) : { liftParkOrders z s with cranes := s.cranes } = s := by
  rw [liftParkOrders_eq]
  exact (congrArg (fun t : State => { t with cranes := s.cranes }) (liftParkOrder_keeps (aisle1 z) _)).trans
    (liftParkOrder_keeps (aisle0 z) s)

theorem crane_liftParkOrders (z : Station) (s : State) (a : Aisle) : crane (liftParkOrders z s) a =
    if zoneOf a = z ∧ ((crane s a).state = .parked ∨ (crane s a).state = .offline) then
      { crane s a with parkOrder := false } else crane s a := by
  have hne := aisle0_ne_aisle1 z
  rw [liftParkOrders_eq]
  by_cases hz : zoneOf a = z
  · simp only [hz, true_and]
    obtain rfl | rfl := (aisle_of_zone a z).mp hz
    · rw [crane_liftParkOrder_ne hne.symm, crane_liftParkOrder]
    · rw [crane_liftParkOrder, crane_liftParkOrder_ne hne]
  · have h0 : a ≠ aisle0 z := fun e => hz ((aisle_of_zone a z).mpr (.inl e))
    have h1 : a ≠ aisle1 z := fun e => hz ((aisle_of_zone a z).mpr (.inr e))
    rw [crane_liftParkOrder_ne h1, crane_liftParkOrder_ne h0, if_neg (fun h => hz h.1)]

/-! ### Reopen Station (R132) -/

theorem reopen_open (h : (station s z).shutter = .open) : reopen z s = liftHoldWhere .stationOut (fun _ v => ofZone s z v)
    (setStation z { station s z with jammed := false, reopenFault := false } s) := by
  simp only [reopen, h, leaveOut, modStation_eq]

theorem reopen_opening (h : (station s z).shutter = .opening) :
    reopen z s = setStation z { station s z with reopenCommand := true } s := by
  simp only [reopen, h, modStation_eq]

theorem reopen_travels (h : (station s z).shutter = .closing ∨ (station s z).shutter = .closed) :
    reopen z s = setStation z { station s z with
      reopenCommand := true, holdOpen := true, shutter := .opening, travelTimer := some (1000 * param s 32) } s := by
  obtain h | h := h <;>
    simp only [reopen, h, energiseShutter, modStation_eq, station_setStation, setStation_setStation]

theorem commutes_reopen {m : List Byte} (z : Station) : Commutes m (reopen z) := by
  intro s
  have hstation : station (loadCommand m s) z = station s z := rfl
  cases h : (station s z).shutter with
  | opening =>
    rw [reopen_opening h, reopen_opening (s := loadCommand m s) h]
    rfl
  | closing =>
    rw [reopen_travels (.inl h), reopen_travels (s := loadCommand m s) (.inl h)]
    rfl
  | closed =>
    rw [reopen_travels (.inr h), reopen_travels (s := loadCommand m s) (.inr h)]
    rfl
  | _ =>
    rw [reopen_open h, reopen_open (s := loadCommand m s) h]
    rfl

/-! ### The commands -/

variable {p : List Byte}

theorem runRestoreZone_refuses (hz : stationOf (byteAt p 0) = some z) (h : (zone s z).state ≠ .awaitRestore) :
    runRestoreZone p s = .refuse .state [] :=
  (withSome_passes hz).trans (refuseIf_refuses (bne_iff_ne.mpr h))

theorem runRestoreZone_replies (hz : stationOf (byteAt p 0) = some z) (h : (zone s z).state = .awaitRestore) :
    runRestoreZone p s = .reply .done [BitVec.ofNat 8 (zone (settleZone s z (enterRecovery z s)) z).state.code]
      (settleZone s z (enterRecovery z s)) :=
  (withSome_passes hz).trans (refuseIf_passes (by rw [h]; rfl))

theorem drillOf_eq_none {n : Nat} (h : 4 ≤ n) : drillOf n = none := by
  rw [drillOf, if_neg (by omega), if_neg (by omega), if_neg (by omega), if_neg (by omega)]

theorem runDrill_refuses (hz : stationOf (byteAt p 0) = some z) (h : 4 ≤ byteAt p 1) :
    runDrill p s = .refuse .badValue [] :=
  (withSome_passes hz).trans (withSome_refuses (drillOf_eq_none h))

theorem runDrill_replies {c : DrillCode} (hz : stationOf (byteAt p 0) = some z) (hc : drillOf (byteAt p 1) = some c) :
    runDrill p s = .reply .done (BitVec.ofNat 8 (zone (settleZone s z (drillZone z c s)) z).state.code ::
      injectionByte (zone (settleZone s z (drillZone z c s)) z)) (settleZone s z (drillZone z c s)) :=
  (withSome_passes hz).trans (withSome_passes hc)

theorem drillOf_of_lt {n : Nat} (h : n < 4) (r : ZoneRec) : ∃ c, drillOf n = some c ∧ inject c r =
    if n = 0 then { r with injectAlert := true, drill := true }
    else if n = 1 then { r with injectFire := true, drill := true }
    else if n = 2 then { r with injectClear := true, drill := true }
    else { r with injectAlert := false, injectFire := false, injectClear := false, drill := false } := by
  match n, h with
  | 0, _ => exact ⟨.alert, rfl, rfl⟩
  | 1, _ => exact ⟨.fire, rfl, rfl⟩
  | 2, _ => exact ⟨.panelClear, rfl, rfl⟩
  | 3, _ => exact ⟨.end_, rfl, rfl⟩

variable (hz : stationOf (byteAt p 0) = some z) (hp : stationPresent s z = true)
include hz hp

theorem runReopenStation_closed (h : zoneClosed s z = true) : runReopenStation p s = .refuse .zoneClosed [] :=
  (withStation_present hz hp).trans (refuseIf_refuses h)

theorem runReopenStation_refuses (hc : zoneClosed s z = false)
    (h : ((station s z).jammed = false ∧ (station s z).reopenFault = false) ∨ (station s z).beam = true) :
    runReopenStation p s = .refuse .state [] := by
  refine (withStation_present hz hp).trans ((refuseIf_passes hc).trans ?_)
  cases hout : (station s z).isOut with
  | false => exact refuseIf_refuses rfl
  | true =>
    obtain ⟨hj, hf⟩ | hb := h
    · rw [isOut_iff, hj, hf] at hout
      simp at hout
    · exact (refuseIf_passes rfl).trans (refuseIf_refuses hb)

theorem runReopenStation_replies (hc : zoneClosed s z = false)
    (h : (station s z).jammed = true ∨ (station s z).reopenFault = true) (hb : (station s z).beam = false) :
    runReopenStation p s = .reply .done [BitVec.ofNat 8 (station (settleZone s z (reopen z s)) z).shutter.code]
      (settleZone s z (reopen z s)) := by
  have hout : (station s z).isOut = true := (isOut_iff _).mpr h
  exact (withStation_present hz hp).trans ((refuseIf_passes hc).trans
    ((refuseIf_passes (by rw [hout]; rfl)).trans (refuseIf_passes hb)))

end

/-- Settles O34. -/
theorem zoneAndStationCommandsAct : Obligations.ZoneAndStationCommandsAct := by
  refine ⟨?refusals, ?zones, ?stations, ?order, fun z s t => ⟨?_, rfl⟩⟩
  case refusals =>
    intro p s hs hm
    refine ⟨fun hz => ⟨fun hp => ?_, fun hp => ?_⟩, fun hp hz => ?_⟩
    · exact congrArg _ (takeCommand_refuses hs hp (by decide) (modeCheck_service hm) (withSome_refuses hz))
    · exact congrArg _ (takeCommand_refuses hs hp (by decide) (modeCheck_service hm) (withSome_refuses hz))
    · refine congrArg _ (takeCommand_refuses hs hp (by decide) (modeCheck_service hm) ?_)
      cases hs' : stationOf (byteAt p 0) with
      | none => exact withStation_none hs'
      | some z => exact withStation_absent hs' (hz z hs')
  case zones =>
    intro p s z hs hm hz
    refine ⟨fun hp h => ?_, ?_, fun hp h => ?_, ?_⟩
    · exact congrArg _ (takeCommand_refuses hs hp (by decide) (modeCheck_service hm)
        (runRestoreZone_refuses (s := loadCommand _ s) hz h))
    · rintro u hp h rfl
      refine ⟨_, settles_settleZone s z (enterRecovery z s), congrArg Host.Outcome.next ?_⟩
      exact takeCommand_settles_showing (data := fun t => [BitVec.ofNat 8 (zone t z).state.code]) hs hp (by decide)
        (modeCheck_service hm) (fun _ _ => rfl)
        (fun x => (runRestoreZone_replies (s := loadCommand x s) hz h).trans (by rw [commutes_enterRecovery]))
    · exact congrArg _ (takeCommand_refuses hs hp (by decide) (modeCheck_service hm)
        (runDrill_refuses (s := loadCommand _ s) hz h))
    · rintro w hp h rfl
      obtain ⟨c, hc, hw⟩ := drillOf_of_lt h (zone s z)
      rw [← hw]
      have hsettles := settles_settleZone s z (drillZone z c s)
      refine ⟨_, hsettles, congrArg Host.Outcome.next ?_⟩
      rw [← injectionByte_drilled hsettles]
      exact takeCommand_settles_showing
        (data := fun t => BitVec.ofNat 8 (zone t z).state.code :: injectionByte (zone t z)) hs hp (by decide)
        (modeCheck_service hm) (fun _ _ => rfl)
        (fun x => (runDrill_replies (s := loadCommand x s) hz hc).trans (by rw [commutes_drillZone]))
  case stations =>
    intro p s z hs hm hp hz hpres
    refine ⟨fun h => ?_, fun hc => ⟨fun h => ?_, ?_⟩⟩
    · exact congrArg _ (takeCommand_refuses hs hp (by decide) (modeCheck_service hm)
        (runReopenStation_closed (s := loadCommand _ s) hz hpres h))
    · exact congrArg _ (takeCommand_refuses hs hp (by decide) (modeCheck_service hm)
        (runReopenStation_refuses (s := loadCommand _ s) hz hpres hc h))
    · intro u hout hb hu
      have hreopen : u = reopen z s := by
        rw [hu]
        split
        case h_1 h => exact (reopen_open h).symm
        case h_2 h => exact (reopen_opening h).symm
        case h_3 h => exact (reopen_travels (.inl h)).symm
        case h_4 h => exact (reopen_travels (.inr h)).symm
      subst hreopen
      refine ⟨_, settles_settleZone s z (reopen z s), congrArg Host.Outcome.next ?_⟩
      exact takeCommand_settles_showing (data := fun t => [BitVec.ofNat 8 (station t z).shutter.code]) hs hp (by decide)
        (modeCheck_service hm) (fun _ _ => rfl)
        (fun x => (runReopenStation_replies (s := loadCommand x s) hz hpres hc hout hb).trans (by rw [commutes_reopen]))
  case order =>
    rintro z s r rfl reports
    exact ⟨reopenOrder_open, reopenOrder_opening, fun h => ⟨reopenOrder_fault h, reopenOrder_travels h⟩⟩
  · rintro rfl
    exact ⟨liftParkOrders_keeps z s, crane_liftParkOrders z s⟩

end Sys2Proof.Machine

/-! The sensors of a station: a crossing's arrival and the travels of the shutter (R122, R125, R128, R131, R132). -/

namespace Sys2Proof.Machine

/-- A station's pending tasks shown, if the link takes them. -/
theorem showPending_zero (z : Station) (ts : List TaskRec) (s : State) : showPending z 0 ts s =
    { s with sent := s.sent ++ if stationPresent s z = true ∧ zoneClosed s z = false then showsOf z ts else [] } := by
  have hshows := showPending_eq z ts 0 s
  dsimp only at hshows
  rw [hshows]
  cases stationPresent s z <;> cases zoneClosed s z <;> rfl

/-! ### A crossing's arrival (R14, R27, R125) -/

section
variable {z y : Station} {s : State} {x : CrossingRec} {r : BinRec} {n : Nat} {v : VisitRec}

theorem endCrossing_eq (z : Station) (s : State) :
    endCrossing z s = setCrossingMark z none (setStation z { station s z with crossing := none } s) := rfl

/-- The station record of a crossing that has arrived, before the bin has its new place. -/
def StationRec.crossed (r : StationRec) : StationRec := { r with crossing := none, openingBin := none }

/-- The state after a crossing's end, with its bin at `r`. -/
def crossingEnded (z : Station) (b : Nat) (r : BinRec) (s : State) : State :=
  setBin b r (setCrossingMark z none (setStation z (station s z).crossed s))

theorem crossing_ends (z : Station) (s : State) :
    modStation z (fun r => { r with openingBin := none }) (endCrossing z s) =
      setCrossingMark z none (setStation z (station s z).crossed s) := by
  have hswap (q r : StationRec) : setStation z q (setCrossingMark z none (setStation z r s)) =
      setCrossingMark z none (setStation z q (setStation z r s)) := rfl
  have hstation (r : StationRec) : station (setCrossingMark z none (setStation z r s)) z = r := station_setStation z r s
  rw [endCrossing_eq, modStation_eq, hswap, setStation_setStation, hstation]
  rfl

theorem crossingMark_crossingEnded (z : Station) (b : Nat) (r : BinRec) (s : State) :
    crossingMark (crossingEnded z b r s) z = none :=
  crossingMark_setCrossingMark z none (setStation z (station s z).crossed s)

theorem bin_crossingEnded_ne {b m : Nat} (h : m ≠ b) : bin (crossingEnded z b r s) m = bin s m :=
  (bin_setBin b m r (setCrossingMark z none (setStation z (station s z).crossed s))).trans (if_neg h)

theorem visit_setVisit_ne {m : Nat} (h : m ≠ n) (w : VisitRec) (t : State) : visit (setVisit n w t) m = visit t m :=
  (visit_setVisit ..).trans (if_neg h)

variable (hb : bin s x.bin = some r) (hn : r.openVisit = some n) (hv : visit s n = some v)
include hb

theorem crossingArrives_bin {f : BinRec → BinRec} :
    modBin x.bin f (setCrossingMark z none (setStation z (station s z).crossed s)) = crossingEnded z x.bin (f r) s :=
  modBin_of_some (s := setCrossingMark z none (setStation z (station s z).crossed s)) hb

include hn hv

theorem crossingArrives_present (hk : x.kind = .present) : crossingArrives z x s =
    { setStation z { (station s z).crossed with face := some ⟨x.bin, n⟩, faceTimer := some (1000 * param s 31) }
        (setVisit n { v with state := .atFace } (crossingEnded z x.bin { r with location := .face z } s)) with
      sent := s.sent ++ if stationPresent s z = true ∧ zoneClosed s z = false then showsOf z v.tasks else [] } := by
  let u := crossingEnded z x.bin { r with location := .face z } s
  let w := setVisit n { v with state := .atFace } u
  have hbind : (bin s x.bin).bind (·.openVisit) = some n := by rw [hb]; exact hn
  have hstation : station w z = (station s z).crossed := station_setStation z _ s
  have harrives : crossingArrives z x s = arriveAtFace z x.bin n u := by
    simp only [crossingArrives, hk, hbind]
    rw [crossing_ends, crossingArrives_bin hb]
  calc crossingArrives z x s
    _ = startFaceTimer z (showPending z 0 v.tasks (modStation z (fun r => { r with face := some ⟨x.bin, n⟩ }) w)) := by
      rw [harrives, arriveAtFace_eq (s := u) hv, setVisit_modStation]
    _ = { startFaceTimer z (modStation z (fun r => { r with face := some ⟨x.bin, n⟩ }) w) with
          sent := s.sent ++ if stationPresent s z = true ∧ zoneClosed s z = false then showsOf z v.tasks else [] } := by
      rw [showPending_zero]
      rfl
    _ = _ := by rw [startFaceTimer_modStation, hstation]; rfl

theorem crossingArrives_withdraw (hk : x.kind = .withdraw) : crossingArrives z x s =
    setVisit n { v with state := .atOutbound }
      (setStation z { (station s z).crossed with face := none, outbound := some x.bin }
        (crossingEnded z x.bin { r with location := .outbound z } s)) := by
  let u := crossingEnded z x.bin { r with location := .outbound z } s
  have hstation : station u z = (station s z).crossed := station_setStation z _ s
  have harrives : crossingArrives z x s = setVisitState x.bin .atOutbound
      (setStation z { station u z with face := none, outbound := some x.bin } u) := by
    simp only [crossingArrives, hk]
    rw [crossing_ends, crossingArrives_bin hb]
    rfl
  have hbind (q : StationRec) : (bin (setStation z q u) x.bin).bind (·.openVisit) = some n := by
    have hbin : bin (setStation z q u) x.bin = some { r with location := .outbound z } := bin_setBin_self ..
    rw [hbin]
    exact hn
  have hvisit (q : StationRec) : visit (setStation z q u) n = some v := hv
  rw [harrives, setVisitState, hbind, hstation]
  exact modVisit_of_some _ (hvisit _)

end

/-! ### The shutter reaches OPEN (R128, R131, R132) -/

section
variable {z y : Station} {s : State} {n : Nat} {v : VisitRec}

theorem setZone_self (z : Station) (s : State) : setZone z (zone s z) s = s := by
  simp [setZone, zone, Vector.get_eq_getElem]

/-- The station record once the open limit has ended its travel. -/
def StationRec.opened (r : StationRec) : StationRec :=
  { r with
    shutter := .open, travelTimer := none, reopenOrdered := false, reopenCommand := false
    jammed := r.jammed && !r.reopenCommand, reopenFault := r.reopenFault && !r.reopenCommand }

/-- The zone record with a station's report, kept in RECOVERY alone. -/
def ZoneRec.reported (r : ZoneRec) (ordered : Bool) (rep : ReopenReport) : ZoneRec :=
  if ordered = true ∧ r.state = .recovery then { r with reopenReport := rep } else r

theorem reportReopen_eq (z : Station) (rep : ReopenReport) (ordered : Bool) (s : State) :
    (if ordered then reportReopen z rep s else s) = setZone z ((zone s z).reported ordered rep) s := by
  cases ordered with
  | false => exact (setZone_self z s).symm
  | true =>
    unfold reportReopen ZoneRec.reported
    by_cases hr : (zone s z).state = .recovery
    · simp only [hr, and_self, if_true]
    · simp only [hr, and_false, if_false, if_true]
      exact (setZone_self z s).symm

theorem shutterOpens_eq (z : Station) (s : State) :
    let u := setStation z (station s z).opened (setZone z ((zone s z).reported (station s z).reopenOrdered .open) s)
    shutterOpens z s = if (station s z).reopenCommand then
      setAttention (9 + z.val) (liftHoldWhere .stationOut (fun _ v => ofZone s z v) u) else u := by
  intro u
  have hswap (q : StationRec) (r : ZoneRec) (t : State) :
      setZone z r (setStation z q t) = setStation z q (setZone z r t) := rfl
  have hlift (q r : StationRec) (t : State) : setStation z r (setStation z q t) = setStation z r t :=
    setStation_setStation z r q t
  simp only [shutterOpens, reportReopen_eq, modStation_eq, hswap]
  cases hcommand : (station s z).reopenCommand with
  | false =>
    have hrec : (station s z).opened = { station s z with
        shutter := .open, travelTimer := none, reopenOrdered := false, reopenCommand := false } := by
      simp only [StationRec.opened, hcommand, Bool.not_false, Bool.and_true]
    simp only [u, hrec]
    rfl
  | true =>
    have hrec : (station s z).opened = { station s z with
        shutter := .open, travelTimer := none, reopenOrdered := false, reopenCommand := false
        jammed := false, reopenFault := false } := by
      simp only [StationRec.opened, hcommand, Bool.not_true, Bool.and_false]
    simp only [u, hrec, leaveOut, modStation_eq, station_setStation, hlift]
    rfl

theorem station_shutterOpens (z : Station) (s : State) : station (shutterOpens z s) z = (station s z).opened := by
  rw [shutterOpens_eq]
  split
  · exact station_setStation z _ (setZone z _ s)
  · exact station_setStation z _ (setZone z _ s)

theorem station_shutterOpens_ne (h : y ≠ z) : station (shutterOpens z s) y = station s y := by
  rw [shutterOpens_eq]
  split
  · exact station_setStation_ne h _ (setZone z _ s)
  · exact station_setStation_ne h _ (setZone z _ s)

theorem zone_shutterOpens (z : Station) (s : State) :
    zone (shutterOpens z s) z = (zone s z).reported (station s z).reopenOrdered .open := by
  rw [shutterOpens_eq]
  split
  · exact zone_setZone z _ s
  · exact zone_setZone z _ s

theorem zone_shutterOpens_ne (h : y ≠ z) : zone (shutterOpens z s) y = zone s y := by
  rw [shutterOpens_eq]
  split
  · exact zone_setZone_ne h _ s
  · exact zone_setZone_ne h _ s

theorem shutterOpens_keeps (z : Station) (s : State) : { shutterOpens z s with
    stations := s.stations, zones := s.zones, link := s.link, visits := s.visits } = s := by
  rw [shutterOpens_eq]
  split <;> rfl

/-- An open visit of the zone's bins once STATION_OUT is lifted from it (R33). -/
theorem visit_liftStationOut (s : State) (hv : visit s n = some v) :
    let w := if v.outcome = none ∧ (binAisle s v.bin).map zoneOf = some z then
      v.withHold s.bins { v.hold with stationOut := false } else v
    visit (liftHoldWhere .stationOut (fun _ v => ofZone s z v) s) n = some w := by
  intro w
  rw [visit_liftHoldWhere, hv, Option.map_some, liftedVisit_eq]
  simp only [ofZone, beq_iff_eq]
  rfl

theorem visit_shutterOpens (hc : (station s z).reopenCommand = true) (n : Nat) :
    visit (shutterOpens z s) n = visit (liftHoldWhere .stationOut (fun _ v => ofZone s z v) s) n := by
  rw [shutterOpens_eq, if_pos hc]
  rfl

/-- What the lifted STATION_OUT leaves of a visit that carries it. -/
theorem withHold_stationOut (v : VisitRec) (s : State) (h : v.hold.stationOut = true) :
    let w := v.withHold s.bins { v.hold with stationOut := false }
    w = { v with state := w.state, hold := { v.hold with stationOut := false } } ∧
    w.state = if w.hold = HoldSet.none then matchState v.state (binLocation s v.bin) else v.state := by
  intro w
  refine ⟨rfl, ?_⟩
  have hne : ({ v.hold with stationOut := false } : HoldSet) ≠ v.hold := fun e => by
    have hout := congrArg HoldSet.stationOut e
    rw [h] at hout
    cases hout
  simp only [w, VisitRec.withHold, hne, false_or, ne_eq, ite_not]
  rfl

theorem withHold_stationIn (v : VisitRec) (bins : Table BinRec) (h : v.hold.stationOut = false) :
    v.withHold bins { v.hold with stationOut := false } = v := by
  have hself : ({ v.hold with stationOut := false } : HoldSet) = v.hold := by rw [← h]
  rw [hself, VisitRec.withHold_self]

end

/-! ### The sensors (R122, R128) -/

section
variable {z : Station} {s : State} {level : StationRec → StationRec} {act : State → State}

theorem onSensor_takes (hr : inReset s = false) (hp : stationPresent s z = true) :
    onSensor z level act s = settleZone s z (watchSensors z (act (setStation z (level (station s z)) s))) := by
  simp only [onSensor, hr, hp, Bool.not_true, Bool.or_self, Bool.false_eq_true, if_false]
  rfl

theorem watchSensors_eq (z : Station) (s : State) : watchSensors z s =
    setStation z { station s z with lineTest := (station s z).lineTest.map (·.seen (station s z)) } s := rfl

/-- A sensor row of a present station, with what its level makes of the station. -/
theorem onSensor_answers {u : State} (hr : inReset s = false) (hp : stationPresent s z = true)
    (hu : u = act (setStation z (level (station s z)) s)) :
    Settles s z (watchSensors z u) (onSensor z level act s) := by
  rw [onSensor_takes hr hp, ← hu]
  exact settles_settleZone ..

theorem takeBeamClear_arrives {x : CrossingRec} (hx : (station s z).crossing = some x) (hb : x.beamSeen = true) :
    takeBeamClear z s = crossingArrives z x s := by
  simp only [takeBeamClear, hx, hb, if_true]

theorem takeBeamClear_level (h : ∀ x, (station s z).crossing = some x → x.beamSeen = false) : takeBeamClear z s = s := by
  cases hx : (station s z).crossing with
  | none => simp only [takeBeamClear, hx]
  | some x => simp only [takeBeamClear, hx, h x hx, Bool.false_eq_true, if_false]

theorem shutterFault_eq (z : Station) (s : State) :
    shutterFault z s = setAttention (9 + z.val) (setStation z { station s z with shutterFault := true } s) := rfl

end

/-- Settles O46. -/
theorem sensorsActAndCrossingsArrive : Obligations.SensorsActAndCrossingsArrive := by
  refine ⟨?sensors, ?opens, ?arrives⟩
  case sensors =>
    rintro z s r hr hp rfl watched answered
    have hgo {c : Instr} {u : State} {level : StationRec → StationRec} {act : State → State}
        (hexec : exec c s = .next (onSensor z level act s)) (hu : u = act (setStation z (level (station s z)) s)) :
        answered c u := ⟨_, onSensor_answers hr hp hu, hexec⟩
    refine ⟨hgo rfl ?_, fun h => hgo rfl ?_, fun x hx hb => hgo rfl ?_, hgo rfl ?_, hgo rfl ?_, hgo rfl ?_, hgo rfl rfl⟩
    · rw [takeBeamBlocked, modStation_eq, station_setStation, setStation_setStation]
    · exact (takeBeamClear_level (by rw [station_setStation]; exact h)).symm
    · exact (takeBeamClear_arrives (by rw [station_setStation]; exact hx) hb).symm
    · unfold takeOpenAsserted
      rw [station_setStation]
      cases (station s z).shutter <;>
        simp only [shutterFault_eq, station_setStation, setStation_setStation]
    · unfold takeOpenReleased
      rw [station_setStation, shutterFault_eq, station_setStation, setStation_setStation]
    · unfold takeClosedAsserted
      rw [station_setStation]
      cases (station s z).shutter <;>
        simp only [shutterFault_eq, modStation_eq, station_setStation, setStation_setStation]
  case opens =>
    rintro z s t r rfl rfl
    refine ⟨station_shutterOpens z s, fun y hy => ⟨station_shutterOpens_ne hy, zone_shutterOpens_ne hy⟩,
      zone_shutterOpens z s, fun hc => ?_, fun hc => ⟨?_, fun n hv => ?_, fun n v hv => ?_⟩, shutterOpens_keeps z s⟩
    · rw [shutterOpens_eq, hc]
      exact ⟨rfl, rfl⟩
    · rw [shutterOpens_eq, hc]
      rfl
    · rw [visit_shutterOpens hc, visit_liftHoldWhere, hv, Option.map_none]
    · intro held
      rw [visit_shutterOpens hc, visit_liftStationOut s hv]
      refine ⟨fun hn => ?_, fun ⟨ho, hz, hout⟩ => ?_⟩
      · by_cases hsel : v.outcome = none ∧ (binAisle s v.bin).map zoneOf = some z
        · rw [if_pos hsel, withHold_stationIn v s.bins (Bool.eq_false_iff.mpr fun hout => hn ⟨hsel.1, hsel.2, hout⟩)]
        · rw [if_neg hsel]
      · rw [if_pos ⟨ho, hz⟩]
        exact ⟨_, rfl, withHold_stationOut v s hout⟩
  case arrives =>
    rintro z x s t r n v hb hn hv rfl
    cases hk : x.kind with
    | present =>
      rw [crossingArrives_present hb hn hv hk]
      let q : BinRec := { r with location := .face z }
      have hstation := station_setStation z
        { (station s z).crossed with face := some ⟨x.bin, n⟩, faceTimer := some (1000 * param s 31) }
        (setVisit n { v with state := .atFace } (crossingEnded z x.bin q s))
      exact ⟨(congrArg StationRec.crossing hstation :), crossingMark_crossingEnded z x.bin q s,
        (congrArg StationRec.openingBin hstation :),
        fun _ => ⟨bin_setBin_self .., visit_setVisit_same .., (congrArg StationRec.face hstation :),
          (congrArg StationRec.faceTimer hstation :), rfl⟩,
        nofun, fun b hne => bin_crossingEnded_ne (r := q) hne, fun m hne => visit_setVisit_ne hne ..,
        List.prefix_append ..⟩
    | withdraw =>
      rw [crossingArrives_withdraw hb hn hv hk]
      let q : BinRec := { r with location := .outbound z }
      have hstation := station_setStation z { (station s z).crossed with face := none, outbound := some x.bin }
        (crossingEnded z x.bin q s)
      exact ⟨(congrArg StationRec.crossing hstation :), crossingMark_crossingEnded z x.bin q s,
        (congrArg StationRec.openingBin hstation :), nofun,
        fun _ => ⟨bin_setBin_self .., visit_setVisit_same .., (congrArg StationRec.face hstation :),
          (congrArg StationRec.outbound hstation :), rfl⟩,
        fun b hne => bin_crossingEnded_ne (r := q) hne, fun m hne => visit_setVisit_ne hne .., List.prefix_refl _⟩

end Sys2Proof.Machine

/-! The Line Test (R136, R167). -/

namespace Sys2Proof.Machine

/-! ### What the test sees of a station -/

/-- The sensors, the shutter and the test of a station. -/
def StationRec.view (r : StationRec) : Bool × Bool × Bool × Shutter × Option LineTestRec :=
  (r.beam, r.openLimit, r.closedLimit, r.shutter, r.lineTest)

section
variable {z : Station} {s t u : State} {x : LineTestRec} {r : StationRec}

theorem view_modStation {f : StationRec → StationRec} (hf : ∀ r, (f r).view = r.view) (s : State) :
    (station (modStation z f s) z).view = (station s z).view := by
  rw [modStation_eq, station_setStation, hf]

theorem view_congr (h : t.stations = s.stations) : (station t z).view = (station s z).view := by
  rw [station_congr h]

theorem view_arriveAtFace (z : Station) (b n : Nat) (s : State) :
    (station (arriveAtFace z b n s) z).view = (station s z).view := by
  have htimer (t : State) : (station (startFaceTimer z t) z).view = (station t z).view := view_modStation (fun _ => by rfl) t
  have hshow (ts : List TaskRec) (t : State) : (showPending z 0 ts t).stations = t.stations := by
    rw [showPending_zero]
  have hface : (station (modVisit n (fun v => { v with state := .atFace })
      (modStation z (fun r => { r with face := some ⟨b, n⟩ }) s)) z).view = (station s z).view :=
    (view_congr (modVisit_stations ..)).trans (view_modStation (fun _ => by rfl) s)
  unfold arriveAtFace
  dsimp only
  rw [htimer]
  split
  · rw [view_congr (hshow ..), hface]
  · exact hface

/-- An arrival changes nothing that the test watches. -/
theorem view_crossingArrives (z : Station) (c : CrossingRec) (s : State) :
    (station (crossingArrives z c s) z).view = (station s z).view := by
  have hends : (station (modStation z (fun r => { r with openingBin := none }) (endCrossing z s)) z).view =
      (station s z).view := by
    have hrec := station_setStation z (station s z).crossed s
    rw [crossing_ends]
    exact (congrArg StationRec.view hrec :)
  unfold crossingArrives
  cases c.kind
  · dsimp only
    split
    · rw [view_arriveAtFace, view_congr (modBin_stations ..), hends]
    · rw [view_congr (modBin_stations ..), hends]
  · have hvisit (b : Nat) (st : VisitState) (t : State) : (setVisitState b st t).stations = t.stations := by
      unfold setVisitState
      split
      · exact modVisit_stations ..
      · rfl
    dsimp only
    rw [view_congr (hvisit ..), view_modStation (fun _ => by rfl), view_congr (modBin_stations ..), hends]

/-- A running test takes in what the sensors show once a row has acted, and nothing else of it changes (R136). -/
theorem watched_of_settles (h : Settles s z (watchSensors z u) t) (hv : (station u z).view = r.view)
    (hx : r.lineTest = some x) : (station t z).beam = r.beam ∧ (station t z).openLimit = r.openLimit ∧
      (station t z).closedLimit = r.closedLimit ∧ (station t z).lineTest = some (x.seen r) := by
  have hdesk : (station t z).desk = (station (watchSensors z u) z).desk := h.2.desk z
  rw [watchSensors_eq, station_setStation] at hdesk
  simp only [StationRec.view, Prod.mk.injEq] at hv
  obtain ⟨hbeam, hopen, hclosed, hshutter, htest⟩ := hv
  have hseen : (station u z).lineTest.map (·.seen (station u z)) = some (x.seen r) := by
    simp only [htest, hx, Option.map_some, LineTestRec.seen, hbeam, hopen, hclosed, hshutter]
  exact ⟨(congrArg StationRec.beam hdesk).trans hbeam, (congrArg StationRec.openLimit hdesk).trans hopen,
    (congrArg StationRec.closedLimit hdesk).trans hclosed, (congrArg StationRec.lineTest hdesk).trans hseen⟩

/-! ### What each sensor row leaves of the view -/

theorem view_takeBeamClear (z : Station) (s : State) : (station (takeBeamClear z s) z).view = (station s z).view := by
  unfold takeBeamClear
  split
  · split
    · exact view_crossingArrives ..
    · rfl
  · rfl

theorem view_shutterFault (z : Station) (s : State) : (station (shutterFault z s) z).view = (station s z).view :=
  view_modStation (f := fun r => { r with shutterFault := true }) (fun _ => rfl) s

theorem view_takeOpenReleased (z : Station) (s : State) :
    (station (takeOpenReleased z s) z).view = (station s z).view := by
  unfold takeOpenReleased
  split
  · exact view_shutterFault z s
  · rfl

theorem view_takeOpenAsserted (z : Station) (s : State) : (station (takeOpenAsserted z s) z).view =
    { station s z with
      shutter := if (station s z).shutter = .opening then .open else (station s z).shutter : StationRec }.view := by
  unfold takeOpenAsserted
  cases hst : (station s z).shutter
  case opening =>
    dsimp only
    rw [station_shutterOpens]
    rfl
  case closing | closed =>
    dsimp only
    rw [view_shutterFault]
    simp [StationRec.view, hst]
  · simp [StationRec.view, hst]

theorem view_takeClosedAsserted (z : Station) (s : State) : (station (takeClosedAsserted z s) z).view =
    { station s z with
      shutter := if (station s z).shutter = .closing then .closed else (station s z).shutter : StationRec }.view := by
  unfold takeClosedAsserted
  cases hst : (station s z).shutter
  case closing =>
    dsimp only
    rw [modStation_eq, station_setStation]
    rfl
  case closed => simp [StationRec.view, hst]
  all_goals
    dsimp only
    rw [view_shutterFault]
    simp [StationRec.view, hst]

end

/-! ### The command and its halves -/

section
variable {z : Station} {s : State} {x : LineTestRec} {p : List Byte}

theorem binInOpening_none_iff (s : State) (z : Station) : binInOpening s z = none ↔
    ∀ b, (station s z).openingBin = some b → binLocation s b ≠ some (.opening z) := by
  simp [binInOpening, Option.filter_eq_none_iff]

theorem mayTest_iff (s : State) (z : Station) : mayTest s z = true ↔ (station s z).lane = [] ∧ (station s z).face = none ∧
    (station s z).crossing = none ∧ (station s z).resv0 = 0 ∧ (station s z).resv1 = 0 ∧
    (∀ b, (station s z).openingBin = some b → binLocation s b ≠ some (.opening z)) ∧
    ((station s z).shutter = .open ∨ (station s z).shutter = .closed) := by
  simp only [mayTest, Bool.and_eq_true, Bool.or_eq_true, beq_iff_eq, List.isEmpty_iff, Option.isNone_iff_eq_none,
    binInOpening_none_iff]
  constructor
  · rintro ⟨⟨⟨⟨⟨⟨hlane, hface⟩, hopening⟩, hcrossing⟩, h0⟩, h1⟩, hshutter⟩
    exact ⟨hlane, hface, hcrossing, h0, h1, hopening, hshutter⟩
  · rintro ⟨hlane, hface, hcrossing, h0, h1, hopening, hshutter⟩
    exact ⟨⟨⟨⟨⟨⟨hlane, hface⟩, hopening⟩, hcrossing⟩, h0⟩, h1⟩, hshutter⟩

theorem runLineTest_waits (hz : stationOf (byteAt p 0) = some z) (hp : stationPresent s z = true) (ht : mayTest s z = true) :
    runLineTest p s = .wait (setStation z { station s z with lineTest := some (.start (station s z)) } s) :=
  (withStation_present hz hp).trans (refuseIf_passes (by rw [ht]; rfl))

theorem runLineTest_refuses (hz : stationOf (byteAt p 0) = some z) (hp : stationPresent s z = true) (ht : mayTest s z = false) :
    runLineTest p s = .refuse .state [] :=
  (withStation_present hz hp).trans (refuseIf_refuses (by rw [ht]; rfl))

theorem driveLine_eq (low : Bool) (hx : (station s z).lineTest = some x) : driveLine z low s =
    if x.driven = false ∧ 125 ≤ x.elapsed then
      setStation z { station s z with lineTest := some { x with driven := true, lowBefore := low } } s else s := by
  simp only [driveLine, hx]
  rfl

theorem sendRepeats_eq (hp : stationPresent s z = true) (n : Nat) :
    sendRepeats z n s = { s with sent := s.sent ++ List.replicate n (.panel z .repeat) } := by
  induction n generalizing s with
  | zero => simp [sendRepeats]
  | succ n ih =>
    have hsend : sendPanel z .repeat s = { s with sent := s.sent ++ [.panel z .repeat] } :=
      sendPanel_present hp ⟨fun h => by simp at h, fun h => by simp at h⟩
    rw [sendRepeats, ih (s := sendPanel z .repeat s) hp, hsend]
    simp only [List.append_assoc, List.singleton_append, List.replicate_succ]

theorem sendRepeats_absent (hp : stationPresent s z = false) (n : Nat) : sendRepeats z n s = s := by
  induction n generalizing s with
  | zero => rfl
  | succ n ih =>
    have hsend : sendPanel z .repeat s = s := by simp [sendPanel, panelSends, hp]
    rw [sendRepeats, hsend, ih hp]

/-- What the panel is sent at the end of a test, if its link is live. -/
theorem testAnswers_eq (z : Station) (n : Nat) (s : State) :
    (if zoneClosed s z then s else sendPanel z .clear (sendRepeats z n s)) =
      { s with sent := s.sent ++ if stationPresent s z = true ∧ zoneClosed s z = false then
          List.replicate n (.panel z .repeat) ++ [.panel z .clear] else [] } := by
  cases hc : zoneClosed s z with
  | true => simp
  | false =>
    rw [if_neg Bool.false_ne_true]
    cases hp : stationPresent s z with
    | true =>
      have hclear (x : List FieldMsg) : sendPanel z .clear { s with sent := x } = { s with sent := x ++ [.panel z .clear] } :=
        sendPanel_live (s := { s with sent := x }) hp hc
      rw [sendRepeats_eq hp, hclear, List.append_assoc]
      rfl
    | false =>
      rw [sendRepeats_absent hp, sendPanel_clear, hp]
      rfl

theorem endLineTest_eq (z : Station) (x : LineTestRec) (s : State) : endLineTest z x s =
    { setStation z { station s z with lineTest := none } s with
      sent := s.sent ++ if stationPresent s z = true ∧ zoneClosed s z = false then
        List.replicate x.messages (.panel z .repeat) ++ [.panel z .clear] else [] } :=
  testAnswers_eq z x.messages (setStation z { station s z with lineTest := none } s)

theorem finishLineTest_early (high : Bool) (hx : (station s z).lineTest = some x) (h : x.driven = false ∨ x.elapsed < 250) :
    finishLineTest z high s = s := by
  simp only [finishLineTest, hx]
  refine if_neg fun ⟨hd, he⟩ => ?_
  obtain h | h := h
  · rw [h] at hd
    cases hd
  · exact Nat.not_le.mpr h he

theorem finishLineTest_ends (high : Bool) (hx : (station s z).lineTest = some x) (hd : x.driven = true)
    (he : 250 ≤ x.elapsed) : finishLineTest z high s =
      writeReply .done (byte (lineTestCode x high)) (settleZone s z (endLineTest z x s)) := by
  simp only [finishLineTest, hx]
  exact if_pos ⟨hd, he⟩

theorem lineTestCode_byte (x : LineTestRec) (high : Bool) : byte (lineTestCode x high) =
    [if x.lowBefore then 1 else if high then 2 else if x.beamWhole then 3 else if x.bothLimits then 4
      else if x.noLimit then 5 else 0] := by
  unfold lineTestCode
  cases x.lowBefore <;> cases high <;> cases x.beamWhole <;> cases x.bothLimits <;> cases x.noLimit <;> rfl

end

/-- Settles O35. -/
theorem lineTestRuns : Obligations.LineTestRuns := by
  refine fun p s z => ⟨fun hs hp hz => ?absent, fun hs hp hz hpres => ⟨fun ht => ?starts, fun ht => ?refused⟩,
    mayTest_iff s z, fun x low hr hx => ?drive, fun x r c hr hpres hx hc => ?sensors, ?ends⟩
  case absent =>
    refine congrArg _ (takeCommand_refuses hs hp (by decide) modeCheck_both ?_)
    cases hz' : stationOf (byteAt p 0) with
    | none => exact withStation_none hz'
    | some y => exact withStation_absent hz' (hz y hz')
  case starts =>
    refine congrArg _ ((takeCommand_waits hs hp (by decide) modeCheck_both
      (runLineTest_waits (s := loadCommand _ s) hz hpres ht)).trans ?_)
    rw [loadCommand_short (by simp [commandBody, hp])]
    rfl
  case refused =>
    exact congrArg _ (takeCommand_refuses hs hp (by decide) modeCheck_both
      (runLineTest_refuses (s := loadCommand _ s) hz hpres ht))
  case drive => exact congrArg _ ((outsideReset_of_not _ hr).trans (driveLine_eq low hx))
  case sensors =>
    have hgo {level : StationRec → StationRec} {act : State → State} (hexec : exec c s = .next (onSensor z level act s))
        (hv : (station (act (setStation z (level (station s z)) s)) z).view = r.view) (ht : r.lineTest = some x) :
        ∃ t, exec c s = .next t ∧ (station t z).beam = r.beam ∧ (station t z).openLimit = r.openLimit ∧
          (station t z).closedLimit = r.closedLimit ∧ (station t z).lineTest = some (x.seen r) :=
      ⟨_, hexec, watched_of_settles (onSensor_answers hr hpres rfl) hv ht⟩
    have hstation (q : StationRec) : station (setStation z q s) z = q := station_setStation z q s
    obtain ⟨rfl, rfl⟩ | ⟨rfl, rfl⟩ | ⟨rfl, rfl⟩ | ⟨rfl, rfl⟩ | ⟨rfl, rfl⟩ | ⟨rfl, rfl⟩ := hc
    · exact hgo rfl ((view_modStation (fun _ => by rfl) _).trans (by rw [hstation])) hx
    · exact hgo rfl ((view_takeBeamClear ..).trans (by rw [hstation])) hx
    · exact hgo rfl ((view_takeOpenAsserted ..).trans (by rw [hstation])) hx
    · exact hgo rfl ((view_takeOpenReleased ..).trans (by rw [hstation])) hx
    · exact hgo rfl ((view_takeClosedAsserted ..).trans (by rw [hstation])) hx
    · exact hgo (act := takeClosedReleased) rfl (by rw [takeClosedReleased, hstation]) hx
  case ends =>
    rintro x high u hr hx rfl
    refine ⟨fun h => congrArg _ ((outsideReset_of_not _ hr).trans (finishLineTest_early high hx h)), fun hd he => ?_⟩
    refine ⟨_, settles_settleZone s z _, congrArg _ ((outsideReset_of_not _ hr).trans ?_)⟩
    rw [finishLineTest_ends high hx hd he, endLineTest_eq, lineTestCode_byte]

end Sys2Proof.Machine

/-! The timers of a station: the crossing, the face, the shutter's travel and the forced close (R126 to R132, R145). -/

namespace Sys2Proof.Machine

/-! ### The visits at a station that goes OUT (R32) -/

section
variable {z y : Station} {s : State} {n b : Nat} {r : BinRec} {x : CrossingRec}

theorem atStation_iff (st : VisitState) : st.atStation = true ↔
    st = .inLane ∨ st = .presenting ∨ st = .atFace ∨ st = .withdrawing := by
  cases st <;> decide

/-- The visits that a station going OUT holds, each as it stands then. -/
theorem visit_holdOut (z : Station) (s : State) (n : Nat) : visit (holdOut z s) n = (visit s n).map fun v =>
    if v.outcome = none ∧ (binAisle s v.bin).map zoneOf = some z ∧
        (v.state = .inLane ∨ v.state = .presenting ∨ v.state = .atFace ∨ v.state = .withdrawing) then
      { v with hold := { v.hold with stationOut := true } } else v := by
  rw [holdOut, visit_addHoldWhere]
  simp only [ofZone, Bool.and_eq_true, beq_iff_eq, atStation_iff]
  rfl

/-! ### A crossing that is jammed (R126) -/

/-- The state of a jammed station before its visits are held. -/
def jammed (z : Station) (b : Nat) (s : State) : State :=
  modBin b (fun r => { r with obstructed := true }) (setCrossingMark z none
    (setStation z { station s z with crossing := none, jammed := true }
      { s with sent := s.sent ++ if stationPresent s z then [.panel z (.transfer .halt)] else [] }))

theorem sendPanel_transfer (z : Station) (k : Transfer) (s : State) : sendPanel z (.transfer k) s =
    { s with sent := s.sent ++ if stationPresent s z then [.panel z (.transfer k)] else [] } := by
  cases hp : stationPresent s z <;> simp [sendPanel, panelSends, hp]

theorem modBin_setStation (z : Station) (q : StationRec) (b : Nat) (f : BinRec → BinRec) (s : State) :
    modBin b f (setStation z q s) = setStation z q (modBin b f s) := by
  rw [modBin_eq, modBin_eq]
  rfl

theorem jamCrossing_eq (z : Station) (x : CrossingRec) (s : State) :
    jamCrossing z x s = setAttention (9 + z.val) (holdOut z (jammed z x.bin s)) := by
  let t : State := { s with sent := s.sent ++ if stationPresent s z then [.panel z (.transfer .halt)] else [] }
  have hends : modStation z (fun r => { r with jammed := true }) (markObstructed x.bin (endCrossing z t)) =
      jammed z x.bin s := by
    have hstation : station (markObstructed x.bin (endCrossing z t)) z = { station s z with crossing := none } := by
      rw [markObstructed, station_congr (modBin_stations ..)]
      exact station_setStation z _ t
    rw [modStation_eq, hstation, markObstructed, ← modBin_setStation, endCrossing_eq]
    exact congrArg (fun u => modBin x.bin (fun r => { r with obstructed := true }) (setCrossingMark z none u))
      (setStation_setStation z _ _ t)
  rw [jamCrossing, sendPanel_transfer]
  exact congrArg (fun u => setAttention (9 + z.val) (holdOut z u)) hends

theorem jammed_keeps (z : Station) (b : Nat) (s : State) : { jammed z b s with
    stations := s.stations, crossingMarks := s.crossingMarks, bins := s.bins, sent := s.sent } = s := by
  unfold jammed
  rw [modBin_eq]
  rfl

theorem station_jammed (z : Station) (b : Nat) (s : State) :
    station (jammed z b s) z = { station s z with crossing := none, jammed := true } := by
  rw [jammed, station_congr (modBin_stations ..)]
  exact station_setStation z _ _

theorem station_jammed_ne (h : y ≠ z) : station (jammed z b s) y = station s y := by
  rw [jammed, station_congr (modBin_stations ..)]
  exact station_setStation_ne h _ _

theorem crossingMark_jammed (z : Station) (b : Nat) (s : State) : crossingMark (jammed z b s) z = none := by
  rw [jammed, crossingMark_congr (modBin_crossingMarks ..)]
  exact crossingMark_setCrossingMark ..

theorem sent_jammed (z : Station) (b : Nat) (s : State) : (jammed z b s).sent =
    s.sent ++ if stationPresent s z then [.panel z (.transfer .halt)] else [] := by
  rw [jammed, modBin_eq]
  rfl

theorem bin_jammed (hb : bin s b = some r) : bin (jammed z b s) b = some { r with obstructed := true } := by
  rw [jammed, bin_modBin, if_pos rfl]
  exact congrArg (Option.map _) hb

theorem bin_jammed_ne {m : Nat} (h : m ≠ b) : bin (jammed z b s) m = bin s m := by
  rw [jammed, bin_modBin, if_neg h]
  rfl

theorem binAisle_jammed (z : Station) (b m : Nat) (s : State) : binAisle (jammed z b s) m = binAisle s m :=
  binAisle_modBin b (fun _ => by rfl) _ m

theorem visit_jammed (z : Station) (b : Nat) (s : State) (n : Nat) : visit (jammed z b s) n = visit s n :=
  visit_congr (modBin_visits ..) n

/-! ### A travel towards OPEN that fails (R128, R131, R132) -/

theorem reopenFails_eq (z : Station) (s : State) : reopenFails z s =
    setZone z ((zone s z).reported (station s z).reopenOrdered .reopenFault) (setAttention (9 + z.val) (holdOut z
      (setStation z { station s z with
        holdOpen := false, shutter := .closed, travelTimer := none, reopenOrdered := false, reopenCommand := false
        reopenFault := true, jammed := (station s z).jammed && !(station s z).reopenCommand } s))) :=
  reportReopen_eq z .reopenFault (station s z).reopenOrdered (setAttention (9 + z.val) (holdOut z
    (setStation z { station s z with
      holdOpen := false, shutter := .closed, travelTimer := none, reopenOrdered := false, reopenCommand := false
      reopenFault := true, jammed := (station s z).jammed && !(station s z).reopenCommand } s)))

end

theorem setStation_self (z : Station) (s : State) : setStation z (station s z) s = s := by
  simp [setStation, station, Vector.get_eq_getElem]

/-! ### The forced close order (R130) -/

section
variable {z y : Station} {s : State} {n b : Nat} {r : BinRec} {x : CrossingRec} {v : VisitRec}

/-- A bin caught in the opening. -/
def BinRec.caught (r : BinRec) : BinRec := { r with obstructed := true, uncertain := true }

theorem bin_markCaught (b m : Nat) (s : State) :
    bin (markCaught b s) m = (bin s m).map fun r => if m = b then r.caught else r := by
  rw [markCaught, markObstructed, markUncertain, bin_modBin, bin_modBin, bin_modBin]
  by_cases h : m = b
  · subst h
    simp only [if_true, Option.map_map]
    rfl
  · simp [h]

theorem markCaught_keeps (b : Nat) (s : State) : { markCaught b s with bins := s.bins } = s := by
  rw [markCaught, markObstructed, markUncertain, modBin_eq, modBin_eq]

/-- A crossing halted by the forced close order: its bin is caught and its visit held with FIRE. -/
def crossingHalted (z : Station) (b : Nat) (s : State) : State :=
  holdBinVisit .fire b (markCaught b (endCrossing z (sendPanel z (.transfer .halt) s)))

theorem holdBinVisit_keeps (h : HoldReason) (b : Nat) (s : State) : { holdBinVisit h b s with visits := s.visits } = s := by
  unfold holdBinVisit
  split <;> rfl

theorem crossingHalted_keeps (hp : stationPresent s z = true) (b : Nat) :
    { crossingHalted z b s with bins := s.bins, visits := s.visits } =
      { setCrossingMark z none (setStation z { station s z with crossing := none } s) with
        sent := s.sent ++ [.panel z (.transfer .halt)] } := by
  let t := endCrossing z (sendPanel z (.transfer .halt) s)
  let u := markCaught b t
  calc { crossingHalted z b s with bins := s.bins, visits := s.visits }
    _ = { ({ holdBinVisit .fire b u with visits := u.visits } : State) with bins := s.bins, visits := s.visits } := rfl
    _ = { ({ markCaught b t with bins := t.bins } : State) with bins := s.bins, visits := s.visits } := by
      rw [holdBinVisit_keeps]
    _ = { t with bins := s.bins, visits := s.visits } := by rw [markCaught_keeps]
    _ = _ := by
      simp only [t, sendPanel_transfer, hp, if_true]
      rfl

theorem bin_crossingHalted (z : Station) (b m : Nat) (s : State) :
    bin (crossingHalted z b s) m = (bin s m).map fun r => if m = b then r.caught else r :=
  (bin_congr (congrArg State.bins (holdBinVisit_keeps ..) :) m).trans (bin_markCaught b m _)

/-- The visit of the crossing's bin is held with FIRE if it is open (R31, R145). -/
theorem visit_crossingHalted (hv : visit s n = some v) : visit (crossingHalted z b s) n =
    some (if v.outcome = none ∧ (∃ r, bin s b = some r ∧ r.openVisit = some n) then
      { v with hold := { v.hold with fire := true } } else v) := by
  let t := markCaught b (endCrossing z (sendPanel z (.transfer .halt) s))
  have htv (m : Nat) : visit t m = visit s m :=
    visit_congr (congrArg State.visits (markCaught_keeps b (endCrossing z (sendPanel z (.transfer .halt) s))) :) m
  have htb : bin t b = (bin s b).map BinRec.caught := by
    refine (bin_markCaught b b _).trans ?_
    simp only [if_true]
    rfl
  change visit (holdBinVisit .fire b t) n = _
  unfold holdBinVisit
  cases hb : bin s b with
  | none =>
    rw [htb, hb]
    simp [htv, hv]
  | some r =>
    rw [htb, hb]
    cases ho : r.openVisit with
    | none => simp [BinRec.caught, ho, htv, hv]
    | some m =>
      have hm : ((some r).map BinRec.caught).bind (·.openVisit) = some m := ho
      rw [hm]
      dsimp only
      rw [visit_addHold, htv, hv]
      simp only [Option.map_some, Option.some.injEq, exists_eq_left', ho, eq_comm (a := n)]
      rfl

/-- A bin that blocks the beam in the opening is caught there. -/
def blockingCaught (o : Option Nat) (s : State) : State :=
  match o with
  | some b => markCaught b s
  | none => s

theorem blockingCaught_keeps (o : Option Nat) (s : State) : { blockingCaught o s with bins := s.bins } = s := by
  cases o with
  | none => rfl
  | some b => exact markCaught_keeps b s

theorem bin_blockingCaught (o : Option Nat) (m : Nat) (s : State) :
    bin (blockingCaught o s) m = (bin s m).map fun r => if o = some m then r.caught else r := by
  cases o with
  | none => simp [blockingCaught]
  | some b =>
    rw [blockingCaught, bin_markCaught]
    simp only [Option.some.injEq, eq_comm (a := m)]

/-- The close of the forced close order. -/
def closeForced (z : Station) (s : State) : State :=
  stationAttention z (modStation z (fun r => { r with forced := true }) (reportReleased z (releaseShutter z s)))

theorem closeForced_eq (z : Station) (s : State) : closeForced z s = setAttention (9 + z.val) (setStation z { station s z with
      holdOpen := false, shutter := .closing, travelTimer := some (1000 * param s 32), reopenOrdered := false
      reopenCommand := false, forced := true }
    (setZone z { zone s z with released := true, holdTimer := none } s)) := by
  have hstation (q : StationRec) (r : ZoneRec) : station (setZone z r (setStation z q s)) z = q := station_setStation z q s
  have hswap (q p : StationRec) (r : ZoneRec) : setStation z p (setZone z r (setStation z q s)) =
      setStation z p (setZone z r s) := setStation_setStation z p q (setZone z r s)
  rw [closeForced, releaseShutter, modStation_eq, reportReleased, modStation_eq, hstation, hswap]
  rfl

/-- The bin that blocks the beam in the opening. -/
def StationRec.blocking (r : StationRec) : Option Nat := if r.beam = true then r.openingBin else none

/-- A crossing in flight halted by the forced close order. -/
def haltedFor (z : Station) (s : State) : State :=
  match (station s z).crossing with
  | some x => crossingHalted z x.bin s
  | none => s

theorem forceClose_eq (h : (station s z).holdOpen = true) :
    forceClose z s = closeForced z (blockingCaught (station s z).blocking (haltedFor z s)) := by
  unfold forceClose
  rw [if_pos h]
  unfold StationRec.blocking haltedFor blockingCaught
  cases (station s z).beam <;> cases (station s z).openingBin <;> cases (station s z).crossing <;> rfl

theorem forceClose_released (h : (station s z).holdOpen = false) : forceClose z s = s := by
  unfold forceClose
  rw [if_neg (ne_true_of_eq_false h)]

/-- The crossing in flight carries the bin. -/
def Crosses (s : State) (z : Station) (b : Nat) : Prop := ∃ x, (station s z).crossing = some x ∧ x.bin = b

theorem haltedFor_some (h : (station s z).crossing = some x) : haltedFor z s = crossingHalted z x.bin s := by
  simp only [haltedFor, h]

theorem haltedFor_none (h : (station s z).crossing = none) : haltedFor z s = s := by
  simp only [haltedFor, h]

theorem crosses_iff (h : (station s z).crossing = some x) : Crosses s z b ↔ b = x.bin := by
  unfold Crosses
  rw [h]
  exact ⟨fun ⟨y, hy, hb⟩ => by rw [← hb, Option.some.inj hy], fun hb => ⟨x, rfl, hb.symm⟩⟩

theorem not_crosses (h : (station s z).crossing = none) : ¬Crosses s z b := by
  rintro ⟨x, hx, -⟩
  rw [h] at hx
  cases hx

/-- What a halted crossing leaves but for bins and visits. -/
theorem haltedFor_keeps (hp : stationPresent s z = true) : { haltedFor z s with bins := s.bins, visits := s.visits } =
    { setStation z { station s z with crossing := none } s with
      crossingMarks := if (station s z).crossing = none then s.crossingMarks else (setCrossingMark z none s).crossingMarks
      sent := s.sent ++ if (station s z).crossing = none then [] else [.panel z (.transfer .halt)] } := by
  cases hx : (station s z).crossing with
  | none =>
    have hself : setStation z { station s z with crossing := none } s = s := by
      rw [← hx]
      exact setStation_self z s
    rw [haltedFor_none hx, hself]
    simp
  | some x =>
    rw [haltedFor_some hx, crossingHalted_keeps hp]
    simp only [reduceCtorEq, if_false]
    rfl

open Classical in
theorem bin_haltedFor (z : Station) (s : State) (m : Nat) :
    bin (haltedFor z s) m = (bin s m).map fun r => if Crosses s z m then r.caught else r := by
  cases hx : (station s z).crossing with
  | none =>
    rw [haltedFor_none hx]
    simp [not_crosses hx]
  | some x =>
    rw [haltedFor_some hx, bin_crossingHalted]
    simp only [crosses_iff hx]

open Classical in
theorem visit_haltedFor (hv : visit s n = some v) : visit (haltedFor z s) n =
    some (if v.outcome = none ∧ ∃ b r, Crosses s z b ∧ bin s b = some r ∧ r.openVisit = some n then
      { v with hold := { v.hold with fire := true } } else v) := by
  cases hx : (station s z).crossing with
  | none =>
    rw [haltedFor_none hx, hv]
    simp [not_crosses hx]
  | some x =>
    rw [haltedFor_some hx, visit_crossingHalted hv]
    simp only [crosses_iff hx, exists_and_left, exists_eq_left]

end

end Sys2Proof.Machine

/-! The timers of a station, each when it has run out and when it has not (R126 to R128, R145). -/

namespace Sys2Proof.Machine

section
variable {z y : Station} {s u : State} {n b : Nat} {r : BinRec} {x : CrossingRec} {v : VisitRec}

/-- A timer row of a station outside a reset is answered with what its own effect makes possible. -/
theorem stationEvent_answers {f : State → State} {c : Instr} (hr : inReset s = false)
    (hc : exec c s = .next (outsideReset (eventOf z f) s)) (hu : u = f s) : ∃ t, Settles s z u t ∧ exec c s = .next t :=
  ⟨_, settles_settleZone s z u, hc.trans ((next_outsideReset hr).trans (by rw [hu, eventOf]))⟩

theorem takeCrossingMax_due (hx : (station s z).crossing = some x) (ht : x.timer = 0) :
    takeCrossingMax z s = jamCrossing z x s := by
  have hdue : crossingDue s z = some x := by simp [crossingDue, hx, ht]
  simp only [takeCrossingMax, hdue]

theorem takeCrossingMax_idle (h : ∀ x, (station s z).crossing = some x → x.timer ≠ 0) : takeCrossingMax z s = s := by
  have hdue : crossingDue s z = none := by
    unfold crossingDue
    cases hx : (station s z).crossing with
    | none => rfl
    | some x => simp [h x hx]
  simp only [takeCrossingMax, hdue]

theorem takeShutterTravel_idle (h : (station s z).travelTimer ≠ some 0) : takeShutterTravel z s = s := by
  rw [takeShutterTravel, timerDue_eq_false.mpr h, Bool.and_false]
  rfl

theorem takeShutterTravel_due (hp : stationPresent s z = true) (h : (station s z).travelTimer = some 0) :
    takeShutterTravel z s = takeTravelExpiry z s := by
  rw [takeShutterTravel, timerDue_iff.mpr h, hp]
  rfl

theorem takeTravelExpiry_closing (h : (station s z).shutter = .closing) : takeTravelExpiry z s =
    setAttention (9 + z.val) (setStation z { station s z with
      shutter := .closed, travelTimer := none, shutterFault := true } s) := by
  simp only [takeTravelExpiry, h, shutterFault_eq, modStation_eq, station_setStation, setStation_setStation]

theorem takeHoldTimer_idle (h : (zone s z).holdTimer ≠ some 0) : takeHoldTimer z s = s := by
  rw [takeHoldTimer, timerDue_eq_false.mpr h]
  rfl

theorem takeHoldTimer_due (hp : stationPresent s z = true) (h : (zone s z).holdTimer = some 0) :
    takeHoldTimer z s = forceClose z (setZone z { zone s z with holdTimer := none } s) := by
  rw [takeHoldTimer, timerDue_iff.mpr h]
  exact if_pos hp

/-- The forced close order of a present station whose output is energised (R130). -/
theorem forceClose_forces (hp : stationPresent s z = true) (h : (station s z).holdOpen = true) :
    { forceClose z s with bins := s.bins, visits := s.visits } = { setAttention (9 + z.val) (setStation z { station s z with
          crossing := none, holdOpen := false, shutter := .closing, travelTimer := some (1000 * param s 32)
          reopenOrdered := false, reopenCommand := false, forced := true }
        (setZone z { zone s z with released := true, holdTimer := none } s)) with
      crossingMarks := if (station s z).crossing = none then s.crossingMarks else (setCrossingMark z none s).crossingMarks
      sent := s.sent ++ if (station s z).crossing = none then [] else [.panel z (.transfer .halt)] } := by
  let t := haltedFor z s
  let o := (station s z).blocking
  let q := { station s z with crossing := none }
  let marks := if (station s z).crossing = none then s.crossingMarks else (setCrossingMark z none s).crossingMarks
  let msgs := s.sent ++ if (station s z).crossing = none then [] else [.panel z (.transfer .halt)]
  have hstation : station { setStation z q s with crossingMarks := marks, sent := msgs } z = q := station_setStation z q s
  calc { forceClose z s with bins := s.bins, visits := s.visits }
    _ = closeForced z { ({ blockingCaught o t with bins := t.bins } : State) with bins := s.bins, visits := s.visits } := by
      rw [forceClose_eq h]
      rfl
    _ = closeForced z { t with bins := s.bins, visits := s.visits } := by rw [blockingCaught_keeps]
    _ = closeForced z { setStation z q s with crossingMarks := marks, sent := msgs } := by rw [haltedFor_keeps hp]
    _ = { setAttention (9 + z.val) (setStation z { q with
            holdOpen := false, shutter := .closing, travelTimer := some (1000 * param s 32), reopenOrdered := false
            reopenCommand := false, forced := true }
          (setStation z q (setZone z { zone s z with released := true, holdTimer := none } s))) with
          crossingMarks := marks, sent := msgs } := by
      rw [closeForced_eq, hstation]
      rfl
    _ = _ := by rw [setStation_setStation]

theorem bin_forceClose (h : (station s z).holdOpen = true) (hb : bin s b = some r) :
    let caught := Crosses s z b ∨ ((station s z).beam = true ∧ (station s z).openingBin = some b)
    (caught → bin (forceClose z s) b = some r.caught) ∧ (¬caught → bin (forceClose z s) b = some r) := by
  intro caught
  have hbin : bin (forceClose z s) b = bin (blockingCaught (station s z).blocking (haltedFor z s)) b := by
    rw [forceClose_eq h, closeForced_eq]
    rfl
  have hblocks : (station s z).blocking = some b ↔ (station s z).beam = true ∧ (station s z).openingBin = some b := by
    unfold StationRec.blocking
    cases (station s z).beam <;> simp
  rw [hbin, bin_blockingCaught, bin_haltedFor, hb]
  by_cases hx : Crosses s z b <;> by_cases hk : (station s z).blocking = some b
  · simp [caught, hx, hk, BinRec.caught]
  · simp [caught, hx, hk]
  · simp [caught, hx, hk, hblocks.mp hk]
  · have hno : ¬caught := not_or.mpr ⟨hx, fun hb => hk (hblocks.mpr hb)⟩
    simp [hno, hx, hk]

theorem visit_forceClose (h : (station s z).holdOpen = true) (hv : visit s n = some v) :
    let held := v.outcome = none ∧ ∃ b r, Crosses s z b ∧ bin s b = some r ∧ r.openVisit = some n
    (held → visit (forceClose z s) n = some { v with hold := { v.hold with fire := true } }) ∧
      (¬held → visit (forceClose z s) n = some v) := by
  intro held
  have hvisit : visit (forceClose z s) n = visit (haltedFor z s) n := by
    rw [forceClose_eq h, closeForced_eq]
    exact visit_congr (congrArg State.visits (blockingCaught_keeps _ (haltedFor z s)) :) n
  rw [hvisit, visit_haltedFor hv]
  exact ⟨fun hh => by rw [if_pos hh], fun hh => by rw [if_neg hh]⟩

end

section
variable {z y : Station} {s : State}

/-- The station record of a forced close order. -/
def forcedStation (s : State) (z : Station) : StationRec :=
  { station s z with
    crossing := none, holdOpen := false, shutter := .closing, travelTimer := some (1000 * param s 32)
    reopenOrdered := false, reopenCommand := false, forced := true }

variable (hp : stationPresent s z = true) (h : (station s z).holdOpen = true)
include hp h

theorem station_forceClose : station (forceClose z s) z = forcedStation s z :=
  (station_congr (congrArg State.stations (forceClose_forces hp h) :) z).trans (station_setStation z _ (setZone z _ s))

theorem station_forceClose_ne (hy : y ≠ z) : station (forceClose z s) y = station s y :=
  (station_congr (congrArg State.stations (forceClose_forces hp h) :) y).trans (station_setStation_ne hy _ (setZone z _ s))

theorem zone_forceClose : zone (forceClose z s) z = { zone s z with released := true, holdTimer := none } :=
  (zone_congr (congrArg State.zones (forceClose_forces hp h) :) z).trans (zone_setZone z _ s)

theorem zone_forceClose_ne (hy : y ≠ z) : zone (forceClose z s) y = zone s y :=
  (zone_congr (congrArg State.zones (forceClose_forces hp h) :) y).trans (zone_setZone_ne hy _ s)

theorem crossingMarks_forceClose : (forceClose z s).crossingMarks =
    if (station s z).crossing = none then s.crossingMarks else (setCrossingMark z none s).crossingMarks :=
  (congrArg State.crossingMarks (forceClose_forces hp h) :)

theorem crossingMark_forceClose : crossingMark (forceClose z s) z =
    if (station s z).crossing = none then crossingMark s z else none := by
  have hmarks := crossingMarks_forceClose hp h
  split
  · next hx => exact crossingMark_congr (hmarks.trans (if_pos hx)) z
  · next hx => exact (crossingMark_congr (hmarks.trans (if_neg hx)) z).trans (crossingMark_setCrossingMark z none s)

theorem crossingMark_forceClose_ne (hy : y ≠ z) : crossingMark (forceClose z s) y = crossingMark s y := by
  have hmarks := crossingMarks_forceClose hp h
  by_cases hx : (station s z).crossing = none
  · exact crossingMark_congr (hmarks.trans (if_pos hx)) y
  · exact (crossingMark_congr (hmarks.trans (if_neg hx)) y).trans (crossingMark_setCrossingMark_ne hy none s)

theorem sent_forceClose : (forceClose z s).sent =
    s.sent ++ if (station s z).crossing = none then [] else [.panel z (.transfer .halt)] :=
  (congrArg State.sent (forceClose_forces hp h) :)

theorem link_forceClose : (forceClose z s).link = (setAttention (9 + z.val) s).link :=
  (congrArg State.link (forceClose_forces hp h) :)

/-- What a forced close order leaves alone. -/
theorem forceClose_rest : { forceClose z s with
    stations := s.stations, zones := s.zones, crossingMarks := s.crossingMarks, bins := s.bins, visits := s.visits
    link := s.link, sent := s.sent } = s :=
  congrArg (fun t : State => { t with
    stations := s.stations, zones := s.zones, crossingMarks := s.crossingMarks, link := s.link, sent := s.sent })
    (forceClose_forces hp h)

end

/-- Settles O47. -/
theorem stationTimersAct : Obligations.StationTimersAct := by
  intro z s hr
  refine ⟨?jam, fun h => stationEvent_answers hr rfl (takeCrossingMax_idle h).symm, fun h => ?face, fun h => ?faceIdle,
    fun hp ht => ⟨fun hst => ?closing, fun hst => ?opening⟩,
    fun h => stationEvent_answers hr rfl (takeShutterTravel_idle h).symm, fun ht hp => ?hold,
    fun h => stationEvent_answers hr rfl (takeHoldTimer_idle h).symm⟩
  case jam =>
    rintro x r u hx ht hb rfl
    have hkeeps := jammed_keeps z x.bin s
    have hvisit (n : Nat) : visit (holdOut z (jammed z x.bin s)) n = _ := visit_holdOut z (jammed z x.bin s) n
    have hanswers := stationEvent_answers (z := z) (f := takeCrossingMax z) (c := .crossingMaxExpiry z) hr rfl
      (takeCrossingMax_due hx ht).symm
    refine ⟨?_, ?_, ?_, ?_, ?_, ?_, ?_, fun n => ?_, fun b hne => ?_, fun y hy => ?_, ?_, hanswers⟩
    all_goals rw [jamCrossing_eq]
    · exact congrArg StationRec.crossing (station_jammed z x.bin s)
    · exact congrArg StationRec.jammed (station_jammed z x.bin s)
    · exact crossingMark_jammed z x.bin s
    · exact bin_jammed hb
    · exact attention_set (9 + z.val) (by omega) (holdOut z (jammed z x.bin s))
    · exact station_jammed z x.bin s
    · exact sent_jammed z x.bin s
    · refine (hvisit n).trans ?_
      simp only [visit_jammed, binAisle_jammed]
    · exact bin_jammed_ne hne
    · exact station_jammed_ne hy
    · exact congrArg (fun t : State => { t with visits := s.visits, link := s.link }) hkeeps
  case face =>
    refine (next_outsideReset hr).trans ?_
    rw [takeFaceTimer, timerDue_iff.mpr h, if_pos rfl]
    rfl
  case faceIdle =>
    refine (next_outsideReset hr).trans ?_
    rw [takeFaceTimer, timerDue_eq_false.mpr h, if_neg Bool.false_ne_true]
  case closing =>
    exact stationEvent_answers hr rfl ((takeTravelExpiry_closing hst).symm.trans (takeShutterTravel_due hp ht).symm)
  case opening =>
    have htake : takeShutterTravel z s = reopenFails z s := by
      rw [takeShutterTravel_due hp ht]
      simp only [takeTravelExpiry, hst]
    obtain ⟨t, hsettles, hexec⟩ := stationEvent_answers (z := z) (f := takeShutterTravel z) (c := .shutterTravelExpiry z)
      hr rfl htake.symm
    refine ⟨_, t, rfl, ?_, ?_, fun n => ?_, ?_, ?_, hsettles, hexec⟩
    all_goals rw [reopenFails_eq]
    · exact station_setStation z _ s
    · exact zone_setZone z _ _
    · exact visit_holdOut z (setStation z _ s) n
    · rfl
    · exact attention_set (9 + z.val) (by omega) (holdOut z (setStation z _ s))
  case hold =>
    let s0 := setZone z { zone s z with holdTimer := none } s
    have hzone : zone s0 z = { zone s z with holdTimer := none } := zone_setZone ..
    obtain ⟨t, hsettles, hexec⟩ := stationEvent_answers (z := z) (f := takeHoldTimer z) (c := .holdTimerExpiry z)
      hr rfl (takeHoldTimer_due hp ht).symm
    refine ⟨_, t, rfl, ?_, fun h => ?_, fun h => forceClose_released (s := s0) h, fun h => ?_, hsettles, hexec⟩
    · cases h : (station s z).holdOpen with
      | false =>
        rw [forceClose_released (s := s0) h]
        exact h
      | true =>
        rw [station_forceClose (s := s0) hp h]
        rfl
    · rw [station_forceClose (s := s0) hp h, zone_forceClose (s := s0) hp h]
      exact ⟨rfl, rfl, rfl, rfl⟩
    · refine ⟨station_forceClose (s := s0) hp h, ?_, link_forceClose (s := s0) hp h, crossingMark_forceClose (s := s0) hp h,
        sent_forceClose (s := s0) hp h, fun b r hb => bin_forceClose (s := s0) h hb,
        fun n v hv => visit_forceClose (s := s0) h hv, fun y hy => ⟨station_forceClose_ne (s := s0) hp h hy, ?_,
          crossingMark_forceClose_ne (s := s0) hp h hy⟩, ?_⟩
      · rw [zone_forceClose (s := s0) hp h, hzone]
      · rw [zone_forceClose_ne (s := s0) hp h hy, zone_setZone_ne hy]
      · exact congrArg (fun t : State => { t with zones := s.zones }) (forceClose_rest (s := s0) hp h)

end Sys2Proof.Machine

/-! The ranges of the parameters, the masks, and what a change of the aisle or the polarity mask does (R139, R174 to R176). -/

namespace Sys2Proof.Machine

/-! ### Ranges (R174 Table 1, R175) -/

section
variable {n low high count : Nat} {bits v : BitVec 16}

theorem clamp_numeric (hr : paramRange n = .numeric low high) (hl : low ≤ high) (hh : high < 65536) (v : BitVec 16) :
    (paramRange n).badCode v = false ∧ ((paramRange n).clamp v).toNat =
      if v.toNat < low then low else if high < v.toNat then high else v.toNat := by
  rw [hr]
  refine ⟨rfl, ?_⟩
  have hclamp : max low (min high v.toNat) =
      if v.toNat < low then low else if high < v.toNat then high else v.toNat := by
    split
    · omega
    · split <;> omega
  have hlt : max low (min high v.toNat) < 65536 := by omega
  rw [← hclamp]
  exact (BitVec.toNat_ofNat ..).trans (Nat.mod_eq_of_lt hlt)

theorem clamp_mask (hr : paramRange n = .mask bits) (v : BitVec 16) :
    (paramRange n).badCode v = false ∧ (paramRange n).clamp v = v &&& bits := by
  rw [hr]
  exact ⟨rfl, rfl⟩

theorem clamp_codes (hr : paramRange n = .codes count) (v : BitVec 16) :
    ((paramRange n).badCode v = true ↔ count ≤ v.toNat) ∧ (paramRange n).clamp v = v := by
  rw [hr]
  exact ⟨decide_eq_true_iff, rfl⟩

theorem clamp_ratio (v : BitVec 16) : ((paramRange 29).clamp v).toNat =
    if v.toNat < 4 then 2 else if v.toNat < 6 then 4 else if v.toNat < 8 then 6 else 8 := by
  change (if v.toNat < 4 then (2 : BitVec 16) else if v.toNat < 6 then 4 else if v.toNat < 8 then 6 else 8).toNat = _
  split
  · rfl
  · split
    · rfl
    · split <;> rfl

/-- The numeric ranges of Table 1. -/
def numericRanges : List (Nat × Nat × Nat) :=
  [(2, 200, 2000), (3, 200, 1000), (4, 0, 11), (5, 0, 95), (6, 8000, 40000), (7, 200, 6000), (8, 200, 4000),
    (9, 100, 3000), (10, 100, 3000), (11, 0, 2000), (12, 500, 10000), (13, 0, 5000), (14, 16, 64), (15, 0, 10000),
    (16, 10, 600), (17, 5, 900), (18, 1, 600), (25, 100, 10000), (26, 0, 20), (27, 2, 9), (28, 1, 15), (30, 2, 30),
    (31, 30, 3600), (32, 1, 30), (34, 1, 1000), (35, 1, 1000), (36, 1, 1000), (37, 5, 60), (38, 1024, 4000)]

theorem numericRanges_hold : ∀ e ∈ numericRanges, paramRange e.1 = .numeric e.2.1 e.2.2 ∧ e.2.1 ≤ e.2.2 ∧ e.2.2 < 65536 := by
  decide

theorem maskRanges_hold : ∀ e ∈ ([(0, 0xFF), (1, 0xF), (33, 0x3FF), (39, 0xFFFF), (40, 0xF)] : List (Nat × BitVec 16)),
    paramRange e.1 = .mask e.2 := by
  decide

theorem codeRanges_hold : ∀ e ∈ ([(19, 4), (20, 4), (21, 4), (22, 4), (23, 4), (24, 2)] : List (Nat × Nat)),
    paramRange e.1 = .codes e.2 := by
  decide

end

/-! ### A mask that would remove what is in use (R175 step 4) -/

section
variable {n : Fin 41} {v : BitVec 16} {s : State} {z : Station}

theorem atStation_location_iff (l : Location) : l.atStation z = true ↔
    (∃ q, l = .lane z q) ∨ l = .opening z ∨ l = .face z ∨ l = .outbound z := by
  cases l <;> simp [Location.atStation]

theorem removesUsed_iff (n : Fin 41) (v : BitVec 16) (s : State) : removesUsed n v s = true ↔
    (n = 0 ∧ ∃ a, aislePresent s a = true ∧ v.getLsbD a.val = false ∧ ∃ e ∈ s.bins, e.2.home.aisle = a) ∨
    (n = 1 ∧ ∃ z, stationPresent s z = true ∧ v.getLsbD z.val = false ∧ ∃ e ∈ s.bins,
      (∃ q, e.2.location = .lane z q) ∨ e.2.location = .opening z ∨ e.2.location = .face z ∨
      e.2.location = .outbound z) := by
  unfold removesUsed
  by_cases h0 : n = 0
  · have h1 : n ≠ 1 := by rw [h0]; decide
    simp only [h0, if_true, true_and, List.any_eq_true, mem_aisleList, Bool.and_eq_true, Bool.not_eq_true', beq_iff_eq,
      and_assoc, show (0 : Fin 41) ≠ 1 by decide, false_and, or_false]
  · by_cases h1 : n = 1
    · simp only [h1, show (1 : Fin 41) ≠ 0 by decide, if_false, if_true, true_and, false_and, false_or, List.any_eq_true,
        mem_stationList, Bool.and_eq_true, Bool.not_eq_true', atStation_location_iff, and_assoc]
    · simp only [h0, h1, if_false, false_and, or_self, Bool.false_eq_true]

end

/-! ### Folds over blocks that each step changes one of -/

section
variable {ι : Type} {f : ι → State → State} {P : State → State → Prop} {i : ι}

theorem foldl_others (hrefl : ∀ s, P s s) (htrans : ∀ {s t u}, P s t → P t u → P s u)
    (hother : ∀ j, j ≠ i → ∀ s, P s (f j s)) (l : List ι) (hi : i ∉ l) (s : State) :
    P s (l.foldl (fun t j => f j t) s) := by
  induction l generalizing s with
  | nil => exact hrefl s
  | cons j l ih =>
    obtain ⟨hj, hl⟩ := not_or.mp (mt List.mem_cons.mpr hi)
    exact htrans (hother j (Ne.symm hj) s) (ih hl (f j s))

/-- A block's turn in a fold finds what the other steps keep, and they keep what it made. -/
theorem foldl_turn (hrefl : ∀ s, P s s) (htrans : ∀ {s t u}, P s t → P t u → P s u)
    (hother : ∀ j, j ≠ i → ∀ s, P s (f j s)) (l : List ι) (hn : l.Nodup) (hi : i ∈ l) (s : State) :
    ∃ u, P s u ∧ P (f i u) (l.foldl (fun t j => f j t) s) := by
  induction l generalizing s with
  | nil => exact absurd hi List.not_mem_nil
  | cons j l ih =>
    obtain ⟨hj, hl⟩ := List.nodup_cons.mp hn
    by_cases hij : i = j
    · subst hij
      exact ⟨s, hrefl s, foldl_others hrefl htrans hother l hj (f i s)⟩
    · obtain ⟨u, hu, ht⟩ := ih hl ((List.mem_cons.mp hi).resolve_left hij) (f j s)
      exact ⟨u, htrans (hother j (Ne.symm hij) s) hu, ht⟩

end

/-! ### The aisle mask (R95, R176) -/

section
variable {before s t u : State} {a b : Aisle} {i j : FireInput}

/-- What one aisle takes of a change of the aisle mask. -/
def maskAisle (before : State) (a : Aisle) (t : State) : State :=
  if aislePresent before a = aislePresent t a then t else setAisle a { aisleRec t a with suspension := .inService } t

theorem maskAisles_eq (before s : State) : maskAisles before s = aisleList.foldl (fun t a => maskAisle before a t) s := rfl

theorem maskAisle_keeps (before : State) (a : Aisle) (t : State) : { maskAisle before a t with aisles := t.aisles } = t := by
  unfold maskAisle
  split <;> rfl

theorem maskAisles_keeps (before s : State) : { maskAisles before s with aisles := s.aisles } = s :=
  keep_foldl (P := fun t => { t with aisles := s.aisles } = s) (f := fun t a => maskAisle before a t)
    (fun t a h => (congrArg (fun x : State => { x with aisles := s.aisles }) (maskAisle_keeps before a t)).trans h)
    aisleList rfl

theorem aisleRec_maskAisle (before : State) (a : Aisle) (t : State) : aisleRec (maskAisle before a t) a =
    if aislePresent before a = aislePresent t a then aisleRec t a else { aisleRec t a with suspension := .inService } := by
  unfold maskAisle
  split
  · rfl
  · exact aisleRec_setAisle ..

theorem aisleRec_maskAisle_ne (h : b ≠ a) : aisleRec (maskAisle before a t) b = aisleRec t b := by
  unfold maskAisle
  split
  · rfl
  · exact aisleRec_setAisle_ne h _ t

theorem params_maskAisle (before : State) (a : Aisle) (t : State) : (maskAisle before a t).params = t.params :=
  (congrArg State.params (maskAisle_keeps before a t) :)

theorem aisleRec_maskAisles (before s : State) (a : Aisle) : aisleRec (maskAisles before s) a =
    if aislePresent before a = aislePresent s a then aisleRec s a else { aisleRec s a with suspension := .inService } := by
  obtain ⟨u, ⟨hrec, hparams⟩, ht, -⟩ := foldl_turn (i := a) (f := maskAisle before)
    (P := fun s t => aisleRec t a = aisleRec s a ∧ t.params = s.params) (fun _ => ⟨rfl, rfl⟩)
    (fun h k => ⟨k.1.trans h.1, k.2.trans h.2⟩)
    (fun b hb t => ⟨aisleRec_maskAisle_ne (Ne.symm hb), params_maskAisle before b t⟩) aisleList (by decide)
    (mem_aisleList a) s
  rw [maskAisles_eq, ht, aisleRec_maskAisle, hrec, aislePresent_of_params hparams]

/-! ### The polarity mask (R139, R176) -/

theorem reconcile_eq (i : FireInput) (s : State) : reconcile i s = setConditioner i { conditioner s i with
    window := if ((conditioner s i).pinHigh != (s.params.get 33).value.getLsbD i.val) = (conditioner s i).taken then none
      else if (conditioner s i).window = none then some (deglitchTime s i) else (conditioner s i).window } s := by
  have hself : setConditioner i (conditioner s i) s = s := by simp [setConditioner, conditioner, Vector.get_eq_getElem]
  have hreconcile := reconcile_setConditioner i (conditioner s i) s
  rwa [hself] at hreconcile

theorem reconcileAll_keeps (s : State) : { reconcileAll s with inputs := s.inputs } = s :=
  keep_foldl (P := fun t => { t with inputs := s.inputs } = s) (f := fun t i => reconcile i t)
    (fun t i h => by rw [reconcile_eq]; exact h) inputList rfl

theorem conditioner_reconcileAll (s : State) (i : FireInput) : conditioner (reconcileAll s) i = { conditioner s i with
    window := if ((conditioner s i).pinHigh != (s.params.get 33).value.getLsbD i.val) = (conditioner s i).taken then none
      else if (conditioner s i).window = none then some (deglitchTime s i) else (conditioner s i).window } := by
  obtain ⟨u, ⟨hrec, hparams⟩, ht, -⟩ := foldl_turn (i := i) (f := reconcile)
    (P := fun s t => conditioner t i = conditioner s i ∧ t.params = s.params) (fun _ => ⟨rfl, rfl⟩)
    (fun h k => ⟨k.1.trans h.1, k.2.trans h.2⟩)
    (fun j hj t => ⟨by rw [reconcile_eq]; exact conditioner_setConditioner_ne (Ne.symm hj) _ t, by rw [reconcile_eq]; rfl⟩)
    inputList (by decide) (by revert i; decide) s
  have hdeglitch : deglitchTime u i = deglitchTime s i := by simp only [deglitchTime, param_congr hparams]
  rw [reconcileAll, ht, reconcile_eq, conditioner_setConditioner, hrec, hparams, hdeglitch]

end

end Sys2Proof.Machine

/-! A station that leaves a reset, and what a change of the station mask does (R138, R176). -/

namespace Sys2Proof.Machine

section
variable {before s t u : State} {z y : Station}

/-! ### A station that leaves a reset (R138) -/

/-- The reopen order of a station that leaves a reset is carried out: its zone is not closed and it has no reopen fault. -/
def opensAtStart (s : State) (z : Station) : Bool := !zoneClosed s z && !(station s z).reopenFault

/-- The record of a present station that has left a reset. -/
def startedStation (s : State) (z : Station) : StationRec :=
  { stationAfterReset s z with
    shutter := if opensAtStart s z then .opening else .closing
    holdOpen := opensAtStart s z
    reopenOrdered := opensAtStart s z }

/-- The zone's record when its station has left a reset. -/
def startedZone (s : State) (z : Station) : ZoneRec :=
  { zone s z with
    released := (zone s z).released || zoneClosed s z
    holdTimer := if zoneClosed s z then none else (zone s z).holdTimer
    reopenReport := if (zone s z).state = .recovery ∧ (station s z).reopenFault = true then .reopenFault
      else (zone s z).reopenReport }

/-- The station's place in the state, without the messages. -/
def startedAt (s : State) (z : Station) : State := setZone z (startedZone s z) (setStation z (startedStation s z) s)

theorem resetStation_present (hp : stationPresent s z = true) :
    resetStation z s = setStation z (stationAfterReset s z) s := by
  rw [resetStation, if_pos hp]

theorem startStation_closed (hp : stationPresent s z = true) (hc : zoneClosed s z = true) :
    startStation z (resetStation z s) = { startedAt s z with sent := s.sent ++ [.panel z .locked] } := by
  have hopens : opensAtStart s z = false := by rw [opensAtStart, hc]; rfl
  have hstation : startedStation s z = stationAfterReset s z := by
    rw [startedStation, hopens]
    rfl
  have hstate : (zone s z).state ≠ .recovery := fun h => by
    rw [zoneClosed, h] at hc
    cases hc
  have hzone : startedZone s z = { zone s z with released := true, holdTimer := none } := by
    simp only [startedZone, hc, Bool.or_true, if_true, hstate, false_and, if_false]
  let w := setStation z (stationAfterReset s z) s
  have hw : zoneClosed w z = true := hc
  have hsend : sendPanel z .locked (reportReleased z w) =
      { reportReleased z w with sent := s.sent ++ [.panel z .locked] } :=
    sendPanel_present (s := reportReleased z w) hp ⟨fun h => by simp at h, fun h => by simp at h⟩
  rw [resetStation_present hp, startStation, if_pos hw, hsend, startedAt, hstation, hzone]
  rfl

/-- The tasks sent again begin with CLEAR. -/
theorem resendTasks_clears (hp : stationPresent s z = true) (hc : zoneClosed s z = false) :
    ∃ x, resendTasks z s = { s with sent := s.sent ++ x } ∧ FieldMsg.panel z .clear ∈ x := by
  have hlive : stationPresent s z = true ∧ zoneClosed s z = false := ⟨hp, hc⟩
  by_cases h : ∃ f v, (station s z).face = some f ∧ visit s f.visit = some v ∧ v.state = .atFace
  · obtain ⟨f, v, hf, hv, hst⟩ := h
    rw [resendTasks_face hf hv hst, showPending_clear, if_pos hlive]
    exact ⟨_, rfl, List.mem_cons_self⟩
  · have hnone (f v) (hf : (station s z).face = some f) (hv : visit s f.visit = some v) : v.state ≠ .atFace :=
      fun hst => h ⟨f, v, hf, hv, hst⟩
    rw [resendTasks_none hnone, sendPanel_live hp hc]
    exact ⟨_, rfl, List.mem_cons_self⟩

theorem startStation_open (hp : stationPresent s z = true) (hc : zoneClosed s z = false) : ∃ x,
    startStation z (resetStation z s) = { startedAt s z with sent := s.sent ++ x } ∧ FieldMsg.panel z .clear ∈ x := by
  let w := setStation z (stationAfterReset s z) s
  have hwc : zoneClosed w z = false := hc
  obtain ⟨x, hx, hclear⟩ := resendTasks_clears (s := w) hp hc
  refine ⟨x, ?_, hclear⟩
  let v : State := { w with sent := s.sent ++ x }
  have hstation : station v z = stationAfterReset s z := station_setStation z (stationAfterReset s z) s
  have hshutter : (station v z).shutter = .closing := by rw [hstation]; rfl
  have hfault : (station v z).reopenFault = (station s z).reopenFault := by rw [hstation]; rfl
  have hset (q : StationRec) : setStation z q v = { setStation z q s with sent := s.sent ++ x } :=
    congrArg (fun t : State => { t with sent := s.sent ++ x }) (setStation_setStation z q (stationAfterReset s z) s)
  have hstart : startStation z (resetStation z s) = reopenOrder z v := by
    rw [resetStation_present hp, startStation, if_neg (ne_true_of_eq_false hwc), hx]
    rfl
  rw [hstart]
  cases hf : (station s z).reopenFault with
  | true =>
    have hrec : startedStation s z = { station v z with closeOrder := false } := by
      rw [hstation, startedStation, opensAtStart, hc, hf]
      simp only [stationAfterReset, hc]
      rfl
    have hzone : startedZone s z = (zone s z).reported true .reopenFault := by
      simp only [startedZone, hc, hf, Bool.or_false, Bool.false_eq_true, if_false, and_true, ZoneRec.reported, true_and]
      split <;> rfl
    rw [reopenOrder_fault (.inl hshutter) (hfault.trans hf), startedAt, hrec, hzone, hset]
    exact reportReopen_eq z .reopenFault true { setStation z { station v z with closeOrder := false } s with sent := s.sent ++ x }
  | false =>
    have hrec : startedStation s z = { station v z with
        closeOrder := false, holdOpen := true, shutter := .opening, travelTimer := some (1000 * param v 32)
        reopenOrdered := true } := by
      rw [hstation, startedStation, opensAtStart, hc, hf]
      simp only [stationAfterReset, hc]
      rfl
    have hzone : startedZone s z = zone s z := by
      simp only [startedZone, hc, hf, Bool.or_false, Bool.false_eq_true, if_false, and_false]
    rw [reopenOrder_travels (.inl hshutter) (hfault.trans hf), startedAt, hrec, hzone, hset]
    exact congrArg (fun t : State => { t with sent := s.sent ++ x }) (setZone_self z (setStation z _ s)).symm

/-- A present station that leaves a reset: its record, its zone's, and LOCKED or CLEAR to its panel. -/
theorem startStation_eq (hp : stationPresent s z = true) : ∃ x,
    startStation z (resetStation z s) = { startedAt s z with sent := s.sent ++ x } ∧
      (if zoneClosed s z then FieldMsg.panel z .locked else .panel z .clear) ∈ x := by
  cases hc : zoneClosed s z with
  | true => exact ⟨_, startStation_closed hp hc, List.mem_singleton.mpr rfl⟩
  | false => exact startStation_open hp hc

/-! ### A station removed (R129, R176) -/

/-- The record of a station that is removed: its output is released. -/
def removedStation (s : State) (z : Station) : StationRec :=
  if (station s z).holdOpen then { station s z with
    holdOpen := false, shutter := .closing, travelTimer := some (1000 * param s 32), reopenOrdered := false
    reopenCommand := false } else station s z

/-- The zone of a removed station has nothing to wait for. -/
def removedZone (s : State) (z : Station) : ZoneRec :=
  if (station s z).closeOrder then { zone s z with released := true, holdTimer := none } else zone s z

theorem removeStation_eq (z : Station) (s : State) :
    removeStation z s = setZone z (removedZone s z) (setStation z (removedStation s z) s) := by
  have hrelease : (if (station s z).holdOpen then releaseShutter z s else s) = setStation z (removedStation s z) s := by
    unfold removedStation
    split
    · rfl
    · exact (setStation_self z s).symm
  rw [removeStation, hrelease, removedZone]
  dsimp only
  split
  · rfl
  · exact (setZone_self z (setStation z _ s)).symm

/-! ### The station mask (R176) -/

/-- What one station takes of a change of the station mask. -/
def maskStation (before : State) (z : Station) (t : State) : State :=
  match stationPresent before z, stationPresent t z with
  | true, false => removeStation z t
  | false, true => startStation z (resetStation z t)
  | _, _ => t

theorem maskStation_removes (hb : stationPresent before z = true) (hp : stationPresent t z = false) :
    maskStation before z t = removeStation z t := by
  rw [maskStation, hb, hp]

theorem maskStation_adds (hb : stationPresent before z = false) (hp : stationPresent t z = true) :
    maskStation before z t = startStation z (resetStation z t) := by
  rw [maskStation, hb, hp]

theorem maskStation_same (h : stationPresent before z = stationPresent t z) : maskStation before z t = t := by
  rw [maskStation, h]
  cases stationPresent t z <;> rfl

/-- From `s` to `t` only station and zone records change, and messages are sent. -/
structure AtStations (s t : State) : Prop where
  rest : { t with stations := s.stations, zones := s.zones, sent := s.sent } = s
  sent : s.sent <+: t.sent

theorem AtStations.refl (s : State) : AtStations s s := ⟨rfl, List.prefix_refl _⟩

theorem AtStations.trans (h : AtStations s t) (k : AtStations t u) : AtStations s u where
  rest := (congrArg (fun x : State => { x with stations := s.stations, zones := s.zones, sent := s.sent }) k.rest).trans h.rest
  sent := h.sent.trans k.sent

/-- Only station `z` and its zone are among what changes. -/
structure AtStation (z : Station) (s t : State) : Prop extends AtStations s t where
  stations : ∀ y, y ≠ z → station t y = station s y
  zones    : ∀ y, y ≠ z → zone t y = zone s y

theorem atStation_set (z : Station) (q : StationRec) (r : ZoneRec) (x : List FieldMsg) (s : State) :
    AtStation z s { setZone z r (setStation z q s) with sent := s.sent ++ x } where
  rest := rfl
  sent := List.prefix_append _ _
  stations _ hy := station_setStation_ne hy q s
  zones _ hy := zone_setZone_ne hy r s

theorem atStation_maskStation (before : State) (z : Station) (t : State) : AtStation z t (maskStation before z t) := by
  cases hb : stationPresent before z <;> cases hp : stationPresent t z
  case true.false =>
    have hset := atStation_set z (removedStation t z) (removedZone t z) [] t
    rw [List.append_nil] at hset
    rw [maskStation_removes hb hp, removeStation_eq]
    exact hset
  case false.true =>
    obtain ⟨x, hx, -⟩ := startStation_eq hp
    rw [maskStation_adds hb hp, hx]
    exact atStation_set z _ _ x t
  all_goals
    rw [maskStation_same (hb.trans hp.symm)]
    exact ⟨AtStations.refl t, fun _ _ => rfl, fun _ _ => rfl⟩

/-- A station's turn at a change of the station mask finds its own records, and they stay as it made them. -/
theorem maskStations_turn (before s : State) (z : Station) : ∃ u, AtStations s u ∧ station u z = station s z ∧
    zone u z = zone s z ∧ AtStations (maskStation before z u) (maskStations before s) ∧
    station (maskStations before s) z = station (maskStation before z u) z ∧
    zone (maskStations before s) z = zone (maskStation before z u) z := by
  obtain ⟨u, ⟨hu, hstation, hzone⟩, ht, htstation, htzone⟩ := foldl_turn (i := z) (f := maskStation before)
    (P := fun s t => AtStations s t ∧ station t z = station s z ∧ zone t z = zone s z)
    (fun s => ⟨AtStations.refl s, rfl, rfl⟩)
    (fun h k => ⟨h.1.trans k.1, k.2.1.trans h.2.1, k.2.2.trans h.2.2⟩)
    (fun y hy t => have h := atStation_maskStation before y t
      ⟨h.toAtStations, h.stations z (Ne.symm hy), h.zones z (Ne.symm hy)⟩)
    stationList (by decide) (mem_stationList z) s
  exact ⟨u, hu, hstation, hzone, ht, htstation, htzone⟩

theorem atStations_maskStations (before s : State) : AtStations s (maskStations before s) :=
  keep_foldl (P := fun t => AtStations s t) (f := fun t z => maskStation before z t)
    (fun t z h => h.trans (atStation_maskStation before z t).toAtStations) stationList (AtStations.refl s)

end

end Sys2Proof.Machine

/-! Set Parameter (R139, R174 to R176). -/

namespace Sys2Proof.Machine

/-! ### The record of an added station, as the manual lists it (R138, R176) -/

section
variable {s u : State} {z : Station}

theorem AtStations.params (h : AtStations s u) : u.params = s.params := (congrArg State.params h.rest :)

theorem startedStation_congr (h : AtStations s u) (hstation : station u z = station s z) (hzone : zone u z = zone s z) :
    startedStation u z = startedStation s z := by
  have hu : u = { s with stations := u.stations, zones := u.zones, sent := u.sent } :=
    (congrArg (fun t : State => { t with stations := u.stations, zones := u.zones, sent := u.sent }) h.rest :)
  generalize u.stations = x, u.zones = y, u.sent = w at hu
  subst hu
  simp only [startedStation, stationAfterReset, absentStation, opensAtStart, zoneClosed, hstation, hzone]
  rfl

theorem startedZone_congr (hstation : station u z = station s z) (hzone : zone u z = zone s z) :
    startedZone u z = startedZone s z := by
  rw [startedZone, startedZone, zoneClosed, zoneClosed, hstation, hzone]

theorem openingAfterReset_eq (s : State) (z : Station) : openingAfterReset s z =
    match binAt s (.opening z) with
    | some b => some b
    | none =>
      if (faceAfterReset s z).bind (faceState s) = some .withdrawing ∧
          (faceAfterReset s z).any (fun f => (bin s f.bin).any (·.obstructed)) = true then
        (faceAfterReset s z).map (·.bin) else none := by
  unfold openingAfterReset
  cases binAt s (.opening z) with
  | some b => rfl
  | none =>
    cases faceAfterReset s z with
    | none => rfl
    | some f =>
      have hany : ((bin s f.bin).map (·.obstructed)).getD false = (bin s f.bin).any (·.obstructed) := by
        cases bin s f.bin <;> rfl
      simp only [hany, Option.bind_some, Option.any_some, Option.map_some, Bool.and_eq_true, beq_iff_eq,
        and_comm (a := faceState s f = _)]

theorem faceTimerAfterReset_eq (s : State) (z : Station) : faceTimerAfterReset s z =
    if (faceAfterReset s z).bind (faceState s) = some .atFace then some (1000 * param s 31) else none := by
  unfold faceTimerAfterReset
  cases faceAfterReset s z <;> rfl

end

/-! ### The command (R175) -/

section
variable {p : List Byte} {s : State} {v : BitVec 16} {n : Fin 41}

/-- The value that the parameters of Set Parameter give. -/
def valueAt (p : List Byte) : BitVec 16 := p.getD 1 0 ++ p.getD 2 0

theorem valueAt_eq (h : v.toNat = wordAt p 1) : valueAt p = v :=
  BitVec.eq_of_toNat_eq ((toNat_append_byte _ _).trans h.symm)

theorem paramOf_eq_some (h : n.val = byteAt p 0) : paramOf (byteAt p 0) = some n := by
  rw [paramOf, ← h, dif_pos n.isLt]

theorem paramOf_eq_none (h : 41 ≤ byteAt p 0) : paramOf (byteAt p 0) = none := by
  rw [paramOf, dif_neg (Nat.not_lt.mpr h)]

/-- What Set Parameter does with its number and value. -/
def storeValue (p : List Byte) (n : Fin 41) (v : BitVec 16) (s : State) : Result :=
  let v' := (paramRange n.val).clamp v
  refuseIf ((paramRange n.val).badCode v || decide (1 < byteAt p 3)) .badValue <|
  refuseIf (oddOnes v != (byteAt p 3 == 1)) .parity <|
  refuseIf (decide (n.val ≤ 5) && s.mode == .service) .notInCommissioning <|
  refuseIf (removesUsed n v' s) .state <|
  .reply (if v' = v then .done else .doneClamped) (paramBytes ⟨v', oddOnes v'⟩)
    (settleAll s (paramEffect n s (storeParam n v' s)))

theorem runSetParameter_eq (hv : v.toNat = wordAt p 1) (hn : n.val = byteAt p 0) :
    runSetParameter p s = storeValue p n v s := by
  rw [← valueAt_eq hv]
  exact withSome_passes (paramOf_eq_some hn)

theorem storeValue_badValue (h : (paramRange n.val).badCode v = true ∨ 1 < byteAt p 3) :
    storeValue p n v s = .refuse .badValue [] :=
  refuseIf_refuses (Bool.or_eq_true_iff.mpr (h.imp_right decide_eq_true))

theorem storeValue_modePasses {rest : Result} (hmode : 5 < n.val ∨ s.mode = .commissioning) :
    refuseIf (decide (n.val ≤ 5) && s.mode == .service) .notInCommissioning rest = rest := by
  refine refuseIf_passes ?_
  obtain h | h := hmode
  · rw [decide_eq_false (Nat.not_le.mpr h), Bool.false_and]
  · rw [h]
    exact Bool.and_false _

variable (hcode : (paramRange n.val).badCode v = false) (hbit : byteAt p 3 ≤ 1)
include hcode hbit

theorem storeValue_goodValue {rest : Result} :
    refuseIf ((paramRange n.val).badCode v || decide (1 < byteAt p 3)) .badValue rest = rest :=
  refuseIf_passes (Bool.or_eq_false_iff.mpr ⟨hcode, decide_eq_false (Nat.not_lt.mpr hbit)⟩)

omit hcode in
theorem parity_iff : (oddOnes v != (byteAt p 3 == 1)) = false ↔ (oddOnes v).toNat = byteAt p 3 := by
  have hcases : byteAt p 3 = 0 ∨ byteAt p 3 = 1 := by omega
  obtain h | h := hcases <;> rw [h] <;> cases oddOnes v <;> decide

theorem storeValue_parity (h : (oddOnes v).toNat ≠ byteAt p 3) : storeValue p n v s = .refuse .parity [] := by
  refine (storeValue_goodValue hcode hbit).trans (refuseIf_refuses ?_)
  exact Bool.eq_true_of_not_eq_false fun hf => h ((parity_iff hbit).mp hf)

variable (hodd : (oddOnes v).toNat = byteAt p 3)
include hodd

theorem storeValue_mode (hn : n.val ≤ 5) (hm : s.mode = .service) : storeValue p n v s = .refuse .notInCommissioning [] := by
  refine (storeValue_goodValue hcode hbit).trans ((refuseIf_passes ((parity_iff hbit).mpr hodd)).trans
    (refuseIf_refuses ?_))
  rw [decide_eq_true hn, hm]
  rfl

variable (hmode : 5 < n.val ∨ s.mode = .commissioning)
include hmode

theorem storeValue_state (h : removesUsed n ((paramRange n.val).clamp v) s = true) :
    storeValue p n v s = .refuse .state [] :=
  (storeValue_goodValue hcode hbit).trans ((refuseIf_passes ((parity_iff hbit).mpr hodd)).trans
    ((storeValue_modePasses hmode).trans (refuseIf_refuses h)))

theorem storeValue_stores {v' : BitVec 16} (hv' : v' = (paramRange n.val).clamp v) (h : removesUsed n v' s = false) :
    storeValue p n v s = .reply (if v' = v then .done else .doneClamped) (paramBytes ⟨v', oddOnes v'⟩)
      (settleAll s (paramEffect n s (storeParam n v' s))) := by
  subst hv'
  exact (storeValue_goodValue hcode hbit).trans ((refuseIf_passes ((parity_iff hbit).mpr hodd)).trans
    ((storeValue_modePasses hmode).trans (refuseIf_passes h)))

end

/-! ### The effect does not look at the command buffer -/

section
variable {m : List Byte}

theorem maskAisles_load (before s : State) :
    maskAisles (loadCommand m before) (loadCommand m s) = loadCommand m (maskAisles before s) :=
  commutes_foldl (fun a => commutes_ite (fun t => aislePresent before a = aislePresent t a) (fun _ => rfl) commutes_id
    (g := fun t => setAisle a { aisleRec t a with suspension := .inService } t) (fun _ => rfl)) aisleList s

theorem commutes_removeStation (z : Station) : Commutes m (removeStation z) := by
  intro s
  rw [removeStation_eq, removeStation_eq]
  rfl

theorem commutes_startStation (z : Station) : Commutes m (startStation z) :=
  commutes_ite (fun s => zoneClosed s z = true) (fun _ => rfl) (f := fun s => sendPanel z .locked (reportReleased z s))
    (fun _ => rfl) (g := fun s => reopenOrder z (resendTasks z s))
    (fun s => (congrArg (reopenOrder z) (commutes_resendTasks z s)).trans (commutes_reopenOrder z _))

theorem commutes_resetStation (z : Station) : Commutes m (resetStation z) := fun _ => rfl

theorem commutes_maskStation (before : State) (z : Station) : Commutes m (maskStation before z) := by
  intro s
  cases hb : stationPresent before z <;> cases hp : stationPresent s z
  case true.false =>
    rw [maskStation_removes hb hp, maskStation_removes (t := loadCommand m s) hb hp, commutes_removeStation]
  case false.true =>
    rw [maskStation_adds hb hp, maskStation_adds (t := loadCommand m s) hb hp, commutes_resetStation, commutes_startStation]
  all_goals
    rw [maskStation_same (hb.trans hp.symm), maskStation_same (t := loadCommand m s) (hb.trans hp.symm)]

theorem maskStations_load (before s : State) :
    maskStations (loadCommand m before) (loadCommand m s) = loadCommand m (maskStations before s) :=
  commutes_foldl (fun z => commutes_maskStation before z) stationList s

theorem commutes_reconcile (i : FireInput) : Commutes m (reconcile i) := by
  intro s
  rw [reconcile_eq, reconcile_eq]
  rfl

theorem paramEffect_load (n : Fin 41) (before s : State) :
    paramEffect n (loadCommand m before) (loadCommand m s) = loadCommand m (paramEffect n before s) := by
  unfold paramEffect
  split
  · exact maskAisles_load before s
  · split
    · exact maskStations_load before s
    · split
      · exact commutes_foldl (fun i => commutes_reconcile i) inputList s
      · rfl

end

/-! ### The settled statement -/

section
variable {before s : State} {z : Station} {r : StationRec}

theorem maskStations_unchanged (h : stationPresent before z = stationPresent s z) :
    station (maskStations before s) z = station s z ∧ zone (maskStations before s) z = zone s z := by
  obtain ⟨u, hu, hstation, hzone, -, ht, htz⟩ := maskStations_turn before s z
  have hp : stationPresent u z = stationPresent s z := by
    rw [stationPresent, hu.params, stationPresent]
  rw [ht, htz, maskStation_same (h.trans hp.symm)]
  exact ⟨hstation, hzone⟩

theorem maskStations_removed (hb : stationPresent before z = true) (h : stationPresent s z = false) :
    station (maskStations before s) z = removedStation s z ∧ zone (maskStations before s) z = removedZone s z := by
  obtain ⟨u, hu, hstation, hzone, -, ht, htz⟩ := maskStations_turn before s z
  have hparams := hu.params
  have hp : stationPresent u z = stationPresent s z := by rw [stationPresent, hparams, stationPresent]
  rw [ht, htz, maskStation_removes hb (hp.trans h), removeStation_eq]
  refine ⟨(station_setStation z _ u).trans ?_, (zone_setZone z _ _).trans ?_⟩
  · simp only [removedStation, hstation, param_congr hparams]
  · simp only [removedZone, hstation, hzone]

theorem maskStations_added (hb : stationPresent before z = false) (h : stationPresent s z = true) :
    (if zoneClosed s z then FieldMsg.panel z .locked else .panel z .clear) ∈ (maskStations before s).sent ∧
    station (maskStations before s) z = startedStation s z ∧ zone (maskStations before s) z = startedZone s z := by
  obtain ⟨u, hu, hstation, hzone, hrest, ht, htz⟩ := maskStations_turn before s z
  have hp : stationPresent u z = true := by
    rw [stationPresent, hu.params]
    exact h
  obtain ⟨x, hx, hmem⟩ := startStation_eq hp
  have hstart : maskStation before z u = { startedAt u z with sent := u.sent ++ x } := (maskStation_adds hb hp).trans hx
  have hclosed : zoneClosed u z = zoneClosed s z := by rw [zoneClosed, hzone, zoneClosed]
  rw [hclosed] at hmem
  refine ⟨hrest.sent.subset ?_, ?_, ?_⟩
  · rw [hstart]
    exact List.mem_append_right _ hmem
  · rw [ht, hstart]
    exact (station_setStation z _ u).trans (startedStation_congr hu hstation hzone)
  · rw [htz, hstart]
    exact (zone_setZone z _ (setStation z _ u)).trans (startedZone_congr hstation hzone)

end

/-- Settles O36. -/
theorem setParameterStores : Obligations.SetParameterStores := by
  refine ⟨fun v => ⟨fun e he => ?_, fun e he => clamp_mask (maskRanges_hold e he) v,
    fun e he => clamp_codes (codeRanges_hold e he) v, rfl, ?ratio⟩, removesUsed_iff, ?effect, ?command⟩
  · obtain ⟨hr, hl, hh⟩ := numericRanges_hold e he
    exact clamp_numeric hr hl hh v
  case ratio =>
    rintro x rfl
    have hclamp := clamp_ratio v
    generalize ((paramRange 29).clamp v).toNat = x at hclamp
    subst hclamp
    refine ⟨?_, fun h => ?_, fun h => ?_⟩ <;> (repeat' split) <;> omega
  case effect =>
    rintro n before s t rfl
    refine ⟨fun h0 h1 h33 => ?_, ?_, ?_, ?_⟩
    · rw [paramEffect, if_neg h0, if_neg h1, if_neg h33]
    · rintro rfl
      exact ⟨maskAisles_keeps before s, aisleRec_maskAisles before s⟩
    · rintro rfl
      refine ⟨reconcileAll_keeps s, fun i => (conditioner_reconcileAll s i).trans ?_⟩
      simp only [deglitchTime, apply_ite (param s)]
    · rintro rfl
      have hframe := atStations_maskStations before s
      refine ⟨hframe.rest, hframe.sent, ?_⟩
      rintro z r rfl
      refine ⟨maskStations_unchanged, maskStations_removed, ?_⟩
      rintro face at_ opens located hb hp rfl rfl rfl
      obtain ⟨hsent, hstation, hzone⟩ := maskStations_added hb hp
      refine ⟨hsent, hzone, hstation.trans ?_⟩
      simp only [startedStation, stationAfterReset, absentStation, openingAfterReset_eq, faceTimerAfterReset_eq]
      rfl
  case command =>
    rintro p s v hs hp hv refused
    have hrefuse {n : Fin 41} (hn : n.val = byteAt p 0) {code : OutcomeCode}
        (h : ∀ x, storeValue p n v (loadCommand x s) = .refuse code []) : refused code :=
      congrArg Host.Outcome.next (takeCommand_refuses hs hp (by decide) modeCheck_both
        ((runSetParameter_eq hv hn).trans (h _)))
    refine ⟨fun h => ?_, fun n hn => ⟨fun h => hrefuse hn fun x => storeValue_badValue h, fun hcode hbit =>
      ⟨fun h => hrefuse hn fun x => storeValue_parity hcode hbit h, fun hodd =>
        ⟨fun h5 hm => hrefuse hn fun x => storeValue_mode hcode hbit hodd h5 hm, ?_⟩⟩⟩⟩
    · exact congrArg Host.Outcome.next (takeCommand_refuses hs hp (by decide) modeCheck_both
        (withSome_refuses (paramOf_eq_none h)))
    · rintro hmode v' rfl
      refine ⟨fun h => hrefuse hn fun x => storeValue_state (s := loadCommand x s) hcode hbit hodd hmode h, fun h => ?_⟩
      refine ⟨_, settles_settleAll s _, congrArg Host.Outcome.next ?_⟩
      exact takeCommand_settlesAll hs hp (by decide) modeCheck_both fun x =>
        (runSetParameter_eq hv hn).trans ((storeValue_stores (s := loadCommand x s) hcode hbit hodd hmode rfl h).trans
          (by rw [← paramEffect_load]; rfl))

end Sys2Proof.Machine

/-! The Withdrawal Table: lookup, insertion and deletion keep its law (R46, R49 to R52, R163). An empty bucket lies on no record's
probe path, so the buckets are counted upwards from the one after it, and every probe path becomes an interval. -/

namespace Sys2Proof.Machine

/-! ### Places counted from an empty bucket -/

/-- The place of a bucket, counted from the bucket after `e`; that of `e` itself is the last. -/
def placeFrom (e x : Nat) : Nat := (x + 4095 - e) % 4096

section
variable {e x y d : Nat}

theorem placeFrom_lt (e x : Nat) : placeFrom e x < 4096 := Nat.mod_lt _ (by decide)

theorem placeFrom_self (e : Nat) : placeFrom e e = 4095 := by
  unfold placeFrom
  omega

theorem placeFrom_injective (he : e < 4096) (hx : x < 4096) (hy : y < 4096) (h : placeFrom e x = placeFrom e y) : x = y := by
  unfold placeFrom at h
  omega

theorem eq_of_placeFrom_last (he : e < 4096) (hx : x < 4096) (h : placeFrom e x = 4095) : x = e :=
  placeFrom_injective he hx he (h.trans (placeFrom_self e).symm)

theorem placeFrom_nextBucket (he : e < 4096) (hx : x < 4096) (h : x ≠ e) :
    placeFrom e (nextBucket x) = placeFrom e x + 1 := by
  have hnext : nextBucket x = if x + 1 < 4096 then x + 1 else 0 := rfl
  unfold placeFrom
  by_cases hlast : x + 1 < 4096
  · rw [hnext, if_pos hlast]
    omega
  · rw [hnext, if_neg hlast]
    omega

/-- The cyclic interval that a deletion tests, in places (R51). -/
theorem cyclicIn_iff {i h j : Nat} (he : e < 4096) (hi : i < 4096) (hj : j < 4096) (hh : h < 4096)
    (hij : placeFrom e i < placeFrom e j) (hhj : placeFrom e h ≤ placeFrom e j) :
    cyclicIn i h j = true ↔ placeFrom e i < placeFrom e h := by
  unfold placeFrom at *
  unfold cyclicIn
  split
  · rw [Bool.and_eq_true, decide_eq_true_iff, decide_eq_true_iff]
    omega
  · rw [Bool.or_eq_true, decide_eq_true_iff, decide_eq_true_iff]
    omega

end

/-! ### The law in places -/

/-- No key stands twice in the table (R46). -/
def KeysOnce (t : Table WithdrawalRec) : Prop :=
  ∀ (i j : Nat) (r w : WithdrawalRec), tableGet t i = some r → tableGet t j = some w → r.key = w.key → i = j

/-- Every bucket from a record's home bucket to its own holds a record; but the gap `i` may be passed by records from bucket `j`
on. Without a gap, `i` is any bucket and `j` the empty bucket `e` itself. -/
structure PathsBut (e i j : Nat) (t : Table WithdrawalRec) : Prop where
  form  : tableWf 4096 t = true
  once  : KeysOnce t
  empty : tableGet t e = none
  home  : ∀ b r, tableGet t b = some r → placeFrom e (homeBucket r.key) ≤ placeFrom e b
  path  : ∀ b r, tableGet t b = some r → ∀ x, x < 4096 → placeFrom e (homeBucket r.key) ≤ placeFrom e x →
    placeFrom e x ≤ placeFrom e b → (tableGet t x).isSome = true ∨ (x = i ∧ placeFrom e j ≤ placeFrom e b)

section
variable {t : Table WithdrawalRec} {e i j b : Nat} {r : WithdrawalRec}

theorem bucket_lt (h : PathsBut e i j t) (hb : tableGet t b = some r) : b < 4096 := tableWf_lt h.form hb

theorem place_lt_last (h : PathsBut e i j t) (he : e < 4096) (hb : tableGet t b = some r) : placeFrom e b < 4095 := by
  have hlt := placeFrom_lt e b
  have hne : placeFrom e b ≠ 4095 := fun hlast => by
    rw [eq_of_placeFrom_last he (bucket_lt h hb) hlast, h.empty] at hb
    cases hb
  omega

/-- The law of the table, from any of its empty buckets, with no gap. -/
theorem pathsBut_of_probeLaw (h : ProbeLaw t) (he : e < 4096) (hempty : tableGet t e = none) : PathsBut e e e t := by
  have hspan (b) (r) (hb : tableGet t b = some r) : placeFrom e (homeBucket r.key) ≤ placeFrom e b := by
    have hblt : b < 4096 := tableWf_lt h.form hb
    have hhome : homeBucket r.key < 4096 := homeBucket_lt r.key
    refine Nat.not_lt.mp fun hlt => ?_
    have hat : (homeBucket r.key + (4095 - placeFrom e (homeBucket r.key))) % 4096 = e := by
      unfold placeFrom
      omega
    have hpath := h.path b r hb (4095 - placeFrom e (homeBucket r.key)) (by unfold placeFrom at *; omega)
    rw [hat, hempty] at hpath
    cases hpath
  refine ⟨h.form, h.once, hempty, hspan, fun b r hb x hx hhx hxb => .inl ?_⟩
  have hblt : b < 4096 := tableWf_lt h.form hb
  have hhome : homeBucket r.key < 4096 := homeBucket_lt r.key
  have hat : (homeBucket r.key + (placeFrom e x - placeFrom e (homeBucket r.key))) % 4096 = x := by
    unfold placeFrom at *
    omega
  have hpath := h.path b r hb (placeFrom e x - placeFrom e (homeBucket r.key)) (by unfold placeFrom at *; omega)
  rwa [hat] at hpath

/-- The law again, once no record passes a gap. -/
theorem probeLaw_of_pathsBut (h : PathsBut e i e t) (he : e < 4096) : ProbeLaw t where
  form := h.form
  space := ⟨e, he, h.empty⟩
  once := h.once
  path b r hb d hd := by
    have hblt := bucket_lt h hb
    have hhome : homeBucket r.key < 4096 := homeBucket_lt r.key
    have hspan := h.home b r hb
    have hlast := place_lt_last h he hb
    have hpath := h.path b r hb ((homeBucket r.key + d) % 4096) (Nat.mod_lt _ (by decide))
      (by unfold placeFrom at *; omega) (by unfold placeFrom at *; omega)
    refine hpath.resolve_right fun hgap => ?_
    have hself := placeFrom_self e
    omega

end

/-! ### Lookup (R49) -/

section
variable {t : Table WithdrawalRec} {e i j b : Nat} {key : ItemKey} {r : WithdrawalRec}

/-- A walk that meets other keys up to bucket `j`, and there an empty bucket or the key, ends there. -/
theorem probe_ends (he : e < 4096) (hj : j < 4096) (hempty : tableGet t e = none)
    (hstop : tableGet t j = none ∨ ∃ r, tableGet t j = some r ∧ r.key = key)
    (fuel : Nat) (hi : i < 4096) (hij : placeFrom e i ≤ placeFrom e j) (hfuel : placeFrom e j - placeFrom e i < fuel)
    (hother : ∀ x, x < 4096 → placeFrom e i ≤ placeFrom e x → placeFrom e x < placeFrom e j →
      ∃ r, tableGet t x = some r ∧ r.key ≠ key) (p : Nat) :
    (probe t key fuel i p).bucket = j ∧ (probe t key fuel i p).found = (tableGet t j).isSome := by
  induction fuel generalizing i p with
  | zero => exact absurd hfuel (Nat.not_lt_zero _)
  | succ fuel ih =>
    by_cases heq : i = j
    · subst heq
      obtain hnone | ⟨r, hr, hk⟩ := hstop
      · simp [probe, hnone]
      · simp [probe, hr, hk]
    · have hlt : placeFrom e i < placeFrom e j :=
        Nat.lt_of_le_of_ne hij fun h => heq (placeFrom_injective he hi hj h)
      obtain ⟨r, hr, hk⟩ := hother i hi (Nat.le_refl _) hlt
      have hne : i ≠ e := fun h => by rw [h, hempty] at hr; cases hr
      have hnext := placeFrom_nextBucket he hi hne
      simp only [probe, hr, if_neg hk]
      exact ih nextBucket_lt (by omega) (by omega) (fun x hx hix hxj => hother x hx (by omega) hxj) _

theorem lookup_ends (he : e < 4096) (hj : j < 4096) (hempty : tableGet t e = none)
    (hstop : tableGet t j = none ∨ ∃ r, tableGet t j = some r ∧ r.key = key)
    (hij : placeFrom e (homeBucket key) ≤ placeFrom e j)
    (hother : ∀ x, x < 4096 → placeFrom e (homeBucket key) ≤ placeFrom e x → placeFrom e x < placeFrom e j →
      ∃ r, tableGet t x = some r ∧ r.key ≠ key) :
    (lookup t key).bucket = j ∧ (lookup t key).found = (tableGet t j).isSome :=
  probe_ends he hj hempty hstop 4096 (homeBucket_lt key) hij (by have := placeFrom_lt e j; omega) hother 0

/-- A record of the table is found in its bucket. -/
theorem lookup_found (h : PathsBut e e e t) (he : e < 4096) (hb : tableGet t b = some r) :
    (lookup t r.key).bucket = b ∧ (lookup t r.key).found = true := by
  have hblt := bucket_lt h hb
  obtain ⟨hbucket, hfound⟩ := lookup_ends he hblt h.empty (.inr ⟨r, hb, rfl⟩) (h.home b r hb) fun x hx hhx hxb => by
    obtain hsome | ⟨rfl, -⟩ := h.path b r hb x hx hhx (Nat.le_of_lt hxb)
    · obtain ⟨w, hw⟩ := Option.isSome_iff_exists.mp hsome
      exact ⟨w, hw, fun hk => absurd (h.once x b w r hw hb hk) fun heq => by rw [heq] at hxb; exact absurd hxb (Nat.lt_irrefl _)⟩
    · have hself := placeFrom_self x
      have hlast := place_lt_last h he hb
      omega
  exact ⟨hbucket, by rw [hfound, hb]; rfl⟩

theorem exists_least {p : Nat → Prop} (h : ∃ d, p d) : ∃ d, p d ∧ ∀ m, m < d → ¬p m := by
  classical
  exact ⟨Nat.find h, Nat.find_spec h, fun _ => Nat.find_min h⟩

/-- A key without a record ends at the first empty bucket of its path. -/
theorem lookup_free (h : PathsBut e e e t) (he : e < 4096) (hno : ∀ b r, tableGet t b = some r → r.key ≠ key) :
    ∃ j, j < 4096 ∧ tableGet t j = none ∧ (lookup t key).bucket = j ∧ (lookup t key).found = false ∧
      placeFrom e (homeBucket key) ≤ placeFrom e j ∧
      ∀ x, x < 4096 → placeFrom e (homeBucket key) ≤ placeFrom e x → placeFrom e x < placeFrom e j →
        (tableGet t x).isSome = true := by
  have hexists : ∃ d, placeFrom e (homeBucket key) ≤ d ∧ ∃ x, x < 4096 ∧ placeFrom e x = d ∧ tableGet t x = none :=
    ⟨placeFrom e e, by rw [placeFrom_self e]; exact Nat.le_of_lt_succ (placeFrom_lt e _), e, he, rfl, h.empty⟩
  obtain ⟨d, ⟨hle, j, hj, rfl, hnone⟩, hmin⟩ := exists_least hexists
  have hfirst (x) (hx : x < 4096) (hhx : placeFrom e (homeBucket key) ≤ placeFrom e x) (hxj : placeFrom e x < placeFrom e j) :
      (tableGet t x).isSome = true := by
    exact Option.isSome_iff_ne_none.mpr fun hx' => hmin _ hxj ⟨hhx, x, hx, rfl, hx'⟩
  obtain ⟨hbucket, hfound⟩ := lookup_ends he hj h.empty (.inl hnone) hle fun x hx hhx hxj => by
    obtain ⟨w, hw⟩ := Option.isSome_iff_exists.mp (hfirst x hx hhx hxj)
    exact ⟨w, hw, hno x w hw⟩
  exact ⟨j, hj, hnone, hbucket, by rw [hfound, hnone]; rfl, hle, hfirst⟩

end

section
variable {s t : State} {key : ItemKey} {w : WithdrawalRec}

/-- In a table that keeps the law a key has the record that carries it. -/
theorem withdrawal_iff_of_probeLaw (h : ProbeLaw s.withdrawals) :
    withdrawal s key = some w ↔ w.key = key ∧ ∃ b, tableGet s.withdrawals b = some w := by
  obtain ⟨e, he, hempty⟩ := h.space
  have hpaths := pathsBut_of_probeLaw h he hempty
  rw [withdrawal_eq_some_iff]
  constructor
  · rintro ⟨hfound, hget⟩
    refine ⟨?_, _, hget⟩
    by_contra hkey
    by_cases hno : ∀ b r, tableGet s.withdrawals b = some r → r.key ≠ key
    · obtain ⟨j, -, -, -, hfree, -⟩ := lookup_free hpaths he hno
      rw [hfree] at hfound
      cases hfound
    · push Not at hno
      obtain ⟨b, r, hb, rfl⟩ := hno
      rw [(lookup_found hpaths he hb).1, hb] at hget
      exact hkey (congrArg WithdrawalRec.key (Option.some.inj hget).symm)
  · rintro ⟨rfl, b, hb⟩
    obtain ⟨hbucket, hfound⟩ := lookup_found hpaths he hb
    exact ⟨hfound, by rw [hbucket, hb]⟩

/-- Two tables that keep the law and hold the same records of a key answer it alike. -/
theorem withdrawal_congr (hs : ProbeLaw s.withdrawals) (ht : ProbeLaw t.withdrawals)
    (h : ∀ w : WithdrawalRec, w.key = key →
      ((∃ b, tableGet t.withdrawals b = some w) ↔ ∃ b, tableGet s.withdrawals b = some w)) :
    withdrawal t key = withdrawal s key := by
  refine Option.ext fun w => ?_
  rw [withdrawal_iff_of_probeLaw hs, withdrawal_iff_of_probeLaw ht]
  exact ⟨fun ⟨hk, hb⟩ => ⟨hk, (h w hk).mp hb⟩, fun ⟨hk, hb⟩ => ⟨hk, (h w hk).mpr hb⟩⟩

theorem withdrawal_none_of_probeLaw (h : ProbeLaw s.withdrawals) (hn : withdrawal s key = none) (b : Nat) (r : WithdrawalRec)
    (hb : tableGet s.withdrawals b = some r) : r.key ≠ key := fun hk => by
  rw [(withdrawal_iff_of_probeLaw h).mpr ⟨hk, b, hb⟩] at hn
  cases hn

end

end Sys2Proof.Machine

/-! Insertion into the Withdrawal Table, and deletion with its gap closed (R50 to R52, R163). -/

namespace Sys2Proof.Machine

/-! ### Insertion (R50) -/

section
variable {t : Table WithdrawalRec} {e j : Nat} {w : WithdrawalRec}

theorem isSome_put (t : Table WithdrawalRec) (j : Nat) (w : WithdrawalRec) (x : Nat) (h : (tableGet t x).isSome = true) :
    (tableGet (tablePut t j w) x).isSome = true := by
  rw [tableGet_put]
  split
  · rfl
  · exact h

/-- A record of a new key in the first empty bucket of its path keeps the law about another empty bucket. -/
theorem pathsBut_put (h : PathsBut e e e t) (he : e < 4096) (hj : j < 4096) (hje : j ≠ e)
    (hno : ∀ b r, tableGet t b = some r → r.key ≠ w.key) (hplace : placeFrom e (homeBucket w.key) ≤ placeFrom e j)
    (hpath : ∀ x, x < 4096 → placeFrom e (homeBucket w.key) ≤ placeFrom e x → placeFrom e x < placeFrom e j →
      (tableGet t x).isSome = true) : PathsBut e e e (tablePut t j w) where
  form := tableWf_put h.form hj
  once a b r q ha hb hk := by
    rw [tableGet_put] at ha hb
    split at ha <;> split at hb
    · next haj hbj => rw [haj, hbj]
    · cases ha
      exact absurd hk.symm (hno b q hb)
    · cases hb
      exact absurd hk (hno a r ha)
    · exact h.once a b r q ha hb hk
  empty := (tableGet_put_ne t (Ne.symm hje) w).trans h.empty
  home b r hb := by
    rw [tableGet_put] at hb
    split at hb
    · next hbj =>
      cases hb
      rw [hbj]
      exact hplace
    · exact h.home b r hb
  path b r hb x hx hhx hxb := by
    rw [tableGet_put] at hb
    split at hb
    · next hbj =>
      cases hb
      subst hbj
      by_cases hxb' : x = b
      · rw [hxb', tableGet_put_same]
        exact .inl rfl
      · exact .inl (isSome_put t b w x (hpath x hx hhx
          (Nat.lt_of_le_of_ne hxb fun heq => hxb' (placeFrom_injective he hx hj heq))))
    · exact (h.path b r hb x hx hhx hxb).imp_left (isSome_put t j w x)

end

section
variable {s : State} {w : WithdrawalRec}

/-- The bucket that an insertion fills. -/
theorem insertRecord_fills (h : ProbeLaw s.withdrawals) (hn : withdrawal s w.key = none)
    (hspace : ∃ i j : Nat, i < j ∧ j < 4096 ∧ tableGet s.withdrawals i = none ∧ tableGet s.withdrawals j = none) :
    ∃ j, tableGet s.withdrawals j = none ∧ ProbeLaw (tablePut s.withdrawals j w) ∧
      insertRecord w s = { s with withdrawals := tablePut s.withdrawals j w, recordCount := s.recordCount + 1 } := by
  obtain ⟨a, b, hab, hb, hanone, hbnone⟩ := hspace
  have hno := withdrawal_none_of_probeLaw h hn
  have ha : a < 4096 := Nat.lt_trans hab hb
  have hgo {e : Nat} (he : e < 4096) (hempty : tableGet s.withdrawals e = none)
      (hne : (lookup s.withdrawals w.key).bucket ≠ e) : ∃ j, tableGet s.withdrawals j = none ∧
        ProbeLaw (tablePut s.withdrawals j w) ∧
        insertRecord w s = { s with withdrawals := tablePut s.withdrawals j w, recordCount := s.recordCount + 1 } := by
    have hpaths := pathsBut_of_probeLaw h he hempty
    obtain ⟨j, hj, hjnone, hbucket, hfound, hplace, hfirst⟩ := lookup_free hpaths he hno
    rw [hbucket] at hne
    refine ⟨j, hjnone, probeLaw_of_pathsBut (pathsBut_put hpaths he hj hne hno hplace hfirst) he, ?_⟩
    simp only [insertRecord, hfound, hbucket, Bool.false_eq_true, if_false]
  by_cases hla : (lookup s.withdrawals w.key).bucket = a
  · exact hgo hb hbnone (by omega)
  · exact hgo ha hanone hla

end

/-! ### Deletion (R51) -/

section
variable {t : Table WithdrawalRec} {e i j : Nat} {r : WithdrawalRec}

/-- The table holds the record in some bucket. -/
def Holds (t : Table WithdrawalRec) (r : WithdrawalRec) : Prop := ∃ b, tableGet t b = some r

/-- A record whose home bucket lies behind the gap stays, and the gap may be passed by fewer records. -/
theorem pathsBut_keep (h : PathsBut e i j t) (he : e < 4096) (hr : tableGet t j = some r)
    (hhome : placeFrom e i < placeFrom e (homeBucket r.key)) : PathsBut e i (nextBucket j) t where
  form := h.form
  once := h.once
  empty := h.empty
  home := h.home
  path b q hb x hx hhx hxb := by
    have hblt := bucket_lt h hb
    have hjlt := bucket_lt h hr
    have hje : j ≠ e := fun heq => by rw [heq, h.empty] at hr; cases hr
    have hnext := placeFrom_nextBucket he hjlt hje
    refine (h.path b q hb x hx hhx hxb).imp_right ?_
    rintro ⟨rfl, hjb⟩
    by_cases hbj : b = j
    · subst hbj
      rw [hr] at hb
      cases hb
      omega
    · have hne : placeFrom e b ≠ placeFrom e j := fun heq => hbj (placeFrom_injective he hblt hjlt heq)
      exact ⟨rfl, by omega⟩

/-- The table with the record of bucket `j` moved into the empty bucket `i`. -/
def movedTable (t : Table WithdrawalRec) (i j : Nat) (r : WithdrawalRec) : Table WithdrawalRec :=
  tableErase (tablePut t i r) j

theorem tableGet_moved (t : Table WithdrawalRec) (i j : Nat) (r : WithdrawalRec) (x : Nat) :
    tableGet (movedTable t i j r) x = if x = j then none else if x = i then some r else tableGet t x := by
  rw [movedTable, tableGet_erase, tableGet_put]

theorem holds_moved (hij : i ≠ j) (hi : tableGet t i = none) (hr : tableGet t j = some r) (q : WithdrawalRec) :
    Holds (movedTable t i j r) q ↔ Holds t q := by
  constructor
  · rintro ⟨b, hb⟩
    rw [tableGet_moved] at hb
    split at hb
    · cases hb
    · split at hb
      · cases hb
        exact ⟨j, hr⟩
      · exact ⟨b, hb⟩
  · rintro ⟨b, hb⟩
    by_cases hbj : b = j
    · refine ⟨i, ?_⟩
      rw [hbj, hr] at hb
      cases hb
      rw [tableGet_moved, if_neg hij, if_pos rfl]
    · have hbi : b ≠ i := fun heq => by rw [heq, hi] at hb; cases hb
      exact ⟨b, by rw [tableGet_moved, if_neg hbj, if_neg hbi, hb]⟩

/-- A record whose path passes the gap moves into it, and leaves the gap in its bucket. -/
theorem pathsBut_move (h : PathsBut e i j t) (he : e < 4096) (hi : i < 4096) (hie : i ≠ e)
    (hij : placeFrom e i < placeFrom e j) (hinone : tableGet t i = none) (hr : tableGet t j = some r)
    (hhome : placeFrom e (homeBucket r.key) ≤ placeFrom e i) : PathsBut e j (nextBucket j) (movedTable t i j r) where
  form := tableWf_erase (tableWf_put h.form hi)
  once a b p q ha hb hk := by
    rw [tableGet_moved] at ha hb
    split at ha
    · cases ha
    · next haj =>
      split at hb
      · cases hb
      · next hbj =>
        split at ha <;> split at hb
        · next hai hbi => rw [hai, hbi]
        · cases ha
          exact absurd (h.once j b r q hr hb hk).symm hbj
        · cases hb
          exact absurd (h.once a j p r ha hr hk) haj
        · exact h.once a b p q ha hb hk
  empty := by
    have hje : e ≠ j := fun heq => by rw [← heq, h.empty] at hr; cases hr
    rw [tableGet_moved, if_neg hje, if_neg (Ne.symm hie), h.empty]
  home b q hb := by
    rw [tableGet_moved] at hb
    split at hb
    · cases hb
    · split at hb
      · next hbi =>
        cases hb
        rw [hbi]
        exact hhome
      · exact h.home b q hb
  path b q hb x hx hhx hxb := by
    have hjlt := bucket_lt h hr
    have hje : j ≠ e := fun heq => by rw [heq, h.empty] at hr; cases hr
    have hnext := placeFrom_nextBucket he hjlt hje
    rw [tableGet_moved] at hb ⊢
    split at hb
    · cases hb
    · next hbj =>
      split at hb
      · next hbi =>
        cases hb
        subst hbi
        have hxj : x ≠ j := fun heq => by rw [heq] at hxb; omega
        rw [if_neg hxj]
        split
        · exact .inl rfl
        · next hxi =>
          exact (h.path j r hr x hx hhx (by omega)).imp_right fun hgap => absurd hgap.1 hxi
      · next hbi =>
        have hblt := bucket_lt h hb
        by_cases hxj : x = j
        · have hne : placeFrom e b ≠ placeFrom e j := fun heq => hbj (placeFrom_injective he hblt hjlt heq)
          subst hxj
          exact .inr ⟨rfl, by omega⟩
        · rw [if_neg hxj]
          split
          · exact .inl rfl
          · next hxi => exact (h.path b q hb x hx hhx hxb).imp_right fun hgap => absurd hgap.1 hxi

/-- The walk of a deletion ends at the first empty bucket, with no record behind a gap, and with the same records. -/
theorem closeGap_keeps (he : e < 4096) (fuel : Nat) (h : PathsBut e i j t) (hi : i < 4096) (hj : j < 4096) (hie : i ≠ e)
    (hij : placeFrom e i < placeFrom e j) (hinone : tableGet t i = none) (hfuel : 4095 - placeFrom e j < fuel) :
    ProbeLaw (closeGap fuel i j t) ∧ ∀ q, Holds (closeGap fuel i j t) q ↔ Holds t q := by
  induction fuel generalizing i j t with
  | zero => exact absurd hfuel (Nat.not_lt_zero _)
  | succ fuel ih =>
    unfold closeGap
    cases hr : tableGet t j with
    | none =>
      refine ⟨probeLaw_of_pathsBut (i := i) ⟨h.form, h.once, h.empty, h.home, fun b q hb x hx hhx hxb => ?_⟩ he,
        fun q => Iff.rfl⟩
      refine .inl ((h.path b q hb x hx hhx hxb).resolve_right ?_)
      rintro ⟨rfl, hjb⟩
      obtain hsome | ⟨heq, -⟩ := h.path b q hb j hj (by omega) hjb
      · rw [hr] at hsome
        cases hsome
      · rw [heq] at hij
        exact Nat.lt_irrefl _ hij
    | some r =>
      have hje : j ≠ e := fun heq => by rw [heq, h.empty] at hr; cases hr
      have hnext := placeFrom_nextBucket he hj hje
      have hlast := placeFrom_lt e (nextBucket j)
      have hcyclic := cyclicIn_iff he hi hj (homeBucket_lt r.key) hij (h.home j r hr)
      dsimp only
      split
      · next hc =>
        exact ih (pathsBut_keep h he hr (hcyclic.mp hc)) hi nextBucket_lt hie (by omega) hinone (by omega)
      · next hc =>
        have hhome : placeFrom e (homeBucket r.key) ≤ placeFrom e i := Nat.not_lt.mp (mt hcyclic.mpr hc)
        have hne : i ≠ j := fun heq => by rw [heq] at hij; exact Nat.lt_irrefl _ hij
        obtain ⟨hlaw, hholds⟩ := ih (t := movedTable t i j r) (pathsBut_move h he hi hie hij hinone hr hhome) hj nextBucket_lt
          hje (by omega) (by rw [tableGet_moved, if_pos rfl]) (by omega)
        exact ⟨hlaw, fun q => (hholds q).trans (holds_moved hne hinone hr q)⟩

/-- A record taken out of the table, with its gap closed. -/
theorem removeBucket_keeps (h : ProbeLaw t) (hr : tableGet t i = some r) :
    ProbeLaw (removeBucket t i) ∧ ∀ q, Holds (removeBucket t i) q ↔ Holds t q ∧ q.key ≠ r.key := by
  obtain ⟨e, he, hempty⟩ := h.space
  have hpaths := pathsBut_of_probeLaw h he hempty
  have hi := bucket_lt hpaths hr
  have hie : i ≠ e := fun heq => by rw [heq, hempty] at hr; cases hr
  have hnext := placeFrom_nextBucket he hi hie
  have hgap : PathsBut e i (nextBucket i) (tableErase t i) := by
    refine ⟨tableWf_erase h.form, fun a b p q ha hb hk => ?_, ?_, fun b q hb => ?_, fun b q hb x hx hhx hxb => ?_⟩
    · rw [tableGet_erase] at ha hb
      split at ha
      · cases ha
      · split at hb
        · cases hb
        · exact h.once a b p q ha hb hk
    · rw [tableGet_erase_ne t (Ne.symm hie), hempty]
    · rw [tableGet_erase] at hb
      split at hb
      · cases hb
      · exact hpaths.home b q hb
    · rw [tableGet_erase] at hb
      split at hb
      · cases hb
      · next hbi =>
        have hblt := bucket_lt hpaths hb
        have hsome := (hpaths.path b q hb x hx hhx hxb).resolve_right fun ⟨hxe, hlast⟩ => by
          have hself := placeFrom_self e
          have hplace := place_lt_last hpaths he hb
          omega
        by_cases hxi : x = i
        · have hne : placeFrom e b ≠ placeFrom e i := fun heq => hbi (placeFrom_injective he hblt hi heq)
          subst hxi
          exact .inr ⟨rfl, by omega⟩
        · rw [tableGet_erase_ne t hxi]
          exact .inl hsome
  obtain ⟨hlaw, hholds⟩ := closeGap_keeps he 4096 hgap hi nextBucket_lt hie (by omega) (tableGet_erase_same t i) (by omega)
  refine ⟨hlaw, fun q => (hholds q).trans ?_⟩
  constructor
  · rintro ⟨b, hb⟩
    rw [tableGet_erase] at hb
    split at hb
    · cases hb
    · next hbi => exact ⟨⟨b, hb⟩, fun hk => hbi (h.once b i q r hb hr hk)⟩
  · rintro ⟨⟨b, hb⟩, hk⟩
    have hbi : b ≠ i := fun heq => by
      rw [heq, hr] at hb
      exact hk (congrArg WithdrawalRec.key (Option.some.inj hb).symm)
    exact ⟨b, (tableGet_erase_ne t hbi).trans hb⟩

end

section
variable {s : State} {key : ItemKey} {w : WithdrawalRec}

theorem informScan_eq (s : State) : informScan s = { s with
    chanQ := if s.chanQ.table = .withdrawal ∧ (s.chanQ.state = .running ∨ s.chanQ.state = .paused) then
      { s.chanQ with disturbed := true } else s.chanQ } := by
  unfold informScan
  dsimp only
  split <;> rfl

/-- The bucket that a deletion empties, and what it does besides. -/
theorem deleteRecord_removes (h : withdrawal s key = some w) : ∃ i, tableGet s.withdrawals i = some w ∧
    deleteRecord key s = { s with
      withdrawals := removeBucket s.withdrawals i, recordCount := s.recordCount - 1
      chanQ := if s.chanQ.table = .withdrawal ∧ (s.chanQ.state = .running ∨ s.chanQ.state = .paused) then
        { s.chanQ with disturbed := true } else s.chanQ } := by
  obtain ⟨hfound, hget⟩ := withdrawal_eq_some_iff.mp h
  refine ⟨_, hget, ?_⟩
  simp only [deleteRecord, hfound, if_true, informScan_eq]

end

/-- Settles O55. -/
theorem withdrawalTableFindsItsRecords : Obligations.WithdrawalTableFindsItsRecords := by
  constructor
  · rintro w s t hlaw hn hspace rfl
    obtain ⟨j, hj, hlaw', hinsert⟩ := insertRecord_fills hlaw hn hspace
    rw [hinsert]
    refine ⟨hlaw', ?_, rfl, fun key hkey => withdrawal_congr hlaw hlaw' fun q hq => ?_, rfl⟩
    · exact (withdrawal_iff_of_probeLaw (s := { s with
        withdrawals := tablePut s.withdrawals j w, recordCount := s.recordCount + 1 }) hlaw').mpr
        ⟨rfl, j, tableGet_put_same ..⟩
    · have hne : q ≠ w := fun heq => hkey (by rw [← hq, heq])
      constructor
      · rintro ⟨b, hb⟩
        rw [tableGet_put] at hb
        split at hb
        · exact absurd (Option.some.inj hb).symm hne
        · exact ⟨b, hb⟩
      · rintro ⟨b, hb⟩
        have hbj : b ≠ j := fun heq => by rw [heq, hj] at hb; cases hb
        exact ⟨b, (tableGet_put_ne _ hbj _).trans hb⟩
  · rintro key w s t hlaw hw rfl
    have hkey : w.key = key := ((withdrawal_iff_of_probeLaw hlaw).mp hw).1
    obtain ⟨i, hi, hdelete⟩ := deleteRecord_removes hw
    obtain ⟨hlaw', hholds⟩ := removeBucket_keeps hlaw hi
    rw [hkey] at hholds
    rw [hdelete]
    refine ⟨hlaw', ?_, rfl, fun other hother => withdrawal_congr hlaw hlaw' fun q hq => ?_, rfl, rfl⟩
    · refine Option.eq_none_iff_forall_not_mem.mpr fun q hq => ?_
      obtain ⟨hk, hb⟩ := (withdrawal_iff_of_probeLaw hlaw').mp (Option.mem_def.mp hq)
      exact ((hholds q).mp hb).2 hk
    · exact (hholds q).trans ⟨fun hq' => hq'.1, fun hb => ⟨hb, by rw [hq]; exact hother⟩⟩

end Sys2Proof.Machine

/-! What the two laws of the Link Interface and of the shutters look at: the link but for the attention bits that events set, and
the door of each station. Each operation says once whether it leaves them as they are. -/

namespace Sys2Proof.Machine

/-- What the law of R147 looks at in a zone and its station. -/
structure Door where
  holdOpen : Bool
  shutter  : Shutter
  state    : ZoneState
  released : Bool
  present  : Bool

/-- The door of a zone's station. -/
def door (s : State) (z : Station) : Door :=
  ⟨(station s z).holdOpen, (station s z).shutter, (zone s z).state, (zone s z).released, stationPresent s z⟩

/-- The link with the attention bits left that no event sets, and the doors. -/
structure Gist where
  wire  : LinkRec
  doors : Station → Door

/-- The gist of a state. -/
def gist (s : State) : Gist := ⟨{ s.link with attention := s.link.attention &&& 0xF00000#24 }, door s⟩

/-! ### Basic updates -/

@[simp] theorem gist_setCrane (a : Aisle) (c : CraneRec) (s : State) : gist (setCrane a c s) = gist s := rfl
@[simp] theorem gist_setAisle (a : Aisle) (r : AisleRec) (s : State) : gist (setAisle a r s) = gist s := rfl
@[simp] theorem gist_setForkMark (a : Aisle) (b : Option Nat) (s : State) : gist (setForkMark a b s) = gist s := rfl
@[simp] theorem gist_setCrossingMark (z : Station) (b : Option Nat) (s : State) : gist (setCrossingMark z b s) = gist s :=
  rfl
@[simp] theorem gist_setConditioner (i : FireInput) (c : Conditioner) (s : State) : gist (setConditioner i c s) = gist s :=
  rfl
@[simp] theorem gist_setBin (b : Nat) (r : BinRec) (s : State) : gist (setBin b r s) = gist s := rfl
@[simp] theorem gist_freeBin (b : Nat) (s : State) : gist (freeBin b s) = gist s := rfl
@[simp] theorem gist_setSlot (sl : Slot) (e : SlotEntry) (s : State) : gist (setSlot sl e s) = gist s := rfl
@[simp] theorem gist_setVisit (n : Nat) (v : VisitRec) (s : State) : gist (setVisit n v s) = gist s := rfl
@[simp] theorem gist_sendDrive (a : Aisle) (m : DriveMsg) (s : State) : gist (sendDrive a m s) = gist s := rfl
@[simp] theorem gist_sendPanel (z : Station) (m : PanelMsg) (s : State) : gist (sendPanel z m s) = gist s := rfl
@[simp] theorem gist_addHoldWhere (r : HoldReason) (p : Nat → VisitRec → Bool) (s : State) :
    gist (addHoldWhere r p s) = gist s := rfl
@[simp] theorem gist_addHold (r : HoldReason) (n : Nat) (s : State) : gist (addHold r n s) = gist s := rfl
@[simp] theorem gist_liftHoldWhere (r : HoldReason) (p : Nat → VisitRec → Bool) (s : State) :
    gist (liftHoldWhere r p s) = gist s := rfl

@[simp] theorem gist_modBin (b : Nat) (f : BinRec → BinRec) (s : State) : gist (modBin b f s) = gist s := by
  unfold modBin
  split <;> rfl

@[simp] theorem gist_modVisit (n : Nat) (f : VisitRec → VisitRec) (s : State) : gist (modVisit n f s) = gist s := by
  unfold modVisit
  split <;> rfl

/-- A station's record is written with its output and its shutter as they were. -/
@[simp] theorem gist_setStation {z : Station} {r : StationRec} {s : State} (ho : r.holdOpen = (station s z).holdOpen)
    (hs : r.shutter = (station s z).shutter) : gist (setStation z r s) = gist s := by
  have hd : door (setStation z r s) = door s := by
    funext y
    by_cases hy : y = z
    · subst hy
      simp only [door, station_setStation, ho, hs]
      rfl
    · simp only [door, station_setStation_ne hy]
      rfl
  rw [gist, hd]
  rfl

@[simp] theorem gist_modStation {z : Station} {f : StationRec → StationRec} {s : State}
    (ho : (f (station s z)).holdOpen = (station s z).holdOpen) (hs : (f (station s z)).shutter = (station s z).shutter) :
    gist (modStation z f s) = gist s := gist_setStation ho hs

/-- A zone's record is written with its state and the station's release as they were. -/
@[simp] theorem gist_setZone {z : Station} {r : ZoneRec} {s : State} (hs : r.state = (zone s z).state)
    (hr : r.released = (zone s z).released) : gist (setZone z r s) = gist s := by
  have hd : door (setZone z r s) = door s := by
    funext y
    by_cases hy : y = z
    · subst hy
      simp only [door, zone_setZone, hs, hr]
      rfl
    · simp only [door, zone_setZone_ne hy]
      rfl
  rw [gist, hd]
  rfl

@[simp] theorem wire_setStation (z : Station) (r : StationRec) (s : State) : (gist (setStation z r s)).wire = (gist s).wire :=
  rfl
@[simp] theorem wire_modStation (z : Station) (f : StationRec → StationRec) (s : State) :
    (gist (modStation z f s)).wire = (gist s).wire := rfl
@[simp] theorem wire_setZone (z : Station) (r : ZoneRec) (s : State) : (gist (setZone z r s)).wire = (gist s).wire := rfl

/-- The attention bits that events set lie below 20. -/
@[simp] theorem gist_setAttention {n : Nat} (hn : n < 20) (s : State) : gist (setAttention n s) = gist s := by
  have hw : attentionWord n &&& 0xF00000#24 = 0#24 := by
    revert n
    decide
  unfold gist setAttention
  simp only [BitVec.and_or_distrib_right, hw, BitVec.or_zero]
  rfl

theorem craneBit_lt (a : Aisle) : craneBit a < 20 := by unfold craneBit; omega
theorem stationBit_lt (z : Station) : stationBit z < 20 := by unfold stationBit; omega
theorem zoneBit_lt (z : Station) : zoneBit z < 20 := by unfold zoneBit; omega

@[simp] theorem gist_stationAttention (z : Station) (s : State) : gist (stationAttention z s) = gist s :=
  gist_setAttention (stationBit_lt z) s

theorem gist_foldl {α : Type} {f : State → α → State} (hf : ∀ (u : State) (x : α), gist (f u x) = gist u) (l : List α)
    (s : State) : gist (l.foldl f s) = gist s := by
  induction l generalizing s with
  | nil => rfl
  | cons x l ih => exact (ih _).trans (hf s x)

/-! ### Records -/
@[simp] theorem gist_attention_crane (a : Aisle) (s : State) : gist (setAttention (craneBit a) s) = gist s :=
  gist_setAttention (craneBit_lt a) s
@[simp] theorem gist_attention_zone (z : Station) (s : State) : gist (setAttention (zoneBit z) s) = gist s :=
  gist_setAttention (zoneBit_lt z) s
@[simp] theorem gist_attention_ended (s : State) : gist (setAttention visitEndedBit s) = gist s :=
  gist_setAttention (by decide) s
@[simp] theorem gist_attention_scan (s : State) : gist (setAttention scanBit s) = gist s :=
  gist_setAttention (by decide) s

@[simp] theorem gist_showPending (z : Station) (i : Nat) (ts : List TaskRec) (s : State) :
    gist (showPending z i ts s) = gist s := by
  induction ts generalizing i s with
  | nil => rfl
  | cons t ts ih =>
    rw [showPending, ih]
    split <;> rfl

@[simp] theorem gist_resendTasks (z : Station) (s : State) : gist (resendTasks z s) = gist s := by
  unfold resendTasks
  repeat' split
  all_goals simp

@[simp] theorem gist_showTask (z : Station) (i : Nat) (t : TaskRec) (s : State) : gist (showTask z i t s) = gist s :=
  by simp [showTask]

@[simp] theorem gist_setReservations (a : Aisle) (n : Nat) (s : State) : gist (setReservations a n s) = gist s := by
  simp only [setReservations]
  repeat' split
  all_goals simp

@[simp] theorem gist_setWaiting (a : Aisle) (w : Bool) (s : State) : gist (setWaiting a w s) = gist s := by
  simp only [setWaiting]
  repeat' split
  all_goals simp

@[simp] theorem gist_returnGrant (a : Aisle) (s : State) : gist (returnGrant a s) = gist s := by
  simp only [returnGrant]
  repeat' split
  all_goals simp

@[simp] theorem gist_withdrawWait (a : Aisle) (s : State) : gist (withdrawWait a s) = gist s := by
  simp only [withdrawWait]
  repeat' split
  all_goals simp

@[simp] theorem gist_dropClaims (a : Aisle) (s : State) : gist (dropClaims a s) = gist s := by simp [dropClaims]

@[simp] theorem gist_releaseReservation (n : Nat) (s : State) : gist (releaseReservation n s) = gist s := by
  simp only [releaseReservation]
  repeat' split
  all_goals simp

@[simp] theorem gist_endVisit (n : Nat) (st : VisitState) (o : VisitOutcome) (s : State) :
    gist (endVisit n st o s) = gist s := by
  simp only [endVisit]
  repeat' split
  all_goals simp

@[simp] theorem gist_markUncertain (b : Nat) (s : State) : gist (markUncertain b s) = gist s := by simp [markUncertain]

@[simp] theorem gist_markStranded (b : Nat) (s : State) : gist (markStranded b s) = gist s := by simp [markStranded]

@[simp] theorem gist_markObstructed (b : Nat) (s : State) : gist (markObstructed b s) = gist s := by simp [markObstructed]

@[simp] theorem gist_cutFork (a : Aisle) (s : State) : gist (cutFork a s) = gist s := by
  simp only [cutFork]
  repeat' split
  all_goals simp

@[simp] theorem gist_setCraneState (a : Aisle) (st : CraneState) (s : State) : gist (setCraneState a st s) = gist s :=
  by simp [setCraneState]

@[simp] theorem gist_setLeg (a : Aisle) (l : Option LegRec) (s : State) : gist (setLeg a l s) = gist s := by simp [setLeg]

@[simp] theorem gist_issue (a : Aisle) (g : SegmentRec) (keep : Bool) (s : State) : gist (issue a g keep s) = gist s := by
  simp only [issue]
  repeat' split
  all_goals simp

@[simp] theorem gist_proceed (a : Aisle) (keep : Bool) (s : State) : gist (proceed a keep s) = gist s := by
  simp only [proceed]
  repeat' split
  all_goals simp

@[simp] theorem gist_nextSegment (a : Aisle) (l : LegRec) (s : State) : gist (nextSegment a l s) = gist s :=
  by simp [nextSegment]

@[simp] theorem gist_takeOffline (a : Aisle) (s : State) : gist (takeOffline a s) = gist s := by
  simp only [takeOffline]
  repeat' split
  all_goals simp

@[simp] theorem gist_takeSuspension (a : Aisle) (s : State) : gist (takeSuspension a s) = gist s := by simp [takeSuspension]

@[simp] theorem gist_liftAtReady (a : Aisle) (s : State) : gist (liftAtReady a s) = gist s := by simp [liftAtReady]

@[simp] theorem gist_enterReady (a : Aisle) (s : State) : gist (enterReady a s) = gist s := by
  simp only [enterReady]
  repeat' split
  all_goals simp

@[simp] theorem gist_issuePark (a : Aisle) (s : State) : gist (issuePark a s) = gist s := by
  simp only [issuePark]
  repeat' split
  all_goals simp

@[simp] theorem gist_raiseTotal (a : Aisle) (cls : FaultClass) (s : State) : gist (raiseTotal a cls s) = gist s :=
  by simp [raiseTotal]

@[simp] theorem gist_noteFault (a : Aisle) (cls : FaultClass) (s : State) : gist (noteFault a cls s) = gist s :=
  by simp [noteFault]

@[simp] theorem gist_holdBinVisit (r : HoldReason) (b : Nat) (s : State) : gist (holdBinVisit r b s) = gist s := by
  simp only [holdBinVisit]
  repeat' split
  all_goals simp

@[simp] theorem gist_holdHalted (c : CraneRec) (s : State) : gist (holdHalted c s) = gist s := by
  simp only [holdHalted]
  repeat' split
  all_goals simp

@[simp] theorem gist_halt (a : Aisle) (cls : FaultClass) (follow : Bool) (s : State) :
    gist (halt a cls follow s) = gist s := by
  simp only [halt]
  repeat' split
  all_goals simp

@[simp] theorem gist_retryFault (a : Aisle) (cls : FaultClass) (s : State) : gist (retryFault a cls s) = gist s := by
  simp only [retryFault]
  repeat' split
  all_goals simp

@[simp] theorem gist_takeFault (a : Aisle) (cls : FaultClass) (s : State) : gist (takeFault a cls s) = gist s := by
  simp only [takeFault]
  repeat' split
  all_goals simp

@[simp] theorem gist_takeSupplyFault (a : Aisle) (s : State) : gist (takeSupplyFault a s) = gist s := by
  simp only [takeSupplyFault]
  repeat' split
  all_goals simp

@[simp] theorem gist_startHome (a : Aisle) (clear : Bool) (s : State) : gist (startHome a clear s) = gist s :=
  by simp [startHome]

@[simp] theorem gist_homeOrder (a : Aisle) (s : State) : gist (homeOrder a s) = gist s := by
  simp only [homeOrder]
  repeat' split
  all_goals simp

@[simp] theorem gist_parkCrane (a : Aisle) (s : State) : gist (parkCrane a s) = gist s := by
  simp only [parkCrane]
  repeat' split
  all_goals simp

@[simp] theorem gist_pickDone (a : Aisle) (l : LegRec) (s : State) : gist (pickDone a l s) = gist s := by
  unfold pickDone
  refine (gist_modBin _ _ _).trans ?_
  split
  · refine (gist_setStation ?_ ?_).trans rfl <;> rfl
  · rfl
  · rfl

@[simp] theorem gist_joinLane (a : Aisle) (l : LegRec) (s : State) : gist (joinLane a l s) = gist s := by
  simp only [joinLane]
  repeat' split
  all_goals simp

@[simp] theorem gist_putHome (l : LegRec) (s : State) : gist (putHome l s) = gist s := by
  simp only [putHome]
  repeat' split
  all_goals simp

@[simp] theorem gist_putTarget (l : LegRec) (s : State) : gist (putTarget l s) = gist s := by
  simp only [putTarget]
  repeat' split
  all_goals simp

@[simp] theorem gist_placeDone (a : Aisle) (l : LegRec) (s : State) : gist (placeDone a l s) = gist s := by
  simp only [placeDone]
  repeat' split
  all_goals simp

@[simp] theorem gist_unexpectedReport (a : Aisle) (s : State) : gist (unexpectedReport a s) = gist s :=
  by simp [unexpectedReport]

@[simp] theorem gist_takeArrived (a : Aisle) (s : State) : gist (takeArrived a s) = gist s := by
  simp only [takeArrived]
  repeat' split
  all_goals simp

@[simp] theorem gist_takeForkDone (a : Aisle) (s : State) : gist (takeForkDone a s) = gist s := by
  simp only [takeForkDone]
  repeat' split
  all_goals simp

@[simp] theorem gist_takeHomed (a : Aisle) (s : State) : gist (takeHomed a s) = gist s := by
  simp only [takeHomed]
  repeat' split
  all_goals simp

@[simp] theorem gist_takeSlip (a : Aisle) (s : State) : gist (takeSlip a s) = gist s := by simp [takeSlip]

@[simp] theorem gist_countSlip (a : Aisle) (s : State) : gist (countSlip a s) = gist s := by
  simp only [countSlip]
  repeat' split
  all_goals simp

@[simp] theorem gist_takeSpeed (a : Aisle) (s : State) : gist (takeSpeed a s) = gist s := by simp [takeSpeed]

@[simp] theorem gist_checkMark (a : Aisle) (horizontal : Bool) (recorded index : Nat) (s : State) :
    gist (checkMark a horizontal recorded index s) = gist s := by
  simp only [checkMark]
  repeat' split
  all_goals simp

@[simp] theorem gist_takeMark (a : Aisle) (horizontal : Bool) (index : Nat) (s : State) :
    gist (takeMark a horizontal index s) = gist s := by
  simp only [takeMark]
  repeat' split
  all_goals simp

@[simp] theorem gist_takeCurrentLimit (a : Aisle) (s : State) : gist (takeCurrentLimit a s) = gist s := by
  simp only [takeCurrentLimit]
  repeat' split
  all_goals simp

@[simp] theorem gist_takeNoLoad (a : Aisle) (s : State) : gist (takeNoLoad a s) = gist s := by
  simp only [takeNoLoad]
  repeat' split
  all_goals simp

@[simp] theorem gist_endSupplyFault (a : Aisle) (s : State) : gist (endSupplyFault a s) = gist s := by
  simp only [endSupplyFault]
  repeat' split
  all_goals simp

@[simp] theorem gist_takeSupply (a : Aisle) (cond : SupplyCond) (s : State) : gist (takeSupply a cond s) = gist s := by
  simp only [takeSupply]
  repeat' split
  all_goals simp

@[simp] theorem gist_takeOverrun (a : Aisle) (s : State) : gist (takeOverrun a s) = gist s := by simp [takeOverrun]

@[simp] theorem gist_reissueLeg (a : Aisle) (l : LegRec) (s : State) : gist (reissueLeg a l s) = gist s := by
  simp only [reissueLeg]
  repeat' split
  all_goals simp

@[simp] theorem gist_takeRetry (a : Aisle) (s : State) : gist (takeRetry a s) = gist s := by
  simp only [takeRetry]
  repeat' split
  all_goals simp

@[simp] theorem gist_takeRest (a : Aisle) (s : State) : gist (takeRest a s) = gist s := by simp [takeRest]

@[simp] theorem gist_cancelLeg (a : Aisle) (n : Nat) (s : State) : gist (cancelLeg a n s) = gist s := by
  simp only [cancelLeg]
  repeat' split
  all_goals simp

@[simp] theorem gist_handLeg (a : Aisle) (c : Candidate) (s : State) : gist (handLeg a c s) = gist s := by simp [handLeg]

@[simp] theorem gist_reserve (n : Nat) (s : State) : gist (reserve n s) = gist s := by simp [reserve]

@[simp] theorem gist_takePlace (a : Aisle) (s : State) : gist (takePlace a s) = gist s := by simp [takePlace]

theorem gist_obtainPlace {a : Aisle} {n : Nat} {s t : State} (h : obtainPlace a n s = some t) : gist t = gist s := by
  unfold obtainPlace at h
  repeat' split at h
  all_goals cases h
  all_goals simp

@[simp] theorem gist_chooseNew (a : Aisle) (cs : List Candidate) (s : State) : gist (chooseNew a cs s) = gist s := by
  unfold chooseNew
  split
  · rfl
  · split
    · split
      · rename_i hp
        exact (gist_handLeg _ _ _).trans (gist_obtainPlace hp)
      · simp only
        split <;> simp
    · simp

@[simp] theorem gist_chooseCarried (a : Aisle) (b : Nat) (cs : List Candidate) (s : State) :
    gist (chooseCarried a b cs s) = gist s := by
  unfold chooseCarried
  split
  · rfl
  · split
    · split
      · rename_i hp
        exact (gist_handLeg _ _ _).trans (gist_obtainPlace hp)
      · simp
    · simp

@[simp] theorem gist_chooseLeg (a : Aisle) (cs : List Candidate) (s : State) : gist (chooseLeg a cs s) = gist s := by
  simp only [chooseLeg]
  repeat' split
  all_goals simp

@[simp] theorem gist_choose (a : Aisle) (s : State) : gist (choose a s) = gist s := by
  simp only [choose]
  repeat' split
  all_goals simp

@[simp] theorem gist_grantArrives (a : Aisle) (s : State) : gist (grantArrives a s) = gist s := by
  simp only [grantArrives]
  repeat' split
  all_goals simp

@[simp] theorem gist_schedule (z : Station) (fuel : Nat) (due : List Aisle) (s : State) :
    gist (schedule z fuel due s) = gist s := by
  induction fuel generalizing due s with
  | zero => rfl
  | succ fuel ih =>
    unfold schedule
    split
    · exact (ih _ _).trans (gist_grantArrives _ _)
    · split
      · rfl
      · exact (ih _ _).trans (gist_choose _ _)

@[simp] theorem gist_scheduleZone (before : State) (z : Station) (s : State) : gist (scheduleZone before z s) = gist s :=
  gist_schedule _ _ _ _

@[simp] theorem gist_placeLane (z : Station) (i : Nat) (bs : List Nat) (s : State) :
    gist (placeLane z i bs s) = gist s := by
  induction bs generalizing i s with
  | nil => rfl
  | cons b bs ih => exact (ih _ _).trans (gist_modBin _ _ _)

@[simp] theorem gist_leaveLane (z : Station) (b : Nat) (s : State) : gist (leaveLane z b s) = gist s := by simp [leaveLane]

@[simp] theorem gist_beginCrossing (z : Station) (kind : CrossingKind) (b : Nat) (s : State) :
    gist (beginCrossing z kind b s) = gist s :=
  by simp [beginCrossing]

@[simp] theorem gist_setVisitState (b : Nat) (st : VisitState) (s : State) : gist (setVisitState b st s) = gist s := by
  simp only [setVisitState]
  repeat' split
  all_goals simp

@[simp] theorem gist_tryPresent (z : Station) (s : State) : gist (tryPresent z s) = gist s := by
  simp only [tryPresent]
  repeat' split
  all_goals simp

@[simp] theorem gist_tryWithdraw (z : Station) (s : State) : gist (tryWithdraw z s) = gist s := by
  simp only [tryWithdraw]
  repeat' split
  all_goals simp

@[simp] theorem gist_startCrossings (z : Station) (s : State) : gist (startCrossings z s) = gist s :=
  by simp [startCrossings]

@[simp] theorem gist_startFaceTimer (z : Station) (s : State) : gist (startFaceTimer z s) = gist s :=
  by simp [startFaceTimer]

@[simp] theorem gist_endCrossing (z : Station) (s : State) : gist (endCrossing z s) = gist s := by simp [endCrossing]

@[simp] theorem gist_arriveAtFace (z : Station) (b n : Nat) (s : State) : gist (arriveAtFace z b n s) = gist s := by
  simp only [arriveAtFace]
  repeat' split
  all_goals simp

@[simp] theorem gist_crossingArrives (z : Station) (x : CrossingRec) (s : State) :
    gist (crossingArrives z x s) = gist s := by
  simp only [crossingArrives]
  repeat' split
  all_goals simp

@[simp] theorem gist_holdOut (z : Station) (s : State) : gist (holdOut z s) = gist s := by simp [holdOut]

@[simp] theorem gist_jamCrossing (z : Station) (x : CrossingRec) (s : State) : gist (jamCrossing z x s) = gist s :=
  by simp [jamCrossing]

@[simp] theorem gist_reportReopen (z : Station) (rep : ReopenReport) (s : State) : gist (reportReopen z rep s) = gist s := by
  simp only [reportReopen]
  repeat' split
  all_goals simp

@[simp] theorem gist_leaveOut (z : Station) (s : State) : gist (leaveOut z s) = gist s := by simp [leaveOut]

@[simp] theorem gist_shutterFault (z : Station) (s : State) : gist (shutterFault z s) = gist s := by simp [shutterFault]

@[simp] theorem gist_takeOpenReleased (z : Station) (s : State) : gist (takeOpenReleased z s) = gist s := by
  simp only [takeOpenReleased]
  repeat' split
  all_goals simp

@[simp] theorem gist_liftCrossingResets (z : Station) (s : State) : gist (liftCrossingResets z s) = gist s := by
  simp only [liftCrossingResets]
  repeat' split
  all_goals simp

@[simp] theorem gist_watchSensors (z : Station) (s : State) : gist (watchSensors z s) = gist s := by simp [watchSensors]

@[simp] theorem gist_reconcile (i : FireInput) (s : State) : gist (reconcile i s) = gist s := by
  simp only [reconcile]
  repeat' split
  all_goals simp

@[simp] theorem gist_reconcileAll (s : State) : gist (reconcileAll s) = gist s :=
  gist_foldl (fun u i => gist_reconcile i u) _ s

@[simp] theorem gist_setSettledMark (a : Aisle) (x : Bool) (s : State) : gist (setSettledMark a x s) = gist s := by
  simp only [setSettledMark]
  repeat' split
  all_goals simp

@[simp] theorem gist_setRecoveredMark (a : Aisle) (s : State) : gist (setRecoveredMark a s) = gist s := by
  simp only [setRecoveredMark]
  repeat' split
  all_goals simp

@[simp] theorem gist_holdSettled (c : CraneRec) (s : State) : gist (holdSettled c s) = gist s := by
  simp only [holdSettled]
  repeat' split
  all_goals simp

@[simp] theorem gist_settleCrane (a : Aisle) (s : State) : gist (settleCrane a s) = gist s := by
  simp only [settleCrane]
  repeat' split
  all_goals simp

@[simp] theorem gist_recoverCrane (a : Aisle) (s : State) : gist (recoverCrane a s) = gist s := by
  simp only [recoverCrane]
  repeat' split
  all_goals simp

@[simp] theorem gist_parkCranes (z : Station) (s : State) : gist (parkCranes z s) = gist s := by
  refine gist_foldl (fun u a => ?_) _ s
  split <;> simp

@[simp] theorem gist_homeCranes (z : Station) (s : State) : gist (homeCranes z s) = gist s := by
  refine gist_foldl (fun u a => ?_) _ s
  split <;> simp

@[simp] theorem gist_liftParkOrders (z : Station) (s : State) : gist (liftParkOrders z s) = gist s := by
  refine gist_foldl (fun u a => ?_) _ s
  split <;> simp

@[simp] theorem gist_clearSeen (z : Station) (s : State) : gist (clearSeen z s) = gist s := by simp [clearSeen]

@[simp] theorem gist_clearTaken (z : Station) (s : State) : gist (clearTaken z s) = gist s := by
  simp only [clearTaken]
  repeat' split
  all_goals simp

end Sys2Proof.Machine

/-! The laws that every step keeps, said of one operation: it keeps the laws of the link, and the law of R147 at the door of
each station. -/

namespace Sys2Proof.Machine

/-- The law of R147 at one door. -/
def Door.Lawful (d : Door) : Prop :=
  d.state = .sealed ∨ d.state = .awaitRestore ∨ (d.state = .shutdown ∧ d.released = true) ∨ d.shutter = .closing ∨
    d.shutter = .closed ∨ d.present = false → d.holdOpen = false

theorem shutterLaw_iff {s : State} : shutterLaw s ↔ ∀ z, (door s z).Lawful := Iff.rfl

theorem Door.lawful_of_released {d : Door} (h : d.holdOpen = false) : d.Lawful := fun _ => h

/-- The laws of the link and of each door hold of `t` if they hold of `s`. -/
structure LawsKept (s t : State) : Prop where
  link : LinkLaw s.link → LinkLaw t.link
  door : ∀ z, (door s z).Lawful → (Machine.door t z).Lawful

/-- The positions of the summary from 20 on are those of the wire. -/
theorem summary_masked (l : LinkRec) {i : Nat} (hi : 20 ≤ i) :
    ({ l with attention := l.attention &&& 0xF00000#24 } : LinkRec).summary.getLsbD i = l.summary.getLsbD i := by
  have hm : (l.attention &&& 0xF00000#24).getLsbD i = l.attention.getLsbD i := by
    rw [BitVec.getLsbD_and]
    by_cases h : i < 24
    · have : (0xF00000#24).getLsbD i = true := by interval_cases i <;> rfl
      rw [this, Bool.and_true]
    · rw [BitVec.getLsbD_of_ge _ _ (by omega), Bool.false_and]
  unfold LinkRec.summary
  rcases hr : l.reading with _ | (_ | _ | _) <;> simp [hm]

/-- The law of the link is one of its wire. -/
theorem linkLaw_masked (l : LinkRec) : LinkLaw { l with attention := l.attention &&& 0xF00000#24 } ↔ LinkLaw l := by
  constructor
  · intro ⟨h1, h2, h3, h4, h5, h6, h7⟩
    exact ⟨h1, h2, h3, h4, h5, h6, fun i hi => (summary_masked l hi).symm.trans (h7 i hi)⟩
  · intro ⟨h1, h2, h3, h4, h5, h6, h7⟩
    exact ⟨h1, h2, h3, h4, h5, h6, fun i hi => (summary_masked l hi).trans (h7 i hi)⟩

theorem linkLaw_of_wire {s t : State} (h : (gist t).wire = (gist s).wire) : LinkLaw s.link → LinkLaw t.link := fun hs =>
  (linkLaw_masked t.link).1 ((congrArg LinkLaw h).mpr ((linkLaw_masked s.link).2 hs))

namespace LawsKept

variable {s t u : State}

theorem refl (s : State) : LawsKept s s := ⟨id, fun _ => id⟩

theorem trans (h : LawsKept s t) (g : LawsKept t u) : LawsKept s u :=
  ⟨g.link ∘ h.link, fun z => g.door z ∘ h.door z⟩

theorem of_gist (h : gist t = gist s) : LawsKept s t := by
  refine ⟨linkLaw_of_wire (congrArg Gist.wire h), fun z hz => ?_⟩
  have hd : Machine.door t = Machine.door s := congrArg Gist.doors h
  exact hd ▸ hz

/-- The doors are left, and the link keeps its laws. -/
theorem of_link (hl : LinkLaw s.link → LinkLaw t.link) (hd : (gist t).doors = (gist s).doors) : LawsKept s t := by
  refine ⟨hl, fun z hz => ?_⟩
  have hd : Machine.door t = Machine.door s := hd
  exact hd ▸ hz

/-- The link is left but for event bits, and one door changes and keeps its law. -/
theorem of_door {z : Station} (hw : (gist t).wire = (gist s).wire) (ho : ∀ y, y ≠ z → Machine.door t y = Machine.door s y)
    (hz : (Machine.door s z).Lawful → (Machine.door t z).Lawful) : LawsKept s t := by
  refine ⟨linkLaw_of_wire hw, fun y hy => ?_⟩
  by_cases h : y = z
  · subst h
    exact hz hy
  · exact (ho y h).symm ▸ hy

theorem foldl {α : Type} {f : State → α → State} (hf : ∀ (u : State) (x : α), LawsKept u (f u x)) (l : List α) (s : State) :
    LawsKept s (l.foldl f s) := by
  induction l generalizing s with
  | nil => exact refl s
  | cons x l ih => exact (hf s x).trans (ih _)

end LawsKept

/-! ### The doors of the basic updates -/

theorem door_modStation (z : Station) (f : StationRec → StationRec) (s : State) :
    door (modStation z f s) z =
      { door s z with holdOpen := (f (station s z)).holdOpen, shutter := (f (station s z)).shutter } := by
  simp only [door, modStation, station_setStation]
  rfl

theorem door_modStation_ne {z y : Station} (h : y ≠ z) (f : StationRec → StationRec) (s : State) :
    door (modStation z f s) y = door s y := by
  simp only [door, modStation, station_setStation_ne h]
  rfl

theorem door_setZone (z : Station) (r : ZoneRec) (s : State) :
    door (setZone z r s) z = { door s z with state := r.state, released := r.released } := by
  simp only [door, zone_setZone]
  rfl

theorem door_setZone_ne {z y : Station} (h : y ≠ z) (r : ZoneRec) (s : State) : door (setZone z r s) y = door s y := by
  simp only [door, zone_setZone_ne h]
  rfl

/-- A station's record changes, and the law of its door stands. -/
theorem kept_modStation {z : Station} {f : StationRec → StationRec} {s : State}
    (h : (door s z).Lawful →
      Door.Lawful { door s z with holdOpen := (f (station s z)).holdOpen, shutter := (f (station s z)).shutter }) :
    LawsKept s (modStation z f s) :=
  .of_door rfl (fun _ hy => door_modStation_ne hy f s) fun hz => (door_modStation z f s).symm ▸ h hz

/-- A zone's record changes, and the law of its station's door stands. -/
theorem kept_setZone {z : Station} {r : ZoneRec} {s : State}
    (h : (door s z).Lawful → Door.Lawful { door s z with state := r.state, released := r.released }) :
    LawsKept s (setZone z r s) :=
  .of_door rfl (fun _ hy => door_setZone_ne hy r s) fun hz => (door_setZone z r s).symm ▸ h hz

theorem kept_enterZoneState {z : Station} {st : ZoneState} {s : State}
    (h : (door s z).Lawful → Door.Lawful { door s z with state := st }) : LawsKept s (enterZoneState z st s) :=
  (kept_setZone (r := { zone s z with state := st }) h).trans (.of_gist (gist_attention_zone z _))

/-! ### The shutter -/

theorem kept_releaseShutter (z : Station) (s : State) : LawsKept s (releaseShutter z s) :=
  kept_modStation fun _ => Door.lawful_of_released rfl

theorem kept_reportReopen (z : Station) (rep : ReopenReport) (s : State) : LawsKept s (reportReopen z rep s) :=
  .of_gist (gist_reportReopen z rep s)

/-- A station whose output is released reports it. -/
theorem kept_reportReleased {z : Station} {s : State} (h : (station s z).holdOpen = false) :
    LawsKept s (reportReleased z s) :=
  kept_setZone fun _ => Door.lawful_of_released h

theorem kept_releaseAndReport (z : Station) (s : State) : LawsKept s (reportReleased z (releaseShutter z s)) := by
  refine (kept_releaseShutter z s).trans (kept_reportReleased ?_)
  rw [releaseShutter, modStation, station_setStation]

/-- A shutter that is CLOSING or CLOSED has its output released already. -/
theorem kept_reportClosing {z : Station} {s : State} (h : (station s z).shutter = .closing ∨ (station s z).shutter = .closed) :
    LawsKept s (if (zone s z).released then s else reportReleased z s) := by
  split
  · exact .refl s
  · refine kept_setZone fun hz => Door.lawful_of_released (hz ?_)
    exact .inr (.inr (.inr (h.imp_right .inl)))

theorem kept_carryClose (z : Station) (s : State) : LawsKept s (carryClose z s) := by
  unfold carryClose
  dsimp only
  split
  · split
    · split
      · exact kept_releaseAndReport z s
      · exact .refl s
    · exact kept_releaseAndReport z s
    · exact kept_reportClosing (.inl ‹_›)
    · exact kept_reportClosing (.inr ‹_›)
  · exact .refl s

@[simp] theorem gist_markCaught (b : Nat) (s : State) : gist (markCaught b s) = gist s := by simp [markCaught]

theorem kept_closeForced (z : Station) (s : State) : LawsKept s (closeForced z s) :=
  (kept_releaseAndReport z s).trans (.of_gist ((gist_stationAttention z _).trans (gist_modStation rfl rfl)))

@[simp] theorem gist_blockingCaught (o : Option Nat) (s : State) : gist (blockingCaught o s) = gist s := by
  cases o <;> simp [blockingCaught]

@[simp] theorem gist_haltedFor (z : Station) (s : State) : gist (haltedFor z s) = gist s := by
  unfold haltedFor
  split <;> simp [crossingHalted]

theorem kept_forceClose (z : Station) (s : State) : LawsKept s (forceClose z s) := by
  cases h : (station s z).holdOpen with
  | true =>
    rw [forceClose_eq h]
    exact (LawsKept.of_gist ((gist_blockingCaught _ _).trans (gist_haltedFor z s))).trans (kept_closeForced z _)
  | false => exact (forceClose_released h).symm ▸ .refl s

/-- The output is energised at a present station of a zone that is not closed. -/
theorem kept_energiseShutter {z : Station} {s : State} (hz : zoneClosed s z = false) (hp : stationPresent s z = true) :
    LawsKept s (energiseShutter z s) := by
  refine kept_modStation fun _ hc => absurd hc ?_
  rw [zoneClosed] at hz
  simp only [door, hp]
  cases h : (zone s z).state <;> simp_all [ZoneState.isClosed]

theorem closed_of_gist {z : Station} {s t : State} (h : gist t = gist s) : zoneClosed t z = zoneClosed s z :=
  congrArg (fun g : Gist => (g.doors z).state.isClosed) h

theorem present_of_gist {z : Station} {s t : State} (h : gist t = gist s) : stationPresent t z = stationPresent s z :=
  congrArg (fun g : Gist => (g.doors z).present) h

theorem kept_reopenOrder {z : Station} {s : State} (hz : zoneClosed s z = false) (hp : stationPresent s z = true) :
    LawsKept s (reopenOrder z s) := by
  have hg : gist (modStation z (fun r => { r with closeOrder := false }) s) = gist s := gist_modStation rfl rfl
  have hc := (closed_of_gist (z := z) hg).trans hz
  have he := kept_energiseShutter hc ((present_of_gist (z := z) hg).trans hp)
  unfold reopenOrder
  refine (LawsKept.of_gist hg).trans ?_
  dsimp only
  split
  · exact kept_reportReopen z _ _
  · exact .of_gist (gist_modStation rfl rfl)
  all_goals
    split
    · exact kept_reportReopen z _ _
    · exact he.trans (.of_gist (gist_modStation rfl rfl))

/-- The shutter comes to rest OPEN. -/
theorem kept_shutterOpens {z : Station} {s : State} (h : (station s z).shutter = .opening) : LawsKept s (shutterOpens z s) := by
  have ho : LawsKept s (modStation z (fun r => { r with
      shutter := .open, travelTimer := none, reopenOrdered := false, reopenCommand := false }) s) := by
    refine kept_modStation fun hz hc => hz ?_
    simpa [door, h] using hc
  unfold shutterOpens
  refine ho.trans (.of_gist ?_)
  dsimp only
  repeat' split
  all_goals simp

/-- The shutter comes to rest CLOSED, from CLOSING. -/
theorem kept_shutterCloses {z : Station} {s : State} (h : (station s z).shutter = .closing) :
    LawsKept s (modStation z (fun r => { r with shutter := .closed, travelTimer := none }) s) :=
  kept_modStation fun hz => Door.lawful_of_released (hz (.inr (.inr (.inr (.inl h)))))

theorem kept_takeOpenAsserted (z : Station) (s : State) : LawsKept s (takeOpenAsserted z s) := by
  unfold takeOpenAsserted
  split
  · exact kept_shutterOpens ‹_›
  · exact .refl s
  all_goals exact .of_gist (gist_shutterFault z s)

theorem kept_takeClosedAsserted (z : Station) (s : State) : LawsKept s (takeClosedAsserted z s) := by
  unfold takeClosedAsserted
  split
  · exact kept_shutterCloses ‹_›
  · exact .refl s
  all_goals exact .of_gist (gist_shutterFault z s)

theorem kept_reopenFails (z : Station) (s : State) : LawsKept s (reopenFails z s) := by
  have hr : LawsKept s (modStation z (fun r => { r with
      holdOpen := false, shutter := .closed, travelTimer := none, reopenOrdered := false, reopenCommand := false,
      reopenFault := true, jammed := r.jammed && !r.reopenCommand }) s) :=
    kept_modStation fun _ => Door.lawful_of_released rfl
  unfold reopenFails
  refine hr.trans (.of_gist ?_)
  dsimp only
  split <;> simp

theorem kept_takeTravelExpiry (z : Station) (s : State) : LawsKept s (takeTravelExpiry z s) := by
  unfold takeTravelExpiry
  split
  · exact (kept_shutterCloses ‹_›).trans (.of_gist (gist_shutterFault z _))
  · exact kept_reopenFails z s
  all_goals exact .refl s

/-! ### The zone -/

theorem kept_tryAwait (z : Station) (s : State) : LawsKept s (tryAwait z s) := by
  unfold tryAwait
  split
  · rename_i h
    exact kept_enterZoneState fun hz _ => hz (.inl h.1)
  · exact .refl s

/-- A zone in SHUTDOWN is sealed once its station is released. -/
theorem kept_trySeal {z : Station} {s : State} (h : (zone s z).state = .shutdown) : LawsKept s (trySeal z s) := by
  unfold trySeal
  split
  · rename_i hr
    refine LawsKept.trans (t := enterZoneState z .sealed s) (kept_enterZoneState fun hz _ => hz ?_) (kept_tryAwait z _)
    simp only [Bool.and_eq_true, Bool.or_eq_true, Bool.not_eq_true'] at hr
    exact hr.1.elim (fun hr => .inr (.inr (.inl ⟨h, hr⟩))) fun hp => .inr (.inr (.inr (.inr (.inr hp))))
  · exact .refl s

/-- A zone that is not closed may become CLEAR, ALERT or RECOVERY at any time. -/
theorem kept_enterOpen {z : Station} {st : ZoneState} {s : State} (h : st.isClosed = false) :
    LawsKept s (enterZoneState z st s) := by
  refine kept_enterZoneState fun hz hc => hz ?_
  cases st <;> simp_all [ZoneState.isClosed]

theorem kept_tryReopenZone (z : Station) (s : State) : LawsKept s (tryReopenZone z s) := by
  unfold tryReopenZone
  split
  · exact (kept_enterOpen (by split <;> rfl)).trans (.of_gist (gist_liftHoldWhere _ _ _))
  · exact .refl s

theorem kept_zoneProgress (z : Station) (s : State) : LawsKept s (zoneProgress z s) := by
  unfold zoneProgress
  split
  · rename_i h
    have hg : gist ((zoneAisles z).foldl (fun t a => settleCrane a t) s) = gist s :=
      gist_foldl (fun u a => gist_settleCrane a u) _ s
    exact (LawsKept.of_gist hg).trans (kept_trySeal ((congrArg (fun g : Gist => (g.doors z).state) hg).trans h))
  · exact (LawsKept.of_gist (gist_foldl (fun u a => gist_recoverCrane a u) _ s)).trans (kept_tryReopenZone z _)
  · exact kept_tryAwait z s
  all_goals exact .refl s

/-- The entry to SHUTDOWN: the station counts as released where there is none. -/
theorem kept_enterShutdown (z : Station) (s : State) : LawsKept s (enterShutdown z s) := by
  have hd : LawsKept s (enterZoneState z .shutdown (setZone z (shutdownRec s z) s)) := by
    refine LawsKept.trans ?_ (.of_gist (gist_attention_zone z _))
    rw [setZone_setZone, zone_setZone]
    refine kept_setZone fun hz hc => hz ?_
    have hc : stationPresent s z = false ∨ (station s z).shutter = .closing ∨ (station s z).shutter = .closed ∨
        stationPresent s z = false := by simpa [shutdownRec, door] using hc
    exact .inr (.inr (.inr (hc.elim (fun h => .inr (.inr h)) id)))
  unfold enterShutdown
  refine hd.trans (.of_gist ?_)
  dsimp only
  rw [gist_parkCranes, gist_sendPanel]
  split <;> simp

theorem kept_orderRecovery {z : Station} {s : State} (hz : zoneClosed s z = false) : LawsKept s (orderRecovery z s) := by
  unfold orderRecovery
  refine LawsKept.trans ?_ (.of_gist ((gist_homeCranes z _).trans (gist_liftParkOrders z _)))
  split
  · exact (kept_reopenOrder hz ‹_›).trans (.of_gist (gist_resendTasks z _))
  · exact .refl s

theorem kept_enterRecovery (z : Station) (s : State) : LawsKept s (enterRecovery z s) := by
  have hr : LawsKept s (setZone z { zone s z with
      panelClearSeen := false, reopenReport := .none, recovered0 := false, recovered1 := false } s) :=
    .of_gist (gist_setZone rfl rfl)
  unfold enterRecovery
  refine (hr.trans (kept_enterOpen (z := z) (st := .recovery) rfl)).trans (kept_orderRecovery ?_)
  rw [zoneClosed, zone_enterZoneState]
  rfl

theorem kept_fireTaken (z : Station) (s : State) : LawsKept s (fireTaken z s) := by
  unfold fireTaken
  split
  iterate 3 exact kept_enterShutdown z s
  iterate 2 exact .of_gist (gist_clearSeen z s)
  · rename_i h
    refine (LawsKept.of_gist (gist_clearSeen z s)).trans (kept_enterZoneState fun hz _ => hz (.inr (.inl ?_)))
    exact (congrArg (fun g : Gist => (g.doors z).state) (gist_clearSeen z s)).trans h

theorem kept_alertChanged (z : Station) (s : State) : LawsKept s (alertChanged z s) := by
  unfold alertChanged
  split
  iterate 2 exact kept_enterOpen rfl
  exact .refl s

theorem kept_actOnLevels (before : State) (z : Station) (s : State) : LawsKept s (actOnLevels before z s) := by
  have h1 : LawsKept s (if fireLevel s z && !fireLevel before z then fireTaken z s else s) := by
    split
    · exact kept_fireTaken z s
    · exact .refl s
  have h2 : ∀ u, LawsKept u (if clearLevel s z && !clearLevel before z then clearTaken z u else u) := fun u => by
    split
    · exact .of_gist (gist_clearTaken z u)
    · exact .refl u
  unfold actOnLevels
  dsimp only
  split
  · exact (h1.trans (h2 _)).trans (kept_alertChanged z _)
  · exact h1.trans (h2 _)

/-! ### What an event makes possible -/

theorem kept_settleZone (before : State) (z : Station) (s : State) : LawsKept s (settleZone before z s) := by
  unfold settleZone
  refine ((kept_carryClose z s).trans (kept_zoneProgress z _)).trans (.of_gist ?_)
  rw [gist_scheduleZone, gist_startCrossings, gist_liftCrossingResets]

theorem kept_settleAll (before s : State) : LawsKept s (settleAll before s) :=
  .foldl (fun u z => kept_settleZone before z u) _ s

theorem kept_eventOf {z : Station} {f : State → State} {s : State} (h : LawsKept s (f s)) : LawsKept s (eventOf z f s) :=
  h.trans (kept_settleZone s z _)

theorem kept_eventOfAll {f : State → State} {s : State} (h : LawsKept s (f s)) : LawsKept s (eventOfAll f s) :=
  h.trans (kept_settleAll s _)

theorem kept_outsideReset {f : State → State} {s : State} (h : LawsKept s (f s)) : LawsKept s (outsideReset f s) := by
  unfold outsideReset
  split
  · exact .refl s
  · exact h

end Sys2Proof.Machine

/-! The operations of records, tasks, panels and commands that leave the gist. -/

namespace Sys2Proof.Machine

@[simp] theorem gist_withdrawals (w : Table WithdrawalRec) (s : State) : gist { s with withdrawals := w } = gist s := rfl
@[simp] theorem gist_pendingLends (n : Nat) (s : State) : gist { s with pendingLends := n } = gist s := rfl
@[simp] theorem gist_chanQ (q : ChannelRec) (s : State) : gist { s with chanQ := q } = gist s := rfl

@[simp] theorem gist_informScan (s : State) : gist (informScan s) = gist s := by
  simp only [informScan]
  repeat' split
  all_goals simp

@[simp] theorem gist_deleteRecord (key : ItemKey) (s : State) : gist (deleteRecord key s) = gist s := by
  unfold deleteRecord
  dsimp only
  split
  · exact gist_informScan _
  · rfl

@[simp] theorem gist_insertRecord (r : WithdrawalRec) (s : State) : gist (insertRecord r s) = gist s := by
  unfold insertRecord
  dsimp only
  split <;> rfl

@[simp] theorem gist_setRecordState (key : ItemKey) (st : WithdrawalState) (v : Option Nat) (s : State) :
    gist (setRecordState key st v s) = gist s := by
  simp only [setRecordState]
  repeat' split
  all_goals simp

@[simp] theorem gist_openVisit (n : Nat) (v : VisitRec) (s : State) : gist (openVisit n v s) = gist s := by simp [openVisit]

@[simp] theorem gist_confirmLend (b : Nat) (t : TaskRec) (key : ItemKey) (s : State) :
    gist (confirmLend b t key s) = gist s :=
  by simp [confirmLend]

@[simp] theorem gist_confirmReturn (b : Nat) (key : ItemKey) (s : State) : gist (confirmReturn b key s) = gist s :=
  by simp [confirmReturn]

@[simp] theorem gist_confirmRefile (b : Nat) (s : State) : gist (confirmRefile b s) = gist s := by simp [confirmRefile]

@[simp] theorem gist_confirmEffects (b : Nat) (t : TaskRec) (key : ItemKey) (s : State) :
    gist (confirmEffects b t key s) = gist s := by
  simp only [confirmEffects]
  repeat' split
  all_goals simp

@[simp] theorem gist_releaseTask (b : Nat) (t : TaskRec) (s : State) : gist (releaseTask b t s) = gist s := by
  simp only [releaseTask]
  repeat' split
  all_goals simp

@[simp] theorem gist_releasePending (b : Nat) (ts : List TaskRec) (s : State) : gist (releasePending b ts s) = gist s := by
  induction ts generalizing s with
  | nil => rfl
  | cons t ts ih =>
    rw [releasePending, ih]
    split
    · exact gist_releaseTask b t s
    · rfl

@[simp] theorem gist_settleTasks (n : Nat) (v : VisitRec) (s : State) : gist (settleTasks n v s) = gist s :=
  by simp [settleTasks]

@[simp] theorem gist_cancelTasks (n : Nat) (v : VisitRec) (s : State) : gist (cancelTasks n v s) = gist s :=
  by simp [cancelTasks]

@[simp] theorem gist_endCancelled (n : Nat) (v : VisitRec) (s : State) : gist (endCancelled n v s) = gist s := by
  simp only [endCancelled]
  repeat' split
  all_goals simp

@[simp] theorem gist_discardMessage (z : Station) (s : State) : gist (discardMessage z s) = gist s := by
  unfold discardMessage
  dsimp only
  split
  · exact (gist_stationAttention z _).trans (gist_modStation rfl rfl)
  · exact (gist_modStation rfl rfl).trans (gist_sendPanel z _ s)

@[simp] theorem gist_unexpectedScan (z : Station) (key : ItemKey) (s : State) : gist (unexpectedScan z key s) = gist s :=
  by simp [unexpectedScan]

@[simp] theorem gist_confirmTask (z : Station) (n : Nat) (v : VisitRec) (i : Nat) (t : TaskRec) (key : ItemKey) (s : State) :
    gist (confirmTask z n v i t key s) = gist s :=
  by simp [confirmTask]

@[simp] theorem gist_takeScan (z : Station) (key : ItemKey) (s : State) : gist (takeScan z key s) = gist s := by
  simp only [takeScan]
  repeat' split
  all_goals simp

@[simp] theorem gist_takePanelDone (z : Station) (s : State) : gist (takePanelDone z s) = gist s := by
  simp only [takePanelDone]
  repeat' split
  all_goals simp

@[simp] theorem gist_takeKeep (z : Station) (s : State) : gist (takeKeep z s) = gist s := by
  simp only [takeKeep]
  repeat' split
  all_goals simp

@[simp] theorem gist_takeProblem (z : Station) (code : ProblemCode) (s : State) : gist (takeProblem z code s) = gist s := by
  unfold takeProblem
  repeat' split
  · rfl
  · simp
  all_goals exact (gist_stationAttention z _).trans ((gist_modStation rfl rfl).trans (gist_setVisit _ _ s))

@[simp] theorem gist_sendRepeats (z : Station) (n : Nat) (s : State) : gist (sendRepeats z n s) = gist s := by
  induction n generalizing s with
  | zero => rfl
  | succ n ih => exact (ih _).trans (gist_sendPanel z _ s)

@[simp] theorem gist_endLineTest (z : Station) (t : LineTestRec) (s : State) : gist (endLineTest z t s) = gist s := by
  unfold endLineTest
  dsimp only
  split <;> simp

@[simp] theorem gist_intake (d : Admission) (z : Station) (n : Nat) (s : State) : gist (intake d z n s) = gist s :=
  by simp [intake]

@[simp] theorem gist_retire (b : Nat) (r : BinRec) (z : Station) (n : Nat) (s : State) :
    gist (retire b r z n s) = gist s := by
  unfold retire
  refine (gist_sendPanel z _ _).trans ((gist_modStation rfl rfl).trans ?_)
  simp

@[simp] theorem gist_relocate (b : Nat) (sl : Slot) (n : Nat) (s : State) : gist (relocate b sl n s) = gist s :=
  by simp [relocate]

@[simp] theorem gist_holdLend (b : Nat) (s : State) : gist (holdLend b s) = gist s := by simp [holdLend]

@[simp] theorem gist_reshow (v : VisitRec) (s : State) : gist (reshow v s) = gist s := by
  simp only [reshow]
  repeat' split
  all_goals simp

@[simp] theorem gist_endIfIdle (n : Nat) (s : State) : gist (endIfIdle n s) = gist s := by
  simp only [endIfIdle]
  repeat' split
  all_goals simp

@[simp] theorem gist_cancelTask (n : Nat) (v : VisitRec) (i : Nat) (t : TaskRec) (s : State) :
    gist (cancelTask n v i t s) = gist s :=
  by simp [cancelTask]

@[simp] theorem gist_cancelVisit (n : Nat) (v : VisitRec) (s : State) : gist (cancelVisit n v s) = gist s := by
  simp only [cancelVisit]
  repeat' split
  all_goals simp

@[simp] theorem gist_stepQuery (s : State) : gist (stepQuery s) = gist s := by
  simp only [stepQuery]
  repeat' split
  all_goals simp

@[simp] theorem gist_suspend (a : Aisle) (s : State) : gist (suspend a s) = gist s := by
  simp only [suspend]
  repeat' split
  all_goals simp

@[simp] theorem gist_resume (a : Aisle) (s : State) : gist (resume a s) = gist s := by
  simp only [resume]
  repeat' split
  all_goals simp

@[simp] theorem gist_clearCrane (a : Aisle) (s : State) : gist (clearCrane a s) = gist s := by
  simp only [clearCrane]
  repeat' split
  all_goals simp

@[simp] theorem gist_driveLine (z : Station) (lineLow : Bool) (s : State) : gist (driveLine z lineLow s) = gist s := by
  simp only [driveLine]
  repeat' split
  all_goals simp

@[simp] theorem gist_resetRecords (s : State) : gist (resetRecords s) = gist s := rfl

@[simp] theorem gist_stopCranes (s : State) : gist (stopCranes s) = gist s := by
  refine gist_foldl (fun u a => ?_) _ s
  repeat' split
  all_goals simp

@[simp] theorem gist_holdCarried (s : State) : gist (holdCarried s) = gist s := by
  refine gist_foldl (fun u a => ?_) _ s
  repeat' split
  all_goals simp

@[simp] theorem gist_homeAll (s : State) : gist (homeAll s) = gist s := by
  refine gist_foldl (fun u a => ?_) _ s
  repeat' split
  all_goals simp

@[simp] theorem gist_maskAisles (before s : State) : gist (maskAisles before s) = gist s := by
  refine gist_foldl (fun u a => ?_) aisleList s
  repeat' split
  all_goals simp

@[simp] theorem gist_takeBeamBlocked (z : Station) (s : State) : gist (takeBeamBlocked z s) = gist s :=
  by simp [takeBeamBlocked]

@[simp] theorem gist_takeBeamClear (z : Station) (s : State) : gist (takeBeamClear z s) = gist s := by
  simp only [takeBeamClear]
  repeat' split
  all_goals simp

@[simp] theorem gist_takeClosedReleased (s : State) : gist (takeClosedReleased s) = gist s := by simp [takeClosedReleased]

@[simp] theorem gist_takeCrossingMax (z : Station) (s : State) : gist (takeCrossingMax z s) = gist s := by
  simp only [takeCrossingMax]
  repeat' split
  all_goals simp

@[simp] theorem gist_takeFaceTimer (z : Station) (s : State) : gist (takeFaceTimer z s) = gist s := by
  simp only [takeFaceTimer]
  repeat' split
  all_goals simp

@[simp] theorem gist_takeDeadline (a : Aisle) (s : State) : gist (takeDeadline a s) = gist s := by
  simp only [takeDeadline]
  repeat' split
  all_goals simp

@[simp] theorem gist_takeRetryDelay (a : Aisle) (s : State) : gist (takeRetryDelay a s) = gist s := by
  simp only [takeRetryDelay]
  repeat' split
  all_goals simp

@[simp] theorem gist_takeRestTimer (a : Aisle) (s : State) : gist (takeRestTimer a s) = gist s := by
  simp only [takeRestTimer]
  repeat' split
  all_goals simp

@[simp] theorem gist_takeInputLevel (i : FireInput) (high : Bool) (s : State) : gist (takeInputLevel i high s) = gist s := by
  simp only [takeInputLevel]
  repeat' split
  all_goals simp

end Sys2Proof.Machine

/-! The link's own operations keep its laws, and so does the answer to every command. -/

namespace Sys2Proof.Machine

/-! ### The summary -/

/-- No position from 20 on is set. -/
def LowBits (w : BitVec 24) : Prop := ∀ i : Nat, 20 ≤ i → w.getLsbD i = false

theorem lowBits_zero : LowBits 0 := fun _ _ => BitVec.getLsbD_zero

theorem LowBits.or {v w : BitVec 24} (hv : LowBits v) (hw : LowBits w) : LowBits (v ||| w) := fun i hi => by
  rw [BitVec.getLsbD_or, hv i hi, hw i hi, Bool.or_false]

theorem LowBits.of_or {v w : BitVec 24} (h : LowBits (v ||| w)) : LowBits v ∧ LowBits w := by
  refine ⟨fun i hi => ?_, fun i hi => ?_⟩ <;>
  · have := h i hi
    rw [BitVec.getLsbD_or, Bool.or_eq_false_iff] at this
    simp [this]

/-- What the summary holds: the bits that stand, and those of a transaction in progress. -/
theorem lowBits_summary {l : LinkRec} : LowBits l.summary ↔
    LowBits l.attention ∧ ∀ bits, l.reading = some (.attention bits) → LowBits bits := by
  unfold LinkRec.summary
  split
  · rename_i bits h
    refine ⟨fun hl => ⟨hl.of_or.1, fun x hx => ?_⟩, fun ⟨ha, hb⟩ => ha.or (hb bits h)⟩
    rw [h] at hx
    cases hx
    exact hl.of_or.2
  all_goals
    rename_i h
    simp [h]

/-! ### The link's own operations -/

/-- A message can be loaded while the link waits for none. -/
theorem linkLaw_loadCommand {s : State} (hb : linkBusy s = false) (m : List Byte) (h : LinkLaw s.link) :
    LinkLaw (loadCommand m s).link := by
  obtain ⟨hbusy, hready⟩ := Bool.or_eq_false_iff.mp hb
  exact {
    serial _ := hready
    command := (List.length_take_le _ _)
    noCommand hc := nomatch hc
    noReply := h.noReply
    reply := h.reply
    restart := h.restart
    summary := h.summary }

theorem linkLaw_writeReply (c : OutcomeCode) (data : List Byte) {s : State} (h : LowBits s.link.summary) :
    LinkLaw (writeReply c data s).link where
  serial hc := nomatch hc
  command := Nat.zero_le _
  noCommand _ := rfl
  noReply hc := nomatch hc
  reply _ := ⟨c, data, rfl⟩
  restart _ := rfl
  summary := h

theorem linkLaw_setLate {s : State} (h : LinkLaw s.link) : LinkLaw (setLate s).link := { h with }

/-- A transaction begins or ends that leaves the buffers. -/
theorem linkLaw_transaction {l m : LinkRec} (h : LinkLaw l)
    (hm : m = { l with late := m.late, hostOut := m.hostOut, attention := m.attention, reading := m.reading })
    (hs : LowBits m.summary) : LinkLaw m := by
  rw [hm]
  exact { h with summary := hm ▸ hs }

/-- The reply buffer is emptied while no Restart waits for its reply. -/
theorem linkLaw_emptied {l m : LinkRec} (h : LinkLaw l) (ht : l.restartTimer.isSome = false)
    (hm : m = { l with reply := [], replyReady := false, hostOut := m.hostOut, reading := m.reading })
    (hs : LowBits m.summary) : LinkLaw m := by
  rw [hm]
  exact {
    serial _ := rfl
    command := h.command
    noCommand := h.noCommand
    noReply _ := rfl
    reply hc := nomatch hc
    restart hc := absurd hc (ne_true_of_eq_false ht)
    summary := hm ▸ hs }

theorem kept_setLate (s : State) : LawsKept s (setLate s) := .of_link linkLaw_setLate rfl

theorem kept_writeReply (c : OutcomeCode) (data : List Byte) (s : State) : LawsKept s (writeReply c data s) :=
  .of_link (fun h => linkLaw_writeReply c data h.summary) rfl

theorem kept_refuseWrite (m : List Byte) (c : OutcomeCode) (s : State) : LawsKept s (refuseWrite m c s) := by
  unfold refuseWrite
  split
  · exact kept_setLate s
  · exact kept_writeReply c [] s

theorem kept_readStatusEnd (s : State) : LawsKept s (readStatusEnd s) :=
  .of_link (fun h => linkLaw_transaction h rfl h.summary) rfl

theorem kept_captureReply (s : State) : LawsKept s (captureReply s) := by
  refine .of_link (fun h => linkLaw_transaction h rfl (lowBits_summary.2 ?_)) rfl
  exact ⟨(lowBits_summary.1 h.summary).1, fun bits hb => nomatch hb⟩

theorem kept_captureStatus (s : State) : LawsKept s (captureStatus s) := by
  refine .of_link (fun h => linkLaw_transaction h rfl (lowBits_summary.2 ?_)) rfl
  exact ⟨(lowBits_summary.1 h.summary).1, fun bits hb => nomatch hb⟩

theorem kept_finishStatus (s : State) : LawsKept s (finishStatus s) := by
  unfold finishStatus
  split
  · refine .of_link (fun h => linkLaw_transaction h rfl (lowBits_summary.2 ?_)) rfl
    exact ⟨(lowBits_summary.1 h.summary).1, fun bits hb => nomatch hb⟩
  all_goals exact .refl s

/-- The bits sent are cleared; none is set from 20 on. -/
theorem kept_readAttentionEnd (s : State) : LawsKept s (readAttentionEnd s) := by
  refine .of_link (fun h => linkLaw_transaction h rfl (lowBits_summary.2 ⟨?_, (lowBits_summary.1 h.summary).2⟩)) rfl
  show LowBits (s.link.attention &&& ~~~ s.link.attention)
  rw [BitVec.and_not_self]
  exact lowBits_zero

/-- The bits captured are those that stood. -/
theorem kept_captureAttention (s : State) : LawsKept s (captureAttention s) := by
  refine .of_link (fun h => linkLaw_transaction h rfl (lowBits_summary.2 ⟨lowBits_zero, fun bits hb => ?_⟩)) rfl
  cases hb
  exact (lowBits_summary.1 h.summary).1

theorem kept_finishAttention (s : State) : LawsKept s (finishAttention s) := by
  unfold finishAttention
  split
  · refine .of_link (fun h => linkLaw_transaction h rfl (lowBits_summary.2 ?_)) rfl
    exact ⟨(lowBits_summary.1 h.summary).1, fun bits hb => nomatch hb⟩
  all_goals exact .refl s

theorem kept_capture {f : State → State} {s : State} (h : LawsKept s (f s)) : LawsKept s (capture f s) := by
  unfold capture
  split
  · exact .refl s
  · exact h

/-- A read-reply transaction empties the buffer, where no Restart waits for it. -/
theorem kept_readReplyEnd {n : Nat} {s : State} (h : (s.link.replyReady && s.link.restartTimer.isSome) = false) :
    LawsKept s (readReplyEnd n s) := by
  unfold readReplyEnd
  dsimp only
  split
  · rename_i hr
    rw [hr, Bool.true_and] at h
    exact .of_link (fun hl => linkLaw_emptied hl h rfl hl.summary) rfl
  · exact .of_link (fun hl => linkLaw_transaction hl rfl hl.summary) rfl

theorem kept_finishReply {n : Nat} {s : State} (h : (sendsReply s.link && s.link.restartTimer.isSome) = false) :
    LawsKept s (finishReply n s) := by
  unfold finishReply
  split
  · rename_i hr
    have ht : s.link.restartTimer.isSome = false := by simpa [sendsReply, hr] using h
    refine .of_link (fun hl => linkLaw_emptied hl ht rfl (lowBits_summary.2 ?_)) rfl
    exact ⟨(lowBits_summary.1 hl.summary).1, fun bits hb => nomatch hb⟩
  · refine .of_link (fun hl => linkLaw_transaction hl rfl (lowBits_summary.2 ?_)) rfl
    exact ⟨(lowBits_summary.1 hl.summary).1, fun bits hb => nomatch hb⟩
  all_goals exact .refl s

/-! ### The answer to a command -/

theorem kept_answer {s : State} {r : Result} (h : r.keeps (LawsKept s)) : LawsKept s (answer s r) := by
  cases r with
  | refuse c d => exact kept_writeReply c d s
  | reply c d t => exact LawsKept.trans h (kept_writeReply c d t)
  | wait t => exact h

theorem kept_modeCheck {modes : Modes} {s : State} {r : Result} (h : LawsKept s (answer s r)) :
    LawsKept s (answer s (modeCheck modes s r)) := by
  unfold modeCheck
  split
  · exact kept_writeReply _ _ s
  · exact kept_writeReply _ _ s
  · exact h

/-- A command is taken and answered. -/
theorem kept_takeCommand {code : Byte} {len : Nat} {modes : Modes} {run : List Byte → State → Result} {body : List Byte}
    {s : State} (hrun : ∀ p t, LawsKept t (answer t (run p t))) : LawsKept s (takeCommand code len modes run body s) := by
  unfold takeCommand
  split
  · exact .refl s
  · split
    · exact kept_setLate s
    · rename_i hb
      have hl : LawsKept s (loadCommand (code :: body) s) :=
        .of_link (linkLaw_loadCommand (eq_false_of_ne_true hb) _) rfl
      refine hl.trans ?_
      dsimp only
      unfold refuseIf
      split
      · exact kept_writeReply _ _ _
      · exact kept_modeCheck (hrun _ _)

/-- Restart waits for its reply to be read. -/
theorem kept_restart (p : List Byte) (s : State) : LawsKept s (answer s (runRestart p s)) :=
  .of_link (fun h => linkLaw_writeReply .done [] (s := { s with link := { s.link with restartTimer := _ } }) h.summary) rfl

/-! ### The commands -/

variable {s : State}

theorem keeps_of_gist {t : State} {c : OutcomeCode} {data : List Byte} (h : gist t = gist s) :
    (Result.reply c data t).keeps (LawsKept s) := LawsKept.of_gist h

theorem gist_placeTaskAt (n b : Nat) (r : BinRec) (t : TaskRec) (s : State) : gist (placeTaskAt n b r t s).state = gist s := by
  unfold placeTaskAt
  split
  · split
    · dsimp only
      split <;> simp
    · rfl
  · simp

theorem gist_placeRefile (n b : Nat) (r : BinRec) (key : ItemKey) (priority : Nat) (s : State) :
    gist (placeRefile n b r key priority s).state = gist s := by
  unfold placeRefile
  exact (gist_modBin _ _ _).trans (gist_placeTaskAt _ _ _ _ s)

theorem kept_event {z : Station} {f : State → State} (h : gist (f s) = gist s) : LawsKept s (eventOf z f s) :=
  kept_eventOf (.of_gist h)

theorem kept_visitEvent {v : VisitRec} {f : State → State} (h : gist (f s) = gist s) : LawsKept s (visitEvent v f s) := by
  unfold visitEvent
  split
  · exact kept_event h
  · exact .of_gist h

theorem laws_runAdmitBin (p : List Byte) : (runAdmitBin p s).keeps (LawsKept s) := by
  refine keeps_withSome fun d _ => ?_
  split
  · exact keeps_refuseIf (keeps_refuseIf (keeps_refuseIf (keeps_of_gist rfl)))
  · refine keeps_withSome fun z _ => keeps_refuseIf (keeps_refuseIf (keeps_refuseIf (keeps_refuseIf (keeps_refuseIf
      (keeps_refuseIf (keeps_withSome fun n _ => keeps_of_gist ?_))))))
    exact gist_intake d z n s

theorem laws_runAlterBin (p : List Byte) : (runAlterBin p s).keeps (LawsKept s) :=
  keeps_refuseIf (keeps_withSome fun _ _ => keeps_refuseIf (keeps_refuseIf (kept_event rfl)))

theorem laws_runRetireBin (p : List Byte) : (runRetireBin p s).keeps (LawsKept s) :=
  keeps_refuseIf (keeps_withSome fun r _ => keeps_refuseIf (keeps_refuseIf (keeps_refuseIf (keeps_withSome fun n _ =>
    kept_event (gist_retire _ r _ n s)))))

theorem laws_runBlockSlot (p : List Byte) : (runBlockSlot p s).keeps (LawsKept s) := by
  refine keeps_withSome fun sl _ => ?_
  split
  iterate 2 exact keeps_of_gist rfl
  all_goals trivial

theorem laws_runUnblockSlot (p : List Byte) : (runUnblockSlot p s).keeps (LawsKept s) := by
  refine keeps_withSome fun sl _ => ?_
  split
  iterate 2 exact keeps_of_gist rfl
  all_goals trivial

theorem laws_runMoveHome (p : List Byte) : (runMoveHome p s).keeps (LawsKept s) :=
  keeps_refuseIf (keeps_withSome fun sl _ => keeps_refuseIf (keeps_withSome fun _ _ => keeps_refuseIf (keeps_refuseIf
    (keeps_refuseIf (keeps_refuseIf (keeps_refuseIf (keeps_refuseIf (keeps_refuseIf (keeps_withSome fun n _ =>
      kept_event (gist_relocate _ sl n s))))))))))

theorem laws_runLend (p : List Byte) : (runLend p s).keeps (LawsKept s) :=
  keeps_refuseIf (keeps_withSome fun r _ => keeps_refuseIf (keeps_zoneAndAisle (keeps_refuseIf (keeps_refuseIf (keeps_refuseIf
    (keeps_visitRules fun _ => kept_event ((gist_holdLend _ _).trans (gist_placeTaskAt _ _ r _ s))))))))

theorem laws_runReturn (p : List Byte) : (runReturn p s).keeps (LawsKept s) :=
  keeps_refuseIf (keeps_withSome fun _ _ => keeps_refuseIf (keeps_withSome fun r _ => keeps_zoneAndAisle
    (keeps_visitRules fun _ => kept_event ((gist_setRecordState _ _ _ _).trans (gist_placeTaskAt _ _ r _ s)))))

theorem laws_runRefile (p : List Byte) : (runRefile p s).keeps (LawsKept s) := by
  unfold runRefile
  split
  · exact keeps_withSome fun z _ => keeps_refuseIf (keeps_refuseIf (keeps_refuseIf (LawsKept.of_gist rfl)))
  · exact keeps_refuseIf (keeps_withSome fun r _ => keeps_refuseIf (keeps_zoneAndAisle (keeps_refuseIf (keeps_refuseIf
      (keeps_visitRules fun _ => kept_event (gist_placeRefile _ _ r _ _ s))))))

theorem laws_runFetch (p : List Byte) : (runFetch p s).keeps (LawsKept s) :=
  keeps_refuseIf (keeps_withSome fun r _ => keeps_zoneAndAisle (keeps_visitRules fun _ =>
    kept_event (gist_placeTaskAt _ _ r _ s)))

theorem laws_runCancelTask (p : List Byte) : (runCancelTask p s).keeps (LawsKept s) :=
  keeps_refuseIf (keeps_withSome fun v _ => keeps_refuseIf (keeps_withSome fun t _ => keeps_refuseIf
    (kept_visitEvent (gist_cancelTask _ v _ t s))))

theorem laws_runCancelVisit (p : List Byte) : (runCancelVisit p s).keeps (LawsKept s) :=
  keeps_refuseIf (keeps_withSome fun v _ => keeps_refuseIf (kept_visitEvent (gist_cancelVisit _ v s)))

theorem laws_runWriteOff (p : List Byte) : (runWriteOff p s).keeps (LawsKept s) :=
  keeps_refuseIf (keeps_withSome fun _ _ => keeps_refuseIf (keeps_of_gist
    ((gist_modBin _ _ _).trans (gist_deleteRecord _ s))))

theorem laws_runSuspendAisle (p : List Byte) : (runSuspendAisle p s).keeps (LawsKept s) := by
  refine keeps_withAisle fun a => ?_
  split
  · exact .refl s
  · exact kept_event (gist_suspend a s)

theorem laws_runResumeAisle (p : List Byte) : (runResumeAisle p s).keeps (LawsKept s) :=
  keeps_withAisle fun a => keeps_refuseIf (kept_event (gist_resume a s))

theorem laws_runClearCrane (p : List Byte) : (runClearCrane p s).keeps (LawsKept s) :=
  keeps_withAisle fun a => keeps_refuseIf (kept_event (gist_clearCrane a s))

theorem laws_runRestoreZone (p : List Byte) : (runRestoreZone p s).keeps (LawsKept s) :=
  keeps_withSome fun z _ => keeps_refuseIf (kept_eventOf (kept_enterRecovery z s))

theorem kept_drillZone (z : Station) (c : DrillCode) (s : State) : LawsKept s (drillZone z c s) := by
  have hg : gist (setZone z (inject c (zone s z)) s) = gist s := gist_setZone (by cases c <;> rfl) (by cases c <;> rfl)
  exact (LawsKept.of_gist hg).trans (kept_actOnLevels s z _)

theorem laws_runDrill (p : List Byte) : (runDrill p s).keeps (LawsKept s) :=
  keeps_withSome fun z _ => keeps_withSome fun c _ => kept_eventOf (kept_drillZone z c s)

theorem kept_reopen {z : Station} (hz : zoneClosed s z = false) (hp : stationPresent s z = true) :
    LawsKept s (reopen z s) := by
  unfold reopen
  split
  · exact .of_gist (gist_leaveOut z s)
  · exact .of_gist (gist_modStation rfl rfl)
  all_goals exact (kept_energiseShutter hz hp).trans (.of_gist (gist_modStation rfl rfl))

end Sys2Proof.Machine

/-! A reset leaves the link with its laws and every output released or energised as R138 has it, and so does a change of the
station mask. -/

namespace Sys2Proof.Machine

section
variable {s t u : State} {z : Station}

/-! ### Operations on one station and its zone -/

theorem AtStation.refl (z : Station) (s : State) : AtStation z s s := ⟨AtStations.refl s, fun _ _ => rfl, fun _ _ => rfl⟩

theorem AtStation.trans (h : AtStation z s t) (k : AtStation z t u) : AtStation z s u where
  toAtStations := h.toAtStations.trans k.toAtStations
  stations y hy := (k.stations y hy).trans (h.stations y hy)
  zones y hy := (k.zones y hy).trans (h.zones y hy)

theorem atStation_setStation (z : Station) (r : StationRec) (s : State) : AtStation z s (setStation z r s) :=
  ⟨⟨rfl, List.prefix_refl _⟩, fun _ hy => station_setStation_ne hy r s, fun _ _ => rfl⟩

theorem atStation_setZone (z : Station) (r : ZoneRec) (s : State) : AtStation z s (setZone z r s) :=
  ⟨⟨rfl, List.prefix_refl _⟩, fun _ _ => rfl, fun _ hy => zone_setZone_ne hy r s⟩

theorem atStation_sendPanel (z y : Station) (m : PanelMsg) (s : State) : AtStation z s (sendPanel y m s) :=
  ⟨⟨rfl, List.prefix_append _ _⟩, fun _ _ => rfl, fun _ _ => rfl⟩

theorem atStation_showPending (z y : Station) (i : Nat) (ts : List TaskRec) (s : State) :
    AtStation z s (showPending y i ts s) := by
  induction ts generalizing i s with
  | nil => exact .refl z s
  | cons t ts ih =>
    refine AtStation.trans ?_ (ih _ _)
    split
    · exact atStation_sendPanel z y _ s
    · exact .refl z s

theorem atStation_resendTasks (z : Station) (s : State) : AtStation z s (resendTasks z s) := by
  have h := atStation_sendPanel z z .clear s
  unfold resendTasks
  dsimp only
  split
  · exact h
  · split
    · exact h
    · split
      · exact h.trans (atStation_showPending z z _ _ _)
      · exact h

theorem atStation_reportReopen (z : Station) (rep : ReopenReport) (s : State) : AtStation z s (reportReopen z rep s) := by
  unfold reportReopen
  split
  · exact atStation_setZone z _ s
  · exact .refl z s

theorem atStation_reopenOrder (z : Station) (s : State) : AtStation z s (reopenOrder z s) := by
  have h := atStation_setStation z { station s z with closeOrder := false } s
  unfold reopenOrder
  dsimp only
  split
  · exact h.trans (atStation_reportReopen z _ _)
  · exact h.trans (atStation_setStation z _ _)
  all_goals
    split
    · exact h.trans (atStation_reportReopen z _ _)
    · exact (h.trans (atStation_setStation z _ _)).trans (atStation_setStation z _ _)

theorem atStation_startStation (z : Station) (s : State) : AtStation z s (startStation z s) := by
  unfold startStation
  split
  · exact (atStation_setZone z _ s).trans (atStation_sendPanel z z _ _)
  · exact (atStation_resendTasks z s).trans (atStation_reopenOrder z _)

theorem atStation_start (z : Station) (s : State) :
    AtStation z s (if stationPresent s z then startStation z s else s) := by
  split
  · exact atStation_startStation z s
  · exact .refl z s

/-- A station's turn in the start of all finds its own records, and they stay as it made them. -/
theorem startStations_turn (s : State) (z : Station) : ∃ u, AtStations s u ∧ station u z = station s z ∧
    zone u z = zone s z ∧
    station (startStations s) z = station (if stationPresent u z then startStation z u else u) z ∧
    zone (startStations s) z = zone (if stationPresent u z then startStation z u else u) z := by
  obtain ⟨u, ⟨hu, hstation, hzone⟩, -, hs, hz⟩ := foldl_turn (i := z)
    (f := fun y t => if stationPresent t y then startStation y t else t)
    (P := fun s t => AtStations s t ∧ station t z = station s z ∧ zone t z = zone s z)
    (fun s => ⟨AtStations.refl s, rfl, rfl⟩)
    (fun h k => ⟨h.1.trans k.1, k.2.1.trans h.2.1, k.2.2.trans h.2.2⟩)
    (fun y hy t => have h := atStation_start y t
      ⟨h.toAtStations, h.stations z (Ne.symm hy), h.zones z (Ne.symm hy)⟩)
    stationList (by decide) (mem_stationList z) s
  exact ⟨u, hu, hstation, hzone, hs, hz⟩

theorem atStations_startStations (s : State) : AtStations s (startStations s) :=
  keep_foldl (P := fun t => AtStations s t) (f := fun t z => if stationPresent t z then startStation z t else t)
    (fun t z h => h.trans (atStation_start z t).toAtStations) stationList (AtStations.refl s)

theorem AtStations.link (h : AtStations s t) : t.link = s.link := (congrArg State.link h.rest :)

/-- A door is given by the records of its station and zone. -/
theorem door_congr (hs : station t z = station s z) (hz : zone t z = zone s z) (hp : t.params = s.params) :
    door t z = door s z := by
  simp only [door, hs, hz, stationPresent, hp]

/-! ### The start of the stations -/

/-- A station whose output is released starts as its zone allows. -/
theorem kept_startStation (h : (station s z).holdOpen = false) (hp : stationPresent s z = true) :
    LawsKept s (startStation z s) := by
  unfold startStation
  split
  · exact (kept_reportReleased h).trans (.of_gist (gist_sendPanel z _ _))
  · rename_i hc
    have hg := gist_resendTasks z s
    refine (LawsKept.of_gist hg).trans (kept_reopenOrder ?_ ((present_of_gist hg).trans hp))
    exact (closed_of_gist hg).trans (eq_false_of_ne_true hc)

theorem lawful_startStations (h : (station s z).holdOpen = false) : (door (startStations s) z).Lawful := by
  obtain ⟨u, hu, hs, hz, ht, htz⟩ := startStations_turn s z
  have hrel : (station u z).holdOpen = false := hs ▸ h
  have hparams : (startStations s).params = (if stationPresent u z then startStation z u else u).params :=
    (atStations_startStations s).params.trans (hu.trans (atStation_start z u).toAtStations).params.symm
  rw [door_congr ht htz hparams]
  split
  · exact (kept_startStation hrel ‹_›).door z (Door.lawful_of_released hrel)
  · exact Door.lawful_of_released hrel

/-! ### The blocks after a reset -/

theorem holdOpen_resetStation (z : Station) (s : State) : (station (resetStation z s) z).holdOpen = false := by
  rw [resetStation, station_setStation]
  split <;> rfl

/-- The records that a reset sets afresh without the directory. -/
def blocksAfresh (s : State) : State :=
  { s with
    aisles := vectorMap resetAisle s.aisles
    zones := vectorMap resetZone s.zones
    inputs := vectorMap (fun c => { c with window := none }) s.inputs
    chanQ := ChannelRec.reset
    chanP := ChannelRec.reset
    search := SearchRec.reset
    time := ⟨0, param s 6, 0⟩ }

/-- The crane records after a reset. -/
def cranesAfresh (s : State) : State := aisleList.foldl (fun t a => setCrane a (craneAfterReset t a) t) s

theorem resetBlocks_eq (s : State) :
    resetBlocks s = stationList.foldl (fun t z => resetStation z t) (cranesAfresh (blocksAfresh s)) := rfl

theorem holdOpen_resetBlocks (s : State) (z : Station) : (station (resetBlocks s) z).holdOpen = false := by
  obtain ⟨u, -, h⟩ := foldl_turn (i := z) (f := resetStation) (P := fun s t => station t z = station s z) (fun _ => rfl)
    (fun h k => k.trans h) (fun y hy t => station_setStation_ne (Ne.symm hy) _ t) stationList (by decide) (mem_stationList z)
    (cranesAfresh (blocksAfresh s))
  rw [resetBlocks_eq, h]
  exact holdOpen_resetStation z u

theorem link_resetBlocks (s : State) : (resetBlocks s).link = s.link := by
  have hcranes : (cranesAfresh (blocksAfresh s)).link = s.link :=
    keep_foldl (P := fun t => t.link = s.link) (f := fun t a => setCrane a (craneAfterReset t a) t) (fun _ _ h => h) aisleList rfl
  exact keep_foldl (P := fun t => t.link = s.link) (f := fun t z => resetStation z t) (fun _ _ h => h) stationList hcranes

/-! ### The whole reset -/

/-- The laws of the link and of every door. -/
structure Lawful (s : State) : Prop where
  link : LinkLaw s.link
  door : ∀ z, (door s z).Lawful

theorem Lawful.kept (h : Lawful s) (k : LawsKept s t) : Lawful t := ⟨k.link h.link, fun z => k.door z (h.door z)⟩

theorem LawsKept.of_lawful (h : Lawful t) : LawsKept s t := ⟨fun _ => h.link, fun z _ => h.door z⟩

theorem linkLaw_resetLink (repaired : Bool) (l : LinkRec) : LinkLaw (resetLink repaired l) where
  serial hc := nomatch hc
  command := Nat.zero_le _
  noCommand _ := rfl
  noReply _ := rfl
  reply hc := nomatch hc
  restart hc := nomatch hc
  summary i hi := by
    have hlow : LowBits (LinkRec.reset.attention ||| (if repaired then attentionWord repairedBit else 0)) := by
      intro i hi
      by_cases h : i < 24
      · interval_cases i <;> cases repaired <;> rfl
      · exact BitVec.getLsbD_of_ge _ _ (by omega)
    exact hlow i hi

theorem lawful_startStations_of (hl : LinkLaw s.link) (h : ∀ z, (station s z).holdOpen = false) :
    Lawful (startStations s) where
  link := (atStations_startStations s).link.symm ▸ hl
  door z := lawful_startStations (h z)

theorem holdOpen_of_gist (h : gist t = gist s) : (station t z).holdOpen = (station s z).holdOpen :=
  congrArg (fun g : Gist => (g.doors z).holdOpen) h

theorem lawful_resetBlocks (hl : LinkLaw s.link) : Lawful (startStations (reconcileAll (resetBlocks s))) := by
  have hg : gist (reconcileAll (resetBlocks s)) = gist (resetBlocks s) := gist_reconcileAll _
  refine lawful_startStations_of (linkLaw_of_wire (congrArg Gist.wire hg) ((link_resetBlocks s).symm ▸ hl)) fun z => ?_
  exact (holdOpen_of_gist hg).trans (holdOpen_resetBlocks s z)

/-- What follows the start of the stations. -/
theorem kept_afterStart (s : State) :
    LawsKept s (settleAll (homeAll (stopCranes (holdCarried s))) (homeAll (stopCranes (holdCarried s)))) := by
  refine LawsKept.trans (.of_gist ?_) (kept_settleAll _ _)
  rw [gist_homeAll, gist_stopCranes, gist_holdCarried]

theorem lawful_leaveKept (s : State) : Lawful (leaveKept s) := by
  have hl : LinkLaw (resetRecords (resetSettings s)).link := linkLaw_resetLink _ _
  exact (lawful_resetBlocks hl).kept (kept_afterStart _)

theorem holdOpen_setUpAfresh (s : State) (z : Station) : (station (setUpAfresh s) z).holdOpen = false := by
  rw [setUpAfresh, station, get_vectorMap]
  rfl

theorem lawful_of_released (hl : LinkLaw s.link) (h : ∀ z, (station s z).holdOpen = false) : Lawful s :=
  ⟨hl, fun z => Door.lawful_of_released (h z)⟩

theorem lawful_setUpAfresh (s : State) : Lawful (setUpAfresh s) :=
  lawful_of_released (linkLaw_resetLink false _) (holdOpen_setUpAfresh s)

theorem lawful_leaveReset (cause : ResetCause) (s : State) : Lawful (leaveReset cause s) := by
  have h : Lawful (if cause = .powerLost then leaveLost s else leaveKept s) := by
    split
    · exact (lawful_setUpAfresh s).kept (.of_gist (gist_reconcileAll _))
    · exact lawful_leaveKept s
  exact h.kept (.of_gist rfl)

theorem kept_releaseOutputs (s : State) : LawsKept s (releaseOutputs s) := by
  refine ⟨id, fun z _ => Door.lawful_of_released ?_⟩
  show (station (releaseOutputs s) z).holdOpen = false
  rw [releaseOutputs, station, get_vectorMap]

theorem kept_beginReset (cause : ResetCause) (s : State) : LawsKept s (beginReset cause s) := by
  have h : LawsKept s (if cause = .powerLost then setUpAfresh s else s) := by
    split
    · exact .of_lawful (lawful_setUpAfresh s)
    · exact .refl s
  exact (h.trans (kept_releaseOutputs _)).trans (.of_gist rfl)

theorem kept_resetAtOnce (cause : ResetCause) (s : State) : LawsKept s (resetAtOnce cause s) :=
  .of_lawful (lawful_leaveReset cause _)

theorem kept_powerOn (bkok : Bool) (s : State) : LawsKept s (powerOn bkok s) := by
  unfold powerOn
  dsimp only
  split
  · exact kept_beginReset _ s
  · exact kept_resetAtOnce _ s

theorem kept_assertReset (bkok : Bool) (s : State) : LawsKept s (assertReset bkok s) := by
  have hpin : LawsKept s { s with resets := { s.resets with pinLow := true } } := .of_gist rfl
  unfold assertReset
  dsimp only
  split
  · exact .refl s
  · split
    · exact hpin
    · exact hpin.trans (kept_beginReset _ _)

theorem kept_releaseReset (s : State) : LawsKept s (releaseReset s) := by
  have hpin : LawsKept s { s with resets := { s.resets with pinLow := false } } := .of_gist rfl
  unfold releaseReset
  dsimp only
  split
  · split
    · exact .of_lawful (lawful_leaveReset _ _)
    · exact hpin
  · exact hpin

theorem kept_takeReadReply (n : Nat) (bkok : Bool) (s : State) : LawsKept s (takeReadReply n bkok s) := by
  unfold takeReadReply
  dsimp only
  split
  · exact .of_lawful (lawful_leaveReset _ _)
  · exact kept_readReplyEnd (eq_false_of_ne_true ‹_›)

theorem kept_takeReplyFinish (n : Nat) (bkok : Bool) (s : State) : LawsKept s (takeReplyFinish n bkok s) := by
  unfold takeReplyFinish
  dsimp only
  split
  · exact .of_lawful (lawful_leaveReset _ _)
  · exact kept_finishReply (eq_false_of_ne_true ‹_›)

theorem kept_takeRestartTimeout (bkok : Bool) (s : State) : LawsKept s (takeRestartTimeout bkok s) := by
  unfold takeRestartTimeout
  split
  · exact kept_resetAtOnce _ s
  · exact .refl s

/-! ### The station mask -/

theorem holdOpen_removedStation (s : State) (z : Station) : (removedStation s z).holdOpen = false := by
  unfold removedStation
  split
  · rfl
  · exact eq_false_of_ne_true ‹_›

theorem lawful_startedStation (hp : stationPresent t z = true) (hs : station t z = startedStation s z)
    (hz : (zone t z).state = (zone s z).state) : (door t z).Lawful := by
  intro hc
  show (station t z).holdOpen = false
  cases ho : opensAtStart s z with
  | false => rw [hs]; exact ho
  | true =>
    have hclosed : zoneClosed s z = false := by
      simp only [opensAtStart, Bool.and_eq_true, Bool.not_eq_true'] at ho
      exact ho.1
    rw [zoneClosed] at hclosed
    simp only [door, hs, hz, hp, startedStation, ho, if_true] at hc
    cases h : (zone s z).state <;> simp_all [ZoneState.isClosed]

/-- A change of the station mask from the state before it, whose stations and zones are `s`'s. -/
theorem kept_maskStations {before s : State} (hl : s.link = before.link) (hs : s.stations = before.stations)
    (hz : s.zones = before.zones) : LawsKept before (maskStations before s) := by
  have hst := atStations_maskStations before s
  refine ⟨fun h => ?_, fun z hd => ?_⟩
  · rw [hst.link, hl]
    exact h
  have hp : stationPresent (maskStations before s) z = stationPresent s z := by rw [stationPresent, hst.params, stationPresent]
  by_cases hsame : stationPresent before z = stationPresent s z
  · obtain ⟨h1, h2⟩ := maskStations_unchanged hsame
    have : door (maskStations before s) z = door before z := by
      simp only [door, h1, h2, hp, hsame, station_congr hs, zone_congr hz]
    rw [this]
    exact hd
  · cases hb : stationPresent before z with
    | true =>
      have hn : stationPresent s z = false := by simpa [hb] using hsame
      refine Door.lawful_of_released ?_
      show (station (maskStations before s) z).holdOpen = false
      rw [(maskStations_removed hb hn).1]
      exact holdOpen_removedStation s z
    | false =>
      have hn : stationPresent s z = true := by simpa [hb] using hsame
      obtain ⟨-, h1, h2⟩ := maskStations_added hb hn
      exact lawful_startedStation (hp.trans hn) h1 (by rw [h2]; rfl)

end

end Sys2Proof.Machine

/-! Every row keeps the laws of the link and of the doors (R147, R164 to R173). -/

namespace Sys2Proof.Machine

section
variable {s t : State} {z : Station} {a : Aisle}

/-! ### The commands that reach doors -/

theorem keeps_refuseIf_of {x : Bool} {c : OutcomeCode} {r : Result} {P : State → Prop} (h : x = false → r.keeps P) :
    (refuseIf x c r).keeps P := by
  cases x with
  | true => trivial
  | false => exact h rfl

/-- A command at a present station. -/
theorem keeps_withPresent {p : List Byte} {rest : Station → Result} {P : State → Prop}
    (h : ∀ z, stationPresent s z = true → (rest z).keeps P) : (withStation p s rest).keeps P :=
  keeps_withSome fun z hz => h z (Option.filter_eq_some_iff.mp hz).2

theorem laws_runReopenStation (p : List Byte) : (runReopenStation p s).keeps (LawsKept s) :=
  keeps_withPresent fun _ hp => keeps_refuseIf_of fun hz => keeps_refuseIf (keeps_refuseIf (kept_eventOf (kept_reopen hz hp)))

theorem laws_runReadStation (p : List Byte) : (runReadStation p s).keeps (LawsKept s) :=
  keeps_withStation fun _ => LawsKept.of_gist (gist_modStation rfl rfl)

theorem laws_runLineTest (p : List Byte) : (runLineTest p s).keeps (LawsKept s) :=
  keeps_withStation fun _ => keeps_refuseIf (LawsKept.of_gist (gist_modStation rfl rfl))

/-- A stored parameter other than the station mask leaves the stations as they are. -/
theorem gist_storeParam {n : Fin 41} (hn : n ≠ 1) (v : BitVec 16) (s : State) : gist (storeParam n v s) = gist s := by
  have hp (z) : stationPresent (storeParam n v s) z = stationPresent s z := by
    have hne : n.val ≠ (1 : Fin 41).val := fun h => hn (Fin.ext h)
    simp only [stationPresent, storeParam, Vector.get_eq_getElem]
    rw [Vector.getElem_set_ne _ _ hne]
  simp only [gist, Gist.mk.injEq]
  exact ⟨rfl, funext fun z => by simp only [door, hp]; rfl⟩

theorem kept_paramEffect (n : Fin 41) (v : BitVec 16) (s : State) : LawsKept s (paramEffect n s (storeParam n v s)) := by
  by_cases hn : n = 1
  · subst hn
    exact kept_maskStations rfl rfl rfl
  · refine (LawsKept.of_gist (gist_storeParam hn v s)).trans (.of_gist ?_)
    unfold paramEffect
    rw [if_neg hn]
    repeat' split
    · simp
    · simp
    · rfl

theorem laws_runSetParameter (p : List Byte) : (runSetParameter p s).keeps (LawsKept s) :=
  keeps_withSome fun n _ => keeps_refuseIf (keeps_refuseIf (keeps_refuseIf (keeps_refuseIf
    (kept_eventOfAll (kept_paramEffect n _ s)))))

theorem laws_runFinish (p : List Byte) : (runFinish p s).keeps (LawsKept s) :=
  keeps_refuseIf (keeps_refuseIf (kept_eventOfAll (.of_gist (gist_homeAll { s with mode := .service }))))

theorem kept_enterCommissioningMode (s : State) : LawsKept s (enterCommissioningMode s) := by
  have hg : gist (aisleList.foldl (fun t a => takeOffline a t) { s with mode := .commissioning }) = gist s :=
    gist_foldl (fun u a => gist_takeOffline a u) aisleList { s with mode := .commissioning }
  exact (LawsKept.of_gist hg).trans (.foldl (fun u z => kept_drillZone z .end_ u) stationList _)

theorem laws_runEnter (p : List Byte) : (runEnter p s).keeps (LawsKept s) :=
  keeps_refuseIf (kept_eventOfAll (kept_enterCommissioningMode s))

/-! ### The placement search -/

theorem kept_endSearch (c : OutcomeCode) (data : List Byte) (s : State) : LawsKept s (endSearch c data s) :=
  LawsKept.trans (t := { s with chanP := { s.chanP with state := .idle } }) (.of_gist rfl) (kept_writeReply c data _)

theorem kept_placeWinner (b : Nat) (r : BinRec) (s : State) : LawsKept s (placeWinner b r s) :=
  (kept_event (gist_placeRefile _ b r _ _ s)).trans (kept_endSearch _ _ _)

theorem kept_endPass (s : State) : LawsKept s (endPass s) := by
  unfold endPass
  split
  · exact kept_endSearch _ _ s
  · split
    · exact kept_endSearch _ _ s
    · split
      · exact kept_placeWinner _ _ s
      · split
        · exact .of_gist rfl
        · exact kept_endSearch _ _ s

theorem kept_stepSearch (s : State) : LawsKept s (stepSearch s) := by
  have hw : LawsKept s { s with search := { s.search with winner := judgeBin s s.chanP.cursor } } := .of_gist rfl
  unfold stepSearch
  dsimp only
  split
  · split
    · exact .of_gist rfl
    · exact hw.trans (kept_endPass _)
  · exact .refl s

/-! ### The Timebase -/

theorem station_tick (s : State) (z : Station) : station (tick s) z = (station s z).tick := get_vectorMap _ _ _

theorem zone_tick (s : State) (z : Station) :
    zone (tick s) z = { zone s z with holdTimer := tickTimer (zone s z).holdTimer } :=
  get_vectorMap (fun r : ZoneRec => { r with holdTimer := tickTimer r.holdTimer }) s.zones z

theorem kept_tick (s : State) : LawsKept s (tick s) := by
  refine .of_link (fun h => ?_) (funext fun z => ?_)
  · have ht : ∀ t : Option Nat, (tickTimer t).isSome = t.isSome := fun t => by cases t <;> rfl
    exact { h with restart := fun hc => h.restart ((ht _).symm.trans hc) }
  · show door (tick s) z = door s z
    simp only [door, station_tick, zone_tick]
    rfl

theorem kept_idleStep (s : State) : LawsKept s (idleStep s) := by
  refine kept_outsideReset ?_
  unfold clockCycle
  split
  · exact .of_gist rfl
  · exact kept_tick s

/-! ### Panels, sensors, timers and inputs -/

theorem kept_panelEvent {act : State → State} (h : LawsKept s (act s)) : LawsKept s (panelEvent z act s) := by
  refine kept_outsideReset ?_
  unfold onPanel
  split
  · exact .refl s
  · split
    · exact .of_gist (gist_sendPanel z _ s)
    · split
      · exact .of_gist (gist_modStation rfl rfl)
      · exact h

/-- A message that is taken. -/
theorem kept_takeMessage {act : State → State} (h : ∀ u, LawsKept u (act u)) : LawsKept s (takeMessage z act s) :=
  LawsKept.trans (.of_gist (gist_modStation rfl rfl)) (h _)

theorem kept_onSensor {level : StationRec → StationRec} {act : State → State}
    (hl : ∀ r, (level r).holdOpen = r.holdOpen ∧ (level r).shutter = r.shutter) (h : ∀ u, LawsKept u (act u)) :
    LawsKept s (onSensor z level act s) := by
  have hg : LawsKept s (modStation z level s) := .of_gist (gist_modStation (hl _).1 (hl _).2)
  unfold onSensor
  dsimp only
  split
  · exact hg
  · exact ((hg.trans (h _)).trans (.of_gist (gist_watchSensors z _))).trans (kept_settleZone s z _)

theorem kept_takeShutterTravel (z : Station) (s : State) : LawsKept s (takeShutterTravel z s) := by
  unfold takeShutterTravel
  split
  · exact kept_takeTravelExpiry z s
  · exact .refl s

theorem kept_takeHoldTimer (z : Station) (s : State) : LawsKept s (takeHoldTimer z s) := by
  have hg : LawsKept s (setZone z { zone s z with holdTimer := none } s) := .of_gist (gist_setZone rfl rfl)
  unfold takeHoldTimer
  dsimp only
  split
  · split
    · exact hg.trans (kept_forceClose z _)
    · exact hg
  · exact .refl s

theorem kept_takeLevel (i : FireInput) (s : State) : LawsKept s (takeLevel i s) := by
  have hg : LawsKept s (setConditioner i { conditioner s i with taken := presentLevel s i, window := none } s) := .of_gist rfl
  exact hg.trans (.foldl (fun u z => kept_actOnLevels s z u) stationList _)

theorem kept_takeDeglitch (i : FireInput) (s : State) : LawsKept s (takeDeglitch i s) := by
  unfold takeDeglitch
  split
  · exact kept_takeLevel i s
  · exact .refl s

theorem kept_takeInputLevel (i : FireInput) (high : Bool) (s : State) : LawsKept s (takeInputLevel i high s) := by
  refine .of_gist ?_
  unfold takeInputLevel
  dsimp only
  split <;> simp

theorem kept_finishLineTest (z : Station) (high : Bool) (s : State) : LawsKept s (finishLineTest z high s) := by
  unfold finishLineTest
  split
  · split
    · exact (kept_event (gist_endLineTest z _ s)).trans (kept_writeReply _ _ _)
    · exact .refl s
  · exact .refl s

theorem kept_craneEvent {f : State → State} (h : gist (f s) = gist s) : LawsKept s (craneEvent a f s) :=
  kept_outsideReset (kept_event h)

end

end Sys2Proof.Machine

/-! The laws of the link and of the shutters hold after every step (R147, R164 to R173). -/

namespace Sys2Proof.Machine

variable {s t : State}

theorem next_kept {u : State} (h : LawsKept s u) (hx : (.next u : Taken) = .next t) : LawsKept s t := by
  cases hx
  exact h

/-- The row of a command. -/
theorem command_kept {code : Byte} {len : Nat} {modes : Modes} {run : List Byte → State → Result} {body : List Byte}
    (hrun : ∀ p u, (run p u).keeps (LawsKept u)) (hx : (.next (takeCommand code len modes run body s) : Taken) = .next t) :
    LawsKept s t :=
  next_kept (kept_takeCommand fun p u => kept_answer (hrun p u)) hx

/-- The row of a command that only reads, or changes what the laws do not look at. -/
theorem quietly_kept {code : Byte} {len : Nat} {modes : Modes} {run : List Byte → State → Result} {body : List Byte}
    (hrun : ∀ p u, (run p u).keeps (fun v => gist v = gist u))
    (hx : (.next (takeCommand code len modes run body s) : Taken) = .next t) : LawsKept s t := by
  refine command_kept (run := run) (fun p u => ?_) hx
  have h := hrun p u
  cases hr : run p u with
  | refuse c d => trivial
  | reply c d v => rw [hr] at h; exact LawsKept.of_gist h
  | wait v => rw [hr] at h; exact LawsKept.of_gist h

/-- Every row keeps the laws. -/
theorem kept_exec (i : Instr) (hx : exec i s = .next t) : LawsKept s t := by
  cases i
  case writeCommandDiscarded m =>
    refine next_kept (kept_outsideReset ?_) hx
    split
    · exact kept_setLate s
    · exact .refl s
  case unknownCommand code body =>
    refine next_kept (kept_outsideReset ?_) hx
    split
    · exact .refl s
    · exact kept_refuseWrite _ _ s
  case commandWriteBadFraming m =>
    refine next_kept (kept_outsideReset ?_) hx
    split
    · exact kept_refuseWrite _ _ s
    · exact .refl s
  case readReply n x part =>
    refine next_kept (kept_outsideReset ?_) hx
    cases part
    · exact kept_takeReadReply n x s
    · exact kept_capture (kept_captureReply s)
    · exact kept_takeReplyFinish n x s
  case readStatusTransaction part =>
    refine next_kept (kept_outsideReset ?_) hx
    cases part
    · exact kept_readStatusEnd s
    · exact kept_capture (kept_captureStatus s)
    · exact kept_finishStatus s
  case readAndClearAttention part =>
    refine next_kept (kept_outsideReset ?_) hx
    cases part
    · exact kept_readAttentionEnd s
    · exact kept_capture (kept_captureAttention s)
    · exact kept_finishAttention s
  case readStatus body =>
    exact command_kept (run := runReadStatus) (fun _ u => .of_link (fun h => { h with }) rfl) hx
  case readBin body =>
    exact quietly_kept (run := runReadBin) (fun _ _ => keeps_refuseIf (keeps_withSome fun _ _ => rfl)) hx
  case readSlot body => exact quietly_kept (run := runReadSlot) (fun _ _ => keeps_withSome fun _ _ => rfl) hx
  case findItem body =>
    refine quietly_kept (run := runFindItem) (fun _ _ => keeps_refuseIf ?_) hx
    split
    · exact rfl
    · split
      · exact rfl
      · trivial
  case readWithdrawalBucket body => exact quietly_kept (run := runReadBucket) (fun _ _ => keeps_refuseIf rfl) hx
  case readVisit body =>
    exact quietly_kept (run := runReadVisit) (fun _ _ => keeps_refuseIf (keeps_withSome fun _ _ => rfl)) hx
  case readCrane body => exact quietly_kept (run := runReadCrane) (fun _ _ => keeps_withAisle fun _ => rfl) hx
  case readStation body => exact command_kept (fun p _ => laws_runReadStation p) hx
  case readZone body => exact quietly_kept (run := runReadZone) (fun _ _ => keeps_withSome fun _ _ => rfl) hx
  case readParameter body => exact quietly_kept (run := runReadParameter) (fun _ _ => keeps_withSome fun _ _ => rfl) hx
  case admitBin body => exact command_kept (fun p _ => laws_runAdmitBin p) hx
  case alterBin body => exact command_kept (fun p _ => laws_runAlterBin p) hx
  case retireBin body => exact command_kept (fun p _ => laws_runRetireBin p) hx
  case blockSlot body => exact command_kept (fun p _ => laws_runBlockSlot p) hx
  case unblockSlot body => exact command_kept (fun p _ => laws_runUnblockSlot p) hx
  case setProtection body => exact quietly_kept (run := runSetProtection) (fun _ _ => rfl) hx
  case lend body => exact command_kept (fun p _ => laws_runLend p) hx
  case returnItem body => exact command_kept (fun p _ => laws_runReturn p) hx
  case refile body => exact command_kept (fun p _ => laws_runRefile p) hx
  case fetch body => exact command_kept (fun p _ => laws_runFetch p) hx
  case moveHome body => exact command_kept (fun p _ => laws_runMoveHome p) hx
  case cancelTask body => exact command_kept (fun p _ => laws_runCancelTask p) hx
  case cancelVisit body => exact command_kept (fun p _ => laws_runCancelVisit p) hx
  case retireVisit body =>
    exact quietly_kept (run := runRetireVisit) (fun _ _ => keeps_refuseIf (keeps_withSome fun _ _ => keeps_refuseIf rfl)) hx
  case writeOffItem body => exact command_kept (fun p _ => laws_runWriteOff p) hx
  case startScan body => exact quietly_kept (run := runStartScan) (fun _ _ => keeps_withSome fun _ _ => rfl) hx
  case readScanResults body => exact quietly_kept (run := runReadScan) (fun _ _ => rfl) hx
  case stopScan body => exact quietly_kept (run := runStopScan) (fun _ _ => rfl) hx
  case suspendAisle body => exact command_kept (fun p _ => laws_runSuspendAisle p) hx
  case resumeAisle body => exact command_kept (fun p _ => laws_runResumeAisle p) hx
  case clearCrane body => exact command_kept (fun p _ => laws_runClearCrane p) hx
  case restoreZone body => exact command_kept (fun p _ => laws_runRestoreZone p) hx
  case drill body => exact command_kept (fun p _ => laws_runDrill p) hx
  case lineTest body => exact command_kept (fun p _ => laws_runLineTest p) hx
  case reopenStation body => exact command_kept (fun p _ => laws_runReopenStation p) hx
  case setParameter body => exact command_kept (fun p _ => laws_runSetParameter p) hx
  case setDay body => exact quietly_kept (run := runSetDay) (fun _ _ => keeps_refuseIf rfl) hx
  case finishCommissioning body => exact command_kept (fun p _ => laws_runFinish p) hx
  case enterCommissioning body => exact command_kept (fun p _ => laws_runEnter p) hx
  case restart body => exact next_kept (kept_takeCommand kept_restart) hx
  case restartTimeout x => exact next_kept (kept_outsideReset (kept_takeRestartTimeout x s)) hx
  case powerOn x => exact next_kept (kept_powerOn x s) hx
  case resetAsserted x => exact next_kept (kept_assertReset x s) hx
  case resetReleased => exact next_kept (kept_releaseReset s) hx
  case timebaseTick => exact next_kept (kept_outsideReset (kept_tick s)) hx
  case mark a axis index =>
    refine next_kept (kept_craneEvent ?_) hx
    split
    · exact gist_takeMark a _ _ s
    · exact gist_unexpectedReport a s
  case arrived a => exact next_kept (kept_craneEvent (gist_takeArrived a s)) hx
  case forkDone a => exact next_kept (kept_craneEvent (gist_takeForkDone a s)) hx
  case homed a => exact next_kept (kept_craneEvent (gist_takeHomed a s)) hx
  case currentLimit a => exact next_kept (kept_craneEvent (gist_takeCurrentLimit a s)) hx
  case noLoad a => exact next_kept (kept_craneEvent (gist_takeNoLoad a s)) hx
  case supply a c =>
    refine next_kept (kept_craneEvent ?_) hx
    cases supplyOfByte c with
    | some c => exact gist_takeSupply a c s
    | none => exact gist_unexpectedReport a s
  case driveReportDiscarded a => exact next_kept (kept_outsideReset (.of_gist (gist_unexpectedReport a s))) hx
  case driveByteTimeout a => exact next_kept (kept_outsideReset (.of_gist (gist_unexpectedReport a s))) hx
  case deadlineExpiry a => exact next_kept (kept_craneEvent (gist_takeDeadline a s)) hx
  case retryDelayExpiry a => exact next_kept (kept_craneEvent (gist_takeRetryDelay a s)) hx
  case restTimerExpiry a => exact next_kept (kept_outsideReset (.of_gist (gist_takeRestTimer a s))) hx
  case itemScan z key =>
    exact next_kept (kept_panelEvent (kept_takeMessage fun u => .of_gist (gist_takeScan z key u))) hx
  case panelDone z =>
    exact next_kept (kept_panelEvent (kept_eventOf (kept_takeMessage fun u => .of_gist (gist_takePanelDone z u)))) hx
  case keep z => exact next_kept (kept_panelEvent (kept_takeMessage fun u => .of_gist (gist_takeKeep z u))) hx
  case problem z c =>
    refine next_kept (kept_panelEvent ?_) hx
    cases problemOfByte c with
    | some c => exact kept_takeMessage fun u => .of_gist (gist_takeProblem z c u)
    | none => exact .of_gist (gist_discardMessage z s)
  case panelMessageDiscarded z => exact next_kept (kept_panelEvent (.of_gist (gist_discardMessage z s))) hx
  case panelByteTimeout z => exact next_kept (kept_panelEvent (.of_gist (gist_discardMessage z s))) hx
  case beamBlocked z =>
    refine next_kept (kept_onSensor (act := takeBeamBlocked z) ?_ fun u => .of_gist (gist_takeBeamBlocked z u)) hx
    exact fun _ => ⟨rfl, rfl⟩
  case beamClear z =>
    refine next_kept (kept_onSensor (act := takeBeamClear z) ?_ fun u => .of_gist (gist_takeBeamClear z u)) hx
    exact fun _ => ⟨rfl, rfl⟩
  case crossingMaxExpiry z => exact next_kept (kept_outsideReset (kept_event (gist_takeCrossingMax z s))) hx
  case faceTimerExpiry z => exact next_kept (kept_outsideReset (.of_gist (gist_takeFaceTimer z s))) hx
  case openLimitAsserted z =>
    refine next_kept (kept_onSensor (act := takeOpenAsserted z) ?_ fun u => kept_takeOpenAsserted z u) hx
    exact fun _ => ⟨rfl, rfl⟩
  case openLimitReleased z =>
    refine next_kept (kept_onSensor (act := takeOpenReleased z) ?_ fun u => .of_gist (gist_takeOpenReleased z u)) hx
    exact fun _ => ⟨rfl, rfl⟩
  case closedLimitAsserted z =>
    refine next_kept (kept_onSensor (act := takeClosedAsserted z) ?_ fun u => kept_takeClosedAsserted z u) hx
    exact fun _ => ⟨rfl, rfl⟩
  case closedLimitReleased z =>
    refine next_kept (kept_onSensor (act := takeClosedReleased) ?_ fun u => .refl u) hx
    exact fun _ => ⟨rfl, rfl⟩
  case shutterTravelExpiry z => exact next_kept (kept_outsideReset (kept_eventOf (kept_takeShutterTravel z s))) hx
  case holdTimerExpiry z => exact next_kept (kept_outsideReset (kept_eventOf (kept_takeHoldTimer z s))) hx
  case lineTestDrive z x => exact next_kept (kept_outsideReset (.of_gist (gist_driveLine z x s))) hx
  case lineTestEnd z x => exact next_kept (kept_outsideReset (kept_finishLineTest z x s)) hx
  case inputLevelChange i x => exact next_kept (kept_takeInputLevel i x s) hx
  case deglitchWindowExpiry i => exact next_kept (kept_outsideReset (kept_eventOfAll (kept_takeDeglitch i s))) hx
  case placementSearchStep => exact next_kept (kept_outsideReset (kept_stepSearch s)) hx
  case scanStep => exact next_kept (kept_outsideReset (.of_gist (gist_stepQuery s))) hx

theorem kept_step (hx : step s = .next t) : LawsKept s t := by
  unfold step at hx
  split at hx
  · exact next_kept (kept_idleStep s) hx
  · rename_i rest _
    exact LawsKept.trans (t := { s with pending := rest }) (.of_gist rfl) (kept_exec _ hx)

/-- Settles O59. -/
theorem linkLawIsKept : Obligations.LinkLawIsKept := fun _ _ h hx => (kept_step hx).link h

/-- Settles O60. -/
theorem sealedShutterStaysReleased : Obligations.SealedShutterStaysReleased :=
  ⟨fun _ _ h hx => shutterLaw_iff.mpr fun z => (kept_step hx).door z (shutterLaw_iff.mp h z),
    fun _ h z hz => h z (hz.imp_right .inl)⟩

end Sys2Proof.Machine

/-! What an event sets off in a zone: close orders that waited, RESET of crossings, eligible legs and the choices that are due
(R80, R81, R129, R138). -/

namespace Sys2Proof.Machine

section
variable {s : State} {z : Station} {a : Aisle}

/-! ### Close orders (R129) -/

/-- The station has released its output and reported it. -/
def closeCarried (z : Station) (s : State) : State :=
  setZone z { zone s z with released := true, holdTimer := none } (setStation z { station s z with
    holdOpen := false, shutter := .closing, travelTimer := some (1000 * param s 32), reopenOrdered := false
    reopenCommand := false } s)

theorem carryClose_none (h : stationPresent s z = false ∨ (station s z).closeOrder = false) : carryClose z s = s := by
  unfold carryClose
  dsimp only
  rw [if_neg]
  rcases h with h | h <;> simp [h]

theorem carryClose_standing (hp : stationPresent s z = true) (ho : (station s z).closeOrder = true) :
    ((station s z).shutter = .open → (station s z).crossing = none → (station s z).beam = false →
      carryClose z s = closeCarried z s) ∧
    ((station s z).shutter = .open → (station s z).crossing ≠ none ∨ (station s z).beam = true → carryClose z s = s) ∧
    ((station s z).shutter = .opening → carryClose z s = closeCarried z s) ∧
    ((station s z).shutter = .closing ∨ (station s z).shutter = .closed → carryClose z s =
      if (zone s z).released then s else setZone z { zone s z with released := true, holdTimer := none } s) := by
  have hon : (stationPresent s z && (station s z).closeOrder) = true := by rw [hp, ho]; rfl
  unfold carryClose
  dsimp only
  rw [if_pos hon]
  refine ⟨fun h hc hb => ?_, fun h hb => ?_, fun h => ?_, fun h => ?_⟩
  · rw [h, hc, hb]
    rfl
  · rw [h]
    refine if_neg ?_
    rcases hb with hb | hb
    · cases hc : (station s z).crossing <;> simp_all
    · simp [hb]
  · rw [h]
    rfl
  · rcases h with h | h <;>
    · rw [h]
      rfl

/-! ### RESET of crossings (R45, R138) -/

theorem matchState_eq (st : VisitState) (loc : Option Location) : matchState st loc =
    if (st = .outbound ∨ st = .moving) ∧ loc = some .slot then .queued
    else if st = .inbound ∧ ∃ z, loc = some (.outbound z) then .atOutbound else st := by
  rcases loc with _ | _ | _ | _ | _ | _ | _ <;> cases st <;> simp [matchState]

theorem stationOpen_iff : stationOpen s z = true ↔ stationPresent s z = true ∧ (station s z).shutter = .open ∧
    (station s z).jammed = false ∧ (station s z).reopenFault = false := by
  simp [stationOpen, StationRec.isOut, and_assoc]

theorem zoneClosed_iff : zoneClosed s z = true ↔ (zone s z).state = .shutdown ∨ (zone s z).state = .sealed ∨
    (zone s z).state = .awaitRestore := by
  rw [zoneClosed]
  cases (zone s z).state <;> simp [ZoneState.isClosed]

/-- A visit in a crossing keeps its state when RESET is lifted. -/
theorem liftedVisit_reset {bins : Table BinRec} {v : VisitRec} (h : v.state = .presenting ∨ v.state = .withdrawing) :
    liftedVisit bins .reset v = { v with hold := { v.hold with reset := false } } := by
  have hm (loc : Option Location) : matchState v.state loc = v.state := by rcases h with h | h <;> rw [h] <;> rfl
  unfold liftedVisit
  split
  · dsimp only
    split
    · rfl
    · rw [hm]
      rfl
  · rename_i hr
    have hr : v.hold.reset = false := by simpa [HoldSet.has] using hr
    rw [show ({ v.hold with reset := false } : HoldSet) = v.hold by rw [← hr]]

theorem visit_liftCrossingResets (h : stationOpen s z = true) (n : Nat) :
    visit (liftCrossingResets z s) n = (visit s n).map fun v =>
      if v.outcome = none ∧ (binAisle s v.bin).map zoneOf = some z ∧ (v.state = .presenting ∨ v.state = .withdrawing)
      then { v with hold := { v.hold with reset := false } } else v := by
  rw [liftCrossingResets, if_pos h, visit_liftHoldWhere]
  refine congrArg (Option.map · (visit s n)) (funext fun v => ?_)
  have hsel : (ofZone s z v && (v.state == .presenting || v.state == .withdrawing)) = true ↔
      (binAisle s v.bin).map zoneOf = some z ∧ (v.state = .presenting ∨ v.state = .withdrawing) := by
    simp [ofZone]
  simp only [hsel]
  split
  · rename_i hv
    exact liftedVisit_reset hv.2.2
  · rfl

theorem liftCrossingResets_shut (h : stationOpen s z = false) : liftCrossingResets z s = s := by
  rw [liftCrossingResets, if_neg (ne_true_of_eq_false h)]

theorem liftCrossingResets_keeps : { liftCrossingResets z s with visits := s.visits } = s := by
  unfold liftCrossingResets
  split <;> rfl

/-! ### Eligible legs (R80) -/

theorem admitsOld_iff : admitsOld s a = true ↔ (zone s (zoneOf a)).state = .clear ∨ (zone s (zoneOf a)).state = .alert ∨
    ((zone s (zoneOf a)).state = .recovery ∧ recoveredMark s a = true) := by
  rw [admitsOld]
  cases (zone s (zoneOf a)).state <;> simp

theorem admitsNew_iff : admitsNew s a = true ↔ (zone s (zoneOf a)).state = .clear ∨
    ((zone s (zoneOf a)).state = .recovery ∧ recoveredMark s a = true) := by
  rw [admitsNew]
  cases (zone s (zoneOf a)).state <;> simp

theorem holds_any_iff (h : HoldSet) : h.any = false ↔ h = HoldSet.none := by
  rcases h with ⟨f, r, c, x, o⟩
  simp [HoldSet.any, HoldSet.none, and_assoc]

/-- The legs that the states of a visit ask for. -/
theorem legOfState_iff (v : VisitRec) (k : LegKind) (continued : Bool) : legOfState v = some (k, continued) ↔
    (continued = false ∧ k = .outbound ∧ v.state = .queued ∧ v.kind ≠ .relocation) ∨
    (continued = false ∧ k = .relocation ∧ v.state = .queued ∧ v.kind = .relocation) ∨
    (continued = false ∧ k = .inbound ∧ v.state = .atOutbound) ∨
    (continued = true ∧ ((k = .outbound ∧ v.state = .outbound) ∨ (k = .inbound ∧ v.state = .inbound) ∨
      (k = .relocation ∧ v.state = .moving))) := by
  rw [legOfState]
  cases v.state <;> cases v.kind <;> cases k <;> cases continued <;> simp

theorem eligible_iff (v : VisitRec) (k : LegKind) (continued : Bool) :
    eligible s a v = some (k, continued) ↔ (v.outcome = none ∧ v.hold = HoldSet.none ∧ service s a = .inService ∧
      binAisle s v.bin = some a) ∧ legOfState v = some (k, continued) ∧ legAllowed s a v (k, continued) = true := by
  have hopen : (isOpen v && !v.hold.any && service s a == .inService && ofAisle s a v) = true ↔
      v.outcome = none ∧ v.hold = HoldSet.none ∧ service s a = .inService ∧ binAisle s v.bin = some a := by
    simp [isOpen, ofAisle, holds_any_iff, and_assoc]
  unfold eligible
  split
  · rename_i h
    rw [Option.filter_eq_some_iff]
    exact (and_iff_right (hopen.mp h)).symm
  · rename_i h
    exact ⟨fun hc => (nomatch hc), fun hc => absurd (hopen.mpr hc.1) h⟩

end

end Sys2Proof.Machine

/-! The scheduler and the arbiter: eligible legs, choices, grants and legs that are handed over (R80 to R86, R121). -/

namespace Sys2Proof.Machine

section
variable {s : State} {z : Station} {a : Aisle}

/-- The leg of Table 2 that a visit is eligible for (R80). -/
theorem eligible_spelled (v : VisitRec) (k : LegKind) (continued : Bool) :
    let old := (zone s (zoneOf a)).state = .clear ∨ (zone s (zoneOf a)).state = .alert ∨
      ((zone s (zoneOf a)).state = .recovery ∧ recoveredMark s a = true)
    let new := (zone s (zoneOf a)).state = .clear ∨
      ((zone s (zoneOf a)).state = .recovery ∧ recoveredMark s a = true)
    eligible s a v = some (k, continued) ↔ v.outcome = none ∧ v.hold = HoldSet.none ∧ service s a = .inService ∧
      binAisle s v.bin = some a ∧
      ((continued = false ∧ k = .outbound ∧ v.state = .queued ∧ v.kind ≠ .relocation ∧ new ∧
          stationOpen s (zoneOf a) = true) ∨
       (continued = false ∧ k = .relocation ∧ v.state = .queued ∧ v.kind = .relocation ∧ new) ∨
       (continued = false ∧ k = .inbound ∧ v.state = .atOutbound ∧ old) ∨
       (continued = true ∧ binLocation s v.bin = some (.crane a) ∧ old ∧
         ((k = .outbound ∧ v.state = .outbound) ∨ (k = .inbound ∧ v.state = .inbound) ∨
           (k = .relocation ∧ v.state = .moving)))) := by
  intro old new
  rw [eligible_iff, and_assoc, and_assoc, and_assoc, legOfState_iff]
  refine and_congr_right' (and_congr_right' (and_congr_right' (and_congr_right' ?_)))
  cases continued
  · cases k <;> simp [legAllowed, admitsOld_iff, admitsNew_iff, old, new, and_assoc]
  · simp only [legAllowed, Bool.and_eq_true, beq_iff_eq, admitsOld_iff]
    simp only [reduceCtorEq, false_and, false_or, true_and]
    tauto

theorem mem_candidates (c : Candidate) : c ∈ candidates s a ↔
    (c.number, c.entry) ∈ s.visits ∧ eligible s a c.entry = some (c.kind, c.continuation) := by
  simp only [candidates, List.mem_filterMap, Option.map_eq_some_iff]
  constructor
  · rintro ⟨e, he, k, hk, rfl⟩
    exact ⟨he, hk⟩
  · rintro ⟨he, hk⟩
    exact ⟨_, he, _, hk, rfl⟩

theorem needsPlace_iff (c : Candidate) : c.needsPlace = true ↔ c.kind = .outbound ∧ c.entry.reservation = false := by
  simp [Candidate.needsPlace]

/-! ### Choices that are due (R81, R142, R150) -/

theorem isFree_iff : isFree s a = true ↔
    ((crane s a).state = .ready ∨ (crane s a).state = .resting) ∧ (crane s a).leg = none := by
  simp [isFree]

theorem zoneOpened_iff (before : State) : zoneOpened before s z = true ↔
    ((zone before z).state = .alert ∧ (zone s z).state = .clear) ∨
    ((zone before z).state = .recovery ∧ ((zone s z).state = .clear ∨ (zone s z).state = .alert)) := by
  unfold zoneOpened
  cases (zone before z).state <;> cases (zone s z).state <;> simp

theorem newlyEligible_iff (before : State) : newlyEligible before s a = true ↔
    ∃ e ∈ s.visits, eligible s a e.2 ≠ none ∧ ∀ v, visit before e.1 = some v → eligible before a v = none := by
  have hnew (n : Nat) : (match visit before n with
      | none => true
      | some v => (eligible before a v).isNone) = true ↔ ∀ v, visit before n = some v → eligible before a v = none := by
    cases visit before n <;> simp
  simp only [newlyEligible, List.any_eq_true]
  constructor
  · rintro ⟨c, hc, h⟩
    obtain ⟨hmem, helig⟩ := (mem_candidates c).mp hc
    exact ⟨(c.number, c.entry), hmem, by simp [helig], (hnew _).mp h⟩
  · rintro ⟨e, he, helig, h⟩
    obtain ⟨k, hk⟩ := Option.ne_none_iff_exists'.mp helig
    exact ⟨⟨e.1, e.2, k.1, k.2⟩, (mem_candidates _).mpr ⟨he, hk⟩, (hnew _).mpr h⟩

theorem choiceDue_iff (before : State) : choiceDue before s a = true ↔ isFree s a = true ∧
    (((crane s a).state = .ready ∧ (crane before a).state ≠ .ready) ∨
     (∃ e ∈ s.visits, eligible s a e.2 ≠ none ∧ ∀ v, visit before e.1 = some v → eligible before a v = none) ∨
     ((zone before (zoneOf a)).state = .alert ∧ (zone s (zoneOf a)).state = .clear) ∨
     ((zone before (zoneOf a)).state = .recovery ∧
       ((zone s (zoneOf a)).state = .clear ∨ (zone s (zoneOf a)).state = .alert))) := by
  rw [← newlyEligible_iff, ← zoneOpened_iff, choiceDue]
  simp [or_assoc]

/-! ### Grants (R84, R121) -/

theorem schedule_ends {n : Nat} (h : nextGrant s z = none) : schedule z (n + 1) [] s = s := by
  rw [schedule, h]

theorem schedule_chooses {n : Nat} (due : List Aisle) (h : nextGrant s z = none) :
    schedule z (n + 1) (a :: due) s = schedule z n due (choose a s) := by
  rw [schedule, h]

theorem schedule_grants {n : Nat} (due : List Aisle) (h : nextGrant s z = some a) :
    schedule z (n + 1) due s = schedule z n (if isFree s a then due ++ [a] else due) (grantArrives a s) := by
  conv_lhs => unfold schedule
  rw [h]

/-- The last grant of a station is changed, and nothing of the aisles' places. -/
theorem reservations_lastGrant (g : LastGrant) (b : Aisle) (s : State) :
    reservations (setStation z { station s z with lastGrant := g } s) b = reservations s b := by
  unfold reservations
  by_cases hz : zoneOf b = z
  · rw [hz, station_setStation]
  · rw [station_setStation_ne hz]

theorem waiting_lastGrant (g : LastGrant) (b : Aisle) (s : State) :
    waiting (setStation z { station s z with lastGrant := g } s) b = waiting s b := by
  unfold waiting
  by_cases hz : zoneOf b = z
  · rw [hz, station_setStation]
  · rw [station_setStation_ne hz]

theorem reservations_takePlace (a : Aisle) (s : State) : reservations (takePlace a s) a = reservations s a + 1 := by
  rw [takePlace, reservations_lastGrant, reservations_setWaiting, reservations_setReservations]

theorem reservations_takePlace_ne {b : Aisle} (h : b ≠ a) : reservations (takePlace a s) b = reservations s b := by
  rw [takePlace, reservations_lastGrant, reservations_setWaiting, reservations_setReservations_ne h]

theorem waiting_takePlace (a : Aisle) (s : State) : waiting (takePlace a s) a = false := by
  rw [takePlace, waiting_lastGrant, waiting_setWaiting]

theorem waiting_takePlace_ne {b : Aisle} (h : b ≠ a) : waiting (takePlace a s) b = waiting s b := by
  rw [takePlace, waiting_lastGrant, waiting_setWaiting_ne h, waiting_setReservations]

theorem lastGrant_takePlace (a : Aisle) (s : State) : (station (takePlace a s) (zoneOf a)).lastGrant = lastGrantOf a := by
  rw [takePlace, station_setStation]

theorem lastGrant_returnGrant (a : Aisle) (s : State) (z : Station) :
    (station (returnGrant a s) z).lastGrant = (station s z).lastGrant := by
  cases hg : (aisleRec s a).grant with
  | true =>
    rw [returnGrant_of_grant s hg]
    exact (congrArg StationRec.lastGrant (station_setReservations a _ _ z) :)
  | false => rw [returnGrant_of_no_grant s hg]

theorem places_trans {t u : State} (h : { u with stations := t.stations, aisles := t.aisles } = t)
    (k : { t with stations := s.stations, aisles := s.aisles } = s) : { u with stations := s.stations, aisles := s.aisles } = s :=
  (congrArg (fun x : State => { x with stations := s.stations, aisles := s.aisles }) h).trans k

theorem grant_returnGrant (a : Aisle) (s : State) : (aisleRec (returnGrant a s) a).grant = false := by
  cases hg : (aisleRec s a).grant with
  | true =>
    rw [returnGrant_of_grant s hg]
    exact (congrArg AisleRec.grant (aisleRec_setAisle a { aisleRec s a with grant := false } s) :)
  | false => rw [returnGrant_of_no_grant s hg, hg]

/-- The grant is taken, and held. -/
def grantHeld (a : Aisle) (s : State) : State :=
  setAisle a { aisleRec (takePlace a s) a with grant := true } (takePlace a s)

theorem takePlace_keeps (a : Aisle) (s : State) : { takePlace a s with stations := s.stations } = s := by
  unfold takePlace setWaiting setReservations
  rfl

theorem grantHeld_keeps (a : Aisle) (s : State) :
    { grantHeld a s with stations := s.stations, aisles := s.aisles } = s :=
  congrArg (fun x : State => { x with aisles := s.aisles }) (takePlace_keeps a s)

theorem grant_grantHeld (a : Aisle) (s : State) : (aisleRec (grantHeld a s) a).grant = true := by
  rw [grantHeld, aisleRec_setAisle]

/-- What a grant that arrives changes (R84 Table 3). -/
theorem grantArrives_spec (t : State) (ht : t = grantArrives a s) :
    let returned := (crane s a).state = .faulted ∨ (crane s a).state = .parking ∨ (crane s a).state = .parked ∨
      (crane s a).state = .offline
    waiting t a = false ∧ (station t (zoneOf a)).lastGrant = (if a.val % 2 = 0 then .first else .second) ∧
    (returned → (aisleRec t a).grant = false ∧ reservations t a = reservations s a) ∧
    (¬returned → (aisleRec t a).grant = true ∧ reservations t a = reservations s a + 1) ∧
    (∀ b : Aisle, b ≠ a → aisleRec t b = aisleRec s b ∧ reservations t b = reservations s b ∧ waiting t b = waiting s b) ∧
    { t with stations := s.stations, aisles := s.aisles } = s := by
  intro returned
  have hother (b : Aisle) (hb : b ≠ a) : aisleRec (grantHeld a s) b = aisleRec s b := aisleRec_setAisle_ne hb _ _
  rw [grantArrives_eq a s (grantHeld a s) rfl] at ht
  by_cases hr : returned
  · rw [if_pos hr] at ht
    subst ht
    refine ⟨(waiting_returnGrant a a _).trans (waiting_takePlace a s),
      (lastGrant_returnGrant a _ _).trans (lastGrant_takePlace a s), fun _ => ⟨?_, ?_⟩, absurd hr, fun b hb => ⟨?_, ?_, ?_⟩, ?_⟩
    · exact grant_returnGrant a _
    · rw [reservations_returnGrant, if_pos (grant_grantHeld a s)]
      exact congrArg (· - 1) (reservations_takePlace a s)
    · exact (aisleRec_returnGrant_ne hb).trans (hother b hb)
    · exact (reservations_returnGrant_ne hb).trans (reservations_takePlace_ne hb)
    · exact (waiting_returnGrant a b _).trans (waiting_takePlace_ne hb)
    · exact places_trans (returnGrant_keeps a (grantHeld a s)) (grantHeld_keeps a s)
  · rw [if_neg hr] at ht
    subst ht
    exact ⟨waiting_takePlace a s, lastGrant_takePlace a s, fun h => absurd h hr,
      fun _ => ⟨grant_grantHeld a s, reservations_takePlace a s⟩,
      fun b hb => ⟨hother b hb, reservations_takePlace_ne hb, waiting_takePlace_ne hb⟩, grantHeld_keeps a s⟩

/-! ### A leg that is handed over (R81, R85, R86) -/

theorem handLeg_eq (c : Candidate) (hv : visit s c.number = some c.entry) (u : State)
    (hu : u = proceed a false (setCrane a { crane s a with
      leg := some ⟨c.number, c.entry.bin, c.kind, c.continuation, if c.continuation then 2 else 0, false, false⟩ }
      (setVisit c.number { c.entry with state := match c.kind with
        | .outbound => .outbound
        | .inbound => .inbound
        | .relocation => .moving } s))) :
    handLeg a c s = setCrane a { crane u a with state := if (crane s a).state = .resting then .waking else .moving } u := by
  have hm : modVisit c.number (fun v => { v with state := legState c.kind }) s =
      setVisit c.number { c.entry with state := legState c.kind } s := modVisit_of_some s hv
  subst hu
  unfold handLeg
  rw [hm]
  cases c.kind <;> rfl

end

end Sys2Proof.Machine

/-! The crossings that an event starts: their conditions, and what their start sets (R14, R123, R124). -/

namespace Sys2Proof.Machine

section
variable {s u : State} {z : Station} {b n : Nat} {y : BinRec} {v : VisitRec} {kind : CrossingKind} {order : Transfer}

/-- A crossing of a bin has started. -/
def crossingStarted (z : Station) (b : Nat) (s : State) (kind : CrossingKind) (order : Transfer) (u : State) : State :=
  { setCrossingMark z (some b) (setStation z { station u z with
      crossing := some ⟨kind, b, s.time.ms, false, 1000 * param s 30⟩, openingBin := some b } u) with
    sent := s.sent ++ [.panel z (.transfer order)] }

/-- A crossing starts in a state with the time, the parameters and the messages of `s`. -/
theorem beginCrossing_started (hp : stationPresent s z = true) (ht : u.time = s.time) (hparams : u.params = s.params)
    (hsent : u.sent = s.sent) (ho : order = match kind with | .present => .present | .withdraw => .withdraw) :
    beginCrossing z kind b u = crossingStarted z b s kind order u := by
  have hpu : stationPresent u z = true := by
    rw [stationPresent, hparams]
    exact hp
  rw [beginCrossing_eq z kind b u hpu, crossingStarted, ht, hsent, param_congr hparams, ho] <;> rfl

section
variable (hb : bin s b = some y) (hn : y.openVisit = some n) (hv : visit s n = some v)
include hb hn hv

theorem setVisitState_of_open (st : VisitState) : setVisitState b st s = setVisit n { v with state := st } s := by
  rw [setVisitState, hb, Option.bind_some, hn]
  exact modVisit_of_some s hv

/-- A bin that may not cross starts no crossing. -/
theorem not_crossable (h : ¬crossable s z (station s z) y v) : mayCross s z = false ∨ binMayCross s b = false := by
  rw [← mayCross_iff s z b n y v hb hn hv, Bool.and_eq_true, not_and_or] at h
  exact h.imp eq_false_of_ne_true eq_false_of_ne_true

theorem crossable_may (h : crossable s z (station s z) y v) : mayCross s z = true ∧ binMayCross s b = true :=
  Bool.and_eq_true_iff.mp ((mayCross_iff s z b n y v hb hn hv).mpr h)

/-! ### Withdraw crossings (R124) -/

theorem tryWithdraw_starts (hf : (station s z).face = some ⟨b, n⟩) (hc : crossable s z (station s z) y v)
    (hst : v.state = .withdrawing) (ho : (station s z).outbound = none) :
    tryWithdraw z s = crossingStarted z b s .withdraw .withdraw s := by
  obtain ⟨hmay, hbin⟩ := crossable_may hb hn hv hc
  rw [tryWithdraw]
  dsimp only
  rw [hf]
  dsimp only
  rw [hv, hmay, ho, hbin]
  simp only [hst, beq_self_eq_true, Option.isNone_none, Bool.and_self, if_true]
  exact beginCrossing_started hc.2.2.1 rfl rfl rfl rfl

theorem tryWithdraw_stays (hf : (station s z).face = some ⟨b, n⟩)
    (h : ¬crossable s z (station s z) y v ∨ v.state ≠ .withdrawing ∨ (station s z).outbound ≠ none) :
    tryWithdraw z s = s := by
  rw [tryWithdraw]
  dsimp only
  rw [hf]
  dsimp only
  rw [hv]
  refine if_neg ?_
  simp only [Bool.and_eq_true, beq_iff_eq, Option.isNone_iff_eq_none]
  rintro ⟨⟨⟨hst, hmay⟩, ho⟩, hbin⟩
  rcases h with h | h | h
  · rcases not_crossable hb hn hv h with h | h
    · exact ne_true_of_eq_false h hmay
    · exact ne_true_of_eq_false h hbin
  · exact h hst
  · exact h ho

/-! ### Present crossings (R14, R123) -/

theorem tryPresent_stays (hto : binToPresent s z = some b)
    (h : ¬crossable s z (station s z) y v ∨ (station s z).face ≠ none) : tryPresent z s = s := by
  rw [tryPresent, hto]
  dsimp only
  split
  · rename_i hm
    simp only [Bool.and_eq_true, Option.isNone_iff_eq_none] at hm
    have hno := (not_crossable hb hn hv (h.resolve_right (not_not_intro hm.2))).resolve_left (by simp [hm.1])
    rw [if_neg (ne_true_of_eq_false hno)]
  · rfl

theorem tryPresent_begins (hto : binToPresent s z = some b) (hc : crossable s z (station s z) y v)
    (hf : (station s z).face = none) : tryPresent z s = beginCrossing z .present b
      (setVisitState b .presenting (if (binInOpening s z).isSome then s else leaveLane z b s)) := by
  obtain ⟨hmay, hbin⟩ := crossable_may hb hn hv hc
  rw [tryPresent, hmay, hf, hto]
  dsimp only
  rw [hbin]
  rfl

end

theorem binInOpening_of_location (ho : (station s z).openingBin = some b) (hb : bin s b = some y)
    (hl : y.location = .opening z) : binInOpening s z = some b := by
  rw [binInOpening, ho, Option.filter_some, binLocation, hb, Option.map_some, hl]
  simp

theorem binInOpening_none (h : ∀ o x, (station s z).openingBin = some o → bin s o = some x → x.location ≠ .opening z) :
    binInOpening s z = none := by
  rw [binInOpening, Option.filter_eq_none_iff]
  intro o ho hl
  rw [binLocation, beq_iff_eq, Option.map_eq_some_iff] at hl
  obtain ⟨x, hx, hl⟩ := hl
  exact h o x ho hx hl

/-- The bin that stands LANE OPENING is presented. -/
theorem tryPresent_opening (hb : bin s b = some y) (hn : y.openVisit = some n) (hv : visit s n = some v)
    (ho : (station s z).openingBin = some b) (hl : y.location = .opening z) (hc : crossable s z (station s z) y v)
    (hf : (station s z).face = none) : tryPresent z s =
      crossingStarted z b s .present .present (setVisit n { v with state := .presenting } s) := by
  have hin := binInOpening_of_location ho hb hl
  rw [tryPresent_begins hb hn hv (by rw [binToPresent, hin]) hc hf, hin, Option.isSome_some, if_pos rfl,
    setVisitState_of_open hb hn hv]
  exact beginCrossing_started hc.2.2.1 rfl rfl rfl rfl

/-! ### The lane head leaves the queue (R14) -/

/-- What the lane head's leaving changes. -/
theorem leaveLane_spec {rest : List Nat} (hb : bin s b = some y) (hlane : (station s z).lane = b :: rest)
    (hnd : (station s z).lane.Nodup) :
    station (leaveLane z b s) z = { station s z with lane := rest } ∧
    (∀ x : Station, x ≠ z → station (leaveLane z b s) x = station s x) ∧
    bin (leaveLane z b s) b = some { y with location := .opening z } ∧
    (∀ (i x : Nat), rest[i]? = some x →
      bin (leaveLane z b s) x = (bin s x).map fun q => { q with location := .lane z (Fin.ofNat 3 i) }) ∧
    (∀ x : Nat, x ∉ (station s z).lane → bin (leaveLane z b s) x = bin s x) ∧
    { leaveLane z b s with bins := s.bins, stations := s.stations } = s := by
  rw [hlane, List.nodup_cons] at hnd
  obtain ⟨hnotin, hrest⟩ := hnd
  let w := modBin b (fun r => { r with location := .opening z }) (setStation z { station s z with lane := rest } s)
  have hw : leaveLane z b s = placeLane z 0 rest w := by
    rw [leaveLane, hlane]
    rfl
  have hwb (x : Nat) : bin w x = if x = b then (bin s b).map (fun r => { r with location := .opening z }) else bin s x :=
    bin_modBin b x _ _
  have hwkeeps : { w with bins := s.bins } = setStation z { station s z with lane := rest } s :=
    modBin_rest b (fun r => { r with location := .opening z }) (setStation z { station s z with lane := rest } s)
  obtain ⟨hkeeps, hplaced, hothers⟩ := placeLane_spec z rest 0 w hrest
  have hall : { placeLane z 0 rest w with bins := s.bins } = setStation z { station s z with lane := rest } s :=
    (congrArg (fun x : State => { x with bins := s.bins }) hkeeps).trans hwkeeps
  have hst : (placeLane z 0 rest w).stations = (setStation z { station s z with lane := rest } s).stations :=
    (congrArg State.stations hall :)
  rw [hw, hlane]
  refine ⟨?_, fun x hx => ?_, ?_, fun i x hi => ?_, fun x hx => ?_, ?_⟩
  · rw [station_congr hst, station_setStation]
  · rw [station_congr hst, station_setStation_ne hx]
  · rw [hothers b hnotin, hwb, if_pos rfl, hb]
    rfl
  · have hxb : x ≠ b := fun h => hnotin (h ▸ List.mem_of_getElem? hi)
    rw [hplaced i x hi, hwb, if_neg hxb, Nat.zero_add]
  · obtain ⟨hxb, hxr⟩ := not_or.mp (mt List.mem_cons.mpr hx)
    rw [hothers x hxr, hwb, if_neg hxb]
  · exact congrArg (fun x : State => { x with stations := s.stations }) hall

/-- The lane head is presented. -/
theorem tryPresent_lane {rest : List Nat} (hb : bin s b = some y) (hn : y.openVisit = some n) (hv : visit s n = some v)
    (hlane : (station s z).lane = b :: rest) (hnd : (station s z).lane.Nodup) (hin : binInOpening s z = none)
    (hc : crossable s z (station s z) y v) (hf : (station s z).face = none) :
    ∃ u, tryPresent z s = crossingStarted z b s .present .present u ∧ station u z = { station s z with lane := rest } ∧
      (∀ x : Station, x ≠ z → station u x = station s x) ∧ bin u b = some { y with location := .opening z } ∧
      (∀ (i x : Nat), rest[i]? = some x →
        bin u x = (bin s x).map fun q => { q with location := .lane z (Fin.ofNat 3 i) }) ∧
      (∀ x : Nat, x ∉ (station s z).lane → bin u x = bin s x) ∧
      visit u n = some { v with state := .presenting } ∧ (∀ m : Nat, m ≠ n → visit u m = visit s m) ∧
      { u with bins := s.bins, visits := s.visits, stations := s.stations } = s := by
  obtain ⟨hz, hy, hhead, hplaced, hothers, hkeeps⟩ := leaveLane_spec hb hlane hnd
  have hvisits : (leaveLane z b s).visits = s.visits := (congrArg State.visits hkeeps :)
  have hv' : visit (leaveLane z b s) n = some v := (visit_congr hvisits n).trans hv
  have hset : setVisitState b .presenting (leaveLane z b s) =
      setVisit n { v with state := .presenting } (leaveLane z b s) :=
    setVisitState_of_open hhead hn hv' .presenting
  refine ⟨setVisit n { v with state := .presenting } (leaveLane z b s), ?_, hz, hy, hhead, hplaced, hothers,
    visit_setVisit_same .., fun m hm => (visit_setVisit_ne hm _ _).trans (visit_congr hvisits m), ?_⟩
  · have hto : binToPresent s z = some b := by rw [binToPresent, hin, hlane, List.head?_cons]
    rw [tryPresent_begins hb hn hv hto hc hf, hin, Option.isSome_none, if_neg Bool.false_ne_true, hset]
    exact beginCrossing_started hc.2.2.1 (congrArg State.time hkeeps :) (congrArg State.params hkeeps :)
      (congrArg State.sent hkeeps :) rfl
  · exact congrArg (fun x : State => { x with visits := s.visits }) hkeeps

theorem tryWithdraw_no_face (h : (station s z).face = none) : tryWithdraw z s = s := by
  rw [tryWithdraw]
  dsimp only
  rw [h]

theorem tryPresent_no_bin (h : binToPresent s z = none) : tryPresent z s = s := by
  rw [tryPresent, h]
  exact ite_self s

end

end Sys2Proof.Machine

/-! What the states of its cranes and its station let a zone do (R146 to R150). -/

namespace Sys2Proof.Machine

section
variable {s t : State} {z : Station} {a : Aisle} {n : Nat} {v : VisitRec}

/-- A crane's state counts as settled (R146). -/
abbrev CraneState.Settles (c : CraneState) : Prop := c = .parked ∨ c = .faulted ∨ c = .offline

/-! ### The marks of SHUTDOWN (R146) -/

/-- The two cranes of a zone in SHUTDOWN are looked at. -/
def settledCranes (z : Station) (s : State) : State := settleCrane (aisle1 z) (settleCrane (aisle0 z) s)

theorem zone_settleCrane_aisle0 : zone (settleCrane (aisle0 z) s) z = { zone s z with
    settled0 := if aislePresent s (aisle0 z) then (crane s (aisle0 z)).state.isSettled else (zone s z).settled0 } := by
  have h := (settleCrane_spec (aisle0 z) s).2.2.2.2.2
  rw [zoneOf_aisle0] at h
  rw [h]
  simp only [aisle0_even, if_true]
  split <;> rfl

theorem zone_settleCrane_aisle1 : zone (settleCrane (aisle1 z) s) z = { zone s z with
    settled1 := if aislePresent s (aisle1 z) then (crane s (aisle1 z)).state.isSettled else (zone s z).settled1 } := by
  have h := (settleCrane_spec (aisle1 z) s).2.2.2.2.2
  rw [zoneOf_aisle1] at h
  rw [h]
  simp only [aisle1_odd, if_false]
  split <;> rfl

theorem aislePresent_settleCrane (a b : Aisle) (s : State) : aislePresent (settleCrane a s) b = aislePresent s b :=
  aislePresent_of_params (settleCrane_spec a s).2.2.2.1 b

theorem crane_settleCrane_aisle1 : crane (settleCrane (aisle0 z) s) (aisle1 z) = crane s (aisle1 z) :=
  (settleCrane_spec (aisle0 z) s).1 _ (aisle0_ne_aisle1 z)

theorem zone_settledCranes : zone (settledCranes z s) z = { zone s z with
    settled0 := if aislePresent s (aisle0 z) then (crane s (aisle0 z)).state.isSettled else (zone s z).settled0
    settled1 := if aislePresent s (aisle1 z) then (crane s (aisle1 z)).state.isSettled else (zone s z).settled1 } := by
  rw [settledCranes, zone_settleCrane_aisle1, zone_settleCrane_aisle0, aislePresent_settleCrane, crane_settleCrane_aisle1]

theorem link_settledCranes : (settledCranes z s).link = s.link :=
  (settleCrane_spec _ _).2.2.1.trans (settleCrane_spec _ _).2.2.1

theorem params_settledCranes : (settledCranes z s).params = s.params :=
  (settleCrane_spec _ _).2.2.2.1.trans (settleCrane_spec _ _).2.2.2.1

theorem settledMark_aisle0 : settledMark s (aisle0 z) = (zone s z).settled0 := by
  rw [settledMark, if_pos (aisle0_even z), zoneOf_aisle0]

theorem settledMark_aisle1 : settledMark s (aisle1 z) = (zone s z).settled1 := by
  rw [settledMark, if_neg (aisle1_odd z), zoneOf_aisle1]

/-- The two aisles of a zone, as a statement about each. -/
theorem forall_zone_aisles {p : Aisle → Prop} : (∀ a, zoneOf a = z → p a) ↔ p (aisle0 z) ∧ p (aisle1 z) := by
  refine ⟨fun h => ⟨h _ (zoneOf_aisle0 z), h _ (zoneOf_aisle1 z)⟩, fun h a ha => ?_⟩
  rcases (aisle_of_zone a z).mp ha with rfl | rfl
  · exact h.1
  · exact h.2

theorem countsSettled_settledCranes : (zoneAisles z).all (countsSettled (settledCranes z s)) = true ↔
    ∀ a : Aisle, zoneOf a = z → aislePresent s a = true → (crane s a).state.Settles := by
  have h (a : Aisle) (hm : settledMark (settledCranes z s) a =
      if aislePresent s a then (crane s a).state.isSettled else settledMark s a) :
      countsSettled (settledCranes z s) a = true ↔ (aislePresent s a = true → (crane s a).state.Settles) := by
    refine Iff.trans ?_ (imp_congr_right fun _ => isSettled_iff _)
    rw [countsSettled, aislePresent_of_params params_settledCranes, hm]
    cases aislePresent s a <;> simp
  rw [forall_zone_aisles, zoneAisles]
  simp only [List.all_cons, List.all_nil, Bool.and_true, Bool.and_eq_true]
  refine and_congr (h _ ?_) (h _ ?_)
  · rw [settledMark_aisle0, settledMark_aisle0, zone_settledCranes]
  · rw [settledMark_aisle1, settledMark_aisle1, zone_settledCranes]

/-- The crane is newly settled, and the visit is one that it gives FIRE. -/
def newlySettled (s : State) (a : Aisle) (n : Nat) : Prop :=
  aislePresent s a = true ∧ (crane s a).state.isSettled = true ∧ settledMark s a = false ∧ givesFire s (crane s a) n

theorem visit_settledCranes (n : Nat) : Fires (newlySettled s (aisle0 z) n ∨ newlySettled s (aisle1 z) n) (visit s n)
    (visit (settledCranes z s) n) := by
  refine (visit_settleCrane (aisle0 z) s n).trans ((visit_settleCrane (aisle1 z) _ n).iff ?_)
  have hbins : (settleCrane (aisle0 z) s).bins = s.bins := (settleCrane_spec (aisle0 z) s).2.2.2.2.1
  rw [newlySettled, aislePresent_settleCrane, crane_settleCrane_aisle1, settledMark_aisle1, settledMark_aisle1,
    zone_settleCrane_aisle0]
  simp only [givesFire, bin_congr hbins]

/-! ### SHUTDOWN (R146 to R148) -/

theorem zoneProgress_shutdown (h : (zone s z).state = .shutdown) : zoneProgress z s = trySeal z (settledCranes z s) := by
  rw [zoneProgress, h]
  rfl

/-- The zone may be sealed (R147). -/
def sealable (s : State) (z : Station) : Prop :=
  ((zone s z).released = true ∨ stationPresent s z = false) ∧
    ∀ a : Aisle, zoneOf a = z → aislePresent s a = true → (crane s a).state.Settles

theorem trySeal_settledCranes : trySeal z (settledCranes z s) =
    if ((zone s z).released || !stationPresent s z) && (zoneAisles z).all (countsSettled (settledCranes z s)) then
      tryAwait z (enterZoneState z .sealed (settledCranes z s)) else settledCranes z s := by
  have hp : stationPresent (settledCranes z s) z = stationPresent s z := by
    rw [stationPresent, params_settledCranes, stationPresent]
  rw [trySeal, hp, zone_settledCranes]

theorem sealable_iff : (((zone s z).released || !stationPresent s z) &&
    (zoneAisles z).all (countsSettled (settledCranes z s))) = true ↔ sealable s z := by
  rw [Bool.and_eq_true, countsSettled_settledCranes, Bool.or_eq_true, Bool.not_eq_true', sealable]

theorem link_enterZoneState (z : Station) (st : ZoneState) (s : State) :
    (enterZoneState z st s).link.attention.getLsbD (13 + z.val) = true :=
  attention_set (13 + z.val) (by omega) _

theorem tryAwait_seals (z : Station) (s : State) : (zone (tryAwait z (enterZoneState z .sealed s)) z).state =
      (if (zone s z).panelClearSeen then .awaitRestore else .sealed) ∧
    (tryAwait z (enterZoneState z .sealed s)).link.attention.getLsbD (13 + z.val) = true ∧
    (tryAwait z (enterZoneState z .sealed s)).visits = s.visits := by
  unfold tryAwait
  rw [zone_enterZoneState]
  cases hc : (zone s z).panelClearSeen with
  | true =>
    rw [if_pos ⟨rfl, rfl⟩, zone_enterZoneState]
    exact ⟨rfl, link_enterZoneState z _ _, rfl⟩
  | false =>
    rw [if_neg (by simp), zone_enterZoneState]
    exact ⟨rfl, link_enterZoneState z _ _, rfl⟩

theorem visits_trySeal (z : Station) (s : State) : (trySeal z (settledCranes z s)).visits = (settledCranes z s).visits := by
  rw [trySeal_settledCranes]
  split
  · exact (tryAwait_seals z _).2.2
  · rfl

theorem shutdown_seals (h : (zone s z).state = .shutdown) (hs : sealable s z) :
    (zone (zoneProgress z s) z).state = (if (zone s z).panelClearSeen then .awaitRestore else .sealed) ∧
      (zoneProgress z s).link.attention.getLsbD (13 + z.val) = true := by
  have hcut := tryAwait_seals z (settledCranes z s)
  rw [zone_settledCranes] at hcut
  rw [zoneProgress_shutdown h, trySeal_settledCranes, if_pos (sealable_iff.mpr hs)]
  exact ⟨hcut.1, hcut.2.1⟩

theorem shutdown_stays (h : (zone s z).state = .shutdown) (hs : ¬sealable s z) :
    (zone (zoneProgress z s) z).state = .shutdown ∧ (zoneProgress z s).link = s.link := by
  rw [zoneProgress_shutdown h, trySeal_settledCranes, if_neg (mt sealable_iff.mp hs), zone_settledCranes]
  exact ⟨h, link_settledCranes⟩

theorem newlySettled_iff : newlySettled s (aisle0 z) n ∨ newlySettled s (aisle1 z) n ↔
    ∃ a : Aisle, zoneOf a = z ∧ aislePresent s a = true ∧ (crane s a).state.Settles ∧ settledMark s a = false ∧
      givesFire s (crane s a) n := by
  constructor
  · rintro (h | h)
    · exact ⟨_, zoneOf_aisle0 z, h.1, (isSettled_iff _).mp h.2.1, h.2.2⟩
    · exact ⟨_, zoneOf_aisle1 z, h.1, (isSettled_iff _).mp h.2.1, h.2.2⟩
  · rintro ⟨a, ha, hp, hs, h⟩
    rcases (aisle_of_zone a z).mp ha with rfl | rfl
    · exact .inl ⟨hp, (isSettled_iff _).mpr hs, h⟩
    · exact .inr ⟨hp, (isSettled_iff _).mpr hs, h⟩

theorem shutdown_fires (h : (zone s z).state = .shutdown) (n : Nat) :
    Fires (∃ a : Aisle, zoneOf a = z ∧ aislePresent s a = true ∧ (crane s a).state.Settles ∧ settledMark s a = false ∧
      givesFire s (crane s a) n) (visit s n) (visit (zoneProgress z s) n) := by
  rw [zoneProgress_shutdown h, visit_congr (visits_trySeal z s)]
  exact (visit_settledCranes n).iff newlySettled_iff

/-! ### RECOVERY (R150) -/

/-- The two cranes of a zone in RECOVERY are looked at. -/
def recoveredCranes (z : Station) (s : State) : State := recoverCrane (aisle1 z) (recoverCrane (aisle0 z) s)

theorem recoveredCranes_keeps : { recoveredCranes z s with zones := s.zones } = s :=
  (congrArg (fun x : State => { x with zones := s.zones }) (recoverCrane_spec (aisle1 z) (recoverCrane (aisle0 z) s)).1).trans
    (recoverCrane_spec (aisle0 z) s).1

/-- The crane reaches READY at a present aisle. -/
theorem present_ready_iff : (aislePresent s a && (crane s a).state == .ready) = true ↔
    aislePresent s a = true ∧ (crane s a).state = .ready := by
  rw [Bool.and_eq_true, beq_iff_eq]

theorem zone_recoverCrane_aisle0 : zone (recoverCrane (aisle0 z) s) z = { zone s z with
    recovered0 := (zone s z).recovered0 || (aislePresent s (aisle0 z) && (crane s (aisle0 z)).state == .ready) } := by
  have h := (recoverCrane_spec (aisle0 z) s).2
  rw [zoneOf_aisle0] at h
  rw [h]
  simp only [aisle0_even, if_true, ← present_ready_iff]
  cases aislePresent s (aisle0 z) && (crane s (aisle0 z)).state == .ready <;> simp

theorem zone_recoverCrane_aisle1 : zone (recoverCrane (aisle1 z) s) z = { zone s z with
    recovered1 := (zone s z).recovered1 || (aislePresent s (aisle1 z) && (crane s (aisle1 z)).state == .ready) } := by
  have h := (recoverCrane_spec (aisle1 z) s).2
  rw [zoneOf_aisle1] at h
  rw [h]
  simp only [aisle1_odd, if_false, ← present_ready_iff]
  cases aislePresent s (aisle1 z) && (crane s (aisle1 z)).state == .ready <;> simp

theorem zone_recoveredCranes : zone (recoveredCranes z s) z = { zone s z with
    recovered0 := (zone s z).recovered0 || (aislePresent s (aisle0 z) && (crane s (aisle0 z)).state == .ready)
    recovered1 := (zone s z).recovered1 || (aislePresent s (aisle1 z) && (crane s (aisle1 z)).state == .ready) } := by
  have hk := (recoverCrane_spec (aisle0 z) s).1
  have hparams : (recoverCrane (aisle0 z) s).params = s.params := (congrArg State.params hk :)
  have hcranes : (recoverCrane (aisle0 z) s).cranes = s.cranes := (congrArg State.cranes hk :)
  rw [recoveredCranes, zone_recoverCrane_aisle1, zone_recoverCrane_aisle0, aislePresent_of_params hparams,
    crane_congr hcranes]

/-- The zone may leave RECOVERY (R150). -/
def recoverable (s : State) (z : Station) : Prop :=
  ((zone s z).reopenReport ≠ .none ∨ stationPresent s z = false) ∧
    ∀ a : Aisle, zoneOf a = z → aislePresent s a = true → recoveredMark s a = true ∨ (crane s a).state = .ready ∨
      (crane s a).state = .faulted ∨ (crane s a).state = .offline

theorem recoveredMark_aisle0 : recoveredMark s (aisle0 z) = (zone s z).recovered0 := by
  rw [recoveredMark, if_pos (aisle0_even z), zoneOf_aisle0]

theorem recoveredMark_aisle1 : recoveredMark s (aisle1 z) = (zone s z).recovered1 := by
  rw [recoveredMark, if_neg (aisle1_odd z), zoneOf_aisle1]

theorem countsRecovered_recoveredCranes : (zoneAisles z).all (countsRecovered (recoveredCranes z s)) = true ↔
    ∀ a : Aisle, zoneOf a = z → aislePresent s a = true → recoveredMark s a = true ∨ (crane s a).state = .ready ∨
      (crane s a).state = .faulted ∨ (crane s a).state = .offline := by
  have hparams : (recoveredCranes z s).params = s.params := (congrArg State.params recoveredCranes_keeps :)
  have hcranes : (recoveredCranes z s).cranes = s.cranes := (congrArg State.cranes recoveredCranes_keeps :)
  have h (a : Aisle) (hm : recoveredMark (recoveredCranes z s) a =
      (recoveredMark s a || (aislePresent s a && (crane s a).state == .ready))) :
      countsRecovered (recoveredCranes z s) a = true ↔ (aislePresent s a = true → recoveredMark s a = true ∨
        (crane s a).state = .ready ∨ (crane s a).state = .faulted ∨ (crane s a).state = .offline) := by
    rw [countsRecovered, aislePresent_of_params hparams, crane_congr hcranes, hm]
    cases aislePresent s a <;> simp [or_assoc]
  rw [forall_zone_aisles, zoneAisles]
  simp only [List.all_cons, List.all_nil, Bool.and_true, Bool.and_eq_true]
  refine and_congr (h _ ?_) (h _ ?_)
  · rw [recoveredMark_aisle0, recoveredMark_aisle0, zone_recoveredCranes]
  · rw [recoveredMark_aisle1, recoveredMark_aisle1, zone_recoveredCranes]

theorem zoneProgress_recovery (h : (zone s z).state = .recovery) :
    zoneProgress z s = tryReopenZone z (recoveredCranes z s) := by
  rw [zoneProgress, h]
  rfl

theorem recoverable_iff : (((zone (recoveredCranes z s) z).reopenReport != .none ||
    !stationPresent (recoveredCranes z s) z) && (zoneAisles z).all (countsRecovered (recoveredCranes z s))) = true ↔
      recoverable s z := by
  have hp : stationPresent (recoveredCranes z s) z = stationPresent s z := by
    rw [stationPresent, (congrArg State.params recoveredCranes_keeps :), stationPresent]
  rw [Bool.and_eq_true, countsRecovered_recoveredCranes, hp, zone_recoveredCranes, recoverable]
  simp

theorem alertLevel_recoveredCranes : alertLevel (recoveredCranes z s) z = alertLevel s z := by
  have hi : (recoveredCranes z s).inputs = s.inputs := (congrArg State.inputs recoveredCranes_keeps :)
  rw [alertLevel, takenLevel, conditioner_congr hi, zone_recoveredCranes]
  rfl

theorem recovery_stays (h : (zone s z).state = .recovery) (hr : ¬recoverable s z) :
    (zone (zoneProgress z s) z).state = .recovery ∧ (zoneProgress z s).link = s.link ∧
      (zoneProgress z s).visits = s.visits := by
  rw [zoneProgress_recovery h, tryReopenZone, if_neg (mt recoverable_iff.mp hr), zone_recoveredCranes]
  exact ⟨h, (congrArg State.link recoveredCranes_keeps :), (congrArg State.visits recoveredCranes_keeps :)⟩

/-- The zone has left RECOVERY, its visits not yet free of FIRE. -/
def recoveryLeft (z : Station) (s : State) : State :=
  enterZoneState z (if alertLevel s z then .alert else .clear) (recoveredCranes z s)

theorem zoneProgress_recoverable (h : (zone s z).state = .recovery) (hr : recoverable s z) :
    zoneProgress z s = liftHoldWhere .fire (fun _ v => ofZone (recoveredCranes z s) z v) (recoveryLeft z s) := by
  rw [zoneProgress_recovery h, tryReopenZone, if_pos (recoverable_iff.mpr hr), alertLevel_recoveredCranes]
  rfl

theorem recovery_ends (h : (zone s z).state = .recovery) (hr : recoverable s z) :
    (zone (zoneProgress z s) z).state = (if alertLevel s z then .alert else .clear) ∧
      (zoneProgress z s).link.attention.getLsbD (13 + z.val) = true := by
  rw [zoneProgress_recoverable h hr]
  refine ⟨?_, link_enterZoneState z _ _⟩
  show (zone (recoveryLeft z s) z).state = _
  rw [recoveryLeft, zone_enterZoneState]

theorem recovery_lifts (h : (zone s z).state = .recovery) (hr : recoverable s z) (hv : visit s n = some v)
    (ho : v.outcome = none) (hz : (binAisle s v.bin).map zoneOf = some z) :
    ∃ w, visit (zoneProgress z s) n = some w ∧ w = { v with state := w.state, hold := { v.hold with fire := false } } ∧
      (v.hold.fire = false ∨ w.hold ≠ HoldSet.none → w.state = v.state) ∧
      (v.hold.fire = true → w.hold = HoldSet.none → w.state = matchState v.state (binLocation s v.bin)) := by
  have hvisits : (recoveryLeft z s).visits = s.visits := (congrArg State.visits recoveredCranes_keeps :)
  have hbins : (recoveryLeft z s).bins = s.bins := (congrArg State.bins recoveredCranes_keeps :)
  have hb : binAisle (recoveryLeft z s) = binAisle s := by
    funext b
    rw [binAisle, bin_congr hbins, binAisle]
  have hl : binLocation (recoveryLeft z s) v.bin = binLocation s v.bin := by
    rw [binLocation, bin_congr hbins, binLocation]
  have hlift := liftHold_fire z (recoveryLeft z s) n v ((visit_congr hvisits n).trans hv) ho (hb ▸ hz)
  rw [hl] at hlift
  rw [zoneProgress_recoverable h hr]
  exact hlift

/-! ### The other states (R148) -/

theorem zoneProgress_sealed (h : (zone s z).state = .sealed) : zoneProgress z s = if (zone s z).panelClearSeen
    then setAttention (13 + z.val) (setZone z { zone s z with state := .awaitRestore } s) else s := by
  rw [zoneProgress, h]
  dsimp only
  rw [tryAwait]
  by_cases hc : (zone s z).panelClearSeen = true
  · rw [if_pos ⟨h, hc⟩, if_pos hc]
    rfl
  · rw [if_neg (fun hw => hc hw.2), if_neg hc]

theorem zoneProgress_idle (h : (zone s z).state = .clear ∨ (zone s z).state = .alert ∨ (zone s z).state = .awaitRestore) :
    zoneProgress z s = s := by
  rw [zoneProgress]
  rcases h with h | h | h <;> rw [h]

end

end Sys2Proof.Machine

/-! The choice of a free crane (R82 to R86). -/

namespace Sys2Proof.Machine

section
variable {s u : State} {a : Aisle} {b n : Nat} {c d : Candidate} {cs : List Candidate}

/-- A grant that is still held is returned when no leg needs it (R84). -/
def grantKept (a : Aisle) (cs : List Candidate) (u : State) : State :=
  if (aisleRec u a).grant = true ∧ ∀ c ∈ cs, c.needsPlace = false then returnGrant a u else u

theorem grantKept_needed (hc : c ∈ cs) (hn : c.needsPlace = true) (u : State) : grantKept a cs u = u :=
  if_neg fun h => ne_true_of_eq_false (h.2 c hc) hn

theorem choose_not (h : isFree s a = false ∨ service s a ≠ .inService) : choose a s = s := by
  rw [choose, if_neg]
  rw [Bool.and_eq_true, beq_iff_eq]
  rintro ⟨hf, hs⟩
  exact h.elim (fun h => ne_true_of_eq_false h hf) fun h => h hs

theorem choose_eq (hf : isFree s a = true) (hs : service s a = .inService) :
    choose a s = grantKept a (candidates s a) (chooseLeg a (candidates s a) s) := by
  have hiff (v : State) : ((aisleRec v a).grant && !(candidates s a).any (·.needsPlace)) = true ↔
      (aisleRec v a).grant = true ∧ ∀ c ∈ candidates s a, c.needsPlace = false := by simp
  rw [choose, hf, hs]
  simp only [beq_self_eq_true, Bool.and_self, if_true]
  rw [grantKept]
  exact if_congr (hiff _) rfl rfl

/-! ### The place of an outbound leg (R83) -/

theorem obtainPlace_granted (h : (aisleRec s a).grant = true) :
    obtainPlace a n s = some (reserve n (setAisle a { aisleRec s a with grant := false } s)) := if_pos h

theorem obtainPlace_free (h : (aisleRec s a).grant = false) (hw : waiting s a = false)
    (hp : 0 < freePlaces (station s (zoneOf a))) : obtainPlace a n s = some (reserve n (takePlace a s)) := by
  rw [obtainPlace, if_neg (ne_true_of_eq_false h), if_neg (ne_true_of_eq_false hw), if_pos hp]

theorem obtainPlace_none (h : (aisleRec s a).grant = false)
    (hp : waiting s a = true ∨ freePlaces (station s (zoneOf a)) = 0) : obtainPlace a n s = none := by
  rw [obtainPlace, if_neg (ne_true_of_eq_false h)]
  split
  · rfl
  · rename_i hw
    rw [hp.resolve_left hw]
    rfl

/-! ### What a choice comes to -/

/-- The leg `c` is chosen: it is handed over at once, with a place, or not while it waits for one. -/
def Chosen (a : Aisle) (s : State) (cs : List Candidate) (c : Candidate) (otherwise : State) : Prop :=
  (c.needsPlace = false → choose a s = grantKept a cs (handLeg a c s)) ∧
  (c.needsPlace = true →
    ((aisleRec s a).grant = true → choose a s =
      handLeg a c (reserve c.number (setAisle a { aisleRec s a with grant := false } s))) ∧
    ((aisleRec s a).grant = false → waiting s a = false → 0 < freePlaces (station s (zoneOf a)) →
      choose a s = handLeg a c (reserve c.number (takePlace a s))) ∧
    ((aisleRec s a).grant = false → waiting s a = true ∨ freePlaces (station s (zoneOf a)) = 0 →
      choose a s = otherwise))

/-- A leg that is chosen by its place. -/
theorem chosen_of {otherwise : State} (hf : isFree s a = true) (hs : service s a = .inService) (hcs : cs = candidates s a)
    (hc : c ∈ cs) (hleg : chooseLeg a cs s =
      if c.needsPlace then
        match obtainPlace a c.number s with
        | some u => handLeg a c u
        | none => otherwise
      else handLeg a c s) : Chosen a s cs c otherwise := by
  have hchoose := choose_eq hf hs
  rw [← hcs, hleg] at hchoose
  refine ⟨fun hn => ?_, fun hn => ?_⟩
  · rw [hchoose, hn, if_neg Bool.false_ne_true]
  · rw [hn, if_pos rfl, grantKept_needed hc hn] at hchoose
    refine ⟨fun hg => ?_, fun hg hw hp => ?_, fun hg hp => ?_⟩
    · rw [hchoose, obtainPlace_granted hg]
    · rw [hchoose, obtainPlace_free hg hw hp]
    · rw [hchoose, obtainPlace_none hg hp]

/-! ### The groups of R82 -/

theorem chooseLeg_carried (hb : (crane s a).carried = some b) : chooseLeg a cs s = chooseCarried a b cs s := by
  rw [chooseLeg, hb]

theorem chooseCarried_none (h : ∀ c ∈ cs, c.continuation = true → c.entry.bin ≠ b) : chooseCarried a b cs s = s := by
  have hfind : cs.find? (fun c => c.continuation && c.entry.bin == b) = none := by
    rw [List.find?_eq_none]
    intro c hc hsel
    rw [Bool.and_eq_true, beq_iff_eq] at hsel
    exact h c hc hsel.1 hsel.2
  rw [chooseCarried, hfind]

theorem chooseCarried_some (hc : c ∈ cs) (hcont : c.continuation = true) (hb : c.entry.bin = b)
    (hu : ∀ d ∈ cs, d.continuation = true → d.entry.bin = b → d = c) : chooseCarried a b cs s =
      if c.needsPlace then
        match obtainPlace a c.number s with
        | some u => handLeg a c u
        | none => setWaiting a true s
      else handLeg a c s := by
  have hfind : cs.find? (fun c => c.continuation && c.entry.bin == b) = some c := by
    refine find_unique hc (by simp [hcont, hb]) fun d hd hsel => ?_
    rw [Bool.and_eq_true, beq_iff_eq] at hsel
    exact hu d hd hsel.1 hsel.2
  rw [chooseCarried, hfind] <;> rfl

theorem chooseLeg_inbound (hn : (crane s a).carried = none) (hc : c ∈ cs) (hk : c.kind = .inbound)
    (hcont : c.continuation = false) (hu : ∀ d ∈ cs, d.kind = .inbound → d.continuation = false → d = c) :
    chooseLeg a cs s = handLeg a c s := by
  have hfind : cs.find? (fun c => c.kind == .inbound && !c.continuation) = some c := by
    refine find_unique hc (by simp [hk, hcont]) fun d hd hsel => ?_
    rw [Bool.and_eq_true, beq_iff_eq, Bool.not_eq_true'] at hsel
    exact hu d hd hsel.1 hsel.2
  rw [chooseLeg, hn]
  dsimp only
  rw [hfind]

theorem chooseLeg_new (hn : (crane s a).carried = none) (h : ∀ c ∈ cs, c.kind = .inbound → c.continuation = true) :
    chooseLeg a cs s = chooseNew a (cs.filter fun c => !c.continuation) s := by
  have hfind : cs.find? (fun c => c.kind == .inbound && !c.continuation) = none := by
    rw [List.find?_eq_none]
    intro c hc hsel
    rw [Bool.and_eq_true, beq_iff_eq, Bool.not_eq_true'] at hsel
    exact ne_true_of_eq_false hsel.2 (h c hc hsel.1)
  rw [chooseLeg, hn]
  dsimp only
  rw [hfind]

theorem chooseNew_none (h : firstRanked s a cs = none) : chooseNew a cs s = s := by
  rw [chooseNew, h]

theorem chooseNew_some (h : firstRanked s a cs = some c) : chooseNew a cs s =
    if c.needsPlace then
      match obtainPlace a c.number s with
      | some u => handLeg a c u
      | none => match firstRanked s a (cs.filter fun d => !d.needsPlace) with
        | some d => handLeg a d (setWaiting a true s)
        | none => setWaiting a true s
    else handLeg a c s := by
  rw [chooseNew, h] <;> rfl

end

end Sys2Proof.Machine

/-! The choice, the crossings and the zone's progress as R81 to R86, R123, R124 and R146 to R150 give them, and what an event
sets off, put together (O11). -/

namespace Sys2Proof.Machine

section
variable {s : State} {z : Station} {a : Aisle} {b n : Nat} {c : Candidate} {cs : List Candidate}

/-! ### Events of a crane -/

theorem exec_craneEvent {e : Instr} {f : State → State} (h : exec e s = .next (craneEvent a f s))
    (hr : inReset s = false) : exec e s = .next (settleZone s (zoneOf a) (f s)) := by
  rw [h, craneEvent, outsideReset_of_not _ hr]
  rfl

/-! ### Closes that waited (R129) -/

theorem carryClose_spelled (z : Station) (s w : State) (r : StationRec) (hr : r = station s z)
    (hw : w = setZone z { zone s z with released := true, holdTimer := none } (setStation z { r with
      holdOpen := false, shutter := .closing, travelTimer := some (1000 * param s 32), reopenOrdered := false
      reopenCommand := false } s)) :
    (stationPresent s z = false ∨ r.closeOrder = false → carryClose z s = s) ∧
    (stationPresent s z = true → r.closeOrder = true →
      (r.shutter = .open → r.crossing = none → r.beam = false → carryClose z s = w) ∧
      (r.shutter = .open → r.crossing ≠ none ∨ r.beam = true → carryClose z s = s) ∧
      (r.shutter = .opening → carryClose z s = w) ∧
      (r.shutter = .closing ∨ r.shutter = .closed → carryClose z s =
        if (zone s z).released then s else setZone z { zone s z with released := true, holdTimer := none } s)) := by
  subst hr hw
  exact ⟨carryClose_none, carryClose_standing⟩

/-! ### The zone goes on (R146 to R150) -/

theorem zoneProgress_spelled (z : Station) (s t : State) (ht : t = zoneProgress z s) :
    ((zone s z).state = .clear ∨ (zone s z).state = .alert ∨ (zone s z).state = .awaitRestore → t = s) ∧
    ((zone s z).state = .sealed → t = if (zone s z).panelClearSeen
      then setAttention (13 + z.val) (setZone z { zone s z with state := .awaitRestore } s) else s) ∧
    ((zone s z).state = .shutdown →
      (sealable s z → (zone t z).state = (if (zone s z).panelClearSeen then .awaitRestore else .sealed) ∧
        t.link.attention.getLsbD (13 + z.val) = true) ∧
      (¬sealable s z → (zone t z).state = .shutdown ∧ t.link = s.link) ∧
      ∀ n v, visit s n = some v → v.outcome = none →
        let taken := ∃ a : Aisle, zoneOf a = z ∧ aislePresent s a = true ∧ (crane s a).state.Settles ∧
          settledMark s a = false ∧ givesFire s (crane s a) n
        (taken → visit t n = some { v with hold := { v.hold with fire := true } }) ∧
        (¬taken → visit t n = some v)) ∧
    ((zone s z).state = .recovery →
      (recoverable s z → (zone t z).state = (if alertLevel s z then .alert else .clear) ∧
        t.link.attention.getLsbD (13 + z.val) = true ∧
        ∀ n v, visit s n = some v → v.outcome = none → (binAisle s v.bin).map zoneOf = some z → ∃ w,
          visit t n = some w ∧ w = { v with state := w.state, hold := { v.hold with fire := false } } ∧
          (v.hold.fire = false ∨ w.hold ≠ HoldSet.none → w.state = v.state) ∧
          (v.hold.fire = true → w.hold = HoldSet.none → w.state = matchState v.state (binLocation s v.bin))) ∧
      (¬recoverable s z → (zone t z).state = .recovery ∧ t.link = s.link ∧ t.visits = s.visits)) := by
  subst ht
  refine ⟨zoneProgress_idle, zoneProgress_sealed, fun h => ⟨shutdown_seals h, shutdown_stays h, fun n v hv ho => ?_⟩,
    fun h => ⟨fun hr => ⟨(recovery_ends h hr).1, (recovery_ends h hr).2, fun n v => recovery_lifts h hr⟩,
      recovery_stays h⟩⟩
  obtain ⟨hfire, hkeep⟩ := (shutdown_fires h n).2 v hv
  exact ⟨hfire ho, fun hno => hkeep (.inr hno)⟩

/-! ### Crossings (R14, R123, R124) -/

theorem crossings_spelled (z : Station) (s : State) (r : StationRec) (b n : Nat) (y : BinRec) (v : VisitRec)
    (hr : r = station s z) (hb : bin s b = some y) (hn : y.openVisit = some n) (hv : visit s n = some v) :
    (r.face = some ⟨b, n⟩ →
      (crossable s z r y v → v.state = .withdrawing → r.outbound = none →
        tryWithdraw z s = crossingStarted z b s .withdraw .withdraw s) ∧
      (¬crossable s z r y v ∨ v.state ≠ .withdrawing ∨ r.outbound ≠ none → tryWithdraw z s = s)) ∧
    (r.openingBin = some b → y.location = .opening z →
      (crossable s z r y v → r.face = none →
        tryPresent z s = crossingStarted z b s .present .present (setVisit n { v with state := .presenting } s)) ∧
      (¬crossable s z r y v ∨ r.face ≠ none → tryPresent z s = s)) ∧
    ∀ rest, r.lane = b :: rest → r.lane.Nodup →
      (∀ o x, r.openingBin = some o → bin s o = some x → x.location ≠ .opening z) →
      (¬crossable s z r y v ∨ r.face ≠ none → tryPresent z s = s) ∧
      (crossable s z r y v → r.face = none → ∃ u, tryPresent z s = crossingStarted z b s .present .present u ∧
        station u z = { r with lane := rest } ∧ (∀ x : Station, x ≠ z → station u x = station s x) ∧
        bin u b = some { y with location := .opening z } ∧
        (∀ (i x : Nat), rest[i]? = some x →
          bin u x = (bin s x).map fun q => { q with location := .lane z (Fin.ofNat 3 i) }) ∧
        (∀ x : Nat, x ∉ r.lane → bin u x = bin s x) ∧
        visit u n = some { v with state := .presenting } ∧ (∀ m : Nat, m ≠ n → visit u m = visit s m) ∧
        { u with bins := s.bins, visits := s.visits, stations := s.stations } = s) := by
  subst hr
  refine ⟨fun hf => ⟨tryWithdraw_starts hb hn hv hf, tryWithdraw_stays hb hn hv hf⟩, fun ho hl => ⟨?_, fun h => ?_⟩,
    fun rest hlane hnd hin => ⟨fun h => ?_, ?_⟩⟩
  · exact tryPresent_opening hb hn hv ho hl
  · exact tryPresent_stays hb hn hv (by rw [binToPresent, binInOpening_of_location ho hb hl]) h
  · exact tryPresent_stays hb hn hv (by rw [binToPresent, binInOpening_none hin, hlane, List.head?_cons]) h
  · exact tryPresent_lane hb hn hv hlane hnd (binInOpening_none hin)

theorem crossings_no_bin (z : Station) (s : State) : ((station s z).face = none → tryWithdraw z s = s) ∧
    ((station s z).lane = [] →
      (∀ o x, (station s z).openingBin = some o → bin s o = some x → x.location ≠ .opening z) → tryPresent z s = s) :=
  ⟨tryWithdraw_no_face, fun hl hin => tryPresent_no_bin (by rw [binToPresent, binInOpening_none hin, hl, List.head?_nil])⟩

/-! ### The choice of a free crane (R82 to R86) -/

/-- A crane that carries a bin takes the continuation of its leg, or none. -/
theorem choose_carried (hf : isFree s a = true) (hs : service s a = .inService) (hcs : cs = candidates s a)
    (hb : (crane s a).carried = some b) :
    ((∀ c ∈ cs, c.continuation = true → c.entry.bin ≠ b) → choose a s = grantKept a cs s) ∧
    ∀ c ∈ cs, c.continuation = true → c.entry.bin = b →
      (∀ d ∈ cs, d.continuation = true → d.entry.bin = b → d = c) → Chosen a s cs c (setWaiting a true s) := by
  refine ⟨fun h => ?_, fun c hc hcont hbin hu => chosen_of hf hs hcs hc ?_⟩
  · rw [choose_eq hf hs, ← hcs, chooseLeg_carried hb, chooseCarried_none h]
  · exact (chooseLeg_carried hb).trans (chooseCarried_some hc hcont hbin hu)

/-- The leg that an empty crane takes with no inbound leg to take. -/
theorem choose_ranked (hf : isFree s a = true) (hs : service s a = .inService) (hcs : cs = candidates s a)
    (hn : (crane s a).carried = none) (h : ∀ c ∈ cs, c.kind = .inbound → c.continuation = true) :
    (firstRanked s a (cs.filter fun c => !c.continuation) = none → choose a s = grantKept a cs s) ∧
    ∀ c, firstRanked s a (cs.filter fun c => !c.continuation) = some c →
      Chosen a s cs c (match firstRanked s a ((cs.filter fun c => !c.continuation).filter fun d => !d.needsPlace) with
        | some d => handLeg a d (setWaiting a true s)
        | none => setWaiting a true s) := by
  refine ⟨fun hrank => ?_, fun c hrank => ?_⟩
  · rw [choose_eq hf hs, ← hcs, chooseLeg_new hn h, chooseNew_none hrank]
  · refine chosen_of hf hs hcs (List.mem_of_mem_filter (mem_firstRanked hrank)) ?_
    exact (chooseLeg_new hn h).trans (chooseNew_some hrank)

theorem choose_inbound (hf : isFree s a = true) (hs : service s a = .inService) (hcs : cs = candidates s a)
    (hn : (crane s a).carried = none) (hc : c ∈ cs) (hk : c.kind = .inbound) (hcont : c.continuation = false)
    (hu : ∀ d ∈ cs, d.kind = .inbound → d.continuation = false → d = c) :
    choose a s = grantKept a cs (handLeg a c s) := by
  rw [choose_eq hf hs, ← hcs, chooseLeg_inbound hn hc hk hcont hu]

theorem choose_spelled (a : Aisle) (s : State) (cs : List Candidate) (hcs : cs = candidates s a) :
    (isFree s a = false ∨ service s a ≠ .inService → choose a s = s) ∧
    (isFree s a = true → service s a = .inService →
      (∀ b, (crane s a).carried = some b →
        ((∀ c ∈ cs, c.continuation = true → c.entry.bin ≠ b) → choose a s = grantKept a cs s) ∧
        ∀ c ∈ cs, c.continuation = true → c.entry.bin = b →
          (∀ d ∈ cs, d.continuation = true → d.entry.bin = b → d = c) → Chosen a s cs c (setWaiting a true s)) ∧
      ((crane s a).carried = none →
        (∀ c ∈ cs, c.kind = .inbound → c.continuation = false →
          (∀ d ∈ cs, d.kind = .inbound → d.continuation = false → d = c) →
            choose a s = grantKept a cs (handLeg a c s)) ∧
        ((∀ c ∈ cs, c.kind = .inbound → c.continuation = true) →
          let ranked := cs.filter fun c => !c.continuation
          (firstRanked s a ranked = none → choose a s = grantKept a cs s) ∧
          ∀ c, firstRanked s a ranked = some c →
            Chosen a s cs c (match firstRanked s a (ranked.filter fun d => !d.needsPlace) with
              | some d => handLeg a d (setWaiting a true s)
              | none => setWaiting a true s)))) :=
  ⟨choose_not, fun hf hs => ⟨fun _ => choose_carried hf hs hcs,
    fun hn => ⟨fun _ => choose_inbound hf hs hcs hn, choose_ranked hf hs hcs hn⟩⟩⟩

end

/-- Settles O11. -/
theorem eventsSetOffWhatTheyAllow : Obligations.EventsSetOffWhatTheyAllow := by
  unfold Obligations.EventsSetOffWhatTheyAllow
  refine ⟨fun z before s => ⟨settleZone_settled before z s, rfl⟩, fun _ _ _ => rfl,
    fun a s hr => ⟨exec_craneEvent rfl hr, exec_craneEvent rfl hr, exec_craneEvent rfl hr⟩, carryClose_spelled,
    zoneProgress_spelled, matchState_eq, fun z s => ?_, crossings_spelled, crossings_no_bin, ?_, ?_, ?_, ?_,
    fun _ _ => mem_candidates, ?_, needsPlace_iff, ?_⟩
  · exact ⟨rfl, stationOpen_iff, zoneClosed_iff, liftCrossingResets_shut,
      fun h => ⟨liftCrossingResets_keeps, visit_liftCrossingResets h⟩⟩
  · exact fun a before s => ⟨isFree_iff, choiceDue_iff before⟩
  · exact fun z n due s => ⟨schedule_ends, fun a => schedule_chooses due, fun a => schedule_grants due⟩
  · exact fun a s t => grantArrives_spec t
  · exact fun a s v k continued => eligible_spelled v k continued
  · exact choose_spelled
  · exact fun a c s u hv hu => handLeg_eq c hv u hu

end Sys2Proof.Machine

/-! The blocks after a reset that keeps the retained state, before its orders (R118, R138, R154, R155). -/

namespace Sys2Proof.Machine

section
variable {s t : State} {a : Aisle} {z : Station} {i : FireInput}

theorem zoneClosed_congr (h : t.zones = s.zones) (z : Station) : zoneClosed t z = zoneClosed s z := by
  rw [zoneClosed, zone_congr h, zoneClosed]

/-! ### The records that a reset sets afresh without the directory -/

theorem aisleRec_blocksAfresh (s : State) (a : Aisle) : aisleRec (blocksAfresh s) a = resetAisle (aisleRec s a) :=
  get_vectorMap resetAisle s.aisles a

theorem zone_blocksAfresh (s : State) (z : Station) : zone (blocksAfresh s) z = resetZone (zone s z) :=
  get_vectorMap resetZone s.zones z

theorem conditioner_blocksAfresh (s : State) (i : FireInput) :
    conditioner (blocksAfresh s) i = { conditioner s i with window := none } :=
  get_vectorMap (fun c : Conditioner => { c with window := none }) s.inputs i

theorem zoneClosed_blocksAfresh (s : State) (z : Station) : zoneClosed (blocksAfresh s) z = zoneClosed s z := by
  rw [zoneClosed, zone_blocksAfresh, zoneClosed]
  rfl

/-! ### The records that the directory gives -/

theorem craneAfterReset_congr (hb : t.bins = s.bins) (hc : zoneClosed t (zoneOf a) = zoneClosed s (zoneOf a)) :
    craneAfterReset t a = craneAfterReset s a := by
  rw [craneAfterReset, craneAfterReset, hc, binAt, binAt, hb]

/-- What a station keeps of its record in a reset: its out causes and the levels at its pins (R119, R138). -/
def lastsReset (r : StationRec) : StationRec := { StationRec.reset with
  jammed := r.jammed, reopenFault := r.reopenFault, openLimit := r.openLimit, closedLimit := r.closedLimit, beam := r.beam }

theorem absentStation_eq (s : State) (z : Station) : absentStation s z = { lastsReset (station s z) with
    lane := [(0 : Fin 3), 1, 2].filterMap fun p => binAt s (.lane z p)
    face := faceAfterReset s z
    outbound := binAt s (.outbound z)
    openingBin := openingAfterReset s z } := rfl

section
variable (hb : t.bins = s.bins) (hv : t.visits = s.visits)
include hb

theorem binAt_congr (loc : Location) : binAt t loc = binAt s loc := by rw [binAt, hb, binAt]

theorem faceAfterReset_congr (z : Station) : faceAfterReset t z = faceAfterReset s z := by
  rw [faceAfterReset, binAt_congr hb, faceAfterReset]
  simp only [bin_congr hb]

include hv

theorem openingAfterReset_congr (z : Station) : openingAfterReset t z = openingAfterReset s z := by
  have hstate : faceState t = faceState s := funext fun f => by rw [faceState, visit_congr hv, faceState]
  rw [openingAfterReset_eq, openingAfterReset_eq, binAt_congr hb, faceAfterReset_congr hb, hstate]
  simp only [bin_congr hb]

theorem absentStation_congr (hr : lastsReset (station t z) = lastsReset (station s z)) :
    absentStation t z = absentStation s z := by
  rw [absentStation_eq, absentStation_eq, hr, faceAfterReset_congr hb, openingAfterReset_congr hb hv, binAt_congr hb]
  simp only [binAt_congr hb]

theorem stationAfterReset_congr (hp : t.params = s.params) (hc : zoneClosed t z = zoneClosed s z)
    (hr : lastsReset (station t z) = lastsReset (station s z)) : stationAfterReset t z = stationAfterReset s z := by
  have hstate : faceState t = faceState s := funext fun f => by rw [faceState, visit_congr hv, faceState]
  have htimer : faceTimerAfterReset t z = faceTimerAfterReset s z := by
    rw [faceTimerAfterReset_eq, faceTimerAfterReset_eq, faceAfterReset_congr hb, hstate, param_congr hp]
  rw [stationAfterReset, absentStation_congr hb hv hr, htimer, hc, param_congr hp, stationAfterReset]

end

/-- The record that a reset gives a station at first. -/
def stationReset (s : State) (z : Station) : StationRec :=
  if stationPresent s z then stationAfterReset s z else absentStation s z

theorem stationReset_congr (hb : t.bins = s.bins) (hv : t.visits = s.visits) (hp : t.params = s.params)
    (hc : zoneClosed t z = zoneClosed s z) (hr : lastsReset (station t z) = lastsReset (station s z)) :
    stationReset t z = stationReset s z := by
  rw [stationReset, stationReset, stationAfterReset_congr hb hv hp hc hr, absentStation_congr hb hv hr, stationPresent, hp,
    stationPresent]

theorem lastsReset_stationReset (s : State) (z : Station) : lastsReset (stationReset s z) = lastsReset (station s z) := by
  rw [stationReset]
  split <;> rfl

/-! ### Cranes and stations in turn -/

theorem cranesAfresh_keeps (s : State) : { cranesAfresh s with cranes := s.cranes } = s :=
  keep_foldl (P := fun t => { t with cranes := s.cranes } = s) (f := fun t a => setCrane a (craneAfterReset t a) t)
    (fun _ _ h => h) aisleList rfl

theorem crane_cranesAfresh (s : State) (a : Aisle) : crane (cranesAfresh s) a = craneAfterReset s a := by
  obtain ⟨u, hu, ht⟩ := foldl_turn (i := a) (f := fun a t => setCrane a (craneAfterReset t a) t)
    (P := fun s t => crane t a = crane s a ∧ t.bins = s.bins ∧ t.zones = s.zones) (fun _ => ⟨rfl, rfl, rfl⟩)
    (fun h k => ⟨k.1.trans h.1, k.2.1.trans h.2.1, k.2.2.trans h.2.2⟩)
    (fun b hb t => ⟨crane_setCrane_ne (Ne.symm hb) _ t, rfl, rfl⟩) aisleList (by decide) (mem_aisleList a) s
  rw [cranesAfresh, ht.1, crane_setCrane, craneAfterReset_congr hu.2.1 (zoneClosed_congr hu.2.2 _)]

/-- The stations' records, one after the other. -/
def stationsAfresh (s : State) : State := stationList.foldl (fun t z => resetStation z t) s

theorem stationsAfresh_keeps (s : State) : { stationsAfresh s with stations := s.stations } = s :=
  keep_foldl (P := fun t => { t with stations := s.stations } = s) (f := fun t z => resetStation z t)
    (fun _ _ h => h) stationList rfl

theorem station_stationsAfresh (s : State) (z : Station) : station (stationsAfresh s) z = stationReset s z := by
  obtain ⟨u, ⟨hkeep, hst⟩, -, ht⟩ := foldl_turn (i := z) (f := resetStation)
    (P := fun s t => { t with stations := s.stations } = s ∧ station t z = station s z) (fun _ => ⟨rfl, rfl⟩)
    (fun {s _ _} h k => ⟨(congrArg (fun x : State => { x with stations := s.stations }) k.1).trans h.1, k.2.trans h.2⟩)
    (fun y hy t => ⟨rfl, station_setStation_ne (Ne.symm hy) _ t⟩) stationList (by decide) (mem_stationList z) s
  have hclosed : zoneClosed u z = zoneClosed s z := zoneClosed_congr (congrArg State.zones hkeep :) z
  rw [stationsAfresh, ht, resetStation, station_setStation]
  exact stationReset_congr (congrArg State.bins hkeep :) (congrArg State.visits hkeep :) (congrArg State.params hkeep :)
    hclosed (congrArg lastsReset hst)

/-! ### The blocks together -/

theorem stations_resetBlocks (s : State) :
    { resetBlocks s with stations := s.stations } = cranesAfresh (blocksAfresh s) := by
  have h := stationsAfresh_keeps (cranesAfresh (blocksAfresh s))
  rwa [(congrArg State.stations (cranesAfresh_keeps (blocksAfresh s)) :)] at h

theorem resetBlocks_keeps (s : State) : { resetBlocks s with cranes := s.cranes, stations := s.stations } = blocksAfresh s := by
  rw [← cranesAfresh_keeps (blocksAfresh s), ← stations_resetBlocks]
  rfl

theorem crane_resetBlocks (s : State) (a : Aisle) : crane (resetBlocks s) a = craneAfterReset s a := by
  have h : (resetBlocks s).cranes = (cranesAfresh (blocksAfresh s)).cranes :=
    (congrArg State.cranes (stations_resetBlocks s) :)
  rw [crane_congr h, crane_cranesAfresh]
  exact craneAfterReset_congr rfl (zoneClosed_blocksAfresh s _)

theorem zoneClosed_cranesAfresh (s : State) (z : Station) : zoneClosed (cranesAfresh (blocksAfresh s)) z = zoneClosed s z :=
  (zoneClosed_congr (congrArg State.zones (cranesAfresh_keeps (blocksAfresh s)) :) z).trans (zoneClosed_blocksAfresh s z)

theorem station_resetBlocks (s : State) (z : Station) : station (resetBlocks s) z = stationReset s z := by
  have h := cranesAfresh_keeps (blocksAfresh s)
  rw [resetBlocks_eq]
  refine (station_stationsAfresh _ z).trans ?_
  exact stationReset_congr (congrArg State.bins h :) (congrArg State.visits h :) (congrArg State.params h :)
    (zoneClosed_cranesAfresh s z) (congrArg lastsReset (station_congr (congrArg State.stations h :) z))

theorem conditioner_resetBlocks (s : State) (i : FireInput) :
    conditioner (resetBlocks s) i = { conditioner s i with window := none } := by
  have h : (resetBlocks s).inputs = (blocksAfresh s).inputs := (congrArg State.inputs (resetBlocks_keeps s) :)
  rw [conditioner_congr h, conditioner_blocksAfresh]

/-- The fire-panel inputs of a reset begin their windows (R154). -/
theorem conditioner_inputsAfresh (s : State) (i : FireInput) :
    conditioner (reconcileAll (resetBlocks s)) i = { conditioner s i with
      window := if ((conditioner s i).pinHigh != (s.params.get 33).value.getLsbD i.val) = (conditioner s i).taken then none
        else some (deglitchTime s i) } := by
  have hparams : (resetBlocks s).params = s.params := (congrArg State.params (resetBlocks_keeps s) :)
  have hdeglitch : deglitchTime (resetBlocks s) i = deglitchTime s i := by simp only [deglitchTime, param_congr hparams]
  rw [conditioner_reconcileAll, conditioner_resetBlocks, hparams, hdeglitch, if_pos rfl]

end

end Sys2Proof.Machine

/-! The stations of a reset that keeps the retained state: their orders, and what they send (R138). -/

namespace Sys2Proof.Machine

section
variable {s t u : State} {z : Station} {a : Aisle} {m : FieldMsg}

/-! ### Messages among those sent -/

/-- The message is among those sent from `s` to `t`. -/
def Sends (m : FieldMsg) (s t : State) : Prop := ∃ x, t.sent = s.sent ++ x ∧ m ∈ x

theorem Sends.of_prefix {v : State} (hu : s.sent <+: u.sent) (h : Sends m u v) (ht : v.sent <+: t.sent) : Sends m s t := by
  obtain ⟨x, hx⟩ := hu
  obtain ⟨y, hy, hm⟩ := h
  obtain ⟨w, hw⟩ := ht
  exact ⟨x ++ y ++ w, by rw [← hw, hy, ← hx]; simp only [List.append_assoc], by simp [hm]⟩

theorem Sends.mem {x : List FieldMsg} (h : Sends m s t) (hx : t.sent = s.sent ++ x) : m ∈ x := by
  obtain ⟨y, hy, hm⟩ := h
  rwa [List.append_cancel_left (hx.symm.trans hy)]

/-! ### The blocks, with the inputs' windows -/

/-- The records that a reset has set up before its orders. -/
def blocksReset (s : State) : State := reconcileAll (resetBlocks s)

theorem rest_of_inputs {i : Vector Conditioner 10} (h : { u with inputs := i } = t) :
    u.cranes = t.cranes ∧ u.stations = t.stations := by
  subst h
  exact ⟨rfl, rfl⟩

/-- A change of the inputs alone, after one of the cranes and stations. -/
theorem keeps_inputs {c : Vector CraneRec 8} {d : Vector StationRec 4} (h : { u with inputs := t.inputs } = t)
    (k : { t with cranes := c, stations := d } = s) : { u with cranes := c, stations := d, inputs := s.inputs } = s := by
  subst k
  exact congrArg (fun x : State => { x with cranes := c, stations := d }) h

theorem blocksReset_keeps (s : State) :
    { blocksReset s with cranes := s.cranes, stations := s.stations, inputs := (blocksAfresh s).inputs } = blocksAfresh s :=
  keeps_inputs (reconcileAll_keeps (resetBlocks s)) (resetBlocks_keeps s)

theorem crane_blocksReset (s : State) (a : Aisle) : crane (blocksReset s) a = craneAfterReset s a :=
  (crane_congr (rest_of_inputs (reconcileAll_keeps _)).1 a).trans (crane_resetBlocks s a)

theorem station_blocksReset (s : State) (z : Station) : station (blocksReset s) z = stationReset s z :=
  (station_congr (rest_of_inputs (reconcileAll_keeps _)).2 z).trans (station_resetBlocks s z)

theorem rest_of_blocks {c : Vector CraneRec 8} {d : Vector StationRec 4} {i : Vector Conditioner 10}
    (h : { u with cranes := c, stations := d, inputs := i } = t) :
    u.zones = t.zones ∧ u.bins = t.bins ∧ u.visits = t.visits ∧ u.params = t.params ∧ u.sent = t.sent := by
  subst h
  exact ⟨rfl, rfl, rfl, rfl, rfl⟩

theorem zones_blocksReset (s : State) : (blocksReset s).zones = (blocksAfresh s).zones :=
  (rest_of_blocks (blocksReset_keeps s)).1

theorem bins_blocksReset (s : State) : (blocksReset s).bins = s.bins := (rest_of_blocks (blocksReset_keeps s)).2.1

theorem visits_blocksReset (s : State) : (blocksReset s).visits = s.visits := (rest_of_blocks (blocksReset_keeps s)).2.2.1

theorem params_blocksReset (s : State) : (blocksReset s).params = s.params :=
  (rest_of_blocks (blocksReset_keeps s)).2.2.2.1

theorem sent_blocksReset (s : State) : (blocksReset s).sent = s.sent := (rest_of_blocks (blocksReset_keeps s)).2.2.2.2

theorem zone_blocksReset (s : State) (z : Station) : zone (blocksReset s) z = resetZone (zone s z) := by
  rw [zone_congr (zones_blocksReset s), zone_blocksAfresh]

theorem zoneClosed_of_zone (h : zone t z = resetZone (zone s z)) : zoneClosed t z = zoneClosed s z := by
  rw [zoneClosed, h, zoneClosed]
  rfl

/-! ### A station's start -/

/-- A present station whose record is the one a reset gives it starts as `startedStation` says. -/
theorem startStation_of_reset (hp : stationPresent s z = true) (hr : station s z = stationAfterReset s z) :
    ∃ x, startStation z s = { startedAt s z with sent := s.sent ++ x } ∧
      (if zoneClosed s z then FieldMsg.panel z .locked else .panel z .clear) ∈ x := by
  have hself : resetStation z s = s := by rw [resetStation_present hp, ← hr, setStation_self]
  have h := startStation_eq hp
  rwa [hself] at h

/-- The zone's record once the station of a reset has its orders. -/
def zoneStarted (s : State) (z : Station) : ZoneRec :=
  { resetZone (zone s z) with
    released := stationPresent s z && zoneClosed s z
    reopenReport := if stationPresent s z && decide ((zone s z).state = .recovery) && (station s z).reopenFault
      then .reopenFault else .none }

/-- The turn of a station finds its record as the reset gave it. -/
structure StationTurn (s : State) (z : Station) (u : State) : Prop where
  bins : u.bins = s.bins
  visits : u.visits = s.visits
  params : u.params = s.params
  station : station u z = stationReset s z
  zone : zone u z = resetZone (zone s z)

theorem StationTurn.present (h : StationTurn s z u) : stationPresent u z = stationPresent s z := by
  rw [stationPresent, h.params, stationPresent]

theorem StationTurn.closed (h : StationTurn s z u) : zoneClosed u z = zoneClosed s z := zoneClosed_of_zone h.zone

theorem StationTurn.reset (h : StationTurn s z u) : stationAfterReset u z = stationAfterReset s z :=
  stationAfterReset_congr h.bins h.visits h.params h.closed
    ((congrArg lastsReset h.station).trans (lastsReset_stationReset s z))

theorem StationTurn.reopenFault (h : StationTurn s z u) : (Machine.station u z).reopenFault = (Machine.station s z).reopenFault := by
  have hl := (congrArg lastsReset h.station).trans (lastsReset_stationReset s z)
  exact (congrArg StationRec.reopenFault hl :)

theorem StationTurn.start (h : StationTurn s z u) (hp : stationPresent s z = true) : ∃ x,
    startStation z u = { startedAt u z with sent := u.sent ++ x } ∧
      (if zoneClosed s z then FieldMsg.panel z .locked else .panel z .clear) ∈ x := by
  have hstart := startStation_of_reset (h.present.trans hp)
    (h.station.trans ((if_pos hp).trans h.reset.symm))
  rwa [h.closed] at hstart

theorem StationTurn.startedStation (h : StationTurn s z u) : startedStation u z = startedStation s z := by
  rw [Machine.startedStation, h.reset, opensAtStart, h.closed, h.reopenFault, Machine.startedStation, opensAtStart]

theorem StationTurn.startedZone (h : StationTurn s z u) (hp : stationPresent s z = true) :
    startedZone u z = zoneStarted s z := by
  have hst : (Machine.zone u z).state = (Machine.zone s z).state :=
    (congrArg ZoneRec.state h.zone :)
  rw [Machine.startedZone, h.closed, h.reopenFault, hst, h.zone, zoneStarted, hp]
  simp only [resetZone, Bool.false_or, Bool.true_and, ite_self, Bool.and_eq_true, decide_eq_true_iff]

end

/-! ### The start of all stations -/

/-- The stations of a reset have their orders. -/
def stationsStarted (s : State) : State := startStations (blocksReset s)

theorem stationsStarted_at (s : State) : AtStations (blocksReset s) (stationsStarted s) := atStations_startStations _

theorem bins_atStations {s t : State} (h : AtStations s t) : t.bins = s.bins := (congrArg State.bins h.rest :)

theorem visits_atStations {s t : State} (h : AtStations s t) : t.visits = s.visits := (congrArg State.visits h.rest :)

theorem stationTurn_of (s : State) (z : Station) {u : State} (hu : AtStations (blocksReset s) u)
    (hs : station u z = station (blocksReset s) z) (hz : zone u z = zone (blocksReset s) z) : StationTurn s z u where
  bins := (bins_atStations hu).trans (bins_blocksReset s)
  visits := (visits_atStations hu).trans (visits_blocksReset s)
  params := hu.params.trans (params_blocksReset s)
  station := hs.trans (station_blocksReset s z)
  zone := hz.trans (zone_blocksReset s z)

theorem blocks_stationsStarted (s : State) (z : Station) :
    station (stationsStarted s) z = (if stationPresent s z then startedStation s z else absentStation s z) ∧
    zone (stationsStarted s) z = zoneStarted s z := by
  obtain ⟨u, hu, hs, hz, hstation, hzone⟩ := startStations_turn (blocksReset s) z
  have h := stationTurn_of s z hu hs hz
  rw [stationsStarted, hstation, hzone, h.present]
  cases hp : stationPresent s z with
  | true =>
    obtain ⟨x, hx, -⟩ := h.start hp
    rw [if_pos rfl, if_pos rfl, hx, ← h.startedStation, ← h.startedZone hp]
    exact ⟨station_setStation z _ u, zone_setZone z _ _⟩
  | false =>
    rw [if_neg Bool.false_ne_true, if_neg Bool.false_ne_true, h.station, h.zone, stationReset, hp, zoneStarted, hp]
    exact ⟨rfl, rfl⟩

theorem station_stationsStarted (s : State) (z : Station) :
    station (stationsStarted s) z = if stationPresent s z then startedStation s z else absentStation s z :=
  (blocks_stationsStarted s z).1

theorem zone_stationsStarted (s : State) (z : Station) : zone (stationsStarted s) z = zoneStarted s z :=
  (blocks_stationsStarted s z).2

theorem zoneClosed_stationsStarted (s : State) (z : Station) : zoneClosed (stationsStarted s) z = zoneClosed s z := by
  rw [zoneClosed, zone_stationsStarted, zoneClosed]
  rfl

/-- Every present station is sent LOCKED in a closed zone, and CLEAR elsewhere. -/
theorem stationsStarted_sends (s : State) {z : Station} (hp : stationPresent s z = true) :
    Sends (if zoneClosed s z then .panel z .locked else .panel z .clear) (blocksReset s) (stationsStarted s) := by
  obtain ⟨u, ⟨hu, hs, hz⟩, ht, -, -⟩ := foldl_turn (i := z)
    (f := fun y t => if stationPresent t y then startStation y t else t)
    (P := fun s t => AtStations s t ∧ station t z = station s z ∧ zone t z = zone s z)
    (fun s => ⟨AtStations.refl s, rfl, rfl⟩)
    (fun h k => ⟨h.1.trans k.1, k.2.1.trans h.2.1, k.2.2.trans h.2.2⟩)
    (fun y hy t => have h := atStation_start y t
      ⟨h.toAtStations, h.stations z (Ne.symm hy), h.zones z (Ne.symm hy)⟩)
    stationList (by decide) (mem_stationList z) (blocksReset s)
  have h := stationTurn_of s z hu hs hz
  obtain ⟨x, hx, hm⟩ := h.start hp
  rw [if_pos (h.present.trans hp)] at ht
  exact Sends.of_prefix hu.sent ⟨x, by rw [hx], hm⟩ ht.sent

end Sys2Proof.Machine

/-! The cranes of a reset that keeps the retained state: FIRE for what they carry, STOP and the HOME orders (R112, R118, R155). -/

namespace Sys2Proof.Machine

section
variable {s t u : State} {z : Station} {a : Aisle} {n : Nat}

/-! ### FIRE for the visits of carried bins (R155) -/

/-- FIRE for the open visit of the bin that one crane of a closed zone carries. -/
def holdCarriedBy (a : Aisle) (s : State) : State :=
  match (crane s a).carried with
  | some b => if zoneClosed s (zoneOf a) then holdBinVisit .fire b s else s
  | none => s

/-- A crane of a closed zone carries the bin of the visit. -/
def CarriesClosed (s : State) (a : Aisle) (n : Nat) : Prop :=
  zoneClosed s (zoneOf a) = true ∧ ∃ b r, (crane s a).carried = some b ∧ bin s b = some r ∧ r.openVisit = some n

theorem holdBinVisit_fire_eq (b : Nat) (s : State) :
    holdBinVisit .fire b s = holdSettled { CraneRec.reset with carried := some b } s := rfl

theorem holdCarriedBy_keeps (a : Aisle) (s : State) : { holdCarriedBy a s with visits := s.visits } = s := by
  unfold holdCarriedBy
  split
  · split
    · rw [holdBinVisit_fire_eq]
      exact holdSettled_frame _ s
    · rfl
  · rfl

theorem visit_holdCarriedBy (a : Aisle) (n : Nat) (s : State) :
    Fires (CarriesClosed s a n) (visit s n) (visit (holdCarriedBy a s) n) := by
  unfold holdCarriedBy CarriesClosed
  cases hc : (crane s a).carried with
  | none => exact Fires.refl (by simp) _
  | some b =>
    cases hz : zoneClosed s (zoneOf a) with
    | false => exact Fires.refl (by simp) _
    | true =>
      dsimp only
      rw [if_pos rfl, holdBinVisit_fire_eq]
      exact (visit_holdSettled _ s n).iff (by simp [givesFire, CraneRec.reset])

/-- Visits alone differ. -/
theorem CarriesClosed.congr {v : Table VisitRec} (h : { t with visits := v } = s) : CarriesClosed t a n ↔ CarriesClosed s a n := by
  subst h
  exact Iff.rfl

theorem holdCarried_list (n : Nat) (l : List Aisle) (s : State) :
    { l.foldl (fun t a => holdCarriedBy a t) s with visits := s.visits } = s ∧
      Fires (∃ a ∈ l, CarriesClosed s a n) (visit s n) (visit (l.foldl (fun t a => holdCarriedBy a t) s) n) := by
  induction l generalizing s with
  | nil => exact ⟨rfl, Fires.refl (by simp) _⟩
  | cons a l ih =>
    have hkeep := holdCarriedBy_keeps a s
    obtain ⟨h, hfire⟩ := ih (holdCarriedBy a s)
    refine ⟨(congrArg (fun x : State => { x with visits := s.visits }) h).trans hkeep,
      ((visit_holdCarriedBy a n s).trans hfire).iff ?_⟩
    simp only [CarriesClosed.congr hkeep, List.mem_cons, exists_eq_or_imp]

theorem holdCarried_keeps (s : State) : { holdCarried s with visits := s.visits } = s :=
  (holdCarried_list 0 aisleList s).1

theorem visit_holdCarried (n : Nat) (s : State) :
    Fires (∃ a, CarriesClosed s a n) (visit s n) (visit (holdCarried s) n) :=
  (holdCarried_list n aisleList s).2.iff (by simp [mem_aisleList])

/-! ### STOP (R118) -/

theorem stopCranes_keeps (s : State) : { stopCranes s with sent := s.sent } = s :=
  keep_foldl (P := fun t => { t with sent := s.sent } = s)
    (f := fun t a => if aislePresent t a then sendDrive a .stop t else t)
    (fun t a h => by split <;> exact h) aisleList rfl

/-- One crane's STOP. -/
theorem stopCranes_step (a : Aisle) (t : State) : t.sent <+: (if aislePresent t a then sendDrive a .stop t else t).sent ∧
    (if aislePresent t a then sendDrive a .stop t else t).params = t.params := by
  split
  · exact ⟨List.prefix_append _ _, rfl⟩
  · exact ⟨List.prefix_refl _, rfl⟩

theorem sent_stopCranes (s : State) : s.sent <+: (stopCranes s).sent :=
  keep_foldl (P := fun t => s.sent <+: t.sent) (f := fun t a => if aislePresent t a then sendDrive a .stop t else t)
    (fun t a h => h.trans (stopCranes_step a t).1) aisleList (List.prefix_refl _)

theorem stopCranes_sends (s : State) (hp : aislePresent s a = true) : Sends (.drive a .stop) s (stopCranes s) := by
  obtain ⟨u, ⟨hu, hparams⟩, ht, -⟩ := foldl_turn (i := a)
    (f := fun b t => if aislePresent t b then sendDrive b .stop t else t)
    (P := fun s t => s.sent <+: t.sent ∧ t.params = s.params) (fun _ => ⟨List.prefix_refl _, rfl⟩)
    (fun h k => ⟨h.1.trans k.1, k.2.trans h.2⟩) (fun b _ t => stopCranes_step b t) aisleList (by decide)
    (mem_aisleList a) s
  refine Sends.of_prefix hu ⟨[.drive a .stop], ?_, List.mem_singleton.mpr rfl⟩ ht
  rw [if_pos ((aislePresent_of_params hparams a).trans hp)]
  rfl

/-! ### HOME orders (R112, R155) -/

/-- Every crane has no leg, and is OFFLINE with its supply OK, or HOMING. -/
def Restful (s : State) : Prop := ∀ a, ((crane s a).state = .offline ∧ (crane s a).supply = .ok ∨
  (crane s a).state = .homing) ∧ (crane s a).leg = none ∧ (crane s a).dropped = none

/-- What HOME orders to cranes other than `a` do where every crane is at rest. -/
structure Homes (a : Aisle) (s t : State) : Prop where
  rest : Restful t
  keeps : { t with cranes := s.cranes, sent := s.sent } = s
  sent : s.sent <+: t.sent
  crane : crane t a = crane s a

theorem homes_refl (h : Restful s) : Homes a s s := ⟨h, rfl, List.prefix_refl _, rfl⟩

theorem homes_trans (h : Restful s → Homes a s t) (k : Restful t → Homes a t u) (hs : Restful s) : Homes a s u where
  rest := (k (h hs).rest).rest
  keeps := (congrArg (fun x : State => { x with cranes := s.cranes, sent := s.sent }) (k (h hs).rest).keeps).trans (h hs).keeps
  sent := (h hs).sent.trans (k (h hs).rest).sent
  crane := (k (h hs).rest).crane.trans (h hs).crane

/-- A HOME order to the crane of an aisle that is in service. -/
def homeAisle (a : Aisle) (s : State) : State :=
  if service s a = .inService ∧ s.mode = .service then homeOrder a s else s

theorem homeCranes_eq (z : Station) (s : State) : homeCranes z s = (zoneAisles z).foldl (fun t a => homeAisle a t) s := rfl

theorem startHome_keeps (a : Aisle) (clear : Bool) (s : State) :
    { startHome a clear s with cranes := s.cranes, sent := s.sent } = s := by
  rw [startHome_eq, issue_eq]
  rfl

theorem crane_startHome_ne {b : Aisle} (h : b ≠ a) (clear : Bool) (s : State) :
    crane (startHome a clear s) b = crane s b := by
  rw [startHome_eq, crane_setCrane_ne h, crane_issue_ne h]

/-- What a HOMING crane's record is at the start (R112). -/
def homedRec (s : State) (c : CraneRec) : CraneRec :=
  { issuedRec s c ⟨.home, 0, param s 4, .mouth, 0⟩ false with
    state := .homing, homingClear := false, parkOrder := false, leg := none, dropped := none, latched := none }

theorem crane_startHome_self (a : Aisle) (s : State) : crane (startHome a false s) a = homedRec s (crane s a) := by
  rw [crane_startHome, crane_issue]
  rfl

theorem restful_startHome (h : Restful s) (a : Aisle) : Restful (startHome a false s) := by
  intro b
  by_cases hb : b = a
  · subst hb
    rw [crane_startHome_self]
    exact ⟨.inr rfl, rfl, rfl⟩
  · rw [crane_startHome_ne hb]
    exact h b

/-- An OFFLINE crane is homed, and a HOMING one goes on. -/
theorem homeOrder_restful (h : Restful s) (a : Aisle) :
    homeOrder a s = if (crane s a).state = .homing then s else startHome a false s := by
  obtain ⟨⟨hoff, hok⟩ | hhoming, -, -⟩ := h a
  · rw [homeOrder_offline hoff, if_pos hok, hoff, if_neg (by decide)]
  · rw [homeOrder_none (.inr (.inl hhoming)), if_pos hhoming]

theorem homeOrder_keeps (h : Restful s) (a : Aisle) :
    { homeOrder a s with cranes := s.cranes, sent := s.sent } = s ∧ s.sent <+: (homeOrder a s).sent := by
  rw [homeOrder_restful h]
  split
  · exact ⟨rfl, List.prefix_refl _⟩
  · rw [sent_startHome, List.append_assoc]
    exact ⟨startHome_keeps a false s, List.prefix_append _ _⟩

theorem restful_homeOrder (h : Restful s) (a : Aisle) : Restful (homeOrder a s) := by
  rw [homeOrder_restful h]
  split
  · exact h
  · exact restful_startHome h a

theorem homes_homeAisle {b : Aisle} (hb : b ≠ a) (s : State) (h : Restful s) : Homes a s (homeAisle b s) := by
  unfold homeAisle
  split
  · refine ⟨restful_homeOrder h b, (homeOrder_keeps h b).1, (homeOrder_keeps h b).2, ?_⟩
    rw [homeOrder_restful h]
    split
    · rfl
    · exact crane_startHome_ne (Ne.symm hb) false s
  · exact homes_refl h

theorem restful_homeAisle (h : Restful s) (a : Aisle) : Restful (homeAisle a s) := by
  unfold homeAisle
  split
  · exact restful_homeOrder h a
  · exact h

/-- HOME orders to the cranes of a zone that is not closed. -/
def homeZone (z : Station) (s : State) : State := if zoneClosed s z then s else homeCranes z s

theorem homeAll_eq (s : State) : homeAll s = stationList.foldl (fun t z => homeZone z t) s := rfl

theorem mem_zoneAisles : a ∈ zoneAisles z ↔ zoneOf a = z := by
  rw [zoneAisles, aisle_of_zone, List.mem_cons, List.mem_singleton]

theorem homes_homeZone (hz : z ≠ zoneOf a) (s : State) (h : Restful s) : Homes a s (homeZone z s) := by
  unfold homeZone
  split
  · exact homes_refl h
  · exact foldl_others (P := fun s t => Restful s → Homes a s t) (f := homeAisle) (i := a) (fun _ => homes_refl)
      homes_trans (fun b hb s => homes_homeAisle hb s) (zoneAisles z)
      (fun hm => hz (mem_zoneAisles.mp hm).symm) s h

theorem nodup_zoneAisles (z : Station) : (zoneAisles z).Nodup := by
  rw [zoneAisles, List.nodup_cons, List.mem_singleton]
  exact ⟨Ne.symm (aisle0_ne_aisle1 z), List.nodup_singleton _⟩

/-- A crane's turn among the HOME orders finds its record as it was, and what it makes of it stays. -/
theorem homeAll_turn (h : Restful s) (a : Aisle) : ∃ u, Homes a s u ∧
    Homes a (if zoneClosed s (zoneOf a) then u else homeAisle a u) (homeAll s) := by
  obtain ⟨v, hv, ht⟩ := foldl_turn (P := fun s t => Restful s → Homes a s t) (f := homeZone) (i := zoneOf a)
    (fun _ => homes_refl) homes_trans (fun y hy s => homes_homeZone hy s) stationList (by decide) (mem_stationList _) s
  have hv := hv h
  have hclosed : zoneClosed v (zoneOf a) = zoneClosed s (zoneOf a) := zoneClosed_congr (congrArg State.zones hv.keeps :) _
  rw [homeAll_eq]
  by_cases hc : zoneClosed s (zoneOf a) = true
  · have hz : homeZone (zoneOf a) v = v := if_pos (hclosed.trans hc)
    rw [hz] at ht
    refine ⟨v, hv, ?_⟩
    rw [if_pos hc]
    exact ht hv.rest
  · obtain ⟨w, hw, hwt⟩ := foldl_turn (P := fun s t => Restful s → Homes a s t) (f := homeAisle) (i := a)
      (fun _ => homes_refl) homes_trans (fun b hb s => homes_homeAisle hb s) (zoneAisles (zoneOf a)) (nodup_zoneAisles _)
      (mem_zoneAisles.mpr rfl) v
    have hz : homeZone (zoneOf a) v = (zoneAisles (zoneOf a)).foldl (fun t a => homeAisle a t) v := by
      rw [homeZone, hclosed, if_neg hc, homeCranes_eq]
    rw [hz] at ht
    have hw := hw hv.rest
    have hturn := homes_trans hwt ht (restful_homeAisle hw.rest a)
    refine ⟨w, homes_trans (fun _ => hv) (fun _ => hw) h, ?_⟩
    rw [if_neg hc]
    exact hturn

/-- The crane of the aisle takes a HOME order (R155). -/
def takesHome (s : State) (a : Aisle) : Bool :=
  aislePresent s a && decide ((aisleRec s a).suspension = .inService) && decide (s.mode = .service) && !zoneClosed s (zoneOf a)

theorem takesHome_iff : takesHome s a = true ↔
    (service s a = .inService ∧ s.mode = .service) ∧ zoneClosed s (zoneOf a) = false := by
  have hservice : service s a = .inService ↔ aislePresent s a = true ∧ (aisleRec s a).suspension = .inService := by
    unfold service
    cases aislePresent s a <;> cases (aisleRec s a).suspension <;> simp
  simp [takesHome, hservice]

theorem takesHome_congr {c : Vector CraneRec 8} {m : List FieldMsg} (h : { t with cranes := c, sent := m } = s) :
    takesHome t a = takesHome s a := by
  subst h
  rfl

theorem homedRec_congr {c : Vector CraneRec 8} {m : List FieldMsg} (h : { t with cranes := c, sent := m } = s) (r : CraneRec) :
    homedRec t r = homedRec s r := by
  subst h
  rfl

/-- The turn of a crane that takes a HOME order, or of one that does not. -/
theorem homeAisle_turn (hu : Homes a s u) : (if zoneClosed s (zoneOf a) then u else homeAisle a u) =
    if takesHome s a then homeOrder a u else u := by
  have hclosed : zoneClosed u (zoneOf a) = zoneClosed s (zoneOf a) := zoneClosed_congr (congrArg State.zones hu.keeps :) _
  have htakes := takesHome_iff (s := u) (a := a)
  rw [takesHome_congr hu.keeps, hclosed] at htakes
  cases hc : zoneClosed s (zoneOf a) with
  | true =>
    have hno : takesHome s a = false := by simp [takesHome, hc]
    rw [hno, if_pos rfl, if_neg Bool.false_ne_true]
  | false =>
    rw [hc, and_iff_left rfl] at htakes
    rw [if_neg Bool.false_ne_true, homeAisle]
    exact if_congr htakes.symm rfl rfl

theorem homeAll_spec (h : Restful s) (a : Aisle) : ∃ u, Homes a s u ∧
    Homes a (if takesHome s a then homeOrder a u else u) (homeAll s) := by
  obtain ⟨u, hu, ht⟩ := homeAll_turn h a
  rw [homeAisle_turn hu] at ht
  exact ⟨u, hu, ht⟩

theorem restful_homeAll (h : Restful s) : Restful (homeAll s) := by
  obtain ⟨u, hu, ht⟩ := homeAll_spec h 0
  exact ht.rest

/-- A crane that is OFFLINE is homed if it takes the order. -/
theorem crane_homeAll (h : Restful s) (hoff : (crane s a).state = .offline) :
    crane (homeAll s) a = if takesHome s a then homedRec s (crane s a) else crane s a := by
  obtain ⟨u, hu, ht⟩ := homeAll_spec h a
  have huoff : (crane u a).state ≠ .homing := by rw [hu.crane, hoff]; decide
  rw [ht.crane]
  split
  · rw [homeOrder_restful hu.rest, if_neg huoff, crane_startHome_self, hu.crane, homedRec_congr hu.keeps]
  · exact hu.crane

theorem homeAll_sends (h : Restful s) (hoff : (crane s a).state = .offline) (ht : takesHome s a = true) :
    Sends (.drive a .home) s (homeAll s) := by
  obtain ⟨u, hu, hall⟩ := homeAll_spec h a
  have huoff : (crane u a).state ≠ .homing := by rw [hu.crane, hoff]; decide
  rw [if_pos ht, homeOrder_restful hu.rest, if_neg huoff] at hall
  refine Sends.of_prefix hu.sent ⟨_, (sent_startHome a false u).trans (List.append_assoc _ _ _), ?_⟩ hall.sent
  exact List.mem_append_right _ (List.mem_singleton.mpr rfl)

theorem homeAll_keeps (h : Restful s) : { homeAll s with cranes := s.cranes, sent := s.sent } = s ∧
    s.sent <+: (homeAll s).sent := by
  obtain ⟨u, hu, ht⟩ := homeAll_spec h 0
  have hturn : { (if takesHome s 0 then homeOrder 0 u else u) with cranes := u.cranes, sent := u.sent } = u ∧
      u.sent <+: (if takesHome s 0 then homeOrder 0 u else u).sent := by
    split
    · exact homeOrder_keeps hu.rest 0
    · exact ⟨rfl, List.prefix_refl _⟩
  refine ⟨?_, (hu.sent.trans hturn.2).trans ht.sent⟩
  exact ((congrArg (fun x : State => { x with cranes := s.cranes, sent := s.sent }) ht.keeps).trans
    (congrArg (fun x : State => { x with cranes := s.cranes, sent := s.sent }) hturn.1)).trans hu.keeps

end

end Sys2Proof.Machine

/-! What a reset sets off: with every crane at rest and every shutter closed, the zones alone go on (R147 to R150, R155). -/

namespace Sys2Proof.Machine

section
variable {s t u : State} {z : Station} {a : Aisle}

theorem setCrane_self (a : Aisle) (s : State) : setCrane a (crane s a) s = s := by
  simp [setCrane, crane, Vector.get_eq_getElem]

theorem clearDropped (h : (crane s a).dropped = none) : setCrane a { crane s a with dropped := none } s = s := by
  rw [← h]
  exact setCrane_self a s

/-! ### A zone that goes on alone -/

/-- From `s` to `t` only zone `z`, the visits and the summary change, and the station's release stands as it did. -/
structure Passes (z : Station) (s t : State) : Prop where
  keeps : { t with zones := s.zones, visits := s.visits, link := s.link } = s
  zones : ∀ y, y ≠ z → zone t y = zone s y
  released : (zone t z).released = (zone s z).released

theorem Passes.refl (z : Station) (s : State) : Passes z s s := ⟨rfl, fun _ _ => rfl, rfl⟩

theorem Passes.trans (h : Passes z s t) (k : Passes z t u) : Passes z s u where
  keeps := (congrArg (fun x : State => { x with zones := s.zones, visits := s.visits, link := s.link }) k.keeps).trans h.keeps
  zones y hy := (k.zones y hy).trans (h.zones y hy)
  released := k.released.trans h.released

theorem passes_setZone {r : ZoneRec} (h : r.released = (zone s z).released) : Passes z s (setZone z r s) :=
  ⟨rfl, fun _ hy => zone_setZone_ne hy r s, by rw [zone_setZone, h]⟩

theorem passes_setAttention (n : Nat) (z : Station) (s : State) : Passes z s (setAttention n s) :=
  ⟨rfl, fun _ _ => rfl, rfl⟩

theorem passes_visits (h : { t with visits := s.visits } = s) : Passes z s t := by
  have hz : t.zones = s.zones := (congrArg State.zones h :)
  exact ⟨congrArg (fun x : State => { x with zones := s.zones, link := s.link }) h, fun _ _ => zone_congr hz _,
    by rw [zone_congr hz]⟩

theorem passes_enterZoneState (z : Station) (st : ZoneState) (s : State) : Passes z s (enterZoneState z st s) :=
  (passes_setZone (r := { zone s z with state := st }) rfl).trans (passes_setAttention _ z _)

theorem passes_setSettledMark (h : zoneOf a = z) (x : Bool) (s : State) : Passes z s (setSettledMark a x s) := by
  subst h
  exact passes_setZone (by split <;> rfl)

theorem passes_setRecoveredMark (h : zoneOf a = z) (s : State) : Passes z s (setRecoveredMark a s) := by
  subst h
  exact passes_setZone (by split <;> rfl)

/-- A crane with no dropped leg is settled without a change of its record. -/
theorem passes_settleCrane (h : zoneOf a = z) (hd : (crane s a).dropped = none) : Passes z s (settleCrane a s) := by
  unfold settleCrane
  dsimp only
  split
  · exact .refl z s
  · split
    · exact passes_setSettledMark h false s
    · split
      · exact .refl z s
      · have hheld := holdSettled_frame (crane s a) (setSettledMark a true s)
        have hcrane : crane (holdSettled (crane s a) (setSettledMark a true s)) a = crane s a :=
          crane_congr (congrArg State.cranes hheld :) a
        rw [clearDropped ((congrArg CraneRec.dropped hcrane).trans hd)]
        exact (passes_setSettledMark h true s).trans (passes_visits hheld)

theorem passes_recoverCrane (h : zoneOf a = z) (s : State) : Passes z s (recoverCrane a s) := by
  unfold recoverCrane
  split
  · exact passes_setRecoveredMark h s
  · exact .refl z s

theorem passes_tryAwait (z : Station) (s : State) : Passes z s (tryAwait z s) := by
  unfold tryAwait
  split
  · exact passes_enterZoneState z _ s
  · exact .refl z s

theorem passes_trySeal (z : Station) (s : State) : Passes z s (trySeal z s) := by
  unfold trySeal
  split
  · exact (passes_enterZoneState z _ s).trans (passes_tryAwait z _)
  · exact .refl z s

theorem passes_tryReopenZone (z : Station) (s : State) : Passes z s (tryReopenZone z s) := by
  unfold tryReopenZone
  split
  · exact (passes_enterZoneState z _ s).trans (passes_visits rfl)
  · exact .refl z s

theorem passes_zoneProgress (h : Restful s) (z : Station) : Passes z s (zoneProgress z s) := by
  unfold zoneProgress
  split
  · have h0 := passes_settleCrane (zoneOf_aisle0 z) (h (aisle0 z)).2.2
    have hd : (crane (settleCrane (aisle0 z) s) (aisle1 z)).dropped = none := by
      rw [crane_settleCrane_aisle1]
      exact (h (aisle1 z)).2.2
    exact (h0.trans (passes_settleCrane (zoneOf_aisle1 z) hd)).trans (passes_trySeal z _)
  · exact ((passes_recoverCrane (zoneOf_aisle0 z) s).trans (passes_recoverCrane (zoneOf_aisle1 z) _)).trans
      (passes_tryReopenZone z _)
  · exact passes_tryAwait z s
  all_goals exact .refl z s

/-! ### Nothing else is set off -/

/-- Every crane is at rest, no shutter is OPEN, no aisle waits for a lane place, and every close order is carried out. -/
structure Dormant (s : State) : Prop where
  cranes : Restful s
  shut : ∀ z, (station s z).shutter ≠ .open
  waiting : ∀ z, (station s z).waiting0 = false ∧ (station s z).waiting1 = false
  closed : ∀ z, stationPresent s z = true → (station s z).closeOrder = true →
    (station s z).shutter = .closing ∧ (zone s z).released = true

theorem Dormant.passes (h : Dormant s) (k : Passes z s t) : Dormant t := by
  have hc : t.cranes = s.cranes := (congrArg State.cranes k.keeps :)
  have hs : t.stations = s.stations := (congrArg State.stations k.keeps :)
  have hp : t.params = s.params := (congrArg State.params k.keeps :)
  refine ⟨fun a => ?_, fun y => ?_, fun y => ?_, fun y hy ho => ?_⟩
  · rw [crane_congr hc]
    exact h.cranes a
  · rw [station_congr hs]
    exact h.shut y
  · rw [station_congr hs]
    exact h.waiting y
  · rw [stationPresent, hp] at hy
    rw [station_congr hs] at ho ⊢
    refine ⟨(h.closed y hy ho).1, ?_⟩
    have hreleased : (zone t y).released = (zone s y).released := by
      by_cases hyz : y = z
      · subst hyz
        exact k.released
      · rw [k.zones y hyz]
    rw [hreleased]
    exact (h.closed y hy ho).2

theorem carryClose_dormant (h : Dormant s) (z : Station) : carryClose z s = s := by
  by_cases hon : stationPresent s z = true ∧ (station s z).closeOrder = true
  · obtain ⟨hshut, hrel⟩ := h.closed z hon.1 hon.2
    rw [(carryClose_standing hon.1 hon.2).2.2.2 (.inl hshut), hrel, if_pos rfl]
  · exact carryClose_none ((not_and_or.mp hon).imp eq_false_of_ne_true eq_false_of_ne_true)

theorem stationOpen_dormant (h : Dormant s) (z : Station) : stationOpen s z = false :=
  eq_false_of_ne_true fun ho => h.shut z (stationOpen_iff.mp ho).2.1

theorem startCrossings_dormant (h : Dormant s) (z : Station) : startCrossings z s = s := by
  have hmay : mayCross s z = false := by simp [mayCross, stationOpen_dormant h]
  have hw : tryWithdraw z s = s := by
    unfold tryWithdraw
    dsimp only
    split
    · rfl
    · rw [hmay, Bool.and_false, Bool.false_and, Bool.false_and, if_neg Bool.false_ne_true]
  rw [startCrossings, hw, tryPresent, hmay, Bool.false_and, if_neg Bool.false_ne_true]

theorem isFree_dormant (h : Dormant s) (a : Aisle) : isFree s a = false := by
  refine eq_false_of_ne_true fun hf => ?_
  obtain ⟨hst, -⟩ := isFree_iff.mp hf
  rcases (h.cranes a).1 with ⟨h, -⟩ | h <;> simp [h] at hst

theorem scheduleZone_dormant (h : Dormant s) (before : State) (z : Station) : scheduleZone before z s = s := by
  have hdue (a : Aisle) : choiceDue before s a = false := eq_false_of_ne_true fun hd =>
    ne_true_of_eq_false (isFree_dormant h a) ((choiceDue_iff before).mp hd).1
  have hgrant : nextGrant s z = none := by
    unfold nextGrant
    dsimp only
    rw [(h.waiting z).1, (h.waiting z).2]
    exact ite_self none
  rw [scheduleZone]
  simp only [hdue, List.filter_cons, List.filter_nil, Bool.false_eq_true, if_false]
  exact schedule_ends hgrant

theorem settleZone_dormant (h : Dormant s) (before : State) (z : Station) : settleZone before z s = zoneProgress z s := by
  have ht := h.passes (passes_zoneProgress h.cranes z)
  rw [settleZone, carryClose_dormant h, liftCrossingResets_shut (stationOpen_dormant ht z), startCrossings_dormant ht,
    scheduleZone_dormant ht]

/-- The zones go on, one after the other. -/
def zonesProgress (s : State) : State := zoneProgress 3 (zoneProgress 2 (zoneProgress 1 (zoneProgress 0 s)))

theorem dormant_zoneProgress (h : Dormant s) (z : Station) : Dormant (zoneProgress z s) :=
  h.passes (passes_zoneProgress h.cranes z)

theorem settleAll_dormant (h : Dormant s) (before : State) : settleAll before s = zonesProgress s := by
  have h0 := dormant_zoneProgress h 0
  have h1 := dormant_zoneProgress h0 1
  have h2 := dormant_zoneProgress h1 2
  calc settleAll before s
      = settleZone before 3 (settleZone before 2 (settleZone before 1 (settleZone before 0 s))) := rfl
    _ = zonesProgress s := by
      rw [settleZone_dormant h, settleZone_dormant h0, settleZone_dormant h1, settleZone_dormant h2, zonesProgress]

end

end Sys2Proof.Machine

/-! The zones' records, and the summary, when the zones alone go on (R147 to R150, R155). -/

namespace Sys2Proof.Machine

section
variable {s t u : State} {z : Station} {a : Aisle} {i : Nat}

/-! ### The zone's record -/

/-- A zone in SHUTDOWN that may be sealed is, and passes on with panel clear seen. -/
theorem zone_sealed (h : (zone s z).state = .shutdown) (hs : sealable s z) : zone (zoneProgress z s) z = { zone s z with
    settled0 := if aislePresent s (aisle0 z) then (crane s (aisle0 z)).state.isSettled else (zone s z).settled0
    settled1 := if aislePresent s (aisle1 z) then (crane s (aisle1 z)).state.isSettled else (zone s z).settled1
    state := if (zone s z).panelClearSeen then .awaitRestore else .sealed } := by
  rw [zoneProgress_shutdown h, trySeal_settledCranes, if_pos (sealable_iff.mpr hs), tryAwait, zone_enterZoneState,
    zone_settledCranes]
  cases hc : (zone s z).panelClearSeen with
  | true => rw [if_pos ⟨rfl, rfl⟩, zone_enterZoneState, zone_enterZoneState, zone_settledCranes, if_pos rfl]
  | false => rw [if_neg (by simp), zone_enterZoneState, zone_settledCranes, if_neg Bool.false_ne_true]

theorem zone_awaits (h : (zone s z).state = .sealed) : zone (zoneProgress z s) z =
    { zone s z with state := if (zone s z).panelClearSeen then .awaitRestore else .sealed } := by
  rw [zoneProgress_sealed h]
  split
  · exact zone_setZone z _ s
  · rw [← h]

theorem zone_reopens (h : (zone s z).state = .recovery) (hr : recoverable s z) :
    zone (zoneProgress z s) z = { zone (recoveredCranes z s) z with state := if alertLevel s z then .alert else .clear } := by
  rw [zoneProgress_recoverable h hr]
  exact zone_enterZoneState z _ _

theorem zone_recovers (h : (zone s z).state = .recovery) (hr : ¬recoverable s z) :
    zone (zoneProgress z s) z = zone (recoveredCranes z s) z := by
  rw [zoneProgress_recovery h, tryReopenZone, if_neg (mt recoverable_iff.mp hr)]

/-- With no crane READY the recovered marks stand. -/
theorem zone_recoveredCranes_restful (h : Restful s) (z : Station) : zone (recoveredCranes z s) z = zone s z := by
  have hnot (a : Aisle) : (aislePresent s a && (crane s a).state == .ready) = false := by
    rcases (h a).1 with ⟨h, -⟩ | h <;> simp [h]
  rw [zone_recoveredCranes, hnot, hnot, Bool.or_false, Bool.or_false]

/-! ### The summary -/

theorem attention_setAttention {n : Nat} (hn : n < 24) (s : State) (i : Nat) :
    (setAttention n s).link.attention.getLsbD i = true ↔ s.link.attention.getLsbD i = true ∨ i = n := by
  have hword : (attentionWord n).getLsbD i = decide (i = n) := by
    rw [attentionWord, BitVec.getLsbD_shiftLeft, BitVec.getLsbD_one]
    by_cases h : i = n
    · subst h
      simp [hn]
    · have : i < n ∨ ¬i - n = 0 := by omega
      rcases this with h' | h' <;> simp [h, h']
  rw [setAttention, BitVec.getLsbD_or, hword, Bool.or_eq_true, decide_eq_true_iff]

theorem attention_enterZoneState (z : Station) (st : ZoneState) (s : State) (i : Nat) :
    (enterZoneState z st s).link.attention.getLsbD i = true ↔ s.link.attention.getLsbD i = true ∨ i = 13 + z.val :=
  attention_setAttention (n := 13 + z.val) (by have := z.isLt; omega) (setZone z { zone s z with state := st } s) i

theorem attention_tryAwait_sealed (z : Station) (s : State) (i : Nat) :
    (tryAwait z (enterZoneState z .sealed s)).link.attention.getLsbD i = true ↔
      s.link.attention.getLsbD i = true ∨ i = 13 + z.val := by
  unfold tryAwait
  split
  · rw [attention_enterZoneState, attention_enterZoneState, or_assoc, or_self]
  · exact attention_enterZoneState z .sealed s i

/-- Where the state changes, the ZONE bit is set besides. -/
theorem attention_changed {p q : Prop} (h : p ↔ q ∨ i = 13 + z.val) {x y : ZoneState} (hxy : x ≠ y) :
    p ↔ q ∨ (i = 13 + z.val ∧ x ≠ y) := by
  rw [h, and_iff_left hxy]

theorem attention_same (hl : t.link = s.link) (h : (zone t z).state = (zone s z).state) :
    t.link.attention.getLsbD i = true ↔ s.link.attention.getLsbD i = true ∨
      (i = 13 + z.val ∧ (zone t z).state ≠ (zone s z).state) := by
  rw [hl, h]
  exact ⟨.inl, fun hb => hb.resolve_right fun hc => hc.2 rfl⟩

/-- A zone sets its bit exactly when its state changes (R152). -/
theorem attention_zoneProgress (s : State) (z : Station) (i : Nat) :
    (zoneProgress z s).link.attention.getLsbD i = true ↔ s.link.attention.getLsbD i = true ∨
      (i = 13 + z.val ∧ (zone (zoneProgress z s) z).state ≠ (zone s z).state) := by
  cases h : (zone s z).state with
  | clear | alert | awaitRestore =>
    rw [← h, zoneProgress_idle (by simp [h])]
    exact attention_same rfl rfl
  | sealed =>
    rw [← h]
    by_cases hc : (zone s z).panelClearSeen = true
    · have hstate : (zone (zoneProgress z s) z).state ≠ (zone s z).state := by
        rw [zone_awaits h, if_pos hc, h]
        exact ZoneState.noConfusion
      refine attention_changed ?_ hstate
      rw [zoneProgress_sealed h, if_pos hc]
      exact attention_enterZoneState z .awaitRestore s i
    · rw [zoneProgress_sealed h, if_neg hc]
      exact attention_same rfl rfl
  | shutdown =>
    rw [← h]
    by_cases hs : sealable s z
    · have hstate : (zone (zoneProgress z s) z).state ≠ (zone s z).state := by
        rw [(shutdown_seals h hs).1, h]
        split <;> decide
      refine attention_changed ?_ hstate
      rw [zoneProgress_shutdown h, trySeal_settledCranes, if_pos (sealable_iff.mpr hs), attention_tryAwait_sealed,
        link_settledCranes]
    · obtain ⟨hst, hl⟩ := shutdown_stays h hs
      exact attention_same hl (hst.trans h.symm)
  | recovery =>
    rw [← h]
    by_cases hr : recoverable s z
    · have hstate : (zone (zoneProgress z s) z).state ≠ (zone s z).state := by
        rw [(recovery_ends h hr).1, h]
        split <;> decide
      refine attention_changed ?_ hstate
      have hl : (recoveredCranes z s).link = s.link := (congrArg State.link recoveredCranes_keeps :)
      rw [zoneProgress_recoverable h hr, ← hl]
      exact attention_enterZoneState z _ (recoveredCranes z s) i
    · obtain ⟨hst, hl, -⟩ := recovery_stays h hr
      exact attention_same hl (hst.trans h.symm)

/-! ### All zones -/

/-- A part of the zones goes on. -/
def progressOf (l : List Station) (s : State) : State := l.foldl (fun t z => zoneProgress z t) s

theorem zonesProgress_eq (s : State) : zonesProgress s = progressOf stationList s := rfl

/-- What the other zones' going on leaves of a zone. -/
structure Others (z : Station) (s t : State) : Prop where
  rest : Restful t
  keeps : { t with zones := s.zones, visits := s.visits, link := s.link } = s
  zone : zone t z = zone s z

theorem others_refl (h : Restful s) : Others z s s := ⟨h, rfl, rfl⟩

theorem others_trans (h : Restful s → Others z s t) (k : Restful t → Others z t u) (hs : Restful s) : Others z s u where
  rest := (k (h hs).rest).rest
  keeps := (congrArg (fun x : State => { x with zones := s.zones, visits := s.visits, link := s.link })
    (k (h hs).rest).keeps).trans (h hs).keeps
  zone := (k (h hs).rest).zone.trans (h hs).zone

theorem Passes.restful (k : Passes z s t) (h : Restful s) : Restful t := by
  have hc : t.cranes = s.cranes := (congrArg State.cranes k.keeps :)
  intro a
  rw [crane_congr hc]
  exact h a

theorem others_zoneProgress {y : Station} (hy : y ≠ z) (s : State) (h : Restful s) : Others z s (zoneProgress y s) :=
  have k := passes_zoneProgress h y
  ⟨k.restful h, k.keeps, k.zones z (Ne.symm hy)⟩

theorem progressOf_others (h : Restful s) {l : List Station} (hz : z ∉ l) : Others z s (progressOf l s) :=
  foldl_others (P := fun s t => Restful s → Others z s t) (f := zoneProgress) (i := z) (fun _ => others_refl) others_trans
    (fun _ hy s => others_zoneProgress hy s) l hz s h

/-- A zone's turn finds its record as it was, and what it makes of it stays. -/
theorem zonesProgress_turn (h : Restful s) (z : Station) : ∃ u, Others z s u ∧ zone (zonesProgress s) z =
    zone (zoneProgress z u) z := by
  obtain ⟨u, hu, ht⟩ := foldl_turn (P := fun s t => Restful s → Others z s t) (f := zoneProgress) (i := z)
    (fun _ => others_refl) others_trans (fun y hy s => others_zoneProgress hy s) stationList (by decide)
    (mem_stationList z) s
  have hrest := (passes_zoneProgress (hu h).rest z).restful (hu h).rest
  exact ⟨u, hu h, (ht hrest).zone⟩

theorem progressOf_keeps (h : Restful s) (l : List Station) :
    { progressOf l s with zones := s.zones, visits := s.visits, link := s.link } = s ∧ Restful (progressOf l s) := by
  induction l generalizing s with
  | nil => exact ⟨rfl, h⟩
  | cons z l ih =>
    have k := passes_zoneProgress h z
    obtain ⟨hkeep, hrest⟩ := ih (k.restful h)
    exact ⟨(congrArg (fun x : State => { x with zones := s.zones, visits := s.visits, link := s.link }) hkeep).trans k.keeps,
      hrest⟩

/-- The ZONE bits of the zones that change state are set, and no other bit. -/
theorem attention_progressOf (h : Restful s) {l : List Station} (hn : l.Nodup) (i : Nat) :
    (progressOf l s).link.attention.getLsbD i = true ↔ s.link.attention.getLsbD i = true ∨
      ∃ z ∈ l, i = 13 + z.val ∧ (zone (progressOf l s) z).state ≠ (zone s z).state := by
  induction l generalizing s with
  | nil => simp [progressOf]
  | cons z l ih =>
    obtain ⟨hz, hl⟩ := List.nodup_cons.mp hn
    have k := passes_zoneProgress h z
    have hself : zone (progressOf (z :: l) s) z = zone (zoneProgress z s) z := (progressOf_others (k.restful h) hz).zone
    refine (ih (k.restful h) hl).trans ?_
    simp only [attention_zoneProgress, or_assoc, List.mem_cons, exists_eq_or_imp, hself]
    refine or_congr_right (or_congr_right (exists_congr fun y => and_congr_right fun hy => ?_))
    have hyz : y ≠ z := fun e => hz (e ▸ hy)
    rw [k.zones y hyz]
    exact Iff.rfl

end

end Sys2Proof.Machine

/-! The visits when the zones alone go on: FIRE is given or lifted, and what stays (R33, R146, R150). -/

namespace Sys2Proof.Machine

section
variable {s t u : State} {z y : Station} {a : Aisle} {n : Nat} {v w : VisitRec} {c : Prop} {x x' x'' : Option VisitRec}

/-! ### FIRE under a condition -/

/-- FIRE may be added to the visit, and only where `c` holds. -/
def FiresIf (c : Prop) (x x' : Option VisitRec) : Prop := ∃ p : Prop, (p → c) ∧ Fires p x x'

theorem FiresIf.refl (c : Prop) (x : Option VisitRec) : FiresIf c x x := ⟨False, False.elim, Fires.refl id x⟩

theorem FiresIf.trans {d : Prop} (h : FiresIf c x x') (k : FiresIf d x' x'') (hdc : d → c) : FiresIf c x x'' := by
  obtain ⟨p, hp, hfires⟩ := h
  obtain ⟨q, hq, hthen⟩ := k
  exact ⟨p ∨ q, fun hpq => hpq.elim hp fun h => hdc (hq h), hfires.trans hthen⟩

theorem FiresIf.mono {d : Prop} (h : FiresIf d x x') (hdc : d → c) : FiresIf c x x' :=
  (FiresIf.refl c x).trans h hdc

/-- The visit goes on as it was, or with FIRE. -/
theorem FiresIf.cases (h : FiresIf c (some v) x') : x' = some v ∨
    (c ∧ x' = some { v with hold := { v.hold with fire := true } }) := by
  obtain ⟨p, hp, hfires⟩ := h
  obtain ⟨hfire, hkeep⟩ := hfires.2 v rfl
  by_cases hcase : v.outcome = none ∧ p
  · exact .inr ⟨hp hcase.2, hfire hcase.1 hcase.2⟩
  · refine .inl (hkeep ?_)
    by_cases ho : v.outcome = none
    · exact .inr fun h => hcase ⟨ho, h⟩
    · exact .inl ho

theorem FiresIf.bin (h : FiresIf c x x') : x'.map (·.bin) = x.map (·.bin) := by
  cases x with
  | none =>
    obtain ⟨p, -, hfires⟩ := h
    rw [hfires.1 rfl]
  | some v => rcases h.cases with rfl | ⟨-, rfl⟩ <;> rfl

/-! ### One zone goes on -/

/-- A crane of a zone in SHUTDOWN carries the bin of the visit. -/
def ShutCarries (s : State) (n : Nat) : Prop := ∃ a b r, (zone s (zoneOf a)).state = .shutdown ∧
  (crane s a).carried = some b ∧ bin s b = some r ∧ r.openVisit = some n

/-- The zone of the visit's bin. -/
def visitZone (s : State) (n : Nat) : Option Station := ((visit s n).map (·.bin)).bind fun b => (binAisle s b).map zoneOf

/-- The zone leaves RECOVERY, and it is that of the visit's bin. -/
def Reopens (s : State) (z : Station) (n : Nat) : Prop :=
  visitZone s n = some z ∧ (zone s z).state = .recovery ∧ recoverable s z

theorem visitZone_of_visit (h : visit s n = some v) : visitZone s n = (binAisle s v.bin).map zoneOf := by
  rw [visitZone, h]
  rfl

/-- A zone that goes on gives the visit FIRE at most, but that a zone which leaves RECOVERY lifts it. -/
theorem fires_zoneProgress (h : Restful s) (hn : ¬Reopens s z n) :
    FiresIf (ShutCarries s n) (visit s n) (visit (zoneProgress z s) n) := by
  cases hst : (zone s z).state with
  | clear | alert | awaitRestore =>
    rw [zoneProgress_idle (by simp [hst])]
    exact .refl _ _
  | sealed =>
    rw [zoneProgress_sealed hst]
    split <;> exact .refl _ _
  | shutdown =>
    refine ⟨_, ?_, shutdown_fires hst n⟩
    rintro ⟨a, rfl, -, -, -, hgives⟩
    obtain ⟨-, hleg, hdropped⟩ := h a
    rcases hgives with ⟨l, hl, -⟩ | ⟨l, hl, -⟩ | ⟨b, r, hb, hr, ho⟩
    · rw [hdropped] at hl
      cases hl
    · rw [hleg] at hl
      cases hl
    · exact ⟨a, b, r, hst, hb, hr, ho⟩
  | recovery =>
    by_cases hr : recoverable s z
    · have hvisits : (recoveryLeft z s).visits = s.visits := (congrArg State.visits recoveredCranes_keeps :)
      have hbins : (recoveredCranes z s).bins = s.bins := (congrArg State.bins recoveredCranes_keeps :)
      rw [zoneProgress_recoverable hst hr, visit_liftHoldWhere, visit_congr hvisits]
      cases hv : visit s n with
      | none => exact .refl _ _
      | some v =>
        have hother : ofZone (recoveredCranes z s) z v = false := by
          refine eq_false_of_ne_true fun hof => hn ⟨?_, hst, hr⟩
          rw [visitZone_of_visit hv]
          simpa [ofZone, binAisle, bin_congr hbins] using hof
        rw [Option.map_some, hother, if_neg (by simp)]
        exact .refl _ _
    · rw [visit_congr (recovery_stays hst hr).2.2]
      exact .refl _ _

/-- No zone enters SHUTDOWN by going on. -/
theorem shutdown_zoneProgress (h : (zone (zoneProgress z s) z).state = .shutdown) : (zone s z).state = .shutdown := by
  cases hst : (zone s z).state with
  | clear | alert | awaitRestore =>
    rw [zoneProgress_idle (by simp [hst]), hst] at h
    cases h
  | sealed =>
    rw [zone_awaits hst] at h
    revert h
    split <;> exact ZoneState.noConfusion
  | shutdown => rfl
  | recovery =>
    by_cases hr : recoverable s z
    · rw [(recovery_ends hst hr).1] at h
      revert h
      split <;> exact ZoneState.noConfusion
    · rw [(recovery_stays hst hr).1] at h
      cases h

theorem shutCarries_zoneProgress (h : Restful s) (z : Station) (hc : ShutCarries (zoneProgress z s) n) : ShutCarries s n := by
  have k := passes_zoneProgress h z
  have hcranes : (zoneProgress z s).cranes = s.cranes := (congrArg State.cranes k.keeps :)
  have hbins : (zoneProgress z s).bins = s.bins := (congrArg State.bins k.keeps :)
  obtain ⟨a, b, r, hst, hb, hr, ho⟩ := hc
  rw [crane_congr hcranes] at hb
  rw [bin_congr hbins] at hr
  refine ⟨a, b, r, ?_, hb, hr, ho⟩
  by_cases hz : zoneOf a = z
  · rw [hz] at hst ⊢
    exact shutdown_zoneProgress hst
  · rwa [k.zones _ hz] at hst

/-! ### The other zones -/

/-- The zones that are not the visit's give it FIRE at most. -/
structure Fired (n : Nat) (s t : State) : Prop where
  shut : ShutCarries t n → ShutCarries s n
  fires : FiresIf (ShutCarries s n) (visit s n) (visit t n)
  zone : visitZone t n = visitZone s n

theorem Fired.refl (n : Nat) (s : State) : Fired n s s := ⟨id, .refl _ _, rfl⟩

theorem Fired.trans (h : Fired n s t) (k : Fired n t u) : Fired n s u :=
  ⟨fun hc => h.shut (k.shut hc), h.fires.trans k.fires h.shut, k.zone.trans h.zone⟩

theorem visitZone_congr (hb : t.bins = s.bins) (hv : (visit t n).map (·.bin) = (visit s n).map (·.bin)) :
    visitZone t n = visitZone s n := by
  rw [visitZone, hv, visitZone]
  simp only [binAisle, bin_congr hb]

theorem fired_zoneProgress (h : Restful s) (hn : ¬Reopens s z n) : Fired n s (zoneProgress z s) := by
  have hfires := fires_zoneProgress h hn
  have hbins : (zoneProgress z s).bins = s.bins := (congrArg State.bins (passes_zoneProgress h z).keeps :)
  exact ⟨shutCarries_zoneProgress h z, hfires, visitZone_congr hbins hfires.bin⟩

/-- A relation of states that are at rest, with a visit whose zone is `z` if it has one. -/
def FiredOthers (z : Station) (n : Nat) (s t : State) : Prop :=
  Restful s → (∀ y, visitZone s n = some y → y = z) → Others z s t ∧ Fired n s t

theorem firedOthers_trans (h : FiredOthers z n s t) (k : FiredOthers z n t u) : FiredOthers z n s u := by
  intro hs hz
  obtain ⟨ho, hf⟩ := h hs hz
  obtain ⟨ko, kf⟩ := k ho.rest fun y hy => hz y (hf.zone ▸ hy)
  exact ⟨others_trans (fun _ => ho) (fun _ => ko) hs, hf.trans kf⟩

theorem firedOthers_zoneProgress (hy : y ≠ z) (n : Nat) (s : State) : FiredOthers z n s (zoneProgress y s) :=
  fun hs hz => ⟨others_zoneProgress hy s hs, fired_zoneProgress hs fun hr => hy (hz y hr.1)⟩

/-- The bin of a visit stays. -/
theorem visitZone_zoneProgress (h : Restful s) (z : Station) (n : Nat) :
    visitZone (zoneProgress z s) n = visitZone s n := by
  have hlasting := (quiet_zoneProgress (z := z) (s := s) Quiet.refl).lasting n
  have hbin (x : Option VisitRec) : x.map (·.bin) = (x.map VisitRec.lasting).map (·.bin) := by cases x <;> rfl
  refine visitZone_congr (congrArg State.bins (passes_zoneProgress h z).keeps :) ?_
  rw [hbin, hlasting, ← hbin]

/-- The turn of the visit's zone: the others give the visit FIRE at most, before it and after it. -/
theorem visit_turn (h : Restful s) (hz : ∀ y, visitZone s n = some y → y = z) : ∃ u, Others z s u ∧ Fired n s u ∧
    zone (zonesProgress s) z = zone (zoneProgress z u) z ∧ Fired n (zoneProgress z u) (zonesProgress s) := by
  obtain ⟨u, hu, ht⟩ := foldl_turn (P := FiredOthers z n) (f := zoneProgress) (i := z)
    (fun s hs _ => ⟨others_refl hs, .refl n s⟩) firedOthers_trans (fun y hy s => firedOthers_zoneProgress hy n s)
    stationList (by decide) (mem_stationList z) s
  obtain ⟨ho, hf⟩ := hu h hz
  have hrest := (passes_zoneProgress ho.rest z).restful ho.rest
  obtain ⟨hto, htf⟩ := ht hrest fun y hy => hz y (by rw [← hf.zone, ← visitZone_zoneProgress ho.rest z n, hy])
  exact ⟨u, ho, hf, hto.zone, htf⟩

/-! ### What comes of a visit -/

theorem recoverable_congr (h : Others z s u) : recoverable u z ↔ recoverable s z := by
  have hp : u.params = s.params := (congrArg State.params h.keeps :)
  have hc : u.cranes = s.cranes := (congrArg State.cranes h.keeps :)
  have hmark (a : Aisle) (ha : zoneOf a = z) : recoveredMark u a = recoveredMark s a := by
    rw [recoveredMark, recoveredMark, ha, h.zone]
  unfold recoverable
  rw [h.zone, stationPresent, hp, stationPresent]
  refine and_congr_right fun _ => forall_congr' fun a => imp_congr_right fun ha => ?_
  rw [aislePresent_of_params hp, crane_congr hc, hmark a ha]

theorem reopens_congr (h : Others z s u) (hf : Fired n s u) : Reopens u z n ↔ Reopens s z n := by
  rw [Reopens, Reopens, hf.zone, h.zone, recoverable_congr h]

/-- Where FIRE is there already it changes nothing. -/
theorem FiresIf.held (h : FiresIf c (some v) x') (hc : c → v.hold.fire = true) : x' = some v := by
  rcases h.cases with h | ⟨hcase, h⟩
  · exact h
  · rw [h, ← hc hcase]

/-- A visit that has FIRE wherever a carried bin gives it stays as it is, but where its zone leaves RECOVERY. -/
theorem visit_stays (h : Restful s) (hv : visit s n = some v) (hheld : ShutCarries s n → v.hold.fire = true)
    (hn : ∀ z, ¬Reopens s z n) : visit (zonesProgress s) n = some v := by
  obtain ⟨u, ho, hf, -, ht⟩ := visit_turn (z := (visitZone s n).getD 0) h fun y hy => by rw [hy, Option.getD_some]
  have hturn := fired_zoneProgress ho.rest (mt (reopens_congr ho hf).mp (hn _))
  have hall := ((hf.trans hturn).trans ht).fires
  rw [hv] at hall
  exact hall.held hheld

/-- FIRE is lifted, and with no reason left the state is matched to the bin (R33, R150). -/
def Lifted (s : State) (v w : VisitRec) : Prop := w = { v with state := w.state, hold := { v.hold with fire := false } } ∧
  (v.hold.fire = false ∨ w.hold ≠ HoldSet.none → w.state = v.state) ∧
  (v.hold.fire = true → w.hold = HoldSet.none → w.state = matchState v.state (binLocation s v.bin))

/-- A visit whose zone leaves RECOVERY. -/
theorem visit_reopens (h : Restful s) (hv : visit s n = some v) (ho : v.outcome = none)
    (hheld : ShutCarries s n → v.hold.fire = true) (hz : Reopens s z n) : ∃ w, Lifted s v w ∧
      (zone (zonesProgress s) z).state ≠ .recovery ∧ FiresIf (ShutCarries s n) (some w) (visit (zonesProgress s) n) := by
  obtain ⟨u, hother, hf, hzone, ht⟩ := visit_turn (z := z) h fun y hy => by rw [hz.1] at hy; exact (Option.some.inj hy).symm
  have hvu : visit u n = some v := by
    have hfires := hf.fires
    rw [hv] at hfires
    exact hfires.held hheld
  obtain ⟨hvz, hst, hr⟩ := (reopens_congr hother hf).mpr hz
  rw [visitZone_of_visit hvu] at hvz
  obtain ⟨w, hw, hlifted⟩ := recovery_lifts hst hr hvu ho hvz
  have hbins : u.bins = s.bins := (congrArg State.bins hother.keeps :)
  have hloc : binLocation u v.bin = binLocation s v.bin := by rw [binLocation, bin_congr hbins, binLocation]
  rw [hloc] at hlifted
  refine ⟨w, hlifted, ?_, ?_⟩
  · rw [hzone, (recovery_ends hst hr).1]
    split <;> exact ZoneState.noConfusion
  · have hfires := ht.fires
    rw [hw] at hfires
    exact hfires.mono fun hc => hf.shut (shutCarries_zoneProgress hother.rest z hc)

end

end Sys2Proof.Machine

/-! The orders of a reset that keeps the retained state, and the state it leaves (R118, R138, R155). -/

namespace Sys2Proof.Machine

section
variable {s t u : State} {z : Station} {a : Aisle} {n : Nat}

/-! ### What the orders leave alone -/

/-- The state without what the orders of a reset change: the blocks' records, the inputs' windows, the visits, the messages
and the link. -/
def steady (s : State) : State := { s with
  cranes := State.reset.cranes, stations := State.reset.stations, zones := State.reset.zones, inputs := State.reset.inputs
  visits := [], sent := [], link := LinkRec.reset }

/-- The records and the settings that the orders leave alone. -/
structure Settings (s t : State) : Prop where
  bins : t.bins = s.bins
  params : t.params = s.params
  aisles : t.aisles = s.aisles
  mode : t.mode = s.mode
  time : t.time = s.time

theorem settings_of_steady (h : steady t = steady s) : Settings s t :=
  ⟨(congrArg State.bins h :), (congrArg State.params h :), (congrArg State.aisles h :), (congrArg State.mode h :),
    (congrArg State.time h :)⟩

theorem steady_of_visits {v : Table VisitRec} (h : { t with visits := v } = s) : steady t = steady s := by
  subst h
  rfl

theorem steady_of_sent {m : List FieldMsg} (h : { t with sent := m } = s) : steady t = steady s := by
  subst h
  rfl

theorem steady_of_cranes {c : Vector CraneRec 8} {m : List FieldMsg} (h : { t with cranes := c, sent := m } = s) :
    steady t = steady s := by
  subst h
  rfl

theorem steady_of_zones {y : Vector ZoneRec 4} {v : Table VisitRec} {l : LinkRec}
    (h : { t with zones := y, visits := v, link := l } = s) : steady t = steady s := by
  subst h
  rfl

theorem steady_of_stations {d : Vector StationRec 4} {y : Vector ZoneRec 4} {m : List FieldMsg}
    (h : { t with stations := d, zones := y, sent := m } = s) : steady t = steady s := by
  subst h
  rfl

theorem steady_of_blocks {c : Vector CraneRec 8} {d : Vector StationRec 4} {i : Vector Conditioner 10}
    (h : { t with cranes := c, stations := d, inputs := i } = s) : steady t = steady s := by
  subst h
  rfl

/-! ### STOP, and what precedes the HOME orders -/

/-- The stations have their orders, the carried bins' visits FIRE, and the cranes STOP. -/
def cranesStopped (s : State) : State := stopCranes (holdCarried (stationsStarted s))

theorem steady_cranesStopped (s : State) : steady (cranesStopped s) = steady (blocksAfresh s) :=
  calc steady (cranesStopped s)
      = steady (holdCarried (stationsStarted s)) := steady_of_sent (stopCranes_keeps _)
    _ = steady (stationsStarted s) := steady_of_visits (holdCarried_keeps _)
    _ = steady (blocksReset s) := steady_of_stations (stationsStarted_at s).rest
    _ = steady (blocksAfresh s) := steady_of_blocks (blocksReset_keeps s)

/-- The parts of the state that some of the orders change. -/
structure Changed (s t : State) : Prop where
  cranes : t.cranes = s.cranes
  stations : t.stations = s.stations
  zones : t.zones = s.zones
  inputs : t.inputs = s.inputs
  link : t.link = s.link

theorem changed_of_visits {v : Table VisitRec} {m : List FieldMsg} (h : { t with visits := v } = s)
    (k : { u with sent := m } = t) : Changed s u ∧ u.visits = t.visits := by
  subst k h
  exact ⟨⟨rfl, rfl, rfl, rfl, rfl⟩, rfl⟩

theorem changed_cranesStopped (s : State) : Changed (stationsStarted s) (cranesStopped s) ∧
    (cranesStopped s).visits = (holdCarried (stationsStarted s)).visits :=
  changed_of_visits (holdCarried_keeps _) (stopCranes_keeps _)

theorem AtStations.cranes (h : AtStations s t) : t.cranes = s.cranes := (congrArg State.cranes h.rest :)

theorem crane_cranesStopped (s : State) (a : Aisle) : crane (cranesStopped s) a = craneAfterReset s a := by
  rw [crane_congr ((changed_cranesStopped s).1.cranes.trans (stationsStarted_at s).cranes), crane_blocksReset]

theorem restful_cranesStopped (s : State) : Restful (cranesStopped s) := by
  intro a
  rw [crane_cranesStopped]
  exact ⟨.inl ⟨rfl, rfl⟩, rfl, rfl⟩

/-! ### The HOME orders -/

/-- The orders of a reset are given. -/
def ordersGiven (s : State) : State := homeAll (cranesStopped s)

theorem restful_ordersGiven (s : State) : Restful (ordersGiven s) := restful_homeAll (restful_cranesStopped s)

theorem steady_ordersGiven (s : State) : steady (ordersGiven s) = steady (blocksAfresh s) :=
  (steady_of_cranes (homeAll_keeps (restful_cranesStopped s)).1).trans (steady_cranesStopped s)

theorem rest_of_cranes {c : Vector CraneRec 8} {m : List FieldMsg} (h : { t with cranes := c, sent := m } = s) :
    t.zones = s.zones ∧ t.stations = s.stations ∧ t.visits = s.visits ∧ t.link = s.link ∧ t.inputs = s.inputs := by
  subst h
  exact ⟨rfl, rfl, rfl, rfl, rfl⟩

/-- What the orders to the cranes leave of the stations' start. -/
theorem blocks_ordersGiven (s : State) : (ordersGiven s).zones = (stationsStarted s).zones ∧
    (ordersGiven s).stations = (stationsStarted s).stations ∧
    (ordersGiven s).visits = (holdCarried (stationsStarted s)).visits ∧
    (ordersGiven s).link = (stationsStarted s).link ∧ (ordersGiven s).inputs = (stationsStarted s).inputs := by
  obtain ⟨hz, hs, hv, hl, hi⟩ := rest_of_cranes (homeAll_keeps (restful_cranesStopped s)).1
  obtain ⟨h, hvisits⟩ := changed_cranesStopped s
  exact ⟨hz.trans h.zones, hs.trans h.stations, hv.trans hvisits, hl.trans h.link, hi.trans h.inputs⟩

theorem station_ordersGiven (s : State) (z : Station) : station (ordersGiven s) z =
    if stationPresent s z then startedStation s z else absentStation s z := by
  rw [station_congr (blocks_ordersGiven s).2.1, station_stationsStarted]

theorem zone_ordersGiven (s : State) (z : Station) : zone (ordersGiven s) z = zoneStarted s z := by
  rw [zone_congr (blocks_ordersGiven s).1, zone_stationsStarted]

theorem resetAisle_inService (r : AisleRec) : (resetAisle r).suspension = .inService ↔ r.suspension = .inService := by
  rw [resetAisle]
  cases r.suspension <;> simp

/-- The blocks and the settings that decide HOME orders are those before the reset. -/
theorem takesHome_cranesStopped (s : State) (a : Aisle) : takesHome (cranesStopped s) a = takesHome s a := by
  have h := settings_of_steady (steady_cranesStopped s)
  have hclosed : zoneClosed (cranesStopped s) (zoneOf a) = zoneClosed s (zoneOf a) :=
    (zoneClosed_congr (changed_cranesStopped s).1.zones _).trans (zoneClosed_stationsStarted s _)
  have hmode : (cranesStopped s).mode = s.mode := h.mode
  have hp : aislePresent (cranesStopped s) a = aislePresent s a := aislePresent_of_params h.params a
  rw [takesHome, takesHome, hclosed, hmode, hp, aisleRec_congr h.aisles, aisleRec_blocksAfresh,
    decide_eq_decide.mpr (resetAisle_inService _)]

/-- The record of a crane that a reset homes. -/
def homedAfterReset (s : State) (a : Aisle) : CraneRec := { CraneRec.reset with
  state := .homing, carried := binAt s (.crane a), segment := some ⟨.home, 0, param s 4, .mouth, 0⟩
  deadline := 1000 * param s 16 }

theorem homedRec_cranesStopped (s : State) (a : Aisle) :
    homedRec (cranesStopped s) (craneAfterReset s a) = homedAfterReset s a := by
  have h := settings_of_steady (steady_cranesStopped s)
  have hparam (n : Fin 41) : param (cranesStopped s) n = param s n := param_congr h.params n
  have htime : (cranesStopped s).time.ms = 0 := congrArg TimebaseRec.ms h.time
  simp only [homedRec, issuedRec, segmentEstimate, segmentDeadline, hparam, htime]
  rfl

theorem crane_ordersGiven (s : State) (a : Aisle) :
    crane (ordersGiven s) a = if takesHome s a then homedAfterReset s a else craneAfterReset s a := by
  have hoff : (crane (cranesStopped s) a).state = .offline := by rw [crane_cranesStopped]; rfl
  rw [ordersGiven, crane_homeAll (restful_cranesStopped s) hoff, crane_cranesStopped, takesHome_cranesStopped,
    homedRec_cranesStopped]

/-! ### Nothing else is set off by the reset -/

theorem dormant_ordersGiven (s : State) : Dormant (ordersGiven s) where
  cranes := restful_ordersGiven s
  shut z := by
    rw [station_ordersGiven]
    split
    · rw [startedStation]
      dsimp only
      split <;> exact Shutter.noConfusion
    · exact Shutter.noConfusion
  waiting z := by
    rw [station_ordersGiven]
    split <;> exact ⟨rfl, rfl⟩
  closed z hp ho := by
    have hparams : (ordersGiven s).params = s.params := (settings_of_steady (steady_ordersGiven s)).params
    rw [stationPresent, hparams] at hp
    have hp : stationPresent s z = true := hp
    rw [station_ordersGiven, if_pos hp] at ho ⊢
    have hclosed : zoneClosed s z = true := ho
    refine ⟨?_, ?_⟩
    · simp [startedStation, opensAtStart, hclosed]
    · rw [zone_ordersGiven, zoneStarted, hp, hclosed]
      rfl

/-- The records after a reset that keeps the retained state, before the blocks are set up. -/
def recordsReset (s : State) : State := resetRecords (resetSettings s)

theorem leaveKept_eq (s : State) : leaveKept s = zonesProgress (ordersGiven (recordsReset s)) :=
  settleAll_dormant (dormant_ordersGiven (recordsReset s)) (ordersGiven (recordsReset s))

end

end Sys2Proof.Machine

/-! The blocks as a reset that keeps the retained state leaves them (R79, R118, R138, R139, R147 to R150, R155). -/

namespace Sys2Proof.Machine

section
variable {s t u : State} {z : Station} {a : Aisle} {n : Nat} {i : FireInput}

/-- The orders of a reset are given, and the zones have gone on. -/
def blocksLeft (s : State) : State := zonesProgress (ordersGiven s)

theorem rest_of_zones {y : Vector ZoneRec 4} {v : Table VisitRec} {l : LinkRec}
    (h : { t with zones := y, visits := v, link := l } = s) :
    t.cranes = s.cranes ∧ t.stations = s.stations ∧ t.inputs = s.inputs ∧ t.sent = s.sent := by
  subst h
  exact ⟨rfl, rfl, rfl, rfl⟩

theorem zonesProgress_keeps (h : Restful s) :
    { zonesProgress s with zones := s.zones, visits := s.visits, link := s.link } = s := by
  rw [zonesProgress_eq]
  exact (progressOf_keeps h stationList).1

theorem rest_blocksLeft (s : State) : (blocksLeft s).cranes = (ordersGiven s).cranes ∧
    (blocksLeft s).stations = (ordersGiven s).stations ∧ (blocksLeft s).inputs = (ordersGiven s).inputs ∧
    (blocksLeft s).sent = (ordersGiven s).sent :=
  rest_of_zones (zonesProgress_keeps (restful_ordersGiven s))

theorem steady_blocksLeft (s : State) : steady (blocksLeft s) = steady (blocksAfresh s) :=
  (steady_of_zones (zonesProgress_keeps (restful_ordersGiven s))).trans (steady_ordersGiven s)

theorem crane_blocksLeft (s : State) (a : Aisle) :
    crane (blocksLeft s) a = if takesHome s a then homedAfterReset s a else craneAfterReset s a := by
  rw [crane_congr (rest_blocksLeft s).1, crane_ordersGiven]

theorem station_blocksLeft (s : State) (z : Station) : station (blocksLeft s) z =
    if stationPresent s z then startedStation s z else absentStation s z := by
  rw [station_congr (rest_blocksLeft s).2.1, station_ordersGiven]

theorem aisleRec_blocksLeft (s : State) (a : Aisle) : aisleRec (blocksLeft s) a = resetAisle (aisleRec s a) := by
  rw [aisleRec_congr (settings_of_steady (steady_blocksLeft s)).aisles, aisleRec_blocksAfresh]

theorem AtStations.inputs (h : AtStations s t) : t.inputs = s.inputs := (congrArg State.inputs h.rest :)

theorem conditioner_ordersGiven (s : State) (i : FireInput) : conditioner (ordersGiven s) i = { conditioner s i with
    window := if ((conditioner s i).pinHigh != (s.params.get 33).value.getLsbD i.val) = (conditioner s i).taken then none
      else some (deglitchTime s i) } := by
  have h : (ordersGiven s).inputs = (blocksReset s).inputs :=
    (blocks_ordersGiven s).2.2.2.2.trans (stationsStarted_at s).inputs
  rw [conditioner_congr h, blocksReset, conditioner_inputsAfresh]

theorem conditioner_blocksLeft (s : State) (i : FireInput) : conditioner (blocksLeft s) i = { conditioner s i with
    window := if ((conditioner s i).pinHigh != (s.params.get 33).value.getLsbD i.val) = (conditioner s i).taken then none
      else some (deglitchTime s i) } := by
  rw [conditioner_congr (rest_blocksLeft s).2.2.1, conditioner_ordersGiven]

/-! ### The zones -/

/-- A zone's turn, once the orders are given. -/
theorem zone_turn (s : State) (z : Station) : ∃ u, Others z (ordersGiven s) u ∧ zone u z = zoneStarted s z ∧
    zone (blocksLeft s) z = zone (zoneProgress z u) z := by
  obtain ⟨u, hu, ht⟩ := zonesProgress_turn (restful_ordersGiven s) z
  exact ⟨u, hu, hu.zone.trans (zone_ordersGiven s z), ht⟩

section
variable (hu : Others z (ordersGiven s) u)
include hu

theorem turn_params : u.params = s.params :=
  (congrArg State.params hu.keeps :).trans (settings_of_steady (steady_ordersGiven s)).params

theorem turn_crane (a : Aisle) : crane u a = if takesHome s a then homedAfterReset s a else craneAfterReset s a := by
  have h : u.cranes = (ordersGiven s).cranes := (congrArg State.cranes hu.keeps :)
  rw [crane_congr h, crane_ordersGiven]

theorem turn_stationPresent : stationPresent u z = stationPresent s z := by
  rw [stationPresent, (turn_params hu), stationPresent]

theorem turn_craneState (a : Aisle) : (crane u a).state = if takesHome s a then .homing else .offline := by
  rw [(turn_crane hu)]
  split <;> rfl

theorem turn_sealable (hz : zone u z = zoneStarted s z) (hc : zoneClosed s z = true) : sealable u z := by
  refine ⟨?_, fun a ha _ => ?_⟩
  · rw [hz, (turn_stationPresent hu), zoneStarted, hc]
    cases stationPresent s z <;> simp
  · have hno : takesHome s a = false := by simp [takesHome, ha, hc]
    rw [(turn_craneState hu), hno]
    exact .inr (.inr rfl)

theorem turn_recoverable_iff (hz : zone u z = zoneStarted s z) (hst : (zone s z).state = .recovery) :
    recoverable u z ↔ (stationPresent s z = false ∨ (station s z).reopenFault = true) ∧
      takesHome s (aisle0 z) = false ∧ takesHome s (aisle1 z) = false := by
  refine and_congr ?_ ?_
  · rw [hz, (turn_stationPresent hu), zoneStarted, hst]
    cases stationPresent s z <;> cases (station s z).reopenFault <;> simp
  · rw [forall_zone_aisles]
    have hmark (a : Aisle) (ha : zoneOf a = z) : recoveredMark u a = false := by
      rw [recoveredMark, ha, hz]
      exact ite_self false
    have h (a : Aisle) (ha : zoneOf a = z) : (aislePresent u a = true → recoveredMark u a = true ∨
        (crane u a).state = .ready ∨ (crane u a).state = .faulted ∨
        (crane u a).state = .offline) ↔ takesHome s a = false := by
      rw [aislePresent_of_params (turn_params hu), hmark a ha, (turn_craneState hu)]
      cases hhome : takesHome s a with
      | false => simp
      | true =>
        have hp : aislePresent s a = true := by
          simp only [takesHome, Bool.and_eq_true] at hhome
          exact hhome.1.1.1
        simp [hp]
    rw [h _ (zoneOf_aisle0 z), h _ (zoneOf_aisle1 z)]

theorem turn_alertLevel (hz : zone u z = zoneStarted s z) : alertLevel u z = alertLevel s z := by
  have hi : u.inputs = (ordersGiven s).inputs := (congrArg State.inputs hu.keeps :)
  rw [alertLevel, takenLevel, conditioner_congr hi, conditioner_ordersGiven, hz]
  rfl

end

theorem zone_open (h : (zone s z).state = .clear ∨ (zone s z).state = .alert) :
    zone (blocksLeft s) z = resetZone (zone s z) := by
  obtain ⟨u, -, hz, ht⟩ := zone_turn s z
  have hst : (zone u z).state = (zone s z).state := by rw [hz]; rfl
  have hclosed : zoneClosed s z = false := by rcases h with h | h <;> rw [zoneClosed, h] <;> rfl
  rw [ht, zoneProgress_idle (by rw [hst]; exact h.imp_right .inl), hz, zoneStarted, hclosed]
  rcases h with h | h <;> simp [h, resetZone]

/-- The record of a closed zone whose station has its orders. -/
theorem zoneStarted_closed (hc : zoneClosed s z = true) :
    zoneStarted s z = { resetZone (zone s z) with released := stationPresent s z } := by
  have hst : (zone s z).state ≠ .recovery := fun h => by
    rw [zoneClosed, h] at hc
    cases hc
  rw [zoneStarted, hc]
  simp [hst, resetZone]

theorem zone_awaiting (h : (zone s z).state = .awaitRestore) :
    zone (blocksLeft s) z = { resetZone (zone s z) with released := stationPresent s z } := by
  obtain ⟨u, -, hz, ht⟩ := zone_turn s z
  have hst : (zone u z).state = .awaitRestore := by rw [hz]; exact h
  have hclosed : zoneClosed s z = true := by rw [zoneClosed, h]; rfl
  rw [ht, zoneProgress_idle (.inr (.inr hst)), hz, zoneStarted_closed hclosed]

theorem zone_seal (h : (zone s z).state = .sealed) : zone (blocksLeft s) z = { resetZone (zone s z) with
    released := stationPresent s z
    state := if (zone s z).panelClearSeen then .awaitRestore else .sealed } := by
  obtain ⟨u, -, hz, ht⟩ := zone_turn s z
  have hst : (zone u z).state = .sealed := by rw [hz]; exact h
  have hclosed : zoneClosed s z = true := by rw [zoneClosed, h]; rfl
  rw [ht, zone_awaits hst, hz, zoneStarted_closed hclosed]
  rfl

theorem zone_shutdown (h : (zone s z).state = .shutdown) : zone (blocksLeft s) z = { resetZone (zone s z) with
    released := stationPresent s z
    state := if (zone s z).panelClearSeen then .awaitRestore else .sealed
    settled0 := aislePresent s (aisle0 z), settled1 := aislePresent s (aisle1 z) } := by
  obtain ⟨u, hu, hz, ht⟩ := zone_turn s z
  have hst : (zone u z).state = .shutdown := by rw [hz]; exact h
  have hclosed : zoneClosed s z = true := by rw [zoneClosed, h]; rfl
  have hsettled (a : Aisle) (ha : zoneOf a = z) :
      (if aislePresent u a then (crane u a).state.isSettled else false) = aislePresent s a := by
    have hno : takesHome s a = false := by simp [takesHome, ha, hclosed]
    rw [aislePresent_of_params (turn_params hu), (turn_craneState hu), hno]
    cases aislePresent s a <;> rfl
  rw [ht, zone_sealed hst (turn_sealable hu hz hclosed), hz, zoneStarted_closed hclosed,
    ← hsettled _ (zoneOf_aisle0 z), ← hsettled _ (zoneOf_aisle1 z)]
  rfl

/-- The zone leaves RECOVERY with the reset. -/
def leavesRecovery (s : State) (z : Station) : Bool :=
  (!stationPresent s z || (station s z).reopenFault) && !takesHome s (aisle0 z) && !takesHome s (aisle1 z)

theorem leavesRecovery_iff : leavesRecovery s z = true ↔
    (stationPresent s z = false ∨ (station s z).reopenFault = true) ∧
      takesHome s (aisle0 z) = false ∧ takesHome s (aisle1 z) = false := by
  simp [leavesRecovery, and_assoc]

theorem zone_recovery (h : (zone s z).state = .recovery) : zone (blocksLeft s) z = { resetZone (zone s z) with
    reopenReport := if stationPresent s z && (station s z).reopenFault then .reopenFault else .none
    state := if leavesRecovery s z then (if alertLevel s z then .alert else .clear) else .recovery } := by
  obtain ⟨u, hu, hz, ht⟩ := zone_turn s z
  have hst : (zone u z).state = .recovery := by rw [hz]; exact h
  have hclosed : zoneClosed s z = false := by rw [zoneClosed, h]; rfl
  have hstarted : zoneStarted s z = { resetZone (zone s z) with
      reopenReport := if stationPresent s z && (station s z).reopenFault then .reopenFault else .none } := by
    rw [zoneStarted, hclosed, h]
    simp [resetZone]
  have hiff := (turn_recoverable_iff hu hz h).trans leavesRecovery_iff.symm
  rw [ht]
  cases hl : leavesRecovery s z with
  | true =>
    rw [zone_reopens hst (hiff.mpr hl), zone_recoveredCranes_restful hu.rest, hz, hstarted, turn_alertLevel hu hz]
    rfl
  | false =>
    rw [zone_recovers hst (mt hiff.mp (ne_true_of_eq_false hl)), zone_recoveredCranes_restful hu.rest, hz, hstarted,
      if_neg Bool.false_ne_true, ← h]
    rfl

/-! ### What is sent -/

theorem sent_of_visits {v : Table VisitRec} (h : { t with visits := v } = s) : t.sent = s.sent := by
  subst h
  rfl

theorem sent_cranesStopped (s : State) : (stationsStarted s).sent <+: (cranesStopped s).sent := by
  have h := sent_stopCranes (holdCarried (stationsStarted s))
  rwa [sent_of_visits (holdCarried_keeps (stationsStarted s))] at h

theorem sent_ordersGiven (s : State) : (cranesStopped s).sent <+: (ordersGiven s).sent :=
  (homeAll_keeps (restful_cranesStopped s)).2

theorem sent_stationsStarted (s : State) : s.sent <+: (stationsStarted s).sent := by
  have h : (blocksReset s).sent <+: (stationsStarted s).sent := (stationsStarted_at s).sent
  rwa [sent_blocksReset] at h

theorem sent_toLeft (s : State) : (ordersGiven s).sent <+: (blocksLeft s).sent := by
  rw [(rest_blocksLeft s).2.2.2]

theorem blocksLeft_stops (s : State) (hp : aislePresent s a = true) : Sends (.drive a .stop) s (blocksLeft s) := by
  have hkeep := holdCarried_keeps (stationsStarted s)
  have hparams : (holdCarried (stationsStarted s)).params = s.params :=
    (settings_of_steady (steady_of_visits hkeep)).params.trans ((stationsStarted_at s).params.trans (params_blocksReset s))
  have hstop := stopCranes_sends (holdCarried (stationsStarted s)) ((aislePresent_of_params hparams a).trans hp)
  have hsent : s.sent <+: (holdCarried (stationsStarted s)).sent := by
    rw [sent_of_visits hkeep]
    exact sent_stationsStarted s
  exact hstop.of_prefix hsent ((sent_ordersGiven s).trans (sent_toLeft s))

theorem blocksLeft_homes (s : State) (hh : takesHome s a = true) : Sends (.drive a .home) s (blocksLeft s) := by
  have hoff : (crane (cranesStopped s) a).state = .offline := by rw [crane_cranesStopped]; rfl
  have hhome := homeAll_sends (restful_cranesStopped s) hoff ((takesHome_cranesStopped s a).trans hh)
  exact Sends.of_prefix ((sent_stationsStarted s).trans (sent_cranesStopped s)) hhome (sent_toLeft s)

theorem blocksLeft_clears (s : State) (hp : stationPresent s z = true) :
    Sends (if zoneClosed s z then .panel z .locked else .panel z .clear) s (blocksLeft s) := by
  obtain ⟨x, hx, hm⟩ := stationsStarted_sends s hp
  rw [sent_blocksReset] at hx
  exact Sends.of_prefix (List.prefix_refl _) ⟨x, hx, hm⟩
    (((sent_cranesStopped s).trans (sent_ordersGiven s)).trans (sent_toLeft s))

theorem sent_blocksLeft (s : State) : ∃ m, (blocksLeft s).sent = s.sent ++ m := by
  obtain ⟨m, hm⟩ := (((sent_stationsStarted s).trans (sent_cranesStopped s)).trans (sent_ordersGiven s)).trans (sent_toLeft s)
  exact ⟨m, hm.symm⟩

theorem link_of_inputs {i : Vector Conditioner 10} {l : LinkRec} (h : { u with inputs := i } = t) (hl : t.link = l) :
    u.link = l := by
  subst h
  exact hl

/-! ### The summary -/

theorem link_ordersGiven (s : State) : (ordersGiven s).link = s.link := by
  rw [(blocks_ordersGiven s).2.2.2.1, (stationsStarted_at s).link, blocksReset]
  exact link_of_inputs (reconcileAll_keeps _) (link_resetBlocks s)

/-- The ZONE bits of the zones that change state are set, and no other bit (R152). -/
theorem attention_blocksLeft (s : State) (i : Nat) : (blocksLeft s).link.attention.getLsbD i = true ↔
    s.link.attention.getLsbD i = true ∨ ∃ z : Station, i = 13 + z.val ∧ (zone (blocksLeft s) z).state ≠ (zone s z).state := by
  have hstate (z : Station) : (zone (ordersGiven s) z).state = (zone s z).state := by rw [zone_ordersGiven]; rfl
  have h := attention_progressOf (restful_ordersGiven s) (l := stationList) (by decide) i
  rw [← zonesProgress_eq, link_ordersGiven, ← blocksLeft] at h
  simpa only [hstate, mem_stationList, true_and] using h

end

end Sys2Proof.Machine

/-! The records after a reset that keeps the retained state, and the blocks as the manual lists them (R21, R79, R118, R138,
R139, R155). -/

namespace Sys2Proof.Machine

section
variable {s t : State} {z : Station} {a : Aisle} {n b : Nat} {i : FireInput} {k : ResetRec}

/-! ### The records (R21, R45) -/

theorem bin_recordsReset (s : State) (b : Nat) : bin (recordsReset s) b =
    (bin s b).map (resetBin s.forkMarks.toArray.toList s.crossingMarks.toArray.toList b) := tableGet_map _ _ _

theorem visit_recordsReset (s : State) (n : Nat) : visit (recordsReset s) n =
    (visit s n).map fun v => resetVisit s.crossingMarks.toArray.toList (visitSuspended s v) v :=
  tableGet_map (fun _ v => resetVisit s.crossingMarks.toArray.toList (visitSuspended s v) v) s.visits n

/-- The bin that the directory locates at a place. -/
def locatedAt (s : State) (loc : Location) : Option Nat :=
  (s.bins.find? fun e => decide (e.2.location = loc)).map (·.1)

theorem binAt_recordsReset (s : State) (loc : Location) : binAt (recordsReset s) loc = locatedAt s loc := by
  show ((tableMap (resetBin _ _) s.bins).find? fun e => e.2.location == loc).map (·.1) = _
  rw [tableMap, List.find?_map, Option.map_map, locatedAt]
  rfl

theorem openVisit_recordsReset (s : State) (b : Nat) :
    (bin (recordsReset s) b).bind (·.openVisit) = (bin s b).bind (·.openVisit) := by
  rw [bin_recordsReset]
  cases bin s b <;> rfl

theorem faceAfterReset_recordsReset (s : State) (z : Station) : faceAfterReset (recordsReset s) z =
    (locatedAt s (.face z)).bind fun b => ((bin s b).bind (·.openVisit)).map fun n => ⟨b, n⟩ := by
  simp only [faceAfterReset, binAt_recordsReset, openVisit_recordsReset]

theorem state_resetVisit (crossings : List (Option Nat)) (x : Bool) (v : VisitRec) :
    (resetVisit crossings x v).state = v.state := by
  rw [resetVisit]
  split <;> rfl

theorem faceState_recordsReset (s : State) (f : FaceRec) :
    faceState (recordsReset s) f = (visit s f.visit).map (·.state) := by
  rw [faceState, visit_recordsReset, Option.map_map]
  exact congrArg (Option.map · (visit s f.visit)) (funext fun v => state_resetVisit _ _ v)

/-! ### RESET_N's record -/

def withResets (k : ResetRec) (s : State) : State := { s with resets := k }

theorem crane_withResets (k : ResetRec) (s : State) (a : Aisle) : crane (withResets k s) a = crane s a := rfl
theorem aisleRec_withResets (k : ResetRec) (s : State) (a : Aisle) : aisleRec (withResets k s) a = aisleRec s a := rfl
theorem station_withResets (k : ResetRec) (s : State) (z : Station) : station (withResets k s) z = station s z := rfl
theorem zone_withResets (k : ResetRec) (s : State) (z : Station) : zone (withResets k s) z = zone s z := rfl
theorem visit_withResets (k : ResetRec) (s : State) (n : Nat) : visit (withResets k s) n = visit s n := rfl
theorem link_withResets (k : ResetRec) (s : State) : (withResets k s).link = s.link := rfl
theorem sent_withResets (k : ResetRec) (s : State) : (withResets k s).sent = s.sent := rfl
theorem conditioner_withResets (k : ResetRec) (s : State) (i : FireInput) :
    conditioner (withResets k s) i = conditioner s i := rfl

theorem settings_withResets (k : ResetRec) (h : Settings s t) : Settings s (withResets k t) :=
  ⟨h.bins, h.params, h.aisles, h.mode, h.time⟩

/-! ### Aisles and cranes (R79, R112, R118) -/

/-- The state that a reset which keeps the retained state leaves, with RESET_N's record. -/
def keptLeft (s : State) (k : ResetRec) : State := withResets k (blocksLeft (recordsReset s))

theorem settings_keptLeft (s : State) (k : ResetRec) : Settings (blocksAfresh (recordsReset s)) (keptLeft s k) :=
  settings_withResets k (settings_of_steady (steady_blocksLeft (recordsReset s)))

theorem params_keptLeft (s : State) (k : ResetRec) : (keptLeft s k).params = (recordsReset s).params :=
  (settings_keptLeft s k).params

theorem takesHome_keptLeft (s : State) (k : ResetRec) (a : Aisle) : takesHome (recordsReset s) a =
    (aislePresent (keptLeft s k) a && decide ((aisleRec s a).suspension = .inService) &&
      decide ((keptLeft s k).mode = .service) && !zoneClosed s (zoneOf a)) := by
  have hmode : (keptLeft s k).mode = (recordsReset s).mode := (settings_keptLeft s k).mode
  rw [takesHome, aislePresent_of_params (params_keptLeft s k), hmode]
  rfl

theorem param_keptLeft (s : State) (k : ResetRec) (n : Fin 41) : param (keptLeft s k) n = param (recordsReset s) n :=
  param_congr (params_keptLeft s k) n

theorem aisle_keptLeft (s : State) (k : ResetRec) (a : Aisle) : aisleRec (keptLeft s k) a =
    ⟨if (aisleRec s a).suspension = .inService then .inService else .suspended, false⟩ := by
  have h : aisleRec (recordsReset s) a = aisleRec s a := rfl
  rw [keptLeft, aisleRec_withResets, aisleRec_blocksLeft, h, resetAisle]
  cases (aisleRec s a).suspension <;> rfl

theorem crane_keptLeft (s : State) (k : ResetRec) (a : Aisle) : crane (keptLeft s k) a =
    if takesHome (recordsReset s) a then homedAfterReset (recordsReset s) a else craneAfterReset (recordsReset s) a := by
  rw [keptLeft, crane_withResets, crane_blocksLeft]

theorem crane_homed (h : takesHome (recordsReset s) a = true) : crane (keptLeft s k) a = { CraneRec.reset with
    state := .homing, carried := locatedAt s (.crane a), segment := some ⟨.home, 0, param (keptLeft s k) 4, .mouth, 0⟩
    deadline := 1000 * param (keptLeft s k) 16 } := by
  rw [crane_keptLeft, if_pos h, homedAfterReset, binAt_recordsReset, param_keptLeft, param_keptLeft]

theorem crane_not_homed (h : takesHome (recordsReset s) a = false) : crane (keptLeft s k) a = { CraneRec.reset with
    carried := locatedAt s (.crane a), parkOrder := zoneClosed s (zoneOf a) } := by
  have hclosed : zoneClosed (recordsReset s) (zoneOf a) = zoneClosed s (zoneOf a) := rfl
  rw [crane_keptLeft, h, if_neg Bool.false_ne_true, craneAfterReset, binAt_recordsReset, hclosed]

/-! ### Stations (R119, R138) -/

/-- The record of a station after a reset, as the manual lists it, before its orders. -/
def stationKept (s t : State) (z : Station) (r : StationRec) (face : Option FaceRec) (at_ : Option VisitState) : StationRec :=
  { StationRec.reset with
    lane := ([0, 1, 2] : List (Fin 3)).filterMap fun p => locatedAt s (.lane z p)
    face := face
    outbound := locatedAt s (.outbound z)
    openingBin := match locatedAt s (.opening z) with
      | some b => some b
      | none => if at_ = some .withdrawing ∧ face.any (fun f => (bin t f.bin).any (·.obstructed)) = true then
          face.map (·.bin) else none
    jammed := r.jammed, reopenFault := r.reopenFault, openLimit := r.openLimit, closedLimit := r.closedLimit
    beam := r.beam }

theorem absentStation_recordsReset {r : StationRec} {face : Option FaceRec} {at_ : Option VisitState}
    (hr : lastsReset (station s z) = lastsReset r) (hface : faceAfterReset (recordsReset s) z = face)
    (hat : face.bind (faceState (recordsReset s)) = at_) :
    absentStation (recordsReset s) z = stationKept s (keptLeft s k) z r face at_ := by
  have hbins : (keptLeft s k).bins = (recordsReset s).bins := (settings_keptLeft s k).bins
  have hlasts : lastsReset (station (recordsReset s) z) = lastsReset r := hr
  rw [absentStation_eq, hlasts, openingAfterReset_eq, hface, hat, binAt_recordsReset, binAt_recordsReset, stationKept]
  simp only [binAt_recordsReset, bin_congr hbins]
  cases locatedAt s (.opening z) <;> rfl

theorem startedStation_eq (s : State) (z : Station) : startedStation s z = { absentStation s z with
    shutter := if opensAtStart s z then .opening else .closing
    travelTimer := some (1000 * param s 32)
    holdOpen := opensAtStart s z
    reopenOrdered := opensAtStart s z
    closeOrder := zoneClosed s z
    faceTimer := faceTimerAfterReset s z } := rfl

theorem stationPresent_keptLeft (s : State) (k : ResetRec) (z : Station) :
    stationPresent (keptLeft s k) z = stationPresent (recordsReset s) z := by
  rw [stationPresent, params_keptLeft, stationPresent]

theorem station_keptLeft {r : StationRec} {face : Option FaceRec} {at_ : Option VisitState} {opens : Bool}
    (hr : lastsReset (station s z) = lastsReset r)
    (hface : face = (locatedAt s (.face z)).bind fun b => ((bin s b).bind (·.openVisit)).map fun n => ⟨b, n⟩)
    (hat : at_ = face.bind fun f => (visit s f.visit).map (·.state))
    (hopens : opens = (!zoneClosed s z && !r.reopenFault)) :
    (stationPresent (keptLeft s k) z = false →
      station (keptLeft s k) z = stationKept s (keptLeft s k) z r face at_) ∧
    (stationPresent (keptLeft s k) z = true →
      station (keptLeft s k) z = { stationKept s (keptLeft s k) z r face at_ with
        shutter := if opens then .opening else .closing
        travelTimer := some (1000 * param (keptLeft s k) 32)
        holdOpen := opens
        reopenOrdered := opens
        closeOrder := zoneClosed s z
        faceTimer := if at_ = some .atFace then some (1000 * param (keptLeft s k) 31) else none }) := by
  have hf : faceAfterReset (recordsReset s) z = face := (faceAfterReset_recordsReset s z).trans hface.symm
  have ha : face.bind (faceState (recordsReset s)) = at_ := by
    rw [hat]
    exact congrArg face.bind (funext (faceState_recordsReset s))
  have hfault : (station (recordsReset s) z).reopenFault = r.reopenFault := (congrArg StationRec.reopenFault hr :)
  have hclosed : zoneClosed (recordsReset s) z = zoneClosed s z := rfl
  have ho : opensAtStart (recordsReset s) z = opens := by rw [opensAtStart, hfault, hclosed, hopens]
  rw [stationPresent_keptLeft, keptLeft, station_withResets, station_blocksLeft, startedStation_eq, ho, hclosed,
    faceTimerAfterReset_eq, hf, ha, absentStation_recordsReset (k := k) hr hf ha, ← keptLeft, param_keptLeft, param_keptLeft]
  refine ⟨fun hp => ?_, fun hp => ?_⟩
  · rw [hp, if_neg Bool.false_ne_true]
  · rw [hp, if_pos rfl]

/-! ### Zones (R138, R147 to R150, R155) -/

/-- The zone's record after a reset, as the manual lists it, before its orders. -/
theorem zone_keptLeft (s : State) (k : ResetRec) (z : Station) {fault present leaves : Bool} {kept : ZoneRec}
    (hfault : (station s z).reopenFault = fault) (hp : present = stationPresent (keptLeft s k) z)
    (hkept : kept = resetZone (zone s z))
    (hl : leaves = ((!present || fault) && !takesHome (recordsReset s) (aisle0 z) &&
      !takesHome (recordsReset s) (aisle1 z))) :
    ((zone s z).state = .clear ∨ (zone s z).state = .alert → zone (keptLeft s k) z = kept) ∧
    ((zone s z).state = .awaitRestore → zone (keptLeft s k) z = { kept with released := present }) ∧
    ((zone s z).state = .sealed → zone (keptLeft s k) z = { kept with
      released := present, state := if (zone s z).panelClearSeen then .awaitRestore else .sealed }) ∧
    ((zone s z).state = .shutdown → (keptLeft s k).link.attention.getLsbD (13 + z.val) = true ∧
      zone (keptLeft s k) z = { kept with
        released := present, state := if (zone s z).panelClearSeen then .awaitRestore else .sealed
        settled0 := aislePresent (keptLeft s k) (aisle0 z), settled1 := aislePresent (keptLeft s k) (aisle1 z) }) ∧
    ((zone s z).state = .recovery → zone (keptLeft s k) z = { kept with
      reopenReport := if present && fault then .reopenFault else .none
      state := if leaves then (if alertLevel s z then .alert else .clear) else .recovery }) := by
  have hzone : zone (recordsReset s) z = zone s z := rfl
  have halert : alertLevel (recordsReset s) z = alertLevel s z := rfl
  have hf : (station (recordsReset s) z).reopenFault = fault := hfault
  rw [stationPresent_keptLeft] at hp
  have hleaves : leavesRecovery (recordsReset s) z = leaves := by rw [leavesRecovery, ← hp, hf, hl]
  have hpresent (a : Aisle) : aislePresent (keptLeft s k) a = aislePresent (recordsReset s) a :=
    aislePresent_of_params (params_keptLeft s k) a
  simp only [hpresent]
  rw [keptLeft, zone_withResets, link_withResets, hkept, hp]
  refine ⟨fun h => ?_, fun h => ?_, fun h => ?_, fun h => ⟨?_, ?_⟩, fun h => ?_⟩
  · exact zone_open h
  · exact zone_awaiting h
  · exact zone_seal h
  · refine (attention_blocksLeft _ _).mpr (.inr ⟨z, rfl, ?_⟩)
    rw [zone_shutdown (s := recordsReset s) h, hzone, h]
    dsimp only
    split <;> exact ZoneState.noConfusion
  · exact zone_shutdown h
  · rw [zone_recovery (s := recordsReset s) h, hf, hleaves, halert, hzone]

/-! ### Inputs and messages (R118, R138, R154) -/

theorem conditioner_keptLeft (s : State) (k : ResetRec) (i : FireInput) : conditioner (keptLeft s k) i =
    { conditioner s i with
      window := if ((conditioner s i).pinHigh != ((keptLeft s k).params.get 33).value.getLsbD i.val) = (conditioner s i).taken
        then none else some (param (keptLeft s k) (if i.val < 4 then 34 else if i.val < 9 then 35 else 36)) } := by
  have hc : conditioner (recordsReset s) i = conditioner s i := rfl
  have htime : deglitchTime (recordsReset s) i =
      param (recordsReset s) (if i.val < 4 then 34 else if i.val < 9 then 35 else 36) := by
    rw [apply_ite (param _), apply_ite (param _), deglitchTime]
  rw [params_keptLeft, param_keptLeft, keptLeft, conditioner_withResets, conditioner_blocksLeft, hc, htime]

theorem sends_keptLeft (s : State) (k : ResetRec) : ∃ m : List FieldMsg, (keptLeft s k).sent = s.sent ++ m ∧
    (∀ a, aislePresent (keptLeft s k) a = true → .drive a .stop ∈ m) ∧
    (∀ a, takesHome (recordsReset s) a = true → .drive a .home ∈ m) ∧
    ∀ z, stationPresent (keptLeft s k) z = true →
      (if zoneClosed s z then .panel z .locked else .panel z .clear) ∈ m := by
  obtain ⟨m, hm⟩ := sent_blocksLeft (recordsReset s)
  have hsent : (keptLeft s k).sent = s.sent ++ m := by
    rw [keptLeft, sent_withResets, hm]
    rfl
  refine ⟨m, hsent, fun a ha => ?_, fun a ha => (blocksLeft_homes _ ha).mem hm, fun z hz => ?_⟩
  · rw [aislePresent_of_params (params_keptLeft s k)] at ha
    exact (blocksLeft_stops _ ha).mem hm
  · rw [stationPresent_keptLeft] at hz
    exact (blocksLeft_clears _ hz).mem hm

end

end Sys2Proof.Machine

/-! A reset with retention lost, and what every reset sets up in the blocks (O10). -/

namespace Sys2Proof.Machine

section
variable {s t : State} {z : Station} {a : Aisle} {i : FireInput} {cause : ResetCause}

/-! ### Retention lost (R154, R179) -/

theorem station_setUpAfresh (s : State) (z : Station) : station (setUpAfresh s) z = keepPins (station s z) :=
  get_vectorMap keepPins s.stations z

theorem conditioner_setUpAfresh (s : State) (i : FireInput) :
    conditioner (setUpAfresh s) i = ⟨(conditioner s i).pinHigh, false, none⟩ :=
  get_vectorMap (fun c : Conditioner => ⟨c.pinHigh, false, none⟩) s.inputs i

theorem conditioner_leaveLost (s : State) (i : FireInput) : conditioner (leaveLost s) i =
    ⟨(conditioner s i).pinHigh, false, if (conditioner s i).pinHigh then
      some (if i.val < 4 then 200 else if i.val < 9 then 50 else 100) else none⟩ := by
  have hpolarity : ((setUpAfresh s).params.get 33).value.getLsbD i.val = false := by
    show (defaultParams.get 33).value.getLsbD i.val = false
    revert i
    decide
  have htime : deglitchTime (setUpAfresh s) i = if i.val < 4 then 200 else if i.val < 9 then 50 else 100 := rfl
  rw [leaveLost, conditioner_reconcileAll, conditioner_setUpAfresh, hpolarity, htime]
  cases (conditioner s i).pinHigh <;> rfl

theorem station_leaveLost (s : State) (z : Station) : station (leaveLost s) z = keepPins (station s z) := by
  have h : (leaveLost s).stations = (setUpAfresh s).stations := (rest_of_inputs (reconcileAll_keeps _)).2
  rw [station_congr h, station_setUpAfresh]

theorem afresh_of_inputs {u : State} {i j : Vector Conditioner 10} {d : Vector StationRec 4}
    (h : { u with inputs := i } = t) : { u with stations := d, inputs := j } = { t with stations := d, inputs := j } := by
  subst h
  rfl

/-- The state that a reset with retention lost leaves, but for the pins (R179). -/
theorem leaveLost_keeps (s : State) :
    { leaveLost s with stations := State.reset.stations, inputs := State.reset.inputs } = { State.reset with
      link := { LinkRec.reset with hostOut := s.link.hostOut }, resets := s.resets, sent := s.sent, pending := s.pending } :=
  (afresh_of_inputs (reconcileAll_keeps (setUpAfresh s))).trans rfl

/-- What a reset keeps of the part before it, with retention lost. -/
structure SamePins (s t : State) : Prop where
  stations : ∀ z, keepPins (station t z) = keepPins (station s z)
  inputs : ∀ i, (conditioner t i).pinHigh = (conditioner s i).pinHigh
  hostOut : t.link.hostOut = s.link.hostOut
  sent : t.sent = s.sent
  pending : t.pending = s.pending
  pinLow : t.resets.pinLow = s.resets.pinLow

theorem station_releaseOutputs (s : State) (z : Station) :
    station (releaseOutputs s) z = { station s z with holdOpen := false } :=
  get_vectorMap (fun r : StationRec => { r with holdOpen := false }) s.stations z

theorem samePins_beginReset (s : State) : SamePins s (beginReset .powerLost s) where
  stations z := by
    have h : station (beginReset .powerLost s) z = station (releaseOutputs (setUpAfresh s)) z := rfl
    rw [h, station_releaseOutputs, station_setUpAfresh]
    rfl
  inputs i := by
    have h : conditioner (beginReset .powerLost s) i = conditioner (setUpAfresh s) i := rfl
    rw [h, conditioner_setUpAfresh]
  hostOut := rfl
  sent := rfl
  pending := rfl
  pinLow := rfl

theorem lost_spelled {u : State} (h : SamePins s u) (ht : t = leaveReset .powerLost u) :
    (∀ z, station t z = { StationRec.reset with
      openLimit := (station s z).openLimit, closedLimit := (station s z).closedLimit, beam := (station s z).beam }) ∧
    (∀ i : FireInput, conditioner t i = ⟨(conditioner s i).pinHigh, false, if (conditioner s i).pinHigh then
      some (if i.val < 4 then 200 else if i.val < 9 then 50 else 100) else none⟩) ∧
    { t with stations := State.reset.stations, inputs := State.reset.inputs } =
      { State.reset with
        link := { LinkRec.reset with hostOut := s.link.hostOut }, resets := ⟨s.resets.pinLow, none, .powerLost⟩
        sent := s.sent, pending := s.pending } := by
  have ht : t = withResets ⟨u.resets.pinLow, none, .powerLost⟩ (leaveLost u) := by
    rw [ht, leaveReset, if_pos rfl, withResets]
  rw [ht]
  refine ⟨fun z => ?_, fun i => ?_, ?_⟩
  · rw [station_withResets, station_leaveLost, h.stations]
    rfl
  · rw [conditioner_withResets, conditioner_leaveLost, h.inputs]
  · rw [← h.hostOut, ← h.sent, ← h.pending, ← h.pinLow]
    exact congrArg (fun x : State => { x with resets := ⟨u.resets.pinLow, none, .powerLost⟩ }) (leaveLost_keeps u)

/-! ### The retained state kept (R179) -/

/-- What the beginning of a reset changes of a part that keeps its retained state. -/
structure Begun (s u : State) : Prop where
  changed : ∃ (r : ResetRec) (d : Vector StationRec 4), u = { s with resets := r, stations := d }
  lasts : ∀ z, lastsReset (station u z) = lastsReset (station s z)
  pinLow : u.resets.pinLow = s.resets.pinLow

theorem begun_beginReset (hc : cause ≠ .powerLost) (s : State) : Begun s (beginReset cause s) := by
  have h : beginReset cause s = { releaseOutputs s with resets := { s.resets with active := some cause } } := by
    rw [beginReset, if_neg hc]
  refine ⟨⟨_, _, h⟩, fun z => ?_, by rw [h]⟩
  have hz : station (beginReset cause s) z = station (releaseOutputs s) z := by
    rw [h]
    rfl
  rw [hz, station_releaseOutputs]
  rfl

theorem leaveReset_kept (hc : cause ≠ .powerLost) (s : State) :
    leaveReset cause s = keptLeft s ⟨s.resets.pinLow, none, cause⟩ := by
  rw [leaveReset, if_neg hc, leaveKept_eq, keptLeft, withResets, blocksLeft]

/-- A reset that keeps the retained state, be it of no length or the release of RESET_N. -/
theorem reset_kept (hc : cause ≠ .powerLost) (ht : t = resetAtOnce cause s ∨ t = leaveReset cause s) :
    ∃ u, Begun s u ∧ t = keptLeft u ⟨s.resets.pinLow, none, cause⟩ := by
  rcases ht with rfl | rfl
  · have hbegun := begun_beginReset hc s
    refine ⟨_, hbegun, ?_⟩
    rw [resetAtOnce, leaveReset_kept hc, hbegun.pinLow]
  · exact ⟨s, ⟨⟨_, _, rfl⟩, fun _ => rfl, rfl⟩, leaveReset_kept hc s⟩

/-- The crane of the aisle is homed at the end of a reset (R112, R155). -/
def homedAt (s t : State) (a : Aisle) : Bool := aislePresent t a && decide ((aisleRec s a).suspension = .inService) &&
  decide (t.mode = .service) && !zoneClosed s (zoneOf a)

section
variable {u : State} {k : ResetRec} (hb : Begun s u)
include hb

theorem begun_sent : u.sent = s.sent := by
  obtain ⟨⟨r, d, rfl⟩, -, -⟩ := hb
  rfl

theorem begun_zone (z : Station) : zone u z = zone s z := by
  obtain ⟨⟨r, d, rfl⟩, -, -⟩ := hb
  rfl

theorem begun_zoneClosed (z : Station) : zoneClosed u z = zoneClosed s z := by rw [zoneClosed, begun_zone hb, zoneClosed]

theorem begun_alertLevel (z : Station) : alertLevel u z = alertLevel s z := by
  obtain ⟨⟨r, d, rfl⟩, -, -⟩ := hb
  rfl

theorem takesHome_begun (a : Aisle) : takesHome (recordsReset u) a = homedAt s (keptLeft u k) a := by
  obtain ⟨⟨r, d, rfl⟩, -, -⟩ := hb
  exact takesHome_keptLeft _ k a

/-- The aisles and cranes after a reset that keeps the retained state. -/
theorem cranes_begun (a : Aisle) :
    aisleRec (keptLeft u k) a = ⟨if (aisleRec s a).suspension = .inService then .inService else .suspended, false⟩ ∧
    (homedAt s (keptLeft u k) a = true → crane (keptLeft u k) a = { CraneRec.reset with
      state := .homing, carried := locatedAt s (.crane a), segment := some ⟨.home, 0, param (keptLeft u k) 4, .mouth, 0⟩
      deadline := 1000 * param (keptLeft u k) 16 }) ∧
    (homedAt s (keptLeft u k) a = false → crane (keptLeft u k) a = { CraneRec.reset with
      carried := locatedAt s (.crane a), parkOrder := zoneClosed s (zoneOf a) }) := by
  rw [← takesHome_begun hb a]
  obtain ⟨⟨r, d, rfl⟩, -, -⟩ := hb
  exact ⟨aisle_keptLeft _ k a, crane_homed, crane_not_homed⟩

/-- The stations after a reset that keeps the retained state. -/
theorem stations_begun {r : StationRec} {face : Option FaceRec} {at_ : Option VisitState} {opens : Bool}
    (hr : r = station s z)
    (hface : face = (locatedAt s (.face z)).bind fun b => ((bin s b).bind (·.openVisit)).map fun n => ⟨b, n⟩)
    (hat : at_ = face.bind fun f => (visit s f.visit).map (·.state))
    (hopens : opens = (!zoneClosed s z && !r.reopenFault)) :
    (stationPresent (keptLeft u k) z = false →
      station (keptLeft u k) z = stationKept s (keptLeft u k) z r face at_) ∧
    (stationPresent (keptLeft u k) z = true →
      station (keptLeft u k) z = { stationKept s (keptLeft u k) z r face at_ with
        shutter := if opens then .opening else .closing
        travelTimer := some (1000 * param (keptLeft u k) 32)
        holdOpen := opens
        reopenOrdered := opens
        closeOrder := zoneClosed s z
        faceTimer := if at_ = some .atFace then some (1000 * param (keptLeft u k) 31) else none }) := by
  obtain ⟨⟨x, d, rfl⟩, hlasts, -⟩ := hb
  exact station_keptLeft (hr ▸ hlasts z) hface hat hopens

/-- The zones after a reset that keeps the retained state. -/
theorem zones_begun {kept : ZoneRec} {present leaves : Bool} (hp : present = stationPresent (keptLeft u k) z)
    (hkept : kept = resetZone (zone s z))
    (hl : leaves = ((!present || (station s z).reopenFault) && !homedAt s (keptLeft u k) (aisle0 z) &&
      !homedAt s (keptLeft u k) (aisle1 z))) :
    ((zone s z).state = .clear ∨ (zone s z).state = .alert → zone (keptLeft u k) z = kept) ∧
    ((zone s z).state = .awaitRestore → zone (keptLeft u k) z = { kept with released := present }) ∧
    ((zone s z).state = .sealed → zone (keptLeft u k) z = { kept with
      released := present, state := if (zone s z).panelClearSeen then .awaitRestore else .sealed }) ∧
    ((zone s z).state = .shutdown → (keptLeft u k).link.attention.getLsbD (13 + z.val) = true ∧
      zone (keptLeft u k) z = { kept with
        released := present, state := if (zone s z).panelClearSeen then .awaitRestore else .sealed
        settled0 := aislePresent (keptLeft u k) (aisle0 z), settled1 := aislePresent (keptLeft u k) (aisle1 z) }) ∧
    ((zone s z).state = .recovery → zone (keptLeft u k) z = { kept with
      reopenReport := if present && (station s z).reopenFault then .reopenFault else .none
      state := if leaves then (if alertLevel s z then .alert else .clear) else .recovery }) := by
  rw [← takesHome_begun hb, ← takesHome_begun hb] at hl
  rw [← begun_zone hb] at hkept ⊢
  rw [← begun_alertLevel hb]
  exact zone_keptLeft u k z (congrArg StationRec.reopenFault (hb.lasts z) :) hp hkept hl

theorem conditioner_begun (i : FireInput) : conditioner (keptLeft u k) i = { conditioner s i with
    window := if ((conditioner s i).pinHigh != ((keptLeft u k).params.get 33).value.getLsbD i.val) = (conditioner s i).taken
      then none else some (param (keptLeft u k) (if i.val < 4 then 34 else if i.val < 9 then 35 else 36)) } := by
  obtain ⟨⟨x, d, rfl⟩, -, -⟩ := hb
  exact conditioner_keptLeft _ k i

theorem sends_begun : ∃ m : List FieldMsg, (keptLeft u k).sent = s.sent ++ m ∧
    (∀ a, aislePresent (keptLeft u k) a = true → .drive a .stop ∈ m) ∧
    (∀ a, homedAt s (keptLeft u k) a = true → .drive a .home ∈ m) ∧
    ∀ z, stationPresent (keptLeft u k) z = true →
      (if zoneClosed s z then .panel z .locked else .panel z .clear) ∈ m := by
  obtain ⟨m, hm, hstop, hhome, hclear⟩ := sends_keptLeft u k
  refine ⟨m, by rw [hm, begun_sent hb], hstop, fun a ha => hhome a ((takesHome_begun hb a).trans ha), fun z hz => ?_⟩
  rw [← begun_zoneClosed hb]
  exact hclear z hz

end

end

/-- Settles O10. -/
theorem resetsSetUpTheBlocks : Obligations.ResetsSetUpTheBlocks := by
  unfold Obligations.ResetsSetUpTheBlocks
  refine ⟨fun s t ht => ?_, fun cause s t hc ht => ?_⟩
  · rcases ht with ht | ht
    · exact lost_spelled (samePins_beginReset s) ht
    · exact lost_spelled ⟨fun _ => rfl, fun _ => rfl, rfl, rfl, rfl, rfl⟩ ht
  · obtain ⟨u, hb, rfl⟩ := reset_kept hc ht
    refine ⟨cranes_begun hb, ?_, ?_, conditioner_begun hb, sends_begun hb⟩
    · intro z r kept face at_ opens hr hface hat hopens hkept
      subst hkept
      exact stations_begun hb hr hface hat hopens
    · intro z y kept present leaves hy hp hkept hl
      subst hy
      exact zones_begun hb hp hkept hl

end Sys2Proof.Machine

/-! How resets begin and end (R173, R179). -/

namespace Sys2Proof.Machine

section
variable {s t : State} {cause : ResetCause} {bkok : Bool}

/-- What the beginning of a reset that lasts does, with its cause and RESET_N low. -/
def BeginsReset (c : Instr) (cause : ResetCause) (s : State) : Prop := ∃ t, exec c s = .next t ∧
  t.resets = ⟨true, some cause, s.resets.cause⟩ ∧
  (cause ≠ .powerLost → (∀ z, station t z = { station s z with holdOpen := false }) ∧
    { t with resets := s.resets, stations := s.stations } = s) ∧
  (cause = .powerLost →
    (∀ z, station t z = { StationRec.reset with
      openLimit := (station s z).openLimit, closedLimit := (station s z).closedLimit, beam := (station s z).beam }) ∧
    (∀ i : FireInput, conditioner t i = ⟨(conditioner s i).pinHigh, false, none⟩) ∧
    { t with resets := State.reset.resets, stations := State.reset.stations, inputs := State.reset.inputs } =
      { State.reset with
        link := { LinkRec.reset with hostOut := s.link.hostOut }, sent := s.sent, pending := s.pending })

theorem beginReset_kept (hc : cause ≠ .powerLost) (k : ResetRec) (s : State) : (∀ z, station (beginReset cause s) z =
      { station s z with holdOpen := false }) ∧
    { beginReset cause s with resets := k, stations := s.stations } = { s with resets := k } := by
  rw [beginReset, if_neg hc]
  exact ⟨station_releaseOutputs s, rfl⟩

theorem beginReset_lost (s : State) : (∀ z, station (beginReset .powerLost s) z = { StationRec.reset with
      openLimit := (station s z).openLimit, closedLimit := (station s z).closedLimit, beam := (station s z).beam }) ∧
    (∀ i : FireInput, conditioner (beginReset .powerLost s) i = ⟨(conditioner s i).pinHigh, false, none⟩) ∧
    { beginReset .powerLost s with
      resets := State.reset.resets, stations := State.reset.stations, inputs := State.reset.inputs } =
      { State.reset with
        link := { LinkRec.reset with hostOut := s.link.hostOut }, sent := s.sent, pending := s.pending } := by
  refine ⟨fun z => ?_, conditioner_setUpAfresh s, rfl⟩
  refine (station_releaseOutputs (setUpAfresh s) z).trans ?_
  rw [station_setUpAfresh]
  rfl

/-- A reset that lasts begins, of a part with the records of `s` and RESET_N low. -/
theorem begins_of {c : Instr} {r : ResetRec} (hx : exec c s = .next (beginReset cause { s with resets := r }))
    (hlow : r.pinLow = true) (hcause : r.cause = s.resets.cause) : BeginsReset c cause s := by
  refine ⟨_, hx, ?_, fun hc => beginReset_kept hc s.resets { s with resets := r }, ?_⟩
  · obtain ⟨low, active, last⟩ := r
    subst hlow hcause
    rfl
  · rintro rfl
    exact beginReset_lost _

theorem resetAsserted_again (h : s.resets.pinLow = true) : exec (.resetAsserted bkok) s = .next s :=
  congrArg Host.Outcome.next (if_pos h)

theorem resetAsserted_begins (h : s.resets.pinLow = false) (hr : inReset s = false) :
    BeginsReset (.resetAsserted bkok) (if bkok then .pin else .powerLost) s := by
  refine begins_of (r := { s.resets with pinLow := true }) (congrArg Host.Outcome.next ?_) rfl rfl
  rw [assertReset, if_neg (ne_true_of_eq_false h), if_neg (ne_true_of_eq_false hr)]
  rfl

theorem powerOn_begins (h : s.resets.pinLow = true) :
    BeginsReset (.powerOn bkok) (if bkok then .powerKept else .powerLost) s :=
  begins_of (r := s.resets) (congrArg Host.Outcome.next (if_pos h)) h rfl

theorem powerOn_high (h : s.resets.pinLow = false) :
    exec (.powerOn bkok) s = .next (resetAtOnce (if bkok then .powerKept else .powerLost) s) :=
  congrArg Host.Outcome.next (if_neg (ne_true_of_eq_false h))

theorem resetReleased_high (h : s.resets.pinLow = false) (ha : s.resets.active = none) :
    exec .resetReleased s = .next s := by
  refine congrArg Host.Outcome.next ?_
  rw [releaseReset, ha]
  dsimp only
  rw [← h]

theorem resetReleased_leaves (h : s.resets.pinLow = true) (ha : s.resets.active = some cause) : exec .resetReleased s =
    .next (leaveReset cause { s with resets := { s.resets with pinLow := false } }) := by
  refine congrArg Host.Outcome.next ?_
  rw [releaseReset, ha]
  exact if_pos h

/-! ### Restart (R173) -/

theorem exec_restart (hs : linkIdle s) : exec (.restart (commandBody [])) s =
    .next (writeReply .done [] { s with link := { s.link with restartTimer := some 1000 } }) := by
  have h : takeCommand 0x74 0 .both runRestart (commandBody []) s = _ :=
    takeCommand_replies hs (p := []) rfl (by decide) (fun _ => rfl) rfl
  exact congrArg Host.Outcome.next (h.trans rfl)

theorem readReply_restarts (n : Nat) (hr : inReset s = false) (hy : s.link.replyReady = true)
    (ht : s.link.restartTimer.isSome = true) : exec (.readReply n bkok) s =
      .next (resetAtOnce (if bkok then .restart else .powerLost) (readReplyEnd n s)) := by
  refine (next_outsideReset hr).trans (congrArg Host.Outcome.next ?_)
  refine if_pos ?_
  rw [hy, ht]
  rfl

theorem restartTimeout_restarts (hr : inReset s = false) (ht : s.link.restartTimer = some 0) :
    exec (.restartTimeout bkok) s = .next (resetAtOnce (if bkok then .restart else .powerLost) s) := by
  refine (next_outsideReset hr).trans (congrArg Host.Outcome.next ?_)
  rw [takeRestartTimeout, if_pos (timerDue_iff.mpr ht)]
  rfl

theorem restartTimeout_waits (hr : inReset s = false) (ht : s.link.restartTimer ≠ some 0) :
    exec (.restartTimeout bkok) s = .next s := by
  refine (next_outsideReset hr).trans (congrArg Host.Outcome.next ?_)
  rw [takeRestartTimeout, if_neg (mt timerDue_iff.mp ht)]

end

end Sys2Proof.Machine

/-! What a reset keeps of the records and the settings (R21, R45, R63, R78, R95, R173, R179 to R181). -/

namespace Sys2Proof.Machine

section
variable {s t : State} {z : Station} {a : Aisle} {n b : Nat} {i : FireInput} {k : ResetRec} {v w : VisitRec}

/-! ### Bins and marks (R21) -/

theorem named_toList {m : Nat} (x : Vector (Option Nat) m) (b : Nat) :
    named x.toArray.toList b = decide (∃ i, x.get i = some b) := by
  rw [Bool.eq_iff_iff, decide_eq_true_iff, named, List.contains_iff_mem, Array.mem_toList_iff, Vector.mem_toArray_iff,
    Vector.mem_iff_getElem, Fin.exists_iff]
  rfl

/-- The location is on a crane. -/
def onCrane : Location → Bool
  | .crane _ => true
  | _ => false

theorem resetBin_eq (forks crossings : List (Option Nat)) (b : Nat) (r : BinRec) : resetBin forks crossings b r = { r with
    uncertain := r.uncertain || onCrane r.location || named forks b || named crossings b
    obstructed := r.obstructed || named crossings b } := by
  rw [resetBin]
  cases r.location <;> rfl

/-- A bin after a reset that keeps the retained state. -/
theorem bin_keptLeft (s : State) (k : ResetRec) (b : Nat) : bin (keptLeft s k) b = (bin s b).map fun r => { r with
    uncertain := r.uncertain || onCrane r.location || decide (∃ a, forkMark s a = some b) ||
      decide (∃ z, crossingMark s z = some b)
    obstructed := r.obstructed || decide (∃ z, crossingMark s z = some b) } := by
  have h : (keptLeft s k).bins = (recordsReset s).bins := (settings_keptLeft s k).bins
  rw [bin_congr h, bin_recordsReset]
  refine congrArg (Option.map · (bin s b)) (funext fun r => ?_)
  rw [resetBin_eq, named_toList, named_toList]
  rfl

/-! ### What stays, and what starts again -/

/-- What a reset that keeps the retained state leaves alone or sets afresh, apart from the bins, visits and blocks. -/
structure Retained (s t : State) : Prop where
  withdrawals : t.withdrawals = s.withdrawals
  recordCount : t.recordCount = s.recordCount
  pendingLends : t.pendingLends = s.pendingLends
  protection : t.protection = s.protection
  day : t.day = s.day
  slots : t.slots = s.slots
  pending : t.pending = s.pending
  forkMarks : t.forkMarks = Vector.replicate 8 none
  crossingMarks : t.crossingMarks = Vector.replicate 4 none
  params : t.params = repairParams s.params
  mode : t.mode = if needsRepair s.params then .commissioning else s.mode
  time : t.time = ⟨0, ((repairParams s.params).get 6).value.toNat, 0⟩
  chanQ : t.chanQ = ChannelRec.reset
  chanP : t.chanP = ChannelRec.reset

theorem retained_steady (h : steady t = steady (blocksAfresh (recordsReset s))) : Retained s t where
  withdrawals := (congrArg State.withdrawals h :)
  recordCount := (congrArg State.recordCount h :)
  pendingLends := (congrArg State.pendingLends h :)
  protection := (congrArg State.protection h :)
  day := (congrArg State.day h :)
  slots := (congrArg State.slots h :)
  pending := (congrArg State.pending h :)
  forkMarks := (congrArg State.forkMarks h :)
  crossingMarks := (congrArg State.crossingMarks h :)
  params := (congrArg State.params h :)
  mode := (congrArg State.mode h :)
  time := (congrArg State.time h :)
  chanQ := (congrArg State.chanQ h :)
  chanP := (congrArg State.chanP h :)

theorem retained_withResets (k : ResetRec) (h : Retained s t) : Retained s (withResets k t) :=
  ⟨h.withdrawals, h.recordCount, h.pendingLends, h.protection, h.day, h.slots, h.pending, h.forkMarks, h.crossingMarks,
    h.params, h.mode, h.time, h.chanQ, h.chanP⟩

theorem retained_keptLeft (s : State) (k : ResetRec) : Retained s (keptLeft s k) :=
  retained_withResets k (retained_steady (steady_blocksLeft (recordsReset s)))

/-! ### Parameters (R180) -/

theorem get_repairParams (x : Vector ParamWord 41) (i : Fin 41) : (repairParams x).get i =
    if oddOnes (x.get i).value = (x.get i).parity then x.get i else paramWord (defaultValues.getD i.val 0) := by
  have hlen : i.val < defaultValues.length := i.isLt
  have hget : (repairParams x).get i = repairWord (defaultValues[i.val]'hlen) (x.get i) := by
    simp [repairParams, Vector.get_eq_getElem, Vector.getElem_mk]
  have hdefault : defaultValues.getD i.val 0 = defaultValues[i.val]'hlen := by
    rw [List.getD_eq_getElem?_getD, List.getElem?_eq_getElem hlen, Option.getD_some]
  rw [hget, hdefault, repairWord, wordOk]
  simp only [beq_iff_eq]

theorem needsRepair_iff (x : Vector ParamWord 41) :
    needsRepair x = true ↔ ∃ i : Fin 41, oddOnes (x.get i).value ≠ (x.get i).parity := by
  simp only [needsRepair, List.any_eq_true, Array.mem_toList_iff, Vector.mem_toArray_iff, Vector.mem_iff_getElem,
    Fin.exists_iff, wordOk, Bool.not_eq_true', beq_eq_false_iff_ne]
  constructor
  · rintro ⟨w, ⟨i, hi, rfl⟩, h⟩
    exact ⟨i, hi, h⟩
  · rintro ⟨i, hi, h⟩
    exact ⟨_, ⟨i, hi, rfl⟩, h⟩

theorem needsRepair_not_iff (x : Vector ParamWord 41) :
    (∀ i : Fin 41, oddOnes (x.get i).value = (x.get i).parity) ↔ needsRepair x = false := by
  rw [← Bool.not_eq_true, needsRepair_iff, not_exists]
  simp only [not_not]

/-! ### The summary (R171, R173) -/

theorem getLsbD_attentionWord {m : Nat} (hm : m < 24) (i : Nat) : (attentionWord m).getLsbD i = true ↔ i = m := by
  have h := attention_setAttention hm { State.reset with link := { LinkRec.reset with attention := 0 } } i
  simpa [setAttention] using h

/-- RESTARTED, and PARAMETER_REPAIRED with a repair. -/
theorem attention_recordsReset (s : State) (i : Nat) : (recordsReset s).link.attention.getLsbD i = true ↔
    i = 19 ∨ (i = 18 ∧ needsRepair s.params = true) := by
  have hrestarted : LinkRec.reset.attention = attentionWord 19 := rfl
  have h : (recordsReset s).link.attention =
      LinkRec.reset.attention ||| (if needsRepair s.params then attentionWord repairedBit else 0) := rfl
  rw [h, hrestarted, BitVec.getLsbD_or, Bool.or_eq_true, getLsbD_attentionWord (by decide)]
  refine or_congr_right ?_
  cases needsRepair s.params with
  | false => simp
  | true =>
    rw [if_pos rfl, and_iff_left rfl]
    exact getLsbD_attentionWord (by decide) i

/-- The summary after a reset that keeps the retained state. -/
theorem attention_keptLeft (s : State) (k : ResetRec) (i : Nat) : (keptLeft s k).link.attention.getLsbD i = true ↔ i = 19 ∨
    (i = 18 ∧ ∃ j : Fin 41, oddOnes (s.params.get j).value ≠ (s.params.get j).parity) ∨
    ∃ z : Station, i = 13 + z.val ∧ (zone (keptLeft s k) z).state ≠ (zone s z).state := by
  have hzone (z : Station) : zone (recordsReset s) z = zone s z := rfl
  rw [keptLeft, link_withResets, attention_blocksLeft, attention_recordsReset, needsRepair_iff, or_assoc]
  simp only [hzone, zone_withResets]

theorem link_keptLeft (s : State) (k : ResetRec) : (keptLeft s k).link =
    { LinkRec.reset with hostOut := s.link.hostOut, attention := (keptLeft s k).link.attention } := by
  have h : (leaveKept s).link =
      { LinkRec.reset with hostOut := s.link.hostOut, attention := (leaveKept s).link.attention } := leaveKept_link s
  rwa [leaveKept_eq, ← blocksLeft, ← link_withResets k, ← keptLeft] at h

end

end Sys2Proof.Machine

/-! The visits after a reset that keeps the retained state (R33, R45, R95, R150, R155). -/

namespace Sys2Proof.Machine

section
variable {s t : State} {z : Station} {a : Aisle} {n b : Nat} {i : FireInput} {k : ResetRec} {v w x : VisitRec}

/-! ### The record of a visit (R45, R95) -/

/-- The visit as a reset has it before FIRE. -/
def visitReset (s : State) (v : VisitRec) : VisitRec := resetVisit s.crossingMarks.toArray.toList (visitSuspended s v) v

theorem visitReset_ended (h : v.outcome ≠ none) : visitReset s v = v := by
  refine if_neg fun ho => h ?_
  simpa [isOpen] using ho

/-- What stays of a visit, and what its crossing or its suspended aisle adds. -/
theorem visitReset_open (h : v.outcome = none) : visitReset s v = { v with
    reservation := false
    created := 0
    hold := { v.hold with
      reset := v.hold.reset || wasMoving s.crossingMarks.toArray.toList v
      aisleSuspended := v.hold.aisleSuspended || visitSuspended s v } } := by
  refine if_pos ?_
  rw [isOpen, h]
  rfl

theorem wasMoving_iff (s : State) (v : VisitRec) : wasMoving s.crossingMarks.toArray.toList v = true ↔
    v.state = .outbound ∨ v.state = .inbound ∨ v.state = .moving ∨ v.state = .presenting ∨
      (v.state = .withdrawing ∧ ∃ z, crossingMark s z = some v.bin) := by
  rw [wasMoving, named_toList]
  cases v.state <;> simp [VisitState.inLeg, crossingMark]

theorem visitSuspended_iff (s : State) (v : VisitRec) : visitSuspended s v = true ↔
    ∃ a, binAisle s v.bin = some a ∧ (aisleRec s a).suspension ≠ .inService := by
  rw [visitSuspended]
  cases binAisle s v.bin <;> simp

/-! ### FIRE for the visits of carried bins (R155) -/

/-- A crane of a closed zone carries the bin of the visit. -/
def CarriedClosed (s : State) (n : Nat) : Prop := ∃ a b r, zoneClosed s (zoneOf a) = true ∧
  locatedAt s (.crane a) = some b ∧ bin s b = some r ∧ r.openVisit = some n

theorem openVisit_iff {u : State} (h : (bin u b).bind (·.openVisit) = (bin s b).bind (·.openVisit)) :
    (∃ r, bin u b = some r ∧ r.openVisit = some n) ↔ ∃ r, bin s b = some r ∧ r.openVisit = some n := by
  have hbind (u : State) : (∃ r, bin u b = some r ∧ r.openVisit = some n) ↔ (bin u b).bind (·.openVisit) = some n :=
    Option.bind_eq_some_iff.symm
  rw [hbind, hbind, h]

theorem carriesClosed_started (s : State) (a : Aisle) (n : Nat) : CarriesClosed (stationsStarted (recordsReset s)) a n ↔
    zoneClosed s (zoneOf a) = true ∧
      ∃ b r, locatedAt s (.crane a) = some b ∧ bin s b = some r ∧ r.openVisit = some n := by
  have hcarried : (crane (stationsStarted (recordsReset s)) a).carried = locatedAt s (.crane a) := by
    rw [crane_congr (stationsStarted_at _).cranes, crane_blocksReset, craneAfterReset, binAt_recordsReset]
  have hbins : (stationsStarted (recordsReset s)).bins = (recordsReset s).bins :=
    (bins_atStations (stationsStarted_at _)).trans (bins_blocksReset _)
  have hclosed : zoneClosed (recordsReset s) (zoneOf a) = zoneClosed s (zoneOf a) := rfl
  rw [CarriesClosed, zoneClosed_stationsStarted, hclosed, hcarried]
  refine and_congr_right fun _ => exists_congr fun b => ?_
  have hopen : (bin (stationsStarted (recordsReset s)) b).bind (·.openVisit) = (bin s b).bind (·.openVisit) := by
    rw [bin_congr hbins, openVisit_recordsReset]
  rw [exists_and_left, exists_and_left, openVisit_iff hopen]

theorem fires_ordersGiven (s : State) (n : Nat) : Fires (CarriedClosed s n) ((visit s n).map (visitReset s))
    (visit (ordersGiven (recordsReset s)) n) := by
  have hvisits : (stationsStarted (recordsReset s)).visits = (recordsReset s).visits :=
    (visits_atStations (stationsStarted_at _)).trans (visits_blocksReset _)
  have h := visit_holdCarried n (stationsStarted (recordsReset s))
  rw [visit_congr hvisits, visit_recordsReset] at h
  rw [visit_congr (blocks_ordersGiven _).2.2.1]
  refine h.iff (exists_congr fun a => (carriesClosed_started s a n).trans ?_)
  simp only [exists_and_left]

theorem shutCarries_ordersGiven (h : ShutCarries (ordersGiven (recordsReset s)) n) : ∃ a b r,
    (zone s (zoneOf a)).state = .shutdown ∧ locatedAt s (.crane a) = some b ∧ bin s b = some r ∧ r.openVisit = some n := by
  obtain ⟨a, b, r, hst, hb, hr, ho⟩ := h
  have hbins : (ordersGiven (recordsReset s)).bins = (recordsReset s).bins := (settings_of_steady (steady_ordersGiven _)).bins
  rw [bin_congr hbins] at hr
  obtain ⟨q, hq, hqo⟩ := (openVisit_iff (openVisit_recordsReset s b)).mp ⟨r, hr, ho⟩
  refine ⟨a, b, q, ?_, ?_, hq, hqo⟩
  · rw [zone_ordersGiven] at hst
    exact hst
  · rw [crane_ordersGiven] at hb
    rw [← hb, ← binAt_recordsReset]
    split <;> rfl

theorem CarriedClosed.of_shut (h : ShutCarries (ordersGiven (recordsReset s)) n) : CarriedClosed s n := by
  obtain ⟨a, b, r, hst, hb, hr, ho⟩ := shutCarries_ordersGiven h
  refine ⟨a, b, r, ?_, hb, hr, ho⟩
  rw [zoneClosed, hst]
  rfl

/-- A visit as the orders leave it: FIRE besides where a crane of a closed zone carries its bin. -/
theorem visit_ordersGiven (hv : visit s n = some v) (ho : v.outcome = none) : ∃ x,
    visit (ordersGiven (recordsReset s)) n = some x ∧ x = { visitReset s v with hold := { (visitReset s v).hold with
      fire := x.hold.fire } } ∧ (x.hold.fire = true ↔ v.hold.fire = true ∨ CarriedClosed s n) := by
  have h := fires_ordersGiven s n
  rw [hv, Option.map_some] at h
  obtain ⟨hfire, hkeep⟩ := h.2 _ rfl
  have hfireEq : (visitReset s v).hold.fire = v.hold.fire := by rw [visitReset_open ho]
  have hout : (visitReset s v).outcome = none := by rw [visitReset_open ho]; exact ho
  by_cases hc : CarriedClosed s n
  · exact ⟨_, hfire hout hc, rfl, by simp [hc]⟩
  · exact ⟨_, hkeep (.inr hc), rfl, by rw [hfireEq]; simp [hc]⟩

/-! ### Zones that leave RECOVERY with the reset -/

/-- The zone of the visit's bin leaves RECOVERY with the reset. -/
def Reopened (s t : State) (v : VisitRec) : Prop := ∃ a, binAisle s v.bin = some a ∧
  (zone s (zoneOf a)).state = .recovery ∧ (zone t (zoneOf a)).state ≠ .recovery

theorem binAisle_recordsReset (s : State) (b : Nat) : binAisle (recordsReset s) b = binAisle s b := by
  rw [binAisle, bin_recordsReset, Option.map_map]
  rfl

theorem binLocation_ordersGiven (s : State) (b : Nat) :
    binLocation (ordersGiven (recordsReset s)) b = binLocation s b := by
  have hbins : (ordersGiven (recordsReset s)).bins = (recordsReset s).bins := (settings_of_steady (steady_ordersGiven _)).bins
  rw [binLocation, bin_congr hbins, bin_recordsReset, Option.map_map]
  rfl

theorem visitZone_ordersGiven (hx : visit (ordersGiven (recordsReset s)) n = some x) (hb : x.bin = v.bin) :
    visitZone (ordersGiven (recordsReset s)) n = (binAisle s v.bin).map zoneOf := by
  have hbins : (ordersGiven (recordsReset s)).bins = (recordsReset s).bins := (settings_of_steady (steady_ordersGiven _)).bins
  rw [visitZone_of_visit hx, hb, binAisle, bin_congr hbins, ← binAisle, binAisle_recordsReset]

/-- A zone that may not leave RECOVERY stays in it. -/
theorem recovery_left (h : Restful s) (hst : (zone s z).state = .recovery)
    (hleft : (zone (zonesProgress s) z).state ≠ .recovery) : recoverable s z := by
  obtain ⟨u, hu, hz⟩ := zonesProgress_turn h z
  by_contra hr
  rw [hz] at hleft
  exact hleft (recovery_stays (hu.zone ▸ hst) (mt (recoverable_congr hu).mp hr)).1

theorem state_ordersGiven (s : State) (z : Station) :
    (zone (ordersGiven (recordsReset s)) z).state = (zone s z).state := by
  rw [zone_ordersGiven]
  rfl

/-- What leaving RECOVERY means for a visit, once the orders are given. -/
theorem reopens_of_reopened (hx : visit (ordersGiven (recordsReset s)) n = some x) (hb : x.bin = v.bin)
    (h : Reopened s (keptLeft s k) v) : ∃ a, binAisle s v.bin = some a ∧
      (zone s (zoneOf a)).state = .recovery ∧ Reopens (ordersGiven (recordsReset s)) (zoneOf a) n := by
  obtain ⟨a, ha, hst, hleft⟩ := h
  have hst' := (state_ordersGiven s (zoneOf a)).trans hst
  rw [keptLeft, zone_withResets, blocksLeft] at hleft
  refine ⟨a, ha, hst, ?_, hst', recovery_left (restful_ordersGiven _) hst' hleft⟩
  rw [visitZone_ordersGiven hx hb, ha, Option.map_some]

theorem not_reopens (hx : visit (ordersGiven (recordsReset s)) n = some x) (hb : x.bin = v.bin) (ho : x.outcome = none)
    (hheld : ShutCarries (ordersGiven (recordsReset s)) n → x.hold.fire = true)
    (h : ¬Reopened s (keptLeft s k) v) (z : Station) : ¬Reopens (ordersGiven (recordsReset s)) z n := by
  intro hr
  obtain ⟨-, -, hleft, -⟩ := visit_reopens (restful_ordersGiven _) hx ho hheld hr
  have hz := hr.1
  rw [visitZone_ordersGiven hx hb, Option.map_eq_some_iff] at hz
  obtain ⟨a, ha, rfl⟩ := hz
  refine h ⟨a, ha, (state_ordersGiven s _).symm.trans hr.2.1, ?_⟩
  rwa [keptLeft, zone_withResets, blocksLeft]

/-! ### What comes of an open visit -/

/-- A visit is as the reset has it but for its state and FIRE. -/
def SameBut (s : State) (v w : VisitRec) : Prop := w = { visitReset s v with
  state := w.state, hold := { (visitReset s v).hold with fire := w.hold.fire } }

theorem SameBut.hold (h : SameBut s v w) : w.hold = { (visitReset s v).hold with fire := w.hold.fire } :=
  (congrArg VisitRec.hold h :)

/-- The fields of such a visit (R45, R95). -/
theorem sameBut_spelled (ho : v.outcome = none) (h : SameBut s v w) :
    w = { v with created := 0, reservation := false, state := w.state, hold := w.hold } ∧
    (w.hold.reset = true ↔ v.hold.reset = true ∨ v.state = .outbound ∨ v.state = .inbound ∨ v.state = .moving ∨
      v.state = .presenting ∨ (v.state = .withdrawing ∧ ∃ z, crossingMark s z = some v.bin)) ∧
    (w.hold.aisleSuspended = true ↔ v.hold.aisleSuspended = true ∨
      ∃ a, binAisle s v.bin = some a ∧ (aisleRec s a).suspension ≠ .inService) ∧
    w.hold.craneFault = v.hold.craneFault ∧ w.hold.stationOut = v.hold.stationOut := by
  have hhold := h.hold
  rw [SameBut, ← hhold] at h
  rw [visitReset_open ho] at h hhold
  refine ⟨h, ?_, ?_, ?_, ?_⟩
  · rw [hhold, ← wasMoving_iff]
    exact Bool.or_eq_true_iff
  · rw [hhold, ← visitSuspended_iff]
    exact Bool.or_eq_true_iff
  · rw [hhold]
  · rw [hhold]

theorem reset_ne_none (h : w.hold.reset = true) : w.hold ≠ HoldSet.none := fun hn => by
  rw [hn] at h
  cases h

/-- A visit as the orders of a reset leave it. -/
structure Ordered (s : State) (n : Nat) (v x : VisitRec) : Prop where
  visit : visit (ordersGiven (recordsReset s)) n = some x
  same : x = { visitReset s v with hold := { (visitReset s v).hold with fire := x.hold.fire } }
  fire : x.hold.fire = true ↔ v.hold.fire = true ∨ CarriedClosed s n
  bin : x.bin = v.bin
  outcome : x.outcome = none
  state : x.state = v.state

theorem ordered_of_open (hv : visit s n = some v) (ho : v.outcome = none) : ∃ x, Ordered s n v x := by
  obtain ⟨x, hx, hsame, hfire⟩ := visit_ordersGiven hv ho
  have hrec := visitReset_open (s := s) ho
  refine ⟨x, hx, hsame, hfire, ?_, ?_, ?_⟩ <;> rw [hsame, hrec]
  exact ho

theorem Ordered.held (h : Ordered s n v x) (hc : ShutCarries (ordersGiven (recordsReset s)) n) : x.hold.fire = true :=
  h.fire.mpr (.inr (.of_shut hc))

/-- What changes the state and FIRE alone leaves the visit as the reset has it otherwise. -/
theorem Ordered.sameBut (h : Ordered s n v x)
    (hw : w = { x with state := w.state, hold := { x.hold with fire := w.hold.fire } }) : SameBut s v w := by
  rw [h.same] at hw
  exact hw

/-- Where no zone leaves RECOVERY the visit keeps its state, and has FIRE where a crane of a closed zone carries its bin. -/
theorem visit_not_reopened (hv : visit s n = some v) (ho : v.outcome = none) (h : ¬Reopened s (keptLeft s k) v) :
    ∃ w, visit (keptLeft s k) n = some w ∧ SameBut s v w ∧ w.state = v.state ∧
      (w.hold.fire = true ↔ v.hold.fire = true ∨ CarriedClosed s n) := by
  obtain ⟨x, hx⟩ := ordered_of_open hv ho
  refine ⟨x, ?_, hx.sameBut rfl, hx.state, hx.fire⟩
  rw [keptLeft, visit_withResets, blocksLeft]
  exact visit_stays (restful_ordersGiven _) hx.visit hx.held (not_reopens hx.visit hx.bin hx.outcome hx.held h)

/-- The bin of the visit is carried by no crane but that of its own aisle, as in every run (R80). -/
def CarriedByOwn (s : State) (n : Nat) (v : VisitRec) : Prop := ∀ a b r, locatedAt s (.crane a) = some b → bin s b = some r →
  r.openVisit = some n → binAisle s v.bin = some a

section
variable (hown : CarriedByOwn s n v) (ha : binAisle s v.bin = some a) (hst : (zone s (zoneOf a)).state = .recovery)
include hown ha hst

/-- In a zone in RECOVERY no crane gives the visit FIRE. -/
theorem not_carriedClosed : ¬CarriedClosed s n := by
  rintro ⟨c, b, r, hclosed, hl, hr, ho⟩
  obtain rfl : a = c := Option.some.inj (ha.symm.trans (hown c b r hl hr ho))
  rw [zoneClosed, hst] at hclosed
  cases hclosed

theorem not_shutCarries : ¬ShutCarries (ordersGiven (recordsReset s)) n :=
  fun h => not_carriedClosed hown ha hst (.of_shut h)

end

/-- Where its zone leaves RECOVERY FIRE is lifted from the visit, but a crane of a zone in SHUTDOWN may give it again. -/
theorem visit_reopened (hv : visit s n = some v) (ho : v.outcome = none) (h : Reopened s (keptLeft s k) v) :
    ∃ w, visit (keptLeft s k) n = some w ∧ SameBut s v w ∧ (w.hold.reset = true → w.state = v.state) ∧
      (CarriedByOwn s n v → w.hold.fire = false ∧ (v.hold.fire = false ∨ w.hold ≠ HoldSet.none → w.state = v.state) ∧
        (v.hold.fire = true → w.hold = HoldSet.none → w.state = matchState v.state (binLocation s v.bin))) := by
  obtain ⟨x, hx⟩ := ordered_of_open hv ho
  obtain ⟨a, ha, hst, hr⟩ := reopens_of_reopened hx.visit hx.bin h
  obtain ⟨w, ⟨hw, hkeeps, hmatch⟩, -, hthen⟩ := visit_reopens (restful_ordersGiven _) hx.visit hx.outcome hx.held hr
  rw [hx.state] at hkeeps hmatch
  rw [hx.bin, binLocation_ordersGiven] at hmatch
  have hfire : w.hold.fire = false := by rw [hw]
  have hw' : w = { x with state := w.state, hold := { x.hold with fire := w.hold.fire } } := by
    rw [hfire]
    exact hw
  have hreset (hr : w.hold.reset = true) : w.state = v.state := hkeeps (.inr (reset_ne_none hr))
  rw [keptLeft, visit_withResets, blocksLeft]
  rcases hthen.cases with hthen | ⟨hshut, hthen⟩
  · refine ⟨w, hthen, hx.sameBut hw', hreset, fun hown => ⟨hfire, fun hv => hkeeps (hv.imp_left fun hv => ?_), fun hv => ?_⟩⟩
    · refine eq_false_of_ne_true fun hxf => ?_
      rcases hx.fire.mp hxf with hvf | hc
      · exact ne_true_of_eq_false hv hvf
      · exact not_carriedClosed hown ha hst hc
    · exact hmatch (hx.fire.mpr (.inl hv))
  · refine ⟨_, hthen, hx.sameBut ?_, hreset, fun hown => absurd hshut (not_shutCarries hown ha hst)⟩
    rw [hw]

end

end Sys2Proof.Machine

/-! Resets, how they begin and end and what they keep, put together (O9). -/

namespace Sys2Proof.Machine

section
variable {s t : State} {z : Station} {n : Nat} {k : ResetRec} {v : VisitRec}

/-! ### Visits that have ended, and free entries -/

/-- The entry is free, or its visit has ended. -/
def NotOpen (s : State) (n : Nat) : Prop := ∀ v, visit s n = some v → v.outcome ≠ none

theorem NotOpen.congr (h : NotOpen s n) (hv : visit t n = visit s n) : NotOpen t n := fun v h' => h v (hv ▸ h')

theorem notOpen_of_fires {p : Prop} {x x' : Option VisitRec} (h : Fires p x x') (hn : ∀ v, x = some v → v.outcome ≠ none) :
    x' = x := by
  cases x with
  | none => exact h.1 rfl
  | some v => exact (h.2 v rfl).2 (.inl (hn v rfl))

theorem notOpen_zoneProgress (h : Restful s) (hn : NotOpen s n) (z : Station) : visit (zoneProgress z s) n = visit s n := by
  by_cases hr : Reopens s z n
  · have hvisits : (recoveryLeft z s).visits = s.visits := (congrArg State.visits recoveredCranes_keeps :)
    rw [zoneProgress_recoverable hr.2.1 hr.2.2, visit_liftHoldWhere, visit_congr hvisits]
    cases hv : visit s n with
    | none => rfl
    | some v => rw [Option.map_some, if_neg fun hc => hn v hv hc.1]
  · obtain ⟨p, -, hfires⟩ := fires_zoneProgress h hr
    exact notOpen_of_fires hfires hn

theorem notOpen_progressOf (h : Restful s) (hn : NotOpen s n) (l : List Station) : visit (progressOf l s) n = visit s n := by
  induction l generalizing s with
  | nil => rfl
  | cons z l ih =>
    have hv := notOpen_zoneProgress h hn z
    exact (ih ((passes_zoneProgress h z).restful h) (hn.congr hv)).trans hv

/-- A reset leaves such an entry as it was. -/
theorem notOpen_keptLeft (hn : NotOpen s n) (k : ResetRec) : visit (keptLeft s k) n = visit s n := by
  have hreset : (visit s n).map (visitReset s) = visit s n := by
    cases hv : visit s n with
    | none => rfl
    | some v => rw [Option.map_some, visitReset_ended (hn v hv)]
  have hfires := fires_ordersGiven s n
  rw [hreset] at hfires
  have hordered : visit (ordersGiven (recordsReset s)) n = visit s n := notOpen_of_fires hfires hn
  rw [keptLeft, visit_withResets, blocksLeft, zonesProgress_eq,
    notOpen_progressOf (restful_ordersGiven _) (hn.congr hordered), hordered]

/-! ### An open visit, as the manual lists what becomes of it -/

theorem visit_spelled (hv : visit s n = some v) (ho : v.outcome = none) : ∃ w, visit (keptLeft s k) n = some w ∧
    w = { v with created := 0, reservation := false, state := w.state, hold := w.hold } ∧
    (w.hold.reset = true ↔ v.hold.reset = true ∨ v.state = .outbound ∨ v.state = .inbound ∨ v.state = .moving ∨
      v.state = .presenting ∨ (v.state = .withdrawing ∧ ∃ z, crossingMark s z = some v.bin)) ∧
    (w.hold.aisleSuspended = true ↔ v.hold.aisleSuspended = true ∨
      ∃ a, binAisle s v.bin = some a ∧ (aisleRec s a).suspension ≠ .inService) ∧
    w.hold.craneFault = v.hold.craneFault ∧ w.hold.stationOut = v.hold.stationOut ∧
    (w.hold.reset = true ∨ (∀ z, (zone s z).state ≠ .recovery) → w.state = v.state) ∧
    (¬Reopened s (keptLeft s k) v →
      (w.hold.fire = true ↔ v.hold.fire = true ∨ CarriedClosed s n) ∧ w.state = v.state) ∧
    (Reopened s (keptLeft s k) v → CarriedByOwn s n v → w.hold.fire = false ∧
      ((v.hold.fire = false ∨ w.hold ≠ HoldSet.none) → w.state = v.state) ∧
      (v.hold.fire = true → w.hold = HoldSet.none → w.state = matchState v.state (binLocation s v.bin))) := by
  by_cases h : Reopened s (keptLeft s k) v
  · obtain ⟨w, hw, hsame, hreset, hown⟩ := visit_reopened hv ho h
    obtain ⟨heq, hr, ha, hc, hs⟩ := sameBut_spelled ho hsame
    refine ⟨w, hw, heq, hr, ha, hc, hs, fun hor => hor.elim hreset fun hno => ?_, fun hn => absurd h hn, fun _ => hown⟩
    obtain ⟨a, -, hst, -⟩ := h
    exact absurd hst (hno _)
  · obtain ⟨w, hw, hsame, hstate, hfire⟩ := visit_not_reopened hv ho h
    obtain ⟨heq, hr, ha, hc, hs⟩ := sameBut_spelled ho hsame
    exact ⟨w, hw, heq, hr, ha, hc, hs, fun _ => hstate, fun _ => ⟨hfire, hstate⟩, fun hr => absurd hr h⟩

/-! ### Bins and settings -/

theorem forkMark_keptLeft (s : State) (k : ResetRec) (a : Aisle) : forkMark (keptLeft s k) a = none := by
  rw [forkMark, (retained_keptLeft s k).forkMarks, Vector.get_eq_getElem, Vector.getElem_replicate]

theorem crossingMark_keptLeft (s : State) (k : ResetRec) (z : Station) : crossingMark (keptLeft s k) z = none := by
  rw [crossingMark, (retained_keptLeft s k).crossingMarks, Vector.get_eq_getElem, Vector.getElem_replicate]

theorem param_word_keptLeft (s : State) (k : ResetRec) (i : Fin 41) : (keptLeft s k).params.get i =
    if oddOnes (s.params.get i).value = (s.params.get i).parity then s.params.get i
    else paramWord (defaultValues.getD i.val 0) := by
  rw [(retained_keptLeft s k).params, get_repairParams]

theorem mode_keptLeft (s : State) (k : ResetRec) : (keptLeft s k).mode =
    if ∀ i : Fin 41, oddOnes (s.params.get i).value = (s.params.get i).parity then s.mode else .commissioning := by
  rw [(retained_keptLeft s k).mode]
  simp only [needsRepair_not_iff]
  cases needsRepair s.params <;> rfl

theorem time_keptLeft (s : State) (k : ResetRec) :
    (keptLeft s k).time = ⟨0, ((keptLeft s k).params.get 6).value.toNat, 0⟩ := by
  rw [(retained_keptLeft s k).time, (retained_keptLeft s k).params]

/-- What a reset that keeps the retained state does to the records and the settings. -/
theorem records_spelled (s : State) (k : ResetRec) :
    (keptLeft s k).withdrawals = s.withdrawals ∧ (keptLeft s k).recordCount = s.recordCount ∧
    (keptLeft s k).pendingLends = s.pendingLends ∧ (keptLeft s k).protection = s.protection ∧ (keptLeft s k).day = s.day ∧
    (keptLeft s k).slots = s.slots ∧ (keptLeft s k).pending = s.pending ∧
    (∀ b : Nat, bin (keptLeft s k) b = (bin s b).map fun r => { r with
      uncertain := r.uncertain || onCrane r.location || decide (∃ a, forkMark s a = some b) ||
        decide (∃ z, crossingMark s z = some b)
      obstructed := r.obstructed || decide (∃ z, crossingMark s z = some b) }) ∧
    (∀ a, forkMark (keptLeft s k) a = none) ∧ (∀ z, crossingMark (keptLeft s k) z = none) ∧
    (∀ n : Nat, visit s n = none → visit (keptLeft s k) n = none) ∧
    ∀ (n : Nat) (v : VisitRec), visit s n = some v → v.outcome ≠ none → visit (keptLeft s k) n = some v := by
  have h := retained_keptLeft s k
  refine ⟨h.withdrawals, h.recordCount, h.pendingLends, h.protection, h.day, h.slots, h.pending, bin_keptLeft s k,
    forkMark_keptLeft s k, crossingMark_keptLeft s k, fun n hn => ?_, fun n v hv ho => ?_⟩
  · exact (notOpen_keptLeft (fun v hv => nomatch hn.symm.trans hv) k).trans hn
  · exact (notOpen_keptLeft (fun w hw => Option.some.inj (hv.symm.trans hw) ▸ ho) k).trans hv

theorem settings_spelled (s : State) (k : ResetRec) :
    (∀ i : Fin 41, (keptLeft s k).params.get i = if oddOnes (s.params.get i).value = (s.params.get i).parity then
      s.params.get i else paramWord (defaultValues.getD i.val 0)) ∧
    (keptLeft s k).mode = (if ∀ i : Fin 41, oddOnes (s.params.get i).value = (s.params.get i).parity then s.mode
      else .commissioning) ∧
    (keptLeft s k).link = { LinkRec.reset with hostOut := s.link.hostOut, attention := (keptLeft s k).link.attention } ∧
    (∀ i : Nat, (keptLeft s k).link.attention.getLsbD i = true ↔ i = 19 ∨
      (i = 18 ∧ ∃ j : Fin 41, oddOnes (s.params.get j).value ≠ (s.params.get j).parity) ∨
      ∃ z : Station, i = 13 + z.val ∧ (zone (keptLeft s k) z).state ≠ (zone s z).state) ∧
    (keptLeft s k).time = ⟨0, ((keptLeft s k).params.get 6).value.toNat, 0⟩ ∧
    (keptLeft s k).chanQ = ChannelRec.reset ∧ (keptLeft s k).chanP = ChannelRec.reset :=
  ⟨param_word_keptLeft s k, mode_keptLeft s k, link_keptLeft s k, attention_keptLeft s k, time_keptLeft s k,
    (retained_keptLeft s k).chanQ, (retained_keptLeft s k).chanP⟩

end

/-- Settles O9. -/
theorem resetsBeginAndEnd : Obligations.ResetsBeginAndEnd := by
  unfold Obligations.ResetsBeginAndEnd
  refine ⟨fun bkok s => ⟨resetAsserted_again, resetAsserted_begins, powerOn_begins, resetReleased_high,
    fun cause => resetReleased_leaves⟩, fun n bkok s => ⟨exec_restart, readReply_restarts n, restartTimeout_restarts,
    restartTimeout_waits, powerOn_high⟩, fun cause s t hc ht => ?_⟩
  obtain ⟨u, ⟨⟨r, d, hu⟩, -, -⟩, rfl⟩ := reset_kept hc ht
  obtain ⟨h1, h2, h3, h4, h5, h6, h7, hbin, hfork, hcrossing, hnone, hended⟩ :=
    records_spelled u ⟨s.resets.pinLow, none, cause⟩
  obtain ⟨hparams, hmode, hlink, hattention, htime, hq, hp⟩ := settings_spelled u ⟨s.resets.pinLow, none, cause⟩
  have hvisit := fun (n : Nat) (v : VisitRec) => visit_spelled (s := u) (n := n) (v := v) (k := ⟨s.resets.pinLow, none, cause⟩)
  generalize ht' : keptLeft u ⟨s.resets.pinLow, none, cause⟩ = t at *
  have hresets : t.resets = ⟨s.resets.pinLow, none, cause⟩ := by rw [← ht', keptLeft, withResets]
  clear ht ht'
  subst hu
  refine ⟨hresets, h1, h2, h3, h4, h5, h6, h7, fun b => (hbin b).trans ?_, hfork, hcrossing, hnone, hended, hvisit, hparams,
    hmode, hlink, hattention, htime, hq, hp⟩
  refine congrArg (Option.map · (bin s b)) (funext fun y => ?_)
  rcases y with ⟨_, _, _, _, _, _, _, _, _, location, _⟩
  cases location <;> rfl

end Sys2Proof.Machine
